-- ==== Sys2Proof/Word.lean ====
section
/-!
DEFINITION. The widths the manual names (R7): a byte, a gate-side word, a weft-side word.
-/

namespace Sys2Proof

abbrev Byte := BitVec 8
/-- A gate-side register word (R7). -/
abbrev Word := BitVec 32
/-- A weft-side register word (R7). -/
abbrev DWord := BitVec 64

end Sys2Proof
end

