-- ==== Sys2Proof/Syntax.lean ====
section
/-!
DEFINITION. The commands of the JXH256 as data: one constructor of `Instr` for each row of
spec/opcode_table.json. The rows give no bits and no operands; each operand below is a field that the
row's rule names, or what the outside world supplies at that event (log 2).
-/

namespace Sys2Proof

/-- What a read of a SECDED word finds wrong with it (R120, R465): an upset the code corrects, one it detects
and cannot correct, and the two further outcomes R120 allows for three or more bits. -/
inductive UpsetKind where
  | corrected
  | uncorrectable
  | miscorrected (v : DWord)
  | silent (v : DWord)
deriving DecidableEq, Repr

/-- Upsets of a store: 64-bit word index and kind. -/
abbrev Upsets := List (Nat × UpsetKind)

/-- The monitors during MRAM programming (R40, R78, R133): the work clock at which the period monitor trips,
the work clock from which VDD_NV reads low, and the upsets the clean words of the winner show (R135). -/
structure ProgMon where
  clockTrip : Option Nat
  nvLow     : Option Nat
  upsets    : Upsets
  stageUpsets : Upsets
deriving DecidableEq, Repr

/-- What OPEN's reads find (R128): upsets of the two banks and of the factory row, and the winner's words that
need correction at the tightened reference of pass 2. -/
structure OpenFinds where
  bankA   : Upsets
  bankB   : Upsets
  factory : Upsets
  weak    : List Nat
deriving DecidableEq, Repr

/-- How a gate-side word reaches its register: an unsealed WRITE, or a SEALED WRITE whose verdict lets it take
effect (R69, R101). -/
inductive Via where
  | unsealed
  | sealed
deriving DecidableEq, Repr

/-- A register write of either side (R10). -/
inductive RegWrite where
  | gate (addr : BitVec 10) (data : Word) (via : Via)
  | weft (addr : BitVec 57) (data : DWord) (owner : BitVec 8)
deriving DecidableEq, Repr

/-- A gate-port frame as its edges carry it (R63), for a frame that is cut short (R86). -/
inductive Frame where
  | read (addr : BitVec 10) (n : BitVec 6)
  | write (addr : BitVec 10) (data : List Word)
  | sealedWrite (field : BitVec 16) (data ctr : Word) (tag : DWord)
  | sealedCommand (code : BitVec 16) (arg ctr : Word) (tag : DWord) (mon : ProgMon)
  | openFrame (finds : OpenFinds)
  | status
  | ident
  | undefinedOp (op : BitVec 8)
deriving DecidableEq, Repr

/-- The rail monitors and reference detector as they read (R44, R46); `lsram` 0 absent, 1 retention, 2 run. -/
structure Rails where
  nv : Bool
  mic : Bool
  loomv : Bool
  lsram : BitVec 2
  pll : Bool
  link : Bool
  lref : Bool
deriving DecidableEq, Repr

/-- The two routes of a host TENANT reset (R360). -/
inductive TenantResetReq where
  | doorbell (t : BitVec 8) (value : DWord)
  | register (value : DWord)
deriving DecidableEq, Repr

/-- The rail that a powered module loses (R154). -/
inductive LinkRail where
  | pll
  | link
deriving DecidableEq, Repr

/-- The sealed escalation registers (R415). -/
inductive EscWrite where
  | ctrl (data : Word)
  | tenant (data : Word)
deriving DecidableEq, Repr

/-- The losses of R45. -/
inductive LossKind where
  | loomv
  | lsram (level : BitVec 2)
  | pllv
  | pllLock
  | noLock
deriving DecidableEq, Repr

/-- What the end of an exit phase brings (R151): straps as the pins stand and the self-test's
failures. -/
structure PhaseResult where
  straps : BitVec 3
  failedTiles : List (BitVec 8)
  failedReels : List (BitVec 9)
deriving DecidableEq, Repr

/-- A write to one of G_SENS_CTRL0-2 (R190). -/
inductive SensorWrite where
  | ctrl0 (data : Word)
  | ctrl1 (data : Word)
  | ctrl2 (data : Word)
deriving DecidableEq, Repr

/-- One channel over one hop: the decimators' raw results before trims (R172, R186), and each band's mean
square over its last 128 outputs as a fraction (R175). The manual gives neither arithmetic (log 10). -/
structure ChannelHop where
  lp    : List Int
  hq    : List Int
  bands : List (Nat × Nat)
deriving DecidableEq, Repr

/-- What the hop that ends brings: both channels, and for each sensor axis its low and its high energy, each the mean over
the axis's last 16 samples as a fraction (R185). -/
structure HopInput where
  ch0 : ChannelHop
  ch1 : ChannelHop
  axes : List ((Nat × Nat) × (Nat × Nat))
deriving DecidableEq, Repr

/-- The four mesh directions, in the order of the bundle's MESH fields (R233). -/
inductive Dir where
  | n
  | e
  | s
  | w
deriving DecidableEq, Repr

/-- The outcome of a warp training phase as the two ends find it (R379-R381). -/
structure WarpOutcome where
  completed : Bool
  rate      : BitVec 2
  reversed  : Bool
  ident     : Word
  partnerPos : BitVec 3
  partnerPoint : BitVec 3
  rtMax     : Nat
  rtMin     : Nat
deriving DecidableEq, Repr

/-- A timed frame as it arrives: its 80 bytes, and the frame slot in which the partner sent it, as an lc of this die (R375, R377). -/
structure WireFrame where
  slot  : Nat
  bytes : List Byte
deriving DecidableEq, Repr

/-- Why a weft module retrains (R336). -/
inductive WeftRetrainCause where
  | naks
  | ackTimeout
  | linkLoss
deriving DecidableEq, Repr

/-- Why a warp module retrains (R396). -/
inductive WarpRetrainCause where
  | crcRun
  | linkLoss
  | emptySlots
deriving DecidableEq, Repr

/-- What holds a request at its rails (R154, R44): the module that waits, none where the exit waits, and the monitors as they read. -/
structure Absence where
  link  : Option (Fin 6)
  rails : Rails
deriving DecidableEq, Repr

/-- EXTEST: the gate frame that it cuts, and its boundary scans, each the bumps at the capture and the cells shifted in (R56, R57). -/
structure BoundaryTest where
  inFrame : Option (Frame × Nat)
  scans   : List (BitVec 19 × BitVec 19)
deriving DecidableEq, Repr

/-- BYPASS: the opcode that selects it and the bits then shifted in (R55). -/
structure BypassScan where
  op  : BitVec 4
  tdi : List Bool
deriving DecidableEq, Repr

/-- What a slot start finds: upsets of the draft stores, and tiles that hold the draft no more (R249, R465). -/
structure SlotFinds where
  upsets  : Upsets
  misheld : List (BitVec 8)
deriving DecidableEq, Repr

/-- The operands of MAC (R287). -/
structure MacField where
  wfmt : BitVec 4
  afmt : BitVec 4
  acc  : BitVec 6
  clr  : Bool
  zpm  : BitVec 2
  zp   : BitVec 8
  ar0  : BitVec 4
  ar1  : BitVec 4
  wh   : Bool
  ah   : Bool
  asrc : BitVec 3
deriving DecidableEq, Repr

/-- The VEC field without OP (R294). -/
structure VecField where
  d    : BitVec 5
  a    : BitVec 5
  b    : BitVec 5
  c    : BitVec 5
  type : BitVec 3
  rna  : Bool
  part : BitVec 2
  imm  : Word
deriving DecidableEq, Repr

/-- The QNT field without OP (R306). -/
structure QntField where
  site : BitVec 4
  vreg : BitVec 5
  half : Bool
  step : Bool
  x    : Bool
  src  : BitVec 3
  obf  : Bool
  ar   : BitVec 4
  imm  : Word
deriving DecidableEq, Repr

/-- The commands, one constructor per row of spec/opcode_table.json, in the table's order. `extra` is the number of
ignored GSCLK clocks sent after a frame's last defined clock (R59). -/
inductive Instr where
  -- power-on reset (R46)
  | por
  | porRelease (rails : Rails) (straps : BitVec 3)
  -- gate frames
  | read (addr : BitVec 10) (n : BitVec 6) (extra : Nat)
  | windowRead (n : BitVec 6) (extra : Nat)
  | tallyLoRead (n : BitVec 3)
  | write (addr : BitVec 10) (data : List Word) (extra : Nat)
  | registerWrite (w : RegWrite)
  | sealedWrite (field : BitVec 16) (data ctr : Word) (tag : DWord) (extra : Nat)
  | lockoutEnd
  | unknownCommand (code : BitVec 16) (arg ctr : Word) (tag : DWord) (extra : Nat)
  | commit (arg ctr : Word) (tag : DWord) (mon : ProgMon) (extra : Nat)
  | reserve (arg ctr : Word) (tag : DWord) (mon : ProgMon) (extra : Nat)
  | keyPart (k : BitVec 2) (arg ctr : Word) (tag : DWord) (extra : Nat)
  | keyInstall (arg ctr : Word) (tag : DWord) (extra : Nat)
  | keyRetire (arg ctr : Word) (tag : DWord) (extra : Nat)
  | keyDecommission (arg ctr : Word) (tag : DWord) (extra : Nat)
  | firstKeyInstall
  | openGranary (finds : OpenFinds) (extra : Nat)
  | status (extra : Nat)
  | ident (extra : Nat)
  | undefinedOpcode (op : BitVec 8) (extra : Nat)
  | shortFrame (f : Frame) (clocks : Nat)
  | stageDataWrite (data : Word) (via : Via)
  | stageWinWrite (k : BitVec 4) (data : Word) (via : Via)
  -- resets, power and links
  | gateReset (data : Word)
  | watchReset (data : Word)
  | loomTarget (target : BitVec 2) (cut : Bool)
  | loomReset
  | gateTenantReset (t : BitVec 8)
  | hostTenantReset (r : TenantResetReq)
  | linkOnRequest (m : Fin 6)
  | linkOff (m : Fin 6)
  | linkPowerUp (m : Fin 6)
  | linkRailLoss (m : Fin 6) (rail : LinkRail)
  | supplyAbsent (a : Absence)
  | tenantBlock (n : BitVec 3) (data : Word)
  | tenantAbort (n : BitVec 3) (data : Word)
  | blockSampled (t : BitVec 8)
  | escCtrlWrite (w : EscWrite)
  | aonclkLock
  | aonclkLoss
  | watchMemoryCleared
  | thermAssert
  | thermRelease
  | vddaMicLoss
  | vddaMicReturn
  | supplyLost (what : LossKind)
  | lsramRunLevel
  | l3ExitStart
  | exitPhaseEnd (r : PhaseResult)
  | orderingPoint (lcs : Nat)
  | hostPowerRequest (target : BitVec 2) (tenant : BitVec 8)
  | loomMoveDone
  | drainEnd
  -- JTAG (R55-R57)
  | extest (x : BoundaryTest)
  | samplePreload (bumps : BitVec 19) (preload : BitVec 19)
  | clamp (inFrame : Option (Frame × Nat))
  | highz (inFrame : Option (Frame × Nat))
  | bypass (x : BypassScan)
  | testLogicReset
  -- front end
  | channelEnable (ch : BitVec 1)
  | channelDisable (ch : BitVec 1)
  | gainChange (ch : BitVec 1) (gain : BitVec 3)
  | biasedSet (ch : BitVec 1)
  | biasEnable
  | biasDisable
  | biasVoltChange (volt : BitVec 2)
  | biasRangeChange (range : BitVec 2)
  | hqPathChange (on : Bool)
  | encoderEnable (ch : BitVec 1)
  | encoderSettings (data : Word)
  | sensorPortEnable
  | sensorPortDisable
  | sensorSettings (w : SensorWrite)
  | sampleTick
  | sensorTransactionEnd (bytes : List Byte)
  | trimRead
  | rampEnd
  | hdrmChange (on : Bool)
  | limitChange (on : Bool)
  | micbFault
  | faultMuteEnd
  | zeroMuteEnd (ch : BitVec 1)
  | hopBoundary (h : HopInput)
  -- watch cores, bell and loft
  | arm
  | disarm
  | wcMemDataWrite (data : Word)
  | wcMemWinWrite (k : BitVec 4) (data : Word)
  | watchStep
  | deliveryCutoff
  | stepEnd (gcsLow : Bool)
  | windowPublish
  | bellAction
  | bellAck
  | loftFreeze
  | loftRelease
  -- escalation
  | escalationCopyStart
  | escalationEntry
  | escalationAnswer
  | escalationTimeout
  -- drafts, clock point, stretch
  | draftNew (id : BitVec 10) (tenant : BitVec 8)
  | draftHot (id : BitVec 10) (tenant : BitVec 8)
  | draftCold (id : BitVec 10) (tenant : BitVec 8)
  | draftUnload (id : BitVec 10) (tenant : BitVec 8)
  | imageFetch (rows : Nat)
  | dmaRow (e : BitVec 10)
  | tileWalkDone (t : BitVec 8)
  | pointChange (point : BitVec 3)
  | relockDone (periods : Nat)
  | stretchClr
  | droopTrip
  | stretchedCycle
  -- weave and passes
  | repeatBoundary
  | slotStart (e : BitVec 10) (finds : SlotFinds)
  | passEnd (e : BitVec 10)
  -- CTL (R234). A command of a bundle names the operands that the bundle in the tile's draft store holds (R233)
  | next (t : BitVec 8)
  | loop (t : BitVec 8) (iters : BitVec 20)
  | endloop (t : BitVec 8) (mask : BitVec 4)
  | wait (t : BitVec 8) (lcs : BitVec 20)
  | waitEnd (t : BitVec 8)
  | halt (t : BitVec 8) (upsets : Upsets)
  | seta (t : BitVec 8) (cnt : BitVec 2) (value stride : BitVec 8)
  -- banks and mesh
  | bankRead (t : BitVec 8) (k : BitVec 2) (upsets : Upsets)
  | bankWrite (t : BitVec 8) (k : BitVec 2)
  | meshSend (t : BitVec 8) (d : Dir)
  | meshDelivery (t : BitVec 8) (d : Dir)
  | resultReady (t : BitVec 8)
  -- MXU (R287)
  | loadw (t : BitVec 8) (row : BitVec 5) (target : BitVec 2)
  | swapw (t : BitVec 8)
  | mac (t : BitVec 8) (f : MacField)
  | drain (t : BitVec 8) (acc : BitVec 6) (mode : BitVec 2) (dst : BitVec 5) (h : Bool)
  | corr (t : BitVec 8) (wfmt : BitVec 4) (acc : BitVec 6) (ar0 ar1 : BitVec 4)
  -- VEC (R295)
  | vecNop (t : BitVec 8)
  | ldq (t : BitVec 8) (f : VecField)
  | ldw (t : BitVec 8) (f : VecField)
  | ldh (t : BitVec 8) (f : VecField)
  | stq (t : BitVec 8) (f : VecField)
  | movi (t : BitVec 8) (f : VecField)
  | add (t : BitVec 8) (f : VecField)
  | sub (t : BitVec 8) (f : VecField)
  | mul (t : BitVec 8) (f : VecField)
  | min (t : BitVec 8) (f : VecField)
  | max (t : BitVec 8) (f : VecField)
  | and (t : BitVec 8) (f : VecField)
  | or (t : BitVec 8) (f : VecField)
  | xor (t : BitVec 8) (f : VecField)
  | shl (t : BitVec 8) (f : VecField)
  | shr (t : BitVec 8) (f : VecField)
  | cmplt (t : BitVec 8) (f : VecField)
  | cmpeq (t : BitVec 8) (f : VecField)
  | sel (t : BitVec 8) (f : VecField)
  | perm (t : BitVec 8) (f : VecField)
  | cvt (t : BitVec 8) (f : VecField)
  | fma (t : BitVec 8) (f : VecField)
  | rsum (t : BitVec 8) (f : VecField)
  | rmax (t : BitVec 8) (f : VecField)
  | exp (t : BitVec 8) (f : VecField)
  | rcp (t : BitVec 8) (f : VecField)
  | rsq (t : BitVec 8) (f : VecField)
  -- QNT (R306)
  | quant (t : BitVec 8) (f : QntField)
  | deq (t : BitVec 8) (f : QntField)
  | cfg0 (t : BitVec 8) (f : QntField)
  | cfg1 (t : BitVec 8) (f : QntField)
  | cfg2 (t : BitVec 8) (f : QntField)
  | flush (t : BitVec 8) (f : QntField)
  | stats (t : BitVec 8) (f : QntField)
  | ldside (t : BitVec 8) (f : QntField)
  -- attention engines
  | attend (r : BitVec 4) (handle : BitVec 2) (lane : BitVec 8 × BitVec 8) (upsets : Upsets)
  | append (r : BitVec 4) (handle : BitVec 2) (lane : BitVec 8 × BitVec 8) (upsets : Upsets)
  | engineOutput (r : BitVec 4)
  -- apertures
  | apertureWrite (m : BitVec 1) (addr : BitVec 57) (data : List Byte) (owner : BitVec 8)
  | apertureRead (m : BitVec 1) (addr : BitVec 57) (size : BitVec 2) (tag : BitVec 12) (owner : BitVec 8)
  | kvApertureWrite (m : BitVec 1) (addr : BitVec 57) (data : List Byte) (owner : BitVec 8)
  | kvApertureRead (m : BitVec 1) (addr : BitVec 57) (size : BitVec 2) (tag : BitVec 12) (owner : BitVec 8)
  | apertureApply (m : BitVec 1) (i : Nat) (upsets : Upsets)
  | apertureReadTimeout (m : BitVec 1) (i : Nat)
  -- weft link and rings
  | weftTrained (m : BitVec 1) (rate : BitVec 2) (reversed : Bool) (posted nonposted : BitVec 8)
  | weftTrainRetry (m : BitVec 1)
  | weftRetrain (m : BitVec 1) (cause : WeftRetrainCause)
  | flitReceive (m : BitVec 1) (bytes : List Byte) (upset : Upsets)
  | readResp (m : BitVec 1) (tag : BitVec 12) (status : BitVec 4) (data : List Byte)
  | doorbellTail (ring : BitVec 10) (value : Word)
  | doorbellHead (ring : BitVec 10) (value : Word)
  | ringEnable (ring : BitVec 10) (cfg : DWord)
  | ringDisable (ring : BitVec 10) (cfg : DWord)
  | partitionWrite (t : BitVec 8) (data : DWord)
  | weaveSwap
  | weaveCheckDone
  -- admission
  | submissionFetch (n : BitVec 2)
  | run
  | seqOpen
  | seqClose
  | submitNop
  | recordIssue
  -- bobbin
  | save
  | restore
  | bobbinNop
  | bobbinMove (upsets : Upsets)
  | bobbinWeftWrite
  | restoreCheck
  | bobbinCtrlWrite (data : DWord)
  -- warp links
  | warpTrain (data : DWord)
  | warpPhaseEnd (m : BitVec 2) (o : WarpOutcome)
  | warpTrainRetry (m : BitVec 2)
  | warpRetrain (m : BitVec 2) (cause : WarpRetrainCause)
  | warpFrameSend (m : BitVec 2)
  | warpFrameDelivery (m : BitVec 2) (frame : WireFrame)
  -- tally and clock-domain steps
  | watchTallySelect (n : BitVec 3) (src : BitVec 8)
  | watchTallyClr (n : BitVec 3)
  | loomTallySelect (n : BitVec 6) (data : DWord)
  | loomTallyClr (n : BitVec 6)
  | writeReachesWatchman
  | grayCountSample (clocks : Nat)
  | ackInterval (m : BitVec 1)
deriving DecidableEq, Repr

end Sys2Proof
end

