-- ==== Sys2Proof/Config.lean ====
section
/-!
DEFINITION. What the manual fixes by number for every die, and the free values of the model.
-/

namespace Sys2Proof.Config

/-- A byte of a place whose contents the manual leaves undefined (R436): nothing is known of it (log 3). -/
opaque freeByte : Nat → Byte

/-- A byte of a row that a unit takes in an lc in which nothing was delivered to it: the manual states no value (log 12). -/
opaque freeRowByte : Nat → Byte

/-- Side-list entries per record and group size of 64 that the multiplier array of a tile takes for its activation side
register: the manual names no field that tells it (log 13). -/
opaque mxuSideEntries : Nat → BitVec 2
opaque mxuGroup64 : Nat → Bool

/-- The level of CHAIN_POS[2:0] when a LOOM reset samples the straps: the board sets it (R36, R394; log 42). -/
opaque strapPins : Nat → BitVec 3

/-- The owner of a register write that its command does not name (R334; log 40). -/
opaque freeOwner : Nat → BitVec 8

/-- R1. -/
def ident : Word := 0x5A3256B0
/-- R155. -/
def resetKey : BitVec 16 := 0x6A7E
/-- R99. -/
def lockoutClocks : Nat := 65536
/-- R98, R99. -/
def lockoutRun : Nat := 16
/-- R103, R104. -/
def reserveStep : Nat := 1024
/-- R103, R104. -/
def reserveLimit : Nat := 0xFFFFFBFF
/-- R498: watchman clocks in a hop. -/
def hopClocks : Nat := 12288
/-- R117. -/
def bankBytes : Nat := 16384
/-- R118: PLEN. -/
def payloadBytes : Nat := 16320
/-- R217. -/
def loftHalf : Nat := 2000
/-- R214. -/
def sustainedHops : Nat := 60001
/-- R231: bytes of one tile bank, banks of a tile. -/
def tileBank : Nat := 16384
/-- R231. -/
def tileBanks : Nat := 10
/-- R307. -/
def reelBytes : Nat := 32768
/-- R307. -/
def reels : Nat := 512
/-- R231: bytes of a tile's draft store, and of a page (R246). -/
def storeBytes : Nat := 32768
/-- R246. -/
def pageBytes : Nat := 1024

end Sys2Proof.Config
end

