-- ==== Sys2Proof/Machine/State.lean ====
section
/-!
DEFINITION. The state of the JXH256 as plain data, its reset value, and the reasons a step could stop.
Docstrings name the rule that gives each piece; INVENTORY.md lists all of them with their reset values.
-/

namespace Sys2Proof.Machine

/-- A sparse store: keys rising, no entry at the store's default value. -/
abbrev Sparse (α : Type) := List (Nat × α)

/-- An addressed store of bytes; an unlisted address reads zero (log 6). -/
abbrev Memory := List Host.Cell

/-! ## Gatehouse -/

/-- A run of clocks on GSDO: high impedance, driven low, or `width` bits shifted most significant first (R58, R59, R75). -/
inductive Drive where
  | highZ (clocks : Nat)
  | low (clocks : Nat)
  | bits (width value : Nat)
deriving DecidableEq, Repr

/-- The gate port (03): status, alert mask, counters, the short-frame flag, the snapshot buffer and GSDO over the clocks of the
last frame, from its clock 1. -/
structure GatePort where
  lastCode  : Byte
  lastOp    : Byte
  sealSkip  : Bool
  badOp     : Bool
  alertMask : BitVec 13
  aborts    : BitVec 16
  shortFlag : Bool
  shortOp   : Option Byte
  snap      : List Word
  gsdo      : List Drive
  grayAborts  : Byte
  grayFails   : Byte
  grayOk      : Byte
  grayCommits : Byte
  dieLo     : Word
  dieHi     : Word
  debugReg     : BitVec 2
deriving DecidableEq, Repr

/-- A slot's state (R95, R116). -/
inductive SlotState where
  | empty
  | active
  | retired
deriving DecidableEq, Repr

/-- A staged key slot with its live counter (04). -/
structure KeySlot where
  key    : BitVec 128
  st     : SlotState
  rights : BitVec 6
  h      : Word
  c      : Word
deriving DecidableEq, Repr

/-- The seal engine (04). -/
structure Seal where
  slots    : Sparse KeySlot
  total    : BitVec 16
  consec   : BitVec 5
  lockLeft : BitVec 17
  locked   : Bool
  loadKey  : BitVec 128
  parts    : BitVec 4
  init0    : Word
  init1    : Word
  init2    : Word
  init3    : Word
  initResult : BitVec 3
deriving DecidableEq, Repr

/-- G_GRAN_STATE.STATE (R144). -/
inductive GranOpen where
  | closed
  | openA
  | openB
  | empty
deriving DecidableEq, Repr

/-- The granary (05): MRAM banks, factory row, staging deltas with their dirty map, and the open image. -/
structure Granary where
  bankA   : Memory
  bankB   : Memory
  upA     : Upsets
  upB     : Upsets
  factory : Memory
  upF     : Upsets
  deltas  : List (Nat × Word)
  upS     : Upsets
  st      : GranOpen
  verdictA : BitVec 2
  verdictB : BitVec 2
  corrected : Byte
  weak    : Byte
  absent  : BitVec 4
  lastCommit : BitVec 3
  seqA    : Word
  seqB    : Word
  offset  : BitVec 12
deriving DecidableEq, Repr

/-- The rail monitors, reference detector, straps and thermal comparator (02, R46, R490). -/
structure Monitors where
  por    : Bool
  rails  : Rails
  pllLock : Bool
  straps : BitVec 3
  therm  : Bool
deriving DecidableEq, Repr

/-! ## Loom power -/

/-- The loom power states (R147). -/
inductive LoomState where
  | l0
  | l1
  | l2
  | l3
deriving DecidableEq, Repr

/-- Where the loom stands between its power states (R44, R150, R151, R156, R159). -/
inductive Stage where
  | steady
  | exitHeld
  | exitPhase (n : Nat) (withdrawn : Bool)
  | lsramHold (dest : LoomState)
  | move (dest : LoomState)
  | drain (reset : Bool)
  | resetHold
  | resetMove
  | resetPhase (n : Nat)
deriving DecidableEq, Repr

/-- G_LOOM_CONFLICT (03). -/
structure LoomConflict where
  loser  : BitVec 2
  kind   : BitVec 2
  gate   : BitVec 2
  host   : BitVec 2
  tenant : Byte
  cut    : Bool
deriving DecidableEq, Repr

/-- The loom's power control and the gate side of the loom bridge (03, 06). `tresetFor` names the tenants whose TRESET waits for its
boundary (R168); `drained` holds from the start of a drain until the loom returns (R159). -/
structure Power where
  reqTarget : BitVec 2
  reqCut    : Bool
  reqReset  : Bool
  reqTenant : Byte
  reqTreset : Bool
  tresetFor : List Nat
  linkReq   : BitVec 6
  st        : LoomState
  stage     : Stage
  target    : LoomState
  byHost    : Bool
  hostTenant : Byte
  reached   : Bool
  drained   : Bool
  gateReq   : Option LoomState
  weftReqs  : List (LoomState × Byte × Nat)
  bellWake  : Bool
  resetOwed : Bool
  chainPos  : BitVec 3
  epoch     : Byte
  hostTarget : BitVec 2
  gateLast  : BitVec 2
  tilesOk   : BitVec 256
  reelsBad  : BitVec 512
  block     : BitVec 256
  abort     : BitVec 256
  conflicts : BitVec 16
  conflict  : LoomConflict
  powered   : BitVec 6
  held      : BitVec 6
deriving DecidableEq, Repr

/-! ## Links -/

/-- What a device-to-host transaction carries (R334). -/
inductive TxnKind where
  | write
  | read
  | resp (status : BitVec 4)
  | idle
deriving DecidableEq, Repr

/-- Why the device sends a transaction, for the reader of a trace. -/
inductive TxnWhat where
  | record (ring : Nat) (index : Nat)
  | event (ring : Nat) (index : Nat)
  | notify (ring : Nat)
  | fetch (ring : Nat)
  | image
  | checkpoint
  | answer
  | nothing
deriving DecidableEq, Repr

structure DevTxn where
  kind   : TxnKind
  addr   : Nat
  data   : List Byte
  len    : Nat
  tag    : Nat
  tenant : Nat
  what   : TxnWhat
deriving DecidableEq, Repr

/-- A host-to-device transaction in a module's inbound queue (R334, R338). -/
structure HostTxn where
  isRead : Bool
  addr   : Nat
  size   : Nat
  data   : List Byte
  tag    : Nat
  owner  : Nat
  bad    : Bool
deriving DecidableEq, Repr

/-- An aperture access that waits: a parked write or a read, since an L_NOW and an lc (R253, R254). -/
structure Waiting where
  isRead : Bool
  kv     : Bool
  addr   : Nat
  size   : Nat
  data   : List Byte
  tag    : Nat
  owner  : Nat
  since  : Nat
  lc     : Nat
deriving DecidableEq, Repr

/-- One weft module (12). -/
structure WeftModule where
  trained  : Bool
  rate     : BitVec 2
  reversed : Bool
  retrains : BitVec 16
  malformed : BitVec 16
  txSeq    : BitVec 12
  rxSeq    : BitVec 12
  dropping : Bool
  nakFor   : Option (BitVec 12 × Nat)
  ackOut   : BitVec 2
  ackSeqOut : BitVec 12
  rxSince  : Nat
  replay   : List (BitVec 12 × DevTxn)
  txq      : List DevTxn
  resent   : List DevTxn
  hostPosted    : Nat
  hostNonposted : Nat
  devPosted     : Nat
  devNonposted  : Nat
  oweP     : Nat
  oweN     : Nat
  flits    : List (BitVec 12 × List Byte)
  inq      : List HostTxn
  park     : List Waiting
  dropped  : Sparse Nat
deriving DecidableEq, Repr

/-- A mark that waits for the follower's occurrence it has claimed (R386). -/
structure Mark where
  id  : Nat
  s   : Nat
  claim : Nat
deriving DecidableEq, Repr

/-- One warp module (13). -/
structure WarpModule where
  train    : Bool
  fail     : BitVec 4
  phase    : BitVec 3
  lat      : BitVec 16
  locked   : Bool
  point    : BitVec 3
  rate     : BitVec 2
  reversed : Bool
  crc      : BitVec 16
  poison   : BitVec 16
  missed   : Byte
  unowned  : Byte
  remembered : Option (BitVec 16)
  partnerLocked : Bool
  crcRun   : Nat
  heard    : Nat
  syncOwed : Nat
  txMarks  : List (Nat × Nat)
  txStretch : List (Nat × Nat)
  txNotices : List Nat
  sent     : List Byte
  marks    : List Mark
  credits  : Nat
  rx       : List (Nat × List Byte)
deriving DecidableEq, Repr

/-! ## JTAG -/

inductive JtagInstr where
  | extest
  | samplePreload
  | clamp
  | highz
  | bypass
deriving DecidableEq, Repr

/-- The controller states of IEEE 1149.1 (R55, log 38). -/
inductive TapState where
  | testLogicReset
  | runTestIdle
  | selectDr
  | captureDr
  | shiftDr
  | exit1Dr
  | pauseDr
  | exit2Dr
  | updateDr
  | selectIr
  | captureIr
  | shiftIr
  | exit1Ir
  | pauseIr
  | exit2Ir
  | updateIr
deriving DecidableEq, Repr

/-- The TAP: controller, instruction register, bypass bit, boundary register with its update latches, and the bits that the last
command shifted to TDO (R55, R56). -/
structure Jtag where
  tap      : TapState
  ir       : BitVec 4
  instr    : JtagInstr
  skip     : Bool
  boundary : BitVec 19
  update   : BitVec 19
  tdo      : List Bool
deriving DecidableEq, Repr

/-! ## Watchman -/

/-- A gate write on its way to the watchman, with the clock of its commit edge (R80). -/
structure InFlightWrite where
  addr : BitVec 10
  data : Word
  via  : Via
  at_  : Nat
deriving DecidableEq, Repr

/-- One level-crossing encoder (R177). -/
structure Encoder where
  armed : Bool
  qPrev : Nat
deriving DecidableEq, Repr

/-- The two-bit frame state of R174 and R218. -/
inductive FrameState where
  | clean
  | zero
  | fault
  | blank
deriving DecidableEq, Repr

/-- One channel's own state (07). `edges` are the starts and stops of its decimators since the last boundary, oldest first (R196). -/
structure Channel where
  muteEnd   : Nat
  feBit     : Bool
  zeroSeen  : Bool
  faultSeen : Bool
  feBroken  : Bool
  owesFe    : Bool
  cleanRun  : Nat
  ovl       : Bool
  capLp     : BitVec 16
  capHq     : BitVec 16
  capMuted  : Bool
  edges     : List (Nat × Bool)
  lastState : FrameState
  frameLp   : List (BitVec 16)
  frameHq   : List (BitVec 16)
deriving DecidableEq, Repr

/-- The front end (07). -/
structure FrontEnd where
  feCtrl   : Word
  micbCtrl : Word
  decCtrl  : Word
  fbCtrl   : Word
  fbNow    : Word
  sens0    : Word
  sens1    : Word
  sens2    : Word
  sensNow0 : Word
  sensNow1 : Word
  sensNow2 : Word
  hdrm     : Bool
  limit    : Bool
  fault    : Bool
  hdrmSeen : Bool
  limitSeen : Bool
  hdrmSince  : Option Nat
  limitSince : Option Nat
  goodSince : Option Nat
  rampFrom : Nat
  rampGoal : Nat
  rampStart : Nat
  ramping  : Bool
  biasOwes : BitVec 2
  chan     : Sparse Channel
  hqEdges  : List (Nat × Bool)
  trims    : List Byte
  oldTrims : List (Nat × List Byte)
  micbTrims : List Byte
  enc      : Sparse Encoder
  gridOn   : Bool
  hopNext  : Nat
  hopCount : Nat
  nextTick : Nat
  sensBusy : Bool
  sensTxn  : Word × Word
  sensStart : Nat
  sensReady : Bool
  stuck    : Bool
  stuckSeen : Bool
  stuckRun : Nat × Byte
  axisHist : Sparse (List Int)
  taken    : Nat
deriving DecidableEq, Repr

/-- A spike event token in a delay slot (R204): its source core and the projection header's word. -/
structure Token where
  src    : Nat
  header : Nat
deriving DecidableEq, Repr

/-- The step in progress (R205-R207). -/
inductive StepStage where
  | none
  | cutoff (leftover : Sparse (List Token))
  | ended
deriving DecidableEq, Repr

/-- One baseline's own state (R212, R214, R215). -/
structure Baseline where
  b       : BitVec 24
  timer   : Nat
  sust    : Bool
  offLeft : Nat
deriving DecidableEq, Repr

/-- The watch cores (08). -/
structure WatchCores where
  aonclk   : Bool
  ready    : Bool
  arm      : Bool
  replay   : Bool
  running  : Bool
  replayDone : Bool
  memBlocked : Bool
  stopping : Bool
  stepNo   : Word
  waddr    : BitVec 17
  replayBase : BitVec 17
  net      : Sparse Word
  heldWrites : List (Nat × Word)
  queues   : Sparse (List Token)
  acc      : Sparse Int
  late     : Sparse (BitVec 16)
  qdrop    : Sparse (BitVec 16)
  winLen   : Byte
  winLenNow : Byte
  winLenNext : Byte
  pendSet  : List InFlightWrite
  winStart : Nat
  winSeq   : Word
  winTotal : Nat
  live     : Sparse Word
  pub      : Sparse Word
  heldWin  : Option (Sparse Word)
  baseCtrl : BitVec 5
  baseNow  : BitVec 5
  base     : Sparse Baseline
  preSeed  : Sparse Baseline
  sustSeen : BitVec 72
  inputs   : List (List Nat)
  h0       : Option Nat
  stepsBegun : Nat
  stepStart : Nat
  ends     : List Nat
  coreEnds : List Nat
  leaving  : Sparse (List Nat)
  stage    : StepStage
  lastTaken : Bool
deriving DecidableEq, Repr

/-- A set of rules that fired at one step end and await their bell action (R210, R211). -/
structure Firing where
  rules   : Byte
  ring    : Byte
  loom    : Byte
  step    : Word
  fstep   : Word
  nominal : Nat
  ended   : Nat
  replay  : Bool
  winSeq  : Nat
  fwin    : Nat
  counts  : Sparse Word
  sustNow : BitVec 72
deriving DecidableEq, Repr

/-- The bell (08). -/
structure Bell where
  rules    : Sparse Word
  rulesNow : Sparse Word
  ring     : Byte
  ringNow  : Byte
  loom     : Byte
  loomNow  : Byte
  latches  : Byte
  causeRules : Byte
  causeFirst : BitVec 3
  causeReplay : Bool
  causeSust : Bool
  causeStep : BitVec 16
  bellN    : Bool
  firings  : List Firing
  acted    : List Firing
  actedAt  : Nat
  lastFired : Byte
deriving DecidableEq, Repr

/-- One 1 ms frame of the loft (R216). -/
structure LoftFrame where
  samples : List (BitVec 16)
  st      : FrameState
  hop     : Nat
  hq      : Bool
deriving DecidableEq, Repr

/-- The frozen half with what its view records (R217, R218). -/
structure Frozen where
  frames : List LoftFrame
  step   : Word
  winSeq : Word
  ch     : Bool
  hq     : Bool
  rules  : Byte
  manual : Bool
  auto   : Bool
  point  : Nat
  decided : Nat
deriving DecidableEq, Repr

/-- Freezes that an older half denied in one watchman clock: MISSED before them, the automatic one, and whether a manual one was among
them. A release of that clock comes before them (R224). -/
structure Denied where
  clk    : Nat
  missed : Bool
  auto   : Option Firing
  manual : Bool
deriving DecidableEq, Repr

/-- The loft (R216, R217). -/
structure Loft where
  ch      : Bool
  auto    : Bool
  missed  : Bool
  frames  : List LoftFrame
  feRun   : Nat
  frozen  : Option Frozen
  request : Option Nat
  autoReq : Option Firing
  denied  : Option Denied
  hold    : Bool
  releaseOwed : Bool
  block   : BitVec 9
deriving DecidableEq, Repr

/-- G_ESC_STAT.STATE (R419). -/
inductive EscState where
  | idle
  | waitLoom
  | copy
  | waitFetch
deriving DecidableEq, Repr

/-- The escalation logic (14). -/
structure Escalation where
  en      : Bool
  keep    : Bool
  rules   : Byte
  waitMs  : BitVec 4
  tenantReg : Byte
  st      : EscState
  outcome : BitVec 4
  answer  : Byte
  tenant  : Byte
  rule    : BitVec 3
  endedIn : BitVec 3
  seq     : Word
  since   : Nat
  profile : List Byte
  header  : List Byte
  latTenant : Byte
  latRule : BitVec 3
  landed  : Nat
  fetched : Bool
  answerDue : Option Byte
deriving DecidableEq, Repr

/-- One 48-bit counter with SAT (R440). -/
structure Counter where
  count : BitVec 48
  sat   : Bool
deriving DecidableEq, Repr

/-- The watchman tally (16), with the events of the clock `evClk` by source, the counts before them, and whether a counter was cleared
in it (R451, R452). -/
structure WatchTally where
  sel    : Sparse Byte
  cnt    : Sparse Counter
  evClk  : Nat
  evs    : Sparse Nat
  was    : Sparse Counter
  cleared : Bool
  shadow : Sparse (BitVec 17)
  refAborts  : Byte
  refFails   : Byte
  refOk      : Byte
  refCommits : Byte
deriving DecidableEq, Repr

/-! ## Loom -/

/-- An aperture window of a draft (R245). -/
structure Window where
  start : Nat
  len   : Nat
  banks : BitVec 10
  dir   : BitVec 2
deriving DecidableEq, Repr

/-- One version of a draft (R244, R246). `pages` maps each tile of the rectangle to its draft-store pages in program
order. -/
structure Version where
  tag     : BitVec 16
  points  : BitVec 5
  warp    : Bool
  row0    : Nat
  col0    : Nat
  rows    : Nat
  cols    : Nat
  banks   : BitVec 10
  engines : BitVec 16
  passLc  : Nat
  npages  : Nat
  windows : List Window
  warpMask : BitVec 4
  warpLat : List Nat
  pages   : List (Nat × List Nat)
deriving DecidableEq, Repr

/-- L_DRAFT_STATE.STATE (R271). -/
inductive DraftState where
  | empty
  | loading
  | resident
  | swapPending
  | cold
  | stale
  | damaged
deriving DecidableEq, Repr

/-- One draft id (R246). -/
structure Draft where
  st       : DraftState
  tenant   : Nat
  resident : Option Version
  next     : Option Version
  reported : Option Nat
  unloading : Bool
  freed    : Bool
  damaged  : Bool
  stopped  : Bool
deriving DecidableEq, Repr

/-- The load modes (R247). -/
inductive LoadMode where
  | fresh
  | hot
  | cold
  | unload
deriving DecidableEq, Repr

/-- A load in progress (R247, R248): image bytes asked for, arrived and delivered, and the program walk. -/
structure Load where
  id       : Nat
  tenant   : Nat
  mode     : LoadMode
  addr     : Nat
  asked    : Nat
  buffer   : List Byte
  header   : List Byte
  taken    : Nat
  crc      : Nat
  version  : Option Version
  walked   : List Nat
deriving DecidableEq, Repr

/-- L_DRAFT_VERIFY (R271). -/
structure Verify where
  result  : Byte
  busy    : Bool
  id      : BitVec 10
  tile    : Byte
  overrun : Bool
  freeMin : BitVec 6
deriving DecidableEq, Repr

/-- The clock point and stretch registers (R256, R243, R271). -/
structure ClockState where
  point    : BitVec 3
  current  : BitVec 3
  pending  : Bool
  relocking : Bool
  lockPoint : BitVec 3
  heldPoint : Option (BitVec 3)
  lastGap  : BitVec 16
  minGap   : BitVec 16
  overSeen : Bool
  lastStretch : Option Nat
  targets  : List Nat
deriving DecidableEq, Repr

/-- A weave entry (R349, R372). -/
structure WEntry where
  start  : Nat
  len    : Nat
  kind   : BitVec 3
  id     : Nat
  tenant : Nat
  shared : Bool
  banks  : BitVec 10
deriving DecidableEq, Repr

/-- L_WEAVE_SWAP.STATE (R372). -/
inductive SwapState where
  | idle
  | checking
  | pending
deriving DecidableEq, Repr

/-- What runs in an occurrence that has started (R239, R350). -/
inductive SlotRun where
  | pass (job : Option Nat) (startLc : Nat)
  | idle
deriving DecidableEq, Repr

/-- A started occurrence of a weave entry, with the lc of its breach and of the first damage to a bundle of its pass (R263, R464). -/
structure Slot where
  entry : Nat
  start : Nat
  draft : Nat
  run   : SlotRun
  breached : Bool
  degraded : Bool
  poisoned : Bool
  damaged : Bool
  halted : Bool
  breachLc : Nat := 0
  damagedLc : Nat := 0
deriving DecidableEq, Repr

/-- The weave and the sequencer's place in it (12). -/
structure Weave where
  shadowLc : Nat
  activeLc : Nat
  shadow   : Sparse WEntry
  active   : Sparse WEntry
  swap     : SwapState
  swapResult : BitVec 4
  swapEntry : BitVec 10
  swaps    : Word
  checksEnd : Nat
  rep0     : Nat
  repDue   : Bool
  slots    : List Slot
deriving DecidableEq, Repr

/-- L_PARTt (R352). -/
structure Part where
  row0 : Nat
  col0 : Nat
  rows : Nat
  cols : Nat
  banks : BitVec 10
  en   : Bool
  warp : BitVec 4
deriving DecidableEq, Repr

/-- A ring control block with its counters (R341, R342). -/
structure Ring where
  base   : Nat
  size   : BitVec 4
  en     : Bool
  notify : Bool
  ndata  : Word
  naddr  : Nat
  head   : Word
  tail   : Word
  resv   : Nat
  was    : Option (Nat × Word)
deriving DecidableEq, Repr

/-- A tenant as the loom knows it (R361, R265, R360, R348). -/
structure Tenant where
  blocked : Bool
  abort   : Bool
  faulted : Bool
  treset  : Option Bool
  lost    : Word
  doneOwed : Option (Bool × Nat)
  droppedOwed : List (Nat × Nat)
deriving DecidableEq, Repr

/-- A fetched entry that waits for its answer, with the lc of its fetch (R353, R354, R408). -/
structure Fetched where
  ring   : Nat
  index  : Word
  bytes  : List Byte
  esc    : Bool
  order  : Nat
  lc     : Nat
deriving DecidableEq, Repr

/-- What an outstanding device read is for (R367). -/
inductive ReadFor where
  | ring (r : Nat) (n : Nat)
  | image (len : Nat)
  | checkpoint (job : Nat) (offset len : Nat)
deriving DecidableEq, Repr

structure DevRead where
  tag    : Nat
  mod    : Nat
  tenant : Nat
  what   : ReadFor
  addr   : Nat
  len    : Nat
  got    : Option (List Byte)
deriving DecidableEq, Repr

/-- What an admitted job is. -/
inductive JobKind where
  | run
  | save
  | restore
deriving DecidableEq, Repr

/-- A checkpoint's own state (15). -/
structure Ckpt where
  image   : Nat
  row0 : Nat
  col0 : Nat
  rows : Nat
  cols : Nat
  banks : BitVec 10
  groups : BitVec 4
  bytes40 : List Byte
  seqs    : List Nat
  nblk    : Nat
  moves   : List Nat
  moved   : Nat
  block   : List Byte
  stored  : Nat
  rawBlocks : Nat
  index   : List Byte
  headIn  : List Byte
  asked   : Nat
  arrived : Nat
  inbound : List Byte
  checked : Bool
  decoded : List Byte
  reason  : Byte
  failBlock : Option Nat
  zeroed  : Bool
deriving DecidableEq, Repr

/-- An admitted job or checkpoint (R354-R357, R428-R432). -/
structure Job where
  order   : Nat
  tenant  : Nat
  kind    : JobKind
  esc     : Bool
  draft   : Nat
  passes  : Nat
  ran     : Nat
  tag     : DWord
  subidx  : Word
  promise : Nat
  binds   : List (Nat × Nat)
  resAt   : Option (Nat × Nat × Nat)
  result  : List Byte
  booked  : List Nat
  recordAt : Nat
  ending  : Option Byte
  cut     : Bool
  silent  : Bool
  ended   : Option Byte
  poisoned : Bool
  degraded : Bool
  breached : Bool
  ckpt    : Option Ckpt
deriving DecidableEq, Repr

/-- A SEQ_CLOSE record owed at the boundary that frees its sequence (R320). -/
structure CloseOwed where
  seq    : Nat
  tenant : Nat
  tag    : DWord
  subidx : Word
deriving DecidableEq, Repr

/-- An exact value inside the arithmetic units: num · 2^exp, or a special (R277). -/
inductive ExVal where
  | nan
  | inf (neg : Bool)
  | fin (num : Int) (exp : Int)
deriving DecidableEq, Repr

/-- One accumulator entry (R231, R289, R290). -/
structure Acc where
  isF32 : Bool
  lanes : List Word
  sat   : List Bool
deriving DecidableEq, Repr

/-- What one MAC or CORR adds (R289-R291). -/
inductive AccOp where
  | addInt (terms : List Int)
  | addFloat (terms : List ExVal)
  | corr (terms : List ExVal)
  | clear
deriving DecidableEq, Repr

/-- A site's statistics (R286, R306). -/
structure SiteStats where
  count     : Word
  nonfinite : Word
  clipped   : Word
  sideUsed  : Word
  overflow  : Word
  maxErr    : Word
  sse       : DWord
  ssx       : DWord
deriving DecidableEq, Repr

/-- A quantisation site (R280, R284). -/
structure Site where
  cfg     : Option Word
  seed    : Word
  s2      : Word
  hist    : List Word
  stepMax : Word
  steps   : Word
  ch      : Nat
  mask    : Word
  sideS2  : Option Word
  records : Sparse (List Byte)
  nrec    : Nat
  stats   : SiteStats
  side    : List Byte
deriving DecidableEq, Repr

/-- The statistics one QUANT adds when its result is ready (R286): errors in lane order. -/
structure StatsAdd where
  site      : Nat
  finite    : Nat
  nonfinite : Nat
  clipped   : Nat
  sideUsed  : Nat
  overflow  : Nat
  errors    : List (DWord × DWord)
deriving DecidableEq, Repr

/-- What takes effect when an operation in flight is ready (R236). -/
inductive Effect where
  | vec (d : Nat) (lanes : List (Nat × Word)) (part : Nat)
  | acc (entry : Nat) (isF32 : Bool) (clr : Bool) (op : AccOp)
  | qrow (first : Nat) (bytes : List Byte)
  | stats (add : StatsAdd)
  | s2 (site : Nat) (v : Word)
  | outliers (n : Nat)
deriving DecidableEq, Repr

structure InFlight where
  ready : Nat
  eff   : Effect
deriving DecidableEq, Repr

/-- A row on its way from a bank to a unit, or in a receive register (R232, R237). -/
structure RowAt where
  lc   : Nat
  key  : Nat
  unit : Nat
  data : List Byte
  poisoned : Bool
deriving DecidableEq, Repr

/-! ### The fields of a bundle (R233) -/

/-- A BANKk field without V and W (R235). -/
structure BankField where
  port   : BitVec 2
  bank   : BitVec 4
  cnt    : BitVec 2
  offset : BitVec 8
  unit   : BitVec 4
deriving DecidableEq, Repr

/-- A MESH field without SEND (R237). -/
structure MeshField where
  dir    : Dir
  src    : BitVec 4
  dest   : BitVec 8
  target : BitVec 3
deriving DecidableEq, Repr

/-- What a tile is doing (R239, R267). -/
inductive TileRun where
  | idle
  | issuing
  | waiting (until_ : Nat)
  | tail
deriving DecidableEq, Repr

/-- The bundle a tile issued in an lc in which its CTL field has already moved it on: its other fields still issue in that lc, with
the address counters as they stood (R234). -/
structure Held where
  lc  : Nat
  pc  : Nat
  cnt : Sparse Byte
deriving DecidableEq, Repr

/-- One tile's logic state (R231, 10). -/
structure Tile where
  run      : TileRun
  slot     : Option Nat
  pc       : Nat
  loops    : List (Nat × Nat)
  cnt      : Sparse Byte
  stride   : Sparse Byte
  rows     : List RowAt
  recv     : List RowAt
  flights  : List InFlight
  weights  : Memory
  weightsSh : Memory
  wscale   : Memory
  wscaleSh : Memory
  sideReg  : Memory
  drainVec : Memory
  acc      : Sparse Acc
  vreg     : Sparse (List Word)
  vecRow   : List Byte
  qntRow   : List Byte
  sites    : Sparse Site
  lastTenant : Option Nat
  stopAt   : Option Nat
  held     : Option Held
deriving DecidableEq, Repr

/-- A flit on its way (R237, R375, R311); `engine` marks an output of an attention engine. -/
structure Flit where
  dest : Nat
  dir  : Dir
  due  : Nat
  data : List Byte
  poisoned : Bool
  slot : Option Nat
  engine : Bool
deriving DecidableEq, Repr

/-- A breach of a flit that shows at a later link of its route (R263): its lc, kind, tile and slot. -/
structure LateBreach where
  lc    : Nat
  kind  : Nat
  tile  : Nat
  entry : Nat
deriving DecidableEq, Repr

/-- A slot's metadata (R308). -/
structure KvSlot where
  valid : Bool
  tag   : Word
  score : BitVec 16
deriving DecidableEq, Repr

/-- A lane's record (R308). -/
structure Lane where
  npos  : Word
  slots : Sparse KvSlot
  m     : Sparse (Option Word)
  r     : Sparse (Option Word)
deriving DecidableEq, Repr

/-- L_SEQ_STAT.STATE (R332). -/
inductive SeqState where
  | free
  | opened
  | closing
  | returning
deriving DecidableEq, Repr

structure Seq where
  st       : SeqState
  tenant   : Nat
  desc     : BitVec 41
  reels    : List Nat
  lanes    : Sparse Lane
  poisoned : Bool
deriving DecidableEq, Repr

/-- The running state of one head of a scan: maximum, sum and outputs, as f32 words (R313). -/
structure HeadSt where
  m : Word
  l : Word
  o : List Word
deriving DecidableEq, Repr

/-- A command in an attention engine (R311, R314): its flit, arrival lc, the sequence and lane it names, whether it is faulty, its
query stream, and how far its append and its scan have come. -/
structure EngineCmd where
  raw   : List Byte
  first : Nat
  lane  : Option (Nat × Nat)
  faulty : Bool
  appended : Bool
  query : List Byte
  heads : List HeadSt
  scanned : Nat
  slot  : Option Nat
  job   : Option Nat
deriving DecidableEq, Repr

structure Engine where
  busyUntil : Nat
  cmd : Option EngineCmd
deriving DecidableEq, Repr

/-- A stored write of the bobbin on its way to the weft (R425, R430). -/
structure OutWrite where
  job    : Nat
  tenant : Nat
  addr   : Nat
  data   : List Byte
  payload : Bool
deriving DecidableEq, Repr

/-- The bobbin's own registers and outbound half (15). -/
structure Bobbin where
  period : Byte
  reject : Bool
  lastTenant : Byte
  out    : List OutWrite
deriving DecidableEq, Repr

/-- L_TALLY_SELn (R460). -/
structure TallySel where
  src    : Byte
  tenant : Byte
  filter : Bool
deriving DecidableEq, Repr

/-- L_CHAIN and the followers (13). -/
structure Chain where
  sdelay : BitVec 10
  locked : Bool
  stretchLate : Bool
  resync : Bool
  now    : DWord
  follow : Sparse DWord
  acted  : List (Nat × Nat)
deriving DecidableEq, Repr

/-- The loom (09-13, 15, 16). `tallyEvs` are the events of lc `tallyLc` with their sources and tenants, `tallyWas` the counts before them
(R451, R453). -/
structure Loom where
  clock   : ClockState
  draftAddr : BitVec 57
  loadReg : BitVec 20
  verify  : Verify
  load    : Option Load
  drafts  : Sparse Draft
  store   : Memory
  storeUp : Upsets
  pages   : Sparse (Nat × Bool)
  tags    : Sparse (List (Nat × BitVec 16))
  breach  : DWord
  weave   : Weave
  parts   : Sparse Part
  partResult : BitVec 10
  rings   : Sparse Ring
  tenants : Sparse Tenant
  now     : DWord
  fetched : List Fetched
  reads   : List DevRead
  nextTag : Nat
  rr      : Nat
  order   : Nat
  answeredAt : Option Nat
  jobs    : List Job
  bookings : List (Nat × Nat)
  moveBookings : List Nat
  closes  : List CloseOwed
  tiles   : Sparse Tile
  banks   : Memory
  bankUp  : Upsets
  bankUse : List (Nat × Nat)
  reelUse : List (Nat × Nat)
  issued  : List (Nat × Nat)
  linkUse : List (Nat × Nat)
  late    : List LateBreach
  failed  : BitVec 256
  tileErr : Sparse Nat
  flits   : List Flit
  engines : Sparse Engine
  kv      : Memory
  kvUp    : Upsets
  seqs    : Sparse Seq
  bobbin  : Bobbin
  tallySel : Sparse TallySel
  tally   : Sparse Counter
  tallyLc : Nat
  tallyEvs : List (Nat × Option Nat × Nat)
  tallyWas : Sparse Counter
  chain   : Chain
deriving DecidableEq, Repr

/-- The three clocks the model counts (log 4): watchman clocks, loom cycles, and the nominal loom periods since the last
LREFCLK edge. -/
structure Clocks where
  wclk : Nat
  lc   : Nat
  frac : Nat
deriving DecidableEq, Repr

/-- The whole device. `pending` is the queue of commands, first in, first out. -/
structure State where
  pending : List Instr
  free    : Nat
  clocks  : Clocks
  alert   : BitVec 13
  seen    : BitVec 20
  port    : GatePort
  keys    : Seal
  gran    : Granary
  mon     : Monitors
  pwr     : Power
  weft    : Sparse WeftModule
  warp    : Sparse WarpModule
  jtag    : Jtag
  wflight : List InFlightWrite
  fe      : FrontEnd
  wc      : WatchCores
  bell    : Bell
  loft    : Loft
  esc     : Escalation
  wtally  : WatchTally
  loom    : Loom
deriving DecidableEq, Repr

/-! ## Defaults of the sparse stores -/

def KeySlot.init : KeySlot := { key := 0, st := .empty, rights := 0, h := 0, c := 0 }
def Counter.init : Counter := { count := 0, sat := false }
def WeftModule.init : WeftModule :=
  { trained := false, rate := 0, reversed := false, retrains := 0, malformed := 0, txSeq := 0, rxSeq := 0xFFF
    dropping := false, nakFor := none, ackOut := 0, ackSeqOut := 0xFFF, rxSince := 0, replay := [], txq := []
    resent := [], hostPosted := 0, hostNonposted := 0, devPosted := 64, devNonposted := 64
    oweP := 0, oweN := 0, flits := [], inq := [], park := [], dropped := [] }
def WarpModule.init : WarpModule :=
  { train := false, fail := 0, phase := 0, lat := 0, locked := false, point := 0, rate := 0, reversed := false
    crc := 0, poison := 0, missed := 0, unowned := 0, remembered := none, partnerLocked := false, crcRun := 0, heard := 0
    syncOwed := 0, txMarks := [], txStretch := [], txNotices := [], sent := [], marks := []
    credits := 0, rx := [] }
def Channel.init : Channel :=
  { muteEnd := 0, feBit := false, zeroSeen := false, faultSeen := false, feBroken := true
    owesFe := false, cleanRun := 0, ovl := false, capLp := 0, capHq := 0, capMuted := false, edges := [], lastState := .blank
    frameLp := [], frameHq := [] }
def Encoder.init : Encoder := { armed := false, qPrev := 0 }
/-- The built-in baseline 0x5A << 16 (R213, R228). -/
def Baseline.init : Baseline := { b := 0x5A0000, timer := 0, sust := false, offLeft := 0 }
def Draft.init : Draft :=
  { st := .empty, tenant := 0, resident := none, next := none, reported := none, unloading := false, freed := false
    damaged := false, stopped := false }
def WEntry.init : WEntry :=
  { start := 0, len := 0, kind := 0, id := 0, tenant := 0, shared := false, banks := 0 }
def Part.init : Part := { row0 := 0, col0 := 0, rows := 1, cols := 1, banks := 0, en := false, warp := 0 }
def Ring.init : Ring :=
  { base := 0, size := 0, en := false, notify := false, ndata := 0, naddr := 0, head := 0, tail := 0, resv := 0, was := none }
def Tenant.init : Tenant :=
  { blocked := false, abort := false, faulted := false, treset := none, lost := 0, doneOwed := none, droppedOwed := [] }
def Acc.init : Acc := { isF32 := false, lanes := [], sat := [] }
def SiteStats.init : SiteStats :=
  { count := 0, nonfinite := 0, clipped := 0, sideUsed := 0, overflow := 0, maxErr := 0, sse := 0, ssx := 0 }
/-- An unconfigured site has S2 = 1.0 (R304). -/
def Site.init : Site :=
  { cfg := none, seed := 0x3F800000, s2 := 0x3F800000, hist := [], stepMax := 0, steps := 0, ch := 0, mask := 0
    sideS2 := none, records := [], nrec := 0, stats := .init, side := [] }
def Tile.init : Tile :=
  { run := .idle, slot := none, pc := 0, loops := [], cnt := [], stride := [], rows := [], recv := [], flights := []
    weights := [], weightsSh := [], wscale := [], wscaleSh := [], sideReg := [], drainVec := [], acc := [], vreg := []
    vecRow := [], qntRow := [], sites := [], lastTenant := none, stopAt := none, held := none }
def KvSlot.init : KvSlot := { valid := false, tag := 0, score := 0 }
def Lane.init : Lane := { npos := 0, slots := [], m := [], r := [] }
def Seq.init : Seq := { st := .free, tenant := 0, desc := 0, reels := [], lanes := [], poisoned := false }
def Engine.init : Engine := { busyUntil := 0, cmd := none }
def TallySel.init : TallySel := { src := 0, tenant := 0, filter := false }

/-! ## Reset values by scope -/

/-- The gate control room and its books at POR (R89, R92, R116); the die ID is programmed at test (log 5). -/
def GatePort.reset : GatePort :=
  { lastCode := 0, lastOp := 0, sealSkip := false, badOp := false, alertMask := 0, aborts := 0, shortFlag := false
    shortOp := none, snap := [], gsdo := [], grayAborts := 0, grayFails := 0, grayOk := 0
    grayCommits := 0, dieLo := 0, dieHi := 0, debugReg := 0 }
def Seal.reset : Seal :=
  { slots := [], total := 0, consec := 0, lockLeft := 0, locked := false, loadKey := 0, parts := 0, init0 := 0
    init1 := 0, init2 := 0, init3 := 0, initResult := 0 }
/-- The DIE_NOTES record of the factory row: grade KC, notes format 1, a die ID of zero (R2, R121, log 6). -/
def Granary.dieNotes : Memory := [(1, 0x20), (2, 0xF8), (4, 0x01), (8, 0x01), (9, 0x01)]
/-- A closed granary over blank banks (R142, log 6); its factory row carries the grade (R2). -/
def Granary.reset : Granary :=
  { bankA := [], bankB := [], upA := [], upB := [], factory := Granary.dieNotes, upF := [], deltas := [], upS := [], st := .closed
    verdictA := 0, verdictB := 0, corrected := 0, weak := 0, absent := 0, lastCommit := 0, seqA := 0, seqB := 0
    offset := 0 }
def Monitors.reset : Monitors :=
  { por := false
    rails := { nv := true, mic := false, loomv := false, lsram := 0, pll := false, link := false, lref := false }
    pllLock := false, straps := 0, therm := false }
def LoomConflict.reset : LoomConflict := { loser := 0, kind := 0, gate := 0, host := 0, tenant := 0, cut := false }
/-- The loom at L3 with nothing requested (R146, R168). -/
def Power.reset : Power :=
  { reqTarget := 3, reqCut := false, reqReset := false, reqTenant := 0, reqTreset := false, tresetFor := [], linkReq := 0, st := .l3
    stage := .steady, target := .l3, byHost := false, hostTenant := 0, reached := true, drained := false
    gateReq := none, weftReqs := [], bellWake := false, resetOwed := false, chainPos := 0, epoch := 0
    hostTarget := 3, gateLast := 3, tilesOk := 0, reelsBad := 0, block := 0, abort := 0, conflicts := 0
    conflict := .reset, powered := 0, held := 0 }
/-- Test-Logic-Reset with BYPASS (R55). -/
def Jtag.reset : Jtag :=
  { tap := .testLogicReset, ir := 0xF, instr := .bypass, skip := false, boundary := 0, update := 0, tdo := [] }
/-- The front end at its reset values (R197). -/
def FrontEnd.reset : FrontEnd :=
  { feCtrl := 0, micbCtrl := 0, decCtrl := 0, fbCtrl := 0x00009860, fbNow := 0x00009860, sens0 := 0, sens1 := 0
    sens2 := 0x00000986, sensNow0 := 0, sensNow1 := 0, sensNow2 := 0x00000986, hdrm := false, limit := false
    fault := false, hdrmSeen := false, limitSeen := false, hdrmSince := none, limitSince := none, goodSince := none, rampFrom := 0
    rampGoal := 0, rampStart := 0, ramping := false, biasOwes := 0, chan := [], hqEdges := [], trims := [], oldTrims := [], micbTrims := []
    enc := [], gridOn := false, hopNext := 0, hopCount := 0, nextTick := 0, sensBusy := false, sensTxn := (0, 0), sensStart := 0
    sensReady := false, stuck := false, stuckSeen := false, stuckRun := (0, 0), axisHist := [], taken := 0 }
/-- The watch cores at their reset values (R228, R230). -/
def WatchCores.reset : WatchCores :=
  { aonclk := false, ready := false, arm := false, replay := false, running := false, replayDone := false
    memBlocked := false, stopping := false, stepNo := 0, waddr := 0, replayBase := 0, net := [], heldWrites := []
    queues := [], acc := [], late := [], qdrop := [], winLen := 0x64, winLenNow := 0x64, winLenNext := 0x64
    pendSet := [], winStart := 0, winSeq := 0
    winTotal := 0, live := [], pub := [], heldWin := none, baseCtrl := 0x1B, baseNow := 0x1B, base := [], preSeed := []
    sustSeen := 0, inputs := [], h0 := none, stepsBegun := 0, stepStart := 0
    ends := [], coreEnds := [], leaving := [], stage := .none, lastTaken := false }
def Bell.reset : Bell :=
  { rules := [], rulesNow := [], ring := 0, ringNow := 0, loom := 0, loomNow := 0, latches := 0, causeRules := 0
    causeFirst := 0, causeReplay := false, causeSust := false, causeStep := 0, bellN := false, firings := []
    acted := [], actedAt := 0, lastFired := 0 }
def Loft.reset : Loft :=
  { ch := false, auto := false, missed := false, frames := [], feRun := 0, frozen := none, request := none
    autoReq := none, denied := none, hold := false, releaseOwed := false, block := 0 }
/-- G_ESC_CTRL resets to 0x0003_0000 (R417). -/
def Escalation.reset : Escalation :=
  { en := false, keep := false, rules := 0, waitMs := 3, tenantReg := 0, st := .idle, outcome := 0, answer := 0
    tenant := 0, rule := 0, endedIn := 0, seq := 0, since := 0, profile := [], header := [], latTenant := 0, latRule := 0, landed := 0
    fetched := false, answerDue := none }
def WatchTally.reset : WatchTally :=
  { sel := [], cnt := [], evClk := 0, evs := [], was := [], cleared := false, shadow := [], refAborts := 0, refFails := 0, refOk := 0, refCommits := 0 }
def ClockState.reset : ClockState :=
  { point := 0, current := 0, pending := false, relocking := false, lockPoint := 0, heldPoint := none
    lastGap := 0xFFFF, minGap := 0xFFFF, overSeen := false, lastStretch := none, targets := [] }
def Verify.reset : Verify := { result := 0xFF, busy := false, id := 0, tile := 0, overrun := false, freeMin := 0 }
def Weave.reset : Weave :=
  { shadowLc := 0, activeLc := 0, shadow := [], active := [], swap := .idle, swapResult := 0xF, swapEntry := 0
    swaps := 0, checksEnd := 0, rep0 := 0, repDue := true, slots := [] }
def Bobbin.reset : Bobbin := { period := 4, reject := false, lastTenant := 0, out := [] }
def Chain.reset : Chain :=
  { sdelay := 0, locked := false, stretchLate := false, resync := false, now := 0, follow := [], acted := [] }
/-- The loom's tables and memories at reset (R268, R304, R330, R370, R437). -/
def Loom.reset : Loom :=
  { clock := .reset, draftAddr := 0, loadReg := 0, verify := .reset, load := none, drafts := [], store := []
    storeUp := [], pages := [], tags := [], breach := 0, weave := .reset, parts := [], partResult := 0, rings := []
    tenants := [], now := 0, fetched := [], reads := [], nextTag := 0, rr := 0, order := 0, answeredAt := none, jobs := []
    bookings := [], moveBookings := [], closes := [], tiles := [], banks := [], bankUp := [], bankUse := []
    reelUse := [], issued := [], linkUse := [], late := [], failed := 0, tileErr := [], flits := [], engines := [], kv := [], kvUp := []
    seqs := []
    bobbin := .reset, tallySel := [], tally := [], tallyLc := 0, tallyEvs := [], tallyWas := [], chain := .reset }
def Clocks.reset : Clocks := { wclk := 0, lc := 0, frac := 0 }

/-- The device at POR release (R89, R142, R145, R146): the gatehouse idle, everything else at its documented reset
value, the loom at L3. -/
def State.reset : State :=
  { pending := [], free := 0, clocks := .reset, alert := 0, seen := 1, port := .reset, keys := .reset, gran := .reset
    mon := .reset, pwr := .reset, weft := [], warp := [], jtag := .reset, wflight := [], fe := .reset, wc := .reset
    bell := .reset, loft := .reset, esc := .reset, wtally := .reset, loom := .reset }

/-- Reasons the machine could stop. No rule of the manual stops the device (R462), so no meaning raises one; `halted` is
kept so that the type is inhabited. Raised by nobody; safe. -/
inductive Fault where
  | halted
deriving DecidableEq, Repr

/-- Reasons for no meaning. `notModelled` marks an arm that has no meaning yet; safe, since nothing is proved of it. -/
inductive Refusal where
  | notModelled (mnemonic : String)
deriving DecidableEq, Repr

end Sys2Proof.Machine
end

