-- ==== Sys2Proof/Machine/Bits.lean ====
section
/-!
DEFINITION. Bit fields, byte orders and saturating counts, used by every register and every byte image (R6, R7, R10).
-/

namespace Sys2Proof.Machine

/-- Bits [lo + len - 1 : lo] of a number. -/
def field (v lo len : Nat) : Nat := (v >>> lo) % 2 ^ len

/-- One bit of a number. -/
def bitOf (v i : Nat) : Bool := field v i 1 == 1

/-- A flag as a bit. -/
def flagBit (b : Bool) (i : Nat) : Nat := if b then 2 ^ i else 0

/-- Bits of a list of flags, the first at bit 0. -/
def packBits : List Bool → Nat
  | [] => 0
  | b :: bs => (if b then 1 else 0) + 2 * packBits bs

/-- The value with bits [lo + len - 1 : lo] replaced. -/
def setField (v lo len x : Nat) : Nat :=
  v % 2 ^ lo + (x % 2 ^ len) * 2 ^ lo + (v >>> (lo + len)) * 2 ^ (lo + len)

/-- `n` bytes of a number, least significant first (R7). -/
def toLe : Nat → Nat → List Byte
  | 0, _ => []
  | n + 1, v => BitVec.ofNat 8 v :: toLe n (v >>> 8)

/-- A number from its bytes, least significant first (R7). -/
def ofLe : List Byte → Nat
  | [] => 0
  | b :: bs => b.toNat + 256 * ofLe bs

/-- `n` bytes of a number, most significant first (R93). -/
def toBe (n v : Nat) : List Byte := (toLe n v).reverse

/-- A number from its bytes, most significant first. -/
def ofBe (bs : List Byte) : Nat := ofLe bs.reverse

/-- `n` bytes of a list from an offset, zero past its end. -/
def slice (bs : List Byte) (off n : Nat) : List Byte :=
  let xs := (bs.drop off).take n
  xs ++ List.replicate (n - xs.length) 0

/-- A little-endian field of a byte image. -/
def leAt (bs : List Byte) (off n : Nat) : Nat := ofLe (slice bs off n)

/-- Sign extension of a `w`-bit number. -/
def signed (w v : Nat) : Int :=
  let x := v % 2 ^ w
  if x < 2 ^ (w - 1) then (x : Int) else (x : Int) - 2 ^ w

/-- An integer in `w`-bit two's complement. -/
def unsigned (w : Nat) (i : Int) : Nat := (i % (2 ^ w : Nat)).toNat

/-- An integer held within two bounds. -/
def clampInt (lo hi i : Int) : Int := if i < lo then lo else if hi < i then hi else i

/-- A count that stops at the largest value of its width. -/
def satAdd {w : Nat} (c : BitVec w) (n : Nat) : BitVec w :=
  if c.toNat + n < 2 ^ w then BitVec.ofNat w (c.toNat + n) else BitVec.ofNat w (2 ^ w - 1)

/-- Floor division that rounds up. -/
def ceilDiv (a b : Nat) : Nat := (a + b - 1) / b

/-- Numbers `a`, `a + 1`, … `a + n - 1`. -/
def span (a n : Nat) : List Nat := (List.range n).map (a + ·)

/-- Bits of a mask that are set, lowest first. -/
def setBits (w v : Nat) : List Nat := (List.range w).filter (bitOf v)

/-- A bit of a mask set or cleared. -/
def putBit {w : Nat} (v : BitVec w) (i : Nat) (b : Bool) : BitVec w :=
  if b then v ||| BitVec.ofNat w (2 ^ i) else v &&& ~~~ (BitVec.ofNat w (2 ^ i))

/-- The ones of the written word clear bits of a W1C field (R10). -/
def w1c {w : Nat} (v : BitVec w) (d : Nat) : BitVec w := v &&& ~~~ (BitVec.ofNat w d)

end Sys2Proof.Machine
end

