-- ==== Sys2Proof/Machine/Crc.lean ====
section
/-!
DEFINITION. The cyclic redundancy checks of the device: CRC-32C (R119) and the flit CRC-64 (R335).
-/

namespace Sys2Proof.Machine

/-- One reflected bit step. -/
def crcBit (poly c : Nat) : Nat := if c % 2 = 1 then (c >>> 1) ^^^ poly else c >>> 1

/-- Eight reflected bit steps. -/
def crcByte (poly c : Nat) (b : Byte) : Nat :=
  let x := c ^^^ b.toNat
  crcBit poly (crcBit poly (crcBit poly (crcBit poly (crcBit poly (crcBit poly (crcBit poly (crcBit poly x)))))))

/-- CRC-32C over more bytes, before the final XOR. The polynomial 0x1EDC6F41 reflected is 0x82F63B78. -/
def crc32cStep (c : Nat) (bs : List Byte) : Nat := bs.foldl (crcByte 0x82F63B78) c

/-- CRC-32C (R119). -/
def crc32c (bs : List Byte) : Nat := crc32cStep 0xFFFFFFFF bs ^^^ 0xFFFFFFFF

/-- One unreflected bit step of the flit check. -/
def crc64Bit (c : Nat) : Nat := (2 * c % 2 ^ 64) ^^^ (if c < 2 ^ 63 then 0 else 0x42F0E1EBA9EA3693)

def crc64Byte (c : Nat) (b : Byte) : Nat :=
  let x := c ^^^ (b.toNat <<< 56)
  crc64Bit (crc64Bit (crc64Bit (crc64Bit (crc64Bit (crc64Bit (crc64Bit (crc64Bit x)))))))

/-- The flit CRC (R335). -/
def crc64 (bs : List Byte) : Nat := bs.foldl crc64Byte (2 ^ 64 - 1) ^^^ (2 ^ 64 - 1)

end Sys2Proof.Machine
end

