-- ==== Sys2Proof/Machine/Store.lean ====
section
/-!
DEFINITION. The one form of every sparse store and byte memory: keys rising, no entry at the default value.
-/

namespace Sys2Proof.Machine

/-- The value at a key; the default where nothing is listed. -/
def sget {α : Type} (d : α) : Sparse α → Nat → α
  | [], _ => d
  | (k, v) :: m, i => if k = i then v else sget d m i

/-- The store without a key. -/
def sdel {α : Type} : Sparse α → Nat → Sparse α
  | [], _ => []
  | (k, v) :: m, i => if k = i then sdel m i else (k, v) :: sdel m i

/-- The store with a value put at a key. -/
def sins {α : Type} : Sparse α → Nat → α → Sparse α
  | [], i, v => [(i, v)]
  | (k, w) :: m, i, v =>
    if i < k then (i, v) :: (k, w) :: m else if i = k then (i, v) :: m else (k, w) :: sins m i v

/-- A write: the default value leaves no entry. -/
def sput {α : Type} [DecidableEq α] (d : α) (m : Sparse α) (i : Nat) (v : α) : Sparse α :=
  if v = d then sdel m i else sins m i v

/-- A change of one entry. -/
def smod {α : Type} [DecidableEq α] (d : α) (m : Sparse α) (i : Nat) (f : α → α) : Sparse α :=
  sput d m i (f (sget d m i))

/-- Keys strictly rising. -/
def rising : List Nat → Bool
  | a :: b :: m => decide (a < b) && rising (b :: m)
  | _ => true

/-- The canonical form of a store. -/
def swf {α : Type} [DecidableEq α] (d : α) (m : Sparse α) : Bool :=
  rising (m.map Prod.fst) && m.all (fun e => !decide (e.2 = d))

/-- The canonical form of a byte memory (log 6: an unlisted byte reads zero). -/
def Memory.wf (m : Memory) : Bool := swf (0 : Byte) m

/-- One byte. -/
def mget (m : Memory) (a : Nat) : Byte := sget 0 m a

/-- One byte written. -/
def mput (m : Memory) (a : Nat) (b : Byte) : Memory := sput 0 m a b

/-- `n` bytes from an address. -/
def mread (m : Memory) (a n : Nat) : List Byte := (span a n).map (mget m)

/-- Bytes written from an address up. -/
def mwrite (m : Memory) (a : Nat) : List Byte → Memory
  | [] => m
  | b :: bs => mwrite (mput m a b) (a + 1) bs

/-- Every byte of a range at zero. -/
def mzero (m : Memory) (a n : Nat) : Memory := m.filter (fun e => e.1 < a || a + n ≤ e.1)

/-- A little-endian word of a memory (R7). -/
def mle (m : Memory) (a n : Nat) : Nat := ofLe (mread m a n)

/-- The reads of a SECDED memory that start at a byte (R120, R465): 64-bit words with an uncorrectable error deliver zero
for the whole access where the unit says so; this is the corrected data, and how many words were corrected and how many
were uncorrectable. `up` keys are word indexes. -/
def upsetOf (up : Upsets) (w : Nat) : Option UpsetKind := (up.find? (·.1 == w)).map (·.2)

/-- One 64-bit word as a read returns it (R120). -/
def readWord (m : Memory) (up : Upsets) (w : Nat) : List Byte :=
  match upsetOf up w with
  | some (.miscorrected v) => toLe 8 v.toNat
  | some (.silent v) => toLe 8 v.toNat
  | _ => mread m (8 * w) 8

/-- Words of `[w, w + n)` whose read reports a correction. -/
def correctedIn (up : Upsets) (w n : Nat) : Nat :=
  ((span w n).filter (fun i => match upsetOf up i with
    | some .corrected => true
    | some (.miscorrected _) => true
    | _ => false)).length

/-- Words of `[w, w + n)` whose read reports an uncorrectable error. -/
def uncorrectableIn (up : Upsets) (w n : Nat) : Nat :=
  ((span w n).filter (fun i => upsetOf up i == some .uncorrectable)).length

/-- The words of `[w, w + n)` as reads return them. -/
def readWords (m : Memory) (up : Upsets) (w n : Nat) : List Byte := (span w n).flatMap (readWord m up)

/-- Upsets that a write of the words `[w, w + n)` leaves: the check bits are computed afresh (R120). -/
def clearUpsets (up : Upsets) (w n : Nat) : Upsets := up.filter (fun e => e.1 < w || w + n ≤ e.1)

/-- New upsets join the old ones, the newest kind of a word first. -/
def addUpsets (up new : Upsets) : Upsets := new ++ up.filter (fun e => !(new.any (·.1 == e.1)))

end Sys2Proof.Machine
end

