-- ==== Sys2Proof/Machine/Ops.lean ====
section
/-!
DEFINITION. What every loom family shares: access to the tables, the tally, the alert causes, the loom's clocks, the
device-to-host traffic, and event records (R62, R334 to R348, R356, R440 to R446).
-/

namespace Sys2Proof.Machine

/-! ## Access to the tables -/

def onLoom (f : Loom → Loom) (s : State) : State := { s with loom := f s.loom }
def onPwr (f : Power → Power) (s : State) : State := { s with pwr := f s.pwr }

def weftOf (s : State) (m : Nat) : WeftModule := sget .init s.weft m
def putWeft (m : Nat) (v : WeftModule) (s : State) : State := { s with weft := sput .init s.weft m v }
def warpOf (s : State) (m : Nat) : WarpModule := sget .init s.warp m
def putWarp (m : Nat) (v : WarpModule) (s : State) : State := { s with warp := sput .init s.warp m v }
def ringOf (s : State) (n : Nat) : Ring := sget .init s.loom.rings n
def putRing (n : Nat) (v : Ring) : State → State := onLoom (fun l => { l with rings := sput .init l.rings n v })
def tenantOf (s : State) (t : Nat) : Tenant := sget .init s.loom.tenants t
def putTenant (t : Nat) (v : Tenant) : State → State :=
  onLoom (fun l => { l with tenants := sput .init l.tenants t v })
def partOf (s : State) (t : Nat) : Part := sget .init s.loom.parts t
def draftOf (s : State) (d : Nat) : Draft := sget .init s.loom.drafts d
def putDraft (d : Nat) (v : Draft) : State → State :=
  onLoom (fun l => { l with drafts := sput .init l.drafts d v })
def tileOf (s : State) (t : Nat) : Tile := sget .init s.loom.tiles t
def putTile (t : Nat) (v : Tile) : State → State := onLoom (fun l => { l with tiles := sput .init l.tiles t v })
def seqOf (s : State) (q : Nat) : Seq := sget .init s.loom.seqs q
def putSeq (q : Nat) (v : Seq) : State → State := onLoom (fun l => { l with seqs := sput .init l.seqs q v })
def engineOf (s : State) (r : Nat) : Engine := sget .init s.loom.engines r
def putEngine (r : Nat) (v : Engine) : State → State :=
  onLoom (fun l => { l with engines := sput .init l.engines r v })
def lcOf (s : State) : Nat := s.clocks.lc
def nowOf (s : State) : Nat := s.loom.now.toNat

/-! ## The pins under test (R57) -/

/-- Under EXTEST, CLAMP and HIGHZ the gatehouse sees GCS_N high, and the watchman an idle sensor port. -/
def pinsTested (s : State) : Bool :=
  match s.jtag.instr with
  | .extest => true
  | .clamp => true
  | .highz => true
  | _ => false

/-- What a gate frame does; none reaches the gatehouse while its pins are under test. -/
def fromGate (f : State → State) (s : State) : State := if pinsTested s then s else f s

/-! ## Alert causes (R62, R92) -/

def causeConflict : Nat := 0
def causeLsramLow : Nat := 1
def causeSupplyAbsent : Nat := 2
def causeSupplyLost : Nat := 3
def causeTherm : Nat := 4
def causeMicb : Nat := 5
def causeWatchDrop : Nat := 6
def causeSealLock : Nat := 7
def causeReserveLow : Nat := 8
def causeGranary : Nat := 9
def causeStretchOver : Nat := 10
def causeLinkDown : Nat := 11
def causeEscalation : Nat := 12

/-- A cause recurs (R92). -/
def raise (i : Nat) (s : State) : State := { s with alert := putBit s.alert i true }

/-! ## Tally (R440 to R446) -/

/-- An increment of a 48-bit counter; SAT sets where it would pass the top (R440). -/
def bump (n : Nat) (c : Counter) : Counter :=
  if c.count.toNat + n < 2 ^ 48 then { c with count := BitVec.ofNat 48 (c.count.toNat + n) }
  else { count := BitVec.ofNat 48 (2 ^ 48 - 1), sat := true }

/-- Whether a loom counter's select takes an event (R441, R446). -/
def takesLoom (src : Nat) (ten : Option Nat) (e : TallySel) : Bool :=
  e.src.toNat == src && (!e.filter || ten == some e.tenant.toNat)

/-- The first event, clear or read of an lc finds the counts that the lc began with (R453). -/
def rollTally (lc : Nat) (l : Loom) : Loom :=
  if l.tallyLc = lc then l else { l with tallyLc := lc, tallyEvs := [], tallyWas := l.tally }

/-- `n` events of a loom source, attributed to a tenant or to none (R445, R446). -/
def loomTally (src : Nat) (ten : Option Nat) (n : Nat) (s : State) : State :=
  if n = 0 then s
  else
    let add := fun (tl : Sparse Counter) (e : Nat × TallySel) =>
      if takesLoom src ten e.2 then smod .init tl e.1 (bump n) else tl
    onLoom (fun l0 =>
      let l := rollTally s.clocks.lc l0
      { l with tally := l.tallySel.foldl add l.tally, tallyEvs := l.tallyEvs ++ [(src, ten, n)] }) s

/-- A clear comes before the events of its lc, so the counter shows those that its select takes (R451). -/
def clearTally (n lc : Nat) (e : TallySel) (l0 : Loom) : Loom :=
  let l := rollTally lc l0
  let again := l.tallyEvs.foldl (fun c x => if takesLoom x.1 x.2.1 e then bump x.2.2 c else c) Counter.init
  { l with tally := sput .init l.tally n again, tallyWas := sput .init l.tallyWas n .init }

/-- The count of a weft read: that before the events of this lc (R453). -/
def tallyRead (s : State) (n : Nat) : Counter := sget .init (rollTally s.clocks.lc s.loom).tallyWas n

/-- The same for the watchman's clock (R451, R452). -/
def rollWatch (clk : Nat) (t : WatchTally) : WatchTally :=
  if t.evClk = clk then t else { t with evClk := clk, evs := [], was := t.cnt, cleared := false }

/-- `n` events of a watchman source; the watchman counts only while AONCLK is set (R442, R443). -/
def watchTally (src n : Nat) (s : State) : State :=
  if n = 0 || !s.wc.aonclk then s
  else
    let add := fun (c : Sparse Counter) (e : Nat × Byte) =>
      if e.2.toNat = src then smod .init c e.1 (bump n) else c
    let t := rollWatch s.clocks.wclk s.wtally
    { s with wtally := { t with cnt := t.sel.foldl add t.cnt, evs := smod 0 t.evs src (· + n) } }

/-- A clear of a watchman counter comes before the events of its clock (R451). -/
def clearWatchTally (n clk src : Nat) (t0 : WatchTally) : WatchTally :=
  let t := rollWatch clk t0
  { t with cnt := sput .init t.cnt n (bump (sget 0 t.evs src) .init), cleared := true }

/-! ## Power and clock views -/

def loomStateCode : LoomState → Nat
  | .l0 => 0
  | .l1 => 1
  | .l2 => 2
  | .l3 => 3

def loomStateOf (n : Nat) : LoomState :=
  if n % 4 = 0 then .l0 else if n % 4 = 1 then .l1 else if n % 4 = 2 then .l2 else .l3

/-- Phases 3 and 4 of a LOOM reset (R156). -/
def inResetPhases (p : Power) : Bool :=
  match p.stage with
  | .resetPhase _ => true
  | _ => false

/-- Whether an exit from L3 is in its phases (R151). -/
def inExitPhases (p : Power) : Bool :=
  match p.stage with
  | .exitPhase _ _ => true
  | _ => false

/-- Whether the ordering point runs (R83, R160). -/
def orderingRuns (p : Power) : Bool := p.st != .l3 && !inResetPhases p

/-- From the end of the drain of a LOOM reset until its phase 4 ends (R156). -/
def inResetGap (p : Power) : Bool :=
  match p.stage with
  | .resetHold => true
  | .resetMove => true
  | .resetPhase _ => true
  | _ => false

/-- Whether the weft control region answers: not at L3, nor after a drain toward L3 or of a LOOM reset (R156, R340, R371). -/
def loomReachable (p : Power) : Bool := p.st != .l3 && !inResetGap p && p.stage != .move .l3

/-- L0 or L1, as the ready bits count it (R148). -/
def loomRuns (p : Power) : Bool := (p.st == .l0 || p.st == .l1) && !inResetPhases p

/-- The loom frequency of a clock point, MHz (R241). -/
def pointMHz (p : Nat) : Nat := if p = 0 then 400 else if p = 1 then 600 else if p = 2 then 800 else if p = 3 then 1000 else 1200

def currentMHz (s : State) : Nat := pointMHz s.loom.clock.current.toNat

/-- Nominal loom periods pass: L_NOW gains 10 at each LREFCLK period (R356, log 4). -/
def passPeriods (n : Nat) (s : State) : State :=
  let per := currentMHz s / 100
  let x := s.clocks.frac + n
  { s with clocks := { s.clocks with frac := x % per }
           loom := { s.loom with now := s.loom.now + BitVec.ofNat 64 (10 * (x / per)) } }

/-- One lc, or at L2 one cycle of LREFCLK, on which the control region then runs (R147, R356). The chain count adds one in
every lc (R382). No lc passes while a relock holds the mesochronous domains stopped (R256). -/
def passLc (s : State) : State :=
  if s.loom.clock.relocking || s.pwr.st = .l3 then s
  else
    let s1 := { s with clocks := { s.clocks with lc := s.clocks.lc + 1 } }
    if s.pwr.st = .l2 then { s1 with loom := { s1.loom with now := s1.loom.now + 10 } }
    else passPeriods 1 (onLoom (fun l => { l with chain := { l.chain with now := l.chain.now + 1 } }) s1)

/-! ## Device-to-host traffic (R335 to R338) -/

/-- The module that carries what the device starts for a tenant (R338). -/
def moduleFor (s : State) (t : Nat) : Nat :=
  if (weftOf s (t % 2)).trained then t % 2
  else if (weftOf s (1 - t % 2)).trained then 1 - t % 2 else t % 2

/-- What the device itself starts. -/
def isOwnTxn (x : DevTxn) : Bool := x.kind == .write || x.kind == .read

/-- Whether a transaction may leave: a credit of its class (R337), room in the replay buffer, and, for what the device starts, nothing
that it started for the same tenant unacknowledged on the other module (R338). -/
def maySend (s : State) (m : Nat) (x : DevTxn) : Bool :=
  let w := weftOf s m
  w.trained && decide (w.replay.length < 128)
    && (match x.kind with
        | .write => decide (0 < w.hostPosted)
        | .read => decide (0 < w.hostNonposted)
        | _ => true)
    && (!isOwnTxn x || !((weftOf s (1 - m)).replay.any (fun e => isOwnTxn e.2 && e.2.tenant == x.tenant)))

/-- TTYPE; an idle flit has no transaction. -/
def txnType : TxnKind → Nat
  | .write => 1
  | .read => 2
  | .resp _ => 3
  | .idle => 0

def txnStatus : TxnKind → Nat
  | .resp c => c.toNat
  | _ => 0

/-- The transaction header of the one transaction of a flit, with its data from granule 0 on (R334). -/
def txnHeader (x : DevTxn) : List Byte :=
  toLe 1 (txnType x.kind) ++ toLe 1 (4 * (x.len / 64) + 16 * txnStatus x.kind) ++ toLe 2 x.tag ++ toLe 1 x.tenant
    ++ List.replicate 3 0 ++ toLe 8 x.addr

/-- A flit as it goes out: link header, transaction header, CRC and data (R334, R335). -/
def outFlit (seq ackSeq : BitVec 12) (ack : BitVec 2) (crp crn : Nat) (x : DevTxn) : List Byte :=
  let link := seq.toNat + 2 ^ 12 * ackSeq.toNat + 2 ^ 24 * ack.toNat + flagBit (x.kind != .idle) 26 + 2 ^ 28 * crp + 2 ^ 36 * crn
  let head := toLe 8 link ++ (if x.kind = .idle then List.replicate 16 0 else txnHeader x) ++ List.replicate 32 0
  let data := slice x.data 0 192
  head ++ toLe 8 (crc64 (head ++ data)) ++ data

/-- One transaction leaves on its own flit and stands in the replay buffer until it is acknowledged (R335, log 11). Every
flit carries an acknowledgement and the credits that the host has to get back. -/
def sendFlit (m : Nat) (ack : BitVec 2) (x : DevTxn) (s : State) : State :=
  let w := weftOf s m
  let crp := min w.oweP 255
  let crn := min w.oweN 255
  putWeft m { w with
    txSeq := w.txSeq + 1, replay := w.replay ++ [(w.txSeq, x)], ackOut := ack, ackSeqOut := w.rxSeq, rxSince := 0
    flits := w.flits ++ [(w.txSeq, outFlit w.txSeq w.rxSeq ack crp crn x)]
    oweP := w.oweP - crp, oweN := w.oweN - crn, devPosted := w.devPosted + crp, devNonposted := w.devNonposted + crn
    hostPosted := (match x.kind with | .write => w.hostPosted - 1 | _ => w.hostPosted)
    hostNonposted := (match x.kind with | .read => w.hostNonposted - 1 | _ => w.hostNonposted) } s

def sendTxn (m : Nat) (x : DevTxn) : State → State := sendFlit m 1 x

/-- What was unacknowledged at a retrain goes first, then the queue (R336). -/
def pumpN : Nat → Nat → State → State
  | 0, _, s => s
  | k + 1, m, s =>
    let w := weftOf s m
    match w.resent, w.txq with
    | x :: xs, _ => if maySend s m x then pumpN k m (sendTxn m x (putWeft m { w with resent := xs } s)) else s
    | [], x :: xs => if maySend s m x then pumpN k m (sendTxn m x (putWeft m { w with txq := xs } s)) else s
    | [], [] => s

def pump (m : Nat) (s : State) : State :=
  pumpN ((weftOf s m).resent.length + (weftOf s m).txq.length) m s

/-- A transaction queued on a module. -/
def enqueueOn (m : Nat) (x : DevTxn) (s : State) : State :=
  pump m (putWeft m { weftOf s m with txq := (weftOf s m).txq ++ [x] } s)

/-- A transaction that the device starts for a tenant (R338). -/
def enqueue (x : DevTxn) (s : State) : State := enqueueOn (moduleFor s x.tenant) x s

/-- An 8-byte or larger answer to a host READ on the module on which it arrived (R338). -/
def answerRead (m tag status : Nat) (tenant : Nat) (data : List Byte) (s : State) : State :=
  enqueueOn m { kind := .resp (BitVec.ofNat 4 status), addr := 0, data := data, len := data.length, tag := tag
                tenant := tenant, what := .answer } s

/-! ## Ring entries (R341, R346, R358) -/

def ringEntries (r : Ring) : Nat := 2 ^ (min r.size.toNat 8 + 4)

/-- Entries the ring holds (R341). -/
def ringHeld (r : Ring) : Nat := (r.tail - r.head).toNat

/-- The ring as it stood before the doorbells of this lc, which set TAIL of a submit or bobbin ring and HEAD of another (R363). -/
def ringBefore (s : State) (n : Nat) : Ring :=
  let r := ringOf s n
  match r.was with
  | some (lc, v) => if lc = lcOf s then (if n % 4 = 1 || n % 4 = 2 then { r with head := v } else { r with tail := v }) else r
  | none => r

/-- A doorbell of this lc leaves the counter as it stood before the first one. -/
def noteBell (n : Nat) (old : Word) (s : State) : State :=
  putRing n { ringOf s n with was := match (ringOf s n).was with
    | some (lc, v) => if lc = lcOf s then some (lc, v) else some (lcOf s, old)
    | none => some (lcOf s, old) } s

def ringPhase (r : Ring) (i : Word) : Nat := (i.toNat / ringEntries r + 1) % 2

def entryAddr (r : Ring) (i : Word) : Nat := r.base + 64 * (i.toNat % ringEntries r)

/-- A 64-byte entry written at TAIL of a completion or event ring, followed by its notify (R346, R358). `mk` makes the entry
from its phase. -/
def writeEntry (n : Nat) (isEvent : Bool) (mk : Nat → List Byte) (s : State) : State :=
  let r := ringOf s n
  let s1 := enqueue { kind := .write, addr := entryAddr r r.tail, data := mk (ringPhase r r.tail), len := 64, tag := 0
                      tenant := n / 4
                      what := if isEvent then .event n r.tail.toNat else .record n r.tail.toNat } s
  let r' := { r with tail := r.tail + 1 }
  let s2 := putRing n r' s1
  if r.notify then
    enqueue { kind := .write, addr := r.naddr, data := toLe 4 r.ndata.toNat ++ toLe 4 r'.tail.toNat, len := 8, tag := 0
              tenant := n / 4, what := .notify n } s2
  else s2

/-! ## Events (R348) -/

/-- An event record (R348). -/
def eventBytes (code id arg now : Nat) (detail : List Byte) (phase : Nat) : List Byte :=
  toLe 1 code ++ toLe 1 0 ++ toLe 2 id ++ toLe 4 arg ++ toLe 8 now ++ slice detail 0 32 ++ List.replicate 15 0
    ++ toLe 1 phase

def eventRing (t : Nat) : Nat := 4 * t + 2

/-- Whether the event ring takes another record (R348). -/
def eventRoom (s : State) (t : Nat) : Bool :=
  let r := ringOf s (eventRing t)
  r.en && decide (ringHeld r + 2 ≤ ringEntries r)

/-- EVENTS_LOST, written first once there is room again (R348). -/
def flushLost (t : Nat) (s : State) : State :=
  if eventRoom s t && (tenantOf s t).lost != 0 then
    putTenant t { tenantOf s t with lost := 0 }
      (writeEntry (eventRing t) true (eventBytes 0x11 0 (tenantOf s t).lost.toNat (nowOf s) []) s)
  else s

/-- An event goes to the tenant it concerns, or is lost and counted (R348). -/
def sendEvent (t code id arg : Nat) (detail : List Byte) (s : State) : State :=
  let s := flushLost t s
  if eventRoom s t then writeEntry (eventRing t) true (eventBytes code id arg (nowOf s) detail) s
  else putTenant t { tenantOf s t with lost := satAdd (tenantOf s t).lost 1 } s

def evLoadDone : Nat := 0x01
def evSwapDone : Nat := 0x02
def evTenantResetDone : Nat := 0x03
def evBlocked : Nat := 0x04
def evPostedDropped : Nat := 0x10
def evBadDoorbell : Nat := 0x12
def evRingError : Nat := 0x13
def evContractFault : Nat := 0x20
def evLatencyChanged : Nat := 0x22
def evOverruled : Nat := 0x30

/-- An event that arose at `now` is written while the ring has room, else lost and counted (R348). -/
def oweEvent (t code arg now : Nat) (s : State) : State :=
  if eventRoom s t then writeEntry (eventRing t) true (eventBytes code 0 arg now []) s
  else putTenant t { tenantOf s t with lost := satAdd (tenantOf s t).lost 1 } s

/-- What an event ring owes when the host sets it up, each with the time at which it arose: POSTED_DROPPED first, then
TENANT_RESET_DONE (R159, R348, R360). -/
def sendOwed (t : Nat) (s : State) : State :=
  let ten := tenantOf s t
  let s1 := putTenant t { ten with droppedOwed := [], doneOwed := none } s
  let s2 := ten.droppedOwed.foldl (fun s e => oweEvent t evPostedDropped e.1 e.2 s) s1
  flushLost t (match ten.doneOwed with
    | none => s2
    | some g => oweEvent t evTenantResetDone (if g.1 then 1 else 0) g.2 s2)

/-! ## Conflicts (R83, R84) -/

/-- The loser of a conflict (R84). -/
inductive Loser where
  | host
  | gate
deriving DecidableEq, Repr

/-- The books of a conflict: the count, the cause and G_LOOM_CONFLICT (R83, R84). HOST_STATE is L_POWER_REQ's value, 3 where the host
has made no request: the model's choice (log 22). -/
def conflictBooks (loser : Loser) (kind tenant : Nat) (cut : Bool) (s : State) : State :=
  raise causeConflict (onPwr (fun p => { p with
    conflicts := satAdd p.conflicts 1
    conflict :=
      { loser := match loser with | .host => 1 | .gate => 2
        kind := BitVec.ofNat 2 kind, gate := p.gateLast, host := p.hostTarget
        tenant := BitVec.ofNat 8 (match loser with | .host => tenant | .gate => 0), cut := cut } }) s)

/-- A conflict over the loom state; a losing host is told by an OVERRULED event (R83). -/
def conflictState (loser : Loser) (kind tenant requested : Nat) (s : State) : State :=
  let s := conflictBooks loser kind tenant false s
  match loser with
  | .gate => s
  | .host => loomTally 0x45 (some tenant) 1 (sendEvent tenant evOverruled 0 (requested + 4 * kind) [] s)

end Sys2Proof.Machine
end

