-- ==== Sys2Proof/Machine/Jobs.lean ====
section
/-!
DEFINITION. The weave's occurrences and bookings, admitted jobs, completion records, tenant resets and the state a LOOM reset
leaves (12, R152, R156, R159, R346 to R360, R364, R464).
-/

namespace Sys2Proof.Machine

/-! ## The weave (R349) -/

/-- Insertion into a rising list, no repeats. -/
def insRising (x : Nat) : List Nat → List Nat
  | [] => [x]
  | y :: ys => if x < y then x :: y :: ys else if x = y then y :: ys else y :: insRising x ys

def sortRising (xs : List Nat) : List Nat := xs.foldl (fun a x => insRising x a) []

/-- The kind of an entry: 4 to 7 act as NONE (R372). -/
def isDraftEntry (e : WEntry) : Bool := e.kind == 1
def isDmaEntry (e : WEntry) : Bool := e.kind == 2
def isBobbinEntry (e : WEntry) : Bool := e.kind == 3
def isNoneEntry (e : WEntry) : Bool := e.kind == 0 || decide (3 < e.kind.toNat)

def activeEntry (s : State) (e : Nat) : WEntry := sget .init s.loom.weave.active e

/-- Whether a weave is installed and its repeat is under way (R370, R153). -/
def walking (w : Weave) : Bool := decide (w.activeLc ≠ 0) && !w.repDue

/-- Whether lc `t` lies in this repeat's occurrence of an entry. -/
def inOccurrence (w : Weave) (e : WEntry) (t : Nat) : Bool :=
  walking w && decide (w.rep0 + e.start ≤ t) && decide (t < w.rep0 + e.start + e.len)

/-- PASS_LC of a draft's resident version. -/
def residentPass (s : State) (d : Nat) : Option Nat := (draftOf s d).resident.map (·.passLc)

/-- Whether an entry can run a pass of a draft (R350). -/
def canRun (s : State) (d : Nat) (e : WEntry) : Bool :=
  isDraftEntry e && e.id == d && (match residentPass s d with
    | some p => decide (p ≤ e.len)
    | none => false)

/-- Whether a draft is a follower (R385). -/
def isFollower (s : State) (d : Nat) : Bool := (sget 0 s.loom.chain.follow (d / 64)).getLsbD (d % 64)

/-- Starts within the repeat of the entries that can run a draft, rising. -/
def draftStarts (s : State) (d : Nat) : List Nat :=
  sortRising ((s.loom.weave.active.filter (fun e => canRun s d e.2)).map (fun e => e.2.start))

/-- The first `n` starts at or after `lo` that nobody has taken, repeat by repeat from lc `rep`. -/
def bookFrom : Nat → List Nat → Nat → Nat → Nat → List Nat → Nat → List Nat
  | 0, _, _, _, _, _, _ => []
  | fuel + 1, starts, rep, per, lo, taken, n =>
    if n = 0 then []
    else
      let here := ((starts.map (rep + ·)).filter (fun x => decide (lo ≤ x) && !taken.contains x)).take n
      here ++ bookFrom fuel starts (rep + per) per lo taken (n - here.length)

/-- The occurrences of a draft that a job answered so that none starts before `lo` would take (R355). -/
def occurrences (s : State) (d lo n : Nat) : List Nat :=
  let w := s.loom.weave
  let starts := draftStarts s d
  let taken := (s.loom.bookings.filter (fun b => b.1 = d)).map (·.2)
  if starts.isEmpty || w.activeLc = 0 then []
  else bookFrom (n + taken.length + 2) starts (w.rep0 + w.activeLc * ((lo - w.rep0) / w.activeLc)) w.activeLc lo taken n

/-- The promise for a record in lc `r` answered in lc `a` (R355). -/
def promiseAt (s : State) (a r : Nat) : Nat := nowOf s + ceilDiv ((r - a) * 1004) (currentMHz s)

/-! ## Jobs -/

def onJobs (f : List Job → List Job) : State → State := onLoom (fun l => { l with jobs := f l.jobs })
/-- A change of the job with an admission order. -/
def modJob (o : Nat) (f : Job → Job) : State → State := onJobs (fun js => js.map (fun j => if j.order = o then f j else j))
def jobOf (s : State) (o : Nat) : Option Job := s.loom.jobs.find? (fun j => j.order == o)
def jobsOfTenant (s : State) (t : Nat) : List Job := s.loom.jobs.filter (fun j => j.tenant == t)
def isCkpt (j : Job) : Bool := j.kind != .run

/-- Jobs that have not ended. A checkpoint is open until its record is due or the last image write of a SAVE has left (log 33). -/
def openJobs (s : State) : List Job := s.loom.jobs.filter (fun j => j.ended.isNone)

/-- A job ends before its last pass: its code is fixed and its record is due (R347, R357). -/
def endJob (o : Nat) (code : Byte) (s : State) : State :=
  modJob o (fun j => if j.ended.isSome then j else { j with
    ended := some code, recordAt := lcOf s, ending := none }) s

/-- A job that binds a sequence (R320, R325). -/
def bindsSeq (s : State) (q : Nat) : Bool := s.loom.jobs.any (fun j =>
  j.binds.any (fun b => b.2 == q) || (match j.ckpt with | some c => c.seqs.contains q | none => false))

/-- A CLOSING sequence with no binding job left is RETURNING, its reels still withheld (R320). -/
def returnSeqs (s : State) : State := onLoom (fun l => { l with
  seqs := l.seqs.map (fun e => if e.2.st = .closing && !bindsSeq s e.1 then (e.1, { e.2 with st := .returning }) else e) }) s

/-- A job leaves the table (R156, R320, R366). -/
def dropJob (o : Nat) (s : State) : State := returnSeqs (onJobs (fun js => js.filter (fun j => j.order != o)) s)

/-! ## Checkpoints that end (R431, R432, R435) -/

def indexBytes (nblk : Nat) : Nat := 64 * ceilDiv nblk 8
/-- P0 (R423). -/
def payloadAt (nblk : Nat) : Nat := 128 + indexBytes nblk

def modCkpt (o : Nat) (f : Ckpt → Ckpt) : State → State := modJob o (fun j => { j with ckpt := j.ckpt.map f })

def saveResult (c : Ckpt) : List Byte :=
  toLe 8 (payloadAt c.nblk + c.stored) ++ toLe 4 c.nblk ++ toLe 4 c.rawBlocks ++ [c.reason]

def restoreResult (c : Ckpt) : List Byte :=
  List.replicate 8 0 ++ toLe 4 (c.moved / 64) ++ toLe 4 (c.failBlock.getD 0xFFFFFFFF) ++ [c.reason]

def noteResult (o : Nat) : State → State := modJob o (fun j => match j.ckpt with
  | some c => { j with result := if j.kind = .save then saveResult c else restoreResult c }
  | none => j)

/-- The queue bytes of a checkpoint that ends are discarded, and the answers to its reads are not waited for. -/
def dropQueue (o : Nat) (s : State) : State :=
  modCkpt o (fun c => { c with inbound := [] }) (onLoom (fun l => { l with
    bobbin := { l.bobbin with out := l.bobbin.out.filter (fun w => w.job != o) }
    reads := l.reads.filter (fun r => match r.what with | .checkpoint p _ _ => p != o | _ => true) }) s)

/-- A checkpoint ends with a code, its result as far as it came; it writes nothing more. -/
def endCkpt (o : Nat) (code : Byte) (s : State) : State := dropQueue o (endJob o code (noteResult o s))

/-- Every row of a checkpoint has moved: what is left is its record, and image writes of a SAVE. -/
def movesDone (j : Job) : Bool :=
  match j.ckpt with
  | some c => decide (64 * c.nblk ≤ c.moved)
  | none => false

/-- Whether a checkpoint still has image writes to send (R430). -/
def outboundLeft (s : State) (o : Nat) : Bool := s.loom.bobbin.out.any (fun w => w.job == o)

/-- Jobs that will end at their next slot start (R85, R152, R156, R265); the first reason stands (R347). A TENANT reset also takes the
record that a checkpoint still owes (R435). -/
def flagJobs (p : Job → Bool) (code : Byte) (silent : Bool) : State → State :=
  onJobs (fun js => js.map (fun j =>
    if p j && (j.ended.isNone || (silent && isCkpt j)) then
      { j with ending := some (j.ending.getD code), silent := j.silent || silent }
    else j))

/-- CUT with a move down: every admitted job is overruled, every checkpoint abandoned (R152). -/
def flagCut : State → State :=
  onJobs (fun js => js.map (fun j =>
    if j.ended.isNone then
      { j with ending := some (j.ending.getD (if isCkpt j then 0x23 else 0x30)), cut := j.cut || j.ending.isNone }
    else j))

/-- A flagged job reaches its slot start: it ends with its code, or without a record; 0x30 counts as a conflict (R84). -/
def endFlagged (j : Job) (s : State) : State :=
  match j.ending with
  | none => s
  | some code =>
    if j.silent then dropJob j.order (dropQueue j.order s)
    else
      let s1 := if isCkpt j then endCkpt j.order code s else endJob j.order code s
      if code = 0x30 then conflictBooks .host 3 j.tenant j.cut s1 else s1

/-! ## Records (R346, R347, R464) -/

/-- What a completion record carries, but PHASE and DONE_AT. -/
structure Rec where
  tenant  : Nat
  code    : Nat
  flags   : Nat
  id      : Nat
  subidx  : Word
  tag     : DWord
  promise : Nat
  result  : List Byte
  ran     : Nat
deriving DecidableEq, Repr

def recordBytes (r : Rec) (now phase : Nat) : List Byte :=
  toLe 1 r.code ++ toLe 1 r.flags ++ toLe 2 r.id ++ toLe 4 r.subidx.toNat ++ toLe 8 r.tag.toNat ++ toLe 8 r.promise
    ++ toLe 8 now ++ slice r.result 0 24 ++ toLe 2 r.ran ++ List.replicate 5 0 ++ toLe 1 phase

/-- A record goes to the tenant's completion ring and its reservation ends there (R353, R359); a ring that is not enabled
takes nothing. -/
def writeRecord (r : Rec) (s : State) : State :=
  let n := 4 * r.tenant + 1
  let s1 := loomTally 0x44 (some r.tenant) (if r.code = 2 || r.flags % 2 = 1 then 1 else 0)
    (loomTally 0x45 (some r.tenant) (if r.code = 0x30 then 1 else 0) s)
  if (ringOf s1 n).en then
    writeEntry n false (recordBytes r (nowOf s1)) (putRing n { ringOf s1 n with resv := (ringOf s1 n).resv - 1 } s1)
  else s1

/-- Tally source of a refusal at admission (R445). -/
def refusalSource (code : Nat) : Option Nat :=
  if code = 0x10 then some 0x41 else if code = 0x11 then some 0x42
  else if (0x12 ≤ code && code ≤ 0x16) || code = 0x20 then some 0x43 else none

/-- An answer that is a record at once: a refusal, a NOP or a SEQ_OPEN (R354, R318). -/
def answerNow (r : Rec) (s : State) : State :=
  let s1 := match refusalSource r.code with
    | some src => loomTally src (some r.tenant) 1 s
    | none => s
  writeRecord r s1

/-- The record of an ended job, at L_NOW (R347, R432, R464). -/
def jobRecord (j : Job) (now : Nat) : Rec :=
  let late := decide (j.promise < now)
  let code := match j.ended with
    | some c => if c ≠ 0 then c.toNat
        else if j.poisoned then 0x21 else if j.degraded then 1 else if late then 2 else 0
    | none => 0
  { tenant := j.tenant, code := code
    flags := (if late then 1 else 0) + (if j.degraded then 2 else 0) + (if j.esc then 4 else 0)
      + (if isCkpt j then 8 else 0)
    id := j.draft, subidx := j.subidx, tag := j.tag, promise := j.promise, result := j.result, ran := j.ran }

/-- The job whose record is due first: by the lc of its end, then by fetch (R357). -/
def dueJob (s : State) : Option Job :=
  (s.loom.jobs.filter (fun j => j.ended.isSome && decide (j.recordAt ≤ lcOf s))).foldl (fun best j =>
    match best with
    | none => some j
    | some b => if j.recordAt < b.recordAt ∨ (j.recordAt = b.recordAt ∧ j.order < b.order) then some j else best) none

/-- A job's record is written and the job leaves the table. -/
def issueJob (j : Job) (s : State) : State := dropJob j.order (writeRecord (jobRecord j (nowOf s)) s)

/-- Every record owed is written, at the end of a drain (R159). -/
def issueAll : Nat → State → State
  | 0, s => s
  | n + 1, s => match dueJob s with
    | none => s
    | some j => issueAll n (issueJob j s)

/-! ## Sequences (R320, R321, R325) -/

def reelOwner (s : State) (r : Nat) : Option Nat :=
  (s.loom.seqs.find? (fun e => e.2.st != .free && e.2.reels.contains r)).map (·.1)

/-- Engine commands on sequences that are freed run their schedules out without a sequence (log 30). -/
def cutCommands (p : Nat → Bool) : State → State := onLoom (fun l => { l with
  engines := l.engines.map (fun e => (e.1, { e.2 with cmd := e.2.cmd.map (fun k =>
    if k.lane.any (fun a => p a.1) then { k with faulty := true, lane := none } else k) })) })

/-- A sequence goes back to FREE with its reels. -/
def freeSeq (q : Nat) : State → State := putSeq q .init

/-! ## Tenant resets (R156, R163, R360) -/

/-- A TENANT reset is requested; a pending one merges, the side that asked first is reported (R163). -/
def requestTenantReset (t : Nat) (gate : Bool) (s : State) : State :=
  let ten := tenantOf s t
  flagJobs (fun j => j.tenant == t) 0x23 true
    (putTenant t { ten with treset := some (ten.treset.getD gate) } s)

/-- Pending marks of a tenant's followers are cleared (R395). -/
def clearMarks (t : Nat) (s : State) : State :=
  [0, 1].foldl (fun s m => putWarp m { warpOf s m with
    marks := (warpOf s m).marks.filter (fun k => (draftOf s k.id).tenant != t) } s) s

/-- TRESET clears with the last of the resets for which it was written (R168). -/
def clearTreset (t : Nat) : State → State := onPwr (fun p =>
  let left := p.tresetFor.filter (· != t)
  { p with tresetFor := left, reqTreset := p.reqTreset && !(p.tresetFor.contains t && left.isEmpty) })

/-- A TENANT reset takes effect at a repeat boundary (R156, R157, R360): the tenant's rings are as after a LOOM reset. -/
def tenantResetEffect (t : Nat) (s : State) : State :=
  match (tenantOf s t).treset with
  | none => s
  | some gate =>
    let s1 := onLoom (fun l => { l with
      jobs := l.jobs.filter (fun j => j.tenant != t)
      fetched := l.fetched.filter (fun f => f.ring / 4 != t)
      reads := l.reads.filter (fun r => match r.what with | .image _ => true | _ => r.tenant != t)
      closes := l.closes.filter (fun c => c.tenant != t)
      bobbin := { l.bobbin with out := l.bobbin.out.filter (fun o => o.tenant != t) }
      seqs := l.seqs.filter (fun e => e.2.tenant != t) })
      (cutCommands (fun q => (seqOf s q).tenant == t) s)
    let s2 := [0, 1, 2, 3].foldl (fun s k => putRing (4 * t + k) .init s) s1
    clearTreset t
      (putTenant t { tenantOf s2 t with treset := none, faulted := false, doneOwed := some (gate, nowOf s) } (clearMarks t s2))

/-! ## Discarded posted writes (R159, R260, R365) -/

/-- Posted writes of a module that a drain or a LINK reset discards, with their owners. -/
def discarded (w : WeftModule) : List Nat :=
  ((w.inq.filter (fun x => !x.isRead)).map (·.owner)) ++ ((w.park.filter (fun x => !x.isRead)).map (·.owner))

/-- A module's queue and park are emptied and counted per tenant. -/
def discardQueue (m : Nat) (s : State) : State :=
  let w := weftOf s m
  putWeft m { w with
    inq := [], park := [], oweP := w.oweP + (w.inq.filter (fun x => !x.isRead)).length
    oweN := w.oweN + (w.inq.filter (·.isRead)).length + (w.park.filter (·.isRead)).length
    dropped := (discarded w).foldl (fun d t => smod 0 d t (· + 1)) w.dropped } s

/-- A write that is not accepted from the start of a drain until the loom returns (R159). -/
def dropPosted (m owner : Nat) (s : State) : State :=
  putWeft m { weftOf s m with dropped := smod 0 (weftOf s m).dropped owner (· + 1) } s

/-- A host's posted write as a command gives it. From the start of a drain until the loom returns it is discarded and counted for
its owner, a free one where the command names none (R159, log 40); it changes nothing where the loom does not answer. -/
def hostPosts (owner : Option Nat) (f : State → State) (s : State) : State :=
  if s.pwr.drained then
    match owner with
    | some t => dropPosted (moduleFor s t) t s
    | none =>
      let t := (Config.freeOwner s.free).toNat
      dropPosted (moduleFor s t) t { s with free := s.free + 1 }
  else if !loomReachable s.pwr then s
  else f s

/-- Writes found discarded at one time make one event. -/
def owedAt (n now : Nat) (xs : List (Nat × Nat)) : List (Nat × Nat) :=
  match xs.getLast? with
  | some (k, t) => if t = now then xs.dropLast ++ [(k + n, now)] else xs ++ [(n, now)]
  | none => [(n, now)]

/-- One tenant's discarded writes reach the tally and its event ring (R159). -/
def reportDropped (t n : Nat) (s : State) : State :=
  let s1 := loomTally 0x4E (some t) n s
  if (ringOf s1 (eventRing t)).en then sendEvent t evPostedDropped 0 n [] s1
  else putTenant t { tenantOf s1 t with droppedOwed := owedAt n (nowOf s1) (tenantOf s1 t).droppedOwed } s1

/-- The weft modules hand over their counts. -/
def reportAllDropped (s : State) : State :=
  [0, 1].foldl (fun s m =>
    let ds := (weftOf s m).dropped
    ds.foldl (fun s e => reportDropped e.1 e.2 s) (putWeft m { weftOf s m with dropped := [] } s)) s

/-! ## LOOM reset (R157, R268, R304, R330, R370, R393, R437) -/

/-- The tenants' sampled levels stay; everything else of them goes (R370). -/
def resetTenants (ts : Sparse Tenant) : Sparse Tenant :=
  ts.foldl (fun m e => sput .init m e.1 { Tenant.init with blocked := e.2.blocked, abort := e.2.abort }) []

/-- The loom's state after a LOOM reset. Clock point, stretch register, breach record, tally selects and L_NOW stay; tiles
marked failed stay so until an exit from L3 (R268, R271, R368, R356). -/
def resetLoom (l : Loom) : Loom :=
  { Loom.reset with
    clock := { l.clock with relocking := false, heldPoint := none, targets := [] }
    breach := l.breach, tenants := resetTenants l.tenants, now := l.now, tallySel := l.tallySel
    failed := l.failed, nextTag := l.nextTag, order := l.order }

/-- The whole effect of a LOOM reset outside the power control itself: the loom, L_POWER_REQ, the pending marks, and host
READs and device reads in progress. -/
def applyLoomReset (s : State) : State :=
  let s1 := { s with loom := resetLoom s.loom
                     pwr := { s.pwr with hostTarget := 3, weftReqs := [] } }
  [0, 1].foldl (fun s m => putWarp m { warpOf s m with marks := [] } s) s1

end Sys2Proof.Machine
end

