-- ==== Sys2Proof/Machine/Num.lean ====
section
/-!
DEFINITION. Exact arithmetic and its one rounding (R273 to R278, R296).
-/

namespace Sys2Proof.Machine

/-- An exact value: (-1)^neg · n/d · 2^e, with d > 0, or a special. The sign of a zero is kept. -/
inductive Xv where
  | nan
  | inf (neg : Bool)
  | rat (neg : Bool) (n d : Nat) (e : Int)
deriving DecidableEq, Repr

/-- A binary float format: exponent bits, mantissa bits, bias, and whether the top exponent is reserved for infinity and
NaN (R273, R275). -/
structure FFmt where
  eb : Nat
  mb : Nat
  bias : Nat
  ieee : Bool
deriving DecidableEq, Repr

def f8a : FFmt := { eb := 4, mb := 3, bias := 7, ieee := false }
def f8b : FFmt := { eb := 5, mb := 2, bias := 15, ieee := true }
def f16 : FFmt := { eb := 5, mb := 10, bias := 15, ieee := true }
def bf16 : FFmt := { eb := 8, mb := 7, bias := 127, ieee := true }
def f32 : FFmt := { eb := 8, mb := 23, bias := 127, ieee := true }
def f64 : FFmt := { eb := 11, mb := 52, bias := 1023, ieee := true }

/-- Canonical NaN (R276). -/
def canonNan (f : FFmt) : Nat :=
  if f.ieee then (2 ^ f.eb - 1) * 2 ^ f.mb + 2 ^ (f.mb - 1) else 0x7F

/-- Largest finite magnitude as bits. -/
def topFinite (f : FFmt) : Nat := if f.ieee then (2 ^ f.eb - 1) * 2 ^ f.mb - 1 else 0x7E

/-- The value of a float's bits (R275). -/
def floatVal (f : FFmt) (bits : Nat) : Xv :=
  let neg := bitOf bits (f.eb + f.mb)
  let e := field bits f.mb f.eb
  let m := field bits 0 f.mb
  if f.ieee && e == 2 ^ f.eb - 1 then (if m = 0 then .inf neg else .nan)
  else if !f.ieee && e == 2 ^ f.eb - 1 && m == 2 ^ f.mb - 1 then .nan
  else if e = 0 then .rat neg m 1 (1 - f.bias - f.mb)
  else .rat neg (2 ^ f.mb + m) 1 (e - f.bias - f.mb)

/-- The value of an e5m3 scale (R275). -/
def e5m3Val (c : Nat) : Xv :=
  if field c 3 5 = 0 then .rat false 0 1 0 else .rat false (8 + field c 0 3) 1 ((field c 3 5 : Int) - 18)

def ofInt (i : Int) : Xv := .rat (decide (i < 0)) i.natAbs 1 0

/-! ## Exact operations -/

def xIsZero : Xv → Bool
  | .rat _ n _ _ => n == 0
  | _ => false

def xFinite : Xv → Bool
  | .rat _ _ _ _ => true
  | _ => false

def xNeg : Xv → Xv
  | .nan => .nan
  | .inf s => .inf !s
  | .rat s n d e => .rat (!s) n d e

def xAbs : Xv → Xv
  | .nan => .nan
  | .inf _ => .inf false
  | .rat _ n d e => .rat false n d e

def xMul : Xv → Xv → Xv
  | .rat s n d e, .rat t m c g => .rat (s != t) (n * m) (d * c) (e + g)
  | .nan, _ => .nan
  | _, .nan => .nan
  | .inf s, .inf t => .inf (s != t)
  | .inf s, .rat t m _ _ => if m = 0 then .nan else .inf (s != t)
  | .rat t m _ _, .inf s => if m = 0 then .nan else .inf (s != t)

def xDiv : Xv → Xv → Xv
  | .rat s n d e, .rat t m c g =>
    if m = 0 then (if n = 0 then .nan else .inf (s != t)) else .rat (s != t) (n * c) (d * m) (e - g)
  | .nan, _ => .nan
  | _, .nan => .nan
  | .inf _, .inf _ => .nan
  | .inf s, .rat t _ _ _ => .inf (s != t)
  | .rat t _ _ _, .inf s => .rat (s != t) 0 1 0

/-- The signed numerators of two finite values over one denominator and exponent. -/
def common (s : Bool) (n d : Nat) (e : Int) (t : Bool) (m c : Nat) (g : Int) : Int × Int × Nat × Int :=
  let lo := min e g
  let a : Int := n * c * 2 ^ (e - lo).toNat
  let b : Int := m * d * 2 ^ (g - lo).toNat
  (if s then -a else a, if t then -b else b, d * c, lo)

def xAdd : Xv → Xv → Xv
  | .rat s n d e, .rat t m c g =>
    if n = 0 ∧ m = 0 then .rat (s && t) 0 1 0
    else
      let (a, b, k, lo) := common s n d e t m c g
      .rat (decide (a + b < 0)) (a + b).natAbs k lo
  | .nan, _ => .nan
  | _, .nan => .nan
  | .inf s, .inf t => if s = t then .inf s else .nan
  | .inf s, _ => .inf s
  | _, .inf s => .inf s

def xSub (a b : Xv) : Xv := xAdd a (xNeg b)

/-- Order of two values; false when either is NaN. Zeros are equal. -/
def xLt : Xv → Xv → Bool
  | .rat s n d e, .rat t m c g =>
    let (a, b, _, _) := common s n d e t m c g
    decide (a < b)
  | .nan, _ => false
  | _, .nan => false
  | .inf s, .inf t => s && !t
  | .inf s, .rat _ _ _ _ => s
  | .rat _ _ _ _, .inf s => !s

def xEq (a b : Xv) : Bool := match a, b with
  | .nan, _ => false
  | _, .nan => false
  | a, b => !xLt a b && !xLt b a

/-- a ≤ b. -/
def xLe (a b : Xv) : Bool := xLt a b || xEq a b

/-- Sum of a list, NaN and infinities as for one exact sum. -/
def xSum (xs : List Xv) : Xv := xs.foldl xAdd (.rat false 0 1 0)

/-! ## Rounding (R277) -/

/-- A quotient to the nearest integer; ties to even, or away from zero. -/
def divRound (rna : Bool) (n d : Nat) : Nat :=
  let q := n / d
  let r := n % d
  if 2 * r < d then q else if d < 2 * r then q + 1 else if rna || q % 2 = 1 then q + 1 else q

/-- A finite value to an integer. -/
def roundRatInt (rna : Bool) (s : Bool) (n d : Nat) (e : Int) : Int :=
  let q : Int := divRound rna (n * 2 ^ e.toNat) (d * 2 ^ (-e).toNat)
  if s then -q else q

/-- A value to an integer within bounds (R278): NaN gives 0, infinities the end of the range. -/
def toIntSat (rna : Bool) (lo hi : Int) : Xv → Int
  | .nan => clampInt lo hi 0
  | .inf s => if s then lo else hi
  | .rat s n d e => clampInt lo hi (roundRatInt rna s n d e)

/-- floor(log2 (n / d)) for n, d > 0. -/
def ratLog (n d : Nat) : Int :=
  let k : Int := (Nat.log2 n : Int) - Nat.log2 d
  if d * 2 ^ k.toNat ≤ n * 2 ^ (-k).toNat then k else k - 1

/-- A magnitude n/d · 2^e rounded to a format: its bits, or `none` where it passes the largest finite value. -/
def packMag (f : FFmt) (rna : Bool) (n d : Nat) (e : Int) : Option Nat :=
  if n = 0 then some 0
  else
    let emin : Int := 1 - f.bias - f.mb
    let q := max emin (ratLog n d + e - f.mb)
    let m := divRound rna (n * 2 ^ (e - q).toNat) (d * 2 ^ (q - e).toNat)
    -- rounding up to the next binade carries into the exponent field by itself
    let bits := if m < 2 ^ f.mb then m else m - 2 ^ f.mb + (q - emin + 1).toNat * 2 ^ f.mb
    if bits ≤ topFinite f then some bits else none

/-- Sign bit of a format. -/
def signBit (f : FFmt) (s : Bool) : Nat := if s then 2 ^ (f.eb + f.mb) else 0

/-- What passes the largest finite value: infinity under the vector unit, the largest finite value under the quantisation
unit and in f8a always (R278). -/
def overBits (f : FFmt) (sat s : Bool) : Nat :=
  signBit f s + (if sat || !f.ieee then topFinite f else (2 ^ f.eb - 1) * 2 ^ f.mb)

/-- A value rounded to a format (R277, R278). `sat` is the quantisation unit's regime. -/
def toFloat (f : FFmt) (rna sat : Bool) : Xv → Nat
  | .nan => canonNan f
  | .inf s => overBits f sat s
  | .rat s n d e => match packMag f rna n d e with
    | some b => signBit f s + b
    | none => overBits f sat s

/-- f32 RNE, the rounding of every float operation that names no other. -/
def rne32 (v : Xv) : Nat := toFloat f32 false false v
def val32 (bits : Nat) : Xv := floatVal f32 bits

/-- A zero result as +0 (R276). -/
def posZero (f : FFmt) (bits : Nat) : Nat := if bits = signBit f true then 0 else bits

/-! ## EXP, RCP, RSQ (R296) -/

/-- Terms of the exponential series of x = num / 2^320 in units of 2^-320, summed downwards. -/
def expSeries : Nat → Nat → Nat → Nat → Nat
  | 0, _, _, _ => 0
  | fuel + 1, k, num, t =>
    if t = 0 then 0 else t + expSeries fuel (k + 1) num (t * num / (2 ^ 320 * (k + 1)))

/-- Bounds of e^x for 0 ≤ x = num / 2^320 ≤ 104, in units of 2^-320: 700 truncations, each worth at most e^x units. -/
def expBounds (num : Nat) : Nat × Nat :=
  let lo := expSeries 700 0 num (2 ^ 320)
  (lo, lo + 702 * (lo / 2 ^ 320 + 2))

/-- The correctly rounded exponential of an f32 value. -/
def expBits (v : Xv) : Nat :=
  match v with
  | .nan => canonNan f32
  | .inf s => if s then 0 else 0x7F800000
  | .rat s n d e =>
    if n = 0 then 0x3F800000
    else if xLt (ofInt 104) (xAbs v) then (if s then 0 else 0x7F800000)
    else
      let b := expBounds (n * 2 ^ (e + 320).toNat / d)
      if s then rne32 (.rat false (2 ^ 320) b.2 0) else rne32 (.rat false b.1 1 (-320))

/-- Floor of the square root, bit by bit from bit `k`. -/
def sqrtFrom : Nat → Nat → Nat → Nat
  | 0, _, r => r
  | k + 1, n, r => let t := r + 2 ^ k; sqrtFrom k n (if t * t ≤ n then t else r)

/-- The correctly rounded reciprocal square root: 200 fraction bits and a sticky bit decide the rounding, since no exact
tie exists. -/
def rsqBits (v : Xv) : Nat :=
  match v with
  | .nan => canonNan f32
  | .inf s => if s then canonNan f32 else 0
  | .rat s n d e =>
    if n = 0 then signBit f32 s + 0x7F800000
    else if s then canonNan f32
    else
      -- 1/v scaled by an even power of two
      let k : Int := e % 2
      let h := (e - k) / 2
      let m := d * 2 ^ 400 / (n * 2 ^ k.toNat)
      let r := sqrtFrom 300 m 0
      let sticky := if r * r * (n * 2 ^ k.toNat) = d * 2 ^ 400 then 0 else 1
      rne32 (.rat false (2 * r + sticky) 1 (-201 - h))

/-- RCP; ±0 gives ±infinity. -/
def rcpBits (v : Xv) : Nat :=
  match v with
  | .rat s n _ _ => if n = 0 then signBit f32 s + 0x7F800000 else rne32 (xDiv (ofInt 1) v)
  | v => rne32 (xDiv (ofInt 1) v)

/-! ## Dyadic values of the state (an accumulator's pending terms) -/

def exOf : Xv → ExVal
  | .nan => .nan
  | .inf s => .inf s
  | .rat s n _ e => .fin (if s then -n else n) e

def xvOf : ExVal → Xv
  | .nan => .nan
  | .inf s => .inf s
  | .fin n e => .rat (decide (n < 0)) n.natAbs 1 e

/-- Elements of a packed row (R274): `w` bits each, the first at index `i0`. -/
def elems (row : List Byte) (w i0 n : Nat) : List Nat :=
  (span i0 n).map (fun i => field (leAt row (i * w / 8) (ceilDiv w 8)) (i * w % 8) w)

/-- The floats of a format code (R273). -/
def fmtOf (code : Nat) : Option FFmt :=
  if code = 8 then some f8a else if code = 9 then some f8b else if code = 10 then some f16
  else if code = 11 then some bf16 else if code = 12 then some f32 else none

/-- Element width of a storage format code in bits. -/
def fmtBits (code : Nat) : Nat :=
  if code < 3 then 4 else if code = 10 || code = 11 || code = 6 then 16
  else if code = 7 || code = 12 then 32 else 8

end Sys2Proof.Machine
end

