-- ==== Sys2Proof/Machine/Fabric.lean ====
section
/-!
DEFINITION. Tiles, banks, ownership and breaches (09, R231 to R240, R262 to R267, R281, R466).
-/

namespace Sys2Proof.Machine

/-! ## Slots and rectangles -/

def slotOfEntry (s : State) (e : Nat) : Option Slot := s.loom.weave.slots.find? (fun x => x.entry == e)
def modSlot (e : Nat) (f : Slot → Slot) : State → State := onLoom (fun l => { l with
  weave := { l.weave with slots := l.weave.slots.map (fun x => if x.entry = e then f x else x) } })

/-- Tiles of a rectangle, ascending. -/
def rectTiles (row0 col0 rows cols : Nat) : List Nat :=
  (span row0 rows).flatMap (fun r => (span col0 cols).map (fun c => 16 * r + c))

def inRect (row0 col0 rows cols t : Nat) : Bool :=
  decide (row0 ≤ t / 16) && decide (t / 16 < row0 + rows) && decide (col0 ≤ t % 16) && decide (t % 16 < col0 + cols)

def versionTiles (v : Version) : List Nat := rectTiles v.row0 v.col0 v.rows v.cols
def inVersion (v : Version) (t : Nat) : Bool := inRect v.row0 v.col0 v.rows v.cols t
def partTiles (p : Part) : List Nat := rectTiles p.row0 p.col0 p.rows p.cols

/-- L_READY0–3: passed this epoch's self-test and not marked failed since (R164, R368). -/
def tileGood (s : State) (t : Nat) : Bool := s.pwr.tilesOk.getLsbD t && !s.loom.failed.getLsbD t

/-- Whether a slot runs a pass. -/
def isPass (x : Slot) : Bool :=
  match x.run with
  | .pass _ _ => true
  | .idle => false

/-- The pass's first lc. -/
def passStart (x : Slot) : Nat :=
  match x.run with
  | .pass _ n => n
  | .idle => x.start

def slotJob (x : Slot) : Option Nat :=
  match x.run with
  | .pass j _ => j
  | .idle => none

def slotVersion (s : State) (x : Slot) : Option Version := (draftOf s x.draft).resident

/-- Aperture windows of the running pass that hold offset `o` (R245, R253). -/
def windowsAt (v : Version) (o : Nat) : List Window :=
  v.windows.filter (fun w => decide (w.start ≤ o) && decide (o < w.start + w.len))

/-! ## Breaches (R263 to R265) -/

def breachWord (tile kind tenant draft lc : Nat) : DWord :=
  BitVec.ofNat 64 (tile + 2 ^ 8 * kind + 2 ^ 12 * tenant + 2 ^ 20 * draft + 2 ^ 32 * (lc % 2 ^ 32))

/-- The marks of a breach: L_BREACH, the tally, the faulted tenant, its event, and its other jobs (R263, R265). -/
def breachBooks (kind tile tenant draft lc : Nat) (job : Option Nat) (s : State) : State :=
  let w := breachWord tile kind tenant draft lc
  let s1 := onLoom (fun l => { l with breach := w }) s
  let s2 := loomTally 0x46 (some tenant) 1 (putTenant tenant { tenantOf s1 tenant with faulted := true } s1)
  let s3 := sendEvent tenant evContractFault draft 0 (toLe 8 w.toNat) s2
  flagJobs (fun j => j.tenant == tenant && !isCkpt j && some j.order != job) 0x20 false s3

/-- Every module of a mask owes a fault notice for a draft (R387). -/
def owesNotices (mask : BitVec 4) (d : Nat) (s : State) : State :=
  (setBits 4 mask.toNat).foldl (fun s m => putWarp m { warpOf s m with txNotices := (warpOf s m).txNotices ++ [d] } s) s

/-- A breach by the draft of a slot, detected at a tile; a later one in the slot is suppressed (R263). -/
def breach (kind tile : Nat) (x : Slot) (s : State) : State :=
  match slotOfEntry s x.entry with
  | none => s
  | some x =>
    if x.breached then s
    else
      let d := draftOf s x.draft
      let s1 := breachBooks kind tile d.tenant x.draft (lcOf s - passStart x) (slotJob x) s
      let s2 := modSlot x.entry (fun y => { y with breached := true, breachLc := lcOf s }) s1
      let s3 := onLoom (fun l => { l with tiles := l.tiles.map (fun e =>
        if e.2.slot = some x.entry && e.2.stopAt.isNone then
          (e.1, { e.2 with stopAt := some (lcOf s + (if e.1 = tile then 1 else 4)) })
        else e) }) s2
      let s4 := match slotJob x with
        | some o => modJob o (fun j => { j with breached := true }) s3
        | none => s3
      match d.resident with
      | some v => owesNotices v.warpMask x.draft s4
      | none => s4

/-- A breach by a DMA or bobbin access, which counts against the tenant of its entry (R264). -/
def breachByEntry (kind tile tenant : Nat) (s : State) : State := breachBooks kind tile tenant 0 0 none s

/-! ## Banks (R232, R466) -/

def bankKey (t k : Nat) : Nat := t * Config.tileBanks + k
def rowAddr (t k row : Nat) : Nat := bankKey t k * Config.tileBank + 64 * (row % 256)

/-- Whether a bank already has its access in this lc (R232). -/
def bankBusy (s : State) (key : Nat) : Bool := s.loom.bankUse.contains (key, lcOf s)

/-- A bank's access of this lc is taken. -/
def useBank (key : Nat) (s : State) : State := onLoom (fun l => { l with
  bankUse := (key, lcOf s) :: l.bankUse.filter (fun e => decide (lcOf s ≤ e.2)) }) s

/-- A reel's read, or write, of this lc (R309). -/
def reelKey (r : Nat) (write : Bool) : Nat := 2 * r + (if write then 1 else 0)
def reelBusy (s : State) (r : Nat) (write : Bool) : Bool := s.loom.reelUse.contains (reelKey r write, lcOf s)
def useReel (r : Nat) (write : Bool) (s : State) : State := onLoom (fun l => { l with
  reelUse := (reelKey r write, lcOf s) :: l.reelUse.filter (fun e => decide (lcOf s ≤ e.2)) }) s

/-! ## Entries that own banks (R240, R349) -/

/-- Banks that a DMA or BOBBIN entry owns on every tile of its tenant's partition. -/
def entryBanks (s : State) (e : WEntry) : BitVec 10 :=
  let p := partOf s e.tenant
  if p.en then e.banks &&& p.banks else 0

/-- Whether a DMA or BOBBIN entry that is active in this lc owns a bank. Such an entry comes before a draft that runs in the same lc:
where both would name the bank, R264 finds the draft at fault (log 39). -/
def entryOwns (s : State) (t k : Nat) : Bool :=
  s.loom.weave.active.any (fun e => (isDmaEntry e.2 || isBobbinEntry e.2) && inOccurrence s.loom.weave e.2 (lcOf s)
    && (entryBanks s e.2).getLsbD k
    && (let p := partOf s e.2.tenant; inRect p.row0 p.col0 p.rows p.cols t))

/-- Whether an active DMA or BOBBIN entry of a tenant owns a bank in this lc. -/
def tenantEntryOwns (s : State) (t k tenant : Nat) : Bool :=
  s.loom.weave.active.any (fun e => (isDmaEntry e.2 || isBobbinEntry e.2) && e.2.tenant == tenant
    && inOccurrence s.loom.weave e.2 (lcOf s) && (entryBanks s e.2).getLsbD k
    && (let p := partOf s e.2.tenant; inRect p.row0 p.col0 p.rows p.cols t))

/-- The breach of an access for a tenant's DMA or BOBBIN entry, if it is one (R232, R240, R263). -/
def entryBreach (s : State) (t k tenant : Nat) : Option Nat :=
  if !tenantEntryOwns s t k tenant then some 2 else if bankBusy s (bankKey t k) then some 1 else none

/-- Words found bad in a tile's memories count toward R368. -/
def countTileErrors (t n : Nat) (s : State) : State :=
  if n = 0 then s else onLoom (fun l => { l with tileErr := smod 0 l.tileErr t (· + n) }) s

/-- A row as a read returns it, uncorrectable words as zero, with the words' findings (R466). -/
def peekRow (m : Memory) (up : Upsets) (a n : Nat) : List Byte :=
  (span (a / 8) (n / 8)).flatMap (fun w =>
    if upsetOf up w = some .uncorrectable then List.replicate 8 0 else readWord m up w)

/-- A read of a bank row: the row, whether a word of it was uncorrectable, and the books. `owner` is the tenant that owns the
bank in this lc. -/
def readBankRow (t k row : Nat) (owner : Option Nat) (found : Upsets) (s : State) : List Byte × Bool × State :=
  let a := rowAddr t k row
  let up := addUpsets s.loom.bankUp (found.filter (fun e => decide (a / 8 ≤ e.1) && decide (e.1 < a / 8 + 8)))
  let s1 := onLoom (fun l => { l with bankUp := up }) s
  let bad := uncorrectableIn up (a / 8) 8
  (peekRow s.loom.banks up a 64, decide (bad ≠ 0),
    countTileErrors t bad (loomTally 0x48 owner bad (loomTally 0x47 owner (correctedIn up (a / 8) 8) s1)))

/-- A row written, with fresh check bits. -/
def writeBankRow (t k row : Nat) (data : List Byte) : State → State :=
  let a := rowAddr t k row
  onLoom (fun l => { l with banks := mwrite l.banks a (slice data 0 64), bankUp := clearUpsets l.bankUp (a / 8) 8 })

/-! ## Results in flight (R236) -/

def accAt (t : Tile) (n : Nat) : Acc := sget .init t.acc n
def laneAt (xs : List Word) (i : Nat) : Word := (xs[i]?).getD 0
def vregAt (t : Tile) (n : Nat) : List Word := (span 0 64).map (laneAt (sget [] t.vreg n))
def siteAt (t : Tile) (n : Nat) : Site := sget .init t.sites n
def putSite (n : Nat) (x : Site) (t : Tile) : Tile := { t with sites := sput .init t.sites n x }

/-- A register with its zero form kept empty. -/
def packLanes (xs : List Word) : List Word := if xs.all (· == 0) then [] else xs

/-- What an accumulator entry becomes when a MAC or CORR is ready (R289 to R291). -/
def accStep (a0 : Acc) (isF : Bool) (clr : Bool) (op : AccOp) : Acc :=
  let zero := fun (f : Bool) => { isF32 := f, lanes := [], sat := [] : Acc }
  match op with
  | .clear => zero isF
  | .addInt terms =>
    let a := if clr || a0.isF32 then zero false else a0
    let sums := (span 0 32).map (fun o => signed 32 (laneAt a.lanes o).toNat + (terms[o]?).getD 0)
    { isF32 := false
      lanes := packLanes (sums.map (fun x => BitVec.ofInt 32 (clampInt (-2 ^ 31) (2 ^ 31 - 1) x)))
      sat := (span 0 32).map (fun o => ((a.sat[o]?).getD false)
        || (let x := (sums[o]?).getD 0; decide (x < -2 ^ 31) || decide (2 ^ 31 - 1 < x))) }
  | .addFloat terms =>
    let a := if clr || !a0.isF32 then zero true else a0
    { a with isF32 := true, lanes := packLanes ((span 0 32).map (fun o => BitVec.ofNat 32
        (rne32 (xAdd (val32 (laneAt a.lanes o).toNat) (xvOf ((terms[o]?).getD (.fin 0 0))))))) }
  | .corr terms =>
    if a0.isF32 then
      { a0 with lanes := packLanes ((span 0 32).map (fun o => BitVec.ofNat 32
          (rne32 (xAdd (val32 (laneAt a0.lanes o).toNat) (xvOf ((terms[o]?).getD (.fin 0 0))))))) }
    else a0

/-- A bank of 32-bit counts that stop at their top. -/
def addStats (x : SiteStats) (d : StatsAdd) : SiteStats :=
  let f64add := fun (a b : Nat) => toFloat f64 false false (xAdd (floatVal f64 a) (floatVal f64 b))
  { count := satAdd x.count d.finite, nonfinite := satAdd x.nonfinite d.nonfinite
    clipped := satAdd x.clipped d.clipped, sideUsed := satAdd x.sideUsed d.sideUsed
    overflow := satAdd x.overflow d.overflow
    maxErr := d.errors.foldl (fun (m : Word) e =>
      let v := xAbs (floatVal f64 e.1.toNat)
      if xLt (val32 m.toNat) v then BitVec.ofNat 32 (max m.toNat (rne32 v)) else m) x.maxErr
    sse := d.errors.foldl (fun (a : DWord) e =>
      let v := floatVal f64 e.1.toNat
      BitVec.ofNat 64 (f64add a.toNat (toFloat f64 false false (xMul v v)))) x.sse
    ssx := d.errors.foldl (fun (a : DWord) e =>
      let v := floatVal f64 e.2.toNat
      BitVec.ofNat 64 (f64add a.toNat (toFloat f64 false false (xMul v v)))) x.ssx }

/-- One result becomes ready. -/
def applyEffect (t : Tile) : Effect → Tile
  | .vec d lanes part =>
    let old := vregAt t d
    let new := (span 0 64).map (fun i => match lanes.find? (fun l => l.1 == i) with
      | some l => l.2
      | none => laneAt old i)
    { t with
      vreg := sput [] t.vreg d (packLanes new)
      vecRow := if part < 4 then ((span (16 * part) 16).flatMap (fun i => toLe 4 (laneAt new i).toNat)) else t.vecRow }
  | .acc entry isF clr op => { t with acc := sput .init t.acc entry (accStep (accAt t entry) isF clr op) }
  | .qrow first bytes =>
    let old := slice t.qntRow 0 64
    { t with qntRow := old.take first ++ bytes ++ old.drop (first + bytes.length) }
  | .stats add => putSite add.site { siteAt t add.site with stats := addStats (siteAt t add.site).stats add } t
  | .s2 n v => putSite n { siteAt t n with s2 := v } t
  | .outliers _ => t

/-- A result among results, by the lc in which they are ready; those of one lc stay in order of issue. -/
def insReady (f : InFlight) : List InFlight → List InFlight
  | [] => [f]
  | g :: gs => if f.ready < g.ready then f :: g :: gs else g :: insReady f gs

/-- The results of a tile that are ready by lc `lc`, in the order in which they became so. -/
def readyFlights (lc : Nat) (t : Tile) : List InFlight :=
  (t.flights.filter (fun f => decide (f.ready ≤ lc))).foldl (fun a f => insReady f a) []

/-- Every result that is ready takes effect, in the order of readiness (R236, R294). -/
def settleTile (lc : Nat) (t : Tile) : Tile :=
  (readyFlights lc t).foldl (fun t f => applyEffect t f.eff) { t with flights := t.flights.filter (fun f => decide (lc < f.ready)) }

/-- Outliers clamped by the QUANTs whose results become ready by lc `lc`, whether or not their statistics still count (R286). -/
def readyOverflow (lc : Nat) (t : Tile) : Nat :=
  ((readyFlights lc t).map (fun f => match f.eff with | .stats a => a.overflow | .outliers n => n | _ => 0)).sum

/-- The tile with its ready results in effect, and OUTLIER_OVERFLOW counted with them (R286). -/
def settleOn (t : Nat) (s : State) : State :=
  let x := tileOf s t
  loomTally 0x49 x.lastTenant (readyOverflow (lcOf s) x) (putTile t (settleTile (lcOf s) x) s)

/-! ## Issue -/

/-- Whether a tile runs the idle pattern in this lc after a breach or an error (R263, R266). -/
def hasStopped (s : State) (x : Tile) : Bool :=
  match x.stopAt with
  | some n => decide (n ≤ lcOf s)
  | none => false

/-- The bundle issued in this lc, where its CTL field has moved the tile on already. -/
def heldNow (s : State) (x : Tile) : Option Held := x.held.filter (fun h => h.lc == lcOf s)

/-- A tile's pass issues in this lc, unless it idles after a breach or an error, or is gated as failed (R239, R263, R266, R368). -/
def issuing (s : State) (t : Nat) : Option Slot :=
  let x := tileOf s t
  if (x.run = .issuing || (heldNow s x).isSome) && tileGood s t && !hasStopped s x then x.slot.bind (slotOfEntry s) else none

/-- Whether a tile takes part in its slot's pass in this lc: flits reach it and its wait may end (R267, R368). -/
def takesPart (s : State) (t : Nat) : Bool :=
  let x := tileOf s t
  x.slot.isSome && x.run != .idle && tileGood s t && !hasStopped s x

/-- Results that will be ready `lat` lc after this one. -/
def launch (t lat : Nat) (es : List Effect) (s : State) : State :=
  let x := tileOf s t
  putTile t { x with flights := x.flights ++ es.map (fun e => { ready := lcOf s + lat, eff := e }) } s

/-! ## Rows that units take -/

def unitW : Nat := 0
def unitA : Nat := 1
def unitVec : Nat := 2
def unitQnt : Nat := 3
def unitMesh : Nat := 4

/-- A row that nothing delivered: free bytes (log 12). -/
def freeRow (s : State) : List Byte × State :=
  ((span s.free 64).map Config.freeRowByte, { s with free := s.free + 64 })

/-- The row a bank read delivers to a unit in this lc. -/
def deliveredTo (s : State) (t unit : Nat) : Option RowAt :=
  (tileOf s t).rows.find? (fun r => r.lc == lcOf s && r.unit == unit)

/-- The flit that a receive register holds in this lc. -/
def receivedAt (s : State) (t : Nat) (d : Nat) : Option RowAt :=
  (tileOf s t).recv.find? (fun r => r.lc == lcOf s && r.key == d)

/-- The row that a source code names: 0 a bank row of a unit, 4 to 7 a receive register (R287, R294, R306). -/
def sourceRow (t unit src : Nat) (s : State) : List Byte × State :=
  let r := if src = 0 then deliveredTo s t unit else if 4 ≤ src && src ≤ 7 then receivedAt s t (src - 4) else none
  match r with
  | some x => (slice x.data 0 64, s)
  | none => freeRow s

/-- Stale rows leave the delivery lists (R237: a register holds a flit for one lc). -/
def pruneRows (lc : Nat) (t : Tile) : Tile :=
  { t with rows := t.rows.filter (fun r => decide (lc ≤ r.lc)), recv := t.recv.filter (fun r => decide (lc ≤ r.lc)) }

/-- The numeric state of a tile at reset: sites, registers, accumulators and MXU buffers (R281, R304). -/
def clearNumeric (t : Tile) : Tile :=
  { t with
    flights := [], weights := [], weightsSh := [], wscale := [], wscaleSh := [], sideReg := [], drainVec := []
    acc := [], vreg := [], sites := [] }

/-- A tile whose pass carries poison: a word of it was uncorrectable, or a delivery was poisoned (R387, R466). -/
def poisonSlot (x : Slot) (memory : Bool) (s : State) : State :=
  let s1 := modSlot x.entry (fun y => if memory then { y with poisoned := true } else { y with degraded := true }) s
  match slotJob x with
  | some o => modJob o (fun j => if memory then { j with poisoned := true } else { j with degraded := true }) s1
  | none => s1

end Sys2Proof.Machine
end

