-- ==== Sys2Proof/Machine/Bookings.lean ====
section
/-!
DEFINITION. Booked occurrences of jobs and booked move lc of checkpoints, and booking again at a weave swap (R349, R355, R364, R424,
R428, R429).
-/

namespace Sys2Proof.Machine

/-! ## Move lc (R424) -/

def bobbinPeriod (s : State) : Nat := max 1 s.loom.bobbin.period.toNat

/-- Whether offset `o` of a repeat lies in an entry. -/
def inEntry (e : WEntry) (o : Nat) : Bool := decide (e.start ≤ o) && decide (o < e.start + e.len)

/-- The grid of a BOBBIN entry within the repeat. -/
def gridOf (s : State) (x : WEntry) : List Nat :=
  if isBobbinEntry x then (span 0 (ceilDiv x.len (bobbinPeriod s))).map (fun i => x.start + bobbinPeriod s * i) else []

/-- The lowest-numbered BOBBIN entry whose occurrence holds an offset: a move lc there belongs to it. -/
def bobbinAt (s : State) (o : Nat) : Option Nat :=
  (s.loom.weave.active.find? (fun y => isBobbinEntry y.2 && inEntry y.2 o)).map (·.1)

/-- The move lc of a BOBBIN entry within the repeat, whichever entry's grid they stand on. -/
def ownMoves (s : State) (e : Nat) : List Nat :=
  sortRising ((s.loom.weave.active.flatMap (fun y => gridOf s y.2)).filter (fun o => bobbinAt s o == some e))

/-- BOBBIN entries of a tenant that own every bank of a mask and have a move lc of their own (R428). -/
def ckptEntries (s : State) (t : Nat) (banks : BitVec 10) : List Nat :=
  (s.loom.weave.active.filter (fun y => isBobbinEntry y.2 && y.2.tenant == t && (banks &&& ~~~ (entryBanks s y.2)) == 0
    && !(ownMoves s y.1).isEmpty)).map (·.1)

/-- The first `n` move lc at or after `lo` that are not booked (R429). -/
def moveLcs (s : State) (t : Nat) (banks : BitVec 10) (lo n : Nat) : List Nat :=
  let w := s.loom.weave
  let offs := sortRising ((ckptEntries s t banks).flatMap (ownMoves s))
  if offs.isEmpty || w.activeLc = 0 then []
  else bookFrom (n + s.loom.moveBookings.length + 2) offs (w.rep0 + w.activeLc * ((lo - w.rep0) / w.activeLc)) w.activeLc lo
    s.loom.moveBookings n

/-- Checkpoints of a tenant never interleave: a later one starts after every move the tenant has booked. -/
def afterMoves (s : State) (t lo : Nat) : Nat :=
  (jobsOfTenant s t).foldl (fun a j => match j.ckpt with
    | some c => c.moves.foldl (fun a m => max a (m + 1)) a
    | none => a) lo

def bookMoves (ms : List Nat) : State → State := onLoom (fun l => { l with moveBookings := ms ++ l.moveBookings })

/-- Bookings of moves are given up. -/
def freeMoves (ms : List Nat) : State → State := onLoom (fun l => { l with moveBookings := l.moveBookings.filter (fun m => !ms.contains m) })

/-- The checkpoints of a tenant that were admitted after another, each behind the moves of the one before it. -/
def pushBehind : List Job → Nat → State → State
  | [], _, s => s
  | j :: js, last, s => match j.ckpt with
    | none => pushBehind js last s
    | some c =>
      let ms := moveLcs s j.tenant c.banks (max (last + 1) (c.moves.foldl min (c.moves.headD 0))) c.moves.length
      pushBehind js (ms.foldl max last)
        (bookMoves ms (modJob j.order (fun k => { k with ckpt := some { c with moves := ms } }) s))

/-- A move of lc `lc` is postponed: it takes the checkpoint's next move lc, every later move of it shifts by one, and the tenant's later
checkpoints stay behind it (R426, R429). -/
def postpone (o lc : Nat) (s : State) : State :=
  match jobOf s o with
  | none => s
  | some j => match j.ckpt with
    | none => s
    | some c =>
      let rest := c.moves.filter (fun m => decide (lc < m))
      let later := (openJobs s).filter (fun k => k.tenant == j.tenant && decide (o < k.order) && isCkpt k)
      let s1 := freeMoves (later.flatMap (fun k => match k.ckpt with | some x => x.moves | none => [])) s
      let last := rest.foldl max lc
      let extra := moveLcs s1 j.tenant c.banks (last + 1) 1
      pushBehind later (extra.foldl max last)
        (bookMoves extra (modJob o (fun j => { j with ckpt := some { c with moves := rest ++ extra } }) s1))

/-! ## A job's bookings (R355) -/

def bookRun (d : Nat) (occ : List Nat) : State → State :=
  onLoom (fun l => { l with bookings := l.bookings ++ occ.map (fun x => (d, x)) })

/-! ## Booking again (R364) -/

/-- A job or checkpoint is booked from the swap boundary at lc `b`, or ends there. -/
def rebook (b o : Nat) (s : State) : State :=
  match jobOf s o with
  | none => s
  | some j =>
    if j.ended.isSome then s
    else match j.ckpt with
      | none =>
        let n := j.passes - j.ran
        let occ := occurrences s j.draft b n
        if occ.length < n then endJob o 0x23 s
        else bookRun j.draft occ (modJob o (fun j => { j with booked := occ }) s)
      | some c =>
        let n := 64 * c.nblk - c.moved
        let ms := moveLcs s j.tenant c.banks (afterMoves s j.tenant b) n
        if ms.length < n then endCkpt o 0x23 s
        else bookMoves ms (modJob o (fun j => { j with ckpt := some { c with moves := ms } }) s)

/-- Every booking from the boundary on is dropped, and every open job books again in admission order. -/
def rebookAll (b : Nat) (s : State) : State :=
  let s1 := onLoom (fun l => { l with
    bookings := l.bookings.filter (fun x => decide (x.2 < b)), moveBookings := l.moveBookings.filter (fun x => decide (x < b))
    jobs := l.jobs.map (fun j => match j.ckpt with
      | some c => if j.ended.isSome then j else { j with ckpt := some { c with moves := [] } }
      | none => j) }) s
  (sortRising ((openJobs s1).map (·.order))).foldl (fun s o => rebook b o s) s1

/-- Bookings that lie before lc `n` are of no further use. -/
def pruneBookings (n : Nat) : State → State := onLoom (fun l => { l with
  bookings := l.bookings.filter (fun x => decide (n ≤ x.2)), moveBookings := l.moveBookings.filter (fun x => decide (n ≤ x)) })

end Sys2Proof.Machine
end

