-- ==== Sys2Proof/Machine/Granary.lean ====
section
/-!
DEFINITION. The granary (05): records, the staging view, what OPEN finds, and how far a COMMIT programs its target.
-/

namespace Sys2Proof.Machine

/-! ## Records (R121, R122) -/

/-- A record home: first byte, type and value capacity (R121). -/
structure Home where
  at_  : Nat
  type : Nat
  cap  : Nat
deriving DecidableEq, Repr

def homeKeySlot (n : Nat) : Home := { at_ := 0x40 + 32 * n, type := 0x0100 + n, cap := 24 }
def homeReserve (n : Nat) : Home := { at_ := 0xC0 + 16 * n, type := 0x0200 + n, cap := 8 }
def homeFeTrim : Home := { at_ := 0x100, type := 0x1000, cap := 120 }
def homeMicbTrim : Home := { at_ := 0x180, type := 0x1100, cap := 56 }
def homeWake : Home := { at_ := 0x400, type := 0x3100, cap := 3064 }
def homeEsc : Home := { at_ := 0x2C0, type := 0x3000, cap := 248 }

/-- A record is present when its type is its home's and its length fits (R122); `bs` is the home's bytes. -/
def recordPresent (h : Home) (bs : List Byte) : Bool :=
  leAt bs 0 2 == h.type && decide (leAt bs 2 2 ≤ h.cap)

/-- The value of a present record. -/
def recordValue (bs : List Byte) : List Byte := slice bs 8 (leAt bs 2 2)

/-- A record as the seal engine writes it (R121). -/
def makeRecord (h : Home) (value : List Byte) : List Byte :=
  toLe 2 h.type ++ toLe 2 h.cap ++ toLe 1 1 ++ toLe 3 0 ++ slice value 0 h.cap

/-! ## The staging view (R123) -/

/-- The bank of the open image, with its upsets. -/
def granWinner (g : Granary) : Option (Memory × Upsets) :=
  match g.st with
  | .openA => some (g.bankA, g.upA)
  | .openB => some (g.bankB, g.upB)
  | _ => none

/-- A 64-bit bank word as data. An uncorrectable word has no value the manual states (log 3). -/
def bankWordBytes (m : Memory) (up : Upsets) (w : Nat) : List Byte :=
  if upsetOf up w = some .uncorrectable then (span (8 * w) 8).map Config.freeByte else readWord m up w

/-- The factory row; an uncorrectable word reads zero (R465). -/
def factoryBytes (g : Granary) (off n : Nat) : List Byte :=
  (span off n).map (fun a =>
    if upsetOf g.upF (a / 8) = some .uncorrectable then 0
    else ((readWord g.factory g.upF (a / 8))[a % 8]?).getD 0)

def factoryPresent (g : Granary) (h : Home) (off : Nat) : Bool :=
  recordPresent h (factoryBytes g off 8)

/-- Whether byte offset `b` of the view takes its base from the factory row, and from where (R123). -/
def factoryBase (g : Granary) (b : Nat) : Option (Option Nat) :=
  if 0x1C0 ≤ b && b < 0x2C0 then some (some (b - 0x1C0))
  else if 0x100 ≤ b && b < 0x180 && g.absent.getLsbD 0 then
    some (if factoryPresent g homeFeTrim 0x100 then some b else none)
  else if 0x180 ≤ b && b < 0x1C0 && g.absent.getLsbD 1 then
    some (if factoryPresent g homeMicbTrim 0x180 then some b else none)
  else none

/-- The base of 32-bit view word `i`. -/
def baseWord (g : Granary) (i : Nat) : Word :=
  match factoryBase g (4 * i) with
  | some (some off) => BitVec.ofNat 32 (ofLe (factoryBytes g off 4))
  | some none => 0
  | none =>
    match granWinner g with
    | none => 0
    | some (m, up) => BitVec.ofNat 32 (leAt (bankWordBytes m up (i / 2)) (4 * (i % 2)) 4)

/-- The delta of a view word, if its dirty bit is set. -/
def deltaOf (g : Granary) (i : Nat) : Option Word := (g.deltas.find? (·.1 == i)).map (·.2)

/-- A word of the staging view as every reader sees it (R123, R125, R469). -/
def viewWord (g : Granary) (i : Nat) : Word :=
  if g.st = .closed then 0
  else
    match deltaOf g i with
    | none => baseWord g i
    | some w =>
      match upsetOf g.upS (i / 2) with
      | some .uncorrectable => 0
      | some (.miscorrected v) => BitVec.ofNat 32 (field v.toNat (32 * (i % 2)) 32)
      | some (.silent v) => BitVec.ofNat 32 (field v.toNat (32 * (i % 2)) 32)
      | _ => w

/-- Bytes of the staging view. -/
def viewBytes (g : Granary) (off n : Nat) : List Byte :=
  slice ((span (off / 4) (ceilDiv (off % 4 + n) 4)).flatMap (fun i => toLe 4 (viewWord g i).toNat)) (off % 4) n

/-- A record of the view: its value if it is present (R122, R125). -/
def viewRecord (g : Granary) (h : Home) : Option (List Byte) :=
  if recordPresent h (viewBytes g h.at_ 8) then
    some (recordValue (viewBytes g h.at_ (8 + leAt (viewBytes g h.at_ 8) 2 2)))
  else none

/-- A delta stored by the seal engine or a STAGE write; it writes the 64-bit word again (R123, R469). -/
def storeDelta (g : Granary) (i : Nat) (w : Word) : Granary :=
  let other := if i % 2 = 0 then i + 1 else i - 1
  let ds := if upsetOf g.upS (i / 2) = some .uncorrectable ∧ (deltaOf g other).isSome
    then sins g.deltas other 0 else g.deltas
  { g with deltas := sins ds i w, upS := clearUpsets g.upS (i / 2) 1 }

/-- Bytes stored as deltas from a 4-byte aligned offset. -/
def storeDeltaBytes (g : Granary) (off : Nat) (bs : List Byte) : Granary :=
  (span 0 (bs.length / 4)).foldl
    (fun g k => storeDelta g (off / 4 + k) (BitVec.ofNat 32 (leAt bs (4 * k) 4))) g

/-! ## Regions of the staging registers (R124) -/

inductive StageRegion where
  | header
  | seal
  | open_
  | fixed
  | sealedOnly
  | zero
deriving DecidableEq, Repr

def stageRegion (b : Nat) : StageRegion :=
  if b < 0x40 then .header
  else if b < 0x100 then .seal
  else if b < 0x1C0 then .open_
  else if b < 0x2C0 then .fixed
  else if b < 0x3C0 then .sealedOnly
  else if b < 0x400 then .zero
  else if b < 0x1000 then .open_
  else .zero

/-- A read through the staging registers at byte offset `b` (R124). -/
def stageRead (g : Granary) (b : Nat) : Word :=
  if g.st = .closed then 0
  else
    match stageRegion b with
    | .header => match granWinner g with
      | none => 0
      | some (m, up) => BitVec.ofNat 32 (leAt (bankWordBytes m up (b / 8)) (b % 8) 4)
    | .seal => 0
    | .zero => 0
    | _ => viewWord g (b / 4)

/-- Byte offset that G_STAGE_DATA and G_STAGE_WINk address (R144). -/
def stageDataAt (g : Granary) : Nat := 4 * g.offset.toNat
def stageWinAt (g : Granary) (k : Nat) : Nat := 64 * (g.offset.toNat / 16) + 4 * k

/-! ## OPEN (R126 to R130) -/

/-- The verdict codes of R126. -/
def bankVerdict (m : Memory) (up : Upsets) : BitVec 2 :=
  let w0 := bankWordBytes m up 0
  let hdr := readWords m up 0 8
  let plen := leAt hdr 0x0C 4
  if uncorrectableIn up 0 1 = 0 && decide (leAt w0 0 4 ≠ 0x4752414E) then 1
  else if uncorrectableIn up 0 8 ≠ 0 || crc32c (slice hdr 0 0x3C) != leAt hdr 0x3C 4 || leAt hdr 4 2 != 1
      || plen == 0 || plen % 8 != 0 || decide (16320 < plen) then 2
  else if uncorrectableIn up 8 (plen / 8) ≠ 0 || crc32c (readWords m up 8 (plen / 8)) != leAt hdr 0x10 4 then 3
  else 0

def bankSeq (m : Memory) (up : Upsets) : Word := BitVec.ofNat 32 (leAt (readWord m up 1) 0 4)

/-- Serial-number comparison (R127). -/
def newer (x y : Word) : Bool := decide (1 ≤ (x - y).toNat ∧ (x - y).toNat ≤ 0x7FFFFFFF)

/-- Record presence of a bank, as G_GRAN_STATE.ABSENT (R144). A record's header word that is uncorrectable is judged by its
stored bytes, which matters only beyond PLEN of a VALID winner (log 39). -/
def absentBits (m : Memory) (up : Upsets) : BitVec 4 :=
  let p := fun (h : Home) => !recordPresent h (readWord m up (h.at_ / 8))
  BitVec.ofNat 4 (packBits [p homeFeTrim, p homeMicbTrim, p homeWake, p homeEsc])

/-- OPEN's commit edge for the granary itself (R128, R129); the flag says whether the alert GRANARY sets. LAST_COMMIT keeps its
value, also where the granary was open already (log 39). -/
def granaryOpen (g0 : Granary) (f : OpenFinds) : Granary × Bool :=
  let g := { g0 with upA := addUpsets g0.upA f.bankA, upB := addUpsets g0.upB f.bankB,
                     upF := addUpsets g0.upF f.factory }
  let va := bankVerdict g.bankA g.upA
  let vb := bankVerdict g.bankB g.upB
  let sa := if va = 0 then bankSeq g.bankA g.upA else 0
  let sb := if vb = 0 then bankSeq g.bankB g.upB else 0
  let st : GranOpen :=
    if va = 0 && vb = 0 then (if newer sb sa then .openB else .openA)
    else if va = 0 then .openA else if vb = 0 then .openB else .empty
  let win := match st with
    | .openA => some (g.bankA, g.upA)
    | .openB => some (g.bankB, g.upB)
    | _ => none
  let weakUp := fun (up : Upsets) => ((span 8 2040).filter (fun w =>
    f.weak.any (· == w) || upsetOf up w == some .corrected)).length
  ({ g with
      deltas := [], upS := [], st := st, verdictA := va, verdictB := vb, seqA := sa, seqB := sb
      corrected := satAdd (0 : Byte) (correctedIn g.upA 0 2048 + correctedIn g.upB 0 2048)
      weak := satAdd (0 : Byte) (match win with | some (_, up) => weakUp up | none => 0)
      absent := match win with | some (m, up) => absentBits m up | none => 0xF },
   decide (1 < va.toNat) || decide (1 < vb.toNat) || st == .empty || decide (uncorrectableIn g.upF 0 64 ≠ 0))

/-! ## COMMIT (R131 to R135, R140, R143) -/

/-- Why programming stopped, as LAST_COMMIT names it. -/
inductive ProgStop where
  | clock
  | supply
  | unreadable
deriving DecidableEq, Repr

/-- The 32-bit words of the image a COMMIT writes; res areas are zero (R121, R131). -/
def imageWord (g : Granary) (i : Nat) : Word :=
  match stageRegion (4 * i) with
  | .zero => 0
  | .header => 0
  | _ => viewWord g i

/-- The payload of the image, bytes 0x0040 to 0x3FFF. -/
def imagePayload (g : Granary) : List Byte := (span 16 4080).flatMap (fun i => toLe 4 (imageWord g i).toNat)

/-- The header of the image (R118). -/
def imageHeader (seq : Word) (payload : List Byte) : List Byte :=
  let h := toLe 4 0x4752414E ++ toLe 2 1 ++ toLe 2 0 ++ toLe 4 seq.toNat ++ toLe 4 16320
    ++ toLe 4 (crc32c payload) ++ List.replicate 40 0
  h ++ toLe 4 (crc32c h)

/-- Whether the target of a commit is bank A, and its new SEQ (R131). -/
def commitTarget (g : Granary) : Bool × Word :=
  match g.st with
  | .openA => (false, g.seqA + 1)
  | .openB => (true, g.seqB + 1)
  | _ => (true, 1)

/-- Whether payload word `i` cannot be read: a half with a delta in an uncorrectable staging word (R469), or a clean half
whose bank word is uncorrectable (R135). The reserved words, which the image writes as zero, count as clean words too (log 39). -/
def imageUnreadable (g : Granary) (i : Nat) : Bool :=
  let half := fun k =>
    match deltaOf g k with
    | some _ => upsetOf g.upS i == some .uncorrectable
    | none => match factoryBase g (4 * k), granWinner g with
      | none, some (_, up) => upsetOf up i == some .uncorrectable
      | _, _ => false
  half (2 * i) || half (2 * i + 1)

/-- The work clock of a word's fourth edge (R132): `0` header word 0 to zero, `8 + …` payload words, `2048 + j` header word
j, `2056` the validating word. -/
def progEdge (k : Nat) : Nat :=
  if k = 0 then 92
  else if k < 2048 then 96 + 4 * (k - 8)
  else if k < 2056 then 8256 + 4 * (k - 2049)
  else 8440

/-- The first work clock at which programming stops, and why (R133, R40, R135). A VDD_NV monitor that reads low before work
clock 89 reads low there too. Of two causes at one work clock the period monitor comes first, then VDD_NV, then an unreadable word
(log 19). -/
def progStop (g : Granary) (mon : ProgMon) : Option (Nat × ProgStop) :=
  let trip := mon.clockTrip.filter (fun t => decide (89 ≤ t ∧ t ≤ 8440))
  let low := (mon.nvLow.filter (fun t => decide (t ≤ 8440))).map (max 89)
  let unread := ((span 8 2040).find? (imageUnreadable g)).map (fun i => (93 + 4 * (i - 8), ProgStop.unreadable))
  let earlier := fun (a b : Option (Nat × ProgStop)) =>
    match a, b with
    | some x, some y => if y.1 < x.1 then some y else some x
    | some x, none => some x
    | none, b => b
  earlier (earlier (trip.map (·, ProgStop.clock)) (low.map (·, ProgStop.supply))) unread

/-- A memory holding exactly the nonzero bytes of a list. -/
def memOfBytes : Nat → List Byte → Memory
  | _, [] => []
  | a, b :: bs => if b = 0 then memOfBytes (a + 1) bs else (a, b) :: memOfBytes (a + 1) bs

/-- What a commit leaves: the target bank after every word whose fourth edge rose before the stop and no later than work
clock `last`, whether header word 0 was zeroed, and whether the validating word was written. -/
structure Programmed where
  bank   : Memory
  up     : Upsets
  zeroed : Bool
  valid  : Bool
deriving DecidableEq, Repr

def programBank (g : Granary) (stop : Option (Nat × ProgStop)) (last : Nat) : Programmed :=
  let (toA, seq) := commitTarget g
  let old := if toA then g.bankA else g.bankB
  let oldUp := if toA then g.upA else g.upB
  let done := fun k => decide (progEdge k ≤ last) && (match stop with | some (t, _) => decide (progEdge k < t) | none => true)
  if !done 0 then { bank := old, up := oldUp, zeroed := false, valid := false }
  else
    let payload := imagePayload g
    let header := imageHeader seq payload
    let nPay := ((span 8 2040).filter done).length
    let nHdr := ((span 2049 7).filter done).length
    let valid := done 2056
    let bytes := (if valid then header.take 8 else List.replicate 8 0)
      ++ slice header 8 (8 * nHdr) ++ mread old (8 + 8 * nHdr) (56 - 8 * nHdr)
      ++ payload.take (8 * nPay) ++ mread old (64 + 8 * nPay) (16320 - 8 * nPay)
    { bank := memOfBytes 0 bytes
      up := clearUpsets (clearUpsets (clearUpsets oldUp 0 1) 1 nHdr) 8 nPay
      zeroed := true, valid := valid }

/-- The target bank as programming left it; its SEQ register reads zero once its header word 0 is zeroed (R144). -/
def putTarget (g : Granary) (p : Programmed) : Granary :=
  if (commitTarget g).1 then
    { g with bankA := p.bank, upA := p.up, seqA := if p.zeroed then 0 else g.seqA }
  else { g with bankB := p.bank, upB := p.up, seqB := if p.zeroed then 0 else g.seqB }

/-- The upsets that programming's reads of the winner and of the staging array find (R135, R469). -/
def seeUpsets (mon : ProgMon) (g : Granary) : Granary :=
  let x := { g with upS := addUpsets g.upS mon.stageUpsets }
  match x.st with
  | .openA => { x with upA := addUpsets x.upA mon.upsets }
  | .openB => { x with upB := addUpsets x.upB mon.upsets }
  | _ => x

/-- The commit edge of a COMMIT or RESERVE that programmed (R134): the new granary, why it stopped if it did. `view` is the
granary with the staged ceiling a RESERVE forms. -/
def granaryCommit (g view : Granary) (mon : ProgMon) : Granary × Option ProgStop :=
  let g := seeUpsets mon g
  let view := seeUpsets mon view
  let stop := progStop view mon
  let p := programBank view stop 8448
  if p.valid then
    let (toA, seq) := commitTarget view
    let g' := putTarget view p
    ({ g' with
        deltas := [], upS := [], lastCommit := 1, st := if toA then .openA else .openB
        absent := absentBits p.bank p.up
        seqA := if toA then seq else g'.seqA, seqB := if toA then g'.seqB else seq }, none)
  else
    let g' := putTarget g p
    match stop with
    | some (_, .clock) => ({ g' with lastCommit := 2 }, some .clock)
    | some (_, .unreadable) => ({ g' with lastCommit := 3 }, some .unreadable)
    | some (_, .supply) => ({ g' with lastCommit := 4 }, some .supply)
    | none => (g', none)

/-- A COMMIT or RESERVE cut short after work clock `last` (R137, R140). -/
def granaryCut (g view : Granary) (mon : ProgMon) (last : Nat) : Granary :=
  let view := seeUpsets mon view
  putTarget (seeUpsets mon g) (programBank view (progStop view mon) last)

/-- G_GRAN_STATE (R144). -/
def granStateWord (g : Granary) : Word :=
  BitVec.ofNat 32
    ((match g.st with | .closed => 0 | .openA => 1 | .openB => 2 | .empty => 3)
      + 4 * g.verdictA.toNat + 16 * g.verdictB.toNat + flagBit (!g.deltas.isEmpty) 6 + 2 ^ 8 * g.corrected.toNat
      + 2 ^ 16 * g.weak.toNat + 2 ^ 24 * g.absent.toNat + 2 ^ 28 * g.lastCommit.toNat)

end Sys2Proof.Machine
end

