-- ==== Sys2Proof/Machine/FrontEnd.lean ====
section
/-!
DEFINITION. The listening front end (07): trims, levels, encoders, mutes, the bias ramp and the sensor port.
-/

namespace Sys2Proof.Machine

def onFe (f : FrontEnd → FrontEnd) (s : State) : State := { s with fe := f s.fe }
def chanOf (f : FrontEnd) (n : Nat) : Channel := sget .init f.chan n
def putChan (n : Nat) (c : Channel) (f : FrontEnd) : FrontEnd := { f with chan := sput .init f.chan n c }
def modChan (n : Nat) (g : Channel → Channel) (f : FrontEnd) : FrontEnd := putChan n (g (chanOf f n)) f

/-- Watchman clocks in `n` ms (R206). -/
def msClocks (n : Nat) : Nat := 12288 * n

/-! ## Settings (R197) -/

def feEnabled (f : FrontEnd) (n : Nat) : Bool := bitOf f.feCtrl.toNat n
def feBiased (f : FrontEnd) (n : Nat) : Bool := bitOf f.feCtrl.toNat (2 + n)
/-- The effective gain code (R170). -/
def effGain (w : Word) (n : Nat) : Nat := min (field w.toNat (4 + 4 * n) 3) 5
def biasOn (f : FrontEnd) : Bool := bitOf f.micbCtrl.toNat 0
def hqOn (f : FrontEnd) : Bool := bitOf f.decCtrl.toNat 0

/-! ## Trims (R186, R187) -/

/-- Fields of an FE_TRIM value for a channel. -/
def trimOffset (tr : List Byte) (n : Nat) : Int := signed 16 (leAt tr (36 * n) 2)
def trimGain (tr : List Byte) (n : Nat) : Int := signed 16 (leAt tr (36 * n + 2) 2)
def bandTrim (tr : List Byte) (n k : Nat) : Int := signed 8 (leAt tr (36 * n + 4 + k) 1)

/-- FE_TRIM and MICB_TRIM as the outbound port returns them; an absent record gives zero trims (R187). The samples of the present
frame that were formed before keep the trims they were formed with. -/
def readTrims (s : State) : State :=
  onFe (fun f => { f with
    oldTrims := f.oldTrims ++ [(s.clocks.wclk, f.trims)]
    trims := (match viewRecord s.gran homeFeTrim with | some v => slice v 0 80 | none => List.replicate 80 0)
    micbTrims := (match viewRecord s.gran homeMicbTrim with | some v => slice v 0 8 | none => List.replicate 8 0) }) s

/-! ## Rounding and levels (R172, R175, R186) -/

/-- An integer quotient rounded to nearest, ties to even. -/
def rneDiv (n : Int) (d : Nat) : Int :=
  let q := n / d
  let r := n - q * d
  if 2 * r < d then q else if (d : Int) < 2 * r then q + 1 else if q % 2 = 0 then q else q + 1

/-- A decimated sample after its trims, before saturation (R186). -/
def trimmed (tr : List Byte) (n : Nat) (x : Int) : Int :=
  rneDiv ((x - trimOffset tr n) * (65536 + trimGain tr n)) 65536

/-- The trims in force when a sample is formed at a clock (R187). -/
def trimsAt (f : FrontEnd) (clk : Nat) : List Byte :=
  match f.oldTrims.find? (fun e => decide (clk ≤ e.1)) with
  | some e => e.2
  | none => f.trims

/-- The saturation of R172. -/
def saturates (x : Int) : Bool := decide (x < -32767) || decide (32767 < x)
def sampleOf (x : Int) : BitVec 16 := BitVec.ofInt 16 (clampInt (-32767) 32767 x)

/-- Whether the level code before clamping is at least `c`: with p the mean square over full scale squared, 20 log10 p plus
q/4 rounds to at least c - 255. Decided exactly as p^80 against a power of ten (log 10). -/
def levelAtLeast (num den : Nat) (q : Int) (c : Nat) : Bool :=
  let m : Int := (c : Int) - 255
  let k : Int := 4 * m - 2 - q
  let a := num ^ 80
  let b := (den * 2 ^ 30) ^ 80
  let l := if k < 0 then a * 10 ^ (-k).toNat else a
  let r := if k < 0 then b else b * 10 ^ k.toNat
  decide (r < l) || (decide (r = l) && decide (m % 2 = 0))

/-- The level code of R175 of a mean square num/den, with q = T in eighths of a dB less 48 for each 6 dB of gain. -/
def levelCode (num den : Nat) (q : Int) : Nat :=
  if num = 0 || den = 0 then 0
  else [128, 64, 32, 16, 8, 4, 2, 1].foldl (fun c b => if levelAtLeast num den q (c + b) then c + b else c) 0

/-! ## Mutes (R183) -/

/-- Whether a channel is under a ZERO mute. -/
def zMuted (s : State) (n : Nat) : Bool :=
  decide (s.clocks.wclk < (chanOf s.fe n).muteEnd) || s.fe.biasOwes.getLsbD n

/-- Whether a channel is under a fault mute (R182). -/
def faultMuted (f : FrontEnd) (n : Nat) : Bool := f.fault && feEnabled f n && feBiased f n

/-- A ZERO mute until a clock; the later of two ends stands (R183). -/
def startMute (n until_ : Nat) (f : FrontEnd) : FrontEnd :=
  modChan n (fun c => { c with muteEnd := max c.muteEnd until_, zeroSeen := true }) f

/-! ## The bias ramp (R180), in units of 1/122,880 V, ten to a watchman clock -/

/-- The goal of a VOLT code. MICB_TRIM's voltage trim does not move it: the model's choice (R186, log 24). -/
def voltUnits (v : Nat) : Nat := if v = 0 then 147456 else if v = 1 then 184320 else if v = 2 then 245760 else 294912

def rampValue (f : FrontEnd) (now : Nat) : Nat :=
  if f.rampFrom ≤ f.rampGoal then min f.rampGoal (f.rampFrom + 10 * (now - f.rampStart))
  else max f.rampGoal (f.rampFrom - 10 * (now - f.rampStart))

/-- The clock at which the generator reaches its goal. -/
def rampEndAt (f : FrontEnd) : Nat :=
  f.rampStart + ceilDiv (max f.rampFrom f.rampGoal - min f.rampFrom f.rampGoal) 10

/-- A new ramp from the generator's present value (R189). -/
def startRamp (now goal : Nat) (f : FrontEnd) : FrontEnd :=
  { f with rampFrom := rampValue f now, rampGoal := goal, rampStart := now, ramping := true }

def mutedChannels (f : FrontEnd) : List Nat := [0, 1].filter (fun n => feEnabled f n && feBiased f n)

/-- A ZERO mute on every enabled biased channel (R183). -/
def muteBiased (until_ : Nat) (f : FrontEnd) : FrontEnd :=
  (mutedChannels f).foldl (fun f n => startMute n until_ f) f

/-! ## Encoders (R177, R178) -/

def encOf (f : FrontEnd) (i : Nat) : Encoder := sget .init f.enc i
def putEnc (i : Nat) (e : Encoder) (f : FrontEnd) : FrontEnd := { f with enc := sput .init f.enc i e }

/-- Encoders made to rebase at their next valid hop (R178). -/
def disarmEncoders (i n : Nat) (f : FrontEnd) : FrontEnd :=
  (span i n).foldl (fun f j => putEnc j { encOf f j with armed := false } f) f

/-- One encoder at one hop: its new state, UP spikes, DOWN spikes (R177). -/
def encoderHop (e : Encoder) (valid : Bool) (c b on step maxph : Nat) (downEn suppressed : Bool) :
    Encoder × Nat × Nat :=
  if !valid then ({ e with armed := false }, 0, 0)
  else
    let f := b + on
    let qUp := if f ≤ c then 1 + (c - f) / step else 0
    let qDn := if f ≤ c + 2 then 1 + (c + 2 - f) / step else 0
    if !e.armed then ({ armed := true, qPrev := qUp }, 0, 0)
    else if e.qPrev < qUp then
      let n := min (qUp - e.qPrev) maxph
      ({ e with qPrev := e.qPrev + n }, n, 0)
    else if qDn < e.qPrev then
      let n := min (e.qPrev - qDn) maxph
      ({ e with qPrev := e.qPrev - n }, 0, if downEn && !suppressed then n else 0)
    else (e, 0, 0)

/-! ## Channels on and off (R183, R191, R196) -/

/-- An FE bit falls: the loft of that channel starts its history again (R148, R196). -/
def dropFe (n : Nat) (s : State) : State :=
  let s1 := onFe (modChan n (fun c => { c with feBit := false, feBroken := true, owesFe := false })) s
  if (if s.loft.ch then 1 else 0) = n then { s1 with loft := { s1.loft with feRun := 0 } } else s1

/-- A channel's decimators start or stop at a clock; without VDDA_MIC they do not run (R191, R196). -/
def noteEdge (n at_ : Nat) (on : Bool) (s : State) : State :=
  if s.mon.rails.mic then onFe (modChan n (fun c => { c with edges := c.edges ++ [(at_, on)] })) s else s

/-- Whether a path ran at a clock, from what it does now and its starts and stops since the last boundary. -/
def ranAt (now : Bool) (edges : List (Nat × Bool)) (clk : Nat) : Bool :=
  match edges.find? (fun e => decide (clk ≤ e.1)) with
  | some e => !e.2
  | none => now

/-- The enable mute of a channel, from the clock of its cause (R183). -/
def startChannel (n at_ : Nat) (s0 : State) : State :=
  let s := noteEdge n at_ true s0
  onFe (fun f => modChan n (fun c => { c with owesFe := true, cleanRun := 0, frameLp := [], frameHq := [] })
    (startMute n (at_ + msClocks 10) f)) s

/-- A channel stops at a clock: encoders disarm and its FE bit clears (R196). -/
def stopChannel (n at_ : Nat) (s0 : State) : State :=
  let s := noteEdge n at_ false s0
  dropFe n (onFe (fun f => modChan n (fun c => { c with cleanRun := 0, capLp := 0, capHq := 0, capMuted := false })
    (disarmEncoders (32 * n) 32 f)) s)

/-- The bias is enabled or its voltage changes: a ramp, with its mutes (R180, R183). Channels that a disable left muted
take their end from the ramp of the next enable. -/
def biasRamp (volt at_ : Nat) (s : State) : State :=
  onFe (fun f =>
    let f1 := startRamp at_ (voltUnits volt) f
    let until_ := rampEndAt f1 + msClocks 4
    let f2 := muteBiased until_ f1
    let f3 := [0, 1].foldl (fun f n => if f1.biasOwes.getLsbD n then startMute n until_ f else f) f2
    { f3 with biasOwes := 0 }) s

/-- The bias is disabled: ramp down, and its channels stay muted until 4 ms after the next enable's ramp (R183, R196);
HDRM and LIMIT read 0 and their timers stop (R181). -/
def biasOff (at_ : Nat) (s : State) : State :=
  onFe (fun f =>
    let f1 := startRamp at_ 0 f
    let f2 := (mutedChannels f1).foldl (fun f n => startMute n 0 f) f1
    { f2 with
      biasOwes := f2.biasOwes ||| BitVec.ofNat 2 (packBits [(mutedChannels f1).any (· == 0), (mutedChannels f1).any (· == 1)])
      hdrm := false, limit := false, hdrmSince := none, limitSince := none
      goodSince := if f.hdrm || f.limit then some s.clocks.wclk else f.goodSince }) s

/-- The clock from which a condition has stood without a break. -/
def stoodSince (was is : Bool) (since : Option Nat) (now : Nat) : Option Nat :=
  if is then (if was then since else some now) else none

/-- HDRM or LIMIT as it now reads; its own rise is sticky and counted, and each has its own timer (R181, R182, R189, R193). -/
def setBiasConditions (hdrm limit : Bool) (s : State) : State :=
  let f := s.fe
  let now := s.clocks.wclk
  let bad := hdrm || limit
  let was := f.hdrm || f.limit
  let s1 := onFe (fun f => { f with
    hdrm := hdrm, limit := limit, hdrmSeen := f.hdrmSeen || (hdrm && !f.hdrm), limitSeen := f.limitSeen || (limit && !f.limit)
    hdrmSince := stoodSince f.hdrm hdrm f.hdrmSince now, limitSince := stoodSince f.limit limit f.limitSince now
    goodSince := if bad then none else (if was then some now else f.goodSince) }) s
  watchTally 0x0C (if limit && !f.limit then 1 else 0) (watchTally 0x0B (if hdrm && !f.hdrm then 1 else 0) s1)

/-! ## Register writes (R183, R190, R197) -/

/-- A frame during which a channel was under a fault mute is FAULT (R174). -/
def noteFault (f : FrontEnd) : FrontEnd :=
  [0, 1].foldl (fun f n => if faultMuted f n then modChan n (fun c => { c with faultSeen := true }) f else f) f

/-- G_FE_CTRL takes a new value: enables, disables, gain mutes and BIASED mutes, counted from the commit edge `at_`. -/
def writeFeCtrl (d : Word) (at_ : Nat) (s : State) : State :=
  let new : Word := d &&& 0x0000077F
  let old := s.fe.feCtrl
  let s0 := onFe (fun f => { noteFault f with feCtrl := new }) s
  [0, 1].foldl (fun s n =>
    let wasOn := bitOf old.toNat n
    let isOn := bitOf new.toNat n
    let s1 := if isOn && !wasOn then readTrims (startChannel n at_ s) else if wasOn && !isOn then stopChannel n at_ s else s
    let s2 := if effGain old n ≠ effGain new n then onFe (startMute n (at_ + msClocks 2)) s1 else s1
    if isOn && bitOf new.toNat (2 + n) && !bitOf old.toNat (2 + n) then
      let e := if s.fe.ramping then rampEndAt s.fe + msClocks 4 else 0
      onFe (startMute n (max e (at_ + msClocks 4))) s2
    else s2) s0

/-- A change of EN or VOLT that moves no ramp of its own: the bias is off, or VDDA_MIC is absent. Its mute ends 4 ms after it, or
after a ramp still moving (R183). -/
def muteStill (at_ : Nat) (s : State) : State :=
  let e := if s.fe.ramping then rampEndAt s.fe else 0
  onFe (muteBiased (max e at_ + msClocks 4)) s

/-- G_MICB_CTRL takes a new value. While VDDA_MIC is absent the bias stays off (R52, R191). -/
def writeMicbCtrl (d : Word) (at_ : Nat) (s : State) : State :=
  let new : Word := d &&& 0x0000001F
  let old := s.fe.micbCtrl
  let s0 := onFe (fun f => { f with micbCtrl := new }) s
  let on := bitOf new.toNat 0
  let was := bitOf old.toNat 0
  let volt := field new.toNat 1 2
  let ramp := if on && s.mon.rails.mic then biasRamp volt at_ s0 else muteStill at_ s0
  if on && !was then readTrims ramp
  else if was && !on then biasOff at_ s0
  else if volt ≠ field old.toNat 1 2 then ramp
  else if field new.toNat 3 2 ≠ field old.toNat 3 2 then
    onFe (muteBiased (at_ + msClocks 4)) s0
  else s0

/-- G_DEC_CTRL takes a new value; a change of HQ_EN mutes both enabled channels for 6 ms (R183). -/
def writeDecCtrl (d : Word) (at_ : Nat) (s : State) : State :=
  let new : Word := d &&& 0x0000000F
  let s0 := onFe (fun f => { f with decCtrl := new }) s
  if bitOf new.toNat 0 == bitOf s.fe.decCtrl.toNat 0 then s0
  else onFe (fun f => [0, 1].foldl (fun f n =>
    if feEnabled f n then startMute n (at_ + msClocks 6) f else f) { f with hqEdges := f.hqEdges ++ [(at_, hqOn f)] }) s0

/-- G_FB_CTRL is written; it takes effect at the next hop (R190). -/
def writeFbCtrl (d : Word) (s : State) : State := onFe (fun f => { f with fbCtrl := d &&& 0x0003FFF3 }) s

/-! ## Sensor port (R184, R185, R190, R194) -/

/-- Data bytes of a transaction; 0 acts as 1 and 7 as 6. -/
def sensBytes (c0 : Word) : Nat := let n := field c0.toNat 10 3; if n = 0 then 1 else min n 6
/-- Axes named, and axes in use (R185). -/
def sensAxes (c0 : Word) : Nat := max (field c0.toNat 14 2) 1
def axesInUse (c0 : Word) : Nat := min (sensAxes c0) (sensBytes c0 / 2)
/-- Watchman clocks between sample ticks. -/
def tickClocks (c0 : Word) : Nat :=
  let r := min (field c0.toNat 4 3) 4
  122880 / 2 ^ r

/-- Bits of G_SENS_CTRL0 whose change rebases the features: TURN, CMD16, NBYTES, LE, AXES (R190). -/
def sensMask0 : Word := 0x0000FF80

/-- SSCK periods of a transaction, in watchman clocks (R184, R188). -/
def ssckClocks (c0 : Word) : Nat :=
  let c := field c0.toNat 1 3
  if c = 0 then 4 else if c = 1 then 6 else if c = 2 then 12 else if c = 3 then 24 else 48

/-- Command bits of a transaction, and its command bits, turnaround and data clocks (R184). -/
def cmdBits (c0 : Word) : Nat := if bitOf c0.toNat 9 then 16 else 8
def txnBits (c0 : Word) : Nat := cmdBits c0 + field c0.toNat 7 2 + 8 * sensBytes c0

/-- Those and the two periods around them (R184). -/
def txnClocks (c0 : Word) : Nat := (txnBits c0 + 2) * ssckClocks c0

/-- G_SENS_CTRL0-2 take effect at a sample tick (R190). A change of G_SENS_CTRL2.STEP or ON_THRESH rebases the feature encoders
too, as one of G_FB_CTRL does the others (log 24). -/
def applySensor (s : State) : State :=
  let f := s.fe
  let rebase := ((f.sens0 ^^^ f.sensNow0) &&& sensMask0) ≠ 0 || f.sens1 ≠ f.sensNow1
  let fencOn := bitOf f.sens0.toNat 16 && !bitOf f.sensNow0.toNat 16
  let stepChange := ((f.sens2 ^^^ f.sensNow2) &&& 0x7FF) ≠ 0
  onFe (fun f =>
    let f1 := { f with sensNow0 := f.sens0, sensNow1 := f.sens1, sensNow2 := f.sens2 }
    let f2 := if rebase then { f1 with taken := 0, axisHist := [] } else f1
    if rebase || fencOn || stepChange then disarmEncoders 64 8 f2 else f2) s

/-- The port idles: no transaction, no samples, SENSOR clear (R148, R190). -/
def idleSensor (f : FrontEnd) : FrontEnd :=
  disarmEncoders 64 8 { f with sensBusy := false, sensReady := false, taken := 0, axisHist := [] }

/-- A test instruction takes the sensor port: its transaction is discarded, and a disabled port idles (R57, R190). -/
def idlePort (s : State) : State :=
  onFe (fun f => if f.sensBusy && !bitOf f.sens0.toNat 0 then idleSensor f else { f with sensBusy := false }) s

/-- G_SENS_CTRL0 is written. EN rising starts the ticks, the first at that clock (log 24); EN falling lets the transaction in
progress complete and then idles the port (R184, R190). -/
def writeSens0 (d : Word) (s : State) : State :=
  let new : Word := d &&& 0x0001FFFF
  let was := bitOf s.fe.sens0.toNat 0
  let on := bitOf new.toNat 0
  let s0 := onFe (fun f => { f with sens0 := new }) s
  if on && !was then
    onFe (fun f => { f with nextTick := s.clocks.wclk, taken := 0, axisHist := [], sensReady := false }) s0
  else if was && !on then
    onFe (fun f => if f.sensBusy then { f with sensReady := false } else idleSensor f) s0
  else s0

def writeSens1 (d : Word) (s : State) : State := onFe (fun f => { f with sens1 := d &&& 0x0000FFFF }) s
def writeSens2 (d : Word) (s : State) : State := onFe (fun f => { f with sens2 := d &&& 0x00000FFF }) s

/-- One sample of an axis from its pair of bytes (R185). -/
def axisSample (le : Bool) (bs : List Byte) (i : Nat) : Int :=
  let p := slice bs (2 * i) 2
  signed 16 (if le then ofLe p else ofBe p)

/-- STUCK: 64 consecutive transactions of all 0x00 or of all 0xFF bytes (R194). -/
def stuckStep (f : FrontEnd) (bs : List Byte) : FrontEnd :=
  let all := fun (v : Byte) => bs.all (· == v)
  let run : Nat × Byte :=
    if all 0x00 then (if f.stuckRun.2 == 0 then (f.stuckRun.1 + 1, 0) else (1, 0))
    else if all 0xFF then (if f.stuckRun.2 == 0xFF then (f.stuckRun.1 + 1, 0xFF) else (1, 0xFF))
    else (0, 0)
  let stuck := decide (64 ≤ run.1)
  { f with stuckRun := (min run.1 64, run.2), stuck := stuck, stuckSeen := f.stuckSeen || (stuck && !f.stuck) }

/-- The samples of a completed transaction, under the settings it started with. -/
def takeSamples (f : FrontEnd) (bs : List Byte) : FrontEnd :=
  let c0 := f.sensTxn.1
  let le := bitOf c0.toNat 13
  let hist := (span 0 (axesInUse c0)).foldl
    (fun (h : Sparse (List Int)) a => smod [] h a (fun xs => (axisSample le bs a :: xs).take 16)) f.axisHist
  { f with axisHist := hist, taken := min (f.taken + 1) 16 }

/-- Sum of squares and of absolute first differences of an axis's last 16 samples (R185). -/
def sumSquares (xs : List Int) : Nat := (xs.map (fun x => (x * x).toNat)).sum
def sumDiffs : List Int → Nat
  | a :: b :: xs => (a - b).natAbs + sumDiffs (b :: xs)
  | _ => 0

/-- Level codes of the eight features; `none` where not valid (R185). An energy is a mean over 16 samples and the first difference a mean
over 15: the model's choice (log 24). -/
def featureCodes (f : FrontEnd) (axes : List ((Nat × Nat) × (Nat × Nat))) : List (Option Nat) :=
  let used := axesInUse f.sensNow0
  let ok := bitOf f.sensNow0.toNat 0 && decide (16 ≤ f.taken) && !f.stuck
  let energy := (span 0 6).map (fun i =>
    if ok && decide (i / 2 < used) then
      (axes[i / 2]?).map (fun a => if i % 2 = 0 then levelCode a.1.1 a.1.2 0 else levelCode a.2.1 a.2.2 0)
    else none)
  let hist := fun a => sget [] f.axisHist a
  let all := if ok && 0 < used then some (levelCode ((span 0 used).map (fun a => sumSquares (hist a))).sum 16 0) else none
  let diff := if ok && 0 < used then some (levelCode ((span 0 used).map (fun a => sumDiffs (hist a))).sum 15 0) else none
  energy ++ [all, diff]

/-! ## VDDA_MIC (R191) -/

/-- Modulators stop, the bias output is off, encoders disarm, the FE bits clear. -/
def micLost (s : State) : State :=
  let s1 := dropFe 1 (dropFe 0 (onFe (fun f => disarmEncoders 0 72 { f with
    ramping := false, rampFrom := 0, rampGoal := 0, rampStart := s.clocks.wclk }) s))
  onFe (fun f => [0, 1].foldl (fun f n => modChan n (fun c => { c with
    cleanRun := 0, edges := if feEnabled f n then c.edges ++ [(s.clocks.wclk, false)] else c.edges }) f) f) s1

/-- Enabled channels restart with the enable mute; an enabled bias ramps from 0 V. -/
def micBack (s : State) : State :=
  let s1 := [0, 1].foldl (fun s n => if feEnabled s.fe n then startChannel n s.clocks.wclk s else s) s
  if biasOn s.fe then biasRamp (field s.fe.micbCtrl.toNat 1 2) s.clocks.wclk s1 else s1

end Sys2Proof.Machine
end

