-- ==== Sys2Proof/Machine/Watch.lean ====
section
/-!
DEFINITION. The watch cores, the baselines, the window counters and the loft (08, R198 to R230).
-/

namespace Sys2Proof.Machine

def onWc (f : WatchCores → WatchCores) (s : State) : State := { s with wc := f s.wc }
def onLoft (f : Loft → Loft) (s : State) : State := { s with loft := f s.loft }
def onBell (f : Bell → Bell) (s : State) : State := { s with bell := f s.bell }

/-- The watchman clocks pass and each adds what the Gray counts have gained (R442). -/
def sampleGray (n : Nat) (s : State) : State :=
  if n = 0 then s
  else
    let s0 := { s with clocks := { s.clocks with wclk := s.clocks.wclk + n } }
    if !s.wc.aonclk then s0
    else
      let t := s0.wtally
      let p := s0.port
      let s1 := watchTally 0x01 (p.grayAborts - t.refAborts).toNat (watchTally 0x02 (p.grayFails - t.refFails).toNat
        (watchTally 0x03 (p.grayOk - t.refOk).toNat (watchTally 0x04 (p.grayCommits - t.refCommits).toNat s0)))
      { s1 with wtally := { s1.wtally with
          refAborts := p.grayAborts, refFails := p.grayFails, refOk := p.grayOk, refCommits := p.grayCommits } }

/-! ## Baselines (R212 to R215) -/

def baseOf (w : WatchCores) (i : Nat) : Baseline := sget .init w.base i

/-- The baseline code the encoder compares with (R212). -/
def baseCode (b : Baseline) : Nat := b.b.toNat / 65536

/-- The update of R212 at a valid level. -/
def adaptBaseline (rise : Nat) (b : BitVec 24) (c : Nat) : BitVec 24 :=
  let x := c * 65536
  if b.toNat < x then BitVec.ofNat 24 (b.toNat + min ((x - b.toNat) >>> (10 + rise)) 78)
  else BitVec.ofNat 24 (b.toNat - ((b.toNat - x) >>> 9))

/-- Timer, sustained flag and offset window at a valid hop; `b` is the code before this hop's update (R214, R215). -/
def sustainHop (ctrl : Nat) (v : Baseline) (c : Nat) : Baseline :=
  let b := baseCode v
  let on := bitOf ctrl 4
  let timer := if on && decide (b + 24 ≤ c) then min (v.timer + 1) Config.sustainedHops else 0
  let sust := on && decide (Config.sustainedHops ≤ timer)
  let off := if !bitOf ctrl 3 then 0 else if sust || decide (c + 6 ≤ b) then 2000 else v.offLeft - 1
  { v with timer := timer, sust := sust, offLeft := off }

/-- SUST_EN or OFFSUP at 0 clears what they keep, at once (R214, R215). -/
def trimBaselines (ctrl : Nat) (w : WatchCores) : WatchCores :=
  if bitOf ctrl 3 && bitOf ctrl 4 then w
  else { w with base := (span 0 72).foldl (fun m i => smod .init m i (fun v =>
    { v with timer := if bitOf ctrl 4 then v.timer else 0, sust := bitOf ctrl 4 && v.sust
             offLeft := if bitOf ctrl 3 then v.offLeft else 0 })) w.base }

/-- The seeds of an arming (R213). -/
def seedBaselines (g : Granary) : Sparse Baseline :=
  let v := viewRecord g homeWake
  (span 0 72).foldl (fun m i =>
    let seed : Byte := match v with
      | some bs => ((bs[i]?).getD 0x5A)
      | none => 0x5A
    sput .init m i { Baseline.init with b := BitVec.ofNat 24 (seed.toNat * 65536) }) []

/-- The 72 sustained flags (R230). -/
def sustNow (w : WatchCores) : BitVec 72 :=
  BitVec.ofNat 72 (packBits ((span 0 72).map (fun i => (baseOf w i).sust)))

/-! ## Network memory (R198 to R203) -/

def netWord (w : WatchCores) (a : Nat) : Nat := (sget 0 w.net a).toNat

/-- Word `i` of a core's synapse memory; past its end a row reads zero (R227). -/
def synWord (w : WatchCores) (core i : Nat) : Nat := if i < 0x6000 then netWord w (0x6000 * core + i) else 0

/-- A weight of a projection (R203): code `j` of the packed words that follow header word `h`. -/
def weightOf (w : WatchCores) (core h : Nat) (header j : Nat) : Int :=
  let wd := field header 6 3 + 1
  let bit := j * wd
  let two := synWord w core (h + 1 + bit / 32) + 2 ^ 32 * synWord w core (h + 2 + bit / 32)
  let code := field two (bit % 32) wd
  let v : Int := if wd = 1 then (if code = 0 then -1 else 1) else signed wd code
  v * 2 ^ field header 29 3

def headerCount (header : Nat) : Nat := field header 19 10 + 1

/-- Words of a projection after its header (R202). -/
def weightWords (header : Nat) : Nat := ceilDiv (headerCount header * (field header 6 3 + 1)) 32

/-- The projection headers of a row: `none` for a null projection (R202). -/
def rowHeaders (w : WatchCores) (core : Nat) : Nat → Nat → List (Option Nat)
  | 0, _ => []
  | n + 1, at_ =>
    let h := synWord w core at_
    if h = 0 then none :: rowHeaders w core n (at_ + 1)
    else some at_ :: rowHeaders w core n (at_ + 1 + weightWords h)

/-- NPROJ of a record or input word; 9-15 act as 8 (R199). -/
def nprojOf (word : Nat) : Nat := min (field word 16 4) 8

/-! ## Router and queues (R204) -/

/-- A token on its way: the clock at which it reaches its slot, its source core, target core, slot and the token. -/
structure Routed where
  clk  : Nat
  src  : Nat
  core : Nat
  slot : Nat
  tok  : Token
deriving DecidableEq, Repr

/-- The tokens of one row sent from clock `t`, one clock to each projection, null ones included; `base` is the step whose
delay 0 the tokens have. -/
def rowTokens (w : WatchCores) (core t base : Nat) : List (Option Nat) → List Routed
  | [] => []
  | none :: hs => rowTokens w core (t + 1) base hs
  | some h :: hs =>
    let hd := synWord w core h
    { clk := t, src := core, core := field hd 0 2, slot := (base + field hd 2 4) % 16, tok := { src := core, header := h } }
      :: rowTokens w core (t + 1) base hs

/-- Stable merge by clock; at equal clocks the first list goes first, so lists merged in core order keep it (R204). -/
def mergeRouted : Nat → List Routed → List Routed → List Routed
  | 0, a, b => a ++ b
  | _ + 1, [], b => b
  | _ + 1, a, [] => a
  | n + 1, x :: a, y :: b =>
    if y.clk < x.clk then y :: mergeRouted n (x :: a) b else x :: mergeRouted n a (y :: b)

def mergeCores (ls : List (List Routed)) : List Routed :=
  ls.foldl (fun acc l => mergeRouted (acc.length + l.length) acc l) []

/-- Tokens of the slot in delivery that are still in it at a clock; a token leaves with its delivery's last clock (R204, log 39). -/
def stillHeld (w : WatchCores) (core slot clk : Nat) : Nat :=
  if slot = w.stepsBegun % 16 then ((sget [] w.leaving core).filter (fun t => decide (clk < t))).length else 0

/-- A token enters its slot, or is a queue drop of the slot's core (R204, R227). -/
def queueToken (st : State) (r : Routed) : State :=
  let key := 16 * r.core + r.slot
  let q := sget [] st.wc.queues key
  if q.length + stillHeld st.wc r.core r.slot r.clk < 512 then onWc (fun w => { w with queues := sput [] w.queues key (q ++ [r.tok]) }) st
  else watchTally 0x09 1 (raise causeWatchDrop
    (onWc (fun w => { w with qdrop := smod 0 w.qdrop r.core (fun c => satAdd c 1) }) st))

/-! ## Take-in (R205, R208) -/

/-- One core's take-in: the routed tokens and the clock at which it ends. -/
def coreTakeIn (w : WatchCores) (core k : Nat) : Nat → List Nat → List Routed × Nat
  | t, [] => ([], t)
  | t, l :: ls =>
    let word := synWord w core l
    let n := nprojOf word
    if n = 0 then coreTakeIn w core k t ls
    else
      let rest := coreTakeIn w core k (t + 1 + n) ls
      (rowTokens w core (t + 1) k (rowHeaders w core n (field word 0 16)) ++ rest.1, rest.2)

/-- The replay entries of offset `k - 1`, and whether END was met there (R208). An entry whose line lies beyond 143 is no spike and is not
counted: the model's choice (log 25). -/
def replayScan (w : WatchCores) (off : Nat) : Nat → Nat → List Nat × Bool
  | 0, _ => ([], false)
  | fuel + 1, a =>
    let e := netWord w a
    let o := field e 8 16
    if off < o then ([], false)
    else if bitOf e 31 then ([], decide (o = off))
    else
      let rest := replayScan w off fuel (a + 1)
      (if o = off && decide (field e 0 8 < 144) then (field e 0 8 :: rest.1, rest.2) else rest)

/-! ## Delivery (R205, R207) -/

/-- The additions of one token whose clocks rise before the cutoff: token starting at clock `t`, clock 3 + j for target j
(R205). Targets beyond 1,023 are skipped, inactive neurons take no effect (R201, R202). -/
def tokenAdds (w : WatchCores) (core t : Nat) (cut : Option Nat) (tk : Token) (acc : Sparse Int) : Sparse Int :=
  let h := synWord w tk.src tk.header
  let base := field h 9 10
  (span 0 (headerCount h)).foldl (fun acc j =>
    let inTime := match cut with
      | some c => decide (t + 2 + j < c)
      | none => true
    if inTime && decide (base + j < 1024) then
      smod 0 acc (1024 * core + base + j) (· + weightOf w tk.src tk.header h j)
    else acc) acc

/-- One core's delivery phase: accumulators, the clock at which it ends, and the tokens left at the cutoff. -/
def coreDeliver (w : WatchCores) (core : Nat) (cut : Option Nat) :
    Nat → Sparse Int → List Token → Sparse Int × Nat × List Token
  | t, acc, [] => (acc, t, [])
  | t, acc, tk :: tks =>
    let endAt := t + 2 + headerCount (synWord w tk.src tk.header)
    let late := match cut with
      | some c => decide (c < endAt)
      | none => false
    if late then (tokenAdds w core t cut tk acc, max t (cut.getD t), tk :: tks)
    else coreDeliver w core cut endAt (tokenAdds w core t cut tk acc) tks

/-- The clocks at which the tokens of a core's slot leave it: as each is delivered, or at the cutoff. -/
def leaveClocks (w : WatchCores) (cut : Option Nat) : Nat → List Token → List Nat
  | _, [] => []
  | t, tk :: tks =>
    let endAt := t + 2 + headerCount (synWord w tk.src tk.header)
    (match cut with | some c => min c endAt | none => endAt) :: leaveClocks w cut endAt tks

/-! ## Update and route (R201, R205, R209) -/

def sat16 (i : Int) : Int := clampInt (-32768) 32767 i

/-- Neuron records of a core that are ACTIVE, ascending. -/
def activeNeurons (w : WatchCores) (core : Nat) : List Nat :=
  let lo := 0x18000 + 0x800 * core
  (w.net.filter (fun e => decide (lo ≤ e.1) && decide (e.1 < lo + 0x800) && e.1 % 2 == 0 && bitOf e.2.toNat 24)).map
    (fun e => (e.1 - lo) / 2)

/-- One neuron's update: its new record word 0 and whether it fires (R201). -/
def neuronStep (w : WatchCores) (core : Nat) (rec0 : Nat) (acc : Int) : Nat × Bool :=
  let ref := field rec0 20 4
  if 0 < ref then (setField rec0 20 4 (ref - 1), false)
  else
    let p := 144 + 4 * field rec0 16 4
    let w0 := synWord w core p
    let w1 := synWord w core (p + 1)
    let thresh := signed 16 (field w0 0 16)
    let leak := field w1 16 4
    let v0 := signed 16 (field rec0 0 16)
    let v1 := if leak = 0 then v0 else v0 - v0 / 2 ^ leak
    let v2 := sat16 (v1 + acc + signed 16 (field (synWord w core (p + 2)) 0 16))
    let floor := signed 16 (field w1 0 16)
    let v3 := if v2 < floor then floor else v2
    if thresh ≤ v3 then
      let v4 := if bitOf w1 24 then sat16 (v3 - thresh) else signed 16 (field w0 16 16)
      (setField (setField rec0 0 16 (unsigned 16 v4)) 20 4 (field w1 20 4), true)
    else (setField rec0 0 16 (unsigned 16 v3), false)

/-- One core's update phase: memory with the new records, and the neurons that fired, in order. -/
def coreUpdate (w : WatchCores) (core : Nat) (acc : Sparse Int) : List Nat → Sparse Word → Sparse Word × List Nat
  | [], m => (m, [])
  | n :: ns, m =>
    let a := 0x18000 + 0x800 * core + 2 * n
    let (r, fired) := neuronStep w core (netWord w a) (sget 0 acc (1024 * core + n))
    let rest := coreUpdate w core acc ns (sput 0 m a (BitVec.ofNat 32 r))
    (rest.1, if fired then n :: rest.2 else rest.2)

/-- The tokens fired neurons emit from clock `t`, and the clock at which the core's route phase ends. -/
def coreRoute (w : WatchCores) (core k : Nat) : Nat → List Nat → List Routed × Nat
  | t, [] => ([], t)
  | t, n :: ns =>
    let r1 := netWord w (0x18000 + 0x800 * core + 2 * n + 1)
    let np := nprojOf r1
    let rest := coreRoute w core k (t + np) ns
    (rowTokens w core t (k + 1) (rowHeaders w core np (field r1 0 16)) ++ rest.1, rest.2)

/-- Window-counter additions of fired neurons with OUTEN (R209). -/
def countSpikes (w : WatchCores) (core : Nat) (fired : List Nat) (live : Sparse Word) : Sparse Word :=
  fired.foldl (fun l n =>
    let r0 := netWord w (0x18000 + 0x800 * core + 2 * n)
    if bitOf r0 25 then smod 0 l (field r0 26 6) (fun c => satAdd c 1) else l) live

/-- Update and route on all four cores, from the clocks at which their delivery phases ended; the step's end is the last
core's (R205). -/
def updateAndRoute (s : State) : State :=
  let w := s.wc
  let k := w.stepsBegun
  let cores := [0, 1, 2, 3].map (fun c =>
    let act := activeNeurons w c
    let up := coreUpdate w c w.acc act []
    let t := ((w.coreEnds[c]?).getD 0) + act.length
    (c, up.1, up.2, coreRoute w c k t up.2))
  let net := cores.foldl (fun m x => x.2.1.foldl (fun m e => sput 0 m e.1 e.2) m) w.net
  let live := cores.foldl (fun l x => countSpikes w x.1 x.2.2.1 l) w.live
  let endAt := cores.foldl (fun t x => max t x.2.2.2.2) 0
  -- records whose new word is zero leave no entry, so they are written over the old memory
  let net := cores.foldl (fun m x => (activeNeurons w x.1).foldl (fun m n =>
    let a := 0x18000 + 0x800 * x.1 + 2 * n
    sput 0 m a (sget 0 x.2.1 a)) m) net
  let s1 := onWc (fun w => { w with net := net, live := live, acc := [], ends := (endAt :: w.ends).take 4, stage := .ended }) s
  (mergeCores (cores.map (fun x => x.2.2.2.1))).foldl queueToken s1

/-! ## Arming, stopping, resets (R220, R221, R226, R228) -/

/-- Tokens and the step in progress are discarded (R221, R226). -/
def stopCores (w : WatchCores) : WatchCores :=
  let m := w.heldWrites.foldl (fun m e => sput 0 m e.1 e.2) w.net
  { w with running := false, stopping := false, queues := [], leaving := [], acc := [], stage := .none, inputs := []
           coreEnds := [], h0 := none, net := m, heldWrites := [] }

/-- The length of a window in steps: LEN 0 acts as 1 (R222). -/
def windowSteps (len : Byte) : Nat := 10 * max len.toNat 1

/-- The first hop boundary at least 1 ms after `e` (R220). -/
def firstHopAfter (s : State) (e : Nat) : Nat :=
  s.fe.hopNext + Config.hopClocks * ceilDiv (e + Config.hopClocks - s.fe.hopNext) Config.hopClocks

/-- Settings written while the cores do not run govern at once (R223). -/
def settingsNow (s : State) : State :=
  onBell (fun b => { b with rulesNow := b.rules, ringNow := b.ring, loomNow := b.loom })
    (onWc (fun w => trimBaselines w.baseCtrl.toNat { w with
      baseNow := w.baseCtrl, winLenNow := w.winLen, winLenNext := w.winLen, pendSet := [] }) s)

/-! ## Windows (R209, R82) -/

/-- A window ends: the live counts become the published bank, at once or when GCS_N rises (R82). -/
def endWindow (gcsLow : Bool) (s : State) : State :=
  let w := s.wc
  onBell (fun b => { b with latches := 0 })
    (onWc (fun w' => { w' with
      winTotal := w.winTotal + 1, winSeq := if gcsLow then w.winSeq else BitVec.ofNat 32 (w.winTotal + 1)
      pub := if gcsLow then w.pub else w.live, heldWin := if gcsLow then some w.live else none
      live := [], winStart := w.stepsBegun, winLenNow := w.winLenNext }) s)

/-- A held window is published when GCS_N rises (R82). -/
def publishHeld (s : State) : State :=
  match s.wc.heldWin with
  | none => s
  | some p => onWc (fun w => { w with pub := p, winSeq := BitVec.ofNat 32 w.winTotal, heldWin := none }) s

/-! ## Loft (R216 to R218) -/

/-- Frames in the view of a freeze at clock `point`: the 2,000 that end there, oldest first, EMPTY where never recorded. -/
def pinFrames (frames : List LoftFrame) (point : Nat) : List LoftFrame :=
  let xs := ((frames.filter (fun f => f.hop ≤ point)).take Config.loftHalf).reverse
  List.replicate (Config.loftHalf - xs.length) { samples := [], st := .blank, hop := 0, hq := false } ++ xs

/-- Whether the loft takes the HQ path (R173). -/
def loftHq (f : FrontEnd) : Bool :=
  let d := f.decCtrl.toNat
  bitOf d 2 && bitOf d 0 && !bitOf d 1

/-- The path in force at a freeze point: that of the frame that ends there. -/
def pathAt (s : State) (point : Nat) : Bool :=
  match s.loft.frames.find? (fun f => decide (f.hop ≤ point)) with
  | some f => f.hq
  | none => loftHq s.fe

/-- A freeze (R217); an automatic one names the clock in which it was decided (R224). -/
def freezeAt (point : Nat) (step winSeq : Word) (rules : Byte) (manual : Bool) (decided : Option Nat) (s : State) : State :=
  let half := fun (l : Loft) =>
    { frames := pinFrames l.frames point, step := step, winSeq := winSeq, ch := l.ch, hq := pathAt s point
      rules := rules, manual := manual, auto := decided.isSome, point := point, decided := decided.getD point : Frozen }
  onLoft (fun l => { l with frozen := some (half l) }) s

/-- A manual freeze at the boundary that is now. -/
def takeManual (s : State) : State :=
  freezeAt s.clocks.wclk s.wc.stepNo (BitVec.ofNat 32 s.wc.winTotal) s.bell.lastFired true none s

/-- A release of the frozen half; the kept history stays (R217). -/
def releaseHalf (s : State) : State := onLoft (fun l => { l with frozen := none, releaseOwed := false, hold := false }) s

/-- The end of the escalation's hold (R412). -/
def endHold (s : State) : State :=
  if s.loft.hold then
    if !s.esc.keep || s.loft.releaseOwed then releaseHalf s else onLoft (fun l => { l with hold := false }) s
  else s

/-- An older half denies a freeze: MISSED sets, and what was denied at its own point in this clock is kept (R217, R224). -/
def denyFreeze (f : Option Firing) (s : State) : State :=
  let now := s.clocks.wclk
  let d : Denied := match s.loft.denied.filter (fun d => d.clk == now) with
    | some d => d
    | none => { clk := now, missed := s.loft.missed, auto := none, manual := false }
  onLoft (fun l => { l with missed := true, denied := some (match f with
    | some g => if g.nominal = now then { d with auto := some g } else d
    | none => { d with manual := true }) }) s

/-- A manual freeze at the boundary that is now, or MISSED (R217). One between an automatic freeze's point and the clock in which that was
decided shares it (R224). -/
def manualPoint (s : State) : State :=
  match s.loft.frozen with
  | none => takeManual s
  | some h =>
    if h.auto && decide (h.point ≤ s.clocks.wclk) && decide (s.clocks.wclk ≤ h.decided) then
      onLoft (fun l => { l with frozen := some { h with manual := true } }) s
    else denyFreeze none s

/-- A firing's automatic freeze at its point, or MISSED. A manual freeze whose point lies between the firing step's nominal end and its
actual end shares the automatic one (R217, R224). -/
def firingFreeze (f : Firing) (s : State) : State :=
  match s.loft.frozen with
  | none => freezeAt f.nominal f.fstep (BitVec.ofNat 32 f.fwin) f.rules false (some f.ended) s
  | some h =>
    if h.manual && !h.auto && decide (f.nominal ≤ h.point) && decide (h.point ≤ f.ended) then
      freezeAt f.nominal f.fstep (BitVec.ofNat 32 f.fwin) f.rules true (some f.ended) s
    else denyFreeze (some f) s

/-- The freezes of this clock that an older half denied take place after its release, the automatic one first (R224, log 39). -/
def redoFreezes (d : Denied) (s : State) : State :=
  let s1 := onLoft (fun l => { l with missed := d.missed, denied := none }) s
  let s2 := match d.auto with
    | some f => firingFreeze f s1
    | none => s1
  if d.manual then manualPoint s2 else s2

/-- G_LOFT_CTRL.RELEASE (R217, R412). A freeze point in the same clock comes after it (R224): a half frozen there stays, and freezes
that an older half denied there take place. -/
def requestRelease (s : State) : State :=
  if s.loft.hold then onLoft (fun l => { l with releaseOwed := true }) s
  else if s.loft.frozen.any (fun h => h.point == s.clocks.wclk) then s
  else
    match s.loft.denied.filter (fun d => d.clk == s.clocks.wclk && (d.manual || d.auto.isSome)) with
    | some d => redoFreezes d (releaseHalf s)
    | none => releaseHalf s

/-- G_LOFT_CTRL.FREEZE: a manual freeze at the first hop boundary at least 1 µs after the commit edge `at_`, or MISSED (R217). While
one is requested FREEZE reads 1, and another 1 adds nothing. -/
def requestFreeze (at_ : Nat) (s : State) : State :=
  if s.loft.frozen.isSome then onLoft (fun l => { l with missed := true }) s
  else onLoft (fun l => { l with request := some (l.request.getD (at_ + 13)) }) s

/-- G_LOFT_CTRL is written; a release that falls in the same clock as a freeze comes first (R224, R225, R230). -/
def writeLoftCtrl (d : Word) (at_ : Nat) (s : State) : State :=
  let n := d.toNat
  let s1 := onLoft (fun l => { l with
    ch := if feEnabled s.fe 0 || feEnabled s.fe 1 then l.ch else bitOf n 0
    auto := bitOf n 1, missed := l.missed && !bitOf n 5
    feRun := if feEnabled s.fe 0 || feEnabled s.fe 1 || l.ch == bitOf n 0 then l.feRun else 0 }) s
  let s2 := if bitOf n 3 then requestRelease s1 else s1
  if bitOf n 2 then requestFreeze at_ s2 else s2

/-! ## The end of a step (R206 to R210, R221, R223, R227) -/

/-- One rule against the live counts (R210); a threshold of 0 acts as 1. -/
def rulePasses (live : Sparse Word) (rule : Nat) : Bool :=
  let a := (sget 0 live (field rule 3 6)).toNat
  let b := (sget 0 live (field rule 9 6)).toNat
  let n := max (field rule 15 16) 1
  let mode := field rule 1 2
  bitOf rule 0
    && (if mode = 0 then decide (n ≤ a) else if mode = 1 then decide (n ≤ a + b)
        else if mode = 2 then decide (n ≤ a) && decide (b < a) else decide (n ≤ a) && decide (n ≤ b))

/-- The rules that fire: their test passes while their latch is clear. -/
def firedRules (s : State) : Byte :=
  BitVec.ofNat 8 (packBits ((span 0 8).map (fun n =>
    rulePasses s.wc.live (sget 0 s.bell.rulesNow n).toNat && !s.bell.latches.getLsbD n)))

/-- One written setting comes into force; LEN waits for the next window (R223). -/
def applySetting (s : State) (x : InFlightWrite) : State :=
  let a := x.addr.toNat
  let n := x.data.toNat
  if a = 0x188 then onWc (fun w => { w with winLenNext := BitVec.ofNat 8 n }) s
  else if a = 0x18A then onWc (fun w => trimBaselines n { w with baseNow := BitVec.ofNat 5 n }) s
  else if a = 0x208 then onBell (fun b => { b with
    ringNow := BitVec.ofNat 8 n, loomNow := if x.via = .sealed then BitVec.ofNat 8 (n / 256) else b.loomNow }) s
  else onBell (fun b => { b with rulesNow := sput 0 b.rulesNow (a - 0x200) (x.data &&& 0x7FFFFFFF) }) s

/-- The settings whose commit edges lie at least 1 µs before this step end govern from it, in the order in which they were written
(R223). -/
def settingsAtStep (s : State) : State :=
  let due := fun (x : InFlightWrite) => decide (x.at_ + 13 ≤ s.wc.ends.headD 0)
  (s.wc.pendSet.filter due).foldl applySetting (onWc (fun w => { w with pendSet := w.pendSet.filter (fun x => !due x) }) s)

/-- The nominal end of the step in progress in live mode; a replay step's own end (R206, R208). -/
def nominalEnd (w : WatchCores) : Nat :=
  if w.replay then w.ends.headD 0 else w.h0.getD 0 + Config.hopClocks * w.stepsBegun

/-- Steps whose end lies at or before a clock, of the `k` that have ended; the last four ends are kept (R207). -/
def stepsBy (w : WatchCores) (k point : Nat) : Nat := k - (w.ends.filter (fun e => decide (point < e))).length

/-- The firing of a step end (R210). `k` counts the steps completed with this one. -/
def firingOf (s : State) (fired : Byte) (wend : Bool) : Firing :=
  let w := s.wc
  let point := nominalEnd w
  let at_ := stepsBy w w.stepsBegun point
  { rules := fired, ring := s.bell.ringNow, loom := s.bell.loomNow, step := w.stepNo
    fstep := BitVec.ofNat 32 at_, nominal := point, ended := w.ends.headD 0, replay := w.replay
    winSeq := w.winTotal
    fwin := if at_ = w.stepsBegun && wend then w.winTotal + 1 else if w.winStart ≤ at_ then w.winTotal else w.winTotal - 1
    counts := w.live, sustNow := sustNow w }

/-- The automatic freeze is requested in the clock of the firing step's actual end; where its point is still to come it waits for that
boundary. -/
def requestAuto (f : Firing) (s : State) : State :=
  if f.rules &&& f.ring = 0 || !s.loft.auto then s
  else if s.loft.frozen.isNone && decide (s.clocks.wclk < f.nominal) then onLoft (fun l => { l with autoReq := some f }) s
  else firingFreeze f s

/-- An automatic freeze whose point has come. -/
def settleFreeze (s : State) : State :=
  match s.loft.autoReq with
  | none => s
  | some f => if s.clocks.wclk < f.nominal then s else firingFreeze f (onLoft (fun l => { l with autoReq := none }) s)

/-- A step ends. -/
def finishStep (gcsLow : Bool) (s : State) : State :=
  let stretched := !s.wc.replay && decide (nominalEnd s.wc < s.wc.ends.headD 0)
  let s1 := settingsAtStep (onWc (fun w => { w with stepNo := w.stepNo + 1, stage := .none })
    (watchTally 0x0A (if stretched then 1 else 0) s))
  let fired := firedRules s1
  let wend := decide (s1.wc.winStart + windowSteps s1.wc.winLenNow ≤ s1.wc.stepsBegun)
  let s2 := onBell (fun b => { b with lastFired := fired }) (if fired = 0 then s1
    else requestAuto (firingOf s1 fired wend)
      (onBell (fun b => { b with latches := b.latches ||| fired, firings := b.firings ++ [firingOf s1 fired wend] }) s1))
  let s3 := if wend then endWindow gcsLow s2 else s2
  if s3.wc.lastTaken then onWc (fun w => { stopCores w with replayDone := true }) s3
  else if s3.wc.stopping then onWc stopCores s3 else s3

/-- The cutoff of the step in progress: its leftover tokens are late drops, and update and route run (R207, R227). -/
def cutStep (s : State) : State :=
  match s.wc.stage with
  | .cutoff left =>
    let n := (left.map (fun e => e.2.length)).sum
    let s1 := onWc (fun w => { w with
      late := left.foldl (fun m e => smod 0 m e.1 (fun c => satAdd c e.2.length)) w.late }) s
    updateAndRoute (if n = 0 then s1 else watchTally 0x08 n (raise causeWatchDrop s1))
  | _ => s

/-- A step in progress is carried to its end, when an arming overtakes the final step of a disarm (R221). -/
def settleStep (s : State) : State :=
  match (cutStep s).wc.stage with
  | .ended => finishStep false (cutStep s)
  | _ => s

/-! ## Arming and memory writes (R219, R220, R221) -/

/-- An arming, at the write's commit edge `at_` (R220). -/
def armCores (at_ : Nat) (s : State) : State :=
  let s0 := settleStep s
  let s1 := if s0.wc.running then s0 else settingsNow s0
  onBell (fun b => { b with latches := 0, lastFired := 0 })
    (onWc (fun w => { stopCores w with
      arm := true, replayDone := false, base := seedBaselines s.gran, preSeed := w.base
      live := [], pub := [], heldWin := none, winSeq := 0, stepNo := 0, winTotal := 0, winStart := 0, stepsBegun := 0
      h0 := some (firstHopAfter s at_), ends := [], lastTaken := false }) s1)

/-- A disarm: the cores stop at the end of the step in progress (R221). -/
def disarmCores (s : State) : State :=
  onWc (fun w =>
    let w := { w with arm := false }
    if w.stage = .none then stopCores w else { w with stopping := true }) s

/-- G_WC_CTRL is written (R220, R221, R225, R230). -/
def writeWcCtrl (d : Word) (at_ : Nat) (s : State) : State :=
  let arm := bitOf d.toNat 0
  let s1 := onWc (fun w => { w with
    replay := if w.arm then w.replay else bitOf d.toNat 1
    memBlocked := w.memBlocked && !bitOf d.toNat 4 }) s
  if arm && !s.wc.arm then (if s.wc.ready && s.wc.aonclk then armCores at_ s1 else s1)
  else if !arm && s.wc.arm then disarmCores s1
  else s1

/-- A write of network memory (R219): stored, held until the final step of a disarm ends, or blocked. One above the memory with ARM 0 and
WATCH 1 leaves MEM_BLOCKED clear: the model's choice (log 25). -/
def writeNet (a : Nat) (d : Word) (s : State) : State :=
  if s.wc.arm || !s.wc.ready then onWc (fun w => { w with memBlocked := true }) s
  else if 0x1A000 ≤ a then s
  else if s.wc.running then onWc (fun w => { w with heldWrites := w.heldWrites ++ [(a, d)] }) s
  else onWc (fun w => { w with net := sput 0 w.net a d }) s

def writeMemData (d : Word) (s : State) : State :=
  onWc (fun w => { w with waddr := w.waddr + 1 }) (writeNet s.wc.waddr.toNat d s)

def writeMemWin (k : Nat) (d : Word) (s : State) : State :=
  let s1 := writeNet (16 * (s.wc.waddr.toNat / 16) + k) d s
  if k = 15 then onWc (fun w => { w with waddr := w.waddr + 16 }) s1 else s1

/-! ## The loft's view (R218) -/

def frameStateCode : FrameState → Nat
  | .clean => 0
  | .zero => 1
  | .fault => 2
  | .blank => 3

/-- The 64 KiB view of the frozen half (R218). -/
def frozenView (f : Frozen) : List Byte :=
  f.frames.flatMap (fun fr => slice (fr.samples.flatMap (fun x => toLe 2 x.toNat)) 0 32)
    ++ (span 0 500).map (fun i => BitVec.ofNat 8 (((span 0 4).map (fun j =>
        (match f.frames[4 * i + j]? with | some fr => frameStateCode fr.st | none => 0) * 4 ^ j)).sum))
    ++ List.replicate 12 0
    ++ toLe 4 f.step.toNat ++ toLe 4 f.winSeq.toNat
    ++ [if f.ch then 1 else 0, if f.hq then 1 else 0, f.rules, if f.manual then 1 else 0]
    ++ List.replicate 0x3F4 0

end Sys2Proof.Machine
end

