-- ==== Sys2Proof/Machine/Escalation.lean ====
section
/-!
DEFINITION. The escalation logic and the bell action (14, R210, R211, R217, R224, R401 to R412).
-/

namespace Sys2Proof.Machine

def onEsc (f : Escalation → Escalation) (s : State) : State := { s with esc := f s.esc }

def escStateCode : EscState → Nat
  | .idle => 0
  | .waitLoom => 1
  | .copy => 2
  | .waitFetch => 3

/-- Outcome codes (R419). -/
def outPresented : Nat := 1
def outNotReady : Nat := 2
def outBusy : Nat := 3
def outNoLoft : Nat := 4
def outNoProfile : Nat := 5
def outBadDest : Nat := 6
def outTimeout : Nat := 7
def outLoomLost : Nat := 8
def outWithdrawn : Nat := 9
def outReplay : Nat := 10

/-- An escalation in progress ends: outcome, rule, tenant and state recorded, the alert unless it was admitted, and the
hold ends (R411, R412). -/
def endEscalation (outcome : Nat) (answer : Option Byte) (s : State) : State :=
  let s1 := onEsc (fun e => { e with
    outcome := BitVec.ofNat 4 outcome, endedIn := BitVec.ofNat 3 (escStateCode e.st), st := .idle
    answer := answer.getD e.answer, tenant := e.latTenant, rule := e.latRule, fetched := false, answerDue := none }) s
  endHold (if answer = some 0 then s1 else raise causeEscalation s1)

/-- An event that ends an escalation only before its entry is fetched (R415). -/
def endUnfetched (outcome : Nat) (s : State) : State :=
  if s.esc.st ≠ .idle && !s.esc.fetched then endEscalation outcome none s else s

/-- The target is set to L3, the loom is reset or its power is lost (R415). -/
def escLoomLost (s : State) : State := endUnfetched outLoomLost s

/-- An accepted sealed write that clears EN or changes TENANT, or a GATE reset (R415). -/
def escWithdraw (s : State) : State := endUnfetched outWithdrawn s

/-- The loom's power is lost with a fetched entry that it has not answered: the escalation ends with it (R410, R411, log 44). -/
def escEntryLost (s : State) : State :=
  if s.esc.st ≠ .idle && s.esc.fetched && s.esc.answerDue.isNone then endEscalation outLoomLost none s else s

/-- Rows of the hand-off image (R405). -/
def handoffRows : Nat := 1032

/-- In the lc after the last row has landed the copy is over and the hold ends (R408). -/
def copyDone (s : State) : State :=
  if s.esc.st = .copy && decide (handoffRows ≤ s.esc.landed) then endHold (onEsc (fun e => { e with st := .waitFetch }) s) else s

/-- Whether (WAIT + 1) ms have passed since the trigger (R410). -/
def escExpired (s : State) : Bool := decide (s.esc.since + Config.hopClocks * (s.esc.waitMs.toNat + 1) ≤ s.clocks.wclk)

/-! ## The profile (R404) -/

/-- A byte field of the profile. -/
def prof (p : List Byte) (off n : Nat) : Nat := leAt p off n

/-- Tile and bank of audio pair `k`. -/
def audioPair (p : List Byte) (k : Nat) : Nat × Nat := (prof p (20 + k) 1, prof p (24 + k) 1)

/-- Whether the profile test fails (R404); the record is present when this is asked. -/
def profileFails (p : List Byte) : Bool :=
  let pairs := (span 0 4).map (audioPair p)
  let hdr := (prof p 16 1, prof p 17 1)
  prof p 2 2 == 0 || decide (248 < prof p 18 1)
    || ([prof p 17 1, prof p 24 1, prof p 25 1, prof p 26 1, prof p 27 1, prof p 29 1].any (fun b => decide (9 < b)))
    || prof p 19 1 / 4 != 0 || prof p 31 1 / 16 != 0
    || pairs.any (· == hdr) || !decide pairs.Nodup

/-! ## The hand-off header (R405) -/

/-- Words of a sparse bank of 64 counters. -/
def countBytes (c : Sparse Word) : List Byte := (span 0 64).flatMap (fun i => toLe 4 (sget 0 c i).toNat)

def handoffHeader (f : Firing) (seq : Word) (rule tenant : Nat) : List Byte :=
  toLe 4 0x45534331 ++ toLe 4 seq.toNat ++ toLe 4 f.winSeq ++ toLe 4 f.step.toNat ++ toLe 1 rule ++ toLe 1 f.rules.toNat
    ++ toLe 1 (if f.sustNow = 0 then 0 else 1) ++ toLe 1 tenant ++ toLe 12 f.sustNow.toNat ++ List.replicate 32 0
    ++ countBytes f.counts ++ List.replicate 0xC0 0

/-! ## Ready conditions of ESCALATION (R148) -/

def loftReady (s : State) : Bool := decide (Config.loftHalf ≤ s.loft.feRun)

def escalationReady (s : State) : Bool :=
  s.esc.en && s.wc.ready && loftReady s && s.pwr.target != .l3 && !s.pwr.block.getLsbD s.esc.tenantReg.toNat

/-! ## The bell action (R211) -/

/-- The lowest set bit of a byte, 0 where none is set. -/
def lowestBit (b : Byte) : Nat := ((span 0 8).find? (fun i => b.getLsbD i)).getD 0

/-- Whether a half is frozen that is not this firing's own automatic freeze, which a trigger shares (R402, R403). -/
def otherHalf (f : Firing) (s : State) : Bool := s.loft.frozen.any (fun h => !(h.auto && h.point == f.nominal))

/-- The checks of a trigger, in order; `none` when it passes (R402). -/
def triggerCheck (s : State) (f : Firing) (profile : Option (List Byte)) : Option Nat :=
  if f.replay then some outReplay
  else if s.esc.st ≠ .idle then some outBusy
  else if !escalationReady s then some outNotReady
  else if otherHalf f s then some outNoLoft
  else match profile with
    | none => some outNoProfile
    | some p => if profileFails p then some outNoProfile else none

/-- A trigger (R401 to R403), judged on the state before its bell action. -/
def escTrigger (f : Firing) (rules : Byte) (before : State) (s0 : State) : State :=
  let s := watchTally 0x0E 1 s0
  let rule := lowestBit rules
  let profile := (viewRecord s.gran homeEsc).map (fun v => slice v 0 248)
  match triggerCheck before f profile with
  | some out =>
    let s1 := if out = outNoLoft then onLoft (fun l => { l with missed := true }) s else s
    raise causeEscalation (onEsc (fun e => { e with
      outcome := BitVec.ofNat 4 out, rule := BitVec.ofNat 3 rule, tenant := e.tenantReg, endedIn := 0 }) s1)
  | none =>
    let s1 := if s.loft.frozen.isSome then s else firingFreeze f s
    let seq := s.esc.seq + 1
    onEsc (fun e => { e with
      seq := seq, st := .waitLoom, since := s.clocks.wclk, profile := profile.getD [], landed := 0, fetched := false
      header := handoffHeader f seq rule e.tenantReg.toNat, latTenant := e.tenantReg, latRule := BitVec.ofNat 3 rule
      tenant := e.tenantReg, rule := BitVec.ofNat 3 rule, answerDue := none })
      (onLoft (fun l => { l with hold := true, releaseOwed := false }) s1)

/-- A firing's update of G_BELL_CAUSE and BELL_N (R210, R211). -/
def bellCause (b : Bell) (f : Firing) : Bell :=
  { b with
    causeFirst := if b.causeRules = 0 then BitVec.ofNat 3 (lowestBit f.rules) else b.causeFirst
    causeStep := if b.causeRules = 0 then BitVec.ofNat 16 f.step.toNat else b.causeStep
    causeRules := b.causeRules ||| f.rules, causeReplay := b.causeReplay || f.replay
    bellN := b.bellN || decide (f.rules &&& f.ring ≠ 0) }

/-- The bell action of the oldest firing (R210, R211); the firings of one clock are kept for an ACK in it. -/
def takeBellAction (f : Firing) (s0 : State) : State :=
  let s := settleFreeze s0
  let rings := f.rules &&& f.ring ≠ 0
  let now := s.clocks.wclk
  let s1 := onBell (fun b => { bellCause b f with
    acted := if b.actedAt = now then b.acted ++ [f] else [f], actedAt := now }) s
  let s2 := watchTally 0x05 (if rings && !s.bell.bellN then 1 else 0) s1
  let s3 := if f.rules &&& f.loom ≠ 0 && s.pwr.target ≠ .l3 then onPwr (fun p => { p with bellWake := true }) s2 else s2
  let esc := if s.esc.en then f.rules &&& s.esc.rules else 0
  if esc = 0 then s3 else escTrigger f esc s s3

/-- G_BELL_ACK (R211); a firing in the same clock is applied after it (R79, R224). -/
def bellAckEffect (s : State) : State :=
  onBell (fun b =>
    let clear := { b with
      bellN := false, causeRules := 0, causeFirst := 0, causeReplay := false, causeSust := false, causeStep := 0 }
    if b.actedAt = s.clocks.wclk then b.acted.foldl bellCause clear else { clear with acted := [] }) s

end Sys2Proof.Machine
end

