-- ==== Sys2Proof/Machine/Flags.lean ====
section
/-!
DEFINITION. The ready bits, their sticky record, the alert pin, and the frame that every command shares (R62, R146, R148, R149).
-/

namespace Sys2Proof.Machine

def micbReady (s : State) : Bool :=
  s.mon.rails.mic && biasOn s.fe && !s.fe.ramping && !s.fe.hdrm && !s.fe.limit

def goodReel (p : Power) (r : Nat) : Bool := !p.reelsBad.getLsbD r
def badReels (p : Power) : Nat := (setBits 512 p.reelsBad.toNat).length
def goodTiles (p : Power) : Nat := (setBits 256 p.tilesOk.toNat).length

/-- The twenty ready bits, bit 0 first (R148). -/
def readyList (s : State) : List Bool :=
  [ !s.mon.por
  , s.gran.st != .closed
  , s.wc.aonclk
  , (chanOf s.fe 0).feBit
  , (chanOf s.fe 1).feBit
  , micbReady s
  , s.wc.ready
  , loftReady s
  , s.fe.sensReady
  , loomRuns s.pwr && s.pwr.tilesOk != 0
  , loomRuns s.pwr && s.pwr.tilesOk == BitVec.allOnes 256
  , loomRuns s.pwr && s.pwr.reelsBad != BitVec.allOnes 512
  , loomRuns s.pwr
  , (weftOf s 0).trained
  , (weftOf s 1).trained
  , (warpOf s 0).locked
  , (warpOf s 1).locked
  , (warpOf s 2).locked
  , (warpOf s 3).locked
  , escalationReady s ]

/-- G_READY.READY. -/
def ready (s : State) : BitVec 20 := BitVec.ofNat 20 (packBits (readyList s))

/-- Each ready bit that rises sets its sticky bit (R149). -/
def settle (s s' : State) : State := { s' with seen := s'.seen ||| (ready s' &&& ~~~ (ready s)) }

/-- A command's effect: nothing while POR holds, and otherwise the effect with the sticky bits of what became ready. -/
def fin (s s' : State) : Host.Outcome State Fault Refusal := if s.mon.por then .next s else .next (settle s s')

/-- GALERT_N driven low (R62). -/
def galertLow (s : State) : Bool := (s.alert &&& s.port.alertMask) != 0

end Sys2Proof.Machine
end

