-- ==== Sys2Proof/Machine/Drafts.lean ====
section
/-!
DEFINITION. Draft images, verify, the structure walk, swaps and staleness (09 R244 to R252, R266, R268 to R270; 13 R389).
-/

namespace Sys2Proof.Machine

/-! ## The image header (R244, R245) -/

def verOk : Byte := 0x00
def verAbandoned : Byte := 0x0F

/-- A version as the header describes it, without windows and pages. -/
def parseVersion (h : List Byte) : Version :=
  { tag := BitVec.ofNat 16 (leAt h 0x08 2), points := BitVec.ofNat 5 (leAt h 0x0A 1), warp := bitOf (leAt h 0x0B 1) 0
    row0 := leAt h 0x0C 1, col0 := leAt h 0x0D 1, rows := leAt h 0x0E 1, cols := leAt h 0x0F 1
    banks := BitVec.ofNat 10 (leAt h 0x10 2), engines := BitVec.ofNat 16 (leAt h 0x12 2), passLc := leAt h 0x14 4
    npages := leAt h 0x18 1, windows := [], warpMask := BitVec.ofNat 4 (leAt h 0x1A 1)
    warpLat := (span 0 4).map (fun m => leAt h (0x1C + 2 * m) 2), pages := [] }

def imageLen (v : Version) : Nat := 0x400 + v.rows * v.cols * v.npages * Config.pageBytes

/-- Check 2 over the 128 header bytes: FORMAT, STEPPING, HCRC, res bytes, VERSION, IMG_LEN and the size fields (R257). -/
def badHeaderFormat (h : List Byte) : Bool :=
  let v := parseVersion h
  leAt h 0x04 2 != 1 || leAt h 0x06 2 != 0x00B0 || crc32c (slice h 0 0x7C) != leAt h 0x7C 4 || v.tag == 0
    || leAt h 0x0A 1 / 32 != 0 || leAt h 0x0B 1 / 2 != 0 || leAt h 0x10 2 / 1024 != 0 || leAt h 0x1A 1 / 16 != 0
    || leAt h 0x1B 1 != 0 || (slice h 0x28 0x50).any (· != 0)
    || v.rows == 0 || decide (16 < v.rows) || v.cols == 0 || decide (16 < v.cols)
    || v.npages == 0 || decide (32 < v.npages) || decide (16 < leAt h 0x19 1) || decide (v.passLc < 49)
    || leAt h 0x24 4 != imageLen v

def parseWindow (h : List Byte) (i : Nat) : Window :=
  { start := leAt h (0x80 + 16 * i) 4, len := leAt h (0x84 + 16 * i) 4
    banks := BitVec.ofNat 10 (leAt h (0x88 + 16 * i) 2), dir := BitVec.ofNat 2 (leAt h (0x8A + 16 * i) 1) }

/-- A res bit of a window entry, or a nonzero byte between the entries and 0x400, is a res byte of check 2. -/
def badWindowBytes (h : List Byte) : Bool :=
  let n := leAt h 0x19 1
  (span 0 n).any (fun i => leAt h (0x88 + 16 * i) 2 / 1024 != 0 || leAt h (0x8A + 16 * i) 1 / 4 != 0
    || (slice h (0x8B + 16 * i) 5).any (· != 0))
    || (slice h (0x80 + 16 * n) (0x380 - 16 * n)).any (· != 0)

/-! ## Pages (R246) -/

def pageKey (t p : Nat) : Nat := 32 * t + p
def freePages (s : State) (t : Nat) : List Nat :=
  (span 0 32).filter (fun p => sget (0, false) s.loom.pages (pageKey t p) == (0, false))

/-- Pages of a version on a tile. -/
def pagesOn (v : Version) (t : Nat) : List Nat := ((v.pages.find? (·.1 == t)).map (·.2)).getD []

/-- The version with the lowest free pages of every tile. -/
def allotPages (s : State) (v : Version) : Version :=
  { v with pages := (versionTiles v).map (fun t => (t, (freePages s t).take v.npages)) }

def markPages (v : Version) (owner : Nat × Bool) : State → State := onLoom (fun l => { l with
  pages := v.pages.foldl (fun m e => e.2.foldl (fun m p => sput (0, false) m (pageKey e.1 p) owner) m) l.pages })

/-! ## Version tags (R249) -/

/-- A tile holds a version of a draft, as the tag it keeps says. -/
def holdsVersion (s : State) (t id : Nat) (v : Version) : Bool := (sget [] s.loom.tags t).contains (id, v.tag)

/-- A tile has a version of a draft, written and walked. -/
def addTag (id : Nat) (v : Version) (t : Nat) : State → State := onLoom (fun l => { l with
  tags := smod [] l.tags t (fun xs => (id, v.tag) :: xs.filter (· != (id, v.tag))) })

/-- A version's tags go from the tiles of its rectangle. -/
def dropTags (id : Nat) (v : Version) : State → State := onLoom (fun l => { l with
  tags := (versionTiles v).foldl (fun m t => smod [] m t (fun xs => xs.filter (· != (id, v.tag)))) l.tags })

/-- Tiles found to hold no version of a draft any more, by damage that SECDED could not see (R249, R267). -/
def loseTags (id : Nat) (ts : List Nat) : State → State := onLoom (fun l => { l with
  tags := ts.foldl (fun m t => smod [] m t (fun xs => xs.filter (fun e => e.1 != id))) l.tags })

/-- Every page of a version is free again, and no tile holds it. -/
def freeVersion (id : Nat) (v : Option Version) (s : State) : State :=
  match v with
  | none => s
  | some v => dropTags id v (markPages v (0, false) s)

/-- Fewest free pages on any tile of a rectangle. -/
def fewestFree (s : State) (v : Version) : Nat :=
  ((versionTiles v).map (fun t => (freePages s t).length)).foldl min 32

def noteFree (v : Version) (s : State) : State := onLoom (fun l => { l with
  verify := { l.verify with freeMin := BitVec.ofNat 6 (fewestFree s v) } }) s

/-! ## Staleness (R256, R389) -/

/-- Why a version of a draft cannot run now. -/
def staleNow (s : State) (v : Version) : Bool :=
  !v.points.getLsbD s.loom.clock.current.toNat
    || (v.warp && (!s.loom.chain.locked || (setBits 4 v.warpMask.toNat).any (fun m =>
        !(warpOf s m).locked || (warpOf s m).lat.toNat != (v.warpLat[m]?).getD 0)))

/-- The state a draft with no load or cold swap in progress reads. -/
def restState (s : State) (d : Draft) : DraftState :=
  if d.damaged then .damaged
  else match d.resident with
    | none => .damaged
    | some v => if staleNow s v then .stale else if d.next.isSome then .swapPending else .resident

def isLive (d : Draft) : Bool := d.st == .resident || d.st == .swapPending || d.st == .stale

/-- The same between two boundaries: a STALE draft stays so until the next one (R389). -/
def midState (s : State) (d : Draft) : DraftState :=
  if (d.st == .stale || d.stopped) && restState s d != .damaged then .stale else restState s d

/-- A change of every draft that holds an id. -/
def onDrafts (f : Nat → Draft → Draft) : State → State := onLoom (fun l => { l with
  drafts := l.drafts.map (fun e => (e.1, f e.1 e.2)) })

/-- Whether a draft has a version and a cause of R389, or of R256, to be stale. -/
def staleDraft (s : State) (d : Draft) : Bool :=
  match d.resident with
  | some v => staleNow s v
  | none => false

/-- A cause of R389 arises: the drafts it concerns read STALE at once. -/
def markStale (s : State) : State :=
  onDrafts (fun _ d => if isLive d && staleDraft s d then { d with st := .stale } else d) s

/-- STALE and RESIDENT at a repeat boundary and at a restart, from which the entries of a stale draft idle (R23, R256, R389). A draft
under a cold swap reads COLD meanwhile, and its old version stops as any other does (log 26). -/
def refreshStale (s : State) : State := onDrafts (fun _ d =>
  { d with st := if isLive d then restState s d else d.st, stopped := !d.damaged && staleDraft s d }) s

/-! ## Verify (R248) -/

/-- Pages a load may count on: free ones, and for COLD those of the resident version. -/
def pagesFor (s : State) (d : Draft) (mode : LoadMode) (t : Nat) : Nat :=
  (freePages s t).length + (if mode = .cold then (match d.resident with | some v => (pagesOn v t).length | none => 0) else 0)

def badWarp (s : State) (part : Part) (v : Version) : Bool :=
  (setBits 4 v.warpMask.toNat).any (fun m => !part.warp.getLsbD m || !(warpOf s m).locked
    || (warpOf s m).lat.toNat != (v.warpLat[m]?).getD 0)

/-- Checks 1 to 12 in order; 0 where all pass. -/
def verifyHeader (s : State) (ld : Load) : Byte :=
  let h := ld.header
  let v := parseVersion h
  let d := draftOf s ld.id
  let part := partOf s ld.tenant
  let mine := d.st != .empty && d.tenant == ld.tenant
  let samePts := (setBits 5 v.points.toNat).length
  if leAt h 0 4 ≠ 0x4D445246 then 0x01
  else if badHeaderFormat h then 0x02
  else if (if ld.mode = .fresh then d.st != .loading || d.tenant != ld.tenant else !mine) then 0x03
  else if !part.en || 16 < v.row0 + v.rows || 16 < v.col0 + v.cols
      || !(versionTiles v).all (inRect part.row0 part.col0 part.rows part.cols) then 0x04
  else if !(versionTiles v).all (tileGood s) then 0x05
  else if (v.banks &&& ~~~ part.banks) ≠ 0 then 0x06
  else if (setBits 16 v.engines.toNat).any (fun r => !inVersion v (16 * r + 15)) then 0x07
  else if !v.points.getLsbD s.loom.clock.point.toNat || (v.warp && decide (1 < samePts)) then 0x08
  else if badWarp s part v then 0x09
  else if ld.mode ≠ .fresh && (match d.resident with | some r => r.tag == v.tag | none => false) then 0x0A
  else if ld.mode = .hot && (match d.resident with | some r => decide (r.passLc < v.passLc) | none => false) then 0x0B
  else if (versionTiles v).any (fun t => decide (pagesFor s d ld.mode t < v.npages)) then 0x0C
  else 0

/-! ## The structure walk (R234 to R238, R248) -/

/-- A bundle's bits. -/
def bundleAt (prog : List Byte) (i : Nat) : Nat := ofLe (slice prog (64 * i) 64)

def bankFields (b : Nat) : List Nat := ((span 0 4).map (fun k => field b (256 + 32 * k) 32)).filter (bitOf · 0)
def bankOf (f : Nat) : Nat := field f 2 4

/-- The smallest spacing a MAC or CORR asks of its neighbours (R236, R291); 0 for any other MXU operation. -/
def macSpacing (b : Nat) : Nat :=
  let op := field b 32 4
  let w := field b 36 4
  let a := field b 40 4
  let in2 := fun x lo => x == lo || x == lo + 1
  if op = 5 then 2 else if op ≠ 3 then 0
  else if in2 w 8 && in2 a 8 then 2 else if in2 w 10 && in2 a 10 then 4 else 1

/-- First hop of X-then-Y routing; `none` to the tile itself (R237). -/
def firstHop (a b : Nat) : Option Dir :=
  if a % 16 < b % 16 then some .e else if b % 16 < a % 16 then some .w
  else if a / 16 < b / 16 then some .s else if b / 16 < a / 16 then some .n else none

/-- The warp module at an attachment tile, with its direction (R375). -/
def warpAt (t : Nat) : Option (Nat × Dir) :=
  if t = 112 then some (0, .w) else if t = 128 then some (1, .w) else if t = 127 then some (2, .e)
  else if t = 143 then some (3, .e) else none

def warpTile (m : Nat) : Nat := if m = 0 then 112 else if m = 1 then 128 else if m = 2 then 127 else 143
def warpDir (m : Nat) : Dir := if m < 2 then .w else .e

/-- A MESH field that breaks the structure check. -/
def badMesh (v : Version) (t : Nat) (dir : Dir) (f : Nat) : Bool :=
  let dest := field f 5 8
  let target := field f 13 3
  if !bitOf f 0 then false
  else if !inVersion v dest then true
  else if target = 1 then t % 16 != 15 || !v.engines.getLsbD (t / 16) || dir != .e
  else if target = 2 then
    match warpAt dest with
    | none => true
    | some (m, wd) => !v.warpMask.getLsbD m || dir != (firstHop t dest).getD wd
  else firstHop t dest != some dir

/-- A bundle that fails by itself. -/
def badBundle (v : Version) (t b : Nat) : Bool :=
  let ks := (bankFields b).map bankOf
  let meshes := [(Dir.n, 384), (.e, 416), (.s, 448), (.w, 480)]
  !decide ks.Nodup || ks.any (fun k => decide (9 < k) || !v.banks.getLsbD k)
    || meshes.any (fun m => badMesh v t m.1 (field b m.2 32))

/-- Bank accesses of lc `n` of the pass against the version's windows. -/
def hitsWindow (v : Version) (n b : Nat) : Bool :=
  (bankFields b).any (fun f => (windowsAt v n).any (fun w => w.banks.getLsbD (bankOf f)))

/-- The walk of one tile program by its control operations: `n` is the lc of the next bundle, `loops` the open loops with the
bundle each body starts at and the iterations left, `last` the lc and spacing of the last MAC or CORR. It answers whether the
program passes. -/
def walk (v : Version) (t : Nat) (prog : List Byte) : Nat → Nat → Nat → List (Nat × Nat) → Option (Nat × Nat) → Bool
  | 0, _, _, _, _ => false
  | fuel + 1, pc, n, loops, last =>
    if prog.length ≤ 64 * pc then false
    else
      let b := bundleAt prog pc
      let op := field b 0 4
      let sp := macSpacing b
      let close := match last with
        | some (m, k) => sp != 0 && decide (n < m + max k sp)
        | none => false
      let last' := if sp = 0 then last else some (n, sp)
      if op = 3 then
        if b / 2 ^ 32 ≠ 0 then false else walk v t prog fuel (pc + 1) (n + field b 4 20 + 1) loops last
      else if 5 < op || badBundle v t b || hitsWindow v n b || close then false
      else if op = 4 then loops.isEmpty && decide (n + 49 = v.passLc)
      else if op = 1 then
        if 4 ≤ loops.length then false
        else walk v t prog fuel (pc + 1) (n + 1) ((pc + 1, field b 4 20 + 1) :: loops) last'
      else if op = 2 then
        match loops with
        | [] => false
        | (at_, k) :: rest =>
          if 1 < k then walk v t prog fuel at_ (n + 1) ((at_, k - 1) :: rest) last'
          else walk v t prog fuel (pc + 1) (n + 1) rest last'
      else walk v t prog fuel (pc + 1) (n + 1) loops last'

/-- The structure check of a tile program. -/
def goodStructure (v : Version) (t : Nat) (prog : List Byte) : Bool :=
  v.windows.all (fun w => decide (w.start + w.len ≤ v.passLc)) && walk v t prog v.passLc 0 0 [] none

/-- Byte address in the draft stores of byte `o` of a version's program on a tile. -/
def storeAddr (v : Version) (t o : Nat) : Nat :=
  Config.storeBytes * t + Config.pageBytes * (((pagesOn v t)[o / Config.pageBytes]?).getD 0) + o % Config.pageBytes

/-- A version's program as a tile's draft store holds it. -/
def storedProgram (s : State) (v : Version) (t : Nat) : List Byte :=
  (pagesOn v t).flatMap (fun p => mread s.loom.store (Config.storeBytes * t + Config.pageBytes * p) Config.pageBytes)

/-! ## The end of a load (R248, R250, R251, R270) -/

def setVerify (result : Byte) (tile : Nat) : State → State := onLoom (fun l => { l with
  verify := { l.verify with result := result, busy := false, tile := BitVec.ofNat 8 tile }
  load := none, reads := l.reads.filter (fun r => match r.what with | .image _ => false | _ => true) })

/-- Admitted jobs of a draft that have not ended. -/
def jobsOfDraft (s : State) (d : Nat) : Bool :=
  s.loom.jobs.any (fun j => j.ended.isNone && j.kind == .run && j.draft == d)

/-- What becomes of the id when its load fails. -/
def failDraft (ld : Load) (s : State) : State :=
  let d := draftOf s ld.id
  match ld.mode with
  | .unload => s
  | .fresh => if d.st = .loading && d.tenant = ld.tenant then putDraft ld.id .init (freeVersion ld.id ld.version s) else s
  | .hot =>
    if ld.version.isSome then
      let s1 := freeVersion ld.id d.next s
      let d1 := { d with next := none, reported := none }
      putDraft ld.id (if isLive d1 then { d1 with st := midState s1 d1 } else d1) s1
    else s
  | .cold =>
    if d.st = .cold && d.tenant = ld.tenant then
      if d.freed then
        putDraft ld.id { d with st := .damaged, damaged := true, next := none, reported := none, freed := false }
          (freeVersion ld.id d.next s)
      else putDraft ld.id { d with st := midState s d } s
    else s

/-- The load ends with a RESULT, reported to its tenant by LOAD_DONE (R348). -/
def endLoad (ld : Load) (result : Byte) (tile : Nat) (s : State) : State :=
  let s1 := setVerify result tile (if result = verOk then s else failDraft ld s)
  sendEvent ld.tenant evLoadDone ld.id result.toNat [] s1

/-- A load in progress is abandoned (R270, R367). -/
def abandonLoad (s : State) : State :=
  match s.loom.load with
  | none => s
  | some ld => endLoad ld verAbandoned 0 s

/-- A version gets its pages and becomes the id's next one. -/
def placeVersion (ld : Load) (v : Version) (s : State) : State :=
  let d := draftOf s ld.id
  let s1 := freeVersion ld.id (if ld.mode = .hot then d.next else none) s
  let v' := allotPages s1 v
  let s2 := markPages v' (ld.id + 1, ld.mode != .fresh) s1
  let s3 := onLoom (fun l => { l with load := some { ld with version := some v' } }) s2
  noteFree v' (if ld.mode = .fresh then s3
    else
      let d1 := { d with next := some v', reported := none }
      putDraft ld.id (if isLive d1 then { d1 with st := midState s3 d1 } else d1) s3)

/-- The header of 128 bytes has arrived (R248). -/
def headerArrived (ld : Load) (s0 : State) : State :=
  let code := verifyHeader s0 ld
  let v := parseVersion ld.header
  let s := if code ≠ 1 && code ≠ 2 && decide (v.row0 + v.rows ≤ 16) && decide (v.col0 + v.cols ≤ 16) then noteFree v s0 else s0
  if code ≠ 0 then endLoad ld code 0 s
  else if ld.mode = .cold && !(draftOf s ld.id).freed then
    onLoom (fun l => { l with load := some { ld with version := some v } }) s
  else placeVersion ld v s

/-- The window entries have arrived. -/
def windowsArrived (ld : Load) (s : State) : State :=
  if badWindowBytes ld.header then endLoad ld 0x02 0 s
  else
    let ws := (span 0 (leAt ld.header 0x19 1)).map (parseWindow ld.header)
    let s1 := onLoom (fun l => { l with load := some { ld with version := ld.version.map (fun v => { v with windows := ws }) } }) s
    let d := draftOf s ld.id
    if ld.mode = .fresh || (ld.mode = .cold && !d.freed) then s1
    else putDraft ld.id { d with next := d.next.map (fun v => { v with windows := ws }) } s1

/-- Image bytes a load may ask for now: the first 0x400 until its pages are assigned, the whole image from then. -/
def imageLimit (ld : Load) : Nat :=
  match ld.version with
  | none => 0x400
  | some v => if v.pages.isEmpty then 0x400 else imageLen v

/-- One row of the image is delivered from the fetch buffer (R248, R349). -/
def deliverRow (ld0 : Load) (s : State) : State :=
  let row := slice ld0.buffer 0 64
  let at_ := ld0.taken
  let ld : Load := { ld0 with
    buffer := ld0.buffer.drop 64, taken := at_ + 64
    header := if at_ < 0x400 then ld0.header ++ row else ld0.header
    crc := if 0x80 ≤ at_ then crc32cStep ld0.crc row else ld0.crc }
  let s1 := onLoom (fun l => { l with load := some ld }) s
  if ld.taken = 0x80 then headerArrived ld s1
  else if ld.taken = 0x400 then windowsArrived ld s1
  else if at_ < 0x400 then s1
  else match ld.version with
    | none => s1
    | some v =>
      let o := at_ - 0x400
      let per := v.npages * Config.pageBytes
      let t := ((versionTiles v)[o / per]?).getD 0
      let a := storeAddr v t (o % per)
      onLoom (fun l => { l with store := mwrite l.store a row, storeUp := clearUpsets l.storeUp (a / 8) 8 }) s1

/-- The load passes (R248): a NEW version is resident at once; a swap waits for its boundary. -/
def loadPassed (ld : Load) (v : Version) (s : State) : State :=
  let d := draftOf s ld.id
  let s1 := match ld.mode with
    | .fresh =>
      let d1 : Draft := { d with resident := some v, st := .resident }
      putDraft ld.id { d1 with st := restState s d1, stopped := restState s d1 == .stale } s
    | _ => putDraft ld.id { d with reported := some (lcOf s) } s
  endLoad ld verOk 0 s1

/-- A tile's program has been walked (R248). -/
def tileWalked (t : Nat) (s : State) : State :=
  match s.loom.load with
  | none => s
  | some ld =>
    match ld.version with
    | none => s
    | some v =>
      let per := v.npages * Config.pageBytes
      let tiles := versionTiles v
      if v.pages.isEmpty || !tiles.contains t || ld.walked.contains t || ld.taken < 0x400 + (tiles.idxOf t + 1) * per then s
      else if !goodStructure v t (storedProgram s v t) then endLoad ld 0x0E t s
      else
        let ld1 := { ld with walked := t :: ld.walked }
        let s1 := addTag ld.id v t (onLoom (fun l => { l with load := some ld1 }) s)
        if ld1.walked.length < tiles.length then s1
        else if (ld1.crc ^^^ 0xFFFFFFFF) ≠ leAt ld1.header 0x78 4 then endLoad ld1 0x0D 0 s1
        else loadPassed ld1 v s1

/-! ## Loads by L_DRAFT_LOAD (R247) -/

/-- GO is written: the load starts, or OVERRUN is set. FREE_MIN reads 0 until the load's header has given a rectangle in the mesh
(log 39). -/
def startLoad (mode : LoadMode) (id tenant : Nat) (s : State) : State :=
  let v := s.loom.verify
  if v.busy then onLoom (fun l => { l with verify := { l.verify with overrun := true } }) s
  else
    let ld : Load :=
      { id := id, tenant := tenant, mode := mode, addr := s.loom.draftAddr.toNat, asked := 0, buffer := [], header := []
        taken := 0, crc := 0xFFFFFFFF, version := none, walked := [] }
    let s1 := onLoom (fun l => { l with
      verify := { l.verify with result := 0xFF, busy := true, id := BitVec.ofNat 10 id, tile := 0, freeMin := 0 }
      load := some ld }) s
    let d := draftOf s id
    let mine := d.st != .empty && d.st != .loading && d.tenant == tenant
    match mode with
    | .unload =>
      if mine then endLoad ld verOk 0 (putDraft id { d with unloading := true } s1) else endLoad ld 0x03 0 s1
    | .fresh => if d.st = .empty then putDraft id { d with st := .loading, tenant := tenant } s1 else s1
    | .hot => s1
    | .cold => if mine then putDraft id { d with st := .cold, freed := false } s1 else s1

/-- The loom asks the host for the next rows of the image (R247, R334, R349): at most three rows of one 4 KiB page, at L0. -/
def fetchImage (rows : Nat) (s : State) : State :=
  match s.loom.load with
  | none => s
  | some ld =>
    let at_ := ld.addr + ld.asked
    let n := min (min rows 3) (min ((4096 - at_ % 4096) / 64)
      (min ((imageLimit ld - ld.asked) / 64) ((262144 - (ld.asked - ld.taken)) / 64)))
    if s.pwr.st ≠ .l0 || ld.mode = .unload || n = 0 then s
    else
      let tag := s.loom.nextTag
      let m := moduleFor s ld.tenant
      let r : DevRead :=
        { tag := tag, mod := m, tenant := ld.tenant, what := .image (64 * n), addr := at_, len := 64 * n, got := none }
      let s1 := onLoom (fun l => { l with
        nextTag := (tag + 1) % 4096, load := some { ld with asked := ld.asked + 64 * n }, reads := l.reads ++ [r] }) s
      enqueue { kind := .read, addr := at_, data := [], len := 64 * n, tag := tag, tenant := ld.tenant, what := .image } s1

/-! ## Boundaries (R250 to R252) -/

/-- A swap takes effect (R250, R251 step 5). -/
def swapDraft (id : Nat) (s : State) : State :=
  let d := draftOf s id
  match d.next with
  | none => s
  | some v =>
    let s1 := markPages v (id + 1, false) (freeVersion id d.resident s)
    let cold := d.freed
    let d1 : Draft := { d with resident := some v, next := none, reported := none, freed := false
                               damaged := d.damaged && !cold }
    let st := if d.st = .cold && !cold then DraftState.cold else restState s1 d1
    sendEvent d.tenant evSwapDone id v.tag.toNat [] (putDraft id { d1 with st := st } s1)

/-- Swaps whose tiles all reported at least 64 lc before the boundary at lc `b`, and those that had all reported before an entry to
L2, which an exit marks with 0 (R250, R269). -/
def swapsAt (b : Nat) (s : State) : State :=
  (s.loom.drafts.filter (fun e => match e.2.reported with | some r => r == 0 || decide (r + 64 ≤ b) | none => false)).foldl
    (fun s e => swapDraft e.1 s) s

/-- The exit from L2: swaps whose tiles had all reported take effect at the next boundary (R269). -/
def waiveWaits : State → State := onDrafts (fun _ d => { d with reported := d.reported.map (fun _ => 0) })

/-- A cold swap's old pages are freed at the first boundary with no admitted job of the draft (R251 step 3). -/
def freeColds (s : State) : State :=
  (s.loom.drafts.filter (fun e => e.2.st == .cold && !e.2.freed && !jobsOfDraft s e.1)).foldl (fun s e =>
    let d := draftOf s e.1
    let s1 := freeVersion e.1 d.next (freeVersion e.1 d.resident s)
    let s2 := putDraft e.1 { d with resident := none, next := none, reported := none, freed := true } s1
    match s2.loom.load with
    | some ld => if ld.id = e.1 && ld.mode = .cold then
        (match ld.version with | some v => placeVersion ld v s2 | none => s2) else s2
    | none => s2) s

/-- Whether an entry of the installed weave names a draft. -/
def weaveNames (s : State) (d : Nat) : Bool :=
  s.loom.weave.active.any (fun e => isDraftEntry e.2 && e.2.id == d)

/-- A load of an id that has just been freed: a NEW takes the id, and any other finds it no more the tenant's (R247, R248, log 26). -/
def loadOfFreed (id : Nat) (s : State) : State :=
  match s.loom.load with
  | none => s
  | some ld =>
    if ld.id ≠ id then s
    else if ld.mode = .fresh then putDraft id { Draft.init with st := .loading, tenant := ld.tenant } s
    else endLoad ld 0x03 0 s

/-- An unloaded id is freed at the first boundary with no job and no weave entry of it (R252). -/
def freeUnloads (s : State) : State :=
  (s.loom.drafts.filter (fun e => e.2.unloading && !jobsOfDraft s e.1 && !weaveNames s e.1)).foldl (fun s e =>
    let d := draftOf s e.1
    loadOfFreed e.1 (putDraft e.1 .init (freeVersion e.1 d.next (freeVersion e.1 d.resident s)))) s

def draftStateCode : DraftState → Nat
  | .empty => 0
  | .loading => 1
  | .resident => 2
  | .swapPending => 3
  | .cold => 4
  | .stale => 5
  | .damaged => 6

end Sys2Proof.Machine
end

