-- ==== Sys2Proof/Machine/Bundle.lean ====
section
/-!
DEFINITION. The bundle a tile issues: how its 512 bits split into the fields of CTL, MXU, VEC, QNT, BANK and MESH, and when one of them
issues (R233 to R235, R237, R239, R287, R294, R295, R303, R306).
-/

namespace Sys2Proof.Machine

/-! ## The bundle (R233) -/

/-- The number of the bundle a tile issues in this lc. -/
def bundlePc (s : State) (y : Tile) : Nat :=
  match heldNow s y with
  | some h => h.pc
  | none => y.pc

/-- The address counters as the bundle of this lc finds them. -/
def bundleCnt (s : State) (y : Tile) : Sparse Byte :=
  match heldNow s y with
  | some h => h.cnt
  | none => y.cnt

/-- The 512 bits of bundle `pc` of a pass on a tile, as its draft store holds them. -/
def storedBundle (s : State) (x : Slot) (t pc : Nat) : Nat :=
  match slotVersion s x with
  | none => 0
  | some v => ofLe (peekRow s.loom.store s.loom.storeUp (storeAddr v t (64 * pc)) 64)

/-- The bundle a tile issues in this lc. -/
def bundleNow (s : State) (x : Slot) (t : Nat) : Nat := storedBundle s x t (bundlePc s (tileOf s t))

/-! ## Its fields -/

def ctlOp (b : Nat) : Nat := field b 0 4
def mxuWord (b : Nat) : Nat := field b 32 64
def mxuOp (b : Nat) : Nat := field b 32 4
def vecOpCode (b : Nat) : Nat := field b 96 6
def qntOp (b : Nat) : Nat := field b 192 4
def bankBits (b k : Nat) : Nat := field b (256 + 32 * k) 32
def meshWord (b d : Nat) : Nat := field b (384 + 32 * d) 32

/-- A BANKk field (R235). -/
def bankField (b k : Nat) : BankField :=
  let w := bankBits b k
  { port := BitVec.ofNat 2 k, bank := BitVec.ofNat 4 (field w 2 4), cnt := BitVec.ofNat 2 (field w 6 2)
    offset := BitVec.ofNat 8 (field w 8 8), unit := BitVec.ofNat 4 (field w 16 4) }

def dirCode : Dir → Nat
  | .n => 0
  | .e => 1
  | .s => 2
  | .w => 3

/-- A MESH field (R237). -/
def meshField (b : Nat) (d : Dir) : MeshField :=
  let w := meshWord b (dirCode d)
  { dir := d, src := BitVec.ofNat 4 (field w 1 4), dest := BitVec.ofNat 8 (field w 5 8), target := BitVec.ofNat 3 (field w 13 3) }

/-- The operands of a MAC (R287). -/
def macField (b : Nat) : MacField :=
  let m := mxuWord b
  { wfmt := BitVec.ofNat 4 (field m 4 4), afmt := BitVec.ofNat 4 (field m 8 4), acc := BitVec.ofNat 6 (field m 12 6)
    clr := bitOf m 18, zpm := BitVec.ofNat 2 (field m 19 2), zp := BitVec.ofNat 8 (field m 21 8)
    ar0 := BitVec.ofNat 4 (field m 29 4), ar1 := BitVec.ofNat 4 (field m 33 4), wh := bitOf m 37, ah := bitOf m 38
    asrc := BitVec.ofNat 3 (field m 39 3) }

/-- The VEC field (R294). -/
def vecField (b : Nat) : VecField :=
  let v := field b 96 96
  { d := BitVec.ofNat 5 (field v 6 5), a := BitVec.ofNat 5 (field v 11 5), b := BitVec.ofNat 5 (field v 16 5)
    c := BitVec.ofNat 5 (field v 21 5), type := BitVec.ofNat 3 (field v 26 3), rna := bitOf v 29
    part := BitVec.ofNat 2 (field v 30 2), imm := BitVec.ofNat 32 (field v 32 32) }

/-- The QNT field (R306). -/
def qntField (b : Nat) : QntField :=
  let q := field b 192 64
  { site := BitVec.ofNat 4 (field q 4 4), vreg := BitVec.ofNat 5 (field q 8 5), half := bitOf q 13, step := bitOf q 14
    x := bitOf q 15, src := BitVec.ofNat 3 (field q 16 3), obf := bitOf q 19, ar := BitVec.ofNat 4 (field q 20 4)
    imm := BitVec.ofNat 32 (field q 32 32) }

/-! ## Issue (R233, R239) -/

/-- The twelve fields of a bundle: CTL, MXU, VEC, QNT, BANK0 to 3, MESH N, E, S, W. -/
def fieldCtl : Nat := 0
def fieldMxu : Nat := 1
def fieldVec : Nat := 2
def fieldQnt : Nat := 3
def fieldBank (k : Nat) : Nat := 4 + k
def fieldMesh (d : Dir) : Nat := 8 + dirCode d

/-- A field of a tile's bundle, as the issue book keys it. -/
def issueKey (t k : Nat) : Nat := 12 * t + k

/-- Each field of a bundle issues once in an lc. -/
def hasIssued (s : State) (t k : Nat) : Bool := s.loom.issued.contains (issueKey t k, lcOf s)

def noteIssued (t k : Nat) (s : State) : State := onLoom (fun l => { l with
  issued := (issueKey t k, lcOf s) :: l.issued.filter (fun e => decide (lcOf s ≤ e.2)) }) s

/-- Field `k` of the bundle that a tile issues in this lc issues, where the bundle's bits spell the operation with the operands that the
command names. Where the tile issues nothing, the field has issued, or it spells another operation or other operands, nothing happens
(log 35). -/
def issueOn (t k : Nat) (spells : Nat → Bool) (f : Nat → Slot → State → State) (s : State) : State :=
  match issuing s t with
  | none => s
  | some x =>
    let b := bundleNow s x t
    if spells b && !hasIssued s t k then f b x (settleOn t (noteIssued t k s)) else s

/-- A control operation of a bundle issues; `names` tests the operands (R234). -/
def issueCtl (op t : Nat) (names : Nat → Bool) (f : Slot → State → State) : State → State :=
  issueOn t fieldCtl (fun b => ctlOp b == op && names b) (fun _ => f)
/-- An MXU operation of a bundle issues; `names` tests the operands (R287). -/
def issueMxu (op t : Nat) (names : Nat → Bool) (f : Slot → State → State) : State → State :=
  issueOn t fieldMxu (fun b => mxuOp b == op && names b) (fun _ => f)
/-- The VEC operation of a bundle issues with the operands `v` (R295). -/
def issueVec (op t : Nat) (v : VecField) (f : Slot → State → State) : State → State :=
  issueOn t fieldVec (fun b => vecOpCode b == op && vecField b == v) (fun _ => f)
/-- The QNT operation of a bundle issues with the operands `q` (R306). -/
def issueQnt (op t : Nat) (q : QntField) (f : Slot → State → State) : State → State :=
  issueOn t fieldQnt (fun b => qntOp b == op && qntField b == q) (fun _ => f)

end Sys2Proof.Machine
end

