-- ==== Sys2Proof/Machine/Links.lean ====
section
/-!
DEFINITION. Power and LINK resets of the six link modules (R35, R154, R157, R336, R365, R396, R399).
-/

namespace Sys2Proof.Machine

def isPowered (s : State) (m : Nat) : Bool := s.pwr.powered.getLsbD m
def isTrained (s : State) (m : Nat) : Bool :=
  if m < 2 then (weftOf s m).trained else (warpOf s (m - 2)).locked

/-! ## LINK reset of a weft module (R336, R365) -/

/-- Flits the device keeps over a retrain, in their original order; answers to host READs are dropped (R336, R365). -/
def keptTxns (w : WeftModule) : List DevTxn := (w.replay.map (·.2)).filter isOwnTxn ++ w.resent.filter isOwnTxn

/-- What a device read asks of the host, sent again. -/
def readTxn (r : DevRead) : DevTxn :=
  { kind := .read, addr := r.addr, data := [], len := r.len, tag := r.tag, tenant := r.tenant
    what := match r.what with | .ring n _ => .fetch n | .image _ => .image | .checkpoint _ _ _ => .checkpoint }

/-- The module that carries a module's traffic after its LINK reset. -/
def otherOr (s : State) (m : Nat) : Nat := if (weftOf s (1 - m)).trained then 1 - m else m

/-- LINK reset of a weft module. Reads whose flits were acknowledged are issued again after the flits that are kept. -/
def resetWeft (m : Nat) (s : State) : State :=
  let s1 := discardQueue m s
  let w := weftOf s1 m
  let o := otherOr s1 m
  let kept := keptTxns w
  let queued := w.txq.filter isOwnTxn
  let again := s1.loom.reads.filter (fun r => r.mod == m && r.got.isNone
    && !(kept ++ queued).any (fun x => x.kind == .read && x.tag == r.tag))
  let s2 := putWeft m { WeftModule.init with
    retrains := w.retrains, dropped := w.dropped } s1
  let ow := weftOf s2 o
  let s3 := putWeft o { ow with
    resent := ow.resent ++ kept
    txq := ow.txq ++ queued ++ again.map readTxn } s2
  let s4 := onLoom (fun l => { l with reads := l.reads.map (fun r => if r.mod = m then { r with mod := o } else r) }) s3
  let s5 := pump o s4
  if loomReachable s5.pwr && !s5.pwr.drained then reportAllDropped s5 else s5

/-! ## LINK reset of a warp module (R396, R399) -/

/-- Training and lock are gone. A retrain keeps TRAIN, remembers the lock and trains again. -/
def resetWarp (m : Nat) (retrain : Bool) (s : State) : State :=
  let w := warpOf s m
  markStale (putWarp m (if retrain then { WarpModule.init with
      train := w.train, phase := if w.train then 1 else 0, rx := w.rx
      remembered := if w.locked then some w.lat else w.remembered }
    else { WarpModule.init with rx := w.rx }) s)

/-- A mark is dropped: it counts, and its module owes a fault notice (R386). -/
def dropMark (m id : Nat) (s : State) : State :=
  let w := warpOf s m
  putWarp m { w with missed := satAdd w.missed 1, txNotices := w.txNotices ++ [id] } s

/-- The marks of a tenant whose abort level is sampled (R386, R395). -/
def dropMarksOf (t : Nat) (s : State) : State :=
  [0, 1].foldl (fun s m =>
    let mine := fun (k : Mark) => (draftOf s k.id).tenant == t
    let gone := (warpOf s m).marks.filter mine
    gone.foldl (fun s k => dropMark m k.id s)
      (putWarp m { warpOf s m with marks := (warpOf s m).marks.filter (fun k => !mine k) } s)) s

def linkReset (m : Nat) (retrain : Bool) (s : State) : State :=
  if m < 2 then resetWeft m s else resetWarp (m - 2) retrain s

/-- A powered module lost training without a request (R92). -/
def linkDown (m : Nat) (s : State) : State :=
  let s1 := raise causeLinkDown (linkReset m true s)
  if m < 2 then putWeft m { weftOf s1 m with retrains := satAdd (weftOf s1 m).retrains 1 } s1 else s1

/-! ## G_LINK_REQ (R154) -/

/-- Turning a module off is a LINK reset and withdraws a held request. -/
def linkOffModule (m : Nat) (s : State) : State :=
  let s1 := onPwr (fun p => { p with
    linkReq := putBit p.linkReq m false, held := putBit p.held m false, powered := putBit p.powered m false }) s
  if isPowered s m then linkReset m false s1 else s1

def linkOnModule (m : Nat) (s : State) : State :=
  if s.pwr.linkReq.getLsbD m then s
  else onPwr (fun p => { p with linkReq := putBit p.linkReq m true, held := putBit p.held m true }) s

/-- G_LINK_REQ takes a new value. -/
def writeLinkReq (d : Word) (s : State) : State :=
  (span 0 6).foldl (fun s m =>
    if d.getLsbD m then linkOnModule m s else if s.pwr.linkReq.getLsbD m then linkOffModule m s else s) s

/-- A requested module is powered once VDD_PLL and VDD_LINK read high. -/
def powerModule (m : Nat) (s : State) : State :=
  if s.pwr.held.getLsbD m then
    let s1 := { s with mon := { s.mon with rails := { s.mon.rails with pll := true, link := true } } }
    onPwr (fun p => { p with powered := putBit p.powered m true, held := putBit p.held m false }) s1
  else s

/-- A powered module loses VDD_PLL or VDD_LINK. -/
def railLost (m : Nat) (pll : Bool) (s : State) : State :=
  let r := s.mon.rails
  let s0 := { s with mon := { s.mon with rails := if pll then { r with pll := false } else { r with link := false } } }
  if isPowered s m then
    let s1 := onPwr (fun p => { p with powered := putBit p.powered m false, held := putBit p.held m true }) s0
    raise causeLinkDown (linkReset m false s1)
  else s0

end Sys2Proof.Machine
end

