-- ==== Sys2Proof/Machine/Submission.lean ====
section
/-!
DEFINITION. A fetched submission: its fields, the tests of a RUN, and its answer (R319, R345, R354, R355, R408, R409).
-/

namespace Sys2Proof.Machine

/-! ## The entry (R345) -/

def entOp (b : List Byte) : Nat := leAt b 0 1
def entTag (b : List Byte) : DWord := BitVec.ofNat 64 (leAt b 8 8)
def entDraft (b : List Byte) : Nat := field (leAt b 2 2) 0 10
def entPasses (b : List Byte) : Nat := leAt b 4 2

/-- A res bit of a submission entry is set; the bits of ARG that its operation does not use are res. -/
def entRes (b : List Byte) : Bool :=
  let arg := leAt b 32 8
  leAt b 1 1 / 4 != 0 || leAt b 2 2 / 1024 != 0 || leAt b 6 2 != 0 || leAt b 28 1 / 16 != 0 || leAt b 30 1 / 16 != 0
    || (if entOp b = 2 then arg / 2 ^ 41 != 0 else if entOp b = 3 then arg / 256 != 0 else arg != 0)
    || (slice b 40 24).any (· != 0)

/-- Handles a RUN binds, with their sequences. -/
def entBinds (b : List Byte) : List (Nat × Nat) :=
  (setBits 4 (field (leAt b 28 1) 0 4)).map (fun k => (k, leAt b (24 + k) 1))

def entRow (b : List Byte) : Option (Nat × Nat × Nat) :=
  if bitOf (leAt b 1 1) 1 then some (leAt b 29 1, field (leAt b 30 1) 0 4, leAt b 31 1) else none

/-- DEADLINE where DL is set. -/
def entDeadline (b : List Byte) : Option Nat := if bitOf (leAt b 1 1) 0 then some (leAt b 16 8) else none

/-! ## The tests of a RUN (R354) -/

/-- A bound sequence that fails R319. -/
def badBind (s : State) (t q : Nat) : Bool := (seqOf s q).st != .opened || (seqOf s q).tenant != t

/-- A RUN that is malformed by what it names. -/
def badRun (s : State) (t : Nat) (b : List Byte) : Bool :=
  let d := draftOf s (entDraft b)
  entPasses b == 0 || (d.st != .empty && d.tenant != t) || (entBinds b).any (fun h => badBind s t h.2)
    || (match entRow b, d.resident with
        | some (tile, bank, _), some v => !inVersion v tile || !v.banks.getLsbD bank
        | _, _ => false)

/-- Tests 1 to 7: the refusal code, if one applies. -/
def runRefusal (s : State) (t : Nat) (b : List Byte) : Option Nat :=
  let d := draftOf s (entDraft b)
  if (tenantOf s t).blocked then some 0x15
  else if (tenantOf s t).faulted then some 0x20
  else if entOp b ≠ 1 || entRes b || badRun s t b then some 0x20
  else if d.st = .cold || d.unloading then some 0x16
  else if d.st = .empty || d.st = .loading || d.st = .stale || d.st = .damaged then some 0x13
  else match d.resident with
    | none => some 0x13
    | some v =>
      if !(versionTiles v).all (tileGood s) then some 0x14
      else if isFollower s (entDraft b) || (draftStarts s (entDraft b)).isEmpty then some 0x12
      else none

/-- What a refusal or an immediate answer writes. -/
def entRecord (f : Fetched) (code id promise : Nat) (result : List Byte) : Rec :=
  { tenant := f.ring / 4, code := code
    flags := (if f.esc then 4 else 0) + (if f.ring % 4 = 3 then 8 else 0)
    id := id, subidx := f.index, tag := entTag f.bytes, promise := promise, result := result, ran := 0 }

/-- A job enters the table with its bookings. -/
def admitRun (f : Fetched) (occ : List Nat) (promise : Nat) (s : State) : State :=
  let b := f.bytes
  let t := f.ring / 4
  let j : Job :=
    { order := f.order, tenant := t, kind := .run, esc := f.esc, draft := entDraft b, passes := entPasses b, ran := 0
      tag := entTag b, subidx := f.index, promise := promise, binds := entBinds b, resAt := entRow b, result := []
      booked := occ, recordAt := 0, ending := none, cut := false, silent := false, ended := none
      poisoned := false, degraded := false, breached := false, ckpt := none }
  loomTally 0x58 (some t) (if f.esc then 1 else 0)
    (loomTally 0x40 (some t) 1 (bookRun (entDraft b) occ (onJobs (fun js => js ++ [j]) s)))

/-- The answer of a RUN: its code, and the machine after it. -/
def answerRun (f : Fetched) (s : State) : Nat × State :=
  let b := f.bytes
  let t := f.ring / 4
  match runRefusal s t b with
  | some code => (code, answerNow (entRecord f code (entDraft b) 0 []) s)
  | none =>
    let occ := occurrences s (entDraft b) (lcOf s + 64) (entPasses b)
    let r := (occ.getLast?.getD 0) + ((residentPass s (entDraft b)).getD 0) + 16
    let p := promiseAt s (lcOf s) r
    if (match entDeadline b with | some d => decide (d < p) | none => false) then
      (0x10, answerNow (entRecord f 0x10 (entDraft b) p []) s)
    else (0, admitRun f occ p s)

/-- The escalation logic is owed an escalation entry's answer (R409). -/
def noteAnswer (code : Nat) (s : State) : State := { s with esc := { s.esc with answerDue := some (BitVec.ofNat 8 code) } }

def runFront (f : Fetched) (s : State) : State :=
  let a := answerRun f s
  if f.esc then noteAnswer a.1 a.2 else a.2

/-- A fetched escalation entry of a tenant that `p` names is answered before what it was fetched for is reset (R410). -/
def answerEscOf (p : Nat → Bool) (s : State) : State :=
  match s.loom.fetched.find? (fun f => f.esc && p (f.ring / 4)) with
  | none => s
  | some f => runFront f (onLoom (fun l => { l with fetched := l.fetched.filter (fun g => g.order != f.order) }) s)

end Sys2Proof.Machine
end

