-- ==== Sys2Proof/Machine/Power.lean ====
section
/-!
DEFINITION. The loom's power states: the ordering point, moves, exits, drains, resets and losses (R43 to R47, R83, R150 to R163).
-/

namespace Sys2Proof.Machine

/-! ## Moves (R150 to R153, R161) -/

/-- Admitted work that has not ended (R152). A checkpoint is in progress until its record is written (R256, R437). -/
def workLeft (s : State) : Bool := s.loom.jobs.any (fun j => j.ended.isNone || isCkpt j)

/-- The loom begins a LOOM reset: its work is flagged, its load and an unfetched escalation end, and the drain starts (R156). -/
def startReset (s : State) : State :=
  let s1 := escLoomLost (abandonLoad (flagJobs (fun _ => true) 0x23 false s))
  onPwr (fun p => { p with stage := .drain true, drained := true, resetOwed := false, reqReset := true }) s1

/-- The loom leaves L3 when the exit conditions allow, rises one step, or waits for LSRAM (R43, R150, R256). -/
def riseOrHold (dest : LoomState) (s : State) : State :=
  if s.pwr.st = .l2 && s.mon.rails.lsram ≠ 2 then
    raise causeLsramLow (onPwr (fun p => { p with stage := .lsramHold dest }) s)
  else onPwr (fun p => { p with stage := .move dest }) s

/-- A move down, once nothing holds it (R152, R159). -/
def fall (s : State) : State :=
  onPwr (fun p => if p.target = .l3 then { p with stage := .drain false, drained := true } else { p with stage := .move p.target }) s

/-- Whether the target lies below the present state. -/
def targetBelow (p : Power) : Bool := decide (loomStateCode p.st < loomStateCode p.target)

/-- The mesochronous domains stop and the PLL relocks at the point that POINT holds (R256). -/
def startRelock (s : State) : State :=
  let s1 := onLoom (fun l => { l with
    clock := { l.clock with relocking := true, lockPoint := l.clock.point }
    weave := { l.weave with slots := [], repDue := true, rep0 := lcOf s } }) s
  { s1 with mon := { s1.mon with pllLock := false } }

/-- Whether a pending point change begins now: at L1 at once, at L0 where no repeat is walked and no work is left (R256). -/
def relockNow (s : State) : Bool :=
  s.loom.clock.pending && !s.loom.clock.relocking
    && (s.pwr.st == .l1 || (s.pwr.st == .l0 && !walking s.loom.weave && !workLeft s))

/-- Whether a step is in progress that a RESET or a new target waits for (R161). -/
def stepInProgress (s : State) : Bool :=
  s.loom.clock.relocking || inExitPhases s.pwr
    || (match s.pwr.stage with | .move _ => true | .drain false => true | _ => false)

/-- An exit from L3 holds for its rails and for LREFCLK; VDD_LSRAM below run level raises LSRAM_LOW (R43, R44, R471). -/
def holdExit (s : State) : State :=
  let s1 := onPwr (fun p => { p with stage := .exitHeld }) s
  if s.mon.rails.lsram ≠ 2 then raise causeLsramLow s1 else s1

/-- From a steady state: the target is reached, or the next step begins. A move down from L0 or L1 waits for its repeat
boundary; where no weave is walked it begins once no work is left. -/
def advance (s : State) : State :=
  let p := s.pwr
  if p.stage ≠ .steady then s
  else if relockNow s then startRelock s
  else if p.resetOwed && p.st ≠ .l3 && !s.loom.clock.relocking then startReset s
  else if p.st = p.target then onPwr (fun p => { p with reached := true }) s
  else if p.st = .l3 then holdExit s
  else if s.loom.clock.relocking then s
  else if targetBelow p then
    if p.st = .l2 || (!walking s.loom.weave && !workLeft s && !s.loom.clock.pending) then fall s else s
  else if p.st = .l2 then riseOrHold .l1 s
  else riseOrHold .l0 s

/-- A step in progress, as G_LOOM_STATE.MOVING shows it: the moves, an exit's phases, and a LOOM reset from the end of its drain
on. An exit that is held, for its rails or for LSRAM, and a drain read 0 (log 39). -/
def isMoving (p : Power) : Bool :=
  match p.stage with
  | .steady => false
  | .exitHeld => false
  | .lsramHold _ => false
  | .drain _ => false
  | _ => true

/-! ## The ordering point (R83, R160) -/

/-- What a new target brings with it: submissions stop, a load is abandoned, CUT ends the admitted work, and L3 ends an
unfetched escalation (R152, R270, R415). -/
def newTarget (t : LoomState) (byHost : Bool) (tenant : Nat) (s : State) : State :=
  let was := s.pwr.target
  let s1 := onPwr (fun p => { p with
    target := t, byHost := byHost, hostTenant := BitVec.ofNat 8 tenant, reached := false }) s
  let s2 := if was = .l0 && t ≠ .l0 then abandonLoad s1 else s1
  let s3 := if !byHost && s.pwr.reqCut && t ≠ .l0 then flagCut s2 else s2
  let s4 := if t = .l3 then escLoomLost s3 else s3
  advance s4

/-- A held exit from L2 follows a target that no longer asks for it. -/
def releaseHold (s : State) : State :=
  match s.pwr.stage with
  | .lsramHold _ => onPwr (fun p => { p with stage := .steady }) s
  | _ => s

/-- The pseudocode's apply. -/
def applyTarget (t : LoomState) (byHost : Bool) (tenant : Nat) (s : State) : State :=
  let p := s.pwr
  if t = p.target then s
  else
    let s1 := if !p.reached && p.byHost != byHost then
        conflictState (if p.byHost then .host else .gate) 1 p.hostTenant.toNat (loomStateCode p.target) s
      else s
    newTarget t byHost tenant (releaseHold s1)

/-- The gate-side request of this lc: G_LOOM_REQ, or a bell wake while the target is L1 or L2 (R160). -/
def gateRequest (p : Power) : Option LoomState :=
  match p.gateReq with
  | some t => some t
  | none => if p.bellWake && (p.target == .l1 || p.target == .l2) then some .l0 else none

/-- One lc of the ordering point. -/
def orderRequests (s : State) : State :=
  let g := gateRequest s.pwr
  let h := s.pwr.weftReqs.head?
  let bell := s.pwr.gateReq.isNone && g.isSome
  let s1 := onPwr (fun p => { p with
    gateReq := none, bellWake := false, weftReqs := p.weftReqs.tail
    gateLast := if bell then 0 else p.gateLast }) s
  let s2 := match g with
    | some t => applyTarget t false 0 s1
    | none => s1
  match h with
  | none => s2
  | some (t, ten, _) =>
    if s2.pwr.target = .l3 then conflictState .host 2 ten.toNat (loomStateCode t) s2
    else if g.isSome && g != some t then conflictState .host 0 ten.toNat (loomStateCode t) s2
    else applyTarget t true ten.toNat s2

/-- A die at position 0 locks its chain once SDELAY is set (R382). -/
def lockHead (s : State) : State :=
  if s.pwr.chainPos = 0 && s.loom.chain.sdelay ≠ 0 && !s.loom.chain.locked
      && (s.pwr.st == .l0 || s.pwr.st == .l1) && !s.loom.clock.relocking then
    onLoom (fun l => { l with chain := { l.chain with locked := true } }) s
  else s

/-! ## Gate requests (R44, R155, R156, R158, R160, R161) -/

/-- G_LOOM_REQ.TARGET as a request. At L3 it acts at its commit edge; in an exit's phases the target follows it, and L3
withdraws the exit until phase 4; elsewhere the ordering point samples it. -/
def gateTarget (t : LoomState) (s : State) : State :=
  let s0 := onPwr (fun p => { p with bellWake := false, gateLast := BitVec.ofNat 2 (loomStateCode t) }) s
  let set := fun (st : Stage) (s : State) =>
    let s1 := onPwr (fun p => { p with target := t, byHost := false, reached := t == .l3, stage := st }) s
    if t = .l3 then escLoomLost s1 else s1
  match s.pwr.st, s.pwr.stage with
  | .l3, .exitPhase n _ => set (.exitPhase n (decide (n < 4) && t == .l3)) s0
  | .l3, _ => if t = .l3 then set .steady s0 else holdExit (set .exitHeld s0)
  | _, _ => onPwr (fun p => { p with gateReq := some t }) s0

/-- Whether a LOOM reset runs or waits. -/
def resetRuns (p : Power) : Bool :=
  p.resetOwed || (match p.stage with
    | .drain true => true
    | .resetHold => true
    | .resetMove => true
    | .resetPhase _ => true
    | _ => false)

/-- G_LOOM_REQ.RESET: not at L3 unless an exit is in its phases, and not while the target is L3 (R156, R161). -/
def gateLoomReset (s : State) : State :=
  if s.pwr.target = .l3 || (s.pwr.st = .l3 && !inExitPhases s.pwr) || resetRuns s.pwr then s
  else if stepInProgress s then onPwr (fun p => { p with resetOwed := true, reqReset := true }) s
  else startReset s

/-- G_LOOM_REQ.TRESET (R156, R163). -/
def gateTreset (t : Nat) (s : State) : State :=
  if s.pwr.st = .l3 && !inExitPhases s.pwr then s
  else
    if s.pwr.st = .l3 || resetRuns s.pwr then onPwr (fun p => { p with reqTreset := true, tresetFor := [] }) s
    else requestTenantReset t true (onPwr (fun p => { p with reqTreset := true, tresetFor := insRising t p.tresetFor }) s)

/-- G_LOOM_REQ takes a new value (R168). -/
def writeLoomReq (d : Word) (s : State) : State :=
  let n := d.toNat
  let s1 := onPwr (fun p => { p with
    reqTarget := BitVec.ofNat 2 (field n 0 2), reqCut := bitOf n 2, reqTenant := BitVec.ofNat 8 (field n 8 8) }) s
  let s2 := if bitOf n 3 then gateLoomReset s1 else s1
  let s3 := if bitOf n 16 then gateTreset (field n 8 8) s2 else s2
  gateTarget (loomStateOf (field n 0 2)) s3

/-- Requests keep the order of their lc; of two of one lc module 0's is first (R363). -/
def queueReq (r : LoomState × Byte × Nat) : List (LoomState × Byte × Nat) → List (LoomState × Byte × Nat)
  | [] => [r]
  | x :: xs => if r.2.2 < x.2.2 then r :: x :: xs else x :: queueReq r xs

/-- A host request for L0, L1 or L2, on a module (R83, R158, R343). -/
def hostPower (m : Nat) (target : BitVec 2) (tenant : BitVec 8) (s : State) : State :=
  if target = 3 then s
  else onPwr (fun p => { p with
    hostTarget := target, weftReqs := queueReq (loomStateOf target.toNat, tenant, 2 * lcOf s + m) p.weftReqs }) s

/-! ## Arrivals (R147, R153, R256, R393) -/

/-- Tiles' logic state is lost; bank and draft-store contents stay (R147). -/
def dropTileLogic (s : State) : State := onLoom (fun l => { l with
  tiles := [], flits := [], late := [], engines := [], weave := { l.weave with slots := [] } }) s

/-- The chain lock and every pending mark end (R393). -/
def unlockChain (s : State) : State :=
  markStale ([0, 1].foldl (fun s m => putWarp m { warpOf s m with marks := [] } s)
    (onLoom (fun l => { l with chain := { l.chain with locked := false } }) s))

/-- Every warp lock ends at the restart of a new point, and each module that had come past phase 1 repeats phases 2 to 4 (R393). -/
def unlockWarps (s : State) : State :=
  [0, 1, 2, 3].foldl (fun s m =>
    let w := warpOf s m
    if w.locked || decide (2 ≤ w.phase.toNat) then putWarp m { w with
      locked := false, lat := 0, phase := 2, credits := 64, partnerLocked := false, crcRun := 0, syncOwed := 0
      txMarks := [], txStretch := [], txNotices := [], sent := [] } s
    else s) s

/-- The point that POINT holds comes into force (R256). -/
def applyPoint (s : State) : State :=
  refreshStale (unlockWarps (onLoom (fun l => { l with clock := { l.clock with
    current := l.clock.point, pending := false, relocking := false } }) s))

/-- Entry to L2: the PLL stops, tile logic goes, the chain lock ends. -/
def enterL2 (s : State) : State :=
  let s1 := unlockChain (dropTileLogic s)
  { s1 with mon := { s1.mon with pllLock := false } }

/-- The exit from L2: the PLL locks, a pending point comes into force, and the next repeat begins with a new LREFCLK period. -/
def leaveL2 (s : State) : State :=
  let s1 := { s with mon := { s.mon with pllLock := true }, clocks := { s.clocks with frac := 0 } }
  let s2 := waiveWaits (if s1.loom.clock.pending then applyPoint s1 else s1)
  onLoom (fun l => { l with weave := { l.weave with repDue := true, rep0 := lcOf s, slots := [] } }) s2

/-- Entry to L3: LSRAM and every table are lost (R147). A LOOM reset that waited has nothing left to reset (log 39). -/
def enterL3 (s : State) : State :=
  let s1 := applyLoomReset s
  onPwr (fun p => { p with bellWake := false, resetOwed := false, reqReset := false, reqTreset := false, tresetFor := [] })
    { s1 with mon := { s1.mon with pllLock := false } }

/-- A move ends in its state (R150). A G_LOOM_REQ write that the ordering point has not sampled when L3 is reached acts there, as
every such write at L3 does (R83, log 39). -/
def arrive (dest : LoomState) (s : State) : State :=
  let was := s.pwr.st
  let s1 := onPwr (fun p => { p with st := dest, stage := .steady }) s
  let s2 := match dest with
    | .l2 => enterL2 s1
    | .l3 => (match s.pwr.gateReq with
      | some t => gateTarget t (onPwr (fun p => { p with gateReq := none }) (enterL3 s1))
      | none => enterL3 s1)
    | .l1 => if was = .l2 then leaveL2 s1 else s1
    | .l0 => s1
  advance s2

/-- CHAIN_POS is sampled at the start of phase 3 (R36, R151). -/
def sampleStraps (straps : BitVec 3) (s : State) : State :=
  onPwr (fun p => { p with chainPos := straps }) { s with mon := { s.mon with straps := straps } }

/-- Phase 3 of a LOOM reset begins with the straps as the pins stand, a free value (R156, log 42). -/
def startPhase3 (s : State) : State :=
  onPwr (fun p => { p with stage := .resetPhase 3 }) (sampleStraps (Config.strapPins s.free) { s with free := s.free + 1 })

/-- Whether a command is in an attention engine. -/
def enginesRun (s : State) : Bool := s.loom.engines.any (fun e => e.2.cmd.isSome)

/-- LOOM_MOVE_DONE. The loom does not leave L0 before every engine command is complete (R331). -/
def moveDone (s : State) : State :=
  match s.pwr.stage with
  | .move dest => if s.pwr.st = .l0 && enginesRun s then s else arrive dest s
  | .resetMove =>
    let s1 := if s.pwr.st = .l2 then leaveL2 s else s
    startPhase3 (onPwr (fun p => { p with st := .l1 }) s1)
  | _ => s

/-! ## Drains (R159) -/

/-- Flagged work that has not met a slot start ends with the drain; its records are written. -/
def settleWork (all : Bool) (s : State) : State :=
  let s1 := (s.loom.jobs.filter (fun j => j.ended.isNone && (all || j.ending.isSome))).foldl (fun s j =>
    endFlagged (if j.ending.isSome then j else { j with ending := some 0x23 }) s) s
  let s2 := onJobs (fun js => js.map (fun j => if j.ended.isSome then { j with recordAt := min j.recordAt (lcOf s) } else j)) s1
  issueAll s2.loom.jobs.length s2

/-- READs that a drain leaves: one that waits for an aperture completes with TIMEOUT, one still queued is UNREACHABLE (R260,
R371). -/
def answerWaiting (m : Nat) (s : State) : State :=
  let w := weftOf s m
  let s1 := (w.park.filter (·.isRead)).foldl (fun s x => answerRead m x.tag 2 x.owner (List.replicate x.size 0) s) s
  (w.inq.filter (·.isRead)).foldl (fun s x => answerRead m x.tag 1 x.owner (List.replicate x.size 0) s) s1

/-- DRAIN_END. -/
def endDrain (s : State) : State :=
  match s.pwr.stage with
  | .drain r =>
    let s1 := [0, 1].foldl (fun s m => discardQueue m (answerWaiting m s)) (settleWork r (answerEscOf (fun _ => true) s))
    if !r then onPwr (fun p => { p with stage := .move .l3 }) s1
    else
      match s1.pwr.st with
      | .l1 => startPhase3 s1
      | .l2 =>
        if s1.mon.rails.lsram = 2 then onPwr (fun p => { p with stage := .resetMove }) s1
        else raise causeLsramLow (onPwr (fun p => { p with stage := .resetHold }) s1)
      | _ => onPwr (fun p => { p with stage := .resetMove }) s1
  | _ => s

/-! ## Exits from L3 and the phases (R44, R151, R156, R164) -/

/-- Phase 1 begins with every condition good. -/
def startExit (s : State) : State :=
  match s.pwr.st, s.pwr.stage with
  | .l3, .exitHeld =>
    let r := { s.mon.rails with loomv := true, lsram := 2, pll := true, lref := true }
    onPwr (fun p => { p with stage := .exitPhase 1 false }) { s with mon := { s.mon with rails := r } }
  | _, _ => s

/-- What the self-test found. -/
def selfTest (r : PhaseResult) (s : State) : State :=
  onPwr (fun p => { p with
    tilesOk := r.failedTiles.foldl (fun (v : BitVec 256) t => putBit v t.toNat false) (BitVec.allOnes 256)
    reelsBad := r.failedReels.foldl (fun (v : BitVec 512) t => putBit v t.toNat true) 0 }) s

/-- The end of phase 4: the epoch advances, the loom starts from its reset state at L1, and the weft modules hand over what
was discarded. -/
def endPhase4 (fromL3 : Bool) (s : State) : State :=
  let s1 := applyLoomReset s
  let s2 := if fromL3 then
      [0, 1].foldl (fun s m => putWeft m { weftOf s m with retrains := 0 } s)
        (onLoom (fun l => { l with now := 0, failed := 0 }) { s1 with clocks := { s1.clocks with frac := 0 } })
    else s1
  let s3 := onPwr (fun p => { p with
    st := .l1, stage := .steady, epoch := p.epoch + 1, drained := false, reqTreset := false, tresetFor := []
    reqReset := fromL3 && p.resetOwed, resetOwed := fromL3 && p.resetOwed }) s2
  advance (reportAllDropped s3)

/-- EXIT_PHASE_END. -/
def phaseEnd (r : PhaseResult) (s : State) : State :=
  match s.pwr.stage with
  | .exitPhase n withdrawn =>
    if withdrawn then
      onPwr (fun p => { p with stage := .steady, reqTreset := false, tresetFor := [], reqReset := false, resetOwed := false })
        { s with mon := { s.mon with pllLock := false } }
    else if n = 1 then onPwr (fun p => { p with stage := .exitPhase 2 false }) s
    else if n = 2 then
      let s1 := onLoom (fun l => { l with clock := { l.clock with
        current := l.clock.point, pending := false, heldPoint := none, relocking := false } }) (sampleStraps r.straps s)
      onPwr (fun p => { p with stage := .exitPhase 3 false }) { s1 with mon := { s1.mon with pllLock := true } }
    else if n = 3 then onPwr (fun p => { p with stage := .exitPhase 4 false }) (selfTest r s)
    else endPhase4 true s
  | .resetPhase n =>
    if n = 3 then onPwr (fun p => { p with stage := .resetPhase 4 }) (selfTest r s) else endPhase4 false s
  | _ => s

/-- The LSRAM monitor reports the run level: a held exit from L2 goes on (R43). -/
def lsramRun (s : State) : State :=
  let s1 := { s with mon := { s.mon with rails := { s.mon.rails with lsram := 2 } } }
  match s.pwr.stage with
  | .lsramHold dest => onPwr (fun p => { p with stage := .move dest }) s1
  | .resetHold => onPwr (fun p => { p with stage := .resetMove }) s1
  | _ => s1

/-! ## Losses (R45, R47, R165) -/

/-- The loom loses its power or its clock: everything in it goes, uncounted, and it reads L3. -/
def loseLoom (s0 : State) : State :=
  let s := escEntryLost s0
  let s1 := [0, 1].foldl (fun s m =>
    let w := weftOf s m
    putWeft m { w with
      inq := [], park := [], oweP := w.oweP + (w.inq.filter (fun x => !x.isRead)).length
      oweN := w.oweN + (w.inq.filter (·.isRead)).length + (w.park.filter (·.isRead)).length } s) s
  let s2 := escLoomLost (enterL3 (onPwr (fun p => { p with
    st := .l3, stage := .steady, target := .l3, byHost := false, reqTarget := 3, reached := true, drained := false
    gateReq := none }) s1))
  raise causeSupplyLost s2

/-- Whether a loss event is one for the loom as it stands. -/
def isLoss (p : Power) (m : Monitors) : LossKind → Bool
  | .loomv => p.st != .l3 || inExitPhases p
  | .lsram level => (p.st != .l3 || inExitPhases p) && (level == 0 || (level == 1 && (p.st == .l0 || p.st == .l1)))
  | .pllv => p.st != .l3 || inExitPhases p
  | .pllLock => (p.st != .l3 || inExitPhases p) && m.pllLock
  | .noLock => (match p.stage with | .exitPhase 2 _ => true | _ => false)

/-- A monitor reads low, or the PLL is not locked. -/
def noteLoss (k : LossKind) (r : Rails) : Rails :=
  match k with
  | .loomv => { r with loomv := false }
  | .lsram level => { r with lsram := if level = 2 then r.lsram else level }
  | .pllv => { r with pll := false }
  | .pllLock => { r with lref := false }
  | .noLock => r

def supplyLoss (k : LossKind) (s : State) : State :=
  let s1 := { s with mon := { s.mon with rails := noteLoss k s.mon.rails } }
  if isLoss s.pwr s.mon k then loseLoom s1 else s1

/-- The monitors of the rails whose fall is no loss now: the loom's while nothing of it is powered, VDD_LINK, and VDD_PLL too, while
no module is powered either (R46). A loss of one of them otherwise has its own event. -/
def noteRails (rails : Rails) (s : State) : State :=
  let r := s.mon.rails
  let loomOff := s.pwr.st = .l3 && !inExitPhases s.pwr
  let linkOff := s.pwr.powered == 0
  { s with mon := { s.mon with rails := { r with
    loomv := if loomOff then rails.loomv else r.loomv, lsram := if loomOff then rails.lsram else r.lsram
    lref := if loomOff then rails.lref else r.lref
    pll := if loomOff && linkOff then rails.pll else r.pll, link := if linkOff then rails.link else r.link } } }

/-- A request still waits for a rail or for LREFCLK after 1 ms (R44, R154). The monitors read as the command gives them whether or not
one waits (log 43). -/
def absentSupply (m : Option (Fin 6)) (rails : Rails) (s : State) : State :=
  let s1 := noteRails rails s
  let s2 := if s.pwr.stage = .exitHeld then holdExit s1 else s1
  let waits : Bool := match m with
    | none => s.pwr.stage == .exitHeld
    | some i => s.pwr.held.getLsbD i.val
  if waits then raise causeSupplyAbsent s2 else s2

/-! ## Blocks (R85, R361) -/

/-- The loom samples a tenant's levels. -/
def sampleBlock (t : Nat) (s : State) : State :=
  let block := s.pwr.block.getLsbD t
  let abort := block && s.pwr.abort.getLsbD t
  let ten := tenantOf s t
  if !orderingRuns s.pwr || (ten.blocked == block && ten.abort == abort) then s
  else
    let s1 := putTenant t { ten with blocked := block, abort := abort } s
    let s2 := if abort then dropMarksOf t (flagJobs (fun j => j.tenant == t) 0x30 false s1) else s1
    sendEvent t evBlocked 0 ((if block then 1 else 0) + (if abort then 2 else 0)) [] s2

end Sys2Proof.Machine
end

