-- ==== Sys2Proof/Machine/Clock.lean ====
section
/-!
DEFINITION. Clock points and stretched cycles (R241 to R243, R256, R384, R393).
-/

namespace Sys2Proof.Machine

def onClock (f : ClockState → ClockState) : State → State := onLoom (fun l => { l with clock := f l.clock })

/-! ## Points (R256) -/

/-- A write of L_CLOCK.POINT. -/
def writePoint (p : BitVec 3) (s : State) : State :=
  let c := s.loom.clock
  if 4 < p.toNat then s
  else if c.relocking then onClock (fun c => { c with heldPoint := some p }) s
  else if p = c.current then (if c.pending then advance (onClock (fun c => { c with point := p, pending := false }) s) else s)
  else advance (onClock (fun c => { c with point := p, pending := true }) s)

/-- The restart after a relock: the point is in force, the chain lock and the warp locks end but pending marks stay, a repeat
begins, and a held write of POINT counts now. `periods` nominal loom periods passed meanwhile; they are taken as whole LREFCLK periods. -/
def relockDone (periods : Nat) (s : State) : State :=
  let c := s.loom.clock
  if !c.relocking then s
  else
    let s1 := onLoom (fun l => { l with now := l.now + BitVec.ofNat 64 (10 * periods) }) s
    let s2 := { s1 with clocks := { s1.clocks with frac := 0 }, mon := { s1.mon with pllLock := true } }
    let s3 := onClock (fun c => { c with
      current := c.lockPoint, pending := false, relocking := false, heldPoint := none }) s2
    let s4 := refreshStale (onLoom (fun l => { l with chain := { l.chain with locked := false } }) (unlockWarps s3))
    let s5 := onLoom (fun l => { l with weave := { l.weave with repDue := true, rep0 := lcOf s, slots := [] } }) s4
    match c.heldPoint with
    | some p => writePoint p (advance s5)
    | none => advance s5

def execPointChange (point : BitVec 3) (s : State) : Host.Outcome State Fault Refusal :=
  fin s (hostPosts none (writePoint point) s)

def execRelockDone (periods : Nat) (s : State) : Host.Outcome State Fault Refusal := fin s (relockDone periods s)

/-! ## Stretch (R242, R243, R384) -/

/-- A stretch target joins those that wait; equal targets are one. -/
def addTarget (lc : Nat) : State → State := onClock (fun c => { c with targets := insRising lc c.targets })

/-- The modules that are locked. -/
def lockedWarps (s : State) : List Nat := [0, 1, 2, 3].filter (fun m => (warpOf s m).locked)

/-- A target is owed to a module's next slots, from `from_` on. -/
def owesStretch (m from_ target : Nat) (s : State) : State :=
  putWarp m { warpOf s m with txStretch := (warpOf s m).txStretch ++ [(from_, target)] } s

/-- A droop sensor trips (R242, R384). -/
def droop (s : State) : State :=
  let n := lcOf s
  if s.loom.chain.locked then
    let d := s.loom.chain.sdelay.toNat
    let t := s.loom.chain.now.toNat + d
    (lockedWarps s).foldl (fun s m => owesStretch m (n + 1) t s) (addTarget (n + d) s)
  else addTarget (n + 4) s

def mesochronousRuns (s : State) : Bool := (s.pwr.st == .l0 || s.pwr.st == .l1) && !inResetPhases s.pwr && !s.loom.clock.relocking

def execDroopTrip (s : State) : Host.Outcome State Fault Refusal := fin s (if mesochronousRuns s then droop s else s)

/-- A stretched cycle at its target lc: one lc of twice the nominal period (R243). -/
def stretchCycle (s : State) : State :=
  let c := s.loom.clock
  let n := lcOf s
  if !c.targets.contains n then s
  else
    let gap := c.lastStretch.map (fun m => n - m)
    let beyond := match gap with
      | some g => decide (g < 256)
      | none => false
    let s1 := onClock (fun c => { c with
      targets := c.targets.filter (fun t => decide (n < t)), lastStretch := some n
      lastGap := (match gap with | some g => BitVec.ofNat 16 (min g 0xFFFF) | none => c.lastGap)
      minGap := (match gap with | some g => BitVec.ofNat 16 (min g c.minGap.toNat) | none => c.minGap)
      overSeen := c.overSeen || beyond }) (passPeriods 1 s)
    let s2 := loomTally 0x4B none 1 s1
    if beyond then raise causeStretchOver (loomTally 0x4C none 1 s2) else s2

def execStretchedCycle (s : State) : Host.Outcome State Fault Refusal := fin s (if mesochronousRuns s then stretchCycle s else s)

/-- L_STRETCH.CLR (R271). -/
def clearStretch : State → State := onClock (fun c => { c with minGap := 0xFFFF })

def execStretchClr (s : State) : Host.Outcome State Fault Refusal := fin s (hostPosts none clearStretch s)

end Sys2Proof.Machine
end

