-- ==== Sys2Proof/Machine/Passes.lean ====
section
/-!
DEFINITION. Repeat boundaries, slot starts and the ends of passes (R153, R239, R249 to R252, R263 to R267, R320, R349 to R351, R357,
R360, R364, R368, R383, R386, R389, R392).
-/

namespace Sys2Proof.Machine

def onWeave (f : Weave → Weave) : State → State := onLoom (fun l => { l with weave := f l.weave })

/-! ## The end of a slot -/

def slotEnd (s : State) (x : Slot) : Nat := x.start + (activeEntry s x.entry).len

/-- A tile whose slot ends: it runs nothing. -/
def restTile (t : Tile) : Tile := { t with run := .idle, slot := none, stopAt := none, held := none }

/-- The job of a pass that ran whole: after its last pass its record is due in lc R (R355, R357). -/
def passRan (x : Slot) (s : State) : State :=
  match slotJob x with
  | none => s
  | some o =>
    let len := ((slotVersion s x).map (·.passLc)).getD 0
    modJob o (fun j =>
      if j.ended.isSome then j
      else
        let j1 := { j with ran := j.ran + 1, booked := j.booked.filter (fun n => n != x.start) }
        if j1.ran < j1.passes then j1
        else { j1 with ended := some 0, recordAt := passStart x + len + 16 }) s

/-- What a slot leaves behind: a breached job ends with 0x20, one whose bundle was damaged before any breach with 0x21, and any other
pass has run (R263, R266, R347). A breach fixes the code of an lc that found both (R464). -/
def settleSlot (x : Slot) (s : State) : State :=
  match slotJob x with
  | none => s
  | some o =>
    if x.breached && (!x.damaged || decide (x.breachLc ≤ x.damagedLc)) then endJob o 0x20 s
    else if x.damaged then endJob o 0x21 s else passRan x s

/-- The tiles that run a slot. -/
def slotTiles (s : State) (x : Slot) : List Nat := (s.loom.tiles.filter (fun e => e.2.slot == some x.entry)).map (·.1)

/-- A slot ends: what is in flight on its tiles completes. -/
def closeSlot (x : Slot) (s0 : State) : State :=
  let s := (slotTiles s0 x).foldl (fun s t => settleOn t s) s0
  settleSlot x (onLoom (fun l => { l with
    tiles := l.tiles.map (fun e => if e.2.slot = some x.entry then (e.1, restTile e.2) else e)
    weave := { l.weave with slots := l.weave.slots.filter (fun y => y.entry != x.entry) } }) s)

/-- Every slot whose occurrence is over by lc `n`. -/
def closeEnded (n : Nat) (s : State) : State :=
  (s.loom.weave.slots.filter (fun x => decide (slotEnd s x ≤ n))).foldl (fun s x => closeSlot x s) s

/-! ## Flagged work (R85, R152, R156, R265, R435) -/

/-- Flagged work ends where `p` holds. -/
def endFlaggedWhere (p : Job → Bool) (s : State) : State :=
  (s.loom.jobs.filter (fun j => p j && (j.ended.isNone || (j.silent && isCkpt j)) && j.ending.isSome)).foldl (fun s j => endFlagged j s) s

/-- Whether flagged work ends at the start of an entry's occurrence: a job at a slot of its draft, a blocked checkpoint at a
BOBBIN slot of its tenant, any other checkpoint at any slot. -/
def endsAtSlot (en : WEntry) (j : Job) : Bool :=
  if isCkpt j then j.ending != some 0x30 || (isBobbinEntry en && en.tenant == j.tenant)
  else isDraftEntry en && en.id == j.draft

/-! ## Bundles (R249, R266) -/

/-- A bundle is fetched from the draft store for a pass, to issue in lc `n`. An uncorrectable word idles the tile from that lc for the
rest of the slot, ends the job with 0x21 at the slot's end unless a breach came before, and leaves the id DAMAGED. -/
def fetchBundle (t n : Nat) (x : Slot) (s : State) : State :=
  match slotVersion s x with
  | none => s
  | some v =>
    let w := storeAddr v t (64 * (tileOf s t).pc) / 8
    let ten := some (draftOf s x.draft).tenant
    let s1 := loomTally 0x47 ten (correctedIn s.loom.storeUp w 8) s
    let bad := uncorrectableIn s.loom.storeUp w 8
    if bad = 0 then s1
    else
      let s2 := countTileErrors t bad (loomTally 0x48 ten bad s1)
      let y := tileOf s2 t
      let s3 := putTile t { y with stopAt := some (min n (y.stopAt.getD n)) }
        (modSlot x.entry (fun y => { y with
          damaged := true, damagedLc := if y.damaged then min n y.damagedLc else n }) s2)
      let d := draftOf s3 x.draft
      putDraft x.draft { d with damaged := true, st := if isLive d then .damaged else d.st } s3

/-! ## Slot starts -/

/-- An occurrence that runs the idle pattern. `counted` adds to SLOT_IDLE (R252, R265, R350). -/
def idleSlot (e : Nat) (en : WEntry) (counted : Bool) (s : State) : State :=
  let d := draftOf s en.id
  let s1 := onWeave (fun w => { w with slots := w.slots ++ [{
    entry := e, start := lcOf s, draft := en.id, run := .idle, breached := false, degraded := false, poisoned := false
    damaged := false, halted := false }] }) s
  loomTally 0x57 (if d.st = .empty then none else some d.tenant) (if counted then 1 else 0) s1

/-- A tile begins a pass at bundle 0; a tile whose last pass was of another tenant starts from its numeric reset state (R281). A
tile that does not hold the version runs the idle pattern for the slot, and so does a failed one, which is gated (R249, R368). -/
def beginTile (e tenant : Nat) (v : Version) (x : Slot) (t : Nat) (s : State) : State :=
  let old := tileOf s t
  if old.slot.isSome then s
  else if !tileGood s t || !holdsVersion s t x.draft v then
    putTile t { old with run := .idle, slot := some e, stopAt := none, held := none } s
  else
    let clean := if old.lastTenant = some tenant then old else clearNumeric old
    fetchBundle t (lcOf s) x (putTile t { clean with
      run := .issuing, slot := some e, pc := 0, loops := [], stopAt := none, lastTenant := some tenant, held := none } s)

/-- A pass with a tile that does not hold its version is a breach of kind VERSION, detected at the first such tile (R249). -/
def versionBreach (v : Version) (x : Slot) (s : State) : State :=
  match (versionTiles v).find? (fun t => !holdsVersion s t x.draft v) with
  | some t => breach 8 t x s
  | none => s

/-- A pass marks its start on every locked module of a WARP draft (R386). -/
def sendMarks (v : Version) (id : Nat) (s : State) : State :=
  if !v.warp then s
  else (setBits 4 v.warpMask.toNat).foldl (fun s m =>
    let w := warpOf s m
    if w.locked then putWarp m { w with txMarks := w.txMarks ++ [(id, s.loom.chain.now.toNat % 2 ^ 32)] } s else s) s

/-- A pass begins in every tile of the draft's rectangle (R239). -/
def beginPass (e : Nat) (en : WEntry) (v : Version) (job : Option Nat) (s : State) : State :=
  let x : Slot :=
    { entry := e, start := lcOf s, draft := en.id, run := .pass job (lcOf s), breached := false, degraded := false
      poisoned := false, damaged := false, halted := false }
  let s1 := onWeave (fun w => { w with slots := w.slots ++ [x] }) s
  versionBreach v x (sendMarks v en.id
    ((versionTiles v).foldl (fun s t => beginTile e (draftOf s en.id).tenant v x t s) s1))

/-- The open job that booked this occurrence. -/
def bookedJob (s : State) (d lc : Nat) : Option Job :=
  s.loom.jobs.find? (fun j => j.kind == .run && j.draft == d && j.ended.isNone && j.booked.contains lc)

/-- The upstream module whose pending mark claimed this occurrence (R386). -/
def claimedBy (s : State) (d lc : Nat) : Option Nat :=
  [0, 1].find? (fun m => (warpOf s m).marks.any (fun k => k.id == d && k.claim == lc))

def dropClaim (d lc : Nat) (s : State) : State :=
  [0, 1].foldl (fun s m => putWarp m { warpOf s m with
    marks := (warpOf s m).marks.filter (fun k => !(k.id == d && k.claim == lc)) } s) s

/-- Whether an occurrence of a draft idles and is counted: a draft that is EMPTY, DAMAGED, or stale since a repeat boundary, one whose
tenant is faulted, and one whose pass does not fit (R23, R252, R265, R350, R389). -/
def idleCounted (s : State) (en : WEntry) : Bool :=
  let d := draftOf s en.id
  d.st == .empty || d.stopped || d.st == .damaged || (tenantOf s d.tenant).faulted
    || (match d.resident with | some v => decide (en.len < v.passLc) | none => false)

/-- A DRAFT entry's occurrence starts. A job whose pass cannot run because its draft was damaged ends with 0x21. -/
def startDraft (e : Nat) (en : WEntry) (s : State) : State :=
  let lc := lcOf s
  let job := bookedJob s en.id lc
  let mark := claimedBy s en.id lc
  let s1 := dropClaim en.id lc s
  if idleCounted s1 en then
    let s2 := match mark with
      | some m => dropMark m en.id s1
      | none => s1
    let s3 := match job with
      | some j => if (draftOf s2 en.id).st = .damaged then endJob j.order 0x21 s2 else s2
      | none => s2
    idleSlot e en true s3
  else match (draftOf s1 en.id).resident with
    | none => idleSlot e en false s1
    | some v =>
      if s1.pwr.st = .l0 && (job.isSome || mark.isSome) then beginPass e en v (job.map (·.order)) s1
      else idleSlot e en false s1

/-- SLOT_START. It acts once, in the first lc of the entry's occurrence. `misheld` are tiles found to hold the draft no more. -/
def slotStartEffect (e : Nat) (ups : Upsets) (misheld : List Nat) (s : State) : State :=
  let w := s.loom.weave
  let en := activeEntry s e
  if !walking w || isNoneEntry en || !mesochronousRuns s || lcOf s ≠ w.rep0 + en.start
      || w.slots.any (fun x => x.entry == e && x.start == lcOf s) then s
  else
    let s1 := endFlaggedWhere (endsAtSlot en) (closeEnded (lcOf s) s)
    let s2 := loseTags en.id misheld (onLoom (fun l => { l with storeUp := addUpsets l.storeUp ups }) s1)
    if isDraftEntry en then startDraft e en s2 else s2

def execSlotStart (e : BitVec 10) (finds : SlotFinds) (s : State) : Host.Outcome State Fault Refusal :=
  fin s (slotStartEffect e.toNat finds.upsets (finds.misheld.map (·.toNat)) s)

/-- PASS_END: the tail is over; a breached or damaged pass idles to the end of its slot (R239, R263, R266). -/
def passEndEffect (e : Nat) (s : State) : State :=
  match slotOfEntry s e with
  | none => s
  | some x =>
    let len := ((slotVersion s x).map (·.passLc)).getD 0
    if !isPass x then s
    else if x.breached || x.damaged then (if slotEnd s x ≤ lcOf s then closeSlot x s else s)
    else if x.halted && passStart x + len ≤ lcOf s then closeSlot x s else s

def execPassEnd (e : BitVec 10) (s : State) : Host.Outcome State Fault Refusal := fin s (passEndEffect e.toNat s)

/-! ## Repeat boundaries -/

/-- Whether lc `now` of the chain count lies on a multiple of a repeat. -/
def aligned (s : State) (per : Nat) : Bool := decide (s.loom.chain.now.toNat % per = 0)

/-- The boundary this command stands for: the latest repeat start not later than now; none where no repeat can start yet (R349,
R383). -/
def boundaryLc (s : State) : Option Nat :=
  let w := s.loom.weave
  let lc := lcOf s
  if w.activeLc = 0 then some lc
  else if w.repDue then
    if s.loom.chain.locked && !aligned s w.activeLc then none else some lc
  else if s.loom.chain.locked then
    let b := lc - s.loom.chain.now.toNat % w.activeLc
    if w.rep0 + w.activeLc ≤ b then some b else none
  else if w.rep0 + w.activeLc ≤ lc then some (w.rep0 + w.activeLc * ((lc - w.rep0) / w.activeLc)) else none

/-- Whether the pending weave swap takes effect at boundary `b` (R351, R392). -/
def swapDue (b : Nat) (s : State) : Bool :=
  let w := s.loom.weave
  w.swap == .pending && decide (w.checksEnd + 64 ≤ b)
    && (!s.loom.chain.locked || decide ((s.loom.chain.now.toNat - (lcOf s - b)) % w.shadowLc = 0))

/-- The shadow table becomes the active one, and open work books again under the versions then resident (R258, R351, R364). -/
def swapWeave (b : Nat) (s : State) : State :=
  rebookAll b (onWeave (fun w => { w with
    active := w.shadow, activeLc := w.shadowLc, swap := .idle, swaps := w.swaps + 1, rep0 := b, repDue := false }) s)

/-- Jobs of a stale draft end with 0x22 (R389). -/
def endStale (s : State) : State :=
  (s.loom.jobs.filter (fun j => j.kind == .run && j.ended.isNone && (draftOf s j.draft).stopped)).foldl
    (fun s j => endJob j.order 0x22 s) s

/-- RETURNING sequences are freed and their closes answered (R320). A command still in an engine works on none of them any more. -/
def freeReturning (s : State) : State :=
  (s.loom.seqs.filter (fun e => e.2.st == .returning)).foldl (fun s e =>
    let owed := s.loom.closes.filter (fun c => c.seq == e.1)
    let s1 := onLoom (fun l => { l with closes := l.closes.filter (fun c => c.seq != e.1) })
      (freeSeq e.1 (cutCommands (· == e.1) s))
    owed.foldl (fun s c => writeRecord
      { tenant := c.tenant, code := 0, flags := 0, id := c.seq, subidx := c.subidx, tag := c.tag, promise := 0, result := []
        ran := 0 } s) s1) s

/-- Pending TENANT resets take effect; the tenant's tiles return to their numeric reset state (R281, R304, R360). -/
def tenantResets (s : State) : State :=
  (s.loom.tenants.filter (fun e => e.2.treset.isSome)).foldl (fun s e =>
    let tiles := if (partOf s e.1).en then partTiles (partOf s e.1) else []
    tenantResetEffect e.1 (answerEscOf (· == e.1) (tiles.foldl (fun s t => putTile t (clearNumeric (tileOf s t)) s) s))) s

/-- Tiles with four uncorrectable errors are marked failed and gated (R368). -/
def failTiles (s : State) : State :=
  (s.loom.tileErr.filter (fun e => decide (4 ≤ e.2))).foldl (fun s e =>
    onLoom (fun l => { l with failed := putBit l.failed e.1 true }) s) s

/-- Swaps, frees and staleness at a boundary: hot and cold swaps before the weave's, so that both take effect together. While a point
change is pending the swaps wait for its restart (R258); what frees an id or its pages does not (R251, R252). -/
def boundarySwaps (b : Nat) (s : State) : State :=
  let s1 := if s.loom.clock.pending then s else swapsAt b s
  let s2 := if swapDue b s1 && !s.loom.clock.pending then swapWeave b s1 else s1
  endStale (refreshStale (freeUnloads (freeColds s2)))

/-- Whether the move down begins at this boundary (R152). -/
def fallDue (s : State) : Bool :=
  s.pwr.stage == .steady && (s.pwr.st == .l0 || s.pwr.st == .l1) && targetBelow s.pwr && !workLeft s
    && !s.loom.clock.pending && !s.loom.clock.relocking

/-- Where the repeat that boundary `b` starts was expected: while a repeat is due, at its expected first lc, else on the grid of the
repeat before it. -/
def expectedStart (w : Weave) (b : Nat) : Nat :=
  if w.repDue then w.rep0 else w.rep0 + w.activeLc * ((b - w.rep0) / w.activeLc)

/-- A booked lc of the repeats from `from_` on moves with them. -/
def shiftLc (from_ k n : Nat) : Nat := if from_ ≤ n then n + k else n

/-- Repeats that start `k` lc later than expected move their booked occurrences, booked moves and claims with them; a job that this
delays completes late (R383, R364). -/
def shiftBookings (from_ k : Nat) (s : State) : State :=
  if k = 0 then s
  else
    let f := shiftLc from_ k
    let s1 := onLoom (fun l => { l with
      bookings := l.bookings.map (fun x => (x.1, f x.2)), moveBookings := l.moveBookings.map f
      jobs := l.jobs.map (fun j => { j with
        booked := j.booked.map f, ckpt := j.ckpt.map (fun c => { c with moves := c.moves.map f }) }) }) s
    [0, 1].foldl (fun s m => if (warpOf s m).marks.isEmpty then s else putWarp m { warpOf s m with
      marks := (warpOf s m).marks.map (fun x => { x with claim := f x.claim }) } s) s1

/-- The next repeat begins, where a weave is installed. -/
def beginRepeat (b : Nat) (s : State) : State :=
  let w := s.loom.weave
  if w.activeLc = 0 then s
  else
    let x := expectedStart w b
    onWeave (fun w => { w with rep0 := b, repDue := false }) (shiftBookings x (b - x) s)

/-- What every boundary at lc `b` does. Flagged work ends at its slot starts; where no weave is installed there are none, and it ends
here (R84, R85, R265, log 39). -/
def boundaryAt (b : Nat) (s : State) : State :=
  let s1 := tenantResets (endFlaggedWhere (fun _ => decide (s.loom.weave.activeLc = 0)) (closeEnded b s))
  let s2 := failTiles (freeReturning (returnSeqs s1))
  let s3 := pruneBookings b (boundarySwaps b (beginRepeat b s2))
  if s3.loom.clock.pending && !workLeft s3 && s3.pwr.stage == .steady && s3.pwr.st == .l0 then startRelock s3
  else if fallDue s3 then fall s3
  else s3

/-- REPEAT_BOUNDARY. -/
def repeatBoundaryEffect (s : State) : State :=
  if !mesochronousRuns s then s
  else match boundaryLc s with
    | some b => boundaryAt b s
    | none => s

def execRepeatBoundary (s : State) : Host.Outcome State Fault Refusal := fin s (repeatBoundaryEffect s)

end Sys2Proof.Machine
end

