-- ==== Sys2Proof/Machine/TileRows.lean ====
section
/-!
DEFINITION. The commands of a tile's CTL, BANK and MESH fields, deliveries and ready results (R232 to R240, R253, R263, R357, R375,
R376, R387, R466).
-/

namespace Sys2Proof.Machine

/-! ## CTL (R234) -/

/-- The bundle that issues in this lc stays in force for its other fields while its CTL field moves the tile on. -/
def holdBundle (t : Nat) (s : State) : State :=
  let y := tileOf s t
  putTile t { y with held := some { lc := lcOf s, pc := y.pc, cnt := y.cnt } } s

/-- The tile goes on to another bundle, which is fetched for the next lc. -/
def goTo (t : Nat) (x : Slot) (pc : Nat) (s : State) : State :=
  fetchBundle t (lcOf s + 1) x (putTile t { tileOf s t with pc := pc } s)

/-- A control operation acts on the tile as its bundle found it. -/
def ctl (op t : Nat) (names : Nat → Bool) (f : Slot → State → State) : State → State :=
  issueCtl op t names (fun x s => f x (holdBundle t s))

def nextEffect (t : Nat) : State → State := ctl 0 t (fun _ => true) (fun x s => goTo t x ((tileOf s t).pc + 1) s)

def execNext (t : BitVec 8) (s : State) : Host.Outcome State Fault Refusal := fin s (nextEffect t.toNat s)

/-- A loop opens; its body starts at the next bundle. Verify leaves no fifth level. -/
def loopEffect (t iters : Nat) : State → State :=
  ctl 1 t (fun b => field b 4 20 == iters) (fun x s =>
    let y := tileOf s t
    let s1 := putTile t { y with loops := ((y.pc + 1, iters + 1) :: y.loops).take 4 } s
    goTo t x (y.pc + 1) s1)

def execLoop (t : BitVec 8) (iters : BitVec 20) (s : State) : Host.Outcome State Fault Refusal :=
  fin s (loopEffect t.toNat iters.toNat s)

/-- The counters of a mask take one stride each. -/
def addStrides (mask : Nat) (y : Tile) : Tile :=
  { y with cnt := (setBits 4 mask).foldl (fun c k => sput 0 c k (sget 0 c k + sget 0 y.stride k)) y.cnt }

def endloopEffect (t mask : Nat) : State → State :=
  ctl 2 t (fun b => field b 24 4 == mask) (fun x s =>
    let y := addStrides mask (tileOf s t)
    match y.loops with
    | (body, k) :: rest =>
      if 1 < k then goTo t x body (putTile t { y with loops := (body, k - 1) :: rest } s)
      else goTo t x (y.pc + 1) (putTile t { y with loops := rest } s)
    | [] => goTo t x (y.pc + 1) (putTile t y s))

def execEndloop (t : BitVec 8) (mask : BitVec 4) (s : State) : Host.Outcome State Fault Refusal :=
  fin s (endloopEffect t.toNat mask.toNat s)

/-- The tile issues nothing for lcs + 1 lc, this one included. -/
def waitEffect (t lcs : Nat) : State → State :=
  ctl 3 t (fun b => field b 4 20 == lcs) (fun _ s => putTile t { tileOf s t with run := .waiting (lcOf s + lcs + 1) } s)

def execWait (t : BitVec 8) (lcs : BitVec 20) (s : State) : Host.Outcome State Fault Refusal :=
  fin s (waitEffect t.toNat lcs.toNat s)

/-- The wait is over and the tile issues its next bundle in this lc. -/
def waitEndEffect (t : Nat) (s : State) : State :=
  let y := tileOf s t
  match y.run, y.slot.bind (slotOfEntry s) with
  | .waiting n, some x =>
    if n ≤ lcOf s && takesPart s t then fetchBundle t (lcOf s) x (putTile t { y with run := .issuing, pc := y.pc + 1 } s) else s
  | _, _ => s

def execWaitEnd (t : BitVec 8) (s : State) : Host.Outcome State Fault Refusal := fin s (waitEndEffect t.toNat s)

/-- SETA. -/
def setaEffect (t : Nat) (cnt : BitVec 2) (value stride : BitVec 8) : State → State :=
  ctl 5 t (fun b => field b 4 2 == cnt.toNat && field b 6 8 == value.toNat && field b 14 8 == stride.toNat) (fun x s =>
    let y := tileOf s t
    goTo t x (y.pc + 1) (putTile t { y with
      cnt := sput 0 y.cnt cnt.toNat value, stride := sput 0 y.stride cnt.toNat stride } s))

def execSeta (t : BitVec 8) (cnt : BitVec 2) (value stride : BitVec 8) (s : State) : Host.Outcome State Fault Refusal :=
  fin s (setaEffect t.toNat cnt value stride s)

/-! ## Bank accesses of a pass (R232, R235, R240, R263) -/

/-- Whether the pass owns a bank of its tile in this lc: no window of its own and no active entry does (R240). -/
def ownsBank (s : State) (x : Slot) (t k : Nat) : Bool :=
  match slotVersion s x with
  | none => false
  | some v => v.banks.getLsbD k && !(windowsAt v (lcOf s - passStart x)).any (fun w => w.banks.getLsbD k) && !entryOwns s t k

/-- The breach of an access by the pass, if it is one: a bank it does not own, or a bank's second access of the lc. -/
def bankBreach (s : State) (t k : Nat) (x : Slot) : Option Nat :=
  if !ownsBank s x t k then some 2 else if bankBusy s (bankKey t k) then some 1 else none

/-- A row read by a pass: zero where the access is a breach, and uncorrectable words as zero. -/
def passRead (t k row : Nat) (ups : Upsets) (x : Slot) (s : State) : List Byte × State :=
  match bankBreach s t k x with
  | some kind => (List.replicate 64 0, breach kind t x s)
  | none =>
    let r := readBankRow t k row (some (draftOf s x.draft).tenant) ups (useBank (bankKey t k) s)
    (r.1, if r.2.1 then poisonSlot x true r.2.2 else r.2.2)

/-- The row a BANK field addresses: it never leaves its bank. -/
def fieldRow (cnt : Sparse Byte) (f : BankField) : Nat := ((sget 0 cnt f.cnt.toNat).toNat + f.offset.toNat) % 256

/-- A BANKk field that reads, or writes (R235). -/
def spellsBank (write : Bool) (k b : Nat) : Bool := bitOf (bankBits b k) 0 && bitOf (bankBits b k) 1 == write

/-- A row is on its way to a unit for lc `lc`. -/
def deliver (t lc key unit : Nat) (data : List Byte) (s : State) : State :=
  let y := pruneRows (lcOf s) (tileOf s t)
  putTile t { y with rows := y.rows ++ [{ lc := lc, key := key, unit := unit, data := data, poisoned := false }] } s

/-- BANK_READ: the row reaches its unit in lc n + 2. -/
def bankReadEffect (t k : Nat) (ups : Upsets) : State → State :=
  issueOn t (fieldBank k) (spellsBank false k) (fun b x s =>
    let f := bankField b k
    let r := passRead t f.bank.toNat (fieldRow (bundleCnt s (tileOf s t)) f) ups x s
    deliver t (lcOf s + 2) k f.unit.toNat r.1 r.2)

def execBankRead (t : BitVec 8) (k : BitVec 2) (upsets : Upsets) (s : State) : Host.Outcome State Fault Refusal :=
  fin s (bankReadEffect t.toNat k.toNat upsets s)

/-- The data a write's UNIT names; a reserved code gives free bytes (log 12). -/
def writeSource (t unit : Nat) (s : State) : List Byte × State :=
  if unit = unitVec then (slice (tileOf s t).vecRow 0 64, s)
  else if unit = unitQnt then (slice (tileOf s t).qntRow 0 64, s)
  else if 8 ≤ unit && unit < 12 then sourceRow t unitMesh (unit - 4) s
  else freeRow s

/-- BANK_WRITE. -/
def bankWriteEffect (t k : Nat) : State → State :=
  issueOn t (fieldBank k) (spellsBank true k) (fun b x s =>
    let f := bankField b k
    match bankBreach s t f.bank.toNat x with
    | some kind => breach kind t x s
    | none =>
      let row := fieldRow (bundleCnt s (tileOf s t)) f
      let d := writeSource t f.unit.toNat s
      writeBankRow t f.bank.toNat row d.1 (useBank (bankKey t f.bank.toNat) d.2))

def execBankWrite (t : BitVec 8) (k : BitVec 2) (s : State) : Host.Outcome State Fault Refusal :=
  fin s (bankWriteEffect t.toNat k.toNat s)

/-! ## HALT (R239, R357) -/

/-- The RES copy in the HALT lc of a job's last pass. -/
def resCopy (t : Nat) (ups : Upsets) (x : Slot) (s : State) : State :=
  match (slotJob x).bind (jobOf s) with
  | none => s
  | some j => match j.resAt with
    | none => s
    | some (tile, bank, row) =>
      if tile = t ∧ j.ran + 1 = j.passes then
        let r := passRead t bank row ups x s
        modJob j.order (fun j => { j with result := slice r.1 0 24 }) r.2
      else s

def haltEffect (t : Nat) (ups : Upsets) : State → State :=
  ctl 4 t (fun _ => true) (fun x s =>
    let s1 := resCopy t ups x s
    modSlot x.entry (fun y => { y with halted := true }) (putTile t { tileOf s1 t with run := .tail } s1))

def execHalt (t : BitVec 8) (upsets : Upsets) (s : State) : Host.Outcome State Fault Refusal :=
  fin s (haltEffect t.toNat upsets s)

/-! ## Mesh (R237, R238, R375) -/

/-- The neighbouring tile in a direction; none past an edge. -/
def neighbour (t : Nat) : Dir → Option Nat
  | .n => if t < 16 then none else some (t - 16)
  | .e => if t % 16 = 15 then none else some (t + 1)
  | .s => if 240 ≤ t then none else some (t + 16)
  | .w => if t % 16 = 0 then none else some (t - 1)

def opposite : Dir → Dir
  | .n => .s
  | .e => .w
  | .s => .n
  | .w => .e

/-- An outgoing link. -/
def linkKey (t : Nat) (d : Dir) : Nat := 4 * t + dirCode d

/-- The links of an X-then-Y route from a tile to another. -/
def xyLinks : Nat → Nat → Nat → List (Nat × Dir)
  | 0, _, _ => []
  | fuel + 1, a, b => match firstHop a b with
    | none => []
    | some d => match neighbour a d with
      | none => []
      | some c => (a, d) :: xyLinks fuel c b

/-- The links of a flit that leaves a tile in a direction; `none` where the link leads off the mesh. -/
def routeFrom (t : Nat) (d : Dir) (dest : Nat) : Option (List (Nat × Dir)) :=
  (neighbour t d).map (fun c => (t, d) :: xyLinks 32 c dest)

/-- Links with the lc in which each is occupied. -/
def timedLinks (n : Nat) (ls : List (Nat × Dir)) : List (Nat × Nat) :=
  (ls.zip (span n ls.length)).map (fun e => (linkKey e.1.1 e.1.2, e.2))

/-- Links of a flit are taken. -/
def takeLinks (ls : List (Nat × Nat)) (s : State) : State := onLoom (fun l => { l with
  linkUse := ls ++ l.linkUse.filter (fun e => decide (lcOf s ≤ e.2)) }) s

/-- Data of a MESH SRC code, and whether it carries poison. -/
def meshSource (t src : Nat) (s : State) : List Byte × State :=
  if src < 4 then
    match (tileOf s t).rows.find? (fun r => r.lc == lcOf s && r.unit == unitMesh && r.key == src) with
    | some r => (slice r.data 0 64, s)
    | none => freeRow s
  else if src = 4 then (slice (tileOf s t).vecRow 0 64, s)
  else if src = 5 then (slice (tileOf s t).qntRow 0 64, s)
  else if 8 ≤ src && src < 12 then sourceRow t unitMesh (src - 4) s
  else freeRow s

/-- Destination code of a warp module in the list of flits. -/
def warpDest (m : Nat) : Nat := 256 + m

/-- The issue interval (R378) at a clock point and a rate code. -/
def rateGT (r : Nat) : Nat := 4 * (r + 1)
def issueInterval (s : State) (m : Nat) : Nat := max 1 (ceilDiv (40 * currentMHz s) (1000 * rateGT (warpOf s m).rate.toNat))

/-- The draft that owns a warp module in lc `n`: that of the lowest-numbered entry active then whose draft names the module and
whose tenant's partition grants it (R376). -/
def warpOwner (s : State) (m n : Nat) : Option Nat :=
  (s.loom.weave.active.find? (fun e => isDraftEntry e.2 && inOccurrence s.loom.weave e.2 n
    && (match (draftOf s e.2.id).resident with | some v => v.warpMask.getLsbD m | none => false)
    && (partOf s (draftOf s e.2.id).tenant).warp.getLsbD m)).map (fun e => e.2.id)

/-- What becomes of a flit that is sent: its links with the lc in which it takes each, the flit on its way, and the first failure on
its route with kind, tile and lc (R237, R263). -/
structure FlitPlan where
  links : List (Nat × Nat)
  flit  : Flit
  fail  : Option (Nat × Nat × Nat)
deriving DecidableEq, Repr

/-- The draft of a pass owns the link that leaves tile `a`, to tile `b` where there is one: both ends run its slot (R240). -/
def ownsLink (s : State) (x : Slot) (a : Nat) (b : Option Nat) : Bool :=
  (tileOf s a).slot == some x.entry && (match b with | some c => (tileOf s c).slot == some x.entry | none => true)

/-- The first link of a route that the draft does not own (5) or that another flit takes in its lc (4): kind, tile and lc. -/
def linkFail (s : State) (x : Slot) : List ((Nat × Dir) × Nat) → Option (Nat × Nat × Nat)
  | [] => none
  | ((a, d), n) :: rest =>
    if !ownsLink s x a (neighbour a d) then some (5, a, n)
    else if s.loom.linkUse.contains (linkKey a d, n) then some (4, a, n)
    else linkFail s x rest

/-- The links of a route that a flit reaches before its failure. -/
def linksBefore (fail : Option (Nat × Nat × Nat)) (ls : List (Nat × Nat)) : List (Nat × Nat) :=
  match fail with
  | some f => ls.filter (fun l => decide (l.2 < f.2.2))
  | none => ls

/-- The plan of a flit over a route, with a last check on arrival. -/
def planRoute (s : State) (x : Slot) (base : Flit) (route : List (Nat × Dir)) (last : Option (Nat × Nat × Nat)) : FlitPlan :=
  let n := lcOf s
  let fail := (linkFail s x (route.zip (span n route.length))).or last
  { links := linksBefore fail (timedLinks n route), flit := base, fail := fail }

/-- The plan of a flit by its MESH field: to an engine over the E link of column 15 (6), to a warp module in one of its frame slots
while the draft owns it (7), or to a tile of the rectangle (3). -/
def planFlit (s : State) (x : Slot) (v : Version) (t : Nat) (f : MeshField) : FlitPlan :=
  let n := lcOf s
  let dest := f.dest.toNat
  let base : Flit :=
    { dest := dest, dir := opposite f.dir, due := n, data := [], poisoned := false, slot := some x.entry, engine := false }
  let bad := fun (kind : Nat) => ({ links := [], flit := base, fail := some (kind, t, n) } : FlitPlan)
  if f.target = 1 then
    if t % 16 ≠ 15 || f.dir ≠ .e || !v.engines.getLsbD (t / 16) then bad 6
    else planRoute s x { base with dest := 512 + t / 16, due := n + 2 } [(t, .e)] none
  else if f.target = 2 then
    match warpAt dest with
    | none => bad 7
    | some (m, wd) =>
      match if dest = t then some [] else routeFrom t f.dir dest with
      | none => bad 5
      | some p =>
        let h := p.length
        let onSlot := decide ((s.loom.chain.now.toNat + 1 + h) % issueInterval s m = 0)
        let last := if warpOwner s m (n + 1 + h) ≠ some x.draft || !onSlot then some (7, dest, n + 1 + h) else none
        if !inVersion v dest then bad 3
        else planRoute s x { base with dest := warpDest m, due := n + 1 + h } (p ++ [(dest, wd)]) last
  else if !inVersion v dest then bad 3
  else match routeFrom t f.dir dest with
    | none => bad 5
    | some p =>
      planRoute s x { base with dir := opposite ((p.getLast?.map (·.2)).getD f.dir), due := n + 1 + p.length } p none

/-- MESH_SEND. A failure at a later link shows there, in its lc. -/
def meshSendEffect (t : Nat) (d : Dir) : State → State :=
  issueOn t (fieldMesh d) (fun b => bitOf (meshWord b (dirCode d)) 0) (fun b x s =>
    match slotVersion s x with
    | none => s
    | some v =>
      let f := meshField b d
      let p := planFlit s x v t f
      match p.fail with
      | some (kind, tile, lc) =>
        if lc = lcOf s then breach kind tile x s
        else onLoom (fun l => { l with
          late := l.late ++ [{ lc := lc, kind := kind, tile := tile, entry := x.entry }] }) (takeLinks p.links s)
      | none =>
        let data := meshSource t f.src.toNat s
        let s1 := takeLinks p.links data.2
        let cur := (slotOfEntry s1 x.entry).getD x
        onLoom (fun l => { l with flits := l.flits ++ [{ p.flit with
          data := data.1, poisoned := cur.poisoned || cur.degraded }] }) s1)

def execMeshSend (t : BitVec 8) (d : Dir) (s : State) : Host.Outcome State Fault Refusal := fin s (meshSendEffect t.toNat d s)

/-- Breaches of flits that show in this lc. -/
def lateBreaches (s : State) : State :=
  (s.loom.late.filter (fun e => decide (e.lc ≤ lcOf s))).foldl (fun s e => match slotOfEntry s e.entry with
    | some x => breach e.kind e.tile x s
    | none => s) (onLoom (fun l => { l with late := l.late.filter (fun e => decide (lcOf s < e.lc)) }) s)

/-- A flit enters a receive register for this lc; one that another flit has taken is a breach of the tile's pass, and a tile in the
idle pattern discards it (R237, R267, R375). -/
def receive (t key : Nat) (data : List Byte) (poisoned : Bool) (s : State) : State :=
  let y := pruneRows (lcOf s) (tileOf s t)
  if !takesPart s t then s
  else if y.recv.any (fun r => r.lc == lcOf s && r.key == key) then
    match y.slot.bind (slotOfEntry s) with
    | some x => breach 4 t x s
    | none => s
  else putTile t { y with recv := y.recv ++ [{ lc := lcOf s, key := key, unit := unitMesh, data := data, poisoned := poisoned }] } s

/-- The flits that reach a place from a direction in this lc, and those that were not taken there before, leave the mesh. -/
def takeFlits (p : Flit → Bool) (s : State) : State := onLoom (fun l => { l with
  flits := l.flits.filter (fun g => !(p g && decide (g.due ≤ lcOf s))) }) s

/-- A flit that reaches a tile in this lc from a direction. The outputs of an engine have their own event. -/
def meshDeliveryEffect (t : Nat) (d : Dir) (s : State) : State :=
  let here := fun (f : Flit) => f.dest == t && f.dir == d && !f.engine
  match s.loom.flits.find? (fun f => here f && f.due == lcOf s) with
  | none => s
  | some f => receive t (dirCode d) f.data f.poisoned (takeFlits here s)

def execMeshDelivery (t : BitVec 8) (d : Dir) (s : State) : Host.Outcome State Fault Refusal :=
  fin s (meshDeliveryEffect t.toNat d s)

/-- RESULT_READY: every result of the tile that is ready takes effect (R236). -/
def execResultReady (t : BitVec 8) (s : State) : Host.Outcome State Fault Refusal :=
  fin s (if mesochronousRuns s && tileGood s t.toNat then settleOn t.toNat s else s)

end Sys2Proof.Machine
end

