-- ==== Sys2Proof/Machine/Vec.lean ====
section
/-!
DEFINITION. The vector unit's arithmetic (R278, R294 to R296).
-/

namespace Sys2Proof.Machine

/-- The lane types of R294. -/
inductive LaneType where
  | i32
  | f32
  | i16
  | f16
  | bf16
deriving DecidableEq, Repr

def laneType (c : Nat) : Option LaneType :=
  if c = 0 then some .i32 else if c = 1 then some .f32 else if c = 2 then some .i16
  else if c = 3 then some .f16 else if c = 4 then some .bf16 else none

def laneFloat : LaneType → Option FFmt
  | .f32 => some f32
  | .f16 => some f16
  | .bf16 => some bf16
  | _ => none

def isIntLane (t : LaneType) : Bool := (laneFloat t).isNone

/-- A lane's exact value under its type. -/
def laneVal (t : LaneType) (w : Word) : Xv :=
  match t with
  | .i32 => ofInt (signed 32 w.toNat)
  | .i16 => ofInt (signed 16 w.toNat)
  | .f32 => floatVal f32 w.toNat
  | .f16 => floatVal f16 (field w.toNat 0 16)
  | .bf16 => floatVal bf16 (field w.toNat 0 16)

def laneInt (t : LaneType) (w : Word) : Int := if t = .i16 then signed 16 w.toNat else signed 32 w.toNat

/-- An integer result: i32 wraps, i16 saturates and is sign-extended (R295, R296). -/
def intLane (t : LaneType) (i : Int) : Word :=
  if t = .i16 then BitVec.ofInt 32 (clampInt (-32768) 32767 i) else BitVec.ofInt 32 i

/-- A float result, rounded once to the type. -/
def floatLane (f : FFmt) (rna : Bool) (v : Xv) : Word := BitVec.ofNat 32 (toFloat f rna false v)

/-- A lane-wise operation: integers exactly, then wrapped or saturated; floats exactly, then rounded. -/
def lane2 (t : LaneType) (rna : Bool) (fi : Int → Int → Int) (ff : Xv → Xv → Xv) (a b : Word) : Word :=
  match laneFloat t with
  | some f => floatLane f rna (ff (laneVal t a) (laneVal t b))
  | none => intLane t (fi (laneInt t a) (laneInt t b))

/-- The stored form of a bit pattern under a lane type (R295). -/
def narrowLane (t : LaneType) (w : Word) : Word :=
  match t with
  | .i32 => w
  | .f32 => w
  | .i16 => BitVec.ofInt 32 (signed 16 w.toNat)
  | _ => BitVec.ofNat 32 (field w.toNat 0 16)

/-- Order for MIN and MAX, -0 below +0 (R296). -/
def xBelow (a b : Xv) : Bool :=
  xLt a b || (match a, b with
    | .rat s n _ _, .rat u m _ _ => n == 0 && m == 0 && s && !u
    | _, _ => false)

def laneMin (t : LaneType) (a b : Word) : Word :=
  narrowLane t <| match laneFloat t with
  | some f =>
    let x := laneVal t a
    let y := laneVal t b
    if x = .nan ∨ y = .nan then BitVec.ofNat 32 (canonNan f) else if xBelow y x then b else a
  | none => if laneInt t b < laneInt t a then b else a

def laneMax (t : LaneType) (a b : Word) : Word :=
  narrowLane t <| match laneFloat t with
  | some f =>
    let x := laneVal t a
    let y := laneVal t b
    if x = .nan ∨ y = .nan then BitVec.ofNat 32 (canonNan f) else if xBelow x y then b else a
  | none => if laneInt t a < laneInt t b then b else a

def laneBits (t : LaneType) (f : Word → Word → Word) (a b : Word) : Word := narrowLane t (f a b)

def shiftCount (b : Word) : Nat := field b.toNat 0 5

/-- SHL; an i16 result saturates (R296). -/
def laneShl (t : LaneType) (a b : Word) : Word :=
  if t = .i16 then intLane .i16 (laneInt .i16 a * 2 ^ shiftCount b)
  else narrowLane t (a <<< shiftCount b)

/-- SHR, arithmetic for the integer types. -/
def laneShr (t : LaneType) (a b : Word) : Word :=
  if isIntLane t then intLane t (laneInt t a / 2 ^ shiftCount b)
  else narrowLane t (narrowLane t a >>> shiftCount b)

def maskLane (b : Bool) : Word := if b then 0xFFFFFFFF else 0

def laneLt (t : LaneType) (a b : Word) : Word := maskLane (xLt (laneVal t a) (laneVal t b))
def laneEq (t : LaneType) (a b : Word) : Word := maskLane (xEq (laneVal t a) (laneVal t b))

/-- CVT under the vector unit's column of R278. -/
def laneCvt (src dst : LaneType) (rna : Bool) (a : Word) : Word :=
  match laneFloat dst with
  | some f => floatLane f rna (laneVal src a)
  | none =>
    if dst = .i16 then intLane .i16 (toIntSat rna (-32768) 32767 (laneVal src a))
    else intLane .i32 (toIntSat rna (-2 ^ 31) (2 ^ 31 - 1) (laneVal src a))

def laneFma (t : LaneType) (rna : Bool) (a b c : Word) : Word :=
  match laneFloat t with
  | some f => floatLane f rna (xAdd (xMul (laneVal t a) (laneVal t b)) (laneVal t c))
  | none => intLane t (laneInt t a * laneInt t b + laneInt t c)

/-- Adjacent pairs combined, the fixed tree of R296. -/
def pairUp (f : Word → Word → Word) : List Word → List Word
  | a :: b :: xs => f a b :: pairUp f xs
  | xs => xs

def treeReduce (f : Word → Word → Word) (xs : List Word) : Word :=
  ((pairUp f (pairUp f (pairUp f (pairUp f (pairUp f (pairUp f xs))))))[0]?).getD 0

/-- The six rounding levels of RSUM. -/
def laneAdd (t : LaneType) (rna : Bool) : Word → Word → Word := lane2 t rna (· + ·) xAdd

end Sys2Proof.Machine
end

