-- ==== Sys2Proof/Machine/Kv.lean ====
section
/-!
DEFINITION. Sequences, lanes, slots and reels of the KV store: their sizes, their addresses, appends and errors (R307 to R309, R315,
R316, R321, R322, R329).
-/

namespace Sys2Proof.Machine

/-! ## Descriptors (R307, R332) -/

/-- W. -/
def descW (d : BitVec 41) : Nat := 16 * (field d.toNat 0 12 + 1)
def descLayers (d : BitVec 41) : Nat := field d.toNat 12 6 + 1
def descHeads (d : BitVec 41) : Nat := field d.toNat 18 4 + 1
/-- d. -/
def descDim (d : BitVec 41) : Nat := 32 * (field d.toNat 22 2 + 1)
def descKf (d : BitVec 41) : Nat := field d.toNat 24 4
/-- S; 17 to 31 act as 16. -/
def descSinks (d : BitVec 41) : Nat := min (field d.toNat 28 5) 16
def descScore (d : BitVec 41) : Bool := bitOf d.toNat 33
/-- ZS; 0 acts as 2, 5 to 7 act as 4. -/
def descZone (d : BitVec 41) : Nat :=
  let z := field d.toNat 34 3
  if z = 0 then 2 else min z 4
def descDecay (d : BitVec 41) : Nat := field d.toNat 37 4

/-- Bits of an element of a format; the reserved codes, of which only a faulty command can name one, as 16 (R273, log 30). -/
def kfBits (kf : Nat) : Nat :=
  if kf ≤ 2 then 4 else if kf ≤ 5 || kf = 8 || kf = 9 || kf = 13 then 8 else if kf = 7 || kf = 12 then 32 else 16
/-- d · kb: bytes of a key, or of a value, of `d` elements. -/
def kvBytes (d kf : Nat) : Nat := d * kfBits kf / 8
def kfGood (kf : Nat) : Bool := 8 ≤ kf && kf < 12

def slotSize (d : BitVec 41) : Nat := 128 * ceilDiv (kvBytes (descDim d) (descKf d)) 64
def slotsPerReel (d : BitVec 41) : Nat := Config.reelBytes / slotSize d
def reelsPerLane (d : BitVec 41) : Nat := ceilDiv (descW d) (slotsPerReel d)
def laneCount (d : BitVec 41) : Nat := descLayers d * descHeads d
def reelsNeeded (d : BitVec 41) : Nat := laneCount d * reelsPerLane d

/-! ## Lanes and slots (R308) -/

def laneOf (q : Seq) (l : Nat) : Lane := sget .init q.lanes l
def putLane (l : Nat) (v : Lane) (q : Seq) : Seq := { q with lanes := sput .init q.lanes l v }
def kvSlotOf (v : Lane) (j : Nat) : KvSlot := sget .init v.slots j
def putKvSlot (j : Nat) (x : KvSlot) (v : Lane) : Lane := { v with slots := sput .init v.slots j x }
def validSlots (v : Lane) : Sparse KvSlot := v.slots.filter (fun e => e.2.valid)
def fillCount (v : Lane) : Nat := (validSlots v).length

/-- Reels of a lane, by reel number. -/
def laneReels (q : Seq) (l : Nat) : List Nat := (q.reels.drop (l * reelsPerLane q.desc)).take (reelsPerLane q.desc)

/-- Byte address in the KV store of slot `j` of a lane. -/
def kvSlotAddr (q : Seq) (l j : Nat) : Nat :=
  let spr := slotsPerReel q.desc
  Config.reelBytes * ((q.reels[l * reelsPerLane q.desc + j / spr]?).getD 0) + (j % spr) * slotSize q.desc

/-- Word index of a slot's metadata among the KV store's upsets: past the reels, one word for each slot. -/
def metaKey (q l j w : Nat) : Nat := 2 ^ 32 + q * 2 ^ 26 + l * w + j

/-- Word index of a lane's own metadata: its counter, then the normalisers of head `i - 1`. -/
def laneKey (q l i : Nat) : Nat := 2 ^ 36 + q * 2 ^ 14 + l * 16 + i

/-- The metadata word of a slot (R316). -/
def metaWord (x : KvSlot) : Nat := x.tag.toNat + 2 ^ 32 * x.score.toNat + flagBit x.valid 48

/-- A slot's metadata from its word. -/
def slotOfWord (w : Nat) : KvSlot :=
  { valid := bitOf w 48, tag := BitVec.ofNat 32 (field w 0 32), score := BitVec.ofNat 16 (field w 32 16) }

/-! ## Reel books (R321) -/

def freeReels (s : State) : List Nat :=
  (span 0 Config.reels).filter (fun r => goodReel s.pwr r && (reelOwner s r).isNone)

/-! ## Errors (R329) -/

/-- A sequence that has seen an uncorrectable error. -/
def markSeq (q : Nat) (s : State) : State := putSeq q { seqOf s q with poisoned := true } s

/-- The words `[w, w + n)` of a sequence's reels are read: their findings, and whether one was uncorrectable. -/
def kvWordsRead (q w n : Nat) (s : State) : Bool × State :=
  let ten := some (seqOf s q).tenant
  let bad := uncorrectableIn s.loom.kvUp w n
  let s1 := loomTally 0x48 ten bad (loomTally 0x47 ten (correctedIn s.loom.kvUp w n) s)
  (decide (bad ≠ 0), if bad = 0 then s1 else markSeq q s1)

/-- What a read leaves standing of an upset: an uncorrectable word and one whose error went unseen have been dealt with, and a
miscorrected one reads as corrected from then on (R120, R465). -/
def upsetAfter : UpsetKind → Option UpsetKind
  | .corrected => some .corrected
  | .miscorrected _ => some .corrected
  | _ => none

/-- A slot's metadata as a read finds it: an uncorrectable word costs the slot its valid bit (R329). -/
def slotUpset (k : UpsetKind) (x : KvSlot) : KvSlot :=
  match k with
  | .corrected => x
  | .uncorrectable => { x with valid := false }
  | .miscorrected v => slotOfWord v.toNat
  | .silent v => slotOfWord v.toNat

/-- A lane's counter or a head's normalisers, from a word. -/
def putLaneWord (i w : Nat) (v : Lane) : Lane :=
  if i = 0 then { v with npos := BitVec.ofNat 32 (field w 0 32) }
  else { v with m := sput none v.m (i - 1) (some (BitVec.ofNat 32 (field w 0 32)))
                r := sput none v.r (i - 1) (some (BitVec.ofNat 32 (field w 32 32))) }

/-- A lane's own metadata word as a read finds it; the value of an uncorrectable one is free (R329, log 3). -/
def laneUpset (k : UpsetKind) (i free : Nat) (v : Lane) : Lane :=
  match k with
  | .corrected => v
  | .uncorrectable => putLaneWord i (ofLe ((span free 8).map Config.freeByte)) v
  | .miscorrected w => putLaneWord i w.toNat v
  | .silent w => putLaneWord i w.toNat v

/-- The books of an upset that a read finds (R445). -/
def upsetBooks (k : UpsetKind) (ten : Nat) : State → State :=
  match k with
  | .corrected => loomTally 0x47 (some ten) 1
  | .miscorrected _ => loomTally 0x47 (some ten) 1
  | .uncorrectable => loomTally 0x48 (some ten) 1
  | .silent _ => id

/-- One metadata word of a lane is read, if an upset stands on it; `f` is what the upset does to the lane. -/
def readMetaWord (q l key : Nat) (f : UpsetKind → Nat → Lane → Lane) (s : State) : State :=
  match upsetOf s.loom.kvUp key with
  | none => s
  | some k =>
    let sq := seqOf s q
    let sq1 := { putLane l (f k s.free (laneOf sq l)) sq with poisoned := sq.poisoned || k == .uncorrectable }
    let s1 := onLoom (fun o => { o with kvUp := match upsetAfter k with
      | some k1 => addUpsets (clearUpsets o.kvUp key 1) [(key, k1)]
      | none => clearUpsets o.kvUp key 1 }) (putSeq q sq1 s)
    upsetBooks k sq.tenant { s1 with free := s1.free + 8 }

/-- A slot's metadata word is read. -/
def readSlotMeta (q l j : Nat) (s : State) : State :=
  readMetaWord q l (metaKey q l j (descW (seqOf s q).desc)) (fun k _ v => putKvSlot j (slotUpset k (kvSlotOf v j)) v) s

/-- A lane's own metadata words are read. -/
def readLaneMeta (q l : Nat) (s : State) : State :=
  (span 0 9).foldl (fun s i => readMetaWord q l (laneKey q l i) (fun k free => laneUpset k i free) s) s

/-- Every metadata word of a lane is read. -/
def readMeta (q l : Nat) (s : State) : State :=
  let w := descW (seqOf s q).desc
  let base := metaKey q l 0 w
  let mine := (s.loom.kvUp.filter (fun e => decide (base ≤ e.1) && decide (e.1 < base + w))).map (·.1 - base)
  readLaneMeta q l (mine.foldl (fun s j => readSlotMeta q l j s) s)

/-- An open writes every metadata word of its id anew (R308, R329). -/
def clearMetaUps (q : Nat) : State → State := onLoom (fun l => { l with
  kvUp := l.kvUp.filter (fun e => !((decide (metaKey q 0 0 0 ≤ e.1) && decide (e.1 < metaKey (q + 1) 0 0 0))
    || (decide (laneKey q 0 0 ≤ e.1) && decide (e.1 < laneKey (q + 1) 0 0)))) })

/-! ## Appends (R315) -/

/-- Order of position tags. -/
def tagBefore (a b : Nat × KvSlot) : Bool := decide (a.2.tag.toNat < b.2.tag.toNat)

def insTag (x : Nat × KvSlot) : List (Nat × KvSlot) → List (Nat × KvSlot)
  | [] => [x]
  | y :: ys => if tagBefore x y then x :: y :: ys else y :: insTag x ys

/-- The first of a list by score; equal scores keep the earlier. -/
def lowestScore : List (Nat × KvSlot) → Option (Nat × KvSlot)
  | [] => none
  | x :: xs => match lowestScore xs with
    | none => some x
    | some y => if y.2.score.toNat < x.2.score.toNat then some y else some x

/-- The victim of a full lane. -/
def victim (d : BitVec 41) (v : Lane) : Option Nat :=
  let byTag := ((validSlots v).filter (fun e => decide (descSinks d ≤ e.2.tag.toNat))).foldl (fun a x => insTag x a) []
  if descScore d then (lowestScore (byTag.take (max 1 ((descW d - descSinks d) >>> descZone d)))).map (·.1)
  else byTag.head?.map (·.1)

/-- The slot a new position takes, and whether it replaces a victim. -/
def appendSlot (d : BitVec 41) (v : Lane) : Option Nat × Bool :=
  if fillCount v < descW d then ((span 0 (descW d)).find? (fun j => !(kvSlotOf v j).valid), false) else (victim d v, true)

/-- One position is appended to a lane, its key and value padded with zeros. -/
def appendPos (q l : Nat) (key value : List Byte) (s : State) : State :=
  let sq := seqOf s q
  let v := laneOf sq l
  let d := sq.desc
  match appendSlot d v with
  | (none, _) => putSeq q (putLane l { v with npos := v.npos + 1 } sq) s
  | (some j, replaced) =>
    let n := kvBytes (descDim d) (descKf d)
    let half := slotSize d / 2
    let a := kvSlotAddr sq l j
    let data := slice (key.take n) 0 half ++ slice (value.take n) 0 half
    let v1 := putKvSlot j { valid := true, tag := v.npos, score := 0 } { v with npos := v.npos + 1 }
    let s1 := putSeq q (putLane l v1 sq) s
    let s2 := onLoom (fun o => { o with
      kv := mwrite o.kv a data
      kvUp := clearUpsets (clearUpsets (clearUpsets o.kvUp (a / 8) (slotSize d / 8)) (metaKey q l j (descW d)) 1) (laneKey q l 0) 1 }) s1
    loomTally (if descScore d then 0x55 else 0x56) (some sq.tenant) (if replaced then 1 else 0) s2

/-! ## Aperture words (R316) -/

/-- The lane and slot of byte `b` of reel index `x`; none past the reels or the slots. -/
def slotAt (q : Seq) (x b : Nat) : Option (Nat × Nat) :=
  let rpl := reelsPerLane q.desc
  let j := (x % rpl) * slotsPerReel q.desc + b / slotSize q.desc
  if x < q.reels.length && b / slotSize q.desc < slotsPerReel q.desc && j < descW q.desc then some (x / rpl, j) else none

def seqServes (q : Seq) : Bool := q.st == .opened || q.st == .closing

end Sys2Proof.Machine
end

