-- ==== Sys2Proof/Machine/Admission.lean ====
section
/-!
DEFINITION. The admission stage: fetches, the tests of a submission, sequences, and records (R85, R318 to R320, R325, R353 to R359, R408).
-/

namespace Sys2Proof.Machine

/-! ## What a fetch needs (R353) -/

/-- The conditions that name no ring: L0 with target L0, no point change and no weave swap in progress. -/
def fetchOpen (s : State) : Bool :=
  s.pwr.st == .l0 && s.pwr.target == .l0 && s.pwr.stage == .steady && !s.loom.clock.relocking && !s.loom.clock.pending
    && s.loom.weave.swap == .idle

/-- Admitted jobs of a tenant, with entries fetched and not answered. -/
def heldJobs (s : State) (t : Nat) : Nat :=
  (jobsOfTenant s t).length + (s.loom.fetched.filter (fun f => f.ring / 4 == t)).length

/-- Room of a tenant's completion ring. -/
def recordRoom (s : State) (t : Nat) : Nat :=
  let c := ringBefore s (4 * t + 1)
  if c.en then ringEntries c - (ringHeld c + c.resv) else 0

def tenantOpen (s : State) (t : Nat) : Bool := decide (0 < recordRoom s t) && decide (heldJobs s t < 64)

/-- Whether a submit or bobbin ring can be fetched, by its counters before the doorbells of this lc (R363). -/
def canFetch (s : State) (n : Nat) : Bool :=
  fetchOpen s && (n % 4 == 0 || n % 4 == 3) && (ringOf s n).en && decide (0 < ringHeld (ringBefore s n)) && tenantOpen s (n / 4)

/-- One read of a ring is outstanding at a time. -/
def readOutstanding (s : State) (n : Nat) : Bool :=
  s.loom.reads.any (fun r => match r.what with | .ring m _ => m == n | _ => false)

/-- The next ring in round-robin order. -/
def nextRing (s : State) : Option Nat :=
  ((span 1 1024).map (fun i => (s.loom.rr + i) % 1024)).find? (fun n => canFetch s n && !readOutstanding s n)

/-! ## Fetching -/

/-- Consecutive entries one read can take: those held, the room, the end of the ring and the end of a 4 KiB page (R334). -/
def fetchCount (s : State) (n want : Nat) : Nat :=
  let r := ringBefore s n
  min (min want 3) (min (ringHeld r) (min (recordRoom s (n / 4)) (min (64 - heldJobs s (n / 4))
    (min (ringEntries r - r.head.toNat % ringEntries r) ((4096 - entryAddr r r.head % 4096) / 64)))))

/-- SUBMISSION_FETCH: a read of up to `want` entries of the next ring is sent. -/
def fetchEffect (want : Nat) (s : State) : State :=
  match nextRing s with
  | none => s
  | some n =>
    let k := fetchCount s n want
    if k = 0 then s
    else
      let r := ringOf s n
      let t := n / 4
      let tag := s.loom.nextTag
      let a := entryAddr r r.head
      let rd : DevRead :=
        { tag := tag, mod := moduleFor s t, tenant := t, what := .ring n k, addr := a, len := 64 * k, got := none }
      enqueue { kind := .read, addr := a, data := [], len := 64 * k, tag := tag, tenant := t, what := .fetch n }
        (onLoom (fun l => { l with nextTag := (tag + 1) % 4096, rr := n, reads := l.reads ++ [rd] }) s)

def execSubmissionFetch (n : BitVec 2) (s : State) : Host.Outcome State Fault Refusal := fin s (fetchEffect n.toNat s)

/-- An entry is fetched: HEAD passes it and one completion entry is reserved. -/
def takeEntry (n : Nat) (bytes : List Byte) (s : State) : State :=
  let r := ringOf s n
  let f : Fetched := { ring := n, index := r.head, bytes := bytes, esc := false, order := s.loom.order, lc := lcOf s }
  let s1 := onLoom (fun l => { l with fetched := l.fetched ++ [f], order := l.order + 1 }) s
  let s2 := putRing n { r with head := r.head + 1 } s1
  let c := 4 * (n / 4) + 1
  putRing c { ringOf s2 c with resv := (ringOf s2 c).resv + 1 } s2

/-- The data of a ring read arrives in this lc. Entries that can no longer be fetched stay in the ring (R152, R342). -/
def entriesArrived (n k : Nat) (data : List Byte) (s : State) : State :=
  (span 0 k).foldl (fun s i => if canFetch s n then takeEntry n (slice data (64 * i) 64) s else s) s

/-! ## Sequences (R318 to R320) -/

/-- The lowest-numbered FREE sequence id. -/
def freeSeqId (s : State) : Option Nat := (span 0 256).find? (fun q => (seqOf s q).st == .free)

/-- A tenant's entry is refused before its own tests: blocked, faulted or malformed (R265, R318, R325, R354). -/
def seqRefusal (s : State) (t : Nat) (b : List Byte) : Option Nat :=
  if (tenantOf s t).blocked then some 0x15
  else if (tenantOf s t).faulted || entRes b then some 0x20 else none

/-- Whether a repeat boundary in this lc frees a sequence; with no weave installed no repeat ends by itself. -/
def returnsNow (s : State) (q : Nat) : Bool :=
  let x := seqOf s q
  mesochronousRuns s && decide (s.loom.weave.activeLc ≠ 0) && boundaryLc s == some (lcOf s)
    && (x.st == .returning || (x.st == .closing && !bindsSeq s q) || (tenantOf s x.tenant).treset.isSome)

/-- The reels a SEQ_OPEN can take: the free ones, with those that return at a boundary of this lc (R324). -/
def openReels (s : State) : List Nat :=
  (span 0 Config.reels).filter (fun r => goodReel s.pwr r && (match reelOwner s r with
    | some q => returnsNow s q
    | none => true))

/-- Reels that an open takes leave the sequence that returns them in this lc (R321, R324). -/
def leaveReels (rs : List Nat) : State → State := onLoom (fun l => { l with
  seqs := l.seqs.map (fun e => (e.1, { e.2 with reels := e.2.reels.filter (fun r => !rs.contains r) })) })

/-- SEQ_OPEN. -/
def answerOpen (f : Fetched) (s : State) : State :=
  let b := f.bytes
  let t := f.ring / 4
  let d := BitVec.ofNat 41 (leAt b 32 8)
  let refuse := fun (code : Nat) => answerNow (entRecord f code 0 0 []) s
  match seqRefusal s t b with
  | some code => refuse code
  | none =>
    if !kfGood (descKf d) || decide (descW d < 2 * descSinks d) then refuse 0x20
    else match freeSeqId s with
      | none => refuse 0x11
      | some q =>
        let reels := (openReels s).take (reelsNeeded d)
        if reels.length < reelsNeeded d then refuse 0x11
        else
          let sq : Seq := { st := .opened, tenant := t, desc := d, reels := reels, lanes := [], poisoned := false }
          answerNow (entRecord f 0 q 0 [BitVec.ofNat 8 q]) (putSeq q sq (clearMetaUps q (leaveReels reels s)))

/-- SEQ_CLOSE: its record waits for the boundary that frees the sequence. -/
def answerClose (f : Fetched) (s : State) : State :=
  let b := f.bytes
  let t := f.ring / 4
  let q := leAt b 32 1
  let refuse := fun (code : Nat) => answerNow (entRecord f code q 0 []) s
  match seqRefusal s t b with
  | some code => refuse code
  | none =>
    if badBind s t q then refuse 0x20
    else
      let owed : CloseOwed := { seq := q, tenant := t, tag := entTag b, subidx := f.index }
      returnSeqs (putSeq q { seqOf s q with st := .closing } (onLoom (fun l => { l with closes := l.closes ++ [owed] }) s))

/-- A NOP is answered 0x00 after the block and format tests. -/
def answerNop (f : Fetched) (s : State) : State :=
  let t := f.ring / 4
  let code := if (tenantOf s t).blocked then 0x15 else if entRes f.bytes then 0x20 else 0
  answerNow (entRecord f code (entDraft f.bytes) 0 []) s

/-! ## Answers: in fetch order, at most one per lc -/

/-- The front entry leaves the stage, if `p` takes it and this lc has had no answer. One fetched before the target fell is answered at L1
and L2 too and holds no move: the model's choice (R153, log 20). -/
def answerFront (p : Fetched → Bool) (g : Fetched → State → State) (s : State) : State :=
  match s.loom.fetched with
  | [] => s
  | f :: rest =>
    if p f && s.loom.answeredAt != some (lcOf s) && loomReachable s.pwr then
      g f (onLoom (fun l => { l with fetched := rest, answeredAt := some (lcOf s) }) s)
    else s

def isSubmit (f : Fetched) : Bool := f.ring % 4 == 0

/-- RUN also answers an entry of unknown OP, which is malformed. -/
def takesRun (f : Fetched) : Bool :=
  isSubmit f && (f.esc || !(entOp f.bytes == 0 || entOp f.bytes == 2 || entOp f.bytes == 3))

def execRun (s : State) : Host.Outcome State Fault Refusal := fin s (answerFront takesRun runFront s)
def execSeqOpen (s : State) : Host.Outcome State Fault Refusal :=
  fin s (answerFront (fun f => isSubmit f && !f.esc && entOp f.bytes == 2) answerOpen s)
def execSeqClose (s : State) : Host.Outcome State Fault Refusal :=
  fin s (answerFront (fun f => isSubmit f && !f.esc && entOp f.bytes == 3) answerClose s)
def execSubmitNop (s : State) : Host.Outcome State Fault Refusal :=
  fin s (answerFront (fun f => isSubmit f && !f.esc && entOp f.bytes == 0) answerNop s)

/-! ## Records (R357) -/

/-- A checkpoint whose rows have all moved and whose record is due ends well, a SAVE once its image writes have left (R430). -/
def endWell (s : State) : State := onJobs (fun js => js.map (fun j =>
  if j.ended.isNone && movesDone j && decide (j.recordAt ≤ lcOf s) && !outboundLeft s j.order then { j with ended := some 0 } else j)) s

/-- RECORD_ISSUE: the record that is due first. -/
def recordEffect (s : State) : State :=
  if !loomReachable s.pwr then s
  else match dueJob (endWell s) with
    | none => s
    | some j => issueJob j s

def execRecordIssue (s : State) : Host.Outcome State Fault Refusal := fin s (recordEffect s)

end Sys2Proof.Machine
end

