-- ==== Sys2Proof/Machine/WarpBase.lean ====
section
/-!
DEFINITION. The warp modules' registers, training and the chain's registers (R373, R378 to R382, R385, R393 to R400).
-/

namespace Sys2Proof.Machine

/-! ## Training (R379 to R381) -/

/-- A failure that waits for TRAIN to be written 0 and then 1. -/
def failWaits (f : BitVec 4) : Bool := f == 2 || f == 3 || f == 4
/-- A failure that retries. -/
def failRetries (f : BitVec 4) : Bool := f == 1 || f == 5 || f == 6

/-- A write of L_WARP_CTRL: TRAIN of each module that is on. -/
def writeWarpCtrl (d : DWord) (s : State) : State :=
  (span 0 4).foldl (fun s m =>
    let w := warpOf s m
    let b := bitOf d.toNat m
    if !isPowered s (2 + m) || w.train == b then s
    else if b then putWarp m { w with train := true, phase := if w.locked then w.phase else 1 } s
    else putWarp m { w with train := false, phase := if w.locked then w.phase else 0 } s) s

/-- Training ends with a failure. -/
def failTraining (m : Nat) (code : BitVec 4) (s : State) : State :=
  putWarp m { warpOf s m with fail := code, phase := 0, credits := 0 } s

/-- Whether the partner of module `m` has the position R373 asks for. -/
def goodPartner (s : State) (m : Nat) (pos : BitVec 3) : Bool :=
  if m < 2 then decide (pos.toNat + 1 = s.pwr.chainPos.toNat) else decide (pos.toNat = s.pwr.chainPos.toNat + 1)

/-- Draft ids whose resident or next version spans a module, by tenant. -/
def spanningTenants (s : State) (m : Nat) : List Nat :=
  let names := fun (v : Option Version) => match v with | some v => v.warpMask.getLsbD m | none => false
  sortRising ((s.loom.drafts.filter (fun e => e.2.st != .empty && (names e.2.resident || names e.2.next))).map (fun e => e.2.tenant))

/-- The latency locks; a relock at another latency is counted and told to every tenant whose drafts span the module (R397). -/
def lockWarp (m : Nat) (s : State) : State :=
  let w := warpOf s m
  let s1 := markStale (putWarp m { w with
    phase := 4, locked := true, point := s.loom.clock.current, credits := 0, crcRun := 0, heard := lcOf s, syncOwed := 0
    partnerLocked := false, remembered := none } s)
  match w.remembered with
  | some old =>
    if old = w.lat then s1
    else (spanningTenants s1 m).foldl (fun s t => sendEvent t evLatencyChanged m w.lat.toNat [] s) (loomTally 0x51 none 1 s1)
  | none => s1

/-- WARP_PHASE_END. Phase 3 waits at L2 and L3. The failures of phase 2 are tested in the order of their codes. No link locks below 8 lc
(R390, log 34). -/
def warpPhaseEnd (m : Nat) (o : WarpOutcome) (s : State) : State :=
  let w := warpOf s m
  let lat := ceilDiv o.rtMax 2 + 3
  if !isPowered s (2 + m) || !w.train || w.locked then s
  else if w.phase = 1 then
    if o.completed then putWarp m { w with phase := 2, rate := o.rate, reversed := o.reversed, credits := 64 } s
    else failTraining m 1 s
  else if w.phase = 2 then
    if !o.completed then s
    else if o.partnerPoint ≠ s.loom.clock.current then failTraining m 2 s
    else if !goodPartner s m o.partnerPos then failTraining m 3 s
    else if o.ident ≠ Config.ident then failTraining m 4 s
    else putWarp m { w with phase := 3 } s
  else if w.phase = 3 then
    if !o.completed || !mesochronousRuns s || decide (lat < 8) then s
    else if 512 < lat then failTraining m 5 s
    else if o.rtMin + 4 < o.rtMax then failTraining m 6 s
    else putWarp m { w with phase := 4, lat := BitVec.ofNat 16 lat } s
  else if w.phase = 4 then lockWarp m s
  else s

/-- WARP_TRAIN_RETRY, every 10 ms while TRAIN is 1. -/
def warpRetry (m : Nat) (s : State) : State :=
  let w := warpOf s m
  if isPowered s (2 + m) && w.train && !w.locked && w.phase == 0 && failRetries w.fail then putWarp m { w with phase := 1 } s
  else s

/-- Whether a retrain's cause holds; loss of link is seen outside. A slot is empty once its delivery lc has come and no frame of it has
arrived (log 34). -/
def retrainDue (s : State) (m : Nat) : WarpRetrainCause → Bool
  | .crcRun => decide (16 ≤ (warpOf s m).crcRun)
  | .linkLoss => true
  | .emptySlots => decide ((warpOf s m).heard + 64 * issueInterval s m + (warpOf s m).lat.toNat ≤ lcOf s)

def warpRetrainEffect (m : Nat) (c : WarpRetrainCause) (s : State) : State :=
  let w := warpOf s m
  if isPowered s (2 + m) && w.locked && retrainDue s m c then linkDown (2 + m) s else s

/-! ## Registers (R400) -/

def warpCtrlWord (s : State) : Nat := packBits ((span 0 4).map (fun m => isPowered s (2 + m) && (warpOf s m).train))

def warpLatWord (s : State) (m : Nat) : Nat :=
  let w := warpOf s m
  if !isPowered s (2 + m) || !w.locked then 0
  else w.lat.toNat + 2 ^ 16 + 2 ^ 17 * w.point.toNat + 2 ^ 20 * w.rate.toNat + flagBit w.reversed 22

def warpStatWord (s : State) (m : Nat) : Nat :=
  let w := warpOf s m
  if !isPowered s (2 + m) then 0
  else w.fail.toNat + 2 ^ 4 * w.phase.toNat + 2 ^ 8 * w.crc.toNat + 2 ^ 24 * w.poison.toNat + 2 ^ 40 * w.missed.toNat
    + 2 ^ 48 * w.unowned.toNat

/-- HEAD: locked with no locked upstream link (R382, R400). -/
def isHead (s : State) : Bool := s.loom.chain.locked && !(warpOf s 0).locked && !(warpOf s 1).locked

def chainWord (s : State) : Nat :=
  let c := s.loom.chain
  c.sdelay.toNat + flagBit c.locked 10 + flagBit (isHead s) 11 + 2 ^ 12 * s.pwr.chainPos.toNat + flagBit c.stretchLate 15
    + flagBit c.resync 16

/-- A write of L_CHAIN; SDELAY does not change while LOCKED is 1. -/
def writeChain (d : DWord) (s : State) : State :=
  let n := d.toNat
  lockHead (onLoom (fun l => { l with chain := { l.chain with
    sdelay := if l.chain.locked then l.chain.sdelay else BitVec.ofNat 10 (field n 0 10)
    stretchLate := l.chain.stretchLate && !bitOf n 15, resync := l.chain.resync && !bitOf n 16 } }) s)

/-- A write of L_FOLLOWn: bits of drafts that are EMPTY (R385). -/
def writeFollow (n : Nat) (d : DWord) (s : State) : State :=
  let old := sget 0 s.loom.chain.follow n
  let new := packBits ((span 0 64).map (fun b =>
    if (draftOf s (64 * n + b)).st = .empty then bitOf d.toNat b else bitOf old.toNat b))
  onLoom (fun l => { l with chain := { l.chain with follow := sput 0 l.chain.follow n (BitVec.ofNat 64 new) } }) s

def execWarpTrain (data : DWord) (s : State) : Host.Outcome State Fault Refusal :=
  fin s (hostPosts none (writeWarpCtrl data) s)
def execWarpPhaseEnd (m : BitVec 2) (o : WarpOutcome) (s : State) : Host.Outcome State Fault Refusal :=
  fin s (warpPhaseEnd m.toNat o s)
def execWarpTrainRetry (m : BitVec 2) (s : State) : Host.Outcome State Fault Refusal := fin s (warpRetry m.toNat s)
def execWarpRetrain (m : BitVec 2) (cause : WarpRetrainCause) (s : State) : Host.Outcome State Fault Refusal :=
  fin s (warpRetrainEffect m.toNat cause s)

end Sys2Proof.Machine
end

