-- ==== Sys2Proof/Machine/WarpRows.lean ====
section
/-!
DEFINITION. Timed frames, sent and delivered: flits, poison, marks, stretch and SYNC (R375 to R377, R382, R384 to R387, R391, R394).
-/

namespace Sys2Proof.Machine

def modWarp (m : Nat) (f : WarpModule → WarpModule) (s : State) : State := putWarp m (f (warpOf s m)) s

/-- A full chain lc from its low 32 bits, by serial-number arithmetic against the die's own count (R127, R377). -/
def chainFull (s : State) (v : Nat) : Int :=
  (s.loom.chain.now.toNat : Int) + signed 32 ((v + 2 ^ 32 - s.loom.chain.now.toNat % 2 ^ 32) % 2 ^ 32)

/-- A chain lc as an lc of this die. -/
def localLc (s : State) (c : Int) : Int := (lcOf s : Int) + (c - (s.loom.chain.now.toNat : Int))

/-! ## Sending (R377) -/

structure FrameOut where
  flit    : Option (List Byte × Bool)
  notice  : Option Nat
  mark    : Option (Nat × Nat)
  stretch : Option Nat
  sync    : Bool
deriving DecidableEq, Repr

/-- The 80 bytes of a frame. -/
def frameBytes (s : State) (f : FrameOut) : List Byte :=
  let now := s.loom.chain.now.toNat
  let poison := match f.flit with | some (_, p) => p | none => f.notice.isSome
  let b0 := flagBit f.flit.isSome 0 + flagBit poison 1 + flagBit f.mark.isSome 2 + flagBit f.stretch.isSome 3 + flagBit f.sync 4
    + flagBit s.loom.chain.locked 5
  let id := match f.mark, f.notice with
    | some k, _ => k.1
    | none, some d => d
    | none, none => 0
  let a := if f.sync then now else match f.mark with | some k => k.2 | none => 0
  let b := if f.sync then now / 2 ^ 32 else f.stretch.getD 0
  let body := toLe 1 b0 ++ toLe 1 s.pwr.chainPos.toNat ++ toLe 2 id ++ toLe 4 a ++ toLe 4 b
    ++ (match f.flit with | some (d, _) => slice d 0 64 | none => List.replicate 64 0)
  body ++ toLe 4 (crc32c body)

/-- The flit handed to a module in this lc; a degraded or poisoned pass poisons it (R375, R387, R466). -/
def handedFlit (s : State) (m : Nat) : Option (List Byte × Bool) :=
  (s.loom.flits.find? (fun f => f.dest == warpDest m && f.due == lcOf s)).map (fun f =>
    (f.data, f.poisoned || (match f.slot.bind (slotOfEntry s) with | some x => x.degraded || x.poisoned | none => false)))

/-- Frames leave in frame slots, multiples of I on the chain count; at L2 the count stands and each frame is a slot of its own. -/
def isFrameSlot (s : State) (m : Nat) : Bool :=
  orderingRuns s.pwr && !s.loom.clock.relocking
    && (s.pwr.st == .l2 || decide (s.loom.chain.now.toNat % issueInterval s m = 0))

/-- Each module sends one frame in an lc. -/
def warpKey (m : Nat) : Nat := 4000 + m

/-- What this slot's frame carries. SYNC goes while the partner is not locked; in the 64 slots after a change of the count a
waiting MARK or STRETCH goes first (R377, R382). -/
def frameOf (s : State) (m : Nat) : FrameOut :=
  let w := warpOf s m
  let st := (w.txStretch.find? (fun e => decide (e.1 ≤ lcOf s))).map (·.2)
  let mk := w.txMarks.head?
  let down := decide (2 ≤ m) && s.loom.chain.locked
  let sync := down && (!w.partnerLocked || (decide (0 < w.syncOwed) && st.isNone && mk.isNone))
  let mark := if sync then none else mk
  let flit := handedFlit s m
  { flit := flit, mark := mark, stretch := if sync then none else st.map (· % 2 ^ 32), sync := sync
    notice := if flit.isSome || mark.isSome then none else w.txNotices.head? }

def sendFrame (m : Nat) (s : State) : State :=
  let w := warpOf s m
  if !w.locked || !isFrameSlot s m || s.loom.linkUse.contains (warpKey m, lcOf s) then s
  else
    let f := frameOf s m
    let s1 := takeLinks [(warpKey m, lcOf s)] (onLoom (fun l => { l with
      flits := l.flits.filter (fun g => !(g.dest == warpDest m && decide (g.due ≤ lcOf s))) }) s)
    putWarp m { w with
      sent := frameBytes s f
      txMarks := if f.mark.isSome then w.txMarks.drop 1 else w.txMarks
      txStretch := if f.stretch.isSome then w.txStretch.eraseP (fun e => decide (e.1 ≤ lcOf s)) else w.txStretch
      txNotices := if f.notice.isSome then w.txNotices.drop 1 else w.txNotices
      syncOwed := w.syncOwed - 1 } s1

def execWarpFrameSend (m : BitVec 2) (s : State) : Host.Outcome State Fault Refusal := fin s (sendFrame m.toNat s)

/-! ## Delivery: flits and poison (R375, R376, R387) -/

/-- The running pass of a draft. -/
def passOf (s : State) (d : Nat) : Option Slot := s.loom.weave.slots.find? (fun x => isPass x && x.draft == d)

def degradePass (d : Nat) (s : State) : State :=
  match passOf s d with
  | some x => poisonSlot x false s
  | none => s

/-- POISON and WARP_POISON count. -/
def countPoison (m : Nat) (s : State) : State :=
  loomTally 0x50 none 1 (modWarp m (fun w => { w with poison := satAdd w.poison 1 }) s)

/-- A flit reaches the attachment tile's receive register (R375). -/
def landFlit (m : Nat) (data : List Byte) (poisoned : Bool) : State → State :=
  receive (warpTile m) (dirCode (warpDir m)) data poisoned

/-- A poisoned delivery to the owner of the module. -/
def poisonedFlit (m : Nat) (s : State) : State :=
  match warpOwner s m (lcOf s) with
  | none => s
  | some d => landFlit m (List.replicate 64 0) true (degradePass d (countPoison m s))

/-- A flit of an intact frame. -/
def intactFlit (m : Nat) (bad : Bool) (data : List Byte) (s : State) : State :=
  match warpOwner s m (lcOf s) with
  | none => modWarp m (fun w => { w with unowned := satAdd w.unowned 1 }) s
  | some _ => if bad then poisonedFlit m s else landFlit m data false s

/-- A fault notice. -/
def faultNotice (m id : Nat) (s : State) : State := degradePass id (countPoison m s)

/-! ## Marks (R386) -/

/-- Largest locked latency among the upstream modules. -/
def upstreamLat (s : State) : Nat :=
  ([0, 1].filter (fun m => (warpOf s m).locked)).foldl (fun a m => max a (warpOf s m).lat.toNat) 0

/-- The first occurrence of a follower that a mark of chain lc `c` may claim, not begun yet. -/
def claimFor (s : State) (m d : Nat) (c : Int) : Option Nat :=
  let w := s.loom.weave
  let first := localLc s (c + (upstreamLat s + issueInterval s m + 3 : Nat))
  let lo := max first.toNat (lcOf s)
  let taken := ([0, 1].flatMap (fun k => (warpOf s k).marks)).filterMap (fun k => if k.id = d then some k.claim else none)
  let begun := (w.slots.filter (fun x => x.draft == d)).map (·.start)
  if !walking w then none
  else
    ((bookFrom 3 (draftStarts s d) (w.rep0 + w.activeLc * ((lo - w.rep0) / w.activeLc)) w.activeLc lo (taken ++ begun) 1).head?).filter
      (fun x => decide ((x : Int) < first + 1024))

/-- Whether a follower can take marks now. -/
def takesMarks (s : State) (d : Nat) : Bool :=
  let x := draftOf s d
  let t := tenantOf s x.tenant
  (x.st == .resident || x.st == .swapPending) && !t.blocked && !t.faulted

/-- A MARK is acted on once; `c` is the whole chain lc that its LC_A stands for. -/
def takeMark (m id : Nat) (c : Int) (s : State) : State :=
  if 2 ≤ m || !s.loom.chain.locked || s.loom.chain.acted.contains (id, c.toNat) || !isFollower s id then s
  else
    let s1 := onLoom (fun l => { l with chain := { l.chain with acted := l.chain.acted ++ [(id, c.toNat)] } }) s
    if 16 ≤ (warpOf s m).marks.length || !takesMarks s id then dropMark m id s1
    else match claimFor s m id c with
      | none => dropMark m id s1
      | some x => modWarp m (fun w => { w with marks := w.marks ++ [{ id := id, s := c.toNat, claim := x }] }) s1

/-! ## Stretch (R384, R391) -/

/-- A STRETCH target: taken, forwarded once, or late. -/
def takeStretch (m v : Nat) (s : State) : State :=
  let c := chainFull s v
  let t := localLc s c
  let n := (lcOf s : Int)
  if !s.loom.chain.locked || s.loom.clock.targets.any (fun x => (x : Int) == t) || s.loom.clock.lastStretch.any (fun x => (x : Int) == t)
  then s
  else if n < t then
    ((lockedWarps s).filter (fun k => k != m)).foldl (fun s k => owesStretch k (lcOf s + 2) c.toNat s) (addTarget t.toNat s)
  else
    markStale (onLoom (fun l => { l with chain := { l.chain with locked := false, stretchLate := true } }) (addTarget (lcOf s + 1) s))

/-! ## SYNC (R382, R394) -/

/-- The count moves: running passes of WARP drafts are degraded, and SYNC is owed downstream. -/
def moveCount (v : DWord) (s : State) : State :=
  let run := s.loom.weave.slots.filter (fun x => isPass x && (match slotVersion s x with | some v => v.warp | none => false))
  let s1 := run.foldl (fun s x => poisonSlot x false s) s
  let s2 := onLoom (fun l => { l with chain := { l.chain with now := v, resync := l.chain.resync || !run.isEmpty } }) s1
  [2, 3].foldl (fun s k => modWarp k (fun w => { w with syncOwed := 64 }) s) s2

/-- A SYNC frame; only one from the die below sets the count and locks, and none at L2 (R393). -/
def takeSync (m : Nat) (pos : BitVec 3) (locked : Bool) (v : DWord) (s : State) : State :=
  if !goodPartner s m pos then modWarp m (fun w => { w with fail := 3 }) s
  else if 2 ≤ m || !locked || s.loom.chain.sdelay = 0 || !mesochronousRuns s then s
  else
    let now := v + BitVec.ofNat 64 (warpOf s m).lat.toNat
    onLoom (fun l => { l with chain := { l.chain with locked := true } }) (if now = s.loom.chain.now then s else moveCount now s)

/-! ## Delivery -/

def frameIntact (b : List Byte) : Bool := b.length == 80 && leAt b 76 4 == crc32c (b.take 76)

/-- A frame that fails CRC may have carried a flit. -/
def damagedFrame (m : Nat) (s : State) : State :=
  poisonedFlit m (loomTally 0x4F none 1 (modWarp m (fun w => { w with crc := satAdd w.crc 1, crcRun := w.crcRun + 1 }) s))

/-- The fields of an intact frame take effect in this order: SYNC, STRETCH, MARK, then the flit or the notice. -/
def intactFrame (m : Nat) (b : List Byte) (s : State) : State :=
  let f := leAt b 0 1
  let locked := bitOf f 5
  let id := field (leAt b 2 2) 0 10
  let a := leAt b 4 4
  let h := leAt b 8 4
  let s1 := modWarp m (fun w => { w with crcRun := 0, partnerLocked := locked }) s
  let s2 := if bitOf f 4 then takeSync m (BitVec.ofNat 3 (field (leAt b 1 1) 0 3)) locked (BitVec.ofNat 64 (a + 2 ^ 32 * h)) s1 else s1
  let s3 := if bitOf f 3 && !bitOf f 4 then takeStretch m h s2 else s2
  let s4 := if bitOf f 2 && !bitOf f 4 then takeMark m id (chainFull s3 a) s3 else s3
  if bitOf f 0 then intactFlit m (bitOf f 1 || (s.loom.chain.locked && !locked)) (slice b 12 64) s4
  else if bitOf f 1 then faultNotice m id s4
  else s4

/-- A frame in its delivery lc. With the lock lost the flit that it carried, or may have carried, is missing (R387). -/
def frameDelivered (m : Nat) (b : List Byte) (s : State) : State :=
  if !(warpOf s m).locked then if frameIntact b && !bitOf (leAt b 0 1) 0 then s else poisonedFlit m s
  else if frameIntact b then intactFrame m b s else damagedFrame m s

/-- The delivery lc of a frame: L after the frame slot in which the partner sent it (R375, R380). -/
def deliveryLc (w : WarpModule) (slot : Nat) : Nat := if w.locked then slot + w.lat.toNat else slot

/-- The elastic buffer takes another frame (R390). -/
def bufferRoom (w : WarpModule) : Bool := decide (80 * (w.rx.length + 1) ≤ 16384)

/-- WARP_FRAME_DELIVERY: the frame arrives, and is held in the elastic buffer until its delivery lc (R380). One whose delivery lc has
come is delivered now. -/
def frameArrived (m : Nat) (f : WireFrame) (s : State) : State :=
  let slot := min f.slot (lcOf s)
  let due := deliveryLc (warpOf s m) slot
  let s1 := if (warpOf s m).locked then modWarp m (fun w => { w with heard := slot }) s else s
  if !orderingRuns s.pwr || s.loom.clock.relocking then s1
  else if due ≤ lcOf s then frameDelivered m f.bytes s1
  else if bufferRoom (warpOf s m) then modWarp m (fun w => { w with rx := w.rx ++ [(due, f.bytes)] }) s1
  else s1

def execWarpFrameDelivery (m : BitVec 2) (frame : WireFrame) (s : State) : Host.Outcome State Fault Refusal :=
  fin s (frameArrived m.toNat frame s)

/-- The held frames of a module whose delivery lc has come. -/
def dueFramesOf (m : Nat) (s : State) : State :=
  match (warpOf s m).rx.filter (fun e => decide (e.1 ≤ lcOf s)) with
  | [] => s
  | due => due.foldl (fun s e => frameDelivered m e.2 s)
      (modWarp m (fun w => { w with rx := w.rx.filter (fun e => decide (lcOf s < e.1)) }) s)

def dueFrames (s : State) : State := (span 0 4).foldl (fun s m => dueFramesOf m s) s

end Sys2Proof.Machine
end

