-- ==== Sys2Proof/Machine/Attention.lean ====
section
/-!
DEFINITION. The attention engines: commands, appends, the one-pass scan, scores and outputs (R310 to R315, R323, R328, R329).
-/

namespace Sys2Proof.Machine

/-! ## The command flit (R310, R311) -/

/-- The fields of a command flit. -/
structure AttnCmd where
  kind   : Nat
  handle : Nat
  app    : Bool
  upd    : Bool
  layer  : Nat
  kvh    : Nat
  heads  : Nat
  qf     : Nat
  outF32 : Bool
  scale  : Nat
  w      : Nat
  d      : Nat
  kf     : Nat
deriving DecidableEq, Repr

def parseCmd (b : List Byte) : AttnCmd :=
  let f := leAt b 1 1
  let h := leAt b 4 1
  { kind := leAt b 0 1, handle := field f 0 2, app := bitOf f 2, upd := bitOf f 3, layer := leAt b 2 1, kvh := leAt b 3 1
    heads := field h 0 3 + 1, qf := min (field h 3 2) 2, outF32 := field h 5 2 != 0, scale := leAt b 8 4, w := leAt b 12 4
    d := 32 * (field (leAt b 16 1) 0 2 + 1), kf := field (leAt b 17 1) 0 4 }

def qBytes (c : AttnCmd) : Nat := if c.qf = 2 then 4 else 2
def oBytes (c : AttnCmd) : Nat := if c.outF32 then 4 else 2
def queryFlits (c : AttnCmd) : Nat := if c.kind = 1 then ceilDiv (c.heads * c.d * qBytes c) 64 else 0
def appends (c : AttnCmd) : Bool := c.kind == 2 || c.app
def kvFlits (c : AttnCmd) : Nat := if appends c then 2 * ceilDiv (kvBytes c.d c.kf) 64 else 0
def outFlits (c : AttnCmd) : Nat := ceilDiv (c.heads * c.d * oBytes c) 64
/-- T0 of a command that arrives in lc `n`. -/
def appendLc (c : AttnCmd) (n : Nat) : Nat := n + queryFlits c + kvFlits c + 1
/-- Last scan lc, or T0 for APPEND. -/
def lastLc (c : AttnCmd) (n : Nat) : Nat := if c.kind = 1 then appendLc c n + c.w else appendLc c n
def nextCmdLc (c : AttnCmd) (n : Nat) : Nat := if c.kind = 1 then appendLc c n + c.w + outFlits c else appendLc c n + 1

/-! ## The engine's link (R238, R311) -/

/-- A flit that reaches engine `r` in lc `n`. -/
def atEngine (r n : Nat) (f : Flit) : Bool := f.dest == 512 + r && f.due == n

/-- Bytes of the flits of `k` lc from lc `n`; an lc in which no flit arrives supplies zeros. -/
def flitBytes (s : State) (r n k : Nat) : List Byte :=
  (span n k).flatMap (fun m => slice (((s.loom.flits.find? (atEngine r m)).map (·.data)).getD []) 0 64)

/-! ## Command faults (R323, R328) -/

/-- The sequence a handle of the running job names. -/
def boundSeq (s : State) (x : Slot) (handle : Nat) : Option Nat :=
  ((slotJob x).bind (jobOf s)).bind (fun j => (j.binds.find? (fun b => b.1 == handle)).map (·.2))

/-- The sequence and lane a command names: a bound sequence of the draft's tenant that serves, and a lane it has. -/
def namedLane (s : State) (x : Slot) (c : AttnCmd) : Option (Nat × Nat) :=
  match boundSeq s x c.handle with
  | none => none
  | some q =>
    let sq := seqOf s q
    if seqServes sq && sq.tenant == (draftOf s x.draft).tenant && decide (c.layer < descLayers sq.desc)
        && decide (c.kvh < descHeads sq.desc) then some (q, c.layer * descHeads sq.desc + c.kvh)
    else none

/-- The last lc of a command's span. -/
def spanEnd (k : EngineCmd) : Nat := lastLc (parseCmd k.raw) k.first

/-- Whether an earlier command on a lane has a span that reaches this lc: of two that arrive in one lc, that of the lower-numbered
engine is the earlier (R323). -/
def laneInUse (s : State) (r : Nat) (lane : Nat × Nat) : Bool :=
  s.loom.engines.any (fun e => e.1 != r && (match e.2.cmd with
    | some k => k.lane == some lane && decide (lcOf s ≤ spanEnd k) && (decide (k.first < lcOf s) || decide (e.1 < r))
    | none => false))

/-- The breach kind of a command with a known KIND at an idle engine, if it is a fault. -/
def cmdFault (s : State) (r : Nat) (x : Slot) (c : AttnCmd) : Option Nat :=
  match boundSeq s x c.handle with
  | none => some 6
  | some q =>
    let sq := seqOf s q
    if !seqServes sq then some 6
    else if sq.tenant ≠ (draftOf s x.draft).tenant then some 2
    else match namedLane s x c with
      | none => some 6
      | some lane =>
        if c.w ≠ descW sq.desc || c.d ≠ descDim sq.desc || c.kf ≠ descKf sq.desc then some 6
        else if laneInUse s r lane then some 6
        else if appends c && (laneOf sq lane.2).npos = 0xFFFFFFFF then some 6 else none

/-! ## The scan (R313, R314) -/

def rneW (v : Xv) : Word := BitVec.ofNat 32 (rne32 v)
def wordVal (w : Word) : Xv := val32 w.toNat

def minusInf : Word := 0xFF800000

/-- One valid slot for one head: its score and value. -/
def headStep (h : HeadSt) (sc : Word) (v : List Xv) : HeadSt :=
  if sc = minusInf then h
  else
    let mn := laneMax .f32 h.m sc
    let a : Word := if h.m = minusInf then 0 else BitVec.ofNat 32 (expBits (wordVal (rneW (xSub (wordVal h.m) (wordVal mn)))))
    let e : Word := BitVec.ofNat 32 (expBits (wordVal (rneW (xSub (wordVal sc) (wordVal mn)))))
    { m := mn
      l := rneW (xAdd (xMul (wordVal h.l) (wordVal a)) (wordVal e))
      o := (h.o.zip v).map (fun p => rneW (xAdd (xMul (wordVal p.1) (wordVal a)) (xMul (wordVal e) p.2))) }

/-- Elements of a stream. -/
def elemVals (f : FFmt) (bs : List Byte) (n : Nat) : List Xv :=
  let k := ceilDiv (1 + f.eb + f.mb) 8
  (span 0 n).map (fun i => floatVal f (leAt bs (i * k) k))

def dotExact (a b : List Xv) : Xv := xSum ((a.zip b).map (fun p => xMul p.1 p.2))

def queryFmt (c : AttnCmd) : FFmt := if c.qf = 0 then bf16 else if c.qf = 1 then f16 else f32
def kvFmt (kf : Nat) : FFmt := (fmtOf kf).getD f8a

/-- Query of head `h`. -/
def queryOf (c : AttnCmd) (stream : List Byte) (h : Nat) : List Xv :=
  elemVals (queryFmt c) (slice stream (h * c.d * qBytes c) (c.d * qBytes c)) c.d

/-- One head's addition to a slot's score. -/
def headShare (v : Lane) (h : Nat) (sc : Word) : Word :=
  match sget none v.m h, sget none v.r h with
  | some m, some r =>
    if wordVal sc = .nan then 0
    else laneMin .f32 0x3F800000
      (rneW (xMul (wordVal (BitVec.ofNat 32 (expBits (wordVal (rneW (xSub (wordVal sc) (wordVal m))))))) (wordVal r)))
  | _, _ => 0

/-- A slot's new score from the heads' scores: the sum of the heads' shares is rounded once. -/
def newScore (decay : Nat) (v : Lane) (x : KvSlot) (scores : List Word) : BitVec 16 :=
  let u := rneW (xSum (((span 0 scores.length).zip scores).map (fun e => wordVal (headShare v e.1 e.2))))
  let kept := if decay = 0 then x.score.toNat else x.score.toNat - (x.score.toNat >>> decay)
  let add := toIntSat false 0 0xFFFF (xMul (ofInt 4096) (wordVal u))
  BitVec.ofNat 16 (min 0xFFFF (kept + add.toNat))

/-- The heads of a command before its scan. -/
def freshHeads (c : AttnCmd) : List HeadSt :=
  List.replicate c.heads { m := minusInf, l := 0, o := List.replicate c.d 0 }

/-- The scan of one valid slot: the heads after it, whether a word of it was uncorrectable, and the machine after it. A slot with such
a word contributes nothing (R329). -/
def scanSlot (q l : Nat) (c : AttnCmd) (stream : List Byte) (heads : List HeadSt) (j : Nat) (s : State) :
    List HeadSt × Bool × State :=
  let sq := seqOf s q
  let addr := kvSlotAddr sq l j
  let used := ceilDiv (kvBytes c.d c.kf) 8
  let kr := kvWordsRead q (addr / 8) used s
  let vr := kvWordsRead q ((addr + slotSize sq.desc / 2) / 8) used kr.2
  if kr.1 || vr.1 then (heads, true, vr.2)
  else
    let row := fun (a : Nat) => elemVals (kvFmt c.kf) (readWords vr.2.loom.kv vr.2.loom.kvUp (a / 8) used) c.d
    let key := row addr
    let scores := (span 0 c.heads).map (fun h => rneW (xMul (val32 c.scale) (dotExact (queryOf c stream h) key)))
    let s1 := if c.upd then
        let v := laneOf (seqOf vr.2 q) l
        let x := kvSlotOf v j
        onLoom (fun o => { o with kvUp := clearUpsets o.kvUp (metaKey q l j (descW sq.desc)) 1 })
          (putSeq q (putLane l (putKvSlot j { x with score := newScore (descDecay sq.desc) v x scores } v) (seqOf vr.2 q)) vr.2)
      else vr.2
    ((heads.zip scores).map (fun e => headStep e.1 e.2 (row (addr + slotSize sq.desc / 2))), false, s1)

/-- Output bytes of the heads. -/
def outBytes (c : AttnCmd) (heads : List HeadSt) : List Byte :=
  heads.flatMap (fun h => h.o.flatMap (fun o =>
    let y : Xv := if xIsZero (wordVal h.l) then .rat false 0 1 0 else wordVal (rneW (xDiv (wordVal o) (wordVal h.l)))
    if c.outF32 then toLe 4 (rne32 y) else toLe 2 (toFloat bf16 false true y)))

/-- The normalisers a scan leaves for its heads; a head that summed nothing is unset. -/
def normsOf (heads : List HeadSt) : List (Option Word × Option Word) :=
  heads.map (fun h => if xIsZero (wordVal h.l) then (none, none)
    else (some h.m, some (rneW (xDiv (ofInt 1) (wordVal h.l)))))

/-! ## Commands at an engine -/

/-- Flits of an output stream. -/
def cutFlits (c : AttnCmd) (bs : List Byte) : List (List Byte) := (span 0 (outFlits c)).map (fun k => slice bs (64 * k) 64)

/-- Normalisers of the heads 0, 1, … of a lane are set. -/
def setNorms (norms : List (Option Word × Option Word)) (v : Lane) : Lane :=
  ((span 0 norms.length).zip norms).foldl (fun v e =>
    { v with m := sput none v.m e.1 e.2.1, r := sput none v.r e.1 e.2.2 }) v

/-- The sequence and lane a command works on; a faulty one works on none. -/
def workLane (k : EngineCmd) : Option (Nat × Nat) := if k.faulty then none else k.lane

def setCmd (r : Nat) (k : Option EngineCmd) (s : State) : State := putEngine r { engineOf s r with cmd := k } s

/-- The end of a scan: normalisers are set and the output flits are on their way to the tile's E receive register (R311, R314). -/
def engineDone (r : Nat) (k : EngineCmd) (s : State) : State :=
  let c := parseCmd k.raw
  let s1 := match workLane k with
    | some (q, l) =>
      if c.upd then
        let sq := seqOf s q
        onLoom (fun o => { o with kvUp := clearUpsets o.kvUp (laneKey q l 1) c.heads })
          (putSeq q (putLane l (setNorms (normsOf k.heads) (laneOf sq l)) sq) s)
      else s
    | none => s
  let out := outBytes c (if k.faulty then freshHeads c else k.heads)
  let at_ := appendLc c k.first + c.w + 24
  let fl := ((span 0 (outFlits c)).zip (cutFlits c out)).map (fun e =>
    { dest := 16 * r + 15, dir := .e, due := at_ + e.1, data := e.2, poisoned := false, slot := k.slot, engine := true : Flit })
  onLoom (fun l => { l with flits := l.flits ++ fl }) s1

/-- T0: the query is in, the lane's metadata is read, and an append takes its slot; a scan of no slots is over with it (R311, R315,
R328). -/
def engineAppend (r : Nat) (k : EngineCmd) (s : State) : State :=
  let c := parseCmd k.raw
  let q0 := k.first + 1
  let a0 := q0 + queryFlits c
  let n := kvFlits c / 2
  let s1 := match workLane k with
    | none => s
    | some (q, l) =>
      let s2 := readMeta q l s
      if appends c then appendPos q l (flitBytes s r a0 n) (flitBytes s r (a0 + n) n) s2 else s2
  let k1 := { k with appended := true, query := flitBytes s r q0 (queryFlits c), heads := freshHeads c }
  let s3 := takeFlits (fun f => f.dest == 512 + r) (setCmd r (some k1) s1)
  if c.kind = 1 && c.w = 0 then engineDone r k1 s3 else s3

/-- One lc of a scan reads one slot (R311 to R313). -/
def engineScan (r : Nat) (k : EngineCmd) (s : State) : State :=
  let c := parseCmd k.raw
  let k1 := { k with scanned := k.scanned + 1 }
  match workLane k with
  | none => setCmd r (some k1) s
  | some (q, l) =>
    if !(kvSlotOf (laneOf (seqOf s q) l) k.scanned).valid then setCmd r (some k1) s
    else
      let x := scanSlot q l c k.query k.heads k.scanned s
      let s1 := match k.job with
        | some o => if x.2.1 then modJob o (fun j => { j with poisoned := true }) x.2.2 else x.2.2
        | none => x.2.2
      setCmd r (some { k1 with heads := x.1 }) s1

/-- What engine `r` does in a new lc: it appends in T0, reads slot j in lc T0 + 1 + j, and lets its command go once its span is
over. -/
def engineTick (r : Nat) (s : State) : State :=
  match (engineOf s r).cmd with
  | none => s
  | some k =>
    let c := parseCmd k.raw
    if spanEnd k < lcOf s && k.appended && (c.kind == 2 || decide (c.w ≤ k.scanned)) then setCmd r none s
    else if lcOf s < appendLc c k.first then s
    else if !k.appended then engineAppend r k s
    else if c.kind = 1 && k.scanned < c.w then
      let s1 := engineScan r k s
      if k.scanned + 1 < c.w then s1
      else match (engineOf s1 r).cmd with
        | some k1 => engineDone r k1 s1
        | none => s1
    else s

/-- Flits that nothing took in the lc in which they were due are lost; an engine keeps those of its command until T0 (R237, R311). -/
def dropLost (s : State) : State := onLoom (fun l => { l with
  flits := l.flits.filter (fun f => decide (lcOf s ≤ f.due) || (decide (512 ≤ f.dest) && (match (engineOf s (f.dest - 512)).cmd with
    | some k => !k.appended
    | none => false))) }) s

/-- What a new lc brings to the tiles' mesh and the engines. -/
def loomTick (s : State) : State :=
  if !mesochronousRuns s then s
  else (s.loom.engines.map (·.1)).foldl (fun s r => engineTick r s) (lateBreaches (dropLost (dueFrames s)))

/-- The later of two commands that reach one lane in one lc turns out to be a fault (R323). -/
def demoteLater (r : Nat) (lane : Nat × Nat) (s : State) : State :=
  (s.loom.engines.filter (fun e => decide (r < e.1) && (match e.2.cmd with
    | some k => k.lane == some lane && k.first == lcOf s && !k.faulty
    | none => false))).foldl (fun s e => match e.2.cmd with
      | some k =>
        let s1 := setCmd e.1 (some { k with faulty := true }) s
        match k.slot.bind (slotOfEntry s1) with
        | some x => breach 6 (16 * e.1 + 15) x s1
        | none => s1
      | none => s) s

/-- A command of a known KIND takes the engine until its earliest next one. A faulty command runs its schedule, writes nothing and
returns zero flits (R328). -/
def takeCmd (r : Nat) (raw : List Byte) (x : Slot) (s : State) : State :=
  let c := parseCmd raw
  let fault := cmdFault s r x c
  let lane := namedLane s x c
  let k : EngineCmd :=
    { raw := raw, first := lcOf s, lane := lane, faulty := fault.isSome, appended := false, query := [], heads := []
      scanned := 0, slot := some x.entry, job := slotJob x }
  let s1 := putEngine r { busyUntil := nextCmdLc c (lcOf s), cmd := some k } s
  let s2 := match lane with
    | some a => demoteLater r a s1
    | none => s1
  match fault with
  | some kind => breach kind (16 * r + 15) x s2
  | none => s2

/-- Whether a flit that arrives in this lc belongs to the stream of the engine's command. -/
def streaming (s : State) (r : Nat) : Bool :=
  match (engineOf s r).cmd with
  | some k => decide (k.first < lcOf s) && decide (lcOf s < appendLc (parseCmd k.raw) k.first)
  | none => false

/-- The command flit that reaches engine `r` in this lc over the E link of tile 16r + 15 (R238, R311, R328). `kinds` are the KINDs of
the row that acts; a flit of another KIND belongs to the other row, and one that names another handle or lane is not this command. -/
def engineCmd (r : Nat) (kinds : Nat → Bool) (handle : Nat) (lane : Nat × Nat) (ups : Upsets) (s : State) : State :=
  let t := 16 * r + 15
  match s.loom.flits.find? (atEngine r (lcOf s)) with
  | none => s
  | some f =>
    match f.slot.bind (slotOfEntry s) with
    | none => s
    | some x =>
      let c := parseCmd f.data
      if !kinds c.kind || c.handle ≠ handle || (c.layer, c.kvh) ≠ lane || streaming s r || !isPass x || !mesochronousRuns s then s
      else
        let s1 := takeFlits (atEngine r (lcOf s)) (onLoom (fun l => { l with kvUp := addUpsets l.kvUp ups }) s)
        let owns := match slotVersion s1 x with | some v => v.engines.getLsbD r | none => false
        if !owns || lcOf s1 < (engineOf s1 r).busyUntil then breach 6 t x s1
        else if c.kind ≠ 1 && c.kind ≠ 2 then breach 6 t x (putEngine r { engineOf s1 r with busyUntil := lcOf s1 + 1 } s1)
        else takeCmd r f.data x s1

/-- ATTEND. It also takes a flit of an unknown KIND. -/
def execAttend (r : BitVec 4) (handle : BitVec 2) (lane : BitVec 8 × BitVec 8) (upsets : Upsets) (s : State) :
    Host.Outcome State Fault Refusal :=
  fin s (engineCmd r.toNat (fun k => k != 2) handle.toNat (lane.1.toNat, lane.2.toNat) upsets s)

/-- APPEND. -/
def execAppend (r : BitVec 4) (handle : BitVec 2) (lane : BitVec 8 × BitVec 8) (upsets : Upsets) (s : State) :
    Host.Outcome State Fault Refusal :=
  fin s (engineCmd r.toNat (fun k => k == 2) handle.toNat (lane.1.toNat, lane.2.toNat) upsets s)

/-- ENGINE_OUTPUT: the output flit of this lc enters the tile's E receive register (R311, R375). -/
def engineOutput (r : Nat) (s : State) : State :=
  let here := fun (f : Flit) => f.dest == 16 * r + 15 && f.engine
  match s.loom.flits.find? (fun f => here f && f.due == lcOf s) with
  | none => s
  | some f => receive (16 * r + 15) (dirCode .e) f.data f.poisoned (takeFlits here s)

def execEngineOutput (r : BitVec 4) (s : State) : Host.Outcome State Fault Refusal :=
  fin s (if mesochronousRuns s then engineOutput r.toNat s else s)

/-! ## The ordering point's lc (R83, R311) -/

/-- One lc passes, with what it brings to the engines, and its ordering point where it runs. -/
def orderOnce (s : State) : State :=
  let s0 := passLc s
  let s1 := loomTick (if lcOf s0 = lcOf s then s0 else copyDone s0)
  if orderingRuns s1.pwr then lockHead (orderRequests s1) else s1

def orderN : Nat → State → State
  | 0, s => s
  | n + 1, s => orderN n (orderOnce s)

end Sys2Proof.Machine
end

