-- ==== Sys2Proof/Machine/Aes.lean ====
section
/-!
DEFINITION. AES-128-CMAC (FIPS 197, NIST SP 800-38B), as R94 names it for the seal tag.
-/

namespace Sys2Proof.Machine

/-- The AES substitution table, 32 bytes to a row, byte i of a row at bits [8i+7:8i]. -/
def aesRows : List Nat :=
  [0xC072A49CAFA2D4ADF04759FA7DC982CA76ABD7FE2B670130C56F6BF27B777C63,
   0x75B227EBE28012079A059618C323C7041531D871F1E5A534CCF73F362693FDB7,
   0xCF584C4A39BECB6A5BB1FC20ED00D153842FE329B3D63B52A05A6E1B1A2C8309,
   0xD2F3FF1021DAB6BCF5389D928F40A351A89F3C507F02F94585334D43FBAAEFD0,
   0xDB0B5EDE14B8EE4688902A22DC4F816073195D643D7EA7C41744975FEC130CCD,
   0x08AE7A65EAF4566CA94ED58D6D37C8E779E4959162ACD3C25C2406490A3A32E0,
   0x9E1DC186B95735610EF6034866B53E708A8BBD4B1F74DDE8C6B4A61C2E2578BA,
   0x16BB54B00F2D99416842E6BF0D89A18CDF2855CEE9871E9B948ED9691198F8E1]

def aesSub (x : Nat) : Nat := field ((aesRows[x / 32]?).getD 0) (8 * (x % 32)) 8

/-- Multiplication by x in GF(2^8). -/
def aesXtime (x : Nat) : Nat := (2 * x % 256) ^^^ (if x < 128 then 0 else 0x1B)

def xorBytes : List Nat → List Nat → List Nat
  | a :: as, b :: bs => (a ^^^ b) :: xorBytes as bs
  | _, _ => []

/-- The next round key. -/
def aesNextKey (rcon : Nat) (k : List Nat) : List Nat :=
  match k with
  | [a0, a1, a2, a3, b0, b1, b2, b3, c0, c1, c2, c3, d0, d1, d2, d3] =>
    let w0 := xorBytes [a0, a1, a2, a3] [aesSub d1 ^^^ rcon, aesSub d2, aesSub d3, aesSub d0]
    let w1 := xorBytes [b0, b1, b2, b3] w0
    let w2 := xorBytes [c0, c1, c2, c3] w1
    let w3 := xorBytes [d0, d1, d2, d3] w2
    w0 ++ w1 ++ w2 ++ w3
  | other => other

/-- Byte substitution and row shift together. -/
def aesSubShift (s : List Nat) : List Nat :=
  [0, 5, 10, 15, 4, 9, 14, 3, 8, 13, 2, 7, 12, 1, 6, 11].map (fun i => aesSub ((s[i]?).getD 0))

def aesMixColumn : List Nat → List Nat
  | [a, b, c, d] =>
    let t := a ^^^ b ^^^ c ^^^ d
    [a ^^^ t ^^^ aesXtime (a ^^^ b), b ^^^ t ^^^ aesXtime (b ^^^ c), c ^^^ t ^^^ aesXtime (c ^^^ d),
     d ^^^ t ^^^ aesXtime (d ^^^ a)]
  | other => other

def aesMix (s : List Nat) : List Nat :=
  aesMixColumn (s.take 4) ++ aesMixColumn ((s.drop 4).take 4) ++ aesMixColumn ((s.drop 8).take 4)
    ++ aesMixColumn (s.drop 12)

/-- Rounds 1 to 9, then the last round; the round constants give the count. -/
def aesRounds : List Nat → List Nat → List Nat → List Nat
  | [], _, s => s
  | [rc], k, s => xorBytes (aesSubShift s) (aesNextKey rc k)
  | rc :: rcs, k, s =>
    let k' := aesNextKey rc k
    aesRounds rcs k' (xorBytes (aesMix (aesSubShift s)) k')

/-- AES-128 of one block of 16 bytes, as numbers, most significant first. -/
def aesBlock (key block : List Nat) : List Nat :=
  aesRounds [0x01, 0x02, 0x04, 0x08, 0x10, 0x20, 0x40, 0x80, 0x1B, 0x36] key (xorBytes block key)

/-- The 16 bytes of a 128-bit value, most significant first. -/
def beBytes (n v : Nat) : List Nat := (toBe n v).map BitVec.toNat

/-- The value of bytes, most significant first. -/
def ofBeNats (l : List Nat) : Nat := l.foldl (fun a b => 256 * a + b) 0

/-- AES-128 on 128-bit values taken most significant byte first (R94, R104). -/
def aes128 (key block : BitVec 128) : BitVec 128 :=
  BitVec.ofNat 128 (ofBeNats (aesBlock (beBytes 16 key.toNat) (beBytes 16 block.toNat)))

/-- Doubling in GF(2^128), for the CMAC subkeys. -/
def cmacDouble (v : BitVec 128) : BitVec 128 := (v <<< 1) ^^^ (if v.msb then 0x87 else 0)

/-- AES-128-CMAC of a message of 19 bytes: one full block and one padded block under subkey K2 (R94). -/
def cmac19 (key : BitVec 128) (m : List Byte) : BitVec 128 :=
  let k2 := cmacDouble (cmacDouble (aes128 key 0))
  let b1 := BitVec.ofNat 128 (ofBe (slice m 0 16))
  let b2 := BitVec.ofNat 128 (ofBe (m.drop 16 ++ (0x80 : Byte) :: List.replicate 12 0))
  aes128 key (aes128 key b1 ^^^ (b2 ^^^ k2))

end Sys2Proof.Machine
end

