-- ==== Sys2Proof/Machine/SealEngine.lean ====
section
/-!
DEFINITION. The seal engine (04): tags, verdicts, the lockout and the staged key slots.
-/

namespace Sys2Proof.Machine

/-- A sealed frame's content beside its counter and tag (R93). -/
inductive SealFrame where
  | write (fieldBits : BitVec 16) (data : Word)
  | command (code : BitVec 16) (arg : Word)
deriving DecidableEq, Repr

/-- The MAC message M (R93). -/
def sealMessage (f : SealFrame) (ctr : Word) (dieHi dieLo : Word) : List Byte :=
  (match f with
    | .write fb d => [(0x5A : Byte)] ++ toBe 2 fb.toNat ++ toBe 4 d.toNat
    | .command c a => [(0x5C : Byte)] ++ toBe 2 c.toNat ++ toBe 4 a.toNat)
  ++ toBe 4 ctr.toNat ++ toBe 4 dieHi.toNat ++ toBe 4 dieLo.toNat

/-- The tag under a key: the most significant 64 bits of the CMAC (R94). -/
def sealTag (key : BitVec 128) (f : SealFrame) (ctr dieHi dieLo : Word) : DWord :=
  BitVec.ofNat 64 ((cmac19 key (sealMessage f ctr dieHi dieLo)).toNat >>> 64)

def slotOf (k : Seal) (n : Nat) : KeySlot := sget .init k.slots n

def putSlot (k : Seal) (n : Nat) (v : KeySlot) : Seal := { k with slots := sput .init k.slots n v }

/-- Rights bits (R100). -/
def rightKeys : Nat := 0
def rightGranary : Nat := 1
def rightLoomPower : Nat := 2
def rightTenantBlock : Nat := 3
def rightEscalation : Nat := 4
def rightDebug : Nat := 5

/-- The right a SEALED WRITE to a word needs (R100, R124). -/
def writeRight (g : Granary) (addr : Nat) : Option Nat :=
  if addr = 0x101 || addr = 0x102 || addr = 0x208 then some rightLoomPower
  else if (0x288 ≤ addr && addr < 0x290) || (0x298 ≤ addr && addr < 0x2A0) then some rightTenantBlock
  else if addr = 0x210 || addr = 0x211 then some rightEscalation
  else if addr = 0x094 then some rightDebug
  else if addr = 0x0C5 && stageRegion (stageDataAt g) == .sealedOnly then some rightEscalation
  else if 0x0E0 ≤ addr && addr < 0x0F0 && stageRegion (stageWinAt g (addr - 0x0E0)) == .sealedOnly then
    some rightEscalation
  else none

/-- Whether a word holds a SEAL field, so that an unsealed write sets SEAL_SKIP (R69). -/
def hasSealField (addr : Nat) : Bool :=
  addr == 0x101 || addr == 0x102 || addr == 0x208 || (0x288 ≤ addr && addr < 0x290)
    || (0x298 ≤ addr && addr < 0x2A0) || addr == 0x210 || addr == 0x211 || addr == 0x094

/-- The command codes of R102. -/
def isKnownCommand (code : Nat) : Bool := code == 1 || code == 2 || (0x10 ≤ code && code ≤ 0x16)

def isReserve : SealFrame → Bool
  | .command c _ => c == 2
  | _ => false

/-- Format test (R88). -/
def badFormat : SealFrame → Bool
  | .write fb _ => decide (fb.toNat / 1024 ≠ 0)
  | .command c _ => !isKnownCommand c.toNat

def neededRight (g : Granary) : SealFrame → Option Nat
  | .write fb _ => writeRight g (fb.toNat % 1024)
  | .command c _ => if c = 1 then some rightGranary else if c = 2 then none else some rightKeys

/-- The sealing slot: the lowest ACTIVE slot whose tag matches (R95). -/
def sealingSlot (k : Seal) (f : SealFrame) (ctr : Word) (tag : DWord) (dieHi dieLo : Word) : Option Nat :=
  [0, 1, 2, 3].find? (fun n =>
    (slotOf k n).st == .active && sealTag (slotOf k n).key f ctr dieHi dieLo == tag)

/-- The wrapped key's mask and the recovered key (R104). -/
def unwrapKey (k : Seal) (s : Nat) (ctr dieHi dieLo : Word) : BitVec 128 :=
  let m : BitVec 128 := BitVec.ofNat 128
    (0x4B575250 * 2 ^ 96 + ctr.toNat * 2 ^ 64 + dieHi.toNat * 2 ^ 32 + dieLo.toNat)
  k.loadKey ^^^ aes128 (slotOf k s).key m

/-- The argument verdict of a command, `0x00` when valid (R102 to R106). -/
def argumentCode (k : Seal) (s : Nat) (ctr dieHi dieLo : Word) : SealFrame → Byte
  | .write _ _ => 0
  | .command code arg =>
    let a := arg.toNat
    if code = 1 then (if a = 0 then 0 else 0x0A)
    else if code = 2 then
      if a ≠ 0 then 0x0A else if Config.reserveLimit < (slotOf k s).h.toNat then 0x0A else 0
    else if code = 0x14 then
      let t := slotOf k (a % 4)
      let rights := field a 8 6
      let new := unwrapKey k s ctr dieHi dieLo
      if field a 2 6 ≠ 0 || field a 14 18 ≠ 0 then 0x0A
      else if k.parts ≠ 0xF then 0x0A
      else if t.st = .active then 0x0A
      else if Config.reserveLimit < t.h.toNat then 0x0A
      else if Nat.land rights (63 - (slotOf k s).rights.toNat) ≠ 0 then 0x09
      else if new = 0 || [0, 1, 2, 3].any (fun n => (slotOf k n).st == .active && (slotOf k n).key == new) then 0x0A
      else 0
    else if code = 0x15 then
      let n := a % 4
      if a / 4 ≠ 0 then 0x0A
      else match (slotOf k n).st with
        | .empty => 0x05
        | .retired => 0x0A
        | .active =>
          if [0, 1, 2, 3].any (fun j => j != n && (slotOf k j).st == .active && (slotOf k j).rights.getLsbD rightKeys)
          then 0 else 0x0A
    else if code = 0x16 then (if arg = dieLo then 0 else 0x0A)
    else 0

/-- A verdict: its status code, the sealing slot when the counter advances, whether the frame takes effect (R97). -/
structure Verdict where
  code   : Byte
  slot   : Option Nat
  effect : Bool
deriving DecidableEq, Repr

/-- Whether some slot is ACTIVE (R97). -/
def anyActive (k : Seal) : Bool := [0, 1, 2, 3].any (fun n => (slotOf k n).st == .active)

/-- The verdict of R97, in the order of its pseudocode. -/
def sealVerdict (g : Granary) (k : Seal) (dieHi dieLo : Word) (f : SealFrame) (ctr : Word) (tag : DWord) : Verdict :=
  if g.st = .closed then { code := 0x03, slot := none, effect := false }
  else if badFormat f then { code := 0x0A, slot := none, effect := false }
  else if k.locked then { code := 0x06, slot := none, effect := false }
  else if !(anyActive k) then { code := 0x05, slot := none, effect := false }
  else
    match sealingSlot k f ctr tag dieHi dieLo with
    | none => { code := 0x01, slot := none, effect := false }
    | some s =>
      let c := ctr.toNat
      let h := (slotOf k s).h.toNat
      if c ≤ (slotOf k s).c.toNat then { code := 0x02, slot := none, effect := false }
      else if (if isReserve f then h + 64 else h) < c then { code := 0x08, slot := none, effect := false }
      else if (match neededRight g f with | some r => !(slotOf k s).rights.getLsbD r | none => false) then
        { code := 0x09, slot := some s, effect := false }
      else if argumentCode k s ctr dieHi dieLo f ≠ 0 then
        { code := argumentCode k s ctr dieHi dieLo f, slot := some s, effect := false }
      else if !isReserve f && h - c < 64 then { code := 0x07, slot := some s, effect := true }
      else { code := 0x00, slot := some s, effect := true }

/-- The BAD_TAG count at work clock 88, and lockout when CONSEC reaches 16 (R98, R99). -/
def countBadTag (k : Seal) : Seal :=
  let consec := k.consec.toNat + 1
  if consec = Config.lockoutRun then
    { k with total := satAdd k.total 1, consec := 16, locked := true, lockLeft := BitVec.ofNat 17 Config.lockoutClocks }
  else { k with total := satAdd k.total 1, consec := BitVec.ofNat 5 consec }

/-- `n` counting edges of the lockout (R99). -/
def lockTick (n : Nat) (k : Seal) : Seal :=
  if k.locked then
    if k.lockLeft.toNat ≤ n then { k with lockLeft := 0, locked := false, consec := 0 }
    else { k with lockLeft := k.lockLeft - BitVec.ofNat 17 n }
  else k

/-- The commit edge of a frame whose verdict advances the counter (R96, R98). -/
def advanceCounter (k : Seal) (s : Nat) (ctr : Word) : Seal :=
  putSlot { k with consec := 0 } s { slotOf k s with c := ctr }

/-! ## Staged slots (R107, R113, R121) -/

def slotStateCode : SlotState → Nat
  | .empty => 0
  | .active => 1
  | .retired => 2

/-- The KEYSLOT record of a slot. -/
def keySlotRecord (n : Nat) (v : KeySlot) : List Byte :=
  makeRecord (homeKeySlot n)
    (toBe 16 v.key.toNat ++ toLe 1 (slotStateCode v.st) ++ toLe 1 v.rights.toNat)

/-- The RESERVE record of a slot. -/
def reserveRecord (n : Nat) (h : Word) : List Byte := makeRecord (homeReserve n) (toLe 4 h.toNat)

/-- The seal engine's own writes to staging (R107, R108). -/
def stageKey (g : Granary) (n : Nat) (v : KeySlot) : Granary :=
  storeDeltaBytes g (homeKeySlot n).at_ (keySlotRecord n v)
def stageCeiling (g : Granary) (n : Nat) (h : Word) : Granary :=
  storeDeltaBytes g (homeReserve n).at_ (reserveRecord n h)

/-- Slot `n` as the staging view records it, its counter at its ceiling (R113, R122). Bytes that a present record is too short to
hold read zero (log 39). -/
def loadSlot (g : Granary) (n : Nat) : KeySlot :=
  let h : Word := match viewRecord g (homeReserve n) with
    | some v => BitVec.ofNat 32 (leAt v 0 4)
    | none => 0
  match viewRecord g (homeKeySlot n) with
  | some v =>
    if 2 < leAt v 16 1 then { KeySlot.init with h := h, c := h }
    else
      { key := BitVec.ofNat 128 (ofBe (slice v 0 16))
        st := if leAt v 16 1 = 0 then .empty else if leAt v 16 1 = 1 then .active else .retired
        rights := BitVec.ofNat 6 (leAt v 17 1), h := h, c := h }
  | none => { KeySlot.init with h := h, c := h }

/-- The load at OPEN and at every GATE reset (R113). -/
def loadSlots (g : Granary) (k : Seal) : Seal :=
  [0, 1, 2, 3].foldl (fun k n => putSlot k n (loadSlot g n)) k

/-- A key put into an EMPTY or RETIRED slot: its counter starts at the old ceiling and is never lowered (R96, R104, R114). -/
def installSlot (g : Granary) (k : Seal) (n : Nat) (key : BitVec 128) (rights : BitVec 6) : Granary × Seal :=
  let old := slotOf k n
  let c := if old.h.toNat < old.c.toNat then old.c else old.h
  let v : KeySlot := { key := key, st := .active, rights := rights, c := c, h := old.h + 1024 }
  (stageCeiling (stageKey g n v) n v.h, putSlot k n v)

/-- KEY_RETIRE's effect (R105). -/
def retireSlot (g : Granary) (k : Seal) (n : Nat) : Granary × Seal :=
  let v : KeySlot := { slotOf k n with key := 0, st := .retired, rights := 0 }
  (stageKey g n v, putSlot k n v)

/-- KEY_DECOMMISSION's effect (R106). -/
def decommission (g : Granary) (k : Seal) : Granary × Seal :=
  ([0, 1, 2, 3].foldl (fun g n => stageCeiling (stageKey g n .init) n 0) g,
   [0, 1, 2, 3].foldl (fun k n => putSlot k n .init) k)

/-- G_KEYSLOT_STATE (R116). -/
def keySlotStateWord (k : Seal) : Word :=
  BitVec.ofNat 32 (([0, 1, 2, 3].map (fun n =>
    (slotStateCode (slotOf k n).st + 4 * (slotOf k n).rights.toNat) * 2 ^ (8 * n))).sum)

end Sys2Proof.Machine
end

