-- ==== Sys2Proof/Machine/GateRegs.lean ====
section
/-!
DEFINITION. The gate register map: what each word reads, what a write does there, and the WATCH and GATE resets (R10, R11, R74,
R80, R92, R116, R144, R155, R168, R197, R230, R419, R459).
-/

namespace Sys2Proof.Machine

/-! ## Reads -/

def w32 (n : Nat) : Word := BitVec.ofNat 32 n

def statusWord (s : State) : Word :=
  w32 (s.port.lastCode.toNat + 2 ^ 8 * s.port.lastOp.toNat + flagBit s.port.sealSkip 16 + flagBit s.port.badOp 17
    + flagBit s.keys.locked 18)

/-- The loom state as software reads it: L1 from a LOOM reset's arrival there (R156). -/
def shownState (p : Power) : Nat := loomStateCode p.st

def pwrStateWord (s : State) : Word :=
  let r := s.mon.rails
  w32 (shownState s.pwr + 4 * r.lsram.toNat + flagBit r.mic 4 + flagBit r.loomv 5 + flagBit r.pll 6 + flagBit r.link 7
    + flagBit s.mon.pllLock 8 + 2 ^ 10 * s.pwr.powered.toNat
    + 2 ^ 16 * packBits ((span 0 6).map (isTrained s)) + 2 ^ 24 * s.pwr.epoch.toNat)

def loomReqWord (p : Power) : Word :=
  w32 (p.reqTarget.toNat + flagBit p.reqCut 2 + flagBit p.reqReset 3 + 2 ^ 8 * p.reqTenant.toNat + flagBit p.reqTreset 16)

def loomStateWord (p : Power) : Word :=
  w32 (shownState p + flagBit (isMoving p) 2 + 8 * loomStateCode p.target + flagBit p.byHost 5 + 2 ^ 6 * p.chainPos.toNat)

def loomConflictWord (c : LoomConflict) : Word :=
  w32 (c.loser.toNat + 4 * c.kind.toNat + 16 * c.gate.toNat + 64 * c.host.toNat + 2 ^ 8 * c.tenant.toNat + flagBit c.cut 16)

/-- Word `n` of a 256-bit or 72-bit bank. -/
def bankWord (v n : Nat) : Word := w32 (field v (32 * n) 32)

def micbStatWord (f : FrontEnd) : Word :=
  w32 (packBits [f.hdrm, f.limit, f.ramping, f.fault, f.hdrmSeen, f.limitSeen])

def feStatWord (s : State) : Word :=
  w32 (packBits [zMuted s 0, zMuted s 1, faultMuted s.fe 0, faultMuted s.fe 1, (chanOf s.fe 0).ovl, (chanOf s.fe 1).ovl])

/-- G_DEC_CAPn: zero while the path that CAP_SRC names does not run (R173, R191, R196). -/
def capWord (s : State) (n : Nat) : Word :=
  let f := s.fe
  let c := chanOf f n
  let hq := bitOf f.decCtrl.toNat 3
  if (hq && !hqOn f) || !feEnabled f n || !s.mon.rails.mic then 0 else w32 ((if hq then c.capHq else c.capLp).toNat + flagBit c.capMuted 16)

/-- A network word as the gate port reads it (R219, R116). -/
def memWord (s : State) (a : Nat) : Word :=
  if s.port.debugReg.getLsbD 0 && !s.wc.arm && decide (a < 0x1A000) then sget 0 s.wc.net a else 0

def dropsWord (w : WatchCores) (n : Nat) : Word :=
  w32 ((sget 0 w.late n).toNat + 2 ^ 16 * (sget 0 w.qdrop n).toNat)

def baseCodeWord (w : WatchCores) (j : Nat) : Word :=
  w32 (((span 0 4).map (fun i => baseCode (baseOf w (4 * j + i)) * 2 ^ (8 * i))).sum)

def bellCauseWord (b : Bell) : Word :=
  w32 (b.causeRules.toNat + 2 ^ 8 * b.causeFirst.toNat + flagBit b.causeReplay 11 + flagBit b.causeSust 12
    + 2 ^ 16 * b.causeStep.toNat)

def loftCtrlWord (l : Loft) : Word :=
  w32 (packBits [l.ch, l.auto, l.request.isSome, l.releaseOwed, l.frozen.isSome, l.missed])

/-- A word of the loft window (R218, R230). -/
def loftWord (s : State) (k : Nat) : Word :=
  match s.loft.frozen with
  | none => 0
  | some f => if s.port.debugReg.getLsbD 1 then w32 (leAt (frozenView f) (128 * s.loft.block.toNat + 4 * k) 4) else 0

def escCtrlWord (e : Escalation) : Word :=
  w32 (flagBit e.en 0 + flagBit e.keep 1 + 2 ^ 8 * e.rules.toNat + 2 ^ 16 * e.waitMs.toNat)

def escStatWord (e : Escalation) : Word :=
  w32 (escStateCode e.st + 16 * e.outcome.toNat + 2 ^ 8 * e.answer.toNat + 2 ^ 16 * e.tenant.toNat
    + 2 ^ 24 * e.rule.toNat + 2 ^ 27 * e.endedIn.toNat)

/-- A counter as a snapshot finds it; in the clock of a clear that is the count published before that clock (R452). -/
def wtallyOf (s : State) (n : Nat) : Counter :=
  sget .init (if s.wtally.cleared && s.wtally.evClk == s.clocks.wclk then s.wtally.was else s.wtally.cnt) n

/-- Bits [47:32] and SAT of a counter, as the HI word holds them. -/
def highHalf (c : Counter) : BitVec 17 := BitVec.ofNat 17 (field c.count.toNat 32 16 + flagBit c.sat 16)

/-- Rooms 0x000 to 0x0FF. -/
def readLow (s : State) (a : Nat) : Word :=
  if a = 0x000 then Config.ident
  else if a = 0x002 then s.port.dieLo
  else if a = 0x003 then s.port.dieHi
  else if a = 0x004 then (ready s).setWidth 32
  else if a = 0x005 then s.seen.setWidth 32
  else if a = 0x040 then statusWord s
  else if a = 0x041 then s.alert.setWidth 32
  else if a = 0x042 then s.port.alertMask.setWidth 32
  else if a = 0x043 then s.port.aborts.setWidth 32
  else if a = 0x044 then s.pwr.conflicts.setWidth 32
  else if a = 0x080 then keySlotStateWord s.keys
  else if 0x084 ≤ a && a ≤ 0x087 then (slotOf s.keys (a - 0x084)).c
  else if 0x088 ≤ a && a ≤ 0x08B then (slotOf s.keys (a - 0x088)).h
  else if a = 0x090 then w32 (s.keys.total.toNat + 2 ^ 16 * s.keys.consec.toNat)
  else if a = 0x091 then s.keys.lockLeft.setWidth 32
  else if a = 0x092 then s.keys.parts.setWidth 32
  else if a = 0x094 then s.port.debugReg.setWidth 32
  else if a = 0x09C then w32 (2 * s.keys.initResult.toNat)
  else if a = 0x0C0 then granStateWord s.gran
  else if a = 0x0C1 then s.gran.seqA
  else if a = 0x0C2 then s.gran.seqB
  else if a = 0x0C4 then w32 (4 * s.gran.offset.toNat)
  else if a = 0x0C5 then stageRead s.gran (stageDataAt s.gran)
  else if 0x0E0 ≤ a && a < 0x0F0 then stageRead s.gran (stageWinAt s.gran (a - 0x0E0))
  else 0

/-- Rooms 0x100 to 0x17F. -/
def readFront (s : State) (a : Nat) : Word :=
  if a = 0x100 then pwrStateWord s
  else if a = 0x101 then loomReqWord s.pwr
  else if a = 0x102 then s.pwr.linkReq.setWidth 32
  else if a = 0x140 then s.fe.feCtrl
  else if a = 0x141 then s.fe.micbCtrl
  else if a = 0x142 then micbStatWord s.fe
  else if a = 0x143 then s.fe.decCtrl
  else if a = 0x144 then s.fe.fbCtrl
  else if a = 0x145 then feStatWord s
  else if a = 0x146 then capWord s 0
  else if a = 0x147 then capWord s 1
  else if a = 0x148 then s.fe.sens0
  else if a = 0x149 then s.fe.sens1
  else if a = 0x14A then s.fe.sens2
  else if a = 0x14B then w32 (packBits [s.fe.sensBusy, s.fe.stuck, s.fe.stuckSeen])
  else 0

/-- Room 0x180 to 0x1FF. -/
def readWatch (s : State) (a : Nat) : Word :=
  let w := s.wc
  if a = 0x180 then w32 (packBits [w.arm, w.replay, w.running, w.replayDone, w.memBlocked])
  else if a = 0x181 then w.stepNo
  else if a = 0x182 then w.waddr.setWidth 32
  else if a = 0x183 then memWord s w.waddr.toNat
  else if 0x184 ≤ a && a ≤ 0x187 then dropsWord w (a - 0x184)
  else if a = 0x188 then w.winLen.setWidth 32
  else if a = 0x189 then w.winSeq
  else if a = 0x18A then w.baseCtrl.setWidth 32
  else if a = 0x18D then w.replayBase.setWidth 32
  else if 0x190 ≤ a && a ≤ 0x1A1 then baseCodeWord w (a - 0x190)
  else if 0x1A4 ≤ a && a ≤ 0x1A6 then bankWord (sustNow w).toNat (a - 0x1A4)
  else if 0x1B0 ≤ a && a ≤ 0x1BF then memWord s (16 * (w.waddr.toNat / 16) + (a - 0x1B0))
  else if 0x1C0 ≤ a && a ≤ 0x1FF then sget 0 w.pub (a - 0x1C0)
  else 0

/-- CLR of a select reads 1 while its write is on its way to the watchman (R447). -/
def clearWaits (s : State) (a : Nat) : Bool := s.wflight.any (fun x => x.addr.toNat == a && bitOf x.data.toNat 8)

/-- Rooms 0x200 to 0x2BF. -/
def readHigh (s : State) (a : Nat) : Word :=
  if 0x200 ≤ a && a ≤ 0x207 then sget 0 s.bell.rules (a - 0x200)
  else if a = 0x208 then w32 (s.bell.ring.toNat + 2 ^ 8 * s.bell.loom.toNat)
  else if a = 0x209 then bellCauseWord s.bell
  else if 0x20C ≤ a && a ≤ 0x20E then bankWord s.wc.sustSeen.toNat (a - 0x20C)
  else if a = 0x210 then escCtrlWord s.esc
  else if a = 0x211 then s.esc.tenantReg.setWidth 32
  else if a = 0x212 then escStatWord s.esc
  else if a = 0x213 then s.esc.seq
  else if a = 0x214 then loftCtrlWord s.loft
  else if a = 0x215 then s.loft.block.setWidth 32
  else if 0x220 ≤ a && a ≤ 0x23F then loftWord s (a - 0x220)
  else if 0x240 ≤ a && a ≤ 0x247 then w32 ((sget 0 s.wtally.sel (a - 0x240)).toNat + flagBit (clearWaits s a) 8)
  else if 0x250 ≤ a && a ≤ 0x25F then
    (if a % 2 = 0 then w32 (wtallyOf s ((a - 0x250) / 2)).count.toNat
     else (sget 0 s.wtally.shadow ((a - 0x251) / 2)).setWidth 32)
  else if a = 0x280 then loomStateWord s.pwr
  else if 0x288 ≤ a && a ≤ 0x28F then bankWord s.pwr.block.toNat (a - 0x288)
  else if a = 0x290 then loomConflictWord s.pwr.conflict
  else if 0x298 ≤ a && a ≤ 0x29F then bankWord s.pwr.abort.toNat (a - 0x298)
  else 0

/-- A gate word as a read returns it; words the map does not name read zero (R11). -/
def gateRead (s : State) (a : Nat) : Word :=
  if a < 0x100 then readLow s a else if a < 0x180 then readFront s a else if a < 0x200 then readWatch s a else readHigh s a

/-! ## WATCH and GATE resets (R90, R110, R138, R155, R157, R165, R192, R498) -/

/-- Causes, and ready-seen bits, by where they are held (R92, R168). -/
def watchAlerts : BitVec 13 := BitVec.ofNat 13 (2 ^ causeMicb + 2 ^ causeWatchDrop + 2 ^ causeEscalation)
def watchSeen : BitVec 20 := 0x801FC

/-- The hop grid starts: its first boundary falls 12,288 clocks on (R498). -/
def startGrid (s : State) : State :=
  readTrims (onFe (fun f => { f with gridOn := true, hopNext := s.clocks.wclk + Config.hopClocks, hopCount := 0 }) s)

/-- A WATCH reset: everything in the watchman but the escalation registers and the HI shadows, which the gatehouse holds. -/
def watchReset (s : State) : State :=
  let e := s.esc
  let s1 : State := { s with
    fe := .reset, wc := { WatchCores.reset with aonclk := s.wc.aonclk }, bell := .reset, loft := .reset
    esc := { Escalation.reset with
      en := e.en, keep := e.keep, rules := e.rules, waitMs := e.waitMs, tenantReg := e.tenantReg }
    wtally := { WatchTally.reset with
      shadow := s.wtally.shadow
      refAborts := s.port.grayAborts, refFails := s.port.grayFails, refOk := s.port.grayOk, refCommits := s.port.grayCommits }
    alert := s.alert &&& ~~~ watchAlerts, seen := s.seen &&& ~~~ watchSeen, wflight := [] }
  if s.wc.aonclk then startGrid s1 else s1

/-- A GATE reset: the staging view and the seal counters reload, an unfetched escalation is withdrawn, the HI shadows clear (R457);
the loom, its requests, the lockout and the open image stay. The seal engine loads from the open bank as it reads now: the model's
choice (R138, log 18). -/
def gateResetEffect (s : State) : State :=
  let g := { s.gran with deltas := [], upS := [], offset := 0 }
  let s0 := escWithdraw (onEsc (fun e => { e with en := false, keep := false, rules := 0, waitMs := 3, tenantReg := 0 }) s)
  let p := s0.port
  { s0 with
    gran := g
    keys := { loadSlots g s.keys with
      loadKey := 0, parts := 0, init0 := 0, init1 := 0, init2 := 0, init3 := 0, initResult := 0 }
    port := { GatePort.reset with
      grayAborts := p.grayAborts, grayFails := p.grayFails, grayOk := p.grayOk, grayCommits := p.grayCommits
      dieLo := p.dieLo, dieHi := p.dieHi, gsdo := p.gsdo }
    pwr := { s0.pwr with block := 0, abort := 0, conflicts := 0, conflict := .reset }
    wtally := { s0.wtally with shadow := [] }
    alert := s0.alert &&& watchAlerts
    seen := (s0.seen &&& watchSeen) ||| 1 }

/-- G_RESET (R155). -/
def writeReset (d : Word) (s : State) : State :=
  if field d.toNat 16 16 = Config.resetKey.toNat then
    let s1 := if bitOf d.toNat 1 then watchReset s else s
    if bitOf d.toNat 0 then gateResetEffect s1 else s1
  else s

/-- Whether a word written to G_RESET performs a GATE reset (R81). -/
def asksGateReset (a : Nat) (d : Word) : Bool :=
  a == 0x045 && field d.toNat 16 16 == Config.resetKey.toNat && bitOf d.toNat 0

/-! ## Writes to the watchman (R80, R223) -/

/-- A setting that has landed. One that committed while the cores ran waits for its step end; one that committed while they did not
governs at once, from step 1 and window 1 on though the cores have started since (R223). -/
def settleSetting (a : Nat) (d : Word) (via : Via) (at_ : Nat) (s : State) : State :=
  let x : InFlightWrite := { addr := BitVec.ofNat 10 a, data := d, via := via, at_ := at_ }
  if !s.wc.running then settingsNow s
  else if s.wc.h0.any (fun h => decide (at_ < h)) then
    onWc (fun w => if a = 0x188 then { w with winLenNow := w.winLenNext } else w) (applySetting s x)
  else onWc (fun w => { w with pendSet := w.pendSet ++ [x] }) s

/-- G_TALLY_SELn (R447). -/
def writeWatchSel (n : Nat) (d : Word) (s : State) : State :=
  let src : Byte := BitVec.ofNat 8 d.toNat
  let t := s.wtally
  let clear := bitOf d.toNat 8 || src != sget 0 t.sel n
  let u := { t with sel := sput 0 t.sel n src }
  { s with wtally := if clear then clearWatchTally n s.clocks.wclk src.toNat u else u }

/-- G_WC_DROPSn. -/
def writeDrops (n : Nat) (d : Word) (s : State) : State :=
  onWc (fun w => { w with
    late := sput 0 w.late n (BitVec.ofNat 16 d.toNat), qdrop := sput 0 w.qdrop n (BitVec.ofNat 16 (d.toNat / 65536)) }) s

/-- G_BELL_CTRL: LOOM is a SEAL field. -/
def writeBellCtrl (d : Word) (via : Via) : State → State :=
  onBell (fun b => { b with
    ring := BitVec.ofNat 8 d.toNat, loom := if via = .sealed then BitVec.ofNat 8 (d.toNat / 256) else b.loom })

/-- Front-end registers; `at_` is the write's commit edge. -/
def writeFrontReg (a : Nat) (d : Word) (at_ : Nat) (s : State) : State :=
  if a = 0x140 then writeFeCtrl d at_ s
  else if a = 0x141 then writeMicbCtrl d at_ s
  else if a = 0x142 then onFe (fun f => { f with hdrmSeen := f.hdrmSeen && !bitOf d.toNat 4, limitSeen := f.limitSeen && !bitOf d.toNat 5 }) s
  else if a = 0x143 then writeDecCtrl d at_ s
  else if a = 0x144 then writeFbCtrl d s
  else if a = 0x145 then onFe (fun f => modChan 1 (fun c => { c with ovl := c.ovl && !bitOf d.toNat 5 })
      (modChan 0 (fun c => { c with ovl := c.ovl && !bitOf d.toNat 4 }) f)) s
  else if a = 0x148 then writeSens0 d s
  else if a = 0x149 then writeSens1 d s
  else if a = 0x14A then writeSens2 d s
  else if a = 0x14B then onFe (fun f => { f with stuckSeen := f.stuckSeen && !bitOf d.toNat 2 }) s
  else s

/-- Watch-core and wake registers, the watchman tally, and the watchman's bits of G_ALERT_CAUSE and G_READY_SEEN. -/
def writeWatchReg (a : Nat) (d : Word) (via : Via) (at_ : Nat) (s : State) : State :=
  if a = 0x180 then writeWcCtrl d at_ s
  else if a = 0x182 then onWc (fun w => { w with waddr := BitVec.ofNat 17 d.toNat }) s
  else if a = 0x183 then writeMemData d s
  else if 0x184 ≤ a && a ≤ 0x187 then writeDrops (a - 0x184) d s
  else if a = 0x188 then settleSetting a d via at_ (onWc (fun w => { w with winLen := BitVec.ofNat 8 d.toNat }) s)
  else if a = 0x18A then settleSetting a d via at_ (onWc (fun w => { w with baseCtrl := BitVec.ofNat 5 d.toNat }) s)
  else if a = 0x18D then onWc (fun w => { w with replayBase := BitVec.ofNat 17 d.toNat }) s
  else if 0x1B0 ≤ a && a ≤ 0x1BF then writeMemWin (a - 0x1B0) d s
  else if 0x200 ≤ a && a ≤ 0x207 then
    settleSetting a d via at_ (onBell (fun b => { b with rules := sput 0 b.rules (a - 0x200) (d &&& 0x7FFFFFFF) }) s)
  else if a = 0x208 then settleSetting a d via at_ (writeBellCtrl d via s)
  else if a = 0x20A then (if bitOf d.toNat 0 then bellAckEffect s else s)
  else if 0x20C ≤ a && a ≤ 0x20E then
    onWc (fun w => { w with sustSeen := w1c w.sustSeen (d.toNat * 2 ^ (32 * (a - 0x20C))) }) s
  else if a = 0x214 then writeLoftCtrl d at_ s
  else if a = 0x215 then onLoft (fun l => { l with block := BitVec.ofNat 9 d.toNat }) s
  else if 0x240 ≤ a && a ≤ 0x247 then writeWatchSel (a - 0x240) d s
  else if a = 0x041 then { s with alert := s.alert &&& ~~~ (BitVec.ofNat 13 d.toNat &&& watchAlerts) }
  else if a = 0x005 then { s with seen := s.seen &&& ~~~ (BitVec.ofNat 20 d.toNat &&& watchSeen) }
  else s

/-- Words with a field in the watchman. -/
def inWatchman (a : Nat) : Bool :=
  a == 0x041 || a == 0x005 || (decide (0x140 ≤ a) && decide (a < 0x280) && a != 0x210 && a != 0x211)

/-- A write that reaches the watchman takes effect only while AONCLK is set (R80). -/
def watchmanWrite (a : Nat) (d : Word) (via : Via) (at_ : Nat) (s : State) : State :=
  if !s.wc.aonclk then s
  else if 0x140 ≤ a && a < 0x180 then writeFrontReg a d at_ s else writeWatchReg a d via at_ s

/-- An unsealed write that a command of its own stands for: it commits and reaches the watchman in the present clock. -/
def watchmanCommand (a : Nat) (d : Word) (s : State) : State :=
  fromGate (fun s => watchmanWrite a d .unsealed s.clocks.wclk s) s

/-! ## Writes in the gatehouse -/

/-- A staging write at a byte offset (R124). -/
def stageWrite (b : Nat) (d : Word) (via : Via) (s : State) : State :=
  let sealedOnly := stageRegion b == .sealedOnly
  let s1 := if sealedOnly && via == .unsealed then { s with port := { s.port with sealSkip := true } } else s
  if s.gran.st = .closed then s1
  else if stageRegion b = .open_ || (sealedOnly && via == .sealed) then
    { s1 with gran := storeDelta s1.gran (b / 4) d }
  else s1

def stageData (d : Word) (via : Via) (s : State) : State :=
  let s1 := stageWrite (stageDataAt s.gran) d via s
  { s1 with gran := { s1.gran with offset := s1.gran.offset + 1 } }

def stageWin (k : Nat) (d : Word) (via : Via) (s : State) : State := stageWrite (stageWinAt s.gran k) d via s

/-- G_KEYINIT_CTRL.GO (R114). -/
def firstKey (s : State) : State :=
  let k := s.keys
  let key : BitVec 128 := BitVec.ofNat 128
    (k.init0.toNat * 2 ^ 96 + k.init1.toNat * 2 ^ 64 + k.init2.toNat * 2 ^ 32 + k.init3.toNat)
  let done := fun (g : Granary) (k : Seal) (r : BitVec 3) =>
    { s with gran := g, keys := { k with init0 := 0, init1 := 0, init2 := 0, init3 := 0, initResult := r } }
  if s.gran.st = .closed then done s.gran k 3
  else if [0, 1, 2, 3].any (fun n => (slotOf k n).st != .empty) then done s.gran k 2
  else if key = 0 then done s.gran k 4
  else
    let r := installSlot s.gran k 0 key 0x3F
    done r.1 r.2 1

/-- A word of the tenant banks, G_TENANT_BLOCKn and G_TENANT_ABORTn (R85). -/
def putBankWord (v : BitVec 256) (n : Nat) (d : Word) : BitVec 256 := BitVec.ofNat 256 (setField v.toNat (32 * n) 32 d.toNat)

/-- G_ESC_CTRL and G_ESC_TENANT (R415). -/
def writeEscCtrl (d : Word) (s : State) : State :=
  let n := d.toNat
  let s1 := onEsc (fun e => { e with
    en := bitOf n 0, keep := bitOf n 1, rules := BitVec.ofNat 8 (n / 256), waitMs := BitVec.ofNat 4 (n / 65536) }) s
  if bitOf n 0 then s1 else escWithdraw s1

def writeEscTenant (d : Word) (s : State) : State :=
  let t : Byte := BitVec.ofNat 8 d.toNat
  let s1 := onEsc (fun e => { e with tenantReg := t }) s
  if t = s.esc.tenantReg then s1 else escWithdraw s1

/-- Words whose every field is a SEAL field, in a sealed write. -/
def writeSealed (a : Nat) (d : Word) (s : State) : State :=
  if a = 0x094 then { s with port := { s.port with debugReg := BitVec.ofNat 2 d.toNat } }
  else if a = 0x101 then writeLoomReq d s
  else if a = 0x102 then writeLinkReq d s
  else if a = 0x210 then writeEscCtrl d s
  else if a = 0x211 then writeEscTenant d s
  else if 0x288 ≤ a && a ≤ 0x28F then onPwr (fun p => { p with block := putBankWord p.block (a - 0x288) d }) s
  else if 0x298 ≤ a && a ≤ 0x29F then onPwr (fun p => { p with abort := putBankWord p.abort (a - 0x298) d }) s
  else s

/-- Words held in the gatehouse or on the always-on side that any write may set. -/
def writeGatehouse (a : Nat) (d : Word) (via : Via) (s : State) : State :=
  let n := d.toNat
  if a = 0x005 then { s with seen := s.seen &&& ~~~ (BitVec.ofNat 20 n &&& ~~~ watchSeen) }
  else if a = 0x040 then { s with port := { s.port with sealSkip := s.port.sealSkip && !bitOf n 16, badOp := s.port.badOp && !bitOf n 17 } }
  else if a = 0x041 then { s with alert := s.alert &&& ~~~ (BitVec.ofNat 13 n &&& ~~~ watchAlerts) }
  else if a = 0x042 then { s with port := { s.port with alertMask := BitVec.ofNat 13 n } }
  else if a = 0x043 then { s with port := { s.port with aborts := BitVec.ofNat 16 n } }
  else if a = 0x044 then onPwr (fun p => { p with conflicts := BitVec.ofNat 16 n }) s
  else if a = 0x045 then writeReset d s
  else if a = 0x090 then { s with keys := { s.keys with total := BitVec.ofNat 16 n } }
  else if a = 0x098 then { s with keys := { s.keys with init0 := d } }
  else if a = 0x099 then { s with keys := { s.keys with init1 := d } }
  else if a = 0x09A then { s with keys := { s.keys with init2 := d } }
  else if a = 0x09B then { s with keys := { s.keys with init3 := d } }
  else if a = 0x09C then (if bitOf n 0 then firstKey s else s)
  else if a = 0x0C4 then { s with gran := { s.gran with offset := BitVec.ofNat 12 (field n 2 12) } }
  else if a = 0x0C5 then stageData d via s
  else if 0x0E0 ≤ a && a < 0x0F0 then stageWin (a - 0x0E0) d via s
  else if via = .sealed then writeSealed a d s
  else s

/-- One gate word commits (R10, R68, R69, R80, R101): what the gatehouse holds at its edge, what the watchman holds on its
way there. -/
def commitWord (a : Nat) (d : Word) (via : Via) (s : State) : State :=
  let s1 := if via = .unsealed && hasSealField a then { s with port := { s.port with sealSkip := true } } else s
  let s2 := if inWatchman a then
      { s1 with wflight := s1.wflight ++ [{ addr := BitVec.ofNat 10 a, data := d, via := via, at_ := s1.clocks.wclk }] }
    else s1
  writeGatehouse a d via s2

end Sys2Proof.Machine
end

