-- ==== Sys2Proof/Machine/DraftRows.lean ====
section
/-!
DEFINITION. The commands of draft loads, DMA entries and the escalation's loom side (R247 to R252, R349, R404 to R412).
-/

namespace Sys2Proof.Machine

/-! ## L_DRAFT_LOAD (R247) -/

def loadModeOf (n : Nat) : LoadMode := if n = 0 then .fresh else if n = 1 then .hot else if n = 2 then .cold else .unload
def loadModeCode : LoadMode → Nat
  | .fresh => 0
  | .hot => 1
  | .cold => 2
  | .unload => 3

/-- A write of L_DRAFT_LOAD; with GO while BUSY it has no effect but OVERRUN. -/
def writeDraftLoad (d : DWord) (s : State) : State :=
  let n := d.toNat
  let go := bitOf n 20
  if go && s.loom.verify.busy then startLoad .fresh 0 0 s
  else
    let s1 := onLoom (fun l => { l with loadReg := BitVec.ofNat 20 (field n 0 20) }) s
    if go then startLoad (loadModeOf (field n 18 2)) (field n 0 10) (field n 10 8) s1 else s1

/-- The word that starts a load. -/
def loadWord (mode : LoadMode) (id : BitVec 10) (tenant : BitVec 8) : DWord :=
  BitVec.ofNat 64 (id.toNat + 2 ^ 10 * tenant.toNat + 2 ^ 18 * loadModeCode mode + 2 ^ 20)

def draftLoad (mode : LoadMode) (id : BitVec 10) (tenant : BitVec 8) (s : State) : State :=
  hostPosts none (writeDraftLoad (loadWord mode id tenant)) s

def execDraftNew (id : BitVec 10) (tenant : BitVec 8) (s : State) : Host.Outcome State Fault Refusal :=
  fin s (draftLoad .fresh id tenant s)
def execDraftHot (id : BitVec 10) (tenant : BitVec 8) (s : State) : Host.Outcome State Fault Refusal :=
  fin s (draftLoad .hot id tenant s)
def execDraftCold (id : BitVec 10) (tenant : BitVec 8) (s : State) : Host.Outcome State Fault Refusal :=
  fin s (draftLoad .cold id tenant s)
def execDraftUnload (id : BitVec 10) (tenant : BitVec 8) (s : State) : Host.Outcome State Fault Refusal :=
  fin s (draftLoad .unload id tenant s)

def execImageFetch (rows : Nat) (s : State) : Host.Outcome State Fault Refusal := fin s (fetchImage rows s)

def execTileWalkDone (t : BitVec 8) (s : State) : Host.Outcome State Fault Refusal := fin s (tileWalked t.toNat s)

/-! ## The hand-off (R405 to R407) -/

/-- Tile, bank and row of hand-off row `n`. -/
def handoffPlace (e : Escalation) (n : Nat) : Nat × Nat × Nat :=
  if n < 8 then (prof e.profile 16 1, prof e.profile 17 1, prof e.profile 18 1 + n)
  else
    let k := (n - 8) / 256
    ((audioPair e.profile k).1, (audioPair e.profile k).2, (n - 8) % 256)

/-- Bytes of hand-off row `n`. -/
def handoffRow (s : State) (n : Nat) : List Byte :=
  if n < 8 then slice s.esc.header (64 * n) 64
  else match s.loft.frozen with
    | some f => slice (frozenView f) (64 * (n - 8)) 64
    | none => List.replicate 64 0

/-- A bank row is written for a DMA or bobbin entry of a tenant. An access of a bank that no entry of the tenant owns in this lc, or a
second access of the bank in the lc, is not performed, and the tenant is at fault (R232, R240, R263, R264). -/
def entryWrite (t k row tenant : Nat) (data : List Byte) (s : State) : State :=
  match entryBreach s t k tenant with
  | some kind => breachByEntry kind t tenant s
  | none => writeBankRow t k row data (useBank (bankKey t k) s)

/-- The next hand-off row lands in an lc of a DMA entry. -/
def landRow (en : WEntry) (s : State) : State :=
  let n := s.esc.landed
  let p := handoffPlace s.esc n
  onEsc (fun e => { e with landed := n + 1 }) (entryWrite p.1 p.2.1 p.2.2 en.tenant (handoffRow s n) s)

/-- Whether the next hand-off row lands in this lc of an entry: one of the tenant that owns the row's bank on its tile. -/
def landsHere (s : State) (en : WEntry) : Bool :=
  let p := handoffPlace s.esc s.esc.landed
  s.esc.st == .copy && decide (s.esc.landed < handoffRows) && en.tenant == s.esc.latTenant.toNat && s.pwr.st == .l0
    && (entryBanks s en).getLsbD p.2.1 && (let q := partOf s en.tenant; inRect q.row0 q.col0 q.rows q.cols p.1)

/-- A DMA entry delivers one image row in an lc; the bridge reads one hand-off row in an lc, which then carries no image row (R349,
R407). -/
def dmaKey (e : Nat) : Nat := 2000 + e
def handoffKey : Nat := 1999
def dmaUsed (s : State) (k : Nat) : Bool := s.loom.linkUse.contains (k, lcOf s)
def imageLanded (s : State) : Bool := s.loom.linkUse.any (fun e => decide (2000 ≤ e.1) && e.2 == lcOf s)

/-- DMA_ROW: a hand-off row, else a row of the load the entry serves (R349, R407). -/
def dmaRowEffect (e : Nat) (s : State) : State :=
  let en := activeEntry s e
  if !isDmaEntry en || !inOccurrence s.loom.weave en (lcOf s) || !(partOf s en.tenant).en || !mesochronousRuns s
      || dmaUsed s handoffKey then s
  else if landsHere s en && !imageLanded s then landRow en (takeLinks [(handoffKey, lcOf s)] s)
  else match s.loom.load with
    | none => s
    | some ld =>
      if 64 ≤ ld.buffer.length && (en.shared || en.tenant == ld.tenant) && !dmaUsed s (dmaKey e) then
        deliverRow ld (takeLinks [(dmaKey e, lcOf s)] s)
      else s

def execDmaRow (e : BitVec 10) (s : State) : Host.Outcome State Fault Refusal := fin s (dmaRowEffect e.toNat s)

/-! ## Escalation (R406, R408 to R410) -/

/-- Whether every destination lies in the tenant's partition. -/
def destsGood (s : State) : Bool :=
  let p := partOf s s.esc.latTenant.toNat
  let places := (prof s.esc.profile 16 1, prof s.esc.profile 17 1) :: (span 0 4).map (audioPair s.esc.profile)
  p.en && places.all (fun x => inRect p.row0 p.col0 p.rows p.cols x.1 && p.banks.getLsbD x.2)

def copyStart (s : State) : State :=
  if s.esc.st = .waitLoom && s.pwr.st = .l0 && mesochronousRuns s then
    if destsGood s then onEsc (fun e => { e with st := .copy }) s else endEscalation outBadDest none s
  else s

def execEscalationCopyStart (s : State) : Host.Outcome State Fault Refusal := fin s (copyStart s)

/-- The escalation entry, with its deadline from L_NOW at the fetch (R408). -/
def escEntryBytes (e : Escalation) (now : Nat) : List Byte :=
  let p := e.profile
  let flags := field (prof p 19 1) 0 2
  let deadline := if bitOf flags 0 then now + prof p 8 8 else 0
  [1, BitVec.ofNat 8 flags] ++ toLe 2 (field (prof p 0 2) 0 10) ++ toLe 2 (prof p 2 2) ++ [0, 0]
    ++ toLe 4 (prof p 4 4) ++ toLe 4 e.seq.toNat ++ toLe 8 deadline ++ slice p 32 4 ++ toLe 1 (prof p 31 1)
    ++ slice p 28 3 ++ List.replicate 32 0

/-- An entry joins the fetch order ahead of every entry that was fetched in this lc. -/
def putAhead (lc : Nat) (f : Fetched) (fs : List Fetched) : List Fetched :=
  let now := fs.filter (fun g => g.lc == lc)
  fs.filter (fun g => g.lc != lc)
    ++ { f with order := (now.head?.map (·.order)).getD f.order } :: now.map (fun g => { g with order := g.order + 1 })

/-- ESCALATION_ENTRY: before the limit the entry is fetched ahead of every ring entry of this lc, and answered in fetch order, here
where nothing fetched is before it and this lc has had no answer, else as a RUN (R354, R408, R410). -/
def escEntry (s : State) : State :=
  let t := s.esc.latTenant.toNat
  if s.esc.st = .waitFetch && !s.esc.fetched && !escExpired s && fetchOpen s && tenantOpen s t then
    let f : Fetched :=
      { ring := 4 * t, index := 0xFFFFFFFF, bytes := escEntryBytes s.esc (nowOf s), esc := true, order := s.loom.order, lc := lcOf s }
    let c := 4 * t + 1
    let s1 := onEsc (fun e => { e with fetched := true }) (putRing c { ringOf s c with resv := (ringOf s c).resv + 1 } s)
    answerFront (·.esc) runFront (onLoom (fun l => { l with order := l.order + 1, fetched := putAhead (lcOf s) f l.fetched }) s1)
  else s

def execEscalationEntry (s : State) : Host.Outcome State Fault Refusal := fin s (escEntry s)

/-- ESCALATION_ANSWER: the loom bridge reports the answer. -/
def escAnswer (s : State) : State :=
  match s.esc.answerDue with
  | some c => if s.esc.st = .waitFetch then endEscalation outPresented (some c) s else s
  | none => s

def execEscalationAnswer (s : State) : Host.Outcome State Fault Refusal := fin s (escAnswer s)

/-- ESCALATION_TIMEOUT: (WAIT + 1) ms after the trigger with no entry fetched. -/
def escTimeout (s : State) : State :=
  if s.esc.st ≠ .idle && !s.esc.fetched && escExpired s then endEscalation outTimeout none s else s

def execEscalationTimeout (s : State) : Host.Outcome State Fault Refusal := fin s (escTimeout s)

end Sys2Proof.Machine
end

