-- ==== Sys2Proof/Machine/Bobbin.lean ====
section
/-!
DEFINITION. The bobbin: checkpoint entries, the raw stream, block coding, moves, images and records (R420 to R436).
-/

namespace Sys2Proof.Machine

/-! ## The entry (R427) -/

/-- What a SAVE or RESTORE entry names, as a checkpoint not yet begun. -/
def parseCkpt (b : List Byte) : Ckpt :=
  let p := leAt b 40 1
  let q := leAt b 41 1
  { image := leAt b 24 8, row0 := field p 0 4, col0 := field p 4 4, rows := field q 0 4 + 1, cols := field q 4 4 + 1
    banks := BitVec.ofNat 10 (leAt b 42 2), groups := BitVec.ofNat 4 (leAt b 44 1), bytes40 := slice b 40 8
    seqs := (span 0 (min (field (leAt b 45 1) 0 3) 4)).map (fun k => leAt b (48 + k) 1)
    nblk := 0, moves := [], moved := 0, block := [], stored := 0, rawBlocks := 0, index := [], headIn := [], asked := 0
    arrived := 0, inbound := [], checked := false, decoded := [], reason := 0, failBlock := none, zeroed := false }

def pop (w v : Nat) : Nat := (setBits w v).length

def metaBlocks (d : BitVec 41) : Nat := ceilDiv (laneCount d * descW d * 8) 4096
def laneBlocks (d : BitVec 41) : Nat := ceilDiv (laneCount d * 128) 4096
/-- Blocks of a sequence's three sections (R420). -/
def seqBlocks (q : Seq) : Nat := q.reels.length * 8 + metaBlocks q.desc + laneBlocks q.desc
def bankBlocks (c : Ckpt) : Nat := c.rows * c.cols * pop 10 c.banks.toNat * pop 4 c.groups.toNat

/-- NBLK. -/
def blockCount (s : State) (c : Ckpt) : Nat :=
  (if c.banks = 0 then 0 else bankBlocks c) + (c.seqs.map (fun q => seqBlocks (seqOf s q))).sum

/-- A res bit of a bobbin entry is set, IMAGE's low bits among them. -/
def ckptRes (b : List Byte) : Bool :=
  leAt b 1 1 / 2 != 0 || leAt b 2 6 != 0 || leAt b 24 8 % 64 != 0 || leAt b 24 8 / 2 ^ 57 != 0
    || leAt b 42 2 / 1024 != 0 || leAt b 44 1 / 16 != 0 || leAt b 45 1 / 8 != 0 || leAt b 46 2 != 0
    || (slice b 52 12).any (· != 0) || (entOp b == 2 && leAt b 32 8 != 0)

/-- A SAVE or RESTORE is malformed (R428). -/
def badCkpt (s : State) (t : Nat) (b : List Byte) (c : Ckpt) : Bool :=
  let p := partOf s t
  let n := blockCount s c
  (entOp b != 1 && entOp b != 2) || ckptRes b || decide (4 < field (leAt b 45 1) 0 3) || n == 0 || decide (16384 < n)
    || (if c.banks = 0 then leAt b 40 2 != 0 || c.groups != 0
        else !p.en || !(rectTiles c.row0 c.col0 c.rows c.cols).all (inRect p.row0 p.col0 p.rows p.cols)
          || decide (16 < c.row0 + c.rows) || decide (16 < c.col0 + c.cols)
          || (c.banks &&& ~~~ p.banks) != 0 || c.groups == 0)
    || c.seqs.any (fun q => badBind s t q) || !decide c.seqs.Nodup
    || (entOp b == 1 && decide (leAt b 32 8 < 128 + indexBytes n + 4096 * n))

/-! ## Admission (R428, R429) -/

/-- LEAD. -/
def restoreLead (s : State) (n : Nat) : Nat := 2 * currentMHz s + (2 + ceilDiv n 8 + 64) * bobbinPeriod s

/-- The lc in which the record of a checkpoint is due after its last move. -/
def ckptRecordLc (s : State) (save : Bool) (last : Nat) : Nat :=
  last + 1 + (if save then 66 * bobbinPeriod s + 256 else 64)

/-- Image writes of a SAVE wait in the outbound half. -/
def pushOut (o tenant addr : Nat) (payload : Bool) (data : List Byte) : State → State := onLoom (fun l => { l with
  bobbin := { l.bobbin with out := l.bobbin.out ++ [{ job := o, tenant := tenant, addr := addr, data := data
                                                      payload := payload }] } })

/-- Bytes the outbound half holds. -/
def outboundHeld (s : State) : Nat := (s.loom.bobbin.out.map (fun w => w.data.length)).sum

/-- A half of the smoothing queue (R425). -/
def halfBytes : Nat := 262144

/-- The zeroing of a SAVE's first 64 bytes waits in the outbound half, ahead of all its other writes. -/
def zeroImage (o : Nat) (s : State) : State :=
  match (jobOf s o).bind (fun j => j.ckpt.map (fun c => (j, c))) with
  | none => s
  | some (j, c) =>
    if j.kind = .save && j.ended.isNone && !c.zeroed && decide (outboundHeld s + 64 ≤ halfBytes) then
      pushOut o j.tenant c.image false (List.replicate 64 0) (modCkpt o (fun c => { c with zeroed := true }) s)
    else s

/-- Bytes of the image a RESTORE may ask for: header and index, and the payload once it has been checked. -/
def askLimit (c : Ckpt) : Nat := payloadAt c.nblk + (if c.checked then leAt c.headIn 16 8 else 0)

/-- Bytes of the inbound half a RESTORE holds or has asked for. -/
def inboundHeld (c : Ckpt) : Nat := c.headIn.length + c.inbound.length + (c.asked - c.arrived)

/-- One read of the image at most: 64 to 192 bytes of one 4 KiB page, as the inbound half allows. -/
def askOnce (o : Nat) (s : State) : State :=
  match jobOf s o with
  | none => s
  | some j => match j.ckpt with
    | none => s
    | some c =>
      let a := c.image + c.asked
      let used := ((openJobs s).map (fun k => match k.ckpt with | some x => inboundHeld x | none => 0)).sum
      let n := min (min 3 ((4096 - a % 4096) / 64)) (min ((askLimit c - c.asked) / 64) ((halfBytes - used) / 64))
      if n = 0 || j.kind ≠ .restore || j.ended.isSome then s
      else
        let tag := s.loom.nextTag
        let r : DevRead :=
          { tag := tag, mod := moduleFor s j.tenant, tenant := j.tenant, what := .checkpoint o c.asked (64 * n), addr := a
            len := 64 * n, got := none }
        enqueue { kind := .read, addr := a, data := [], len := 64 * n, tag := tag, tenant := j.tenant, what := .checkpoint }
          (modCkpt o (fun c => { c with asked := c.asked + 64 * n })
            (onLoom (fun l => { l with nextTag := (tag + 1) % 4096, reads := l.reads ++ [r] }) s))

/-- A RESTORE reads ahead as far as it may. -/
def askN : Nat → Nat → State → State
  | 0, _, s => s
  | n + 1, o, s => askN n o (askOnce o s)

def readAhead (o : Nat) (s : State) : State :=
  match (jobOf s o).bind (·.ckpt) with
  | some c => askN ((askLimit c - c.asked) / 64) o s
  | none => s

/-- Every RESTORE reads ahead as the inbound half allows, in admission order. -/
def readAheadAll (s : State) : State := (openJobs s).foldl (fun s j => readAhead j.order s) s

/-- A checkpoint enters the table with its move lc. -/
def admitCkpt (f : Fetched) (save : Bool) (c : Ckpt) (promise : Nat) (s : State) : State :=
  let t := f.ring / 4
  let j : Job :=
    { order := f.order, tenant := t, kind := if save then .save else .restore, esc := false, draft := 0, passes := 0, ran := 0
      tag := entTag f.bytes, subidx := f.index, promise := promise, binds := [], resAt := none, result := [], booked := []
      recordAt := 0, ending := none, cut := false, silent := false, ended := none, poisoned := false
      degraded := false, breached := false, ckpt := some c }
  let s1 := loomTally 0x40 (some t) 1 (bookMoves c.moves (onJobs (fun js => js ++ [j]) s))
  if save then zeroImage f.order s1 else readAhead f.order s1

/-- The answer of a SAVE or RESTORE. -/
def answerCkpt (f : Fetched) (s : State) : State :=
  let b := f.bytes
  let t := f.ring / 4
  let c0 := parseCkpt b
  let c := { c0 with nblk := blockCount s c0 }
  let save := entOp b == 1
  let refuse := fun (code p : Nat) => answerNow (entRecord f code 0 p []) s
  if (tenantOf s t).blocked then refuse 0x15 0
  else if badCkpt s t b c then refuse 0x20 0
  else if (ckptEntries s t c.banks).isEmpty then refuse 0x12 0
  else
    let lo := lcOf s + 64 + (if save then 0 else restoreLead s c.nblk)
    let ms := moveLcs s t c.banks (afterMoves s t lo) (64 * c.nblk)
    let p := promiseAt s (lcOf s) (ckptRecordLc s save (ms.getLast?.getD 0))
    if (match entDeadline b with | some d => decide (d < p) | none => false) then refuse 0x10 p
    else admitCkpt f save { c with moves := ms } p s

def isBobbinEntry_ (f : Fetched) : Bool := f.ring % 4 == 3

def answerBobbinNop (f : Fetched) (s : State) : State :=
  let code := if (tenantOf s (f.ring / 4)).blocked then 0x15 else if ckptRes f.bytes then 0x20 else 0
  answerNow (entRecord f code 0 0 []) s

/-- SAVE also answers an entry of unknown OP, which is malformed. -/
def execSave (s : State) : Host.Outcome State Fault Refusal :=
  fin s (answerFront (fun f => isBobbinEntry_ f && !(entOp f.bytes == 0 || entOp f.bytes == 2)) answerCkpt s)
def execRestore (s : State) : Host.Outcome State Fault Refusal :=
  fin s (answerFront (fun f => isBobbinEntry_ f && entOp f.bytes == 2) answerCkpt s)
def execBobbinNop (s : State) : Host.Outcome State Fault Refusal :=
  fin s (answerFront (fun f => isBobbinEntry_ f && entOp f.bytes == 0) answerBobbinNop s)

/-! ## The raw stream (R420) -/

/-- Where one block of the stream lies. -/
inductive BlockAt where
  | bank (tile bank group : Nat)
  | reel (seq index part : Nat)
  | slots (seq n : Nat)
  | lanes (seq n : Nat)
  | none
deriving DecidableEq, Repr

/-- A block of the sequence sections. -/
def seqBlockAt (s : State) : List Nat → Nat → BlockAt
  | [], _ => .none
  | q :: qs, n =>
    let sq := seqOf s q
    let r := sq.reels.length * 8
    let m := metaBlocks sq.desc
    if n < r then .reel q (n / 8) (n % 8)
    else if n < r + m then .slots q (n - r)
    else if n < seqBlocks sq then .lanes q (n - r - m)
    else seqBlockAt s qs (n - seqBlocks sq)

def blockAt (s : State) (c : Ckpt) (n : Nat) : BlockAt :=
  let groups := setBits 4 c.groups.toNat
  let banks := setBits 10 c.banks.toNat
  let total := if c.banks = 0 then 0 else bankBlocks c
  if n < total then
    let per := banks.length * groups.length
    let tiles := rectTiles c.row0 c.col0 c.rows c.cols
    .bank ((tiles[n / per]?).getD 0) ((banks[n % per / groups.length]?).getD 0) ((groups[n % groups.length]?).getD 0)
  else seqBlockAt s c.seqs (n - total)

/-- Lane record (R420). -/
def laneRecord (v : Lane) : List Byte :=
  let unset := packBits ((span 0 8).map (fun h => (sget none v.m h).isNone || (sget none v.r h).isNone))
  let word := fun (x : Option Word) => toLe 4 (x.getD 0).toNat
  toLe 4 v.npos.toNat ++ toLe 4 (fillCount v) ++ toLe 1 unset ++ List.replicate 7 0
    ++ (span 0 8).flatMap (fun h => word (sget none v.m h)) ++ (span 0 8).flatMap (fun h => word (sget none v.r h))
    ++ List.replicate 48 0

/-- A lane from its record. -/
def recordLane (b : List Byte) (v : Lane) : Lane :=
  let at_ := fun (base h : Nat) => if bitOf (leAt b 8 1) h then none else some (BitVec.ofNat 32 (leAt b (base + 4 * h) 4))
  { v with
    npos := BitVec.ofNat 32 (leAt b 0 4)
    m := (span 0 8).foldl (fun m h => sput none m h (at_ 16 h)) [], r := (span 0 8).foldl (fun m h => sput none m h (at_ 48 h)) [] }

/-- Metadata slots of one row, by number. -/
def rowSlots (q : Seq) (n r : Nat) : List (Nat × Nat) :=
  let w := descW q.desc
  ((span (512 * n + 8 * r) 8).filter (fun i => decide (i < laneCount q.desc * w))).map (fun i => (i / w, i % w))

/-- Byte address of row `r` of a reel block. -/
def reelRowAddr (q : Seq) (index part r : Nat) : Nat :=
  Config.reelBytes * ((q.reels[index]?).getD 0) + 4096 * part + 64 * r

/-- Row `r` of a block as a SAVE reads it, and whether a word of it was uncorrectable. -/
def readRow (b : BlockAt) (r tenant : Nat) (ups : Upsets) (s : State) : List Byte × Bool × State :=
  match b with
  | .bank t k g =>
    match entryBreach s t k tenant with
    | some kind => (List.replicate 64 0, false, breachByEntry kind t tenant s)
    | none => readBankRow t k (64 * g + r) (some tenant) ups (useBank (bankKey t k) s)
  | .reel q x p =>
    let a := reelRowAddr (seqOf s q) x p r
    let s1 := useReel (((seqOf s q).reels[x]?).getD 0) false (onLoom (fun l => { l with kvUp := addUpsets l.kvUp ups }) s)
    let f := kvWordsRead q (a / 8) 8 s1
    (readWords s1.loom.kv s1.loom.kvUp (a / 8) 8, f.1, f.2)
  | .slots q n =>
    let sq := seqOf s q
    let s1 := onLoom (fun l => { l with kvUp := addUpsets l.kvUp ups }) s
    let is := rowSlots sq n r
    let s2 := is.foldl (fun s i => readSlotMeta q i.1 i.2 s) s1
    (slice (is.flatMap (fun i => toLe 8 (metaWord (kvSlotOf (laneOf (seqOf s2 q) i.1) i.2)))) 0 64, false, s2)
  | .lanes q n =>
    let sq := seqOf s q
    let l := 32 * n + r / 2
    if laneCount sq.desc ≤ l then (List.replicate 64 0, false, s)
    else
      let s1 := readLaneMeta q l (onLoom (fun o => { o with kvUp := addUpsets o.kvUp ups }) s)
      (slice (laneRecord (laneOf (seqOf s1 q) l)) (64 * (r % 2)) 64, false, s1)
  | .none => (List.replicate 64 0, false, s)

/-- Row `r` of a block as a RESTORE writes it. -/
def writeRow (b : BlockAt) (r tenant : Nat) (data : List Byte) (s : State) : State :=
  match b with
  | .bank t k g => entryWrite t k (64 * g + r) tenant data s
  | .reel q x p =>
    let a := reelRowAddr (seqOf s q) x p r
    useReel (((seqOf s q).reels[x]?).getD 0) true
      (onLoom (fun l => { l with kv := mwrite l.kv a (slice data 0 64), kvUp := clearUpsets l.kvUp (a / 8) 8 }) s)
  | .slots q n =>
    let sq := seqOf s q
    let is := rowSlots sq n r
    let put := fun (y : Seq) (e : Nat × (Nat × Nat)) =>
      let w := leAt data (8 * e.1) 8
      putLane e.2.1 (putKvSlot e.2.2 (slotOfWord w) (laneOf y e.2.1)) y
    let keys := is.map (fun i => metaKey q i.1 i.2 (descW sq.desc))
    onLoom (fun l => { l with kvUp := l.kvUp.filter (fun e => !keys.contains e.1) })
      (putSeq q (((span 0 is.length).zip is).foldl put sq) s)
  | .lanes q n =>
    let sq := seqOf s q
    let l := 32 * n + r / 2
    if laneCount sq.desc ≤ l then s
    else
      -- the record's halves arrive in two rows: each half takes the other from the lane as it stands
      let rec_ := laneRecord (laneOf sq l)
      let whole := if r % 2 = 0 then slice data 0 64 ++ rec_.drop 64 else rec_.take 64 ++ slice data 0 64
      onLoom (fun o => { o with kvUp := clearUpsets o.kvUp (laneKey q l 0) 9 })
        (putSeq q (putLane l (recordLane whole (laneOf sq l)) sq) s)
  | .none => s

/-! ## Block coding (R421, R422) -/

def rowTag (prev row : List Byte) : Nat :=
  if row.all (· == 0) then 0 else if row = prev then 1
  else if (row.filter (· != 0)).length ≤ 55 then 2 else 3

def rowPayload (tag : Nat) (row : List Byte) : List Byte :=
  if tag = 2 then toLe 8 (packBits (row.map (· != 0))) ++ row.filter (· != 0) else if tag = 3 then row else []

/-- Tags and payloads of the rows of a block. -/
def codeRows : List Byte → List (List Byte) → List (Nat × List Byte)
  | _, [] => []
  | prev, row :: rest => let t := rowTag prev row; (t, rowPayload t row) :: codeRows row rest

def blockRows (b : List Byte) : List (List Byte) := (span 0 64).map (fun r => slice b (64 * r) 64)

def codedBlock (b : List Byte) : List Byte :=
  let rs := codeRows (List.replicate 64 0) (blockRows b)
  let tags := ((span 0 rs.length).zip rs).map (fun e => e.2.1 * 4 ^ e.1)
  toLe 16 tags.sum ++ rs.flatMap (·.2)

def padTo64 (b : List Byte) : List Byte := b ++ List.replicate (64 * ceilDiv b.length 64 - b.length) 0

/-- The stored payload of a block, and whether it is raw. -/
def storedBlock (b : List Byte) : List Byte × Bool :=
  let p := padTo64 (codedBlock b)
  if 4032 < p.length then (slice b 0 4096, true) else (p, false)

/-- The bytes a MASK row spells. -/
def unmask : List Bool → List Byte → List Byte
  | [], _ => []
  | false :: ms, bs => 0 :: unmask ms bs
  | true :: ms, [] => 0 :: unmask ms []
  | true :: ms, b :: bs => b :: unmask ms bs

/-- Rows of a coded payload; `none` where they need more bytes than there are. -/
def decodeRows : Nat → Nat → List Byte → List Byte → Option (List (List Byte) × List Byte)
  | 0, _, _, rest => some ([], rest)
  | n + 1, tags, prev, rest =>
    let t := tags % 4
    let go := fun (row rest : List Byte) => (decodeRows n (tags / 4) row rest).map (fun r => (row :: r.1, r.2))
    if t = 0 then go (List.replicate 64 0) rest
    else if t = 1 then go prev rest
    else if t = 2 then
      if rest.length < 8 then none
      else
        let mask := (span 0 64).map (fun i => bitOf (leAt rest 0 8) i)
        let k := (mask.filter id).length
        if rest.length < 8 + k then none else go (unmask mask ((rest.drop 8).take k)) (rest.drop (8 + k))
    else if rest.length < 64 then none else go (rest.take 64) (rest.drop 64)

/-- A stored payload decoded; `none` for a form a decoder must reject. -/
def decodeBlock (raw : Bool) (p : List Byte) : Option (List Byte) :=
  if raw then (if p.length = 4096 then some p else none)
  else if p.length < 16 then none
  else match decodeRows 64 (leAt p 0 16) (List.replicate 64 0) (p.drop 16) with
    | none => none
    | some (rows, rest) => if rest.all (· == 0) then some (rows.flatMap id) else none

/-! ## The image (R423) -/

def imageMagic : Nat := 0x424F4231

def indexEntry (p : List Byte) (raw : Bool) : List Byte :=
  toLe 8 (crc32c p + 2 ^ 32 * p.length + flagBit raw 45)

/-- Header bytes 0 to 127 of a finished image. -/
def ckptHeader (s : State) (c : Ckpt) : List Byte :=
  let seqs := (span 0 4).flatMap (fun k => match c.seqs[k]? with
    | some q => toLe 8 (seqOf s q).desc.toNat
    | none => List.replicate 8 0)
  let head := toLe 4 imageMagic ++ toLe 2 1 ++ toLe 2 0 ++ toLe 4 c.nblk ++ toLe 4 0 ++ toLe 8 c.stored
    ++ toLe 8 (4096 * c.nblk) ++ slice c.bytes40 0 8 ++ toLe 1 c.seqs.length ++ List.replicate 7 0 ++ toLe 4 (crc32c c.index)
    ++ List.replicate 8 0
  let tail_ := seqs ++ List.replicate 32 0
  head ++ toLe 4 (crc32c (head ++ tail_)) ++ tail_

/-! ## Ends (R432, R436) -/

/-- A checkpoint ends with a fault. -/
def failCkpt (o : Nat) (code reason : Byte) (block : Option Nat) (s : State) : State :=
  readAheadAll (endCkpt o code (modCkpt o (fun c => { c with reason := reason, failBlock := block }) s))

/-- The last row has moved: the record is due in its lc R. -/
def finishCkpt (o : Nat) (save : Bool) (s : State) : State :=
  modJob o (fun j => { j with recordAt := ckptRecordLc s save (lcOf s) }) (noteResult o s)

/-! ## Moves (R424 to R426, R430, R431) -/

/-- Whether a reel is engine-owned in this lc (R317). -/
def engineOwned (s : State) (reel : Nat) : Bool :=
  s.loom.engines.any (fun e => match e.2.cmd with
    | some k => (match k.lane with | some a => (laneReels (seqOf s a.1) a.2).contains reel | none => false)
        && decide (k.first ≤ lcOf s) && decide (lcOf s ≤ spanEnd k)
    | none => false)

/-- Whether a move touches an engine-owned reel. -/
def moveBlocked (s : State) (b : BlockAt) : Bool :=
  match b with
  | .reel q x _ => engineOwned s (((seqOf s q).reels[x]?).getD 0)
  | _ => false

/-- Books of one moved row. -/
def moveBooks (o tenant : Nat) (s : State) : State :=
  loomTally 0x53 (some tenant) 64 (onLoom (fun l => { l with bobbin := { l.bobbin with lastTenant := BitVec.ofNat 8 tenant } })
    (modCkpt o (fun c => { c with moved := c.moved + 1 }) s))

/-- A completed block of a SAVE goes to the outbound half with its index entry; after the last one, the header. -/
def blockDone (o : Nat) (j : Job) (c : Ckpt) (block : List Byte) (s : State) : State :=
  let n := c.moved / 64
  let p := storedBlock block
  let entry := indexEntry p.1 p.2
  let c1 := { c with block := [], stored := c.stored + p.1.length, index := c.index ++ entry
                     rawBlocks := c.rawBlocks + (if p.2 then 1 else 0) }
  let s1 := modCkpt o (fun x => { c1 with moved := x.moved }) s
  let s2 := pushOut o j.tenant (c.image + 128 + 8 * n) false entry
    (pushOut o j.tenant (c.image + payloadAt c.nblk + c.stored) true p.1
      (loomTally 0x52 (some j.tenant) (if p.2 then 1 else 0) s1))
  if n + 1 < c.nblk then s2
  else
    let pad := List.replicate (indexBytes c.nblk - 8 * c.nblk) 0
    let h := ckptHeader s c1
    let s3 := if pad.isEmpty then s2 else pushOut o j.tenant (c.image + 128 + 8 * c.nblk) false pad s2
    finishCkpt o true (pushOut o j.tenant c.image false (h.take 64) (pushOut o j.tenant (c.image + 64) false (h.drop 64) s3))

/-- Bytes that the outbound half takes with a block: its payload and index entry, and after the last block the index's padding and the
header. -/
def blockBytes (c : Ckpt) (block : List Byte) : Nat :=
  (storedBlock block).1.length + 8 + (if c.moved / 64 + 1 < c.nblk then 0 else indexBytes c.nblk - 8 * c.nblk + 128)

/-- One row of a SAVE moves, or the move is postponed. -/
def saveMove (j : Job) (c : Ckpt) (ups : Upsets) (s : State) : State :=
  let b := blockAt s c (c.moved / 64)
  let r := readRow b (c.moved % 64) j.tenant ups s
  let block := c.block ++ r.1
  let last := c.moved % 64 = 63
  if moveBlocked s b || (last && (!c.zeroed || decide (halfBytes < outboundHeld s + blockBytes c block))) then postpone j.order (lcOf s) s
  else if r.2.1 then failCkpt j.order 0x21 6 none r.2.2
  else
    let s1 := moveBooks j.order j.tenant (modCkpt j.order (fun x => { x with block := block }) r.2.2)
    if last then blockDone j.order j c block s1 else s1

/-- A row takes bytes that no access brings. -/
def fillRow (b : BlockAt) (r tenant : Nat) (data : List Byte) (s : State) : State :=
  match b with
  | .bank t k g => writeBankRow t k (64 * g + r) data s
  | .reel _ _ _ => writeRow b r tenant data s
  | .slots _ _ => writeRow b r tenant data s
  | .lanes _ _ => writeRow b r tenant data s
  | .none => s

/-- The rest of a failed restore's target is undefined: free bytes (R436, log 3). -/
def freeTarget (j : Job) (c : Ckpt) (s : State) : State :=
  (span c.moved (64 * c.nblk - c.moved)).foldl (fun s n =>
    let data := (span s.free 64).map Config.freeByte
    fillRow (blockAt s c (n / 64)) (n % 64) j.tenant data { s with free := s.free + 64 }) s

def indexAt (c : Ckpt) (n : Nat) : Nat := leAt c.headIn (128 + 8 * n) 8

/-- A block starts: its payload leaves the inbound half, checked and decoded; `none` where it must wait. -/
def startBlock (c : Ckpt) : Option (Option Ckpt) :=
  let e := indexAt c (c.moved / 64)
  let len := field e 32 13
  let p := c.inbound.take len
  if c.inbound.length < len then none
  else if len < 64 || 4096 < len || crc32c p ≠ field e 0 32 then some none
  else some ((decodeBlock (bitOf e 45) p).map (fun d => { c with decoded := d, inbound := c.inbound.drop len }))

/-- One row of a RESTORE moves, or the move is postponed. -/
def restoreMove (j : Job) (c : Ckpt) (s : State) : State :=
  let b := blockAt s c (c.moved / 64)
  let go := fun (c1 : Ckpt) =>
    let s1 := modCkpt j.order (fun _ => c1) s
    let s2 := moveBooks j.order j.tenant (writeRow b (c.moved % 64) j.tenant (slice c1.decoded (64 * (c.moved % 64)) 64) s1)
    if c.moved + 1 = 64 * c.nblk then finishCkpt j.order false s2 else s2
  if !c.checked || moveBlocked s b then postpone j.order (lcOf s) s
  else if c.moved % 64 ≠ 0 then go c
  else match startBlock c with
    | none => postpone j.order (lcOf s) s
    | some none => failCkpt j.order 0x21 3 (some (c.moved / 64)) (freeTarget j c s)
    | some (some c1) => go c1

/-- BOBBIN_MOVE, in a booked move lc. -/
def bobbinMoveEffect (ups : Upsets) (s : State) : State :=
  if !mesochronousRuns s then s
  else match (openJobs s).find? (fun j => match j.ckpt with | some c => c.moves.contains (lcOf s) | none => false) with
    | none => s
    | some j => match j.ckpt with
      | none => s
      | some c =>
        let s1 := modCkpt j.order (fun c => { c with moves := c.moves.filter (fun m => m != lcOf s) }) s
        let c1 := { c with moves := c.moves.filter (fun m => m != lcOf s) }
        if j.kind = .save then saveMove j c1 ups s1 else readAheadAll (restoreMove j c1 s1)

def execBobbinMove (upsets : Upsets) (s : State) : Host.Outcome State Fault Refusal := fin s (bobbinMoveEffect upsets s)

/-! ## The weft side (R425, R430, R431) -/

/-- Whether an image write still belongs to a checkpoint that may write. -/
def liveWrite (s : State) (w : OutWrite) : Bool :=
  match jobOf s w.job with
  | some j => j.ended.isNone
  | none => false

/-- Bytes of one write transaction: 8, or 64 to 192 within a 4 KiB page. -/
def writeChunk (w : OutWrite) : Nat :=
  if w.data.length < 64 then 8 else 64 * min (min 3 (w.data.length / 64)) ((4096 - w.addr % 4096) / 64)

/-- The write transaction that a waiting write sends next. -/
def writeTxn (w : OutWrite) : DevTxn :=
  { kind := .write, addr := w.addr, data := w.data.take (writeChunk w), len := writeChunk w, tag := 0, tenant := w.tenant
    what := .checkpoint }

/-- Whether its tenant's module sends it now: the link and the credits allow it, and nothing waits there before it. -/
def leavesNow (s : State) (w : OutWrite) : Bool :=
  let m := weftOf s (moduleFor s w.tenant)
  m.resent.isEmpty && m.txq.isEmpty && maySend s (moduleFor s w.tenant) (writeTxn w)

/-- The outbound half with the first write that leaves shortened by what it sends. -/
def shedFirst (s : State) : List OutWrite → List OutWrite
  | [] => []
  | w :: ws =>
    if leavesNow s w then
      let left := w.data.drop (writeChunk w)
      if left.isEmpty then ws else { w with addr := w.addr + writeChunk w, data := left } :: ws
    else w :: shedFirst s ws

/-- A SAVE whose last image write has left has ended (log 33). -/
def saveSent (o : Nat) (s : State) : State :=
  if outboundLeft s o then s else modJob o (fun j => if j.ended.isNone && movesDone j then { j with ended := some 0 } else j) s

/-- BOBBIN_WEFT_WRITE: the oldest bytes of the outbound half whose module can send them cross the weft. -/
def weftWriteEffect (s : State) : State :=
  let live := s.loom.bobbin.out.filter (liveWrite s)
  let s1 := onLoom (fun l => { l with bobbin := { l.bobbin with out := shedFirst s live } }) s
  match live.find? (leavesNow s) with
  | none => s1
  | some w =>
    let s2 := loomTally 0x54 (some w.tenant) (if w.payload then writeChunk w else 0) (enqueue (writeTxn w) s1)
    (openJobs s).foldl (fun s j => zeroImage j.order s) (saveSent w.job s2)

def execBobbinWeftWrite (s : State) : Host.Outcome State Fault Refusal :=
  fin s (if loomReachable s.pwr then weftWriteEffect s else s)

/-- Image bytes of a RESTORE arrive: header and index first, then payload. -/
def imageArrived (o : Nat) (data : List Byte) (s : State) : State :=
  match (jobOf s o).bind (fun j => j.ckpt.map (fun c => (j, c))) with
  | none => s
  | some (j, c) =>
    let head := payloadAt c.nblk
    let toHead := min data.length (head - c.headIn.length)
    let pay := data.drop toHead
    readAhead o (loomTally 0x54 (some j.tenant) pay.length (modCkpt o (fun c => { c with
      arrived := c.arrived + data.length, headIn := c.headIn ++ data.take toHead, inbound := c.inbound ++ pay }) s))

/-- The checks of a header and index: code, reason, or none (R431). -/
def checkImage (s : State) (c : Ckpt) : Option (Byte × Byte) :=
  let h := c.headIn
  if leAt h 0 4 ≠ imageMagic || leAt h 4 2 ≠ 1 || leAt h 60 4 ≠ crc32c (slice h 0 60 ++ slice h 64 64) then some (0x21, 1)
  else if leAt h 8 4 ≠ c.nblk || slice h 32 8 ≠ slice c.bytes40 0 8 || leAt h 40 1 ≠ c.seqs.length
      || ((span 0 c.seqs.length).zip c.seqs).any (fun e => field (leAt h (64 + 8 * e.1) 8) 0 41 != (seqOf s e.2).desc.toNat) then
    some (0x20, 5)
  else if leAt h 48 4 ≠ crc32c (slice h 128 (8 * c.nblk)) then some (0x21, 2)
  else none

/-- RESTORE_CHECK, once the header and the whole index are in. -/
def restoreCheckEffect (s : State) : State :=
  match (openJobs s).find? (fun j => match j.ckpt with
      | some c => j.kind == .restore && !c.checked && decide (payloadAt c.nblk ≤ c.headIn.length)
      | none => false) with
  | none => s
  | some j => match j.ckpt with
    | none => s
    | some c => match checkImage s c with
      | some (code, reason) => failCkpt j.order code reason none s
      | none => readAhead j.order (modCkpt j.order (fun c => { c with checked := true }) s)

def execRestoreCheck (s : State) : Host.Outcome State Fault Refusal := fin s (restoreCheckEffect s)

/-- A write of L_BOBBIN_CTRL (R435, R439). -/
def writeBobbinCtrl (d : DWord) (s : State) : State :=
  let b := s.loom.bobbin
  let b1 : Bobbin :=
    if s.loom.jobs.any isCkpt then { b with reject := true }
    else { b with period := BitVec.ofNat 8 (field d.toNat 0 8), reject := b.reject && !bitOf d.toNat 8 }
  onLoom (fun l => { l with bobbin := b1 }) s

def execBobbinCtrlWrite (data : DWord) (s : State) : Host.Outcome State Fault Refusal :=
  fin s (hostPosts none (writeBobbinCtrl data) s)

end Sys2Proof.Machine
end

