-- ==== Sys2Proof/Machine/GatePort.lean ====
section
/-!
DEFINITION. Gate-port frames (R58 to R73, R81, R82, R86 to R88, R91, R96 to R112, R128 to R140, R442, R448). A frame is one command;
its clocks pass together, and a frame that is cut short carries the number of clocks that rose.
-/

namespace Sys2Proof.Machine

def onPort (f : GatePort → GatePort) (s : State) : State := { s with port := f s.port }
def onKeys (f : Seal → Seal) (s : State) : State := { s with keys := f s.keys }

/-! ## Opcodes and lengths (R63) -/

def opRead : Byte := 0x03
def opWrite : Byte := 0x02
def opSealedWrite : Byte := 0x5A
def opSealedCommand : Byte := 0x5C
def opOpen : Byte := 0x6F
def opStatus : Byte := 0x05
def opIdent : Byte := 0x9F

/-- The frames of the port. -/
inductive FrameKind where
  | read
  | write
  | sealedWrite
  | sealedCommand
  | openGranary
  | status
  | ident
deriving DecidableEq, Repr

/-- The decode of the opcode byte at clock 8 (R59, R60). -/
def frameKind (op : Byte) : Option FrameKind :=
  if op = opRead then some .read
  else if op = opWrite then some .write
  else if op = opSealedWrite then some .sealedWrite
  else if op = opSealedCommand then some .sealedCommand
  else if op = opOpen then some .openGranary
  else if op = opStatus then some .status
  else if op = opIdent then some .ident
  else none

def isFrameOp (op : Byte) : Bool := (frameKind op).isSome

/-- The words of a READ (R64, R67): a window read adds G_WIN_SEQ to the count words its field names. -/
def readAddrs (addr : BitVec 10) (n : BitVec 6) : List Nat :=
  if addr = 0x189 then 0x189 :: (span 0x1C0 (n.toNat + 1)).map (· % 1024)
  else (span addr.toNat (n.toNat + 1)).map (· % 1024)

def readClocks (addr : BitVec 10) (n : BitVec 6) : Nat := 32 + 32 * (readAddrs addr n).length
def writeClocks (n : Nat) : Nat := 24 + 32 * n

def isLongCommand : SealFrame → Bool
  | .command c _ => c == 1 || c == 2
  | .write _ _ => false

def sealedClocks (f : SealFrame) : Nat := if isLongCommand f then 8600 else 248
def openClocks : Nat := 4232
def statusClocks : Nat := 48

def sealedOp : SealFrame → Byte
  | .write _ _ => opSealedWrite
  | .command _ _ => opSealedCommand

/-! ## GSDO over a frame's clocks (R58 to R60, R65, R70 to R73) -/

/-- A READ of the words, with clocks after its end. -/
def readLine (words : List Word) (extra : Nat) : List Drive :=
  [.highZ 8, .low 24] ++ words.map (fun w => .bits 32 w.toNat) ++ [.low extra]

/-- STATUS and IDENT. -/
def wordLine (w : Word) (extra : Nat) : List Drive := [.highZ 8, .low 8, .bits 32 w.toNat, .low extra]

/-- A WRITE of `n` words shifts nothing out. -/
def writeLine (n extra : Nat) : List Drive := [.highZ 8, .low (16 + 32 * n + extra)]

/-- A frame of `total` clocks whose last eight shift a status byte out. -/
def statusLine (total : Nat) (code : Byte) (extra : Nat) : List Drive :=
  [.highZ 8, .low (total - 16), .bits 8 code.toNat, .low extra]

/-- The first `n` clocks of a run. -/
def cutDrive (n : Nat) : Drive → Drive
  | .highZ k => .highZ (min n k)
  | .low k => .low (min n k)
  | .bits w v => if n < w then .bits n (v >>> (w - n)) else .bits w v

def driveClocks : Drive → Nat
  | .highZ k => k
  | .low k => k
  | .bits w _ => w

/-- The first `n` clocks of a frame. -/
def cutLine : Nat → List Drive → List Drive
  | _, [] => []
  | n, d :: ds => if driveClocks d < n then d :: cutLine (n - driveClocks d) ds else [cutDrive n d]

def setLine (line : List Drive) : State → State := onPort (fun p => { p with gsdo := line })

/-! ## Frame edges -/

/-- `n` rising edges that count toward a lockout (R99). -/
def tick (n : Nat) : State → State := onKeys (lockTick n)

/-- GCS_N has risen since the frame before, and clock 1 of this one rises: a window held back is published (R82), and a short
frame is recorded (R86). -/
def beginFrame (s : State) : State :=
  let s1 := publishHeld s
  if s1.port.shortFlag then
    onPort (fun p => { p with
      aborts := satAdd p.aborts 1, grayAborts := p.grayAborts + 1
      lastCode := if p.shortOp.isSome then 0x04 else p.lastCode, lastOp := p.shortOp.getD p.lastOp, shortOp := none }) s1
  else onPort (fun p => { p with shortFlag := true }) s1

/-- The last defined clock has risen. -/
def endFrame : State → State := onPort (fun p => { p with shortFlag := false, shortOp := none })

/-- The frame was cut short; `op` is a sealed frame's or OPEN's opcode once its clock 8 has risen. -/
def markShort (op : Option Byte) : State → State := onPort (fun p => { p with shortFlag := true, shortOp := op })

/-! ## READ, STATUS and IDENT -/

/-- A HI word after its LO word in one burst comes from the same snapshot (R448). -/
def snapWord (s : State) (before : List Nat) (a : Nat) : Word :=
  if 0x250 ≤ a && a ≤ 0x25F && a % 2 = 1 && before.contains (a - 1) then
    (highHalf (wtallyOf s ((a - 0x251) / 2))).setWidth 32
  else gateRead s a

/-- The snapshot of a burst; `before` holds the words already in it. -/
def snapshot (s : State) : List Nat → List Nat → List Word
  | _, [] => []
  | before, a :: as => snapWord s before a :: snapshot s (a :: before) as

/-- The latch of a counter's high half when its LO word is shifted out in full (R66, R448). -/
def latchHigh (n : Nat) (c : Counter) (s : State) : State :=
  { s with wtally := { s.wtally with shadow := sput 0 s.wtally.shadow n (highHalf c) } }

/-- Side effects of the words shifted out in full, from the snapshot. -/
def readEffects (snap : State) : List Nat → State → State
  | [], s => s
  | a :: as, s =>
    readEffects snap as
      (if 0x250 ≤ a && a ≤ 0x25F && a % 2 = 0 then latchHigh ((a - 0x250) / 2) (wtallyOf snap ((a - 0x250) / 2)) s else s)

/-- A READ of which `clocks` clocks rise (R65, R66, R86). The lockout counts clock 28 before the snapshot is taken there
(log 18). -/
def readBurst (addr : BitVec 10) (n : BitVec 6) (clocks : Nat) (s : State) : State :=
  let as := readAddrs addr n
  let s1 := tick (min clocks 28) (beginFrame s)
  if clocks < 28 then s1
  else tick (clocks - 28) (onPort (fun p => { p with snap := snapshot s1 [] as })
      (readEffects s1 (as.take ((clocks - 32) / 32)) s1))

def readFrame (addr : BitVec 10) (n : BitVec 6) (extra : Nat) (s : State) : State :=
  let s1 := readBurst addr n (readClocks addr n) s
  tick extra (endFrame (setLine (readLine s1.port.snap extra) s1))

/-- STATUS and IDENT: one word from a snapshot at clock 12 (R73). -/
def oneWordFrame (word : State → Word) (extra : Nat) (s : State) : State :=
  let s1 := tick 12 (beginFrame s)
  tick (statusClocks - 12 + extra) (endFrame (setLine (wordLine (word s1) extra) s1))

/-! ## WRITE -/

/-- The words of a burst commit in order; one that requests a GATE reset is the last that counts (R68, R81). -/
def commitBurst : List Word → Nat → State → State
  | [], _, s => s
  | d :: ds, a, s =>
    if asksGateReset a d then commitWord a d .unsealed s else commitBurst ds ((a + 1) % 1024) (commitWord a d .unsealed s)

/-- Whether a burst commits a word that requests a GATE reset. -/
def burstResets : List Word → Nat → Bool
  | [], _ => false
  | d :: ds, a => asksGateReset a d || burstResets ds ((a + 1) % 1024)

/-- A WRITE of up to 64 words; a frame without a word is none. -/
def writeFrame (addr : BitVec 10) (data : List Word) (extra : Nat) (s : State) : State :=
  let words := data.take 64
  if words.isEmpty then s
  else tick (writeClocks words.length + extra)
    (endFrame (commitBurst words addr.toNat (setLine (writeLine words.length extra) (beginFrame s))))

/-! ## Sealed frames (R70, R97 to R99, R101 to R106, R112) -/

/-- The verdict at work clock 88, frame clock 240, with its count of a bad tag and a lockout's start. -/
def verdictOf (f : SealFrame) (ctr : Word) (tag : DWord) (s : State) : Verdict :=
  sealVerdict s.gran s.keys s.port.dieHi s.port.dieLo f ctr tag

def noteVerdict (v : Verdict) (s : State) : State :=
  if v.code = 0x01 then
    let s1 := onPort (fun p => { p with grayFails := p.grayFails + 1 }) (onKeys countBadTag s)
    if s1.keys.locked then raise causeSealLock s1 else s1
  else s

/-- What the VDD_NV monitor reads after work clock `last` of a long command (R40, R46). -/
def noteNv (f : SealFrame) (mon : ProgMon) (last : Nat) (s : State) : State :=
  if isLongCommand f then
    { s with mon := { s.mon with rails := { s.mon.rails with
      nv := match mon.nvLow with | some t => decide (last < t) | none => true } } }
  else s

/-- The staging view that a long command programs: for RESERVE with its slot's ceiling raised by 1,024 (R103, R131). -/
def raisedView (s : State) (f : SealFrame) (slot : Nat) : Granary :=
  if isReserve f then stageCeiling s.gran slot ((slotOf s.keys slot).h + 1024) else s.gran

/-- The commit edge of a long command whose verdict lets it program (R103, R134, R135, R87). The answer says why programming
stopped. -/
def commitLong (f : SealFrame) (slot : Nat) (mon : ProgMon) (s : State) : State × Option ProgStop :=
  let r := granaryCommit s.gran (raisedView s f slot) mon
  let s1 := { s with gran := r.1 }
  match r.2 with
  | none =>
    let s2 := onPort (fun p => { p with grayCommits := p.grayCommits + 1 }) s1
    (if isReserve f then onKeys (fun k => putSlot k slot { slotOf k slot with h := (slotOf k slot).h + 1024 }) s2 else s2,
      none)
  | some .unreadable => (raise causeGranary s1, some .unreadable)
  | some x => (s1, some x)

/-- KEY_PARTk's word in the key-load register (R104). -/
def putKeyPart (k : Nat) (w : Word) (x : BitVec 128) : BitVec 128 :=
  BitVec.ofNat 128 (setField x.toNat (96 - 32 * k) 32 w.toNat)

/-- The effect of a short sealed command (R104 to R106). -/
def commandEffect (code : Nat) (arg : Word) (slot : Nat) (ctr : Word) (s : State) : State :=
  let a := arg.toNat
  if 0x10 ≤ code && code ≤ 0x13 then
    onKeys (fun k => { k with
      loadKey := putKeyPart (code - 0x10) arg k.loadKey, parts := putBit k.parts (code - 0x10) true }) s
  else if code = 0x14 then
    let r := installSlot s.gran s.keys (a % 4) (unwrapKey s.keys slot ctr s.port.dieHi s.port.dieLo) (BitVec.ofNat 6 (field a 8 6))
    { s with gran := r.1, keys := r.2 }
  else if code = 0x15 then
    let r := retireSlot s.gran s.keys (a % 4)
    { s with gran := r.1, keys := r.2 }
  else if code = 0x16 then
    let r := decommission s.gran s.keys
    { s with gran := r.1, keys := r.2 }
  else s

/-- What the frame does at its commit edge beside its books. -/
def sealedEffect (f : SealFrame) (slot : Nat) (ctr : Word) (s : State) : State :=
  match f with
  | .write fb d => commitWord (fb.toNat % 1024) d .sealed s
  | .command code arg => commandEffect code.toNat arg slot ctr s

/-- KEY_INSTALL clears the key-load register whenever its verdict advances the counter (R104). -/
def clearLoad (f : SealFrame) (k : Seal) : Seal :=
  match f with
  | .command c _ => if c = 0x14 then { k with loadKey := 0, parts := 0 } else k
  | .write _ _ => k

/-- The alert of a frame that returns RESERVE_LOW or RESERVED (R112). -/
def raiseLow (code : Byte) (s : State) : State := if code = 0x07 || code = 0x08 then raise causeReserveLow s else s

/-- The books of a commit edge: status, counter, counts and the alert (R98, R112). -/
def sealedBooks (f : SealFrame) (v : Verdict) (code : Byte) (ctr : Word) (s : State) : State :=
  let s1 := match v.slot with
    | some n => onKeys (fun k => advanceCounter k n ctr) s
    | none => s
  raiseLow code (onPort (fun p => { p with
    lastCode := code, lastOp := sealedOp f
    grayOk := if code = 0x00 || code = 0x07 then p.grayOk + 1 else p.grayOk }) s1)

/-- Whether a sealed frame's effect is a GATE reset (R110). -/
def sealedResets : SealFrame → Bool
  | .write fb d => asksGateReset (fb.toNat % 1024) d
  | .command _ _ => false

/-- The status byte that a frame returns (R87, R97). -/
def sealedCode (v : Verdict) (stop : Option ProgStop) : Byte := if stop = some .clock then 0x0B else v.code

/-- The commit edge of a sealed frame. The counter advances first, and the effect comes last, so that KEY_DECOMMISSION clears
every counter (R106) and a GATE reset clears what it clears (R110). A write that clears the cause of its own RESERVE_LOW finds it set
again (R79, R112). A GATE reset that itself returns RESERVE_LOW leaves bit 8 clear: the model's choice (log 18). -/
def sealedCommit (f : SealFrame) (v : Verdict) (ctr : Word) (mon : ProgMon) (s : State) : State :=
  match v.effect, v.slot with
  | true, some n =>
    if isLongCommand f then
      let r := commitLong f n mon s
      sealedBooks f v (sealedCode v r.2) ctr r.1
    else
      let s1 := onKeys (clearLoad f) (sealedEffect f n ctr (endFrame (sealedBooks f v v.code ctr s)))
      if sealedResets f then s1 else raiseLow v.code s1
  | _, some _ => onKeys (clearLoad f) (sealedBooks f v v.code ctr s)
  | _, none => sealedBooks f v v.code ctr s

/-- A whole sealed frame: eight opcode clocks, the verdict, the commit edge (R63, R70). It contributes only its opcode clocks toward a
lockout, so the ignored clocks after its end do not count either (R99, log 18). -/
def sealedFrame (f : SealFrame) (ctr : Word) (tag : DWord) (mon : ProgMon) (extra : Nat) (s : State) : State :=
  let s1 := tick 8 (beginFrame s)
  let v := verdictOf f ctr tag s1
  let s2 := noteNv f mon 8448 (noteVerdict v s1)
  let code := if v.effect && isLongCommand f then sealedCode v (commitLong f (v.slot.getD 0) mon s2).2 else v.code
  endFrame (sealedCommit f v ctr mon (setLine (statusLine (sealedClocks f) code extra) s2))

def noMonitors : ProgMon := { clockTrip := none, nvLow := none, upsets := [], stageUpsets := [] }

/-- A sealed frame cut after `clocks` clocks: a bad tag counts from the verdict on, and a long command leaves its target as
far as programming came (R86, R98, R137, R140). -/
def sealedCut (f : SealFrame) (ctr : Word) (tag : DWord) (mon : ProgMon) (clocks : Nat) (s : State) : State :=
  let s1 := tick (min clocks 8) (beginFrame s)
  let line := fun (code : Byte) => cutLine clocks (statusLine (sealedClocks f) code 0)
  if clocks < 8 then markShort none (setLine (line 0) s1)
  else if clocks < 240 then markShort (some (sealedOp f)) (setLine (line 0) s1)
  else
    let v := verdictOf f ctr tag s1
    let s2 := noteNv f mon (clocks - 152) (noteVerdict v s1)
    markShort (some (sealedOp f)) (match v.effect && isLongCommand f, v.slot with
      | true, some n =>
        setLine (line (sealedCode v (commitLong f n mon s2).2))
          { s2 with gran := granaryCut s2.gran (raisedView s2 f n) mon (clocks - 152) }
      | _, _ => setLine (line v.code) s2)

/-! ## OPEN (R72, R113, R128 to R130) -/

def openFrame (finds : OpenFinds) (extra : Nat) (s : State) : State :=
  let s1 := tick openClocks (beginFrame s)
  let r := granaryOpen s1.gran finds
  let s2 := { s1 with gran := r.1, keys := loadSlots r.1 s1.keys }
  let s3 := onPort (fun p => { p with lastCode := 0x00, lastOp := opOpen, gsdo := statusLine openClocks 0 extra }) s2
  tick extra (endFrame (if r.2 then raise causeGranary s3 else s3))

/-! ## Undefined opcodes and short frames -/

/-- A frame with an undefined opcode is complete at clock 8, and GSDO stays at high impedance (R60). -/
def undefinedFrame (op : Byte) (extra : Nat) (s : State) : State :=
  if isFrameOp op then s
  else tick (8 + extra) (endFrame (onPort (fun p => { p with badOp := true, gsdo := [.highZ (8 + extra)] }) (beginFrame s)))

/-- Clocks of a whole frame. -/
def frameClocks : Frame → Nat
  | .read addr n => readClocks addr n
  | .write _ data => writeClocks (data.take 64).length
  | .sealedWrite _ _ _ _ => 248
  | .sealedCommand code arg _ _ _ => sealedClocks (.command code arg)
  | .openFrame _ => openClocks
  | .status => statusClocks
  | .ident => statusClocks
  | .undefinedOp _ => 8

/-- A STATUS or IDENT frame cut short. -/
def cutWord (word : State → Word) (clocks : Nat) (s : State) : State :=
  let s1 := tick (min clocks 12) (beginFrame s)
  markShort none (tick (clocks - 12) (setLine (cutLine clocks (wordLine (word s1) 0)) s1))

/-- Clocks 1 to `clocks` of a frame rise and GCS_N rises before the frame is complete (R86). -/
def cutFrame (f : Frame) (clocks : Nat) (s : State) : State :=
  if clocks = 0 || frameClocks f ≤ clocks then s
  else
    match f with
    | .read addr n =>
      let s1 := readBurst addr n clocks s
      markShort none (setLine (cutLine clocks (readLine (if clocks < 28 then [] else s1.port.snap) 0)) s1)
    | .write addr data =>
      let words := data.take ((clocks - 24) / 32)
      let s1 := tick clocks (commitBurst words addr.toNat (setLine (cutLine clocks (writeLine data.length 0)) (beginFrame s)))
      if burstResets words addr.toNat then endFrame s1 else markShort none s1
    | .sealedWrite fb d ctr tag => sealedCut (.write fb d) ctr tag noMonitors clocks s
    | .sealedCommand code arg ctr tag mon => sealedCut (.command code arg) ctr tag mon clocks s
    | .openFrame _ =>
      markShort (if clocks < 8 then none else some opOpen)
        (tick clocks (setLine (cutLine clocks (statusLine openClocks 0 0)) (beginFrame s)))
    | .status => cutWord statusWord clocks s
    | .ident => cutWord (fun _ => Config.ident) clocks s
    | .undefinedOp _ => markShort none (tick clocks (setLine [.highZ clocks] (beginFrame s)))

def shortFrameEffect (f : Frame) (clocks : Nat) : State → State := fromGate (cutFrame f clocks)

/-! ## The commands -/

def execRead (addr : BitVec 10) (n : BitVec 6) (extra : Nat) (s : State) : Host.Outcome State Fault Refusal :=
  fin s (fromGate (readFrame addr n extra) s)

def execWindowRead (n : BitVec 6) (extra : Nat) (s : State) : Host.Outcome State Fault Refusal :=
  fin s (fromGate (readFrame 0x189 n extra) s)

def execTallyLoRead (n : BitVec 3) (s : State) : Host.Outcome State Fault Refusal :=
  fin s (fromGate (latchHigh n.toNat (wtallyOf s n.toNat)) s)

def execWrite (addr : BitVec 10) (data : List Word) (extra : Nat) (s : State) : Host.Outcome State Fault Refusal :=
  fin s (fromGate (writeFrame addr data extra) s)

def execSealedWrite (field : BitVec 16) (data ctr : Word) (tag : DWord) (extra : Nat) (s : State) :
    Host.Outcome State Fault Refusal :=
  fin s (fromGate (sealedFrame (.write field data) ctr tag noMonitors extra) s)

/-- The lockout's remaining edges rise (R99). -/
def execLockoutEnd (s : State) : Host.Outcome State Fault Refusal := fin s (fromGate (tick s.keys.lockLeft.toNat) s)

def execUnknownCommand (code : BitVec 16) (arg ctr : Word) (tag : DWord) (extra : Nat) (s : State) :
    Host.Outcome State Fault Refusal :=
  fin s (fromGate (sealedFrame (.command code arg) ctr tag noMonitors extra) s)

def execCommit (arg ctr : Word) (tag : DWord) (mon : ProgMon) (extra : Nat) (s : State) : Host.Outcome State Fault Refusal :=
  fin s (fromGate (sealedFrame (.command 1 arg) ctr tag mon extra) s)

def execReserve (arg ctr : Word) (tag : DWord) (mon : ProgMon) (extra : Nat) (s : State) : Host.Outcome State Fault Refusal :=
  fin s (fromGate (sealedFrame (.command 2 arg) ctr tag mon extra) s)

def execKeyPart (k : BitVec 2) (arg ctr : Word) (tag : DWord) (extra : Nat) (s : State) : Host.Outcome State Fault Refusal :=
  fin s (fromGate (sealedFrame (.command (0x10 + k.setWidth 16) arg) ctr tag noMonitors extra) s)

def execKeyInstall (arg ctr : Word) (tag : DWord) (extra : Nat) (s : State) : Host.Outcome State Fault Refusal :=
  fin s (fromGate (sealedFrame (.command 0x14 arg) ctr tag noMonitors extra) s)

def execKeyRetire (arg ctr : Word) (tag : DWord) (extra : Nat) (s : State) : Host.Outcome State Fault Refusal :=
  fin s (fromGate (sealedFrame (.command 0x15 arg) ctr tag noMonitors extra) s)

def execKeyDecommission (arg ctr : Word) (tag : DWord) (extra : Nat) (s : State) : Host.Outcome State Fault Refusal :=
  fin s (fromGate (sealedFrame (.command 0x16 arg) ctr tag noMonitors extra) s)

def execFirstKeyInstall (s : State) : Host.Outcome State Fault Refusal := fin s (fromGate firstKey s)

def execOpenGranary (finds : OpenFinds) (extra : Nat) (s : State) : Host.Outcome State Fault Refusal :=
  fin s (fromGate (openFrame finds extra) s)

def execStatus (extra : Nat) (s : State) : Host.Outcome State Fault Refusal := fin s (fromGate (oneWordFrame statusWord extra) s)

def execIdent (extra : Nat) (s : State) : Host.Outcome State Fault Refusal :=
  fin s (fromGate (oneWordFrame (fun _ => Config.ident) extra) s)

def execUndefinedOpcode (op : BitVec 8) (extra : Nat) (s : State) : Host.Outcome State Fault Refusal :=
  fin s (fromGate (undefinedFrame op extra) s)

def execShortFrame (f : Frame) (clocks : Nat) (s : State) : Host.Outcome State Fault Refusal :=
  fin s (shortFrameEffect f clocks s)

def execStageDataWrite (data : Word) (via : Via) (s : State) : Host.Outcome State Fault Refusal :=
  fin s (fromGate (stageData data via) s)

def execStageWinWrite (k : BitVec 4) (data : Word) (via : Via) (s : State) : Host.Outcome State Fault Refusal :=
  fin s (fromGate (stageWin k.toNat data via) s)

def execGateReset (data : Word) (s : State) : Host.Outcome State Fault Refusal := fin s (fromGate (writeReset data) s)

def execWatchReset (data : Word) (s : State) : Host.Outcome State Fault Refusal := fin s (fromGate (writeReset data) s)

end Sys2Proof.Machine
end

