-- ==== Sys2Proof/Machine/PowerRows.lean ====
section
/-!
DEFINITION. The commands of power-on reset, resets, loom power, links and monitors (R43 to R46, R83 to R85,
R145 to R165, R360, R415, R490).
-/

namespace Sys2Proof.Machine

/-! ## Power-on reset (R46, R145, R157) -/

/-- POR holds: every volatile state is at its reset value. The MRAM, the die ID and the rails outside stay. -/
def porHold (s : State) : State :=
  { State.reset with
    pending := s.pending, free := s.free, clocks := s.clocks
    gran := { Granary.reset with
      bankA := s.gran.bankA, bankB := s.gran.bankB, upA := s.gran.upA, upB := s.gran.upB
      factory := s.gran.factory, upF := s.gran.upF }
    port := { GatePort.reset with dieLo := s.port.dieLo, dieHi := s.port.dieHi }
    mon := { Monitors.reset with por := true, rails := s.mon.rails, straps := s.mon.straps } }

/-- POR releases with the monitors and straps as they stand. -/
def porFree (rails : Rails) (straps : BitVec 3) (s : State) : State :=
  if s.mon.por then { s with mon := { s.mon with por := false, rails := rails, straps := straps } } else s

def execPor (s : State) : Host.Outcome State Fault Refusal := .next (porHold s)

def execPorRelease (rails : Rails) (straps : BitVec 3) (s : State) : Host.Outcome State Fault Refusal :=
  .next (porFree rails straps s)

/-! ## G_LOOM_REQ (R156, R158) -/

/-- The word of G_LOOM_REQ with its present TENANT and the given other fields. -/
def loomReqData (s : State) (target : BitVec 2) (cut : Bool) (reset : Bool) (treset : Option (BitVec 8)) : Word :=
  w32 (target.toNat + flagBit cut 2 + flagBit reset 3 + 2 ^ 8 * (treset.getD s.pwr.reqTenant).toNat + flagBit treset.isSome 16)

def execLoomTarget (target : BitVec 2) (cut : Bool) (s : State) : Host.Outcome State Fault Refusal :=
  fin s (fromGate (fun s => writeLoomReq (loomReqData s target cut false none) s) s)

def execLoomReset (s : State) : Host.Outcome State Fault Refusal :=
  fin s (fromGate (fun s => writeLoomReq (loomReqData s s.pwr.reqTarget s.pwr.reqCut true none) s) s)

def execGateTenantReset (t : BitVec 8) (s : State) : Host.Outcome State Fault Refusal :=
  fin s (fromGate (fun s => writeLoomReq (loomReqData s s.pwr.reqTarget s.pwr.reqCut false (some t)) s) s)

/-- The host's TENANT reset by either route (R343, R360); a LOOM reset absorbs it (R163). -/
def hostTreset (r : TenantResetReq) (s : State) : State :=
  if resetRuns s.pwr then s
  else
    match r with
    | .doorbell t v => if field v.toNat 0 16 = 0x5E7A then requestTenantReset t.toNat false s else s
    | .register v =>
      if field v.toNat 16 16 = 0x5E7A && bitOf v.toNat 8 then requestTenantReset (field v.toNat 0 8) false s else s

/-- The tenant whose window carries the request. -/
def tresetOwner : TenantResetReq → Option Nat
  | .doorbell t _ => some t.toNat
  | .register _ => none

def execHostTenantReset (r : TenantResetReq) (s : State) : Host.Outcome State Fault Refusal := 
  fin s (hostPosts (tresetOwner r) (hostTreset r) s)

/-! ## Links (R154) -/

def execLinkOnRequest (m : Fin 6) (s : State) : Host.Outcome State Fault Refusal :=
  fin s (fromGate (fun s => writeLinkReq ((putBit s.pwr.linkReq m.val true).setWidth 32) s) s)

def execLinkOff (m : Fin 6) (s : State) : Host.Outcome State Fault Refusal :=
  fin s (fromGate (fun s => writeLinkReq ((putBit s.pwr.linkReq m.val false).setWidth 32) s) s)

def execLinkPowerUp (m : Fin 6) (s : State) : Host.Outcome State Fault Refusal := fin s (powerModule m.val s)

def execLinkRailLoss (m : Fin 6) (rail : LinkRail) (s : State) : Host.Outcome State Fault Refusal :=
  fin s (railLost m.val (rail == .pll) s)

def execSupplyAbsent (a : Absence) (s : State) : Host.Outcome State Fault Refusal :=
  fin s (absentSupply a.link a.rails s)

/-! ## Tenant blocks and escalation control (R85, R415) -/

def execTenantBlock (n : BitVec 3) (data : Word) (s : State) : Host.Outcome State Fault Refusal :=
  fin s (fromGate (writeSealed (0x288 + n.toNat) data) s)

def execTenantAbort (n : BitVec 3) (data : Word) (s : State) : Host.Outcome State Fault Refusal :=
  fin s (fromGate (writeSealed (0x298 + n.toNat) data) s)

def execBlockSampled (t : BitVec 8) (s : State) : Host.Outcome State Fault Refusal := fin s (sampleBlock t.toNat s)

def execEscCtrlWrite (w : EscWrite) (s : State) : Host.Outcome State Fault Refusal :=
  fin s (fromGate (match w with
    | .ctrl d => writeSealed 0x210 d
    | .tenant d => writeSealed 0x211 d) s)

/-! ## The always-on clock, the memories and the comparator (R148, R165, R228, R490) -/

/-- AONCLK sets: the WATCH reset that held ends, and the hop grid starts (R442, R498). -/
def aonLock (s : State) : State :=
  if s.wc.aonclk then s else watchReset { s with wc := { s.wc with aonclk := true } }

/-- AONCLK clears and the watchman is held in WATCH reset; an escalation ends with it. -/
def aonLoss (s : State) : State :=
  if s.wc.aonclk then watchReset { s with wc := { s.wc with aonclk := false } } else s

def execAonclkLock (s : State) : Host.Outcome State Fault Refusal := fin s (aonLock s)
def execAonclkLoss (s : State) : Host.Outcome State Fault Refusal := fin s (aonLoss s)

def execWatchMemoryCleared (s : State) : Host.Outcome State Fault Refusal :=
  fin s (if s.wc.aonclk then onWc (fun w => { w with ready := true }) s else s)

def execThermAssert (s : State) : Host.Outcome State Fault Refusal :=
  fin s (raise causeTherm { s with mon := { s.mon with therm := true } })

def execThermRelease (s : State) : Host.Outcome State Fault Refusal :=
  fin s { s with mon := { s.mon with therm := false } }

/-! ## Losses, exits and moves -/

def execSupplyLost (what : LossKind) (s : State) : Host.Outcome State Fault Refusal := fin s (supplyLoss what s)
def execLsramRunLevel (s : State) : Host.Outcome State Fault Refusal := fin s (lsramRun s)
def execL3ExitStart (s : State) : Host.Outcome State Fault Refusal := fin s (startExit s)
def execExitPhaseEnd (r : PhaseResult) (s : State) : Host.Outcome State Fault Refusal := fin s (phaseEnd r s)
def execOrderingPoint (lcs : Nat) (s : State) : Host.Outcome State Fault Refusal := fin s (orderN lcs s)

def execHostPowerRequest (target : BitVec 2) (tenant : BitVec 8) (s : State) : Host.Outcome State Fault Refusal :=
  fin s (hostPosts (some tenant.toNat) (hostPower (moduleFor s tenant.toNat) target tenant) s)

def execLoomMoveDone (s : State) : Host.Outcome State Fault Refusal := fin s (moveDone s)
def execDrainEnd (s : State) : Host.Outcome State Fault Refusal := fin s (endDrain s)

end Sys2Proof.Machine
end

