-- ==== Sys2Proof/Machine/Hop.lean ====
section
/-!
DEFINITION. What a hop boundary does, and the commands of the front end (R171 to R196, R212 to R218, R498). The outside supplies the
decimators' results and the band powers (log 10).
-/

namespace Sys2Proof.Machine

/-! ## FE bits and frames (R148, R174, R183) -/

/-- A channel's merged ZERO-mute end is reached after its enable or after VDDA_MIC returned. -/
def settleFe (n : Nat) (s : State) : State :=
  let c := chanOf s.fe n
  if c.owesFe && feEnabled s.fe n && s.mon.rails.mic && !zMuted s n then
    onFe (modChan n (fun c => { c with feBit := true, owesFe := false })) s
  else s

/-- Whether a channel delivers frames (R191, R196). -/
def delivers (s : State) (n : Nat) : Bool := feEnabled s.fe n && s.mon.rails.mic

/-- The state of the frame that ends now (R174): muted at any time within it, or under a fault mute. That a mute which ends before its
first sample makes it ZERO is the model's choice (log 24). -/
def frameState (s : State) (n : Nat) : FrameState :=
  let c := chanOf s.fe n
  if c.zeroSeen || s.fe.biasOwes.getLsbD n || decide (s.clocks.wclk - Config.hopClocks < c.muteEnd) then .zero
  else if c.faultSeen || faultMuted s.fe n then .fault else .clean

/-- Samples of the HQ path in 1 ms (R172). -/
def hqCount (f : FrontEnd) : Nat := if !hqOn f then 0 else if bitOf f.decCtrl.toNat 1 then 48 else 16

/-- The clock at which sample `i` of the `len` of the frame that ends at clock `now` is formed: evenly spaced, the last at the boundary
(log 24). -/
def sampleClock (now len i : Nat) : Nat := now - Config.hopClocks + Config.hopClocks / len * (i + 1)

/-- The samples of the frame that ends at clock `now` after their trims, each with those in force when it was formed (R186, R187), at the
clock that the model gives it (log 24). -/
def trimFrame (f : FrontEnd) (now n : Nat) (raw : List Int) : List Int :=
  raw.mapIdx (fun i x => trimmed (trimsAt f (sampleClock now raw.length i)) n x)

/-- The front end with the effects that count from the commit edges of writes still on their way: mutes, and channels that stopped
(R183, R196). -/
def feView (s : State) : State :=
  s.wflight.foldl (fun s x =>
    if x.addr = 0x140 then writeFeCtrl x.data x.at_ s
    else if x.addr = 0x141 then writeMicbCtrl x.data x.at_ s
    else if x.addr = 0x143 then writeDecCtrl x.data x.at_ s else s) s

/-- Whether a sample that a path formed in the frame that ends now saturated (R172): while its channel ran, and for the HQ path while
HQ_EN was 1. -/
def clipsIn (s : State) (n : Nat) (h : ChannelHop) : Bool :=
  let v := feView s
  let now := s.clocks.wclk
  let on := ranAt (delivers v n) (chanOf v.fe n).edges
  let hit := fun (run : Nat → Bool) (raw : List Int) =>
    ((trimFrame s.fe now n raw).mapIdx (fun i x => run (sampleClock now raw.length i) && saturates x)).any id
  hit on h.lp
    || hit (fun c => on c && ranAt (hqOn v.fe) v.fe.hqEdges c) (h.hq.take (if hqOn v.fe then hqCount v.fe else 48))

def frameSamples (st : FrameState) (xs : List Int) : List (BitVec 16) := xs.map (fun x => if st = .zero then 0 else sampleOf x)

/-- A channel's frame closes. -/
def closeFrame (n : Nat) (h : ChannelHop) (s : State) : State :=
  let v := feView s
  let clip := clipsIn s n h
  if !delivers v n then
    onFe (modChan n (fun c => { c with cleanRun := 0, zeroSeen := false, faultSeen := false, frameLp := [], frameHq := []
                                       lastState := .blank, ovl := c.ovl || clip })) s
  else
    let st := frameState v n
    let xs := trimFrame s.fe s.clocks.wclk n h.lp
    let ys := trimFrame s.fe s.clocks.wclk n (h.hq.take (hqCount v.fe))
    let lp := frameSamples st xs
    let hqs := frameSamples st ys
    watchTally 0x0D (if st = .clean then 0 else 1)
      (onFe (fun f => modChan n (fun c => { c with
        lastState := st, cleanRun := if st = .clean then min (c.cleanRun + 1) 8 else 0
        ovl := c.ovl || clip, zeroSeen := false, faultSeen := false
        capLp := lp.getLastD 0, capHq := hqs.getLastD 0, capMuted := st != .clean, frameLp := lp, frameHq := hqs }) f) s)

/-! ## Levels, encoders and baselines (R175 to R179, R212 to R215) -/

/-- The level code of band `k`, where valid (R176). -/
def bandCode (s : State) (n k : Nat) (h : ChannelHop) : Option Nat :=
  let f := s.fe
  if delivers (feView s) n && decide (8 ≤ (chanOf f n).cleanRun) then
    (h.bands[k]?).map (fun p => levelCode p.1 p.2 (bandTrim f.trims n k - 48 * effGain f.feCtrl n))
  else none

/-- The 72 level codes of a hop. -/
def hopLevels (s : State) (h : HopInput) : List (Option Nat) :=
  (span 0 32).map (fun k => bandCode s 0 k h.ch0) ++ (span 0 32).map (fun k => bandCode s 1 k h.ch1)
    ++ featureCodes s.fe h.axes

/-- Bits of G_FB_CTRL whose change rebases the encoders (R178). -/
def fbRebaseMask : Word := 0x00037FF0

/-- Bits of G_FB_CTRL that govern the feature encoders too: MAXPH (log 24). -/
def fbSensorMask : Word := 0x00030000

/-- G_FB_CTRL takes effect (R190). -/
def applyFb (s : State) : State :=
  let new := s.fe.fbCtrl
  let old := s.fe.fbNow
  let rebase := ((new ^^^ old) &&& fbRebaseMask) ≠ 0
  let go := fun (n : Nat) (f : FrontEnd) => if rebase || (bitOf new.toNat n && !bitOf old.toNat n) then disarmEncoders (32 * n) 32 f else f
  onFe (fun f =>
    let f1 := go 1 (go 0 { f with fbNow := new })
    if ((new ^^^ old) &&& fbSensorMask) ≠ 0 then disarmEncoders 64 8 f1 else f1) s

/-- Whether encoder `i` is enabled (R197). -/
def encOn (f : FrontEnd) (i : Nat) : Bool :=
  if i < 32 then bitOf f.fbNow.toNat 0 else if i < 64 then bitOf f.fbNow.toNat 1
  else bitOf f.sensNow0.toNat 16 && bitOf f.sensNow0.toNat 0

/-- STEP, ON_THRESH and DOWN_EN of encoder `i`; MAXPH is G_FB_CTRL's for all. -/
def encStep (f : FrontEnd) (i : Nat) : Nat := max (if i < 64 then field f.fbNow.toNat 4 5 else field f.sensNow2.toNat 0 5) 1
def encOnThresh (f : FrontEnd) (i : Nat) : Nat := if i < 64 then field f.fbNow.toNat 9 6 else field f.sensNow2.toNat 5 6
def encDown (f : FrontEnd) (i : Nat) : Bool := if i < 64 then bitOf f.fbNow.toNat 15 else bitOf f.sensNow2.toNat 11
def encMaxph (f : FrontEnd) : Nat := field f.fbNow.toNat 16 2 + 1

/-- UP and DOWN input lines of encoder `i` (R179). -/
def upLine (i : Nat) : Nat := if i < 32 then i else if i < 64 then i + 32 else i + 64
def downLine (i : Nat) : Nat := if i < 32 then i + 32 else if i < 64 then i + 64 else i + 72

/-- Whether encoder `i`'s channel is under a fault mute. -/
def encFaulted (f : FrontEnd) (i : Nat) : Bool := decide (i < 64) && faultMuted f (i / 32)

/-- Whether the seeds are in use: from the hop that ends at h0 (R220). -/
def seedsUsed (s : State) : Bool :=
  match s.wc.h0 with
  | some h => decide (h ≤ s.clocks.wclk)
  | none => true

/-- Encoder `i` and its baseline at a hop: the new state, and the lines of the spikes it emits. -/
def bandHop (i : Nat) (level : Option Nat) (s : State) : State × List Nat :=
  let f := s.fe
  let used := seedsUsed s
  let v0 := if used then baseOf s.wc i else sget .init s.wc.preSeed i
  let c := level.getD 0
  let v1 := if level.isSome && used then sustainHop s.wc.baseNow.toNat v0 c else v0
  let r := if encOn f i then
      encoderHop (encOf f i) (level.isSome && !encFaulted f i) c (baseCode v0) (encOnThresh f i) (encStep f i) (encMaxph f)
        (encDown f i) (decide (0 < v1.offLeft))
    else ({ encOf f i with armed := false }, 0, 0)
  let adapt := level.isSome && used && s.wc.arm && !s.wc.replay
  let v2 := if adapt then { v1 with b := adaptBaseline (s.wc.baseNow.toNat % 8) v0.b c } else v1
  let rise := v1.sust && !v0.sust && used
  let s1 := onFe (putEnc i r.1) s
  let s2 := if used then onWc (fun w => { w with
      base := sput .init w.base i v2, sustSeen := if rise then putBit w.sustSeen i true else w.sustSeen }) s1
    else s1
  let s3 := if rise then watchTally 0x06 1 (onBell (fun b => { b with causeSust := true }) s2) else s2
  (s3, List.replicate r.2.1 (upLine i) ++ List.replicate r.2.2 (downLine i))

/-- Every encoder in turn. -/
def bandsHop : List (Option Nat) → Nat → State → State × List Nat
  | [], _, s => (s, [])
  | l :: ls, i, s =>
    let r := bandHop i l s
    let q := bandsHop ls (i + 1) r.1
    (q.1, r.2 ++ q.2)

/-- Insertion in rising order, repeats kept. -/
def insSorted (x : Nat) : List Nat → List Nat
  | [] => [x]
  | y :: ys => if x ≤ y then x :: y :: ys else y :: insSorted x ys

/-- The hop's spikes wait for their step, in ascending line order; disarmed or in replay they are discarded (R206, R208). -/
def bufferSpikes (lines : List Nat) (s : State) : State :=
  if s.wc.arm && !s.wc.replay && seedsUsed s then
    onWc (fun w => { w with inputs := w.inputs ++ [lines.foldl (fun a x => insSorted x a) []] }) s
  else s

/-! ## Loft (R216, R217) -/

def loftChannel (l : Loft) : Nat := if l.ch then 1 else 0

/-- The loft records the frame that ends now. -/
def recordFrame (s : State) : State :=
  let c := chanOf s.fe (loftChannel s.loft)
  let whole := c.feBit && !c.feBroken
  let fr : LoftFrame :=
    { samples := if whole then (if loftHq s.fe then c.frameHq else c.frameLp) else []
      st := if whole then c.lastState else .blank, hop := s.clocks.wclk, hq := loftHq s.fe }
  onLoft (fun l => { l with
    frames := (fr :: l.frames).take (2 * Config.loftHalf), feRun := if whole then min (l.feRun + 1) Config.loftHalf else 0 }) s

/-- A new frame of each channel begins with its FE bit as it stands and the present trims. -/
def startFrames (s : State) : State :=
  onFe (fun f => [0, 1].foldl (fun f n => modChan n (fun c => { c with feBroken := !c.feBit, edges := [] }) f)
    { f with oldTrims := [], hqEdges := [] }) s

/-- A manual freeze that has reached its boundary (R217). -/
def manualFreeze (s : State) : State :=
  match s.loft.request with
  | none => s
  | some t =>
    if s.clocks.wclk < t then s
    else
      manualPoint (onLoft (fun l => { l with request := none }) s)

/-! ## The hop -/

/-- The grid moves on, over every watchman clock to the boundary (R442, R498). -/
def tickGrid (s : State) : State :=
  onFe (fun f => { f with hopNext := f.hopNext + Config.hopClocks, hopCount := f.hopCount + 1 })
    (sampleGray (s.fe.hopNext - s.clocks.wclk) s)

/-- At every 16th boundary the trims are read, for the samples that follow (R187). -/
def hopTrims (s : State) : State := if s.fe.hopCount % 16 = 0 then readTrims s else s

def hopEffect (h : HopInput) (s : State) : State :=
  if !s.wc.aonclk || !s.fe.gridOn then s
  else
    let s1 := closeFrame 1 h.ch1 (closeFrame 0 h.ch0 (settleFe 1 (settleFe 0 (applyFb (tickGrid s)))))
    let r := bandsHop (hopLevels s1 h) 0 s1
    hopTrims (manualFreeze (settleFreeze (startFrames (recordFrame (bufferSpikes r.2 r.1)))))

def execHopBoundary (h : HopInput) (s : State) : Host.Outcome State Fault Refusal := fin s (hopEffect h s)

/-! ## Channels (R170, R182, R183, R196) -/

/-- A register of the watchman written with a new value. -/
def frontWrite (a : Nat) (d : Word) : State → State := watchmanCommand a d

def withBit (w : Word) (i : Nat) (b : Bool) : Word := putBit w i b
def withField (w : Word) (lo len x : Nat) : Word := w32 (setField w.toNat lo len x)

def execChannelEnable (ch : BitVec 1) (s : State) : Host.Outcome State Fault Refusal :=
  fin s (frontWrite 0x140 (withBit s.fe.feCtrl ch.toNat true) s)

def execChannelDisable (ch : BitVec 1) (s : State) : Host.Outcome State Fault Refusal :=
  fin s (frontWrite 0x140 (withBit s.fe.feCtrl ch.toNat false) s)

def execGainChange (ch : BitVec 1) (gain : BitVec 3) (s : State) : Host.Outcome State Fault Refusal :=
  fin s (frontWrite 0x140 (withField s.fe.feCtrl (4 + 4 * ch.toNat) 3 gain.toNat) s)

def execBiasedSet (ch : BitVec 1) (s : State) : Host.Outcome State Fault Refusal :=
  fin s (frontWrite 0x140 (withBit s.fe.feCtrl (2 + ch.toNat) true) s)

def execZeroMuteEnd (ch : BitVec 1) (s : State) : Host.Outcome State Fault Refusal := fin s (settleFe ch.toNat s)

/-! ## Bias (R180 to R182, R189) -/

def execBiasEnable (s : State) : Host.Outcome State Fault Refusal :=
  fin s (frontWrite 0x141 (withBit s.fe.micbCtrl 0 true) s)

def execBiasDisable (s : State) : Host.Outcome State Fault Refusal :=
  fin s (frontWrite 0x141 (withBit s.fe.micbCtrl 0 false) s)

def execBiasVoltChange (volt : BitVec 2) (s : State) : Host.Outcome State Fault Refusal :=
  fin s (frontWrite 0x141 (withField s.fe.micbCtrl 1 2 volt.toNat) s)

def execBiasRangeChange (range : BitVec 2) (s : State) : Host.Outcome State Fault Refusal :=
  fin s (frontWrite 0x141 (withField s.fe.micbCtrl 3 2 range.toNat) s)

def execHqPathChange (on : Bool) (s : State) : Host.Outcome State Fault Refusal :=
  fin s (frontWrite 0x143 (withBit s.fe.decCtrl 0 on) s)

/-- The generator reaches its goal. -/
def rampDone (s : State) : State :=
  if s.fe.ramping && decide (rampEndAt s.fe ≤ s.clocks.wclk) then
    onFe (fun f => { f with ramping := false, rampFrom := f.rampGoal, rampStart := s.clocks.wclk }) s
  else s

def execRampEnd (s : State) : Host.Outcome State Fault Refusal := fin s (rampDone s)

/-- HDRM is judged only while the bias is enabled. -/
def hdrmEffect (on : Bool) (s : State) : State := if s.wc.aonclk && biasOn s.fe then setBiasConditions on s.fe.limit s else s

def execHdrmChange (on : Bool) (s : State) : Host.Outcome State Fault Refusal := fin s (hdrmEffect on s)

/-- LIMIT is judged while the bias is enabled and the generator has stood for 1 ms (R181). Unjudged, it keeps its value and its timer runs:
the model's choice (log 24). -/
def limitEffect (on : Bool) (s : State) : State :=
  if s.wc.aonclk && biasOn s.fe && !s.fe.ramping && decide (s.fe.rampStart + msClocks 1 ≤ s.clocks.wclk) then
    setBiasConditions s.fe.hdrm on s
  else s

def execLimitChange (on : Bool) (s : State) : Host.Outcome State Fault Refusal := fin s (limitEffect on s)

/-- HDRM has stood for 2 ms, or LIMIT has (R182, R189). -/
def stoodTwoMs (s : State) : Bool :=
  [s.fe.hdrmSince, s.fe.limitSince].any (fun o => match o with
    | some t => decide (t + msClocks 2 ≤ s.clocks.wclk)
    | none => false)

def biasFault (s : State) : State :=
  if !stoodTwoMs s then s
  else
    raise causeMicb (onFe (fun f =>
      (mutedChannels f).foldl (fun f n => modChan n (fun c => { c with faultSeen := true }) f)
        (disarmEncoders 0 (if (mutedChannels f).contains 0 then 32 else 0)
          (disarmEncoders 32 (if (mutedChannels f).contains 1 then 32 else 0) { f with fault := true }))) s)

def execMicbFault (s : State) : Host.Outcome State Fault Refusal := fin s (biasFault s)

/-- Both conditions have been clear for 4 ms. -/
def faultMuteEnd (s : State) : State :=
  match s.fe.goodSince with
  | none => s
  | some t =>
    if s.clocks.wclk < t + msClocks 4 || !s.fe.fault then s
    else onFe (fun f => (mutedChannels f).foldl (fun f n => modChan n (fun c => { c with faultSeen := true }) f) { f with fault := false }) s

def execFaultMuteEnd (s : State) : Host.Outcome State Fault Refusal := fin s (faultMuteEnd s)

/-- VDDA_MIC (R191). -/
def micRail (on : Bool) (s : State) : State := { s with mon := { s.mon with rails := { s.mon.rails with mic := on } } }

def execVddaMicLoss (s : State) : Host.Outcome State Fault Refusal :=
  fin s (if s.mon.rails.mic then micLost (micRail false s) else s)

def execVddaMicReturn (s : State) : Host.Outcome State Fault Refusal :=
  fin s (if s.mon.rails.mic then s else if s.wc.aonclk then micBack (micRail true s) else micRail true s)

/-! ## Encoders, sensor port and trims -/

def execEncoderEnable (ch : BitVec 1) (s : State) : Host.Outcome State Fault Refusal :=
  fin s (frontWrite 0x144 (withBit s.fe.fbCtrl ch.toNat true) s)

def execEncoderSettings (data : Word) (s : State) : Host.Outcome State Fault Refusal := fin s (frontWrite 0x144 data s)

def execSensorPortEnable (s : State) : Host.Outcome State Fault Refusal :=
  fin s (frontWrite 0x148 (withBit s.fe.sens0 0 true) s)

def execSensorPortDisable (s : State) : Host.Outcome State Fault Refusal :=
  fin s (frontWrite 0x148 (withBit s.fe.sens0 0 false) s)

def execSensorSettings (w : SensorWrite) (s : State) : Host.Outcome State Fault Refusal :=
  fin s (match w with
    | .ctrl0 d => frontWrite 0x148 d s
    | .ctrl1 d => frontWrite 0x149 d s
    | .ctrl2 d => frontWrite 0x14A d s)

/-- A sample tick: the settings take effect and a transaction starts (R184, R190). Under a test instruction the port idles (R57). -/
def sampleTickEffect (s : State) : State :=
  if !s.wc.aonclk || !bitOf s.fe.sens0.toNat 0 || s.clocks.wclk < s.fe.nextTick then s
  else
    let s1 := applySensor s
    onFe (fun f => { f with
      nextTick := f.nextTick + tickClocks f.sensNow0, sensBusy := f.sensBusy || !pinsTested s
      sensStart := if f.sensBusy then f.sensStart else s.clocks.wclk
      sensTxn := if f.sensBusy then f.sensTxn else (f.sensNow0, f.sensNow1) }) s1

def execSampleTick (s : State) : Host.Outcome State Fault Refusal := fin s (sampleTickEffect s)

/-- A transaction completes with its data bytes once its periods have passed; a disabled port then idles (R185, R190, R194). -/
def transactionEnd (bytes : List Byte) (s : State) : State :=
  if !s.fe.sensBusy || pinsTested s || s.clocks.wclk < s.fe.sensStart + txnClocks s.fe.sensTxn.1 then s
  else
    onFe (fun f =>
      let bs := slice bytes 0 (sensBytes f.sensTxn.1)
      let f1 := { takeSamples (stuckStep f bs) bs with sensBusy := false }
      if bitOf f.sens0.toNat 0 then { f1 with sensReady := true } else idleSensor f1) s

def execSensorTransactionEnd (bytes : List Byte) (s : State) : Host.Outcome State Fault Refusal :=
  fin s (transactionEnd bytes s)

def execTrimRead (s : State) : Host.Outcome State Fault Refusal := fin s (if s.wc.aonclk then readTrims s else s)

end Sys2Proof.Machine
end

