-- ==== Sys2Proof/Machine/Tap.lean ====
section
/-!
DEFINITION. The TAP: the IEEE 1149.1 controller, instruction and boundary scans, and the pins under test (R55 to R57, log 38).
-/

namespace Sys2Proof.Machine

/-! ## The controller -/

/-- The controller's next state at a rising edge of TCK, by TMS. -/
def tapNext (t : TapState) (tms : Bool) : TapState :=
  match t with
  | .testLogicReset => if tms then .testLogicReset else .runTestIdle
  | .runTestIdle => if tms then .selectDr else .runTestIdle
  | .selectDr => if tms then .selectIr else .captureDr
  | .captureDr => if tms then .exit1Dr else .shiftDr
  | .shiftDr => if tms then .exit1Dr else .shiftDr
  | .exit1Dr => if tms then .updateDr else .pauseDr
  | .pauseDr => if tms then .exit2Dr else .pauseDr
  | .exit2Dr => if tms then .updateDr else .shiftDr
  | .updateDr => if tms then .selectDr else .runTestIdle
  | .selectIr => if tms then .testLogicReset else .captureIr
  | .captureIr => if tms then .exit1Ir else .shiftIr
  | .shiftIr => if tms then .exit1Ir else .shiftIr
  | .exit1Ir => if tms then .updateIr else .pauseIr
  | .pauseIr => if tms then .exit2Ir else .pauseIr
  | .exit2Ir => if tms then .updateIr else .shiftIr
  | .updateIr => if tms then .selectDr else .runTestIdle

/-- The instruction an opcode selects; one that names none selects BYPASS (R55). -/
def jtagInstr (op : BitVec 4) : JtagInstr :=
  if op = 0 then .extest
  else if op = 1 then .samplePreload
  else if op = 2 then .clamp
  else if op = 3 then .highz
  else .bypass

/-- Whether an instruction puts the boundary register between TDI and TDO; the others put the bypass bit there. -/
def scansBoundary : JtagInstr → Bool
  | .extest => true
  | .samplePreload => true
  | _ => false

/-- A register of `n` cells shifts by one, cell 0 toward TDO. -/
def shiftIn {n : Nat} (v : BitVec n) (tdi : Bool) : BitVec n := putBit (v >>> 1) (n - 1) tdi

/-- One rising edge of TCK; `cells` is what a capture of the boundary register finds. -/
def tapEdge (cells : BitVec 19) (tms tdi : Bool) (j : Jtag) : Jtag :=
  let b := scansBoundary j.instr
  let j1 := match j.tap with
    | .testLogicReset => { j with instr := .bypass }
    | .captureIr => { j with ir := 1 }
    | .shiftIr => { j with ir := shiftIn j.ir tdi, tdo := j.tdo ++ [j.ir.getLsbD 0] }
    | .updateIr => { j with instr := jtagInstr j.ir }
    | .captureDr => if b then { j with boundary := cells } else { j with skip := false }
    | .shiftDr =>
      if b then { j with boundary := shiftIn j.boundary tdi, tdo := j.tdo ++ [j.boundary.getLsbD 0] }
      else { j with skip := tdi, tdo := j.tdo ++ [j.skip] }
    | .updateDr => if b then { j with update := j.boundary } else j
    | _ => j
  { j1 with tap := tapNext j.tap tms }

/-- Edges with their TMS and TDI. -/
def tapEdges (cells : BitVec 19) : List (Bool × Bool) → Jtag → Jtag
  | [], j => j
  | e :: es, j => tapEdges cells es (tapEdge cells e.1 e.2 j)

/-- The bits of a scan, the last with TMS 1. -/
def scanBits : List Bool → List (Bool × Bool)
  | [] => []
  | [b] => [(true, b)]
  | b :: bs => (false, b) :: scanBits bs

/-- From Test-Logic-Reset or Run-Test/Idle through Shift-IR and Update-IR to Run-Test/Idle. -/
def irScan (op : BitVec 4) : List (Bool × Bool) :=
  [(false, true), (true, true), (true, true), (false, true), (false, true)]
    ++ scanBits [op.getLsbD 0, op.getLsbD 1, op.getLsbD 2, op.getLsbD 3] ++ [(true, true), (false, true)]

/-- From Run-Test/Idle through Capture-DR, Shift-DR and Update-DR back to it. -/
def drScan (bits : List Bool) : List (Bool × Bool) :=
  [(true, true), (false, true)] ++ (if bits.isEmpty then [(true, true)] else (false, true) :: scanBits bits)
    ++ [(true, true), (false, true)]

/-! ## The pins (R30, R56, R57) -/

/-- What a bump that the device may drive carries. -/
inductive PinDrive where
  | low
  | high
  | released
deriving DecidableEq, Repr

/-- An open-drain output: under EXTEST and CLAMP it follows its update cell, 0 low and 1 released; under HIGHZ it is released. -/
def openDrain (s : State) (cell : Nat) (asserted : Bool) : PinDrive :=
  match s.jtag.instr with
  | .extest => if s.jtag.update.getLsbD cell then .released else .low
  | .clamp => if s.jtag.update.getLsbD cell then .released else .low
  | .highz => .released
  | _ => if asserted then .low else .released

def galertPin (s : State) : PinDrive := openDrain s 8 (galertLow s)
def bellPin (s : State) : PinDrive := openDrain s 10 s.bell.bellN
def thermPin (s : State) : PinDrive := openDrain s 12 s.mon.therm

/-- An output with its level between gate frames; `enable` is its enable cell where it has one. -/
def outputPin (s : State) (cell : Nat) (enable : Option Nat) (own : PinDrive) : PinDrive :=
  let tested := if (match enable with | some e => s.jtag.update.getLsbD e | none => true) then
      (if s.jtag.update.getLsbD cell then .high else .low)
    else .released
  if s.mon.por then .released
  else match s.jtag.instr with
  | .extest => tested
  | .clamp => tested
  | .highz => .released
  | _ => own

/-! The sensor port (R30, R184). A transaction stands `sensPhase` clocks after its start; SSCK falls half a period after it rises
(log 24). -/

def sensPhase (s : State) : Nat := s.clocks.wclk - s.fe.sensStart

/-- SSCK rises one period after SSCS_N has fallen and then once for each bit; it is low when idle. -/
def ssckOwn (s : State) : PinDrive :=
  let t := ssckClocks s.fe.sensTxn.1
  let p := sensPhase s
  if s.fe.sensBusy && decide (t ≤ p) && decide (p < (txnBits s.fe.sensTxn.1 + 1) * t) && decide (p % t < t / 2) then .high else .low

/-- SSCS_N is low from the start to one period after the last rise of SSCK. -/
def sscsOwn (s : State) : PinDrive :=
  if s.fe.sensBusy && decide (sensPhase s < (txnBits s.fe.sensTxn.1 + 1) * ssckClocks s.fe.sensTxn.1) then .low else .high

/-- SSDIO carries the command bits, most significant first, each until the falling edge after its rise; then it is released. -/
def ssdioOwn (s : State) : PinDrive :=
  let t := ssckClocks s.fe.sensTxn.1
  let i := (sensPhase s - t / 2) / t
  let n := cmdBits s.fe.sensTxn.1
  if !s.fe.sensBusy || decide (n ≤ i) then .released
  else if bitOf s.fe.sensTxn.2.toNat (n - 1 - i) then .high else .low

/-- GSDO while GCS_N is high (R75), and the sensor port. -/
def gsdoPin (s : State) : PinDrive := outputPin s 6 (some 7) .released
def ssckPin (s : State) : PinDrive := outputPin s 14 none (ssckOwn s)
def sscsPin (s : State) : PinDrive := outputPin s 15 none (sscsOwn s)
def ssdioPin (s : State) : PinDrive := outputPin s 16 (some 17) (ssdioOwn s)

/-- What Capture-DR loads (R56): input cells take their bumps, output cells what the device would drive there outside the test.
`bumps` also gives the cells of a disabled output. -/
def capturedCells (bumps : BitVec 19) (s : State) : BitVec 19 :=
  let v := putBit (putBit (putBit (putBit bumps 7 false) 8 (!galertLow s)) 10 (!s.bell.bellN)) 12 (!s.mon.therm)
  let d := ssdioOwn s
  let w := putBit (putBit (putBit v 14 (ssckOwn s == .high)) 15 (sscsOwn s == .high)) 17 (d != .released)
  if d = .released then w else putBit w 16 (d == .high)

/-! ## Commands -/

/-- A gate frame in progress ends as short when the pins are taken away, and the sensor port goes idle (R57). -/
def loseFrame (inFrame : Option (Frame × Nat)) (s : State) : State :=
  let s1 := match inFrame with
    | some (f, n) => shortFrameEffect f n s
    | none => s
  idlePort s1

/-- The bits that a boundary scan shifts in, cell 0 first. -/
def cellBits (v : BitVec 19) : List Bool := (span 0 19).map v.getLsbD

def onTap (cells : BitVec 19) (edges : List (Bool × Bool)) (s : State) : State := { s with jtag := tapEdges cells edges s.jtag }

/-- An instruction scan; what an earlier command left at TDO is gone. -/
def loadInstr (op : BitVec 4) (s : State) : State :=
  onTap 0 (irScan op) { s with jtag := { s.jtag with tdo := [] } }

/-- A scan of the boundary register with the bumps as they stand. -/
def boundaryScan (bumps shifted : BitVec 19) (s : State) : State :=
  onTap (capturedCells bumps s) (drScan (cellBits shifted)) s

/-- An opcode is scanned in; where it takes the pins away, the frame in progress ends. -/
def selectInstr (op : BitVec 4) (inFrame : Option (Frame × Nat)) (s : State) : State :=
  loadInstr op (match jtagInstr op with
    | .samplePreload => s
    | .bypass => s
    | _ => loseFrame inFrame s)

/-- EXTEST, then its boundary scans: the bumps at each capture and the cells shifted in. -/
def execExtest (x : BoundaryTest) (s : State) : Host.Outcome State Fault Refusal :=
  fin s (x.scans.foldl (fun s c => boundaryScan c.1 c.2 s) (selectInstr 0 x.inFrame s))

/-- SAMPLE/PRELOAD: one scan captures the bumps and leaves the preload in the update latches. -/
def execSamplePreload (bumps preload : BitVec 19) (s : State) : Host.Outcome State Fault Refusal :=
  fin s (boundaryScan bumps preload (selectInstr 1 none s))

def execClamp (inFrame : Option (Frame × Nat)) (s : State) : Host.Outcome State Fault Refusal :=
  fin s (selectInstr 2 inFrame s)

def execHighz (inFrame : Option (Frame × Nat)) (s : State) : Host.Outcome State Fault Refusal :=
  fin s (selectInstr 3 inFrame s)

/-- 0b1111, or any opcode that names no other instruction, selects BYPASS; `tdi` then passes through the bypass bit. -/
def execBypass (x : BypassScan) (s : State) : Host.Outcome State Fault Refusal :=
  fin s (if jtagInstr x.op = .bypass then onTap 0 (drScan x.tdi) (selectInstr x.op none s) else s)

/-- TRST_N low: Test-Logic-Reset, which selects BYPASS. -/
def execTestLogicReset (s : State) : Host.Outcome State Fault Refusal :=
  fin s { s with jtag := { s.jtag with tap := .testLogicReset, instr := .bypass, tdo := [] } }

end Sys2Proof.Machine
end

