-- ==== Sys2Proof/Machine/Mxu.lean ====
section
/-!
DEFINITION. The multiplier array (R287 to R293).
-/

namespace Sys2Proof.Machine

/-! ## Formats of operands -/

def isG (c : Nat) : Bool := c == 2 || c == 5
def is4 (c : Nat) : Bool := decide (c < 3)
def is8i (c : Nat) : Bool := c == 3 || c == 4 || c == 5
def isF8 (c : Nat) : Bool := c == 8 || c == 9
def isF16 (c : Nat) : Bool := c == 10 || c == 11

/-- An integer code's value; an escape code counts as 0 (R273, R290). -/
def codeInt (fmt v : Nat) : Int :=
  if fmt = 0 then signed 4 v
  else if fmt = 1 then v
  else if fmt = 2 then (if v = 8 then 0 else signed 4 v)
  else if fmt = 3 then signed 8 v
  else if fmt = 4 then v
  else if v = 0x80 then 0 else signed 8 v

/-- An element's exact value, for a float or an integer code. -/
def codeVal (fmt v : Nat) : Xv :=
  match fmtOf fmt with
  | some f => floatVal f v
  | none => ofInt (codeInt fmt v)

/-- Weight of input `k` and output `o` in the active buffer (R288). -/
def weightBits (t : Tile) (fmt k o : Nat) : Nat :=
  if is4 fmt then field (mget t.weights (16 * k + o / 2)).toNat (4 * (o % 2)) 4
  else if isF16 fmt then mle t.weights (64 * k + 2 * o) 2
  else (mget t.weights (32 * k + o)).toNat

/-- Activation `k` of the operand row (R288). -/
def actBits (row : List Byte) (fmt : Nat) (ah : Nat) (k : Nat) : Nat :=
  if is4 fmt then field (leAt row (32 * ah + k / 2) 1) (4 * (k % 2)) 4
  else if isF16 fmt then leAt row (2 * k) 2
  else leAt row (32 * ah + k) 1

/-- Record `r` of a side row with `ns` entries a record (R284). -/
def sideRecord (row : List Byte) (ns r : Nat) : List Byte := slice row (4 + r * (4 + 4 * ns)) (4 + 4 * ns)

/-- Entries of a record that the array of a tile assumes (log 13). -/
def mxuEntries (t : Nat) : Nat := 2 * ((Config.mxuSideEntries t).toNat % 3)

def sideRow (x : Tile) : List Byte := mread x.sideReg 0 64

/-- Scale of the activation record `r`. -/
def actScale (t : Nat) (x : Tile) (fmt r : Nat) : Xv :=
  if isG fmt then e5m3Val (leAt (sideRecord (sideRow x) (mxuEntries t) r) 0 1) else ofInt 1

/-- Scale of output `o` for 32-input block `b`. -/
def weightScale (x : Tile) (fmt o b : Nat) : Xv :=
  if isG fmt then e5m3Val (mget x.wscale (2 * o + b)).toNat else ofInt 1

/-! ## MAC (R289, R290, R292) -/

/-- How a MAC treats its pair of formats. -/
inductive PairKind where
  | int (n : Nat)
  | scaled
  | float
  | presub
  | none
deriving DecidableEq, Repr

/-- Whether the activation's zero point is subtracted first. -/
def presubs (m : MacField) : Bool := m.zpm == 2 && (m.afmt == 1 || m.afmt == 4)

def pairKind (m : MacField) : PairKind :=
  let w := m.wfmt.toNat
  let a := m.afmt.toNat
  if a = 1 && m.zpm == 2 && is4 w then .presub
  else if isG w || isG a then
    (if (is4 w && is4 a) || (is8i w && is8i a) then .scaled else .none)
  else if is4 w && is4 a then (if m.zpm = 2 then .none else .int 64)
  else if is8i w && is8i a then .int 32
  else if (isF8 w && isF8 a) || (isF16 w && isF16 a) then .float
  else .none

/-- Activation value of a MAC as an integer, the zero point subtracted where the array does so. -/
def actInt (m : MacField) (row : List Byte) (k : Nat) : Int :=
  let v := codeInt m.afmt.toNat (actBits row m.afmt.toNat (if m.ah then 1 else 0) k)
  if presubs m then v - (if m.afmt = 1 then field m.zp.toNat 0 4 else m.zp.toNat) else v

/-- Exact integer sum of a run of inputs. -/
def intSum (m : MacField) (x : Tile) (row : List Byte) (o k0 n : Nat) : Int :=
  ((span k0 n).map (fun k => codeInt m.wfmt.toNat (weightBits x m.wfmt.toNat k o) * actInt m row k)).sum

/-- The u4 activations of a presubtracting MAC: nibbles 32·AH on of the row, against the same inputs of the weight buffer
(log 14). -/
def presubSum (m : MacField) (x : Tile) (row : List Byte) (o : Nat) : Int :=
  ((span (if m.ah then 32 else 0) 32).map (fun k =>
    codeInt m.wfmt.toNat (weightBits x m.wfmt.toNat k o)
      * ((actBits row 1 0 k : Int) - field m.zp.toNat 0 4))).sum

/-- The term of one 32-input block of a scaled MAC. -/
def blockTerm (t : Nat) (x : Tile) (m : MacField) (p : Int) (o sb ar : Nat) : Xv :=
  xMul (ofInt p) (xMul (weightScale x m.wfmt.toNat o sb) (actScale t x m.afmt.toNat ar))

/-- The latency and effect of a MAC, its operands read at issue (R236, R301). -/
def macEffect (t : Nat) (x : Tile) (m : MacField) (row : List Byte) : Nat × Effect :=
  let outs := span 0 32
  let entry := m.acc.toNat
  let wh := if m.wh then 1 else 0
  match pairKind m with
  | .int n => (34, .acc entry false m.clr (.addInt (outs.map (fun o => intSum m x row o 0 n))))
  | .presub =>
    let ps := outs.map (fun o => presubSum m x row o)
    if isG m.wfmt.toNat then
      (34, .acc entry true m.clr (.addFloat ((outs.zip ps).map (fun e =>
        exOf (blockTerm t x m e.2 e.1 (if m.ah then 1 else 0) m.ar0.toNat)))))
    else (34, .acc entry false m.clr (.addInt ps))
  | .scaled =>
    if is4 m.wfmt.toNat then
      (34, .acc entry true m.clr (.addFloat (outs.map (fun o => exOf (xAdd
        (blockTerm t x m (intSum m x row o 0 32) o 0 m.ar0.toNat)
        (blockTerm t x m (intSum m x row o 32 32) o 1 m.ar1.toNat))))))
    else
      (34, .acc entry true m.clr (.addFloat (outs.map (fun o => exOf
        (blockTerm t x m (intSum m x row o 0 32) o wh m.ar0.toNat)))))
  | .float =>
    ((if isF8 m.afmt.toNat then 36 else 38), .acc entry true m.clr (.addFloat (outs.map (fun o => exOf (xSum
      ((span 0 32).map (fun k => xMul (codeVal m.wfmt.toNat (weightBits x m.wfmt.toNat k o))
        (codeVal m.afmt.toNat (actBits row m.afmt.toNat (if m.ah then 1 else 0) k)))))))))
  | .none => (34, .acc entry false true .clear)

/-! ## CORR (R291) -/

/-- The correction terms of one record, applied to block `b`. -/
def corrTerms (t : Nat) (x : Tile) (wfmt b ar o : Nat) : List Xv :=
  let ns := mxuEntries t
  let rec_ := sideRecord (sideRow x) ns ar
  (span 0 ns).filterMap (fun i =>
    let j := leAt rec_ (4 + 4 * i + 2) 1
    if j = 0xFF then none
    else
      let k := if Config.mxuGroup64 t then j else 32 * b + j
      if Config.mxuGroup64 t && k / 32 != b then none
      else some (xMul (floatVal bf16 (leAt rec_ (4 + 4 * i) 2))
        (xMul (codeVal wfmt (weightBits x wfmt k o)) (weightScale x wfmt o b))))

def corrEffect (t : Nat) (x : Tile) (wfmt acc ar0 ar1 : Nat) : Effect :=
  .acc acc true false (.corr ((span 0 32).map (fun o => exOf (xSum
    (corrTerms t x wfmt 0 ar0 o ++ (if is4 wfmt then corrTerms t x wfmt 1 ar1 o else []))))))

/-! ## LOADW, SWAPW, DRAIN (R287, R288, R293) -/

def loadwTile (row target : Nat) (data : List Byte) (x : Tile) : Tile :=
  if target = 0 then { x with weightsSh := mwrite x.weightsSh (64 * row) data }
  else if target = 1 then { x with wscaleSh := mwrite x.wscaleSh 0 data }
  else if target = 2 then { x with sideReg := mwrite x.sideReg 0 data }
  else { x with drainVec := mwrite x.drainVec (64 * row) data }

def swapwTile (x : Tile) : Tile :=
  { x with weights := x.weightsSh, weightsSh := x.weights, wscale := x.wscaleSh, wscaleSh := x.wscale }

/-- One output of a DRAIN with FOLD (R293). -/
def foldLane (x : Tile) (a : Acc) (o : Nat) : Word :=
  let f := rne32 (xMul (val32 (mle x.drainVec (4 * o) 4)) (val32 (mle x.sideReg 0 4)))
  let base := if a.isF32 then val32 (laneAt a.lanes o).toNat
    else ofInt (signed 32 (laneAt a.lanes o).toNat + signed 32 (mle x.drainVec (128 + 4 * o) 4))
  let y := rne32 (xMul base (val32 f))
  BitVec.ofNat 32 (posZero f32 (rne32 (xAdd (val32 y) (val32 (mle x.drainVec (256 + 4 * o) 4)))))

def drainLanes (x : Tile) (a : Acc) (mode h : Nat) : List (Nat × Word) :=
  (span 0 32).map (fun o => (32 * h + o, if mode = 0 then laneAt a.lanes o else foldLane x a o))

end Sys2Proof.Machine
end

