-- ==== Sys2Proof/Machine/Quant.lean ====
section
/-!
DEFINITION. Quantisation sites (R279 to R286, R297, R299, R300, R306).
-/

namespace Sys2Proof.Machine

/-! ## Configuration (R306) -/

def cfgFmt (c : Nat) : Nat := field c 0 4
def cfgG (c : Nat) : Nat := if bitOf c 4 then 64 else 32
/-- Entries of a record: 0, 2 or 4; 3 acts as 2. -/
def cfgNside (c : Nat) : Nat := 2 * min (field c 5 2) 2
/-- Rounding mode; 3 acts as 0. -/
def cfgRmode (c : Nat) : Nat := field c 7 2 % 3
def cfgDepth (c : Nat) : Nat := field c 9 3 + 1
def cfgMargin (c : Nat) : Nat := min (field c 12 3) 4
def cfgZp (c : Nat) : Nat := if cfgFmt c = 1 then field c 15 4 else field c 15 8
/-- Under NARROW_WIRE the error is measured after bf16; 3 acts as NARROW_ALL. -/
def cfgWire (c : Nat) : Bool := field c 23 2 == 2
def cfgRow (c : Nat) : Nat := 64 * (field c 25 7 + 1)

/-- The targets of R283. -/
def isTarget (fmt : Nat) : Bool := decide (fmt < 6) || (8 ≤ fmt && fmt < 12)

def isNarrowG (fmt : Nat) : Bool := fmt == 2 || fmt == 5

/-- QMAX (R283). -/
def cfgQmax (c : Nat) : Nat :=
  let f := cfgFmt c
  if f = 0 || f = 2 then 7 else if f = 1 then max (cfgZp c) (15 - cfgZp c)
  else if f = 3 || f = 5 then 127 else if f = 4 then max (cfgZp c) (255 - cfgZp c)
  else if f = 8 then 448 else 57344

/-- A site's configuration if it can convert. -/
def siteCfg (x : Site) : Option Nat :=
  match x.cfg with
  | none => none
  | some w => if isTarget (cfgFmt w.toNat) then some w.toNat else none

/-- A seed that is zero, negative, infinite or NaN counts as 1.0 (R306). -/
def seedOf (w : Word) : Word :=
  match floatVal f32 w.toNat with
  | .rat s n _ _ => if s || n == 0 then 0x3F800000 else w
  | _ => 0x3F800000

/-- CFG0: nothing, or a site that starts anew under it (R280). -/
def cfg0Site (w : Word) (x : Site) : Site :=
  if x.cfg = some w then x
  else { Site.init with cfg := some w, seed := x.seed, s2 := x.seed, mask := x.mask, side := x.side }

/-- CFG1: the seed, and S2 until a step has closed (R280). -/
def cfg1Site (w : Word) (x : Site) : Site :=
  if x.steps = 0 then { x with seed := seedOf w, s2 := seedOf w } else { x with seed := seedOf w }

/-! ## QUANT (R282 to R286) -/

/-- Whether lane `i` rounds away from zero (R283). -/
def laneRna (c : Nat) (x : Site) (i : Nat) : Bool :=
  cfgRmode c == 1 || (cfgRmode c == 2 && bitOf x.mask.toNat (((x.ch + i) / 32) % 32))

/-- S2 in force; it is always 1.0 for 16-bit floats (R282). -/
def s2Word (x : Site) : Word :=
  match x.cfg with
  | some c => if cfgFmt c.toNat = 10 || cfgFmt c.toNat = 11 then 0x3F800000 else x.s2
  | none => x.s2

def s2Val (x : Site) : Xv := val32 (s2Word x).toNat

/-- A value rounded to an integer with no bounds; `none` for an infinity, 0 for NaN. -/
def rndInt (rna : Bool) : Xv → Option Int
  | .rat s n d e => some (roundRatInt rna s n d e)
  | .nan => some 0
  | .inf _ => none

/-- |rnd v| > q. -/
def beyond (rna : Bool) (v : Xv) (q : Nat) : Bool :=
  match rndInt rna v with
  | some i => decide (q < i.natAbs)
  | none => true

/-- What a group's conversion decides: its scale, its side lanes and its codes. -/
structure GroupQ where
  scale : Nat
  side  : List Nat
  clamped : Nat
  codes : List Nat
deriving DecidableEq, Repr

/-- The candidates with the largest |x|, ties to the lower lane. -/
def pickSide : Nat → List (Nat × Xv) → List Nat
  | 0, _ => []
  | n + 1, cs =>
    match cs with
    | [] => []
    | c :: rest =>
      let best := rest.foldl (fun b y => if xLt (xAbs b.2) (xAbs y.2) then y else b) c
      best.1 :: pickSide n (cs.filter (fun y => y.1 != best.1))

/-- The smallest e5m3 scale that covers gmax, at most 1.0. -/
def groupScale (s2 gmax : Xv) (qmax : Nat) : Nat :=
  if xIsZero gmax then 0
  else ((span 8 113).find? (fun c => xLe gmax (xMul (e5m3Val c) (xMul s2 (ofInt qmax))))).getD 0x78

/-- One group of a g4 or g8 target (R283); lanes are numbered within the register. -/
def quantGroup (c : Nat) (x : Site) (lanes : List (Nat × Xv)) : GroupQ :=
  let q := cfgQmax c
  let s2 := s2Val x
  let cand := lanes.filter (fun l => beyond (laneRna c x l.1) (xDiv l.2 s2) q)
  let side := pickSide (cfgNside c) cand
  let rest := lanes.filter (fun l => !side.contains l.1)
  let gmax := rest.foldl (fun m l => if xFinite l.2 && xLt m (xAbs l.2) then xAbs l.2 else m) (ofInt 0)
  let s := groupScale s2 gmax q
  let esc := if cfgFmt c = 2 then 8 else 0x80
  let w := if cfgFmt c = 2 then 4 else 8
  { scale := s, side := side
    clamped := (cand.filter (fun l => !side.contains l.1)).length
    codes := lanes.map (fun l =>
      if side.contains l.1 then esc
      else if s = 0 then 0
      else unsigned w (toIntSat (laneRna c x l.1) (-q) q (xDiv l.2 (xMul (e5m3Val s) s2)))) }

/-- A side entry: the value in bf16 RNE, the lane's index, a zero byte (R284). -/
def sideEntry (v : Xv) (idx : Nat) : List Byte := toLe 2 (posZero bf16 (toFloat bf16 false true v)) ++ toLe 1 idx ++ [0]

/-- A group's record (R284). -/
def groupRecord (c : Nat) (g : GroupQ) (lanes : List (Nat × Xv)) : List Byte :=
  let es := g.side.map (fun i => sideEntry (((lanes.find? (fun l => l.1 == i)).map (·.2)).getD .nan) (i % cfgG c))
  [BitVec.ofNat 8 g.scale, BitVec.ofNat 8 es.length, 0, 0] ++ es.flatten
    ++ (List.replicate (cfgNside c - es.length) [0, 0, 0xFF, 0]).flatten

/-- Side-row records: 15, 5 or 3 (R284). -/
def recordCap (c : Nat) : Nat := 60 / (4 + 4 * cfgNside c)

/-- A record joins the side buffer (R285). -/
def appendRecord (c : Nat) (x : Site) (r : List Byte) : Site :=
  { x with records := sput [] x.records (x.nrec % recordCap c) r, nrec := x.nrec + 1 }

/-- The range of an integer target. -/
def intRange (fmt : Nat) : Int × Int :=
  if fmt = 0 then (-8, 7) else if fmt = 1 then (0, 15) else if fmt = 3 then (-128, 127) else (0, 255)

/-- A non-g conversion: the code, whether it was clipped, and x̂ before S2's product for floats. -/
def quantPlain (c : Nat) (x : Site) (i : Nat) (v : Xv) : Nat × Bool :=
  let fmt := cfgFmt c
  let rna := laneRna c x i
  let y := xDiv v (s2Val x)
  match fmtOf fmt with
  | some f =>
    let past := match y with
      | .rat _ n d e => (packMag f rna n d e).isNone
      | .inf _ => true
      | .nan => false
    (posZero f (toFloat f rna true y), past)
  | none =>
    let (lo, hi) := intRange fmt
    let zp : Int := if fmt = 1 || fmt = 4 then cfgZp c else 0
    let out := match rndInt rna y with
      | some k => decide (k + zp < lo) || decide (hi < k + zp)
      | none => true
    (unsigned (fmtBits fmt) (toIntSat rna (lo - zp) (hi - zp) y + zp), out)

/-- x̂ of a code (R279). `esc` is the bf16 value behind an escape code. -/
def decoded (c : Nat) (s2 : Xv) (scale code : Nat) (esc : Xv) : Xv :=
  let fmt := cfgFmt c
  match fmtOf fmt with
  | some f => if fmt = 10 || fmt = 11 then floatVal f code else xMul (floatVal f code) s2
  | none =>
    if fmt = 2 then (if code = 8 then esc else xMul (ofInt (signed 4 code)) (xMul (e5m3Val scale) s2))
    else if fmt = 5 then (if code = 0x80 then esc else xMul (ofInt (signed 8 code)) (xMul (e5m3Val scale) s2))
    else if fmt = 1 || fmt = 4 then xMul (ofInt ((code : Int) - cfgZp c)) s2
    else xMul (ofInt (signed (fmtBits fmt) code)) s2

/-- The error and the source of a finite element in f64 (R286); under NARROW_WIRE x̂ is what a DEQ would give (R297). -/
def elemError (c : Nat) (v xhat : Xv) : DWord × DWord :=
  let h := if cfgWire c then floatVal bf16 (toFloat bf16 false true xhat) else xhat
  (BitVec.ofNat 64 (toFloat f64 false false (xSub v h)), BitVec.ofNat 64 (toFloat f64 false false v))

/-- Lanes in groups of `g`. -/
def groupsOf (g : Nat) (lanes : List (Nat × Xv)) : List (List (Nat × Xv)) :=
  (span 0 (lanes.length / g)).map (fun j => (lanes.drop (j * g)).take g)

/-- Codes packed into bytes (R274). -/
def packCodes (w : Nat) (codes : List Nat) : List Byte :=
  if w = 16 then codes.flatMap (toLe 2)
  else if w = 8 then codes.map (BitVec.ofNat 8)
  else (span 0 (codes.length / 2)).map (fun i =>
    BitVec.ofNat 8 ((codes[2 * i]?).getD 0 + 16 * (codes[2 * i + 1]?).getD 0))

/-- A closed step (R282): history, count, and the S2 that comes into force four lc later. -/
def closeStep (c : Nat) (x : Site) : Site × Option Word :=
  let hist := (x.stepMax :: x.hist).take (cfgDepth c)
  let a := hist.foldl (fun (m w : Word) => if m.toNat < w.toNat then w else m) 0
  let x1 := { x with hist := hist, stepMax := 0, steps := satAdd x.steps 1 }
  let av := val32 a.toNat
  if cfgFmt c = 10 || cfgFmt c = 11 || xIsZero av || !xFinite av then (x1, none)
  else
    let t := rne32 (xMul av (ofInt (16 + cfgMargin c)))
    (x1, some (BitVec.ofNat 32 (rne32 (xDiv (val32 t) (ofInt (16 * cfgQmax c))))))

/-- The whole of a QUANT: the site, the first byte and the bytes of the row, the statistics, and a new S2 (R283). -/
structure Quantised where
  site  : Site
  first : Nat
  bytes : List Byte
  add   : StatsAdd
  s2    : Option Word
deriving DecidableEq, Repr

def quantise (n c : Nat) (x : Site) (half : Nat) (step : Bool) (vals : List (Nat × Xv)) : Quantised :=
  let fmt := cfgFmt c
  let w := fmtBits fmt
  let top := vals.foldl (fun (m : Word) l =>
    if xFinite l.2 then BitVec.ofNat 32 (max m.toNat (rne32 (xAbs l.2))) else m) x.stepMax
  let s2 := s2Val x
  let x1 := { x with stepMax := top, sideS2 := some (x.sideS2.getD (s2Word x)) }
  let gs := if isNarrowG fmt then (groupsOf (cfgG c) vals).map (fun g => (g, quantGroup c x g)) else []
  let plain := if isNarrowG fmt then [] else vals.map (fun l => quantPlain c x l.1 l.2)
  let codes := if isNarrowG fmt then gs.flatMap (fun g => g.2.codes) else plain.map (·.1)
  let x2 := gs.foldl (fun y g => appendRecord c y (groupRecord c g.2 g.1)) x1
  let hats := if isNarrowG fmt then
      gs.flatMap (fun g => (g.1.zip g.2.codes).map (fun e =>
        (e.1.2, decoded c s2 g.2.scale e.2 (floatVal bf16 (toFloat bf16 false true e.1.2)))))
    else (vals.zip codes).map (fun e => (e.1.2, decoded c s2 0 e.2 .nan))
  let fin := hats.filter (fun e => xFinite e.1)
  let add : StatsAdd :=
    { site := n, finite := fin.length, nonfinite := hats.length - fin.length
      clipped := (plain.filter (·.2)).length
      sideUsed := (gs.map (fun g => g.2.side.length)).sum, overflow := (gs.map (fun g => g.2.clamped)).sum
      errors := fin.map (fun e => elemError c e.1 e.2) }
  let x3 := { x2 with ch := (x2.ch + vals.length) % cfgRow c }
  let (x4, s2n) := if step then closeStep c x3 else (x3, none)
  { site := x4, first := if w = 4 then 32 * half else 0, bytes := packCodes w codes, add := add, s2 := s2n }

/-! ## Side and statistics rows -/

/-- The side row (R284). -/
def sideBytes (x : Site) : List Byte :=
  let c := (x.cfg.getD 0).toNat
  toLe 4 (x.sideS2.getD (s2Word x)).toNat
    ++ slice ((span 0 (recordCap c)).flatMap (fun k =>
        let r := sget [] x.records k
        if r.isEmpty then List.replicate (4 + 4 * cfgNside c) 0 else r)) 0 60

def statsRow (x : Site) : List Byte :=
  let st := x.stats
  toLe 4 st.count.toNat ++ toLe 4 st.nonfinite.toNat ++ toLe 4 st.clipped.toNat ++ toLe 4 st.sideUsed.toNat
    ++ toLe 4 st.overflow.toNat ++ toLe 4 st.maxErr.toNat ++ toLe 8 st.sse.toNat ++ toLe 8 st.ssx.toNat
    ++ toLe 4 (s2Word x).toNat ++ toLe 4 x.stepMax.toNat
    ++ toLe 4 (x.hist.foldl (fun (m w : Word) => if m.toNat < w.toNat then w else m) 0).toNat
    ++ toLe 4 x.steps.toNat ++ List.replicate 8 0

/-- The statistics that a tile's QUANTs on a site still owe (R299). -/
def pendingStats (t : Tile) (n : Nat) : List StatsAdd :=
  t.flights.filterMap (fun f => match f.eff with
    | .stats a => if a.site = n then some a else none
    | _ => none)

/-- What a flight still brings when its statistics on a site are dropped: the outliers it clamped, which count in OUTLIER_OVERFLOW all
the same (R286). -/
def dropFlight (all : Bool) (n : Nat) (f : InFlight) : Option InFlight :=
  match f.eff with
  | .stats a => if a.site = n then (if a.overflow = 0 then none else some { f with eff := .outliers a.overflow }) else some f
  | .s2 m _ => if all && m == n then none else some f
  | _ => some f

/-- Pending statistics, and pending S2 where `all`, of a site are dropped (R299, R300). -/
def dropPending (all : Bool) (n : Nat) (t : Tile) : Tile := { t with flights := t.flights.filterMap (dropFlight all n) }

/-! ## DEQ (R297) -/

/-- The side entry of a record for a lane index. -/
def escapeVal (rec_ : List Byte) (ns idx : Nat) : Option Xv :=
  ((span 0 ns).find? (fun i => leAt rec_ (4 + 4 * i + 2) 1 == idx)).map (fun i => floatVal bf16 (leAt rec_ (4 + 4 * i) 2))

/-- The lanes of a DEQ, with `none` where an escape code has no entry (log 15). -/
def deqLanes (c : Nat) (x : Site) (row : List Byte) (half ar : Nat) (obf : Bool) : List (Nat × Option Word) :=
  let fmt := cfgFmt c
  let w := fmtBits fmt
  let s2 := val32 (leAt x.side 0 4)
  let codes := if w = 4 then elems row 4 (64 * half) 64 else if w = 8 then elems row 8 0 64 else elems row 16 0 32
  let first := if w = 16 then 32 * half else 0
  (span 0 codes.length).map (fun i =>
    let r := if cfgG c = 64 || i < 32 then ar else ar + 1
    let rec_ := sideRecord x.side (cfgNside c) r
    let code := (codes[i]?).getD 0
    let esc := isNarrowG fmt && (code == (if fmt = 2 then 8 else 0x80))
    let v : Option Xv := if esc then escapeVal rec_ (cfgNside c) (i % cfgG c)
      else some (decoded c s2 (leAt rec_ 0 1) code .nan)
    (first + i, v.map (fun v =>
      let f := if obf then bf16 else f32
      BitVec.ofNat 32 (posZero f (toFloat f false true v)))))
where
  sideRecord (row : List Byte) (ns r : Nat) : List Byte := slice row (4 + r * (4 + 4 * ns)) (4 + 4 * ns)

/-- The lanes a DEQ writes with zeros on a site that cannot convert: those a DEQ under its FMT would write, half of them for a 16-bit
format, all 64 where it names none (R297, log 15). -/
def deqZeros (x : Site) (half : Nat) : List (Nat × Word) :=
  let wide := match x.cfg with | some c => cfgFmt c.toNat == 6 | none => false
  (if wide then span (32 * half) 32 else span 0 64).map (fun i => (i, 0))

end Sys2Proof.Machine
end

