-- ==== Sys2Proof/Machine/TileUnits.lean ====
section
/-!
DEFINITION. The commands of a tile's MXU, VEC and QNT fields (R287, R295, R306). An operation reads its operands at issue and its
result takes effect when it is ready (R236).
-/

namespace Sys2Proof.Machine

/-! ## MXU -/

/-- A unit operation that reads one row and changes the tile. -/
def rowOp (t unit src : Nat) (f : List Byte → State → State) (s : State) : State :=
  let (row, s1) := sourceRow t unit src s
  f row s1

def modTile (t : Nat) (f : Tile → Tile) (s : State) : State := putTile t (f (tileOf s t)) s

/-- LOADW (R288). -/
def loadwEffect (t row target : Nat) : State → State :=
  issueMxu 1 t (fun b => field (mxuWord b) 42 5 == row && field (mxuWord b) 47 2 == target) (fun _ =>
    rowOp t unitW 0 (fun data => modTile t (loadwTile row target data)))

def execLoadw (t : BitVec 8) (row : BitVec 5) (target : BitVec 2) (s : State) : Host.Outcome State Fault Refusal :=
  fin s (loadwEffect t.toNat row.toNat target.toNat s)

/-- SWAPW (R287). -/
def execSwapw (t : BitVec 8) (s : State) : Host.Outcome State Fault Refusal :=
  fin s (issueMxu 2 t.toNat (fun _ => true) (fun _ => modTile t.toNat swapwTile) s)

/-- MAC (R289). -/
def macIssue (t : Nat) (f : MacField) : State → State :=
  issueMxu 3 t (fun b => macField b == f) (fun _ => rowOp t unitA f.asrc.toNat (fun row s =>
    let e := macEffect t (tileOf s t) f row
    launch t e.1 [e.2] s))

def execMac (t : BitVec 8) (f : MacField) (s : State) : Host.Outcome State Fault Refusal := fin s (macIssue t.toNat f s)

/-- DRAIN (R293); a saturation flag in the entry counts once. MODE 2 and 3 are reserved and have no effect. -/
def drainIssue (t acc mode dst h : Nat) : State → State :=
  issueMxu 4 t (fun b =>
      field (mxuWord b) 12 6 == acc && field (mxuWord b) 19 2 == mode && field (mxuWord b) 21 5 == dst && field (mxuWord b) 26 1 == h)
    (fun x s =>
    let tile := tileOf s t
    let a := accAt tile acc
    if 1 < mode then s
    else
      loomTally 0x4A (some (draftOf s x.draft).tenant) (if a.sat.any id then 1 else 0)
        (launch t 2 [.vec dst (drainLanes tile a mode h) 4] s))

def execDrain (t : BitVec 8) (acc : BitVec 6) (mode : BitVec 2) (dst : BitVec 5) (h : Bool) (s : State) :
    Host.Outcome State Fault Refusal :=
  fin s (drainIssue t.toNat acc.toNat mode.toNat dst.toNat h.toNat s)

/-- CORR (R291). -/
def corrIssue (t wfmt acc ar0 ar1 : Nat) : State → State :=
  issueMxu 5 t (fun b =>
      let m := mxuWord b
      field m 4 4 == wfmt && field m 12 6 == acc && field m 29 4 == ar0 && field m 33 4 == ar1)
    (fun _ s => launch t 36 [corrEffect t (tileOf s t) wfmt acc ar0 ar1] s)

def execCorr (t : BitVec 8) (wfmt : BitVec 4) (acc : BitVec 6) (ar0 ar1 : BitVec 4) (s : State) :
    Host.Outcome State Fault Refusal :=
  fin s (corrIssue t.toNat wfmt.toNat acc.toNat ar0.toNat ar1.toNat s)

/-! ## VEC -/

/-- An operation on registers: `f` gives the lanes from A, B and C under the lane type; a reserved TYPE has no effect (R294). -/
def vecRun (t lat : Nat) (f : LaneType → List Word → List Word → List Word → List (Nat × Word)) (v : VecField) (s : State) :
    State :=
  match laneType v.type.toNat with
  | none => s
  | some ty =>
    let x := tileOf s t
    launch t lat [.vec v.d.toNat (f ty (vregAt x v.a.toNat) (vregAt x v.b.toNat) (vregAt x v.c.toNat)) v.part.toNat] s

/-- The operation of code `op` on registers. -/
def vecOp (op t lat : Nat) (v : VecField) (f : LaneType → List Word → List Word → List Word → List (Nat × Word)) : State → State :=
  issueVec op t v (fun _ => vecRun t lat f v)

/-- A load of lanes from a row; bits [63:61] of the field name its source (R294). -/
def vecLoad (op t : Nat) (v : VecField) (f : List Byte → Option (List (Nat × Word))) : State → State :=
  issueVec op t v (fun _ s =>
    match laneType v.type.toNat with
    | none => s
    | some _ =>
      rowOp t unitVec (field v.imm.toNat 29 3) (fun row s =>
        match f row with
        | some lanes => launch t 2 [.vec v.d.toNat lanes v.part.toNat] s
        | none => s) s)

/-- Lane-wise on A and B. -/
def lanes2 (f : LaneType → Word → Word → Word) (ty : LaneType) (a b _c : List Word) : List (Nat × Word) :=
  (span 0 64).map (fun i => (i, f ty (laneAt a i) (laneAt b i)))

def allLanes (w : Word) : List (Nat × Word) := (span 0 64).map (fun i => (i, w))

def execVecNop (t : BitVec 8) (s : State) : Host.Outcome State Fault Refusal :=
  fin s (issueOn t.toNat fieldVec (fun b => vecOpCode b == 0) (fun _ _ s => s) s)

/-- LDQ: 16 words of the row into a quarter of D. -/
def ldqLanes (part : Nat) (row : List Byte) : Option (List (Nat × Word)) :=
  some ((span 0 16).map (fun i => (16 * part + i, BitVec.ofNat 32 (leAt row (4 * i) 4))))
def execLdq (t : BitVec 8) (f : VecField) (s : State) : Host.Outcome State Fault Refusal :=
  fin s (vecLoad 0x01 t.toNat f (ldqLanes f.part.toNat) s)

/-- LDW: 64 lanes from 64 bytes as IMM[1:0] names. -/
def ldwLanes (kind : Nat) (row : List Byte) : Option (List (Nat × Word)) :=
  some ((span 0 64).map (fun i =>
    let b := leAt row i 1
    (i, if kind = 0 then BitVec.ofInt 32 (signed 8 b) else if kind = 1 then BitVec.ofNat 32 b
        else BitVec.ofNat 32 (rne32 (floatVal (if kind = 2 then f8a else f8b) b)))))
def execLdw (t : BitVec 8) (f : VecField) (s : State) : Host.Outcome State Fault Refusal :=
  fin s (vecLoad 0x02 t.toNat f (ldwLanes (field f.imm.toNat 0 2)) s)

/-- LDH: 32 lanes from 16-bit values; kind 3 is reserved and has no effect. -/
def ldhLanes (kind part : Nat) (row : List Byte) : Option (List (Nat × Word)) :=
  if kind = 3 then none
  else some ((span 0 32).map (fun i =>
    let h := leAt row (2 * i) 2
    (32 * (part % 2) + i, if kind = 0 then BitVec.ofInt 32 (signed 16 h)
      else BitVec.ofNat 32 (rne32 (floatVal (if kind = 1 then f16 else bf16) h)))))
def execLdh (t : BitVec 8) (f : VecField) (s : State) : Host.Outcome State Fault Refusal :=
  fin s (vecLoad 0x03 t.toNat f (ldhLanes (field f.imm.toNat 0 2) f.part.toNat) s)

def execStq (t : BitVec 8) (f : VecField) (s : State) : Host.Outcome State Fault Refusal :=
  fin s (vecOp 0x04 t.toNat 2 f (lanes2 (fun _ a _ => a)) s)
def execMovi (t : BitVec 8) (f : VecField) (s : State) : Host.Outcome State Fault Refusal :=
  fin s (vecOp 0x05 t.toNat 2 f (fun _ _ _ _ => allLanes f.imm) s)
def execAdd (t : BitVec 8) (f : VecField) (s : State) : Host.Outcome State Fault Refusal :=
  fin s (vecOp 0x06 t.toNat 2 f (lanes2 (fun ty => lane2 ty f.rna (· + ·) xAdd)) s)
def execSub (t : BitVec 8) (f : VecField) (s : State) : Host.Outcome State Fault Refusal :=
  fin s (vecOp 0x07 t.toNat 2 f (lanes2 (fun ty => lane2 ty f.rna (· - ·) xSub)) s)
def execMul (t : BitVec 8) (f : VecField) (s : State) : Host.Outcome State Fault Refusal :=
  fin s (vecOp 0x08 t.toNat 2 f (lanes2 (fun ty => lane2 ty f.rna (· * ·) xMul)) s)
def execMin (t : BitVec 8) (f : VecField) (s : State) : Host.Outcome State Fault Refusal :=
  fin s (vecOp 0x09 t.toNat 2 f (lanes2 laneMin) s)
def execMax (t : BitVec 8) (f : VecField) (s : State) : Host.Outcome State Fault Refusal :=
  fin s (vecOp 0x0A t.toNat 2 f (lanes2 laneMax) s)
def execAnd (t : BitVec 8) (f : VecField) (s : State) : Host.Outcome State Fault Refusal :=
  fin s (vecOp 0x0B t.toNat 2 f (lanes2 (fun ty => laneBits ty (· &&& ·))) s)
def execOr (t : BitVec 8) (f : VecField) (s : State) : Host.Outcome State Fault Refusal :=
  fin s (vecOp 0x0C t.toNat 2 f (lanes2 (fun ty => laneBits ty (· ||| ·))) s)
def execXor (t : BitVec 8) (f : VecField) (s : State) : Host.Outcome State Fault Refusal :=
  fin s (vecOp 0x0D t.toNat 2 f (lanes2 (fun ty => laneBits ty (· ^^^ ·))) s)
def execShl (t : BitVec 8) (f : VecField) (s : State) : Host.Outcome State Fault Refusal :=
  fin s (vecOp 0x0E t.toNat 2 f (lanes2 laneShl) s)
def execShr (t : BitVec 8) (f : VecField) (s : State) : Host.Outcome State Fault Refusal :=
  fin s (vecOp 0x0F t.toNat 2 f (lanes2 laneShr) s)
def execCmplt (t : BitVec 8) (f : VecField) (s : State) : Host.Outcome State Fault Refusal :=
  fin s (vecOp 0x10 t.toNat 2 f (lanes2 laneLt) s)
def execCmpeq (t : BitVec 8) (f : VecField) (s : State) : Host.Outcome State Fault Refusal :=
  fin s (vecOp 0x11 t.toNat 2 f (lanes2 laneEq) s)

/-- SEL: C ≠ 0 ? A : B. -/
def selLanes (_ : LaneType) (a b c : List Word) : List (Nat × Word) :=
  (span 0 64).map (fun i => (i, if laneAt c i ≠ 0 then laneAt a i else laneAt b i))
def execSel (t : BitVec 8) (f : VecField) (s : State) : Host.Outcome State Fault Refusal :=
  fin s (vecOp 0x12 t.toNat 2 f selLanes s)

/-- PERM: lane i takes A[B[i] mod 64]. -/
def permLanes (_ : LaneType) (a b _c : List Word) : List (Nat × Word) :=
  (span 0 64).map (fun i => (i, laneAt a ((laneAt b i).toNat % 64)))
def execPerm (t : BitVec 8) (f : VecField) (s : State) : Host.Outcome State Fault Refusal :=
  fin s (vecOp 0x13 t.toNat 2 f permLanes s)

/-- CVT to the type of IMM[2:0]; a reserved target has no effect. -/
def cvtIssue (t : Nat) (v : VecField) : State → State :=
  issueVec 0x14 t v (fun _ s => match laneType (field v.imm.toNat 0 3) with
    | none => s
    | some dst => vecRun t 2 (lanes2 (fun ty a _ => laneCvt ty dst v.rna a)) v s)
def execCvt (t : BitVec 8) (f : VecField) (s : State) : Host.Outcome State Fault Refusal := fin s (cvtIssue t.toNat f s)

def fmaLanes (rna : Bool) (ty : LaneType) (a b c : List Word) : List (Nat × Word) :=
  (span 0 64).map (fun i => (i, laneFma ty rna (laneAt a i) (laneAt b i) (laneAt c i)))
def execFma (t : BitVec 8) (f : VecField) (s : State) : Host.Outcome State Fault Refusal :=
  fin s (vecOp 0x15 t.toNat 3 f (fmaLanes f.rna) s)

def execRsum (t : BitVec 8) (f : VecField) (s : State) : Host.Outcome State Fault Refusal :=
  fin s (vecOp 0x16 t.toNat 4 f (fun ty a _ _ => allLanes (treeReduce (laneAdd ty f.rna) a)) s)
def execRmax (t : BitVec 8) (f : VecField) (s : State) : Host.Outcome State Fault Refusal :=
  fin s (vecOp 0x17 t.toNat 4 f (fun ty a _ _ => allLanes (treeReduce (laneMax ty) a)) s)

/-- EXP, RCP and RSQ exist for f32 only; another TYPE has no effect (log 16). -/
def f32Op (op t : Nat) (v : VecField) (g : Xv → Nat) : State → State :=
  issueVec op t v (fun _ s =>
    if v.type = 1 then vecRun t 6 (lanes2 (fun _ a _ => BitVec.ofNat 32 (g (val32 a.toNat)))) v s else s)
def execExp (t : BitVec 8) (f : VecField) (s : State) : Host.Outcome State Fault Refusal := fin s (f32Op 0x18 t.toNat f expBits s)
def execRcp (t : BitVec 8) (f : VecField) (s : State) : Host.Outcome State Fault Refusal := fin s (f32Op 0x19 t.toNat f rcpBits s)
def execRsq (t : BitVec 8) (f : VecField) (s : State) : Host.Outcome State Fault Refusal := fin s (f32Op 0x1A t.toNat f rsqBits s)

/-! ## QNT -/

/-- Source lanes of a QUANT: f32 values, or exact integers under X (R283). -/
def quantVals (x : Tile) (c : Nat) (f : QntField) : List (Nat × Xv) :=
  let r := vregAt x f.vreg.toNat
  let w16 := fmtBits (cfgFmt c) = 16
  (if w16 then span (if f.half then 32 else 0) 32 else span 0 64).map (fun i =>
    (i, if f.x then ofInt (signed 32 (laneAt r i).toNat) else val32 (laneAt r i).toNat))

/-- QUANT (R283); a site that cannot convert delivers a zero row and keeps its state. -/
def quantIssue (t : Nat) (f : QntField) : State → State :=
  issueQnt 1 t f (fun _ s =>
    let x := tileOf s t
    let n := f.site.toNat
    match siteCfg (siteAt x n) with
    | none => launch t 4 [.qrow 0 (List.replicate 64 0)] s
    | some c =>
      let q := quantise n c (siteAt x n) (if f.half then 1 else 0) f.step (quantVals x c f)
      let es := [Effect.qrow q.first q.bytes, .stats q.add] ++ (match q.s2 with | some w => [Effect.s2 n w] | none => [])
      launch t 4 es (putTile t (putSite n q.site x) s))
def execQuant (t : BitVec 8) (f : QntField) (s : State) : Host.Outcome State Fault Refusal := fin s (quantIssue t.toNat f s)

/-- A row for the quantisation unit; a reserved source gives a zero row (R306). -/
def qntRowOp (t : Nat) (src : Nat) (f : List Byte → State → State) (s : State) : State :=
  if src = 0 || (4 ≤ src && src ≤ 7) then rowOp t unitQnt src f s else f (List.replicate 64 0) s

/-- Lanes of a DEQ with free words where a code escapes to no entry (log 15). -/
def fillLanes (s : State) (ls : List (Nat × Option Word)) : List (Nat × Word) × State :=
  let word := fun (k : Nat) => BitVec.ofNat 32 (ofLe ((span k 4).map Config.freeRowByte))
  (ls.map (fun l => (l.1, l.2.getD (word (s.free + 4 * l.1)))),
    if ls.any (fun l => l.2.isNone) then { s with free := s.free + 256 } else s)

/-- DEQ (R297). -/
def deqIssue (t : Nat) (f : QntField) : State → State :=
  issueQnt 2 t f (fun _ s => qntRowOp t f.src.toNat (fun row s =>
    let x := tileOf s t
    match siteCfg (siteAt x f.site.toNat) with
    | none => launch t 3 [.vec f.vreg.toNat (deqZeros (siteAt x f.site.toNat) (if f.half then 1 else 0)) 4] s
    | some c =>
      let (lanes, s1) := fillLanes s
        (deqLanes c (siteAt x f.site.toNat) row (if f.half then 1 else 0) f.ar.toNat f.obf)
      launch t 3 [.vec f.vreg.toNat lanes 4] s1) s)
def execDeq (t : BitVec 8) (f : QntField) (s : State) : Host.Outcome State Fault Refusal := fin s (deqIssue t.toNat f s)

/-- CFG0; a new configuration also drops what QUANTs in flight would still add (R280, R300). -/
def cfg0Issue (t : Nat) (f : QntField) : State → State :=
  issueQnt 3 t f (fun _ => modTile t (fun x =>
    let n := f.site.toNat
    let y := cfg0Site f.imm (siteAt x n)
    if (siteAt x n).cfg = some f.imm then x else putSite n y (dropPending true n x)))
def execCfg0 (t : BitVec 8) (f : QntField) (s : State) : Host.Outcome State Fault Refusal := fin s (cfg0Issue t.toNat f s)

def execCfg1 (t : BitVec 8) (f : QntField) (s : State) : Host.Outcome State Fault Refusal :=
  fin s (issueQnt 4 t.toNat f (fun _ => modTile t.toNat (fun x =>
    putSite f.site.toNat (cfg1Site f.imm (siteAt x f.site.toNat)) x)) s)

def execCfg2 (t : BitVec 8) (f : QntField) (s : State) : Host.Outcome State Fault Refusal :=
  fin s (issueQnt 5 t.toNat f (fun _ => modTile t.toNat (fun x =>
    putSite f.site.toNat { siteAt x f.site.toNat with mask := f.imm } x)) s)

/-- FLUSH (R284). -/
def flushIssue (t : Nat) (f : QntField) : State → State :=
  issueQnt 6 t f (fun _ s =>
    let n := f.site.toNat
    let x := tileOf s t
    let y := siteAt x n
    launch t 4 [.qrow 0 (sideBytes y)]
      (putTile t (putSite n { y with records := [], nrec := 0, sideS2 := none } x) s))
def execFlush (t : BitVec 8) (f : QntField) (s : State) : Host.Outcome State Fault Refusal := fin s (flushIssue t.toNat f s)

/-- STATS: every QUANT issued before it is reported; X clears the counts and sums after the copy (R299). -/
def statsIssue (t : Nat) (f : QntField) : State → State :=
  issueQnt 7 t f (fun _ s =>
    let x := tileOf s t
    let n := f.site.toNat
    let y := siteAt x n
    let all := (pendingStats x n).foldl addStats y.stats
    let x1 := if f.x then
        putSite n { y with stats := { SiteStats.init with maxErr := all.maxErr } } (dropPending false n x) else x
    launch t 4 [.qrow 0 (statsRow { y with stats := all })] (putTile t x1 s))
def execStats (t : BitVec 8) (f : QntField) (s : State) : Host.Outcome State Fault Refusal := fin s (statsIssue t.toNat f s)

/-- LDSIDE (R297). -/
def ldsideIssue (t : Nat) (f : QntField) : State → State :=
  issueQnt 8 t f (fun _ => qntRowOp t f.src.toNat (fun row =>
    modTile t (fun x => putSite f.site.toNat { siteAt x f.site.toNat with side := row } x)))
def execLdside (t : BitVec 8) (f : QntField) (s : State) : Host.Outcome State Fault Refusal := fin s (ldsideIssue t.toNat f s)

end Sys2Proof.Machine
end

