-- ==== Sys2Proof/Machine/WatchRows.lean ====
section
/-!
DEFINITION. The commands of the watch cores, the bell, the loft, and the watchman's own clock (R80, R204 to R225, R440 to R448).
-/

namespace Sys2Proof.Machine

/-! ## Arming and memory (R219 to R221) -/

/-- G_WC_CTRL with another ARM bit. -/
def wcCtrlWord (w : WatchCores) (arm : Bool) : Word := w32 (packBits [arm, w.replay])

def execArm (s : State) : Host.Outcome State Fault Refusal := fin s (watchmanCommand 0x180 (wcCtrlWord s.wc true) s)
def execDisarm (s : State) : Host.Outcome State Fault Refusal :=
  fin s (watchmanCommand 0x180 (wcCtrlWord s.wc false) s)

def execWcMemDataWrite (data : Word) (s : State) : Host.Outcome State Fault Refusal :=
  fin s (watchmanCommand 0x183 data s)

def execWcMemWinWrite (k : BitVec 4) (data : Word) (s : State) : Host.Outcome State Fault Refusal :=
  fin s (watchmanCommand (0x1B0 + k.toNat) data s)

/-! ## Steps (R205 to R208) -/

/-- When the next step starts: at its nominal start or the end of the one before, whichever is later (R206); in replay no earlier than
1,536 clocks after the previous start (R208). -/
def stepStartAt (w : WatchCores) (h0 : Nat) : Nat :=
  let k := w.stepsBegun + 1
  let prev := w.ends.headD 0
  if w.replay then (if k = 1 then h0 else max prev (w.stepStart + 1536))
  else max (h0 + Config.hopClocks * (k - 1)) prev

/-- The spikes that step `k` takes in, and whether the replay list ends with it (R208). A write of BASE moves the list at the next step: the
model's choice (log 25). -/
def stepInput (w : WatchCores) (k : Nat) : Option (List Nat × Bool) :=
  if w.replay then some (replayScan w (k - 1) 0x20000 w.replayBase.toNat)
  else w.inputs.head?.map (fun xs => (xs, false))

/-- The step's slots delivered on all four cores: accumulators, the cores' ends and what is left (R205, R207). -/
def deliverAll (w : WatchCores) (k t : Nat) (cut : Option Nat) : Sparse Int × List Nat × Sparse (List Token) :=
  [0, 1, 2, 3].foldl (fun r c =>
    let d := coreDeliver w c cut t r.1 (sget [] w.queues (16 * c + k % 16))
    (d.1, r.2.1 ++ [d.2.1], sput [] r.2.2 c d.2.2)) ([], [], [])

/-- A step starts: take-in, delivery, and, where nothing meets the cutoff, update and route. -/
def startStep (t0 : Nat) (spikes : List Nat) (last : Bool) (s : State) : State :=
  let k := s.wc.stepsBegun + 1
  let s1 := watchTally 0x07 spikes.length (onWc (fun w => { w with
    running := true, stepsBegun := k, stepStart := t0, lastTaken := last, inputs := w.inputs.drop (if w.replay then 0 else 1) }) s)
  let takes := [0, 1, 2, 3].map (fun c => coreTakeIn s1.wc c k t0 spikes)
  let t := takes.foldl (fun a x => max a x.2) t0
  let s2 := (mergeCores (takes.map (·.1))).foldl queueToken s1
  let cut := if s2.wc.replay then none else some (s2.wc.h0.getD 0 + Config.hopClocks * (k - 1) + 39936)
  let d := deliverAll s2.wc k t cut
  let s3 := onWc (fun w => { w with
    acc := d.1, coreEnds := d.2.1
    leaving := [0, 1, 2, 3].foldl (fun m c => sput [] m c (leaveClocks w cut t (sget [] w.queues (16 * c + k % 16)))) []
    queues := [0, 1, 2, 3].foldl (fun q c => sdel q (16 * c + k % 16)) w.queues }) s2
  if d.2.2.isEmpty then updateAndRoute s3 else onWc (fun w => { w with stage := .cutoff d.2.2 }) s3

/-- WATCH_STEP. -/
def watchStep (s : State) : State :=
  let w := s.wc
  match w.h0, w.stage with
  | some h, .none =>
    if !w.aonclk || !w.arm || s.clocks.wclk < stepStartAt w h then s
    else
      match stepInput w (w.stepsBegun + 1) with
      | none => s
      | some (spikes, last) => startStep (stepStartAt w h) spikes last s
  | _, _ => s

def execWatchStep (s : State) : Host.Outcome State Fault Refusal := fin s (watchStep s)

/-- DELIVERY_CUTOFF, at the nominal start plus 39,936 clocks. -/
def deliveryCutoff (s : State) : State :=
  if s.clocks.wclk < s.wc.h0.getD 0 + Config.hopClocks * (s.wc.stepsBegun - 1) + 39936 then s else cutStep s

def execDeliveryCutoff (s : State) : Host.Outcome State Fault Refusal := fin s (deliveryCutoff s)

/-- STEP_END, once the last core has routed its tokens. -/
def stepEndEffect (gcsLow : Bool) (s : State) : State :=
  match s.wc.stage with
  | .ended => if s.clocks.wclk < s.wc.ends.headD 0 then s else finishStep gcsLow s
  | _ => s

/-- STEP_END; under a test instruction the gatehouse sees GCS_N high (R57). -/
def execStepEnd (gcsLow : Bool) (s : State) : Host.Outcome State Fault Refusal :=
  fin s (stepEndEffect (gcsLow && !pinsTested s) s)

def execWindowPublish (s : State) : Host.Outcome State Fault Refusal := fin s (publishHeld s)

/-! ## Bell and loft (R210, R211, R217) -/

/-- The bell action of the oldest firing, once its step has ended and its freeze point has passed. -/
def bellActionEffect (s : State) : State :=
  match s.bell.firings with
  | [] => s
  | f :: fs =>
    if s.clocks.wclk < max f.nominal f.ended then s else takeBellAction f (onBell (fun b => { b with firings := fs }) s)

def execBellAction (s : State) : Host.Outcome State Fault Refusal := fin s (bellActionEffect s)

def execBellAck (s : State) : Host.Outcome State Fault Refusal := fin s (watchmanCommand 0x20A 1 s)

/-- G_LOFT_CTRL with FREEZE or RELEASE beside its present fields. -/
def loftWordWith (l : Loft) (freeze release : Bool) : Word := w32 (packBits [l.ch, l.auto, freeze, release])

def execLoftFreeze (s : State) : Host.Outcome State Fault Refusal :=
  fin s (watchmanCommand 0x214 (loftWordWith s.loft true false) s)

def execLoftRelease (s : State) : Host.Outcome State Fault Refusal :=
  fin s (watchmanCommand 0x214 (loftWordWith s.loft false true) s)

/-! ## Watchman tally and the watchman's clock (R80, R442, R447) -/

def execWatchTallySelect (n : BitVec 3) (src : BitVec 8) (s : State) : Host.Outcome State Fault Refusal :=
  fin s (watchmanCommand (0x240 + n.toNat) (src.setWidth 32) s)

/-- CLR with the present SRC. -/
def execWatchTallyClr (n : BitVec 3) (s : State) : Host.Outcome State Fault Refusal :=
  fin s (watchmanCommand (0x240 + n.toNat) (w32 ((sget 0 s.wtally.sel n.toNat).toNat + 2 ^ 8)) s)

/-- The oldest write on its way reaches the watchman. -/
def landWrite (s : State) : State :=
  match s.wflight with
  | [] => s
  | x :: xs => watchmanWrite x.addr.toNat x.data x.via x.at_ { s with wflight := xs }

def execWriteReachesWatchman (s : State) : Host.Outcome State Fault Refusal := fin s (landWrite s)

def execGrayCountSample (clocks : Nat) (s : State) : Host.Outcome State Fault Refusal := fin s (sampleGray clocks s)

end Sys2Proof.Machine
end

