-- ==== Sys2Proof/Machine/WeftRegs.lean ====
section
/-!
DEFINITION. The weft control region: what each register reads, what a write does there, rings, doorbells, partitions, the weave tables
and the loom tally's selects (R11, R169, R271, R332, R341 to R344, R351, R352, R372, R400, R439, R446, R447, R460).
-/

namespace Sys2Proof.Machine

def d64 (n : Nat) : DWord := BitVec.ofNat 64 n

/-! ## Rings (R341, R342, R344) -/

def ringCfgWord (r : Ring) : Nat := r.size.toNat + flagBit r.en 4 + flagBit r.notify 5 + 2 ^ 32 * r.ndata.toNat
def ringPtrWord (r : Ring) : Nat := r.head.toNat + 2 ^ 32 * r.tail.toNat

/-- RING_CFG changes EN from 0 to 1 with its other fields: the counters start at zero, and an event ring takes what is owed. -/
def enableRing (n : Nat) (d : DWord) (s : State) : State :=
  let r := ringOf s n
  let s1 := putRing n { r with
    size := BitVec.ofNat 4 (field d.toNat 0 4), notify := bitOf d.toNat 5, ndata := BitVec.ofNat 32 (field d.toNat 32 32)
    en := true, head := 0, tail := 0, resv := 0, was := none } s
  if n % 4 = 2 then sendOwed (n / 4) s1 else s1

/-- What a disabled ring has asked for is not fetched when it comes (R342). -/
def dropRingRead (n : Nat) : State → State := onLoom (fun l => { l with reads := l.reads.filter (fun r => match r.what with
  | .ring k _ => k != n
  | _ => true) })

/-- EN from 1 to 0, where the kind allows. -/
def disableRing (n : Nat) (s : State) : State :=
  let r := ringOf s n
  if n % 4 = 1 && (!(jobsOfTenant s (n / 4)).isEmpty || decide (0 < r.resv)) then s else dropRingRead n (putRing n { r with en := false } s)

/-- A write of RING_CFG. -/
def writeRingCfg (n : Nat) (d : DWord) (s : State) : State :=
  let r := ringOf s n
  if r.en then (if bitOf d.toNat 4 then s else disableRing n s)
  else if bitOf d.toNat 4 then enableRing n d s
  else putRing n { r with
    size := BitVec.ofNat 4 (field d.toNat 0 4), notify := bitOf d.toNat 5, ndata := BitVec.ofNat 32 (field d.toNat 32 32) } s

def writeRing (n w : Nat) (d : DWord) (s : State) : State :=
  let r := ringOf s n
  if w = 0 then (if r.en then s else putRing n { r with base := field d.toNat 0 57 / 64 * 64 } s)
  else if w = 1 then writeRingCfg n d s
  else if w = 2 then (if r.en then s else putRing n { r with naddr := field d.toNat 0 57 / 8 * 8 } s)
  else s

def readRing (s : State) (n w : Nat) : Nat :=
  let r := ringOf s n
  if w = 0 then r.base else if w = 1 then ringCfgWord r else if w = 2 then r.naddr else ringPtrWord r

/-- The test of a TAIL doorbell. -/
def tailValid (r : Ring) (t : Word) : Bool :=
  r.en && decide ((t - r.tail).toNat < 2 ^ 31) && decide ((t - r.head).toNat ≤ ringEntries r)

/-- The test of a HEAD doorbell. -/
def headValid (r : Ring) (h : Word) : Bool := r.en && decide ((h - r.head).toNat ≤ (r.tail - r.head).toNat)

def badDoorbell (n : Nat) (v : Word) (s : State) : State := sendEvent (n / 4) evBadDoorbell n v.toNat [] s

/-- A doorbell of a submit or bobbin ring. -/
def ringTail (n : Nat) (v : Word) (s : State) : State :=
  if n % 4 = 1 || n % 4 = 2 then s
  else if tailValid (ringOf s n) v then putRing n { ringOf (noteBell n (ringOf s n).tail s) n with tail := v } s
  else badDoorbell n v s

/-- A doorbell of a completion or event ring; room in an event ring first reports what was lost. -/
def ringHead (n : Nat) (v : Word) (s : State) : State :=
  if n % 4 = 0 || n % 4 = 3 then s
  else if headValid (ringOf s n) v then
    let s1 := putRing n { ringOf (noteBell n (ringOf s n).head s) n with head := v } s
    if n % 4 = 2 then flushLost (n / 4) s1 else s1
  else badDoorbell n v s

/-! ## Doorbell pages (R343) -/

/-- Checkpoints of a tenant that are fetched and not answered; they count as admitted (R428). -/
def ckptsFetched (s : State) (t : Nat) : Nat :=
  (s.loom.fetched.filter (fun f => f.ring == 4 * t + 3 && (leAt f.bytes 0 1 == 1 || leAt f.bytes 0 1 == 2))).length

def tenantStatWord (s : State) (t : Nat) : Nat :=
  let ten := tenantOf s t
  ((jobsOfTenant s t).length + ckptsFetched s t) % 128 + flagBit ten.blocked 7 + flagBit ten.abort 8 + flagBit ten.faulted 9
    + flagBit ten.treset.isSome 10 + 2 ^ 32 * ten.lost.toNat

def writeDoorbell (m t o : Nat) (d : DWord) (s : State) : State :=
  let v := BitVec.ofNat 32 (field d.toNat 0 32)
  if o = 0x000 then ringTail (4 * t) v s
  else if o = 0x008 then ringHead (4 * t + 1) v s
  else if o = 0x010 then ringHead (4 * t + 2) v s
  else if o = 0x018 then ringTail (4 * t + 3) v s
  else if o = 0x020 then hostPower m (BitVec.ofNat 2 (field d.toNat 0 2)) (BitVec.ofNat 8 t) s
  else if o = 0x028 then hostTreset (.doorbell (BitVec.ofNat 8 t) d) s
  else s

def readDoorbell (s : State) (t o : Nat) : Nat :=
  if o < 0x020 && o % 8 = 0 then ringPtrWord (ringOf s (4 * t + o / 8)) else if o = 0x030 then tenantStatWord s t else 0

/-! ## Partitions (R352) -/

def parsePart (d : DWord) : Part :=
  let n := d.toNat
  { row0 := field n 0 4, col0 := field n 4 4, rows := field n 8 4 + 1, cols := field n 12 4 + 1
    banks := BitVec.ofNat 10 (field n 16 10), en := bitOf n 26, warp := BitVec.ofNat 4 (field n 32 4) }

def partWord (p : Part) : Nat :=
  p.row0 + 2 ^ 4 * p.col0 + 2 ^ 8 * (p.rows - 1) + 2 ^ 12 * (p.cols - 1) + 2 ^ 16 * p.banks.toNat + flagBit p.en 26
    + 2 ^ 32 * p.warp.toNat

/-- Whether two partitions share a bank of a tile. -/
def partsMeet (a b : Part) : Bool :=
  decide (a.row0 < b.row0 + b.rows) && decide (b.row0 < a.row0 + a.rows) && decide (a.col0 < b.col0 + b.cols)
    && decide (b.col0 < a.col0 + a.cols) && (a.banks &&& b.banks) != 0

/-- L_PART_RESULT.CODE of a write. -/
def partCode (s : State) (t : Nat) (p : Part) : Nat :=
  if s.loom.drafts.any (fun e => e.2.st != .empty && e.2.tenant == t) then 1
  else if 16 < p.row0 + p.rows || 16 < p.col0 + p.cols then 2
  else if p.en && s.loom.parts.any (fun e => e.1 != t && e.2.en && partsMeet p e.2) then 3 else 0

def writePart (t : Nat) (d : DWord) (s : State) : State :=
  let p := parsePart d
  let code := partCode s t p
  let s1 := onLoom (fun l => { l with partResult := BitVec.ofNat 10 (t + 2 ^ 8 * code) }) s
  if code = 0 then onLoom (fun l => { l with parts := sput .init l.parts t p }) s1 else s1

/-! ## The weave tables (R351, R372) -/

def wentryWord (e : WEntry) (w : Nat) : Nat :=
  if w = 0 then e.start + 2 ^ 32 * e.len
  else e.kind.toNat + 2 ^ 3 * e.id + 2 ^ 13 * e.tenant + flagBit e.shared 21 + 2 ^ 22 * e.banks.toNat

/-- A write to the shadow table, while no swap is in progress. -/
def writeShadow (e w : Nat) (d : DWord) (s : State) : State :=
  let n := d.toNat
  if s.loom.weave.swap ≠ .idle then s
  else
    let x := sget .init s.loom.weave.shadow e
    let y := if w = 0 then { x with start := field n 0 32, len := field n 32 32 }
      else { x with kind := BitVec.ofNat 3 (field n 0 3), id := field n 3 10, tenant := field n 13 8, shared := bitOf n 21
                    banks := BitVec.ofNat 10 (field n 22 10) }
    onWeave (fun w => { w with shadow := sput .init w.shadow e y }) s

def writeWeaveCtrl (d : DWord) (s : State) : State :=
  if s.loom.weave.swap ≠ .idle then s else onWeave (fun w => { w with shadowLc := field d.toNat 0 32 }) s

def swapCode : SwapState → Nat
  | .idle => 0
  | .checking => 1
  | .pending => 2

def weaveSwapWord (w : Weave) : Nat :=
  2 * swapCode w.swap + 2 ^ 4 * w.swapResult.toNat + 2 ^ 8 * w.swapEntry.toNat + 2 ^ 32 * w.swaps.toNat

/-- L_WEAVE_SWAP.GO. -/
def weaveGo (s : State) : State :=
  if s.loom.weave.swap = .idle then onWeave (fun w => { w with swap := .checking }) s
  else onWeave (fun w => { w with swapResult := 4 }) s

/-- The first entry that breaks BOUNDS. -/
def badBounds (w : Weave) : Option Nat :=
  (w.shadow.find? (fun e => !isNoneEntry e.2 && (e.2.len == 0 || decide (w.shadowLc < e.2.start + e.2.len)))).map (·.1)

/-- The lowest-numbered DRAFT entry that overlaps another of its id. -/
def badOverlap (w : Weave) : Option Nat :=
  (w.shadow.find? (fun e => isDraftEntry e.2 && w.shadow.any (fun f => f.1 != e.1 && isDraftEntry f.2 && f.2.id == e.2.id
    && decide (e.2.start < f.2.start + f.2.len) && decide (f.2.start < e.2.start + e.2.len)))).map (·.1)

/-- Result and first offending entry of the checks, in their order. -/
def weaveChecks (w : Weave) : Nat × Nat :=
  if w.shadowLc < 1024 || 2 ^ 31 < w.shadowLc then (2, 0)
  else match badBounds w with
    | some e => (1, e)
    | none => match badOverlap w with
      | some e => (3, e)
      | none => (0, 0)

def weaveChecked (s : State) : State :=
  let w := s.loom.weave
  if w.swap ≠ .checking then s
  else
    let r := weaveChecks w
    onWeave (fun w => { w with
      swap := if r.1 = 0 then .pending else .idle, swapResult := BitVec.ofNat 4 r.1, swapEntry := BitVec.ofNat 10 r.2
      checksEnd := lcOf s }) s

/-! ## The loom tally's selects (R446, R447) -/

def tallySelOf (s : State) (n : Nat) : TallySel := sget .init s.loom.tallySel n
def tallySelWord (e : TallySel) : Nat := e.src.toNat + 2 ^ 8 * e.tenant.toNat + flagBit e.filter 16
def counterWord (c : Counter) : Nat := c.count.toNat + flagBit c.sat 48

/-- A select write: a changed field or CLR clears the count. -/
def writeTallySel (n : Nat) (d : DWord) (s : State) : State :=
  let e : TallySel :=
    { src := BitVec.ofNat 8 (field d.toNat 0 8), tenant := BitVec.ofNat 8 (field d.toNat 8 8), filter := bitOf d.toNat 16 }
  let clear := bitOf d.toNat 17 || e != tallySelOf s n
  onLoom (fun l =>
    let u := { l with tallySel := sput .init l.tallySel n e }
    if clear then clearTally n (lcOf s) e u else u) s

/-! ## Register words -/

def powerStateWord (s : State) : Nat :=
  (loomStateWord s.pwr).toNat % 512 + 2 ^ 16 * s.pwr.epoch.toNat + 2 ^ 32 * badReels s.pwr + 2 ^ 48 * goodTiles s.pwr

def clockWord (c : ClockState) : Nat := c.point.toNat + 2 ^ 4 * c.current.toNat + flagBit c.pending 7
def stretchWord (c : ClockState) : Nat := c.lastGap.toNat + 2 ^ 16 * c.minGap.toNat + flagBit c.overSeen 33
def verifyWord (v : Verify) : Nat :=
  v.result.toNat + flagBit v.busy 8 + 2 ^ 9 * v.id.toNat + 2 ^ 19 * v.tile.toNat + flagBit v.overrun 27 + 2 ^ 32 * v.freeMin.toNat

def draftWord (d : Draft) : Nat :=
  let r := d.resident
  draftStateCode d.st + 2 ^ 8 * (if d.st = .empty then 0 else d.tenant)
    + 2 ^ 16 * (match r with | some v => v.tag.toNat | none => 0) + 2 ^ 32 * (match d.next with | some v => v.tag.toNat | none => 0)
    + 2 ^ 48 * (match r with | some v => v.points.toNat | none => 0) + (match r with | some v => flagBit v.warp 53 | none => 0)

/-- L_READYn: tiles that passed self-test and are not marked failed (R164, R368). -/
def readyWord (s : State) (n : Nat) : Nat := field (s.pwr.tilesOk &&& ~~~ s.loom.failed).toNat (64 * n) 64
def faultedWord (s : State) (n : Nat) : Nat := packBits ((span (64 * n) 64).map (fun t => (tenantOf s t).faulted))

def reelsIn (s : State) (p : SeqState → Bool) : Nat := ((s.loom.seqs.filter (fun e => p e.2.st)).map (fun e => e.2.reels.length)).sum
/-- L_KV_STATE; FREE reads 0 while the loom is at L3 (R332). -/
def kvStateWord (s : State) : Nat :=
  (if s.pwr.st = .l3 then 0 else (freeReels s).length) + 2 ^ 10 * reelsIn s (fun x => x == .opened || x == .closing)
    + 2 ^ 20 * reelsIn s (fun x => x == .returning) + 2 ^ 30 * badReels s.pwr
    + 2 ^ 40 * (s.loom.seqs.filter (fun e => e.2.st != .free)).length

def seqDescWord (q : Seq) : Nat :=
  if q.st = .free then 0 else q.desc.toNat + 2 ^ 41 * q.tenant + 2 ^ 49 * q.reels.length

def seqStateCode : SeqState → Nat
  | .free => 0
  | .opened => 1
  | .closing => 2
  | .returning => 3

/-- Admitted jobs that bind a sequence (R332). -/
def seqJobs (s : State) (q : Nat) : Nat := (s.loom.jobs.filter (fun j =>
  j.binds.any (fun b => b.2 == q) || (match j.ckpt with | some c => c.seqs.contains q | none => false))).length

def seqStatWord (s : State) (q : Nat) : Nat :=
  if (seqOf s q).st = .free then 0 else seqStateCode (seqOf s q).st + 4 * seqJobs s q + flagBit (seqOf s q).poisoned 12

def weftStatWord (w : WeftModule) : Nat :=
  flagBit w.trained 0 + 2 * w.rate.toNat + flagBit w.reversed 3 + 2 ^ 4 * w.retrains.toNat + 2 ^ 20 * w.malformed.toNat

/-- P_MIN (R426). -/
def pMin (s : State) : Nat :=
  let rates := ([0, 1].filter (fun m => (weftOf s m).trained)).map (fun m => rateGT (weftOf s m).rate.toNat)
  if rates.isEmpty then 0 else ceilDiv (65 * currentMHz s) (1500 * rates.foldl min 16)

def bobbinStatWord (s : State) : Nat :=
  let inn := ((openJobs s).map (fun j => match j.ckpt with | some c => c.headIn.length + c.inbound.length | none => 0)).sum
  pMin s + flagBit (decide (s.loom.bobbin.period.toNat < pMin s)) 8 + flagBit (s.loom.jobs.any isCkpt) 9
    + 2 ^ 10 * s.loom.bobbin.lastTenant.toNat + 2 ^ 32 * (outboundHeld s / 1024) + 2 ^ 41 * (inn / 1024)

/-! ## The control region (R339) -/

/-- Whether `a` is word `k` of a bank of `n` words at `base`. -/
def wordIn (a base n : Nat) : Option Nat := if base ≤ a && a < base + 8 * n && a % 8 = 0 then some ((a - base) / 8) else none

/-- Reads below 0x700; L_IDENT stands at 0x000 (R1, log 41). -/
def readCtlLow (s : State) (a : Nat) : Nat :=
  if a = 0x000 then Config.ident.toNat else
  match wordIn a 0x100 4, wordIn a 0x420 4, wordIn a 0x620 2 with
  | some n, _, _ => readyWord s n
  | _, some n, _ => faultedWord s n
  | _, _, some n => weftStatWord (weftOf s n)
  | none, none, none =>
    if a = 0x200 then s.pwr.hostTarget.toNat else if a = 0x208 then powerStateWord s
    else if a = 0x300 then clockWord s.loom.clock else if a = 0x308 then stretchWord s.loom.clock
    else if a = 0x400 then s.loom.draftAddr.toNat else if a = 0x408 then s.loom.loadReg.toNat
    else if a = 0x410 then verifyWord s.loom.verify else if a = 0x418 then s.loom.breach.toNat
    else if a = 0x500 then kvStateWord s else if a = 0x600 then s.loom.now.toNat
    else if a = 0x608 then s.loom.partResult.toNat else 0

/-- Reads from 0x700 to 0x7FFF. -/
def readCtlMid (s : State) (a : Nat) : Nat :=
  if a = 0x700 then s.loom.weave.shadowLc + 2 ^ 32 * s.loom.weave.activeLc else if a = 0x708 then weaveSwapWord s.loom.weave
  else if a = 0x800 then warpCtrlWord s else if a = 0x808 then chainWord s else if a = 0x810 then s.loom.chain.now.toNat
  else if a = 0xA00 then s.loom.bobbin.period.toNat + flagBit s.loom.bobbin.reject 8 else if a = 0xA08 then bobbinStatWord s
  else match wordIn a 0x820 4, wordIn a 0x840 4, wordIn a 0x900 16, wordIn a 0xC00 64, wordIn a 0xE00 64 with
    | some m, _, _, _, _ => warpLatWord s m
    | _, some m, _, _, _ => warpStatWord s m
    | _, _, some n, _, _ => (sget 0 s.loom.chain.follow n).toNat
    | _, _, _, some n, _ => tallySelWord (tallySelOf s n)
    | _, _, _, _, some n => counterWord (tallyRead s n)
    | _, _, _, _, _ => 0

/-- Reads of the tables. -/
def readCtlHigh (s : State) (a : Nat) : Nat :=
  match wordIn a 0x8000 1024, wordIn a 0xA000 256, wordIn a 0xA800 256, wordIn a 0xB000 256, wordIn a 0xB800 256 with
  | some d, _, _, _, _ => draftWord (draftOf s d)
  | _, some q, _, _, _ => seqDescWord (seqOf s q)
  | _, _, some q, _, _ => seqStatWord s q
  | _, _, _, some t, _ => partWord (partOf s t)
  | _, _, _, _, some t => tenantStatWord s t
  | _, _, _, _, _ =>
    match wordIn a 0xC000 2048, wordIn a 0x10000 2048, wordIn a 0x100000 4096 with
    | some n, _, _ => wentryWord (sget .init s.loom.weave.shadow (n / 2)) (n % 2)
    | _, some n, _ => wentryWord (activeEntry s (n / 2)) (n % 2)
    | _, _, some n => readRing s (n / 4) (n % 4)
    | _, _, _ => 0

/-- A read of the control region or a doorbell page. -/
def weftRead (s : State) (a : Nat) : DWord :=
  d64 (if a < 0x700 then readCtlLow s a else if a < 0x8000 then readCtlMid s a else if a < 0x400000 then readCtlHigh s a
    else if 0x1000000 ≤ a && a < 0x1100000 then readDoorbell s (a / 4096 % 256) (a % 4096) else 0)

/-! ## Writes -/

/-- Writes below 0x8000. -/
def writeCtlLow (m a : Nat) (d : DWord) (owner : BitVec 8) (s : State) : State :=
  let n := d.toNat
  if a = 0x200 then hostPower m (BitVec.ofNat 2 (field n 0 2)) owner s
  else if a = 0x300 then writePoint (BitVec.ofNat 3 (field n 0 3)) s
  else if a = 0x308 then
    let s1 := if bitOf n 32 then clearStretch s else s
    if bitOf n 33 then onClock (fun c => { c with overSeen := false }) s1 else s1
  else if a = 0x400 then onLoom (fun l => { l with draftAddr := BitVec.ofNat 57 (field n 0 57 / 64 * 64) }) s
  else if a = 0x408 then writeDraftLoad d s
  else if a = 0x410 then
    (if bitOf n 27 then onLoom (fun l => { l with verify := { l.verify with overrun := false } }) s else s)
  else if a = 0x610 then hostTreset (.register d) s
  else if a = 0x700 then writeWeaveCtrl d s
  else if a = 0x708 then (if bitOf n 0 then weaveGo s else s)
  else if a = 0x800 then writeWarpCtrl d s
  else if a = 0x808 then writeChain d s
  else if a = 0xA00 then writeBobbinCtrl d s
  else match wordIn a 0x900 16, wordIn a 0xC00 64 with
    | some k, _ => writeFollow k d s
    | _, some k => writeTallySel k d s
    | _, _ => s

def writeCtlHigh (a : Nat) (d : DWord) (s : State) : State :=
  match wordIn a 0xB000 256, wordIn a 0xC000 2048, wordIn a 0x100000 4096 with
  | some t, _, _ => writePart t d s
  | _, some k, _ => writeShadow (k / 2) (k % 2) d s
  | _, _, some k => writeRing (k / 4) (k % 4) d s
  | _, _, _ => s

/-- A write of the control region or a doorbell page on a module; nothing is written while the region is unreachable (R340). -/
def weftWrite (m a : Nat) (d : DWord) (owner : BitVec 8) (s : State) : State :=
  if !loomReachable s.pwr then s
  else if a < 0x8000 then writeCtlLow m a d owner s
  else if a < 0x400000 then writeCtlHigh a d s
  else if 0x1000000 ≤ a && a < 0x1100000 then writeDoorbell m (a / 4096 % 256) (a % 4096) d s
  else s

/-! ## Commands -/

/-- REGISTER_WRITE of either side (R10). -/
def registerWriteEffect (w : RegWrite) (s : State) : State :=
  match w with
  | .gate a d via => fromGate (commitWord a.toNat d via) s
  | .weft a d owner => hostPosts (some owner.toNat) (weftWrite (moduleFor s owner.toNat) a.toNat d owner) s

def execRegisterWrite (w : RegWrite) (s : State) : Host.Outcome State Fault Refusal := fin s (registerWriteEffect w s)

def execDoorbellTail (ring : BitVec 10) (value : Word) (s : State) : Host.Outcome State Fault Refusal :=
  fin s (hostPosts (some (ring.toNat / 4)) (ringTail ring.toNat value) s)
def execDoorbellHead (ring : BitVec 10) (value : Word) (s : State) : Host.Outcome State Fault Refusal :=
  fin s (hostPosts (some (ring.toNat / 4)) (ringHead ring.toNat value) s)

/-- RING_ENABLE: a write of RING_CFG with EN 1. -/
def execRingEnable (ring : BitVec 10) (cfg : DWord) (s : State) : Host.Outcome State Fault Refusal :=
  fin s (hostPosts none (writeRingCfg ring.toNat (d64 (setField cfg.toNat 4 1 1))) s)

/-- RING_DISABLE: a write of RING_CFG with EN 0. -/
def execRingDisable (ring : BitVec 10) (cfg : DWord) (s : State) : Host.Outcome State Fault Refusal :=
  fin s (hostPosts none (writeRingCfg ring.toNat (d64 (setField cfg.toNat 4 1 0))) s)

def execPartitionWrite (t : BitVec 8) (data : DWord) (s : State) : Host.Outcome State Fault Refusal :=
  fin s (hostPosts none (writePart t.toNat data) s)

def execWeaveSwap (s : State) : Host.Outcome State Fault Refusal := fin s (hostPosts none weaveGo s)
def execWeaveCheckDone (s : State) : Host.Outcome State Fault Refusal := fin s (if loomReachable s.pwr then weaveChecked s else s)

def execLoomTallySelect (n : BitVec 6) (data : DWord) (s : State) : Host.Outcome State Fault Refusal :=
  fin s (hostPosts none (writeTallySel n.toNat data) s)

/-- A write of CLR with the select unchanged. -/
def execLoomTallyClr (n : BitVec 6) (s : State) : Host.Outcome State Fault Refusal :=
  fin s (hostPosts none (fun s => writeTallySel n.toNat (d64 (tallySelWord (tallySelOf s n.toNat) + 2 ^ 17)) s) s)

end Sys2Proof.Machine
end

