-- ==== Sys2Proof/Machine/Aperture.lean ====
section
/-!
DEFINITION. The tile-memory and KV apertures: where an access falls, when it may be applied, and one row of it (R253 to R255, R260,
R316, R317, R329, R466, R467).
-/

namespace Sys2Proof.Machine

/-! ## Where an access falls (R253, R316) -/

/-- What one row of an aperture access touches. -/
inductive Place where
  | bank (t k b : Nat)
  | reel (q x b : Nat)
  | slots (q n : Nat)
  | nothing
deriving DecidableEq, Repr

def tileBase : Nat := 0x100000000
def kvBase : Nat := 0x200000000
/-- An address of the tile-memory aperture. -/
def inTileAperture (a : Nat) : Bool := decide (tileBase ≤ a) && decide (a < 0x104000000)
/-- An address of the KV aperture. -/
def inKvAperture (a : Nat) : Bool := decide (kvBase ≤ a) && decide (a < 0x400000000)

/-- Bytes of an access that have been applied already: a read has gathered them, a write has shed them. -/
def doneBytes (w : Waiting) : Nat := if w.isRead then w.data.length else w.size - w.data.length

/-- Bytes of one row access. -/
def rowBytes (w : Waiting) : Nat := if w.size = 8 then 8 else 64

/-- The place of an address. -/
def placeAt (a : Nat) : Place :=
  if inTileAperture a then
    let o := a - tileBase
    let k := o / 0x4000 % 16
    if k < Config.tileBanks then .bank (o / 0x40000) k (o % 0x4000) else .nothing
  else if inKvAperture a then
    let o := a - kvBase
    let i := o % 0x2000000
    if i < 0x1000000 then .reel (o / 0x2000000) (i / Config.reelBytes) (i % Config.reelBytes)
    else .slots (o / 0x2000000) ((i - 0x1000000) / 8)
  else .nothing

def placeOf (w : Waiting) : Place := placeAt (w.addr + doneBytes w)

/-- Whether two accesses meet on one bank or reel, where the older goes first. -/
def samePlace : Place → Place → Bool
  | .bank t k _, .bank u l _ => t == u && k == l
  | .reel q x _, .reel r y _ => q == r && x == y
  | .slots q _, .slots r _ => q == r
  | _, _ => false

/-! ## When it may be applied (R253 to R255, R317) -/

/-- The tenant whose partition owns a bank. -/
def bankTenant (s : State) (t k : Nat) : Option Nat :=
  (s.loom.parts.find? (fun e => e.2.en && inRect e.2.row0 e.2.col0 e.2.rows e.2.cols t && e.2.banks.getLsbD k)).map (·.1)

/-- Whether a tile runs the idle pattern in a slot in this lc: the whole slot idles, or the tile does so after a breach or a
damaged bundle (R253, R263, R266). -/
def idlesIn (s : State) (t : Nat) (x : Slot) : Bool :=
  let y := tileOf s t
  !isPass x || (y.slot == some x.entry && (y.run == .idle || (match y.stopAt with | some n => decide (n ≤ lcOf s) | none => false)))

/-- Whether a slot lets an access to a bank of its draft through in this lc: a window of its pass, or the idle pattern. -/
def slotLets (s : State) (t k : Nat) (isRead : Bool) (x : Slot) : Bool :=
  match slotVersion s x with
  | none => false
  | some v => inVersion v t && v.banks.getLsbD k && decide (x.start ≤ lcOf s) && decide (lcOf s < slotEnd s x)
      && (idlesIn s t x || (windowsAt v (lcOf s - passStart x)).any (fun w =>
        w.banks.getLsbD k && w.dir.getLsbD (if isRead then 0 else 1)))

/-- Whether a checkpoint's move of this lc takes a reel. -/
def moveTakes (s : State) (r : Nat) : Bool :=
  s.loom.jobs.any (fun j => j.ended.isNone && (match j.ckpt with
    | some c => c.moves.contains (lcOf s) && (match blockAt s c (c.moved / 64) with
      | .reel q x _ => ((seqOf s q).reels[x]?) == some r
      | _ => false)
    | none => false))

/-- Whether one row of an access may be applied in this lc: no entry owns the bank (R262), and the bank or the reel has an access left
(R232, R309). -/
def mayApply (s : State) (isRead : Bool) : Place → Bool
  | .bank t k _ =>
    mesochronousRuns s && !bankBusy s (bankKey t k) && !entryOwns s t k
      && ((bankTenant s t k).isNone || s.loom.weave.slots.any (slotLets s t k isRead))
  | .reel q x _ =>
    mesochronousRuns s && (match (seqOf s q).reels[x]? with
      | some r => !engineOwned s r && !reelBusy s r (!isRead) && !moveTakes s r
      | none => true)
  | .slots _ _ => mesochronousRuns s
  | .nothing => true

/-! ## One row -/

/-- Upsets a command reports in the words of one row. -/
def upsetsIn (ups : Upsets) (a n : Nat) : Upsets := ups.filter (fun e => decide (a / 8 ≤ e.1) && decide (e.1 < a / 8 + n / 8))

/-- A metadata word as a read finds it; an uncorrectable one clears its slot and reads zero (R329). -/
def readSlotWord (q l j : Nat) (s : State) : Nat × State :=
  let bad := upsetOf s.loom.kvUp (metaKey q l j (descW (seqOf s q).desc)) == some .uncorrectable
  let s1 := readSlotMeta q l j s
  (if bad then 0 else metaWord (kvSlotOf (laneOf (seqOf s1 q) l) j), s1)

/-- Metadata words `[n, n + k)` of a sequence's window. -/
def readSlotWords (q n : Nat) : Nat → State → List Byte × State
  | 0, s => ([], s)
  | k + 1, s =>
    let sq := seqOf s q
    let w := descW sq.desc
    let r := if n / w < laneCount sq.desc then readSlotWord q (n / w) (n % w) s else (0, s)
    let rest := readSlotWords q (n + 1) k r.2
    (toLe 8 r.1 ++ rest.1, rest.2)

/-- A reel row, zero where its slot is not valid. -/
def readReelRow (q x b n : Nat) (ups : Upsets) (s : State) : List Byte × State :=
  let sq := seqOf s q
  match slotAt sq x b with
  | none => (List.replicate n 0, s)
  | some (l, j) =>
    if !(kvSlotOf (laneOf sq l) j).valid then (List.replicate n 0, s)
    else
      let a := Config.reelBytes * ((sq.reels[x]?).getD 0) + b
      let s1 := useReel (((sq.reels[x]?).getD 0)) false (onLoom (fun o => { o with kvUp := addUpsets o.kvUp (upsetsIn ups a n) }) s)
      (peekRow s1.loom.kv s1.loom.kvUp a n, (kvWordsRead q (a / 8) (n / 8) s1).2)

/-- The bytes of one row, and the books of reading it. -/
def readPlace (p : Place) (n : Nat) (ups : Upsets) (s : State) : List Byte × State :=
  match p with
  | .bank t k b =>
    let s1 := useBank (bankKey t k) s
    let r := readBankRow t k (b / 64) (bankTenant s t k) ups s1
    (slice r.1 (b % 64) n, r.2.2)
  | .reel q x b => if seqServes (seqOf s q) then readReelRow q x b n ups s else (List.replicate n 0, s)
  | .slots q i => if seqServes (seqOf s q) then readSlotWords q i (n / 8) s else (List.replicate n 0, s)
  | .nothing => (List.replicate n 0, s)

/-- One row, or one word of it, is written with fresh check bits. -/
def writePlace (p : Place) (data : List Byte) (s : State) : State :=
  match p with
  | .bank t k b =>
    let a := bankKey t k * Config.tileBank + b
    onLoom (fun l => { l with banks := mwrite l.banks a data, bankUp := clearUpsets l.bankUp (a / 8) (data.length / 8) })
      (useBank (bankKey t k) s)
  | .reel q x b =>
    let sq := seqOf s q
    if !seqServes sq || (slotAt sq x b).isNone then s
    else
      let a := Config.reelBytes * ((sq.reels[x]?).getD 0) + b
      useReel ((sq.reels[x]?).getD 0) true
        (onLoom (fun l => { l with kv := mwrite l.kv a data, kvUp := clearUpsets l.kvUp (a / 8) (data.length / 8) }) s)
  | _ => s

end Sys2Proof.Machine
end

