-- ==== Sys2Proof/Machine/Weft.lean ====
section
/-!
DEFINITION. The weft link: training, flits, acknowledgement, the inbound queue and the park, and what READ_RESP does (R254, R333 to R340,
R365, R367, R369, R467).
-/

namespace Sys2Proof.Machine

def modWeft (m : Nat) (f : WeftModule → WeftModule) (s : State) : State := putWeft m (f (weftOf s m)) s

/-! ## Idle flits and acknowledgement (R335) -/

/-- An idle flit carries ACK 1 or 2; with 128 flits unacknowledged none can leave. -/
def sendIdle (m : Nat) (ack : BitVec 2) (s : State) : State :=
  let x : DevTxn := { kind := .idle, addr := 0, data := [], len := 0, tag := 0, tenant := 0, what := .nothing }
  if maySend s m x then sendFlit m ack x s else s

/-- Whether a flit of sequence number `q` lies beyond ACKSEQ. -/
def beyondAck (seq q : BitVec 12) : Bool := decide (2048 ≤ (seq - q).toNat)

/-- Flits up to ACKSEQ leave the replay buffer; one that leaves is progress for the NAK count (R336). -/
def ackReplay (seq : BitVec 12) (w : WeftModule) : WeftModule :=
  { w with replay := w.replay.filter (fun e => beyondAck seq e.1), flits := w.flits.filter (fun e => beyondAck seq e.1)
           nakFor := if w.replay.all (fun e => beyondAck seq e.1) then w.nakFor else none }

/-- A NAK is acted on while flits are unacknowledged: they are resent as they stand, counted in WEFT_REPLAYS. -/
def takeNak (m : Nat) (seq : BitVec 12) (s : State) : State :=
  let w := weftOf s m
  if w.replay.isEmpty then s
  else
    let n := match w.nakFor with
      | some (q, k) => if q = seq then k + 1 else 1
      | none => 1
    loomTally 0x4D none 1 (putWeft m { w with nakFor := some (seq, n) } s)

/-! ## Reads of the device (R338, R367) -/

/-- The consumer of a read: responses reach it in the order in which it asked. -/
def consumer : ReadFor → Nat
  | .ring n _ => n
  | .image _ => 1024
  | .checkpoint j _ _ => 1025 + j

/-- The first read whose data is in and whose consumer waits for no earlier one. -/
def firstReady : List DevRead → List Nat → Option (DevRead × List Byte)
  | [], _ => none
  | r :: rs, blocked =>
    match r.got with
    | some d => if blocked.contains (consumer r.what) then firstReady rs blocked else some (r, d)
    | none => firstReady rs (consumer r.what :: blocked)

def dropRead (r : DevRead) : State → State :=
  onLoom (fun l => { l with reads := l.reads.filter (fun x => !(x.tag == r.tag && x.mod == r.mod)) })

/-- The data of a read reaches what asked for it. -/
def consume (r : DevRead) (d : List Byte) (s : State) : State :=
  match r.what with
  | .ring n k => entriesArrived n k d s
  | .image _ => onLoom (fun l => { l with load := l.load.map (fun ld => { ld with buffer := ld.buffer ++ d }) }) s
  | .checkpoint o _ _ => imageArrived o d s

def deliverReads : Nat → State → State
  | 0, s => s
  | k + 1, s => match firstReady s.loom.reads [] with
    | none => s
    | some (r, d) => deliverReads k (consume r d (dropRead r s))

/-- A read fails: its ring is disabled, its load is abandoned, or its checkpoint ends (R367, R436). -/
def readFailed (r : DevRead) (status : Nat) (s : State) : State :=
  let s1 := dropRead r s
  match r.what with
  | .ring n _ => sendEvent (n / 4) evRingError n status [] (putRing n { ringOf s1 n with en := false } s1)
  | .image _ => abandonLoad s1
  | .checkpoint o _ _ => failCkpt o 0x21 4 none s1

/-- READ_RESP; a response to no outstanding read is dropped. -/
def readResponse (m tag status : Nat) (data : List Byte) (s : State) : State :=
  match s.loom.reads.find? (fun r => r.tag == tag && r.mod == m && r.got.isNone) with
  | none => s
  | some r =>
    if status ≠ 0 then readFailed r status s
    else
      let s1 := onLoom (fun l => { l with reads := l.reads.map (fun x =>
        if x.tag = tag ∧ x.mod = m then { x with got := some (slice data 0 r.len) } else x) }) s
      deliverReads s1.loom.reads.length s1

/-! ## The inbound queue (R254, R338 to R340, R467) -/

def inControl (a : Nat) : Bool := decide (a < 0x400000) || (decide (0x1000000 ≤ a) && decide (a < 0x1100000))

def zeros (n : Nat) : List Byte := List.replicate n 0

/-- The head has left the queue; a posted write gives its credit back. -/
def popHead (m : Nat) (x : HostTxn) : State → State :=
  modWeft m (fun w => { w with inq := w.inq.drop 1, oweP := w.oweP + (if x.isRead then 0 else 1) })

/-- A READ is answered and gives its credit back. -/
def answerHost (m tag status owner : Nat) (data : List Byte) (s : State) : State :=
  answerRead m tag status owner data (modWeft m (fun w => { w with oweN := w.oweN + 1 }) s)

def parkTxn (m : Nat) (x : HostTxn) (s : State) : State :=
  modWeft m (fun w => { w with park := w.park ++ [{
    isRead := x.isRead, kv := inKvAperture x.addr, addr := x.addr, size := x.size, data := x.data, tag := x.tag, owner := x.owner
    since := nowOf s, lc := lcOf s }] }) s

/-- An entry that the queue's SECDED cannot correct is discarded at the head; a READ of it is never answered (R467). -/
def dropBad (m : Nat) (isRead : Bool) (owner : Nat) (s : State) : State :=
  sendEvent owner evPostedDropped 0 1 [] (loomTally 0x4E (some owner) 1
    (if isRead then modWeft m (fun w => { w with oweN := w.oweN + 1 }) s else s))

/-- A READ at the head. -/
def serveRead (m : Nat) (x : HostTxn) (s : State) : State :=
  if !loomReachable s.pwr then answerHost m x.tag 1 x.owner (zeros x.size) s
  else if inControl x.addr && x.size == 8 then answerHost m x.tag 0 x.owner (toLe 8 (weftRead s x.addr).toNat) s
  else if inTileAperture x.addr || inKvAperture x.addr then parkTxn m x s
  else answerHost m x.tag 3 x.owner (zeros x.size) s

/-- A write at the head. -/
def serveWrite (m : Nat) (x : HostTxn) (s : State) : State :=
  if !loomReachable s.pwr then s
  else if inControl x.addr && x.size == 8 then weftWrite m x.addr (d64 (ofLe x.data)) (BitVec.ofNat 8 x.owner) s
  else if inTileAperture x.addr || inKvAperture x.addr then parkTxn m x s
  else s

/-- An aperture write waits at the head while 32 writes are parked. -/
def headWaits (s : State) (m : Nat) (x : HostTxn) : Bool :=
  !x.isRead && loomReachable s.pwr && (inTileAperture x.addr || inKvAperture x.addr)
    && decide (32 ≤ ((weftOf s m).park.filter (fun w => !w.isRead)).length)

/-- The queue is served from its head, in order. -/
def serveQueue : Nat → Nat → State → State
  | 0, _, s => s
  | k + 1, m, s =>
    match (weftOf s m).inq with
    | [] => s
    | x :: _ =>
      if x.bad then serveQueue k m (dropBad m x.isRead x.owner (popHead m x s))
      else if headWaits s m x then s
      else serveQueue k m (if x.isRead then serveRead m x (popHead m x s) else serveWrite m x (popHead m x s))

def serve (m : Nat) (s : State) : State := serveQueue (weftOf s m).inq.length m s

/-! ## What a read of a queue or park entry finds (R120, R465, R467)

An entry's words, from key `b` of the upsets on: 0 holds the address, 1 to 24 the data, 25 TAG in [11:0] and OWNER in [23:16]
(log 31). -/

def entryBad (ups : Upsets) (b : Nat) : Bool :=
  ups.any (fun e => decide (b ≤ e.1) && decide (e.1 < b + 26) && e.2 == .uncorrectable)

/-- The wrong word that a read returns for more than two bad bits, reported as corrected or not at all. -/
def wrongWord (ups : Upsets) (k : Nat) : Option Nat :=
  match upsetOf ups k with
  | some (.miscorrected v) => some v.toNat
  | some (.silent v) => some v.toNat
  | _ => none

/-- The address as read; an entry holds none of the bits below its access. -/
def addrRead (ups : Upsets) (b size addr : Nat) : Nat :=
  match wrongWord ups b with
  | some v => v % 2 ^ 57 - v % min size 64
  | none => addr

/-- Data from word `first` of the entry's data on, as read. -/
def dataRead (ups : Upsets) (b first : Nat) (data : List Byte) : List Byte :=
  (span 0 (data.length / 8)).flatMap (fun k => match wrongWord ups (b + 1 + first + k) with
    | some v => toLe 8 v
    | none => slice data (8 * k) 8)

def tagRead (ups : Upsets) (b tag : Nat) : Nat :=
  match wrongWord ups (b + 25) with
  | some v => v % 4096
  | none => tag

def ownerRead (ups : Upsets) (b owner : Nat) : Nat :=
  match wrongWord ups (b + 25) with
  | some v => v / 65536 % 256
  | none => owner

def queueEntry (ups : Upsets) (b : Nat) (x : HostTxn) : HostTxn :=
  { x with addr := addrRead ups b x.size x.addr, data := dataRead ups b 0 x.data, tag := tagRead ups b x.tag
           owner := ownerRead ups b x.owner, bad := entryBad ups b }

/-- A park entry: what a read has gathered so far does not stand in it, and a write's done rows are shed. -/
def parkEntry (ups : Upsets) (b : Nat) (x : Waiting) : Waiting :=
  { x with addr := addrRead ups b x.size x.addr, data := if x.isRead then x.data else dataRead ups b (doneBytes x / 8) x.data
           tag := tagRead ups b x.tag, owner := ownerRead ups b x.owner }

/-! ## Accepting a transaction (R334, R337) -/

/-- Whether the host holds a credit of a transaction's class (R337). -/
def hasCredit (w : WeftModule) (isRead : Bool) : Bool := (if isRead then w.devNonposted else w.devPosted) != 0

/-- A transaction takes a credit of its class (R337). -/
def takeCredit (isRead : Bool) (w : WeftModule) : WeftModule :=
  { w with devPosted := w.devPosted - (if isRead then 0 else 1), devNonposted := w.devNonposted - (if isRead then 1 else 0) }

/-- A transaction that is discarded as it comes takes its credit and gives it back (R337). -/
def passCredit (isRead : Bool) (w : WeftModule) : WeftModule :=
  let v := takeCredit isRead w
  { v with oweP := v.oweP + (if isRead then 0 else 1), oweN := v.oweN + (if isRead then 1 else 0) }

/-- A discarded malformed transaction is counted; a READ is answered (R334). -/
def malformed (m : Nat) (isRead : Bool) (tag owner size : Nat) (s : State) : State :=
  let s1 := modWeft m (fun w => { w with malformed := satAdd w.malformed 1 }) s
  if isRead then answerRead m tag 4 owner (zeros size) s1 else s1

/-- A WRITE or a READ that is malformed by its fields takes a credit of its class, where the host holds one (R337). -/
def malformedTxn (m : Nat) (isRead : Bool) (tag owner size : Nat) (s : State) : State :=
  malformed m isRead tag owner size
    (modWeft m (fun w => if hasCredit w isRead then passCredit isRead w else w) s)

/-- The address rules of R334. -/
def goodAddr (a size : Nat) : Bool := decide (a % (min size 64) = 0) && decide (a % 4096 + size ≤ 4096)

/-- A well-formed host-to-device WRITE or READ arrives. -/
def acceptTxn (m : Nat) (x : HostTxn) (s : State) : State :=
  let w := weftOf s m
  if !hasCredit w x.isRead then malformed m x.isRead x.tag x.owner x.size s
  else if !x.isRead && s.pwr.drained then dropPosted m x.owner (modWeft m (passCredit false) s)
  else serve m (putWeft m (takeCredit x.isRead { w with inq := w.inq ++ [x] }) s)

/-- A host WRITE as a command gives it. -/
def hostWrite (m addr owner : Nat) (data : List Byte) (s : State) : State :=
  let n := data.length
  if !(weftOf s m).trained then s
  else if !(n == 8 || n == 64 || n == 128 || n == 192) || !goodAddr addr n then malformedTxn m false 0 owner n s
  else acceptTxn m { isRead := false, addr := addr, size := n, data := data, tag := 0, owner := owner, bad := false } s

def sizeBytes (c : Nat) : Nat := if c % 4 = 0 then 8 else 64 * (c % 4)

/-- A host READ as a command gives it. -/
def hostRead (m addr size tag owner : Nat) (s : State) : State :=
  let n := sizeBytes size
  if !(weftOf s m).trained then s
  else if !goodAddr addr n then malformedTxn m true tag owner n s
  else acceptTxn m { isRead := true, addr := addr, size := n, data := [], tag := tag, owner := owner, bad := false } s

/-! ## Flits (R334, R335) -/

/-- The flit's CRC matches. -/
def flitIntact (b : List Byte) : Bool := b.length == 256 && leAt b 56 8 == crc64 (b.take 56 ++ b.drop 64)
def flitSeq (b : List Byte) : BitVec 12 := BitVec.ofNat 12 (field (leAt b 0 8) 0 12)
def flitAckSeq (b : List Byte) : BitVec 12 := BitVec.ofNat 12 (field (leAt b 0 8) 12 12)
def flitAck (b : List Byte) : Nat := field (leAt b 0 8) 24 2
def flitTxns (b : List Byte) : Nat := field (leAt b 0 8) 26 2

/-- Transaction `i` of a flit. Upsets `32 i` to `32 i + 25` are those that a read of its queue entry finds. -/
def flitTxn (m : Nat) (b : List Byte) (ups : Upsets) (i : Nat) (s : State) : State :=
  let h := slice b (8 + 16 * i) 16
  let kind := leAt h 0 1
  let g := field (leAt h 1 1) 0 2
  let n := sizeBytes (field (leAt h 1 1) 2 2)
  let tag := field (leAt h 2 2) 0 12
  let owner := leAt h 4 1
  let addr := field (leAt h 8 8) 0 57
  let data := slice b (64 + 64 * g) n
  let fits := decide (g + ceilDiv n 64 ≤ 3)
  if kind = 1 then
    if fits && goodAddr addr n then
      acceptTxn m (queueEntry ups (32 * i)
        { isRead := false, addr := addr, size := n, data := data, tag := 0, owner := owner, bad := false }) s
    else malformedTxn m false tag owner n s
  else if kind = 2 then
    if goodAddr addr n then
      acceptTxn m (queueEntry ups (32 * i)
        { isRead := true, addr := addr, size := n, data := [], tag := tag, owner := owner, bad := false }) s
    else malformedTxn m true tag owner n s
  else if kind = 3 then
    if fits then readResponse m tag (field (leAt h 1 1) 4 4) data s else malformed m false tag owner n s
  else malformed m false tag owner n s

/-- The link header of an accepted flit: its sequence number, its credits and its acknowledgement. -/
def flitHeader (m : Nat) (b : List Byte) (s : State) : State :=
  let h := leAt b 0 8
  let s1 := modWeft m (fun w => { w with
    rxSeq := flitSeq b, dropping := false, rxSince := w.rxSince + 1
    hostPosted := w.hostPosted + field h 28 8, hostNonposted := w.hostNonposted + field h 36 8 }) s
  if flitAck b = 1 then modWeft m (ackReplay (flitAckSeq b)) s1
  else if flitAck b = 2 then takeNak m (flitAckSeq b) (modWeft m (ackReplay (flitAckSeq b)) s1)
  else s1

/-- A flit that is damaged or out of order: a NAK, then flits out of order are discarded until the missing one; a damaged one
draws a further NAK (R335, R468). -/
def flitRejected (m : Nat) (b : List Byte) (s : State) : State :=
  if (weftOf s m).dropping && flitIntact b then s
  else modWeft m (fun w => { w with dropping := true }) (sendIdle m 2 s)

/-- FLIT_RECEIVE. -/
def flitEffect (m : Nat) (b : List Byte) (ups : Upsets) (s : State) : State :=
  let w := weftOf s m
  if !w.trained then s
  else if !flitIntact b || flitSeq b != w.rxSeq + 1 then flitRejected m b s
  else
    let s1 := (span 0 (flitTxns b)).foldl (fun s i => flitTxn m b ups i s) (flitHeader m b s)
    let s2 := pump (1 - m) (pump m s1)
    if 32 ≤ (weftOf s2 m).rxSince then sendIdle m 1 s2 else s2

/-! ## Training and retraining (R333, R336, R337) -/

/-- Traffic that a module which has trained takes over: all that waits on the other one while that is untrained, else what waits
there for the tenants it is home to. What waits on it for a tenant away from home is older than what the home took since (R338). -/
def takeOver (m : Nat) (s : State) : State :=
  let w := weftOf s m
  let o := weftOf s (1 - m)
  let goes := fun (x : DevTxn) => isOwnTxn x && (!o.trained || x.tenant % 2 == m)
  let merge := fun (theirs ours : List DevTxn) =>
    (theirs.filter (fun x => goes x && x.tenant % 2 == m)) ++ ours ++ theirs.filter (fun x => goes x && x.tenant % 2 != m)
  let tags := ((o.resent ++ o.txq).filter (fun x => goes x && x.kind == .read)).map (·.tag)
  onLoom (fun l => { l with reads := l.reads.map (fun r =>
      if r.mod = 1 - m && tags.contains r.tag then { r with mod := m } else r) })
    (putWeft (1 - m) { o with resent := o.resent.filter (fun x => !goes x), txq := o.txq.filter (fun x => !goes x) }
      (putWeft m { w with resent := merge o.resent w.resent, txq := merge o.txq w.txq } s))

def trainWeft (m : Nat) (rate : BitVec 2) (reversed : Bool) (posted nonposted : Nat) (s : State) : State :=
  if isPowered s m && !(weftOf s m).trained then
    pump m (takeOver m (modWeft m (fun w => { w with
      trained := true, rate := rate, reversed := reversed, hostPosted := posted, hostNonposted := nonposted }) s))
  else s

/-- Whether a retrain's cause holds; the waits and loss of link are seen outside. -/
def weftCause (w : WeftModule) : WeftRetrainCause → Bool
  | .naks => match w.nakFor with
    | some (_, k) => decide (8 ≤ k)
    | none => false
  | .ackTimeout => !w.replay.isEmpty
  | .linkLoss => true

def retrainWeft (m : Nat) (c : WeftRetrainCause) (s : State) : State :=
  if (weftOf s m).trained && weftCause (weftOf s m) c then linkDown m s else s

/-! ## The park (R253 to R255, R317) -/

def parkAt (s : State) (m i : Nat) : Option Waiting := (weftOf s m).park[i]?
def unpark (m i : Nat) : State → State := modWeft m (fun w => { w with park := w.park.eraseIdx i })
def repark (m i : Nat) (x : Waiting) : State → State := modWeft m (fun w => { w with park := w.park.set i x })

/-- Whether an access to the same bank or reel arrived earlier, on either module; of two of one lc module 0's is first (log 31). -/
def earlierWaits (s : State) (m i : Nat) (x : Waiting) : Bool :=
  let p := placeOf x
  ((weftOf s m).park.take i).any (fun y => samePlace (placeOf y) p)
    || (weftOf s (1 - m)).park.any (fun y => samePlace (placeOf y) p
      && (decide (y.lc < x.lc) || (decide (y.lc = x.lc) && decide (m = 1))))

/-- One row of waiting access `i`, the oldest of its bank or reel. Upsets from word 2^60 on are the park entry's own. -/
def applyWaiting (m i : Nat) (ups : Upsets) (s : State) : State :=
  match parkAt s m i with
  | none => s
  | some y =>
    let x := parkEntry ups (2 ^ 60) y
    let p := placeOf x
    if earlierWaits s m i x || !mayApply s x.isRead p then s
    else if entryBad ups (2 ^ 60) then serve m (dropBad m x.isRead x.owner (unpark m i s))
    else if x.isRead then
      let r := readPlace p (rowBytes x) ups s
      let d := x.data ++ r.1
      if d.length < x.size then repark m i { x with data := d } r.2 else answerHost m x.tag 0 x.owner d (unpark m i r.2)
    else
      let s1 := writePlace p (x.data.take (rowBytes x)) s
      let d := x.data.drop (rowBytes x)
      if d.isEmpty then serve m (unpark m i s1) else repark m i { x with data := d } s1

/-- A read that has waited 2 ms. -/
def apertureTimeout (m i : Nat) (s : State) : State :=
  match parkAt s m i with
  | none => s
  | some x =>
    if x.isRead && decide (x.since + 2000000 ≤ nowOf s) then answerHost m x.tag 2 x.owner (zeros x.size) (unpark m i s) else s

/-! ## Commands -/

def execApertureWrite (m : BitVec 1) (addr : BitVec 57) (data : List Byte) (owner : BitVec 8) (s : State) :
    Host.Outcome State Fault Refusal :=
  fin s (if inTileAperture addr.toNat then hostWrite m.toNat addr.toNat owner.toNat data s else s)
def execApertureRead (m : BitVec 1) (addr : BitVec 57) (size : BitVec 2) (tag : BitVec 12) (owner : BitVec 8) (s : State) :
    Host.Outcome State Fault Refusal :=
  fin s (if inTileAperture addr.toNat then hostRead m.toNat addr.toNat size.toNat tag.toNat owner.toNat s else s)
def execKvApertureWrite (m : BitVec 1) (addr : BitVec 57) (data : List Byte) (owner : BitVec 8) (s : State) :
    Host.Outcome State Fault Refusal :=
  fin s (if inKvAperture addr.toNat then hostWrite m.toNat addr.toNat owner.toNat data s else s)
def execKvApertureRead (m : BitVec 1) (addr : BitVec 57) (size : BitVec 2) (tag : BitVec 12) (owner : BitVec 8) (s : State) :
    Host.Outcome State Fault Refusal :=
  fin s (if inKvAperture addr.toNat then hostRead m.toNat addr.toNat size.toNat tag.toNat owner.toNat s else s)
def execApertureApply (m : BitVec 1) (i : Nat) (upsets : Upsets) (s : State) : Host.Outcome State Fault Refusal :=
  fin s (applyWaiting m.toNat i upsets s)
def execApertureReadTimeout (m : BitVec 1) (i : Nat) (s : State) : Host.Outcome State Fault Refusal :=
  fin s (apertureTimeout m.toNat i s)
def execWeftTrained (m : BitVec 1) (rate : BitVec 2) (reversed : Bool) (posted nonposted : BitVec 8) (s : State) :
    Host.Outcome State Fault Refusal :=
  fin s (trainWeft m.toNat rate reversed posted.toNat nonposted.toNat s)

/-- WEFT_TRAIN_RETRY: an untrained module tries again; nothing that the rules name changes until it is trained (R333). -/
def execWeftTrainRetry (_m : BitVec 1) (s : State) : Host.Outcome State Fault Refusal := fin s s
def execWeftRetrain (m : BitVec 1) (cause : WeftRetrainCause) (s : State) : Host.Outcome State Fault Refusal :=
  fin s (retrainWeft m.toNat cause s)
def execFlitReceive (m : BitVec 1) (bytes : List Byte) (upset : Upsets) (s : State) : Host.Outcome State Fault Refusal :=
  fin s (flitEffect m.toNat bytes upset s)

/-- READ_RESP on a trained module. -/
def execReadResp (m : BitVec 1) (tag : BitVec 12) (status : BitVec 4) (data : List Byte) (s : State) :
    Host.Outcome State Fault Refusal :=
  fin s (if (weftOf s m.toNat).trained then readResponse m.toNat tag.toNat status.toNat data s else s)

/-- ACK_INTERVAL: 1 µs has passed with nothing sent (R335). -/
def execAckInterval (m : BitVec 1) (s : State) : Host.Outcome State Fault Refusal := fin s (sendIdle m.toNat 1 s)

end Sys2Proof.Machine
end

