-- ==== Sys2Proof/Machine/Dispatch.lean ====
section
/-!
DEFINITION. The meaning of each command, one arm per constructor of `Instr`.
-/

namespace Sys2Proof.Machine

def exec (i : Instr) (s : State) : Host.Outcome State Fault Refusal :=
  match i with
  -- power-on reset (R46)
  | .por => Sys2Proof.Machine.execPor s
  | .porRelease rails straps => Sys2Proof.Machine.execPorRelease rails straps s
  -- gate frames
  | .read addr n extra => Sys2Proof.Machine.execRead addr n extra s
  | .windowRead n extra => Sys2Proof.Machine.execWindowRead n extra s
  | .tallyLoRead n => Sys2Proof.Machine.execTallyLoRead n s
  | .write addr data extra => Sys2Proof.Machine.execWrite addr data extra s
  | .registerWrite w => Sys2Proof.Machine.execRegisterWrite w s
  | .sealedWrite field data ctr tag extra => Sys2Proof.Machine.execSealedWrite field data ctr tag extra s
  | .lockoutEnd => Sys2Proof.Machine.execLockoutEnd s
  | .unknownCommand code arg ctr tag extra => Sys2Proof.Machine.execUnknownCommand code arg ctr tag extra s
  | .commit arg ctr tag mon extra => Sys2Proof.Machine.execCommit arg ctr tag mon extra s
  | .reserve arg ctr tag mon extra => Sys2Proof.Machine.execReserve arg ctr tag mon extra s
  | .keyPart k arg ctr tag extra => Sys2Proof.Machine.execKeyPart k arg ctr tag extra s
  | .keyInstall arg ctr tag extra => Sys2Proof.Machine.execKeyInstall arg ctr tag extra s
  | .keyRetire arg ctr tag extra => Sys2Proof.Machine.execKeyRetire arg ctr tag extra s
  | .keyDecommission arg ctr tag extra => Sys2Proof.Machine.execKeyDecommission arg ctr tag extra s
  | .firstKeyInstall => Sys2Proof.Machine.execFirstKeyInstall s
  | .openGranary finds extra => Sys2Proof.Machine.execOpenGranary finds extra s
  | .status extra => Sys2Proof.Machine.execStatus extra s
  | .ident extra => Sys2Proof.Machine.execIdent extra s
  | .undefinedOpcode op extra => Sys2Proof.Machine.execUndefinedOpcode op extra s
  | .shortFrame f clocks => Sys2Proof.Machine.execShortFrame f clocks s
  | .stageDataWrite data via => Sys2Proof.Machine.execStageDataWrite data via s
  | .stageWinWrite k data via => Sys2Proof.Machine.execStageWinWrite k data via s
  -- resets, power and links
  | .gateReset data => Sys2Proof.Machine.execGateReset data s
  | .watchReset data => Sys2Proof.Machine.execWatchReset data s
  | .loomTarget target cut => Sys2Proof.Machine.execLoomTarget target cut s
  | .loomReset => Sys2Proof.Machine.execLoomReset s
  | .gateTenantReset t => Sys2Proof.Machine.execGateTenantReset t s
  | .hostTenantReset r => Sys2Proof.Machine.execHostTenantReset r s
  | .linkOnRequest m => Sys2Proof.Machine.execLinkOnRequest m s
  | .linkOff m => Sys2Proof.Machine.execLinkOff m s
  | .linkPowerUp m => Sys2Proof.Machine.execLinkPowerUp m s
  | .linkRailLoss m rail => Sys2Proof.Machine.execLinkRailLoss m rail s
  | .supplyAbsent a => Sys2Proof.Machine.execSupplyAbsent a s
  | .tenantBlock n data => Sys2Proof.Machine.execTenantBlock n data s
  | .tenantAbort n data => Sys2Proof.Machine.execTenantAbort n data s
  | .blockSampled t => Sys2Proof.Machine.execBlockSampled t s
  | .escCtrlWrite w => Sys2Proof.Machine.execEscCtrlWrite w s
  | .aonclkLock => Sys2Proof.Machine.execAonclkLock s
  | .aonclkLoss => Sys2Proof.Machine.execAonclkLoss s
  | .watchMemoryCleared => Sys2Proof.Machine.execWatchMemoryCleared s
  | .thermAssert => Sys2Proof.Machine.execThermAssert s
  | .thermRelease => Sys2Proof.Machine.execThermRelease s
  | .vddaMicLoss => Sys2Proof.Machine.execVddaMicLoss s
  | .vddaMicReturn => Sys2Proof.Machine.execVddaMicReturn s
  | .supplyLost what => Sys2Proof.Machine.execSupplyLost what s
  | .lsramRunLevel => Sys2Proof.Machine.execLsramRunLevel s
  | .l3ExitStart => Sys2Proof.Machine.execL3ExitStart s
  | .exitPhaseEnd r => Sys2Proof.Machine.execExitPhaseEnd r s
  | .orderingPoint lcs => Sys2Proof.Machine.execOrderingPoint lcs s
  | .hostPowerRequest target tenant => Sys2Proof.Machine.execHostPowerRequest target tenant s
  | .loomMoveDone => Sys2Proof.Machine.execLoomMoveDone s
  | .drainEnd => Sys2Proof.Machine.execDrainEnd s
  -- JTAG (R55-R57)
  | .extest x => Sys2Proof.Machine.execExtest x s
  | .samplePreload bumps preload => Sys2Proof.Machine.execSamplePreload bumps preload s
  | .clamp inFrame => Sys2Proof.Machine.execClamp inFrame s
  | .highz inFrame => Sys2Proof.Machine.execHighz inFrame s
  | .bypass x => Sys2Proof.Machine.execBypass x s
  | .testLogicReset => Sys2Proof.Machine.execTestLogicReset s
  -- front end
  | .channelEnable ch => Sys2Proof.Machine.execChannelEnable ch s
  | .channelDisable ch => Sys2Proof.Machine.execChannelDisable ch s
  | .gainChange ch gain => Sys2Proof.Machine.execGainChange ch gain s
  | .biasedSet ch => Sys2Proof.Machine.execBiasedSet ch s
  | .biasEnable => Sys2Proof.Machine.execBiasEnable s
  | .biasDisable => Sys2Proof.Machine.execBiasDisable s
  | .biasVoltChange volt => Sys2Proof.Machine.execBiasVoltChange volt s
  | .biasRangeChange range => Sys2Proof.Machine.execBiasRangeChange range s
  | .hqPathChange on => Sys2Proof.Machine.execHqPathChange on s
  | .encoderEnable ch => Sys2Proof.Machine.execEncoderEnable ch s
  | .encoderSettings data => Sys2Proof.Machine.execEncoderSettings data s
  | .sensorPortEnable => Sys2Proof.Machine.execSensorPortEnable s
  | .sensorPortDisable => Sys2Proof.Machine.execSensorPortDisable s
  | .sensorSettings w => Sys2Proof.Machine.execSensorSettings w s
  | .sampleTick => Sys2Proof.Machine.execSampleTick s
  | .sensorTransactionEnd bytes => Sys2Proof.Machine.execSensorTransactionEnd bytes s
  | .trimRead => Sys2Proof.Machine.execTrimRead s
  | .rampEnd => Sys2Proof.Machine.execRampEnd s
  | .hdrmChange on => Sys2Proof.Machine.execHdrmChange on s
  | .limitChange on => Sys2Proof.Machine.execLimitChange on s
  | .micbFault => Sys2Proof.Machine.execMicbFault s
  | .faultMuteEnd => Sys2Proof.Machine.execFaultMuteEnd s
  | .zeroMuteEnd ch => Sys2Proof.Machine.execZeroMuteEnd ch s
  | .hopBoundary h => Sys2Proof.Machine.execHopBoundary h s
  -- watch cores, bell and loft
  | .arm => Sys2Proof.Machine.execArm s
  | .disarm => Sys2Proof.Machine.execDisarm s
  | .wcMemDataWrite data => Sys2Proof.Machine.execWcMemDataWrite data s
  | .wcMemWinWrite k data => Sys2Proof.Machine.execWcMemWinWrite k data s
  | .watchStep => Sys2Proof.Machine.execWatchStep s
  | .deliveryCutoff => Sys2Proof.Machine.execDeliveryCutoff s
  | .stepEnd gcsLow => Sys2Proof.Machine.execStepEnd gcsLow s
  | .windowPublish => Sys2Proof.Machine.execWindowPublish s
  | .bellAction => Sys2Proof.Machine.execBellAction s
  | .bellAck => Sys2Proof.Machine.execBellAck s
  | .loftFreeze => Sys2Proof.Machine.execLoftFreeze s
  | .loftRelease => Sys2Proof.Machine.execLoftRelease s
  -- escalation
  | .escalationCopyStart => Sys2Proof.Machine.execEscalationCopyStart s
  | .escalationEntry => Sys2Proof.Machine.execEscalationEntry s
  | .escalationAnswer => Sys2Proof.Machine.execEscalationAnswer s
  | .escalationTimeout => Sys2Proof.Machine.execEscalationTimeout s
  -- drafts, clock point, stretch
  | .draftNew id tenant => Sys2Proof.Machine.execDraftNew id tenant s
  | .draftHot id tenant => Sys2Proof.Machine.execDraftHot id tenant s
  | .draftCold id tenant => Sys2Proof.Machine.execDraftCold id tenant s
  | .draftUnload id tenant => Sys2Proof.Machine.execDraftUnload id tenant s
  | .imageFetch rows => Sys2Proof.Machine.execImageFetch rows s
  | .dmaRow e => Sys2Proof.Machine.execDmaRow e s
  | .tileWalkDone t => Sys2Proof.Machine.execTileWalkDone t s
  | .pointChange point => Sys2Proof.Machine.execPointChange point s
  | .relockDone periods => Sys2Proof.Machine.execRelockDone periods s
  | .stretchClr => Sys2Proof.Machine.execStretchClr s
  | .droopTrip => Sys2Proof.Machine.execDroopTrip s
  | .stretchedCycle => Sys2Proof.Machine.execStretchedCycle s
  -- weave and passes
  | .repeatBoundary => Sys2Proof.Machine.execRepeatBoundary s
  | .slotStart e finds => Sys2Proof.Machine.execSlotStart e finds s
  | .passEnd e => Sys2Proof.Machine.execPassEnd e s
  -- CTL (R234)
  | .next t => Sys2Proof.Machine.execNext t s
  | .loop t iters => Sys2Proof.Machine.execLoop t iters s
  | .endloop t mask => Sys2Proof.Machine.execEndloop t mask s
  | .wait t lcs => Sys2Proof.Machine.execWait t lcs s
  | .waitEnd t => Sys2Proof.Machine.execWaitEnd t s
  | .halt t upsets => Sys2Proof.Machine.execHalt t upsets s
  | .seta t cnt value stride => Sys2Proof.Machine.execSeta t cnt value stride s
  -- banks and mesh
  | .bankRead t k upsets => Sys2Proof.Machine.execBankRead t k upsets s
  | .bankWrite t k => Sys2Proof.Machine.execBankWrite t k s
  | .meshSend t d => Sys2Proof.Machine.execMeshSend t d s
  | .meshDelivery t d => Sys2Proof.Machine.execMeshDelivery t d s
  | .resultReady t => Sys2Proof.Machine.execResultReady t s
  -- MXU (R287)
  | .loadw t row target => Sys2Proof.Machine.execLoadw t row target s
  | .swapw t => Sys2Proof.Machine.execSwapw t s
  | .mac t f => Sys2Proof.Machine.execMac t f s
  | .drain t acc mode dst h => Sys2Proof.Machine.execDrain t acc mode dst h s
  | .corr t wfmt acc ar0 ar1 => Sys2Proof.Machine.execCorr t wfmt acc ar0 ar1 s
  -- VEC (R295)
  | .vecNop t => Sys2Proof.Machine.execVecNop t s
  | .ldq t f => Sys2Proof.Machine.execLdq t f s
  | .ldw t f => Sys2Proof.Machine.execLdw t f s
  | .ldh t f => Sys2Proof.Machine.execLdh t f s
  | .stq t f => Sys2Proof.Machine.execStq t f s
  | .movi t f => Sys2Proof.Machine.execMovi t f s
  | .add t f => Sys2Proof.Machine.execAdd t f s
  | .sub t f => Sys2Proof.Machine.execSub t f s
  | .mul t f => Sys2Proof.Machine.execMul t f s
  | .min t f => Sys2Proof.Machine.execMin t f s
  | .max t f => Sys2Proof.Machine.execMax t f s
  | .and t f => Sys2Proof.Machine.execAnd t f s
  | .or t f => Sys2Proof.Machine.execOr t f s
  | .xor t f => Sys2Proof.Machine.execXor t f s
  | .shl t f => Sys2Proof.Machine.execShl t f s
  | .shr t f => Sys2Proof.Machine.execShr t f s
  | .cmplt t f => Sys2Proof.Machine.execCmplt t f s
  | .cmpeq t f => Sys2Proof.Machine.execCmpeq t f s
  | .sel t f => Sys2Proof.Machine.execSel t f s
  | .perm t f => Sys2Proof.Machine.execPerm t f s
  | .cvt t f => Sys2Proof.Machine.execCvt t f s
  | .fma t f => Sys2Proof.Machine.execFma t f s
  | .rsum t f => Sys2Proof.Machine.execRsum t f s
  | .rmax t f => Sys2Proof.Machine.execRmax t f s
  | .exp t f => Sys2Proof.Machine.execExp t f s
  | .rcp t f => Sys2Proof.Machine.execRcp t f s
  | .rsq t f => Sys2Proof.Machine.execRsq t f s
  -- QNT (R306)
  | .quant t f => Sys2Proof.Machine.execQuant t f s
  | .deq t f => Sys2Proof.Machine.execDeq t f s
  | .cfg0 t f => Sys2Proof.Machine.execCfg0 t f s
  | .cfg1 t f => Sys2Proof.Machine.execCfg1 t f s
  | .cfg2 t f => Sys2Proof.Machine.execCfg2 t f s
  | .flush t f => Sys2Proof.Machine.execFlush t f s
  | .stats t f => Sys2Proof.Machine.execStats t f s
  | .ldside t f => Sys2Proof.Machine.execLdside t f s
  -- attention engines
  | .attend r handle lane upsets => Sys2Proof.Machine.execAttend r handle lane upsets s
  | .append r handle lane upsets => Sys2Proof.Machine.execAppend r handle lane upsets s
  | .engineOutput r => Sys2Proof.Machine.execEngineOutput r s
  -- apertures
  | .apertureWrite m addr data owner => Sys2Proof.Machine.execApertureWrite m addr data owner s
  | .apertureRead m addr size tag owner => Sys2Proof.Machine.execApertureRead m addr size tag owner s
  | .kvApertureWrite m addr data owner => Sys2Proof.Machine.execKvApertureWrite m addr data owner s
  | .kvApertureRead m addr size tag owner => Sys2Proof.Machine.execKvApertureRead m addr size tag owner s
  | .apertureApply m n upsets => Sys2Proof.Machine.execApertureApply m n upsets s
  | .apertureReadTimeout m n => Sys2Proof.Machine.execApertureReadTimeout m n s
  -- weft link and rings
  | .weftTrained m rate reversed posted nonposted => Sys2Proof.Machine.execWeftTrained m rate reversed posted nonposted s
  | .weftTrainRetry m => Sys2Proof.Machine.execWeftTrainRetry m s
  | .weftRetrain m cause => Sys2Proof.Machine.execWeftRetrain m cause s
  | .flitReceive m bytes upset => Sys2Proof.Machine.execFlitReceive m bytes upset s
  | .readResp m tag status data => Sys2Proof.Machine.execReadResp m tag status data s
  | .doorbellTail ring value => Sys2Proof.Machine.execDoorbellTail ring value s
  | .doorbellHead ring value => Sys2Proof.Machine.execDoorbellHead ring value s
  | .ringEnable ring cfg => Sys2Proof.Machine.execRingEnable ring cfg s
  | .ringDisable ring cfg => Sys2Proof.Machine.execRingDisable ring cfg s
  | .partitionWrite t data => Sys2Proof.Machine.execPartitionWrite t data s
  | .weaveSwap => Sys2Proof.Machine.execWeaveSwap s
  | .weaveCheckDone => Sys2Proof.Machine.execWeaveCheckDone s
  -- admission
  | .submissionFetch n => Sys2Proof.Machine.execSubmissionFetch n s
  | .run => Sys2Proof.Machine.execRun s
  | .seqOpen => Sys2Proof.Machine.execSeqOpen s
  | .seqClose => Sys2Proof.Machine.execSeqClose s
  | .submitNop => Sys2Proof.Machine.execSubmitNop s
  | .recordIssue => Sys2Proof.Machine.execRecordIssue s
  -- bobbin
  | .save => Sys2Proof.Machine.execSave s
  | .restore => Sys2Proof.Machine.execRestore s
  | .bobbinNop => Sys2Proof.Machine.execBobbinNop s
  | .bobbinMove upsets => Sys2Proof.Machine.execBobbinMove upsets s
  | .bobbinWeftWrite => Sys2Proof.Machine.execBobbinWeftWrite s
  | .restoreCheck => Sys2Proof.Machine.execRestoreCheck s
  | .bobbinCtrlWrite data => Sys2Proof.Machine.execBobbinCtrlWrite data s
  -- warp links
  | .warpTrain data => Sys2Proof.Machine.execWarpTrain data s
  | .warpPhaseEnd m o => Sys2Proof.Machine.execWarpPhaseEnd m o s
  | .warpTrainRetry m => Sys2Proof.Machine.execWarpTrainRetry m s
  | .warpRetrain m cause => Sys2Proof.Machine.execWarpRetrain m cause s
  | .warpFrameSend m => Sys2Proof.Machine.execWarpFrameSend m s
  | .warpFrameDelivery m frame => Sys2Proof.Machine.execWarpFrameDelivery m frame s
  -- tally and clock-domain steps
  | .watchTallySelect n src => Sys2Proof.Machine.execWatchTallySelect n src s
  | .watchTallyClr n => Sys2Proof.Machine.execWatchTallyClr n s
  | .loomTallySelect n data => Sys2Proof.Machine.execLoomTallySelect n data s
  | .loomTallyClr n => Sys2Proof.Machine.execLoomTallyClr n s
  | .writeReachesWatchman => Sys2Proof.Machine.execWriteReachesWatchman s
  | .grayCountSample clocks => Sys2Proof.Machine.execGrayCountSample clocks s
  | .ackInterval m => Sys2Proof.Machine.execAckInterval m s

end Sys2Proof.Machine
end

