-- ==== Sys2Proof/Safety.lean ====
section
/-!
DEFINITION. The terms the claims use: what a command answers, the conditions it runs under, and the canonical form of every addressed
memory.
-/

namespace Sys2Proof.Machine

/-- A command answers a next state that meets `P`. -/
def Answers (c : Instr) (s : State) (P : State → Prop) : Prop := ∃ t, exec c s = .next t ∧ P t

/-- A command's next state is `t`, with the sticky bit set of each ready bit that rose (R149). -/
def Gives (c : Instr) (s t : State) : Prop := exec c s = .next (settle s t)

/-- POR does not hold (R46). -/
abbrev Live (s : State) : Prop := s.mon.por = false

/-- A frame starts from an idle port: no test instruction holds the pins (R57), the frame before was whole (R86), no window is held
back (R82), and no lockout counts its edges (R99). -/
abbrev PortQuiet (s : State) : Prop :=
  Live s ∧ pinsTested s = false ∧ s.port.shortFlag = false ∧ s.wc.heldWin = none ∧ s.keys.locked = false

/-- The gatehouse hears its port: no test instruction holds the pins (R57). -/
abbrev GateHears (s : State) : Prop := Live s ∧ pinsTested s = false

/-- The watchman takes writes (R80). -/
abbrev WatchRuns (s : State) : Prop := Live s ∧ s.wc.aonclk = true

/-- As `WatchRuns`, and the command's frame reaches the gatehouse (R57). -/
abbrev WatchHears (s : State) : Prop := WatchRuns s ∧ pinsTested s = false

/-- The weft control region answers (R340). -/
abbrev Reached (s : State) : Prop := Live s ∧ loomReachable s.pwr = true

/-- As `Reached`, and no drain discards the host's posted writes (R159). -/
abbrev HostHeard (s : State) : Prop := Reached s ∧ s.pwr.drained = false

/-- Nothing is under way that an lc brings on of itself: no engine command, no flit, no breach to show, no warp frame held. -/
abbrev NothingDue (s : State) : Prop :=
  s.loom.engines = [] ∧ s.loom.flits = [] ∧ s.loom.late = [] ∧ ∀ m < 4, (warpOf s m).rx = []

/-- The TAP rests between scans (R55). -/
abbrev TapRests (s : State) : Prop := Live s ∧ (s.jtag.tap = .testLogicReset ∨ s.jtag.tap = .runTestIdle)

/-- The loom of `s` with what `t` keeps of the tally events of the present lc (R453). -/
abbrev counting (s t : State) : Loom :=
  { s.loom with tallyLc := t.loom.tallyLc, tallyEvs := t.loom.tallyEvs, tallyWas := t.loom.tallyWas }

/-- The watchman's tally of `s` with what `t` keeps of the events of the present clock (R451). -/
abbrev watchCounting (s t : State) : WatchTally :=
  { s.wtally with evClk := t.wtally.evClk, evs := t.wtally.evs, was := t.wtally.was, cleared := t.wtally.cleared }

/-- A tile's pass issues bundle `b` in this lc in slot `x`, and field `k` of it has not issued yet (R233, R239). -/
abbrev Issues (s : State) (t : BitVec 8) (k : Nat) (b : Nat) (x : Slot) : Prop :=
  Live s ∧ issuing s t.toNat = some x ∧ hasIssued s t.toNat k = false ∧ bundleNow s x t.toNat = b

/-- As `Issues`, of an MXU field that spells operation `op` (R287). -/
abbrev IssuesMxu (s : State) (t : BitVec 8) (op b : Nat) (x : Slot) : Prop := Issues s t fieldMxu b x ∧ mxuOp b = op

/-- The operands that a bundle's MXU field spells for a DRAIN (R287). -/
abbrev SpellsDrain (b : Nat) (acc : BitVec 6) (mode : BitVec 2) (dst : BitVec 5) (h : Bool) : Prop :=
  field (mxuWord b) 12 6 = acc.toNat ∧ field (mxuWord b) 19 2 = mode.toNat ∧ field (mxuWord b) 21 5 = dst.toNat
    ∧ field (mxuWord b) 26 1 = h.toNat

/-- The operands that a bundle's MXU field spells for a CORR (R287). -/
abbrev SpellsCorr (b : Nat) (wfmt : BitVec 4) (acc : BitVec 6) (ar0 ar1 : BitVec 4) : Prop :=
  field (mxuWord b) 4 4 = wfmt.toNat ∧ field (mxuWord b) 12 6 = acc.toNat ∧ field (mxuWord b) 29 4 = ar0.toNat
    ∧ field (mxuWord b) 33 4 = ar1.toNat

/-- A command flit names sequence handle `h` and the lane of layer and KV head `l` (R310). -/
abbrev NamesLane (c : AttnCmd) (h : BitVec 2) (l : BitVec 8 × BitVec 8) : Prop :=
  c.handle = h.toNat ∧ c.layer = l.1.toNat ∧ c.kvh = l.2.toNat

/-- As `Issues`, of a VEC field that spells operation `op` with the operands `v` (R294, R295). -/
abbrev IssuesVec (s : State) (t : BitVec 8) (op : Nat) (v : VecField) (x : Slot) : Prop :=
  Issues s t fieldVec (bundleNow s x t.toNat) x ∧ vecOpCode (bundleNow s x t.toNat) = op ∧ vecField (bundleNow s x t.toNat) = v

/-- As `Issues`, of a QNT field that spells operation `op` with the operands `f` (R306). -/
abbrev IssuesQnt (s : State) (t : BitVec 8) (op : Nat) (f : QntField) (x : Slot) : Prop :=
  Issues s t fieldQnt (bundleNow s x t.toNat) x ∧ qntOp (bundleNow s x t.toNat) = op ∧ qntField (bundleNow s x t.toNat) = f

/-- A tile once the results that are ready have taken effect (R236). -/
def settled (s : State) (t : BitVec 8) : Tile := settleTile (lcOf s) (tileOf s t.toNat)

/-- The bundle of this lc, as it stays in force for its other fields once its CTL field has issued. -/
def heldBy (s : State) (i : BitVec 8) : Held := { lc := s.clocks.lc, pc := (settled s i).pc, cnt := (settled s i).cnt }

/-- The byte address of the row that field BANKk of bundle `b` names on tile `i` (R235). -/
def bankRowOf (s : State) (i : BitVec 8) (b k : Nat) : Nat :=
  rowAddr i.toNat (bankField b k).bank.toNat (fieldRow (bundleCnt s (tileOf s i.toNat)) (bankField b k))

/-- The loom's books after field `k` of tile `i` has issued: the issue itself, and OUTLIER_OVERFLOW of the statistics that are ready
by now (R286). -/
def issueBooks (s : State) (i : BitVec 8) (k : Nat) : Loom := (settleOn i.toNat (noteIssued i.toNat k s)).loom

/-- Only tile `i` differs, and it is `y`, with the books of field `k`. -/
abbrev OnlyTile (s t : State) (i : BitVec 8) (k : Nat) (y : Tile) : Prop :=
  tileOf t i.toNat = y ∧ (∀ j < 256, j ≠ i.toNat → tileOf t j = tileOf s j)
    ∧ t = { s with loom := { issueBooks s i k with tiles := t.loom.tiles }, seen := t.seen }

/-- As `OnlyTile`, and the unit took the row `sourceRow` gives it, free bytes where nothing was delivered (log 12). -/
abbrev OnlyTileRow (s t : State) (i : BitVec 8) (k : Nat) (row : List Byte × State) (y : Tile) : Prop :=
  tileOf t i.toNat = y ∧ (∀ j < 256, j ≠ i.toNat → tileOf t j = tileOf s j)
    ∧ t = { s with free := row.2.free, loom := { issueBooks s i k with tiles := t.loom.tiles }, seen := t.seen }

/-- Results of tile `i`'s settled state that are ready `lat` lc after this one (R236). -/
def launched (s : State) (i : BitVec 8) (lat : Nat) (es : List Effect) : Tile :=
  { settled s i with flights := (settled s i).flights ++ es.map (fun e => { ready := s.clocks.lc + lat, eff := e }) }

/-- Tile `i` alone differs: register D and the VEC result take the lanes `f` names, `lat` lc after this one (R294). -/
abbrev VecAfter (s t : State) (i : BitVec 8) (v : VecField) (lat : Nat) (f : Nat → Word) : Prop :=
  OnlyTile s t i fieldVec (launched s i lat [.vec v.d.toNat ((span 0 64).map (fun k => (k, f k))) v.part.toNat])

/-- Lane `k` of a vector register as an operation issued now reads it. -/
def lane (s : State) (i : BitVec 8) (r : BitVec 5) (k : Nat) : Word := laneAt (vregAt (settled s i) r.toNat) k

/-- A trained weft module with nothing to send, nothing unacknowledged and a credit of each class (R335, R337). -/
abbrev WeftIdle (s : State) (m : Nat) : Prop :=
  (weftOf s m).trained = true ∧ (weftOf s m).replay = [] ∧ (weftOf s m).resent = [] ∧ (weftOf s m).txq = []
    ∧ 0 < (weftOf s m).hostPosted ∧ 0 < (weftOf s m).hostNonposted ∧ (weftOf s (1 - m)).replay = []

/-- Module `m`, idle before, has sent transaction `x`, and the other module is as it was. -/
abbrev Sent (s t : State) (m : Nat) (x : DevTxn) : Prop :=
  (weftOf t m).replay = [((weftOf s m).txSeq, x)] ∧ (weftOf t m).txSeq = (weftOf s m).txSeq + 1 ∧ weftOf t (1 - m) = weftOf s (1 - m)

/-- A weft module takes aperture accesses: it is trained, its queue and park are empty, it holds credits of both classes, the loom
answers and no drain runs (R334, R337, R340). -/
abbrev Takes (s : State) (m : Nat) : Prop :=
  Reached s ∧ s.pwr.drained = false ∧ (weftOf s m).trained = true ∧ (weftOf s m).inq = [] ∧ (weftOf s m).park = []
    ∧ 0 < (weftOf s m).devPosted ∧ 0 < (weftOf s m).devNonposted

/-- A weft module after an idle flit with this ACK: it carries the module's next sequence number, the acknowledged one and the credits
owed, and it stands for replay (R334, R335, R337). -/
def sentIdle (w : WeftModule) (ack : BitVec 2) : WeftModule :=
  let x : DevTxn := { kind := .idle, addr := 0, data := [], len := 0, tag := 0, tenant := 0, what := .nothing }
  { w with
    txSeq := w.txSeq + 1, ackOut := ack, ackSeqOut := w.rxSeq, rxSince := 0, replay := w.replay ++ [(w.txSeq, x)]
    flits := w.flits ++ [(w.txSeq, outFlit w.txSeq w.rxSeq ack (min w.oweP 255) (min w.oweN 255) x)]
    oweP := w.oweP - min w.oweP 255, devPosted := w.devPosted + min w.oweP 255
    oweN := w.oweN - min w.oweN 255, devNonposted := w.devNonposted + min w.oweN 255 }

/-- A device read asks for entries of ring `n`. -/
def asksRing (n : Nat) (r : DevRead) : Bool :=
  match r.what with
  | .ring k _ => k == n
  | _ => false

/-- What a doorbell keeps of its counter: the value before the first one of this lc (R363). -/
def bellWas (s : State) (r : Ring) (old : Word) : Nat × Word :=
  match r.was with
  | some (lc, v) => if lc = s.clocks.lc then (lc, v) else (s.clocks.lc, old)
  | none => (s.clocks.lc, old)

/-- What an engine keeps of a good command flit that reaches it (R310, R311). -/
def taken (s : State) (x : Slot) (raw : List Byte) : EngineCmd :=
  { raw := raw, first := s.clocks.lc, lane := namedLane s x (parseCmd raw), faulty := false, appended := false, query := [], heads := []
    scanned := 0, slot := some x.entry, job := slotJob x }

/-- Only weft module `m` differs, and it is `y`. -/
abbrev OnlyWeft (s t : State) (m : Nat) (y : WeftModule) : Prop :=
  weftOf t m = y ∧ weftOf t (1 - m) = weftOf s (1 - m) ∧ t = { s with weft := t.weft, seen := t.seen }

/-- The front entry `f` of the admission stage may be answered in this lc (R353). -/
abbrev Fronts (s : State) (f : Fetched) (rest : List Fetched) : Prop :=
  Reached s ∧ s.loom.fetched = f :: rest ∧ s.loom.answeredAt ≠ some s.clocks.lc

/-- No admitted work, no load, no draft and no tenant book is in the loom. -/
abbrev LoomEmpty (s : State) : Prop :=
  s.loom.jobs = [] ∧ s.loom.drafts = [] ∧ s.loom.tenants = [] ∧ s.loom.seqs = [] ∧ s.loom.tileErr = [] ∧ s.loom.bookings = []
    ∧ s.loom.moveBookings = [] ∧ s.loom.load = none ∧ s.loom.weave.slots = [] ∧ s.loom.clock.pending = false

/-- A sealed frame that is accepted with OK, sealed by slot `n` (R97). -/
abbrev Accepts (s : State) (f : SealFrame) (ctr : Word) (tag : DWord) (n : Nat) : Prop :=
  PortQuiet s ∧ verdictOf f ctr tag s = { code := 0, slot := some n, effect := true }

/-- The port after an accepted sealed frame that returned OK on GSDO (R70, R112). -/
def acceptedPort (s : State) (f : SealFrame) (extra : Nat) : GatePort :=
  { s.port with
    lastCode := 0, lastOp := sealedOp f, gsdo := statusLine (sealedClocks f) 0 extra, grayOk := s.port.grayOk + 1, shortOp := none }

/-- The port after a sealed frame that returned another code and had no effect. -/
def refusedPort (s : State) (f : SealFrame) (code : Byte) (extra : Nat) : GatePort :=
  { s.port with lastCode := code, lastOp := sealedOp f, gsdo := statusLine (sealedClocks f) code extra, shortOp := none }

/-- The key that G_KEYINIT0 to G_KEYINIT3 hold, G_KEYINIT0 first (R114). -/
def initKey (k : Seal) : BitVec 128 :=
  BitVec.ofNat 128 (k.init0.toNat * 2 ^ 96 + k.init1.toNat * 2 ^ 64 + k.init2.toNat * 2 ^ 32 + k.init3.toNat)

/-- Every addressed memory has the canonical form of its store. -/
def memOk (s : State) : Bool :=
  Memory.wf s.loom.banks && Memory.wf s.loom.kv && Memory.wf s.loom.store && Memory.wf s.gran.bankA && Memory.wf s.gran.bankB
    && Memory.wf s.gran.factory


end Sys2Proof.Machine
end

