-- ==== Sys2Proof/Certificates/Slice0/Obligations.lean ====
section
/-!
DEFINITION. What is to be proved of the model, rule by rule of the manual.
-/

open Sys2Proof Sys2Proof.Machine

/-! ## The block -/

/-- One step takes the command at the front of the queue and runs it with the rest; with none waiting the block idles (the second
is the model's choice, log 9). -/
def Obligations.StepRunsFrontCommand : Prop :=
  (∀ (s : State) (c : Instr) (rest : List Instr), s.pending = c :: rest → step s = exec c { s with pending := rest })
  ∧ (∀ s : State, s.pending = [] → step s = .next s)

/-- Every command answers a next state: the manual names no command or fault after which the device stops (R462 lists what a fault can do). -/
def Obligations.NoCommandStops : Prop := ∀ (c : Instr) (s : State), ∃ t, exec c s = .next t

/-- No command touches the commands that wait. -/
def Obligations.QueueLeftAlone : Prop := ∀ (c : Instr) (s t : State), exec c s = .next t → t.pending = s.pending

/-- A step keeps the canonical form of the banks, the KV store, the draft stores and the MRAM. -/
def Obligations.MemoriesStayCanonical : Prop := ∀ s t : State, memOk s = true → step s = .next t → memOk t = true

/-- The memories at reset have their canonical form. -/
def Obligations.ResetMemoriesCanonical : Prop := memOk State.reset = true

/-- A ready bit that a command raises has its sticky bit set after it (R149). -/
def Obligations.RisingReadyBitsAreSeen : Prop :=
  ∀ (c : Instr) (s t : State), Live s → c ≠ .por → exec c s = .next t →
    ∀ i < 20, (ready t).getLsbD i = true → (ready s).getLsbD i = false → t.seen.getLsbD i = true

/-- What the manual gives the device at the release of POR. -/
def Obligations.ResetValues : Prop :=
  State.reset.pwr.st = .l3 ∧ State.reset.pwr.target = .l3 ∧ State.reset.pwr.reqTarget = 3 ∧ State.reset.pwr.linkReq = 0
  ∧ State.reset.gran.st = .closed ∧ State.reset.gran.deltas = [] ∧ State.reset.keys.locked = false
  ∧ (∀ n < 4, (slotOf State.reset.keys n).st = .empty) ∧ State.reset.alert = 0 ∧ State.reset.port.alertMask = 0
  ∧ State.reset.seen = 1 ∧ State.reset.jtag.instr = .bypass ∧ State.reset.fe.fbCtrl = 0x9860 ∧ State.reset.fe.sens2 = 0x986
  ∧ State.reset.wc.winLen = 0x64 ∧ State.reset.wc.baseCtrl = 0x1B ∧ State.reset.wc.arm = false ∧ State.reset.bell.bellN = false
  ∧ State.reset.esc.waitMs = 3 ∧ State.reset.esc.en = false ∧ State.reset.loom.weave.activeLc = 0
  ∧ State.reset.loom.weave.swapResult = 0xF ∧ State.reset.loom.clock.minGap = 0xFFFF ∧ State.reset.loom.verify.result = 0xFF
  ∧ State.reset.loom.bobbin.period = 4 ∧ State.reset.loom.jobs = [] ∧ State.reset.pending = []

/-- POR puts every volatile piece of state at its reset value and leaves the MRAM and the die ID; its release lets the device
run with the monitors and straps as they stand; while POR holds, any other command changes nothing. -/
def Obligations.PowerOnReset : Prop :=
  (∀ s, Answers .por s (fun t =>
    t.mon.por = true ∧ t.pwr = .reset ∧ t.loom = .reset ∧ t.keys = .reset ∧ t.fe = .reset ∧ t.wc = .reset ∧ t.bell = .reset
    ∧ t.loft = .reset ∧ t.esc = .reset ∧ t.weft = [] ∧ t.warp = [] ∧ t.jtag = .reset ∧ t.alert = 0 ∧ t.seen = 1
    ∧ t.gran.st = .closed ∧ t.gran.bankA = s.gran.bankA ∧ t.gran.bankB = s.gran.bankB ∧ t.gran.factory = s.gran.factory
    ∧ t.port.dieLo = s.port.dieLo ∧ t.port.dieHi = s.port.dieHi))
  ∧ (∀ s rails straps, s.mon.por = true → exec (.porRelease rails straps) s =
      .next { s with mon := { s.mon with por := false, rails := rails, straps := straps } })
  ∧ (∀ (c : Instr) (s : State), s.mon.por = true → c ≠ .por → (∀ r st, c ≠ .porRelease r st) → exec c s = .next s)

/-! ## Gate port -/

/-- READ, WINDOW_READ, STATUS and IDENT shift out one snapshot and change nothing else; the LO word of a tally counter latches
its high half. -/
def Obligations.GateReads : Prop :=
  (∀ s addr n extra, PortQuiet s → Answers (.read addr n extra) s (fun t =>
      t.port.snap = snapshot s [] (readAddrs addr n)
      ∧ t = { s with port := { s.port with gsdo := readLine t.port.snap extra, snap := t.port.snap, shortOp := none }
                     wtally := { s.wtally with shadow := t.wtally.shadow }, seen := t.seen }))
  ∧ (∀ s n extra, PortQuiet s → Answers (.windowRead n extra) s (fun t =>
      t.port.snap = s.wc.winSeq :: (span 0 (n.toNat + 1)).map (fun k => gateRead s ((0x1C0 + k) % 1024))
      ∧ t = { s with port := { s.port with gsdo := readLine t.port.snap extra, snap := t.port.snap, shortOp := none }
                     wtally := { s.wtally with shadow := t.wtally.shadow }, seen := t.seen }))
  ∧ (∀ s n, GateHears s → Answers (.tallyLoRead n) s (fun t =>
      sget 0 t.wtally.shadow n.toNat = highHalf (wtallyOf s n.toNat)
      ∧ t = { s with wtally := { s.wtally with shadow := t.wtally.shadow }, seen := t.seen }))
  ∧ (∀ s extra, PortQuiet s → Answers (.status extra) s (fun t => t =
      { s with port := { s.port with gsdo := wordLine (statusWord s) extra, shortOp := none }, seen := t.seen }))
  ∧ (∀ s extra, PortQuiet s → Answers (.ident extra) s (fun t => t =
      { s with port := { s.port with gsdo := wordLine 0x5A3256B0 extra, shortOp := none }, seen := t.seen }))

/-- A WRITE burst into rooms 0x140 to 0x1FF puts its words on their way to the watchman in order; a write of G_ALERT_MASK takes
effect at its edge; an unsealed write of a word with a SEAL field leaves the field and sets SEAL_SKIP; an undefined opcode sets BAD_OP. -/
def Obligations.GateWrites : Prop :=
  (∀ s (addr : BitVec 10) (data : List Word) extra, PortQuiet s → 0x140 ≤ addr.toNat → addr.toNat + data.length ≤ 0x200 →
      data ≠ [] → data.length ≤ 64 → Answers (.write addr data extra) s (fun t =>
      t.wflight = s.wflight ++ (span 0 data.length).map (fun i =>
        { addr := BitVec.ofNat 10 (addr.toNat + i), data := data.getD i 0, via := .unsealed, at_ := s.clocks.wclk })
      ∧ t = { s with wflight := t.wflight, port := { s.port with gsdo := writeLine data.length extra, shortOp := none }, seen := t.seen }))
  ∧ (∀ s d extra, PortQuiet s → Answers (.write 0x042 [d] extra) s (fun t => t = { s with
      port := { s.port with alertMask := BitVec.ofNat 13 d.toNat, gsdo := writeLine 1 extra, shortOp := none }, seen := t.seen }))
  ∧ (∀ s d extra, PortQuiet s → Answers (.write 0x101 [d] extra) s (fun t => t = { s with
      port := { s.port with sealSkip := true, gsdo := writeLine 1 extra, shortOp := none }, seen := t.seen }))
  ∧ (∀ s op extra, PortQuiet s → isFrameOp op = false → Answers (.undefinedOpcode op extra) s (fun t => t = { s with
      port := { s.port with badOp := true, gsdo := [.highZ (8 + extra)], shortOp := none }, seen := t.seen }))

/-- A staging write lands as a delta of the open region; through G_STAGE_DATA the offset then steps by one word. A
frame that ends before its last defined clock leaves its effect undone, and the next frame's first clock counts it in ABORTS, with code
SHORT where its opcode was a sealed frame's. -/
def Obligations.StagingWrites : Prop :=
  (∀ s d via, GateHears s → s.gran.st ≠ .closed → stageRegion (4 * s.gran.offset.toNat) = .open_ →
      Answers (.stageDataWrite d via) s (fun t => t = { s with
        gran := { storeDelta s.gran s.gran.offset.toNat d with offset := s.gran.offset + 1 }, seen := t.seen }))
  ∧ (∀ s (k : BitVec 4) d via, GateHears s → s.gran.st ≠ .closed →
      stageRegion (4 * (16 * (s.gran.offset.toNat / 16) + k.toNat)) = .open_ →
      Answers (.stageWinWrite k d via) s (fun t => t = { s with
        gran := storeDelta s.gran (16 * (s.gran.offset.toNat / 16) + k.toNat) d, seen := t.seen }))
  ∧ (∀ s clocks, PortQuiet s → 1 ≤ clocks → clocks < 48 → Answers (.shortFrame .status clocks) s (fun t => t = { s with
      port := { s.port with shortFlag := true, shortOp := none, gsdo := cutLine clocks (wordLine (statusWord s) 0) }, seen := t.seen }))
  ∧ (∀ s fb d ctr tag clocks, PortQuiet s → 8 ≤ clocks → clocks < 240 →
      Answers (.shortFrame (.sealedWrite fb d ctr tag) clocks) s (fun t => t = { s with
      port := { s.port with shortFlag := true, shortOp := some 0x5A, gsdo := cutLine clocks (statusLine 248 0 0) }, seen := t.seen }))
  ∧ (∀ s extra, Live s → pinsTested s = false → s.wc.heldWin = none → s.keys.locked = false → s.port.shortFlag = true →
      Answers (.ident extra) s (fun t =>
        t.port.aborts = satAdd s.port.aborts 1 ∧ t.port.shortFlag = false
        ∧ t.port.lastCode = (if s.port.shortOp.isSome then 0x04 else s.port.lastCode)
        ∧ t.port.lastOp = s.port.shortOp.getD s.port.lastOp))

/-- An accepted SEALED WRITE of G_DEBUG, COMMIT, RESERVE, KEY_PART and KEY_INSTALL: the counter of the sealing slot advances, the
status is OK, and the frame has its effect; a KEY_INSTALL leaves the slots it does not name alone and stages the one it names. -/
def Obligations.SealedFrames : Prop :=
  (∀ s d ctr tag extra n, Accepts s (.write 0x094 d) ctr tag n → Answers (.sealedWrite 0x094 d ctr tag extra) s (fun t => t = { s with
      port := { acceptedPort s (.write 0x094 d) extra with debugReg := BitVec.ofNat 2 d.toNat }
      keys := advanceCounter s.keys n ctr, seen := t.seen }))
  ∧ (∀ s arg ctr tag mon extra n, Accepts s (.command 1 arg) ctr tag n → mon.nvLow = none →
      (granaryCommit s.gran s.gran mon).2 = none → Answers (.commit arg ctr tag mon extra) s (fun t => t = { s with
      gran := (granaryCommit s.gran s.gran mon).1, keys := advanceCounter s.keys n ctr
      mon := { s.mon with rails := { s.mon.rails with nv := true } }
      port := { acceptedPort s (.command 1 arg) extra with grayCommits := s.port.grayCommits + 1 }, seen := t.seen }))
  ∧ (∀ s arg ctr tag mon extra n, Accepts s (.command 2 arg) ctr tag n → mon.nvLow = none →
      (granaryCommit s.gran (stageCeiling s.gran n ((slotOf s.keys n).h + 1024)) mon).2 = none →
      Answers (.reserve arg ctr tag mon extra) s (fun t => t = { s with
      gran := (granaryCommit s.gran (stageCeiling s.gran n ((slotOf s.keys n).h + 1024)) mon).1
      keys := advanceCounter (putSlot s.keys n { slotOf s.keys n with h := (slotOf s.keys n).h + 1024 }) n ctr
      mon := { s.mon with rails := { s.mon.rails with nv := true } }
      port := { acceptedPort s (.command 2 arg) extra with grayCommits := s.port.grayCommits + 1 }, seen := t.seen }))
  ∧ (∀ s (k : BitVec 2) arg ctr tag extra n, Accepts s (.command (0x10 + k.setWidth 16) arg) ctr tag n →
      Answers (.keyPart k arg ctr tag extra) s (fun t => t = { s with
      keys := { advanceCounter s.keys n ctr with
        loadKey := BitVec.ofNat 128 (setField s.keys.loadKey.toNat (96 - 32 * k.toNat) 32 arg.toNat)
        parts := putBit s.keys.parts k.toNat true }
      port := acceptedPort s (.command (0x10 + k.setWidth 16) arg) extra, seen := t.seen }))
  ∧ (∀ s (arg : Word) ctr tag extra n, Accepts s (.command 0x14 arg) ctr tag n → Answers (.keyInstall arg ctr tag extra) s (fun t =>
      slotOf t.keys (arg.toNat % 4) =
        { key := unwrapKey s.keys n ctr s.port.dieHi s.port.dieLo, st := .active, rights := BitVec.ofNat 6 (arg.toNat / 256)
          h := (slotOf (advanceCounter s.keys n ctr) (arg.toNat % 4)).h + 1024
          c := (if (slotOf (advanceCounter s.keys n ctr) (arg.toNat % 4)).h.toNat < (slotOf (advanceCounter s.keys n ctr) (arg.toNat % 4)).c.toNat
            then (slotOf (advanceCounter s.keys n ctr) (arg.toNat % 4)).c else (slotOf (advanceCounter s.keys n ctr) (arg.toNat % 4)).h) }
      ∧ t = { s with
          keys := { putSlot (advanceCounter s.keys n ctr) (arg.toNat % 4) (slotOf t.keys (arg.toNat % 4)) with loadKey := 0, parts := 0 }
          gran := stageCeiling (stageKey s.gran (arg.toNat % 4) (slotOf t.keys (arg.toNat % 4))) (arg.toNat % 4)
            (slotOf t.keys (arg.toNat % 4)).h
          port := acceptedPort s (.command 0x14 arg) extra, seen := t.seen }))

/-- KEY_RETIRE empties its slot of key and rights, KEY_DECOMMISSION empties all four, the first key goes to slot 0 of an empty
engine, an unknown command code is BAD_FORMAT and nothing else, and a lockout ends with its last edge. -/
def Obligations.KeyCommands : Prop :=
  (∀ s (arg : Word) ctr tag extra n, Accepts s (.command 0x15 arg) ctr tag n → Answers (.keyRetire arg ctr tag extra) s (fun t =>
      (slotOf t.keys (arg.toNat % 4)).st = .retired ∧ (slotOf t.keys (arg.toNat % 4)).key = 0
      ∧ (slotOf t.keys (arg.toNat % 4)).rights = 0
      ∧ t = { s with keys := t.keys, gran := t.gran, port := acceptedPort s (.command 0x15 arg) extra, seen := t.seen }))
  ∧ (∀ s arg ctr tag extra n, Accepts s (.command 0x16 arg) ctr tag n → Answers (.keyDecommission arg ctr tag extra) s (fun t =>
      (∀ m < 4, slotOf t.keys m = .init)
      ∧ t = { s with keys := t.keys, gran := t.gran, port := acceptedPort s (.command 0x16 arg) extra, seen := t.seen }))
  ∧ (∀ s, GateHears s → s.gran.st ≠ .closed → (∀ m < 4, (slotOf s.keys m).st = .empty) →
      initKey s.keys ≠ 0 → Answers .firstKeyInstall s (fun t =>
      slotOf t.keys 0 = { key := initKey s.keys, st := .active, rights := 0x3F
                          h := (slotOf s.keys 0).h + 1024
                          c := if (slotOf s.keys 0).h.toNat < (slotOf s.keys 0).c.toNat then (slotOf s.keys 0).c else (slotOf s.keys 0).h }
      ∧ t.keys.initResult = 1 ∧ t.keys.init0 = 0 ∧ t.keys.init1 = 0 ∧ t.keys.init2 = 0 ∧ t.keys.init3 = 0
      ∧ t = { s with keys := t.keys, gran := t.gran, seen := t.seen }))
  ∧ (∀ s (code : BitVec 16) arg ctr tag extra, PortQuiet s → s.gran.st ≠ .closed → isKnownCommand code.toNat = false →
      Answers (.unknownCommand code arg ctr tag extra) s (fun t => t = { s with
      port := refusedPort s (.command code arg) 0x0A extra, seen := t.seen }))
  ∧ (∀ s, GateHears s → s.keys.locked = true → Answers .lockoutEnd s (fun t => t = { s with
      keys := { s.keys with lockLeft := 0, locked := false, consec := 0 }, seen := t.seen }))

/-- A BAD_TAG counts in TOTAL, in CONSEC and in the Gray count of failures that the watchman reads, the sixteenth in a row locks the engine
for 65,536 counting edges and raises its alert, and nothing else of the frame takes effect: the rest of the state stands, and the port
has its books of a refused frame. -/
def Obligations.BadTagsCount : Prop :=
  ∀ s fb d ctr tag extra, PortQuiet s → verdictOf (.write fb d) ctr tag s = { code := 1, slot := none, effect := false } →
    Answers (.sealedWrite fb d ctr tag extra) s (fun t =>
      let sixteenth := s.keys.consec.toNat + 1 = 16
      t = { s with
        keys := { s.keys with
          total := satAdd s.keys.total 1, consec := BitVec.ofNat 5 (s.keys.consec.toNat + 1), locked := decide sixteenth
          lockLeft := if sixteenth then 65536 else s.keys.lockLeft }
        port := { refusedPort s (.write fb d) 0x01 extra with grayFails := s.port.grayFails + 1 }
        alert := if sixteenth then putBit s.alert 7 true else s.alert
        seen := t.seen })

/-- R21: a sealed frame before OPEN completes returns NOT_OPEN and has no other effect; no slot, ceiling or counter is loaded. -/
def Obligations.SealedFramesNeedOpen : Prop :=
  (∀ s fb d ctr tag extra, PortQuiet s → s.gran.st = .closed → Answers (.sealedWrite fb d ctr tag extra) s (fun t => t = { s with
      port := refusedPort s (.write fb d) 0x03 extra, seen := t.seen }))
  ∧ (∀ s (k : BitVec 2) code arg ctr tag extra, PortQuiet s → s.gran.st = .closed → ∀ c ∈ [
        (Instr.keyPart k arg ctr tag extra, (0x10 + k.setWidth 16 : BitVec 16)), (.keyInstall arg ctr tag extra, 0x14),
        (.keyRetire arg ctr tag extra, 0x15), (.keyDecommission arg ctr tag extra, 0x16), (.unknownCommand code arg ctr tag extra, code)],
      Answers c.1 s (fun t => t.port = refusedPort s (.command c.2 arg) 0x03 extra
        ∧ t = { s with port := t.port, mon := t.mon, seen := t.seen }))
  ∧ (∀ s arg ctr tag mon extra, PortQuiet s → s.gran.st = .closed → ∀ c ∈ [
        (Instr.commit arg ctr tag mon extra, (1 : BitVec 16)), (.reserve arg ctr tag mon extra, 2)],
      Answers c.1 s (fun t => t.port = refusedPort s (.command c.2 arg) 0x03 extra
        ∧ t = { s with port := t.port, mon := t.mon, seen := t.seen }))

/-- R127: which bank OPEN takes. SEQ_B is newer when its distance above SEQ_A modulo 2^32 lies between 1 and 0x7FFFFFFF. -/
def Obligations.NewerImageWins : Prop :=
  ∀ s finds extra, PortQuiet s → Answers (.openGranary finds extra) s (fun t =>
    let g := t.gran
    let newerB := 1 ≤ (g.seqB - g.seqA).toNat ∧ (g.seqB - g.seqA).toNat ≤ 0x7FFFFFFF
    (g.verdictA = 0 → g.verdictB = 0 → newerB → g.st = .openB) ∧ (g.verdictA = 0 → g.verdictB = 0 → ¬ newerB → g.st = .openA)
    ∧ (g.verdictA = 0 → g.verdictB ≠ 0 → g.st = .openA) ∧ (g.verdictA ≠ 0 → g.verdictB = 0 → g.st = .openB)
    ∧ (g.verdictA ≠ 0 → g.verdictB ≠ 0 → g.st = .empty))

/-- OPEN reads the banks, takes the newer good image, loads the slots from it and reports OK; a granary that is not clean raises
its alert. -/
def Obligations.OpenLoadsSlots : Prop :=
  ∀ s finds extra, PortQuiet s → Answers (.openGranary finds extra) s (fun t =>
    t.alert = (if (granaryOpen s.gran finds).2 then putBit s.alert 9 true else s.alert)
    ∧ (∀ n < 4, slotOf t.keys n = loadSlot (granaryOpen s.gran finds).1 n)
    ∧ t = { s with gran := (granaryOpen s.gran finds).1, keys := { s.keys with slots := t.keys.slots }
                   port := { s.port with lastCode := 0x00, lastOp := 0x6F, gsdo := statusLine 4232 0 extra, shortOp := none }
                   alert := t.alert, seen := t.seen })

/-- G_RESET with its key: a GATE reset drops the staging deltas, reloads the slots, clears the HI shadows and withdraws an unfetched
escalation, and leaves the loom, the watch cores, the lockout and the links; a WATCH reset puts the watchman at its reset values and
leaves the gatehouse, the HI shadows and the loom; a word that asks for both has both. Without the key nothing happens. That a WATCH
reset drops the writes still on their way to the watchman is the model's choice (log 21). -/
def Obligations.GateAndWatchResets : Prop :=
  (∀ s (d : Word), GateHears s → d.toNat / 65536 = 0x6A7E → d.getLsbD 0 = true → d.getLsbD 1 = false → Answers (.gateReset d) s (fun t =>
      t.gran = { s.gran with deltas := [], upS := [], offset := 0 } ∧ (∀ n < 4, slotOf t.keys n = loadSlot t.gran n)
      ∧ t.keys.locked = s.keys.locked ∧ t.keys.lockLeft = s.keys.lockLeft ∧ t.keys.loadKey = 0 ∧ t.keys.parts = 0
      ∧ t.port.alertMask = 0 ∧ t.port.aborts = 0 ∧ t.port.lastCode = 0 ∧ t.pwr.block = 0 ∧ t.pwr.abort = 0
      ∧ t.esc.en = false ∧ t.esc.waitMs = 3 ∧ (s.esc.fetched = false → t.esc.st = .idle) ∧ (∀ n < 8, sget 0 t.wtally.shadow n = 0)
      ∧ t = { s with gran := t.gran, keys := t.keys, port := t.port, esc := t.esc, alert := t.alert, seen := t.seen
                     wtally := { s.wtally with shadow := t.wtally.shadow }
                     fe := t.fe, loft := t.loft
                     pwr := { s.pwr with block := 0, abort := 0, conflicts := 0, conflict := .reset } }))
  ∧ (∀ s (d : Word), GateHears s → d.toNat / 65536 = 0x6A7E → d.getLsbD 0 = false → d.getLsbD 1 = true → Answers (.watchReset d) s (fun t =>
      t.wc = { WatchCores.reset with aonclk := s.wc.aonclk } ∧ t.bell = .reset ∧ t.loft = .reset ∧ t.esc.st = .idle
      ∧ t.esc.en = s.esc.en ∧ t.esc.rules = s.esc.rules ∧ t.wflight = [] ∧ t.fe.gridOn = s.wc.aonclk
      ∧ t.wtally.shadow = s.wtally.shadow
      ∧ t = { s with fe := t.fe, wc := t.wc, bell := t.bell, loft := t.loft, esc := t.esc, wtally := t.wtally, wflight := []
                     alert := t.alert, seen := t.seen }))
  ∧ (∀ s (d : Word), GateHears s → d.toNat / 65536 = 0x6A7E → d.getLsbD 0 = true → d.getLsbD 1 = true →
      ∀ c ∈ [Instr.gateReset d, .watchReset d],
      Answers c s (fun t => t.gran = { s.gran with deltas := [], upS := [], offset := 0 } ∧ t.port.alertMask = 0
      ∧ t.wc = { WatchCores.reset with aonclk := s.wc.aonclk } ∧ t.bell = .reset ∧ t.loom = s.loom ∧ t.keys.locked = s.keys.locked))
  ∧ (∀ s (d : Word), Live s → d.toNat / 65536 ≠ 0x6A7E → exec (.gateReset d) s = .next s ∧ exec (.watchReset d) s = .next s)

/-! ## Power, resets, links -/

/-- A request for a loom state is held for the ordering point, or at L3 acts at its edge, with LSRAM_LOW where VDD_LSRAM is below
its run level; a host's request joins the host's queue. -/
def Obligations.PowerRequestsAreTaken : Prop :=
  (∀ s target cut, GateHears s → s.pwr.st ≠ .l3 → Answers (.loomTarget target cut) s (fun t => t = { s with
      pwr := { s.pwr with reqTarget := target, reqCut := cut, bellWake := false, gateLast := target
                          gateReq := some (loomStateOf target.toNat) }, seen := t.seen }))
  ∧ (∀ s target cut, GateHears s → s.pwr.st = .l3 → s.pwr.stage = .steady → target ≠ 3 → Answers (.loomTarget target cut) s (fun t =>
      t = { s with
      pwr := { s.pwr with reqTarget := target, reqCut := cut, bellWake := false, gateLast := target
                          target := loomStateOf target.toNat, byHost := false, reached := false, stage := .exitHeld }
      alert := if s.mon.rails.lsram = 2 then s.alert else putBit s.alert 1 true, seen := t.seen }))
  ∧ (∀ s target tenant, HostHeard s → target ≠ 3 → Answers (.hostPowerRequest target tenant) s (fun t => t = { s with
      pwr := { s.pwr with
        hostTarget := target
        weftReqs := queueReq (loomStateOf target.toNat, tenant, 2 * s.clocks.lc + moduleFor s tenant.toNat) s.pwr.weftReqs }
      seen := t.seen }))

/-- The ordering point: loom cycles pass with the chain count; with both sides asking for different states the gate wins, whether its
state is the standing target or a new one, and the host's request is a conflict; a host request alone sets the target unless it is L3; a
completed move ends in its state. -/
def Obligations.OrderingPoint : Prop :=
  (∀ s n, Live s → s.pwr.st = .l0 → s.pwr.stage = .steady → s.pwr.gateReq = none → s.pwr.bellWake = false → s.pwr.weftReqs = [] →
      s.pwr.chainPos ≠ 0 → s.loom.clock.relocking = false → NothingDue s → Answers (.orderingPoint n) s (fun t =>
      t.clocks.lc = s.clocks.lc + n ∧ t.loom.chain.now = s.loom.chain.now + BitVec.ofNat 64 n
      ∧ t = { s with clocks := t.clocks, loom := { s.loom with now := t.loom.now, chain := t.loom.chain }, seen := t.seen }))
  ∧ (∀ s g h ten k, Live s → s.pwr.st = .l0 → s.pwr.stage = .steady → s.pwr.target = g → s.pwr.gateReq = some g → g ≠ h → g ≠ .l3 →
      s.pwr.weftReqs = [(h, ten, k)] → (ringOf s (4 * ten.toNat + 2)).en = false → NothingDue s → Answers (.orderingPoint 1) s (fun t =>
      t.pwr.target = g ∧ t.pwr.conflicts = satAdd s.pwr.conflicts 1 ∧ t.alert.getLsbD 0 = true
      ∧ t.pwr.conflict.loser = 1 ∧ t.pwr.conflict.kind = 0 ∧ t.pwr.conflict.tenant = ten ∧ t.pwr.weftReqs = [] ∧ t.pwr.gateReq = none))
  ∧ (∀ s g h ten k, Live s → s.pwr.st = .l0 → s.pwr.stage = .steady → s.pwr.target ≠ g → s.pwr.reached = true → s.pwr.gateReq = some g →
      g ≠ h → g ≠ .l3 → s.pwr.weftReqs = [(h, ten, k)] → s.loom.load = none → (ringOf s (4 * ten.toNat + 2)).en = false →
      NothingDue s → Answers (.orderingPoint 1) s (fun t =>
      t.pwr.target = g ∧ t.pwr.byHost = false ∧ t.pwr.conflicts = satAdd s.pwr.conflicts 1 ∧ t.alert.getLsbD 0 = true
      ∧ t.pwr.conflict.loser = 1 ∧ t.pwr.conflict.kind = 0 ∧ t.pwr.conflict.tenant = ten ∧ t.pwr.weftReqs = [] ∧ t.pwr.gateReq = none))
  ∧ (∀ s h ten k, Live s → s.pwr.st = .l0 → s.pwr.stage = .steady → s.pwr.target ≠ .l3 → s.pwr.reached = true → s.pwr.gateReq = none →
      s.pwr.bellWake = false → s.pwr.weftReqs = [(h, ten, k)] → h ≠ s.pwr.target → h ≠ .l3 → s.loom.load = none →
      NothingDue s →
      Answers (.orderingPoint 1) s (fun t => t.pwr.target = h ∧ t.pwr.byHost = true ∧ t.pwr.hostTenant = ten
      ∧ t.pwr.conflicts = s.pwr.conflicts))
  ∧ (∀ s, Live s → s.pwr.st = .l1 → s.pwr.stage = .move .l0 → s.pwr.target = .l0 → s.loom.clock.pending = false →
      s.pwr.resetOwed = false → Answers .loomMoveDone s (fun t => t = { s with
      pwr := { s.pwr with st := .l0, stage := .steady, reached := true }, seen := t.seen }))

/-- LOOM reset: the drain starts with every admitted job flagged; once the drain ends at L1 phase 3 begins, whose end records the
self-test, and at the end of phase 4 the loom is at L1 in its reset state with a new epoch and its count of time running on; a drain toward
L3 ends in the move. A host's posted write from the start of a drain on is discarded, and counted for its owner. That TARGET keeps its
value at a reset (log 20), the straps at phase 3 (log 42) and the owner of a write whose command names none (log 40) are the model's
choices. -/
def Obligations.LoomResetAndDrain : Prop :=
  (∀ s, GateHears s → s.pwr.st = .l1 → s.pwr.target ≠ .l3 → s.pwr.stage = .steady → s.pwr.resetOwed = false → s.loom.clock.relocking = false →
      s.loom.load = none → s.esc.st = .idle → Answers .loomReset s (fun t =>
      t.pwr.stage = .drain true ∧ t.pwr.reqReset = true ∧ t.pwr.reqTarget = s.pwr.reqTarget ∧ t.pwr.target = s.pwr.target
      ∧ (∀ j ∈ t.loom.jobs, j.ended = none → j.ending.isSome = true)
      ∧ t = { s with pwr := t.pwr, loom := { s.loom with jobs := t.loom.jobs }, seen := t.seen }))
  ∧ (∀ s, Live s → s.pwr.st = .l1 → s.pwr.stage = .drain true → s.loom.jobs = [] → s.weft = [] → Answers .drainEnd s (fun t =>
      t = { s with pwr := { s.pwr with stage := .resetPhase 3, chainPos := t.pwr.chainPos }
                   mon := { s.mon with straps := t.pwr.chainPos }, free := t.free, seen := t.seen }))
  ∧ (∀ s, Live s → s.pwr.stage = .drain false → s.loom.jobs = [] → s.weft = [] → Answers .drainEnd s (fun t =>
      t = { s with pwr := { s.pwr with stage := .move .l3 }, seen := t.seen }))
  ∧ (∀ s r, Live s → s.pwr.stage = .resetPhase 3 → Answers (.exitPhaseEnd r) s (fun t =>
      (∀ i : BitVec 8, t.pwr.tilesOk.getLsbD i.toNat = true ↔ i ∉ r.failedTiles) ∧ t.pwr.stage = .resetPhase 4
      ∧ t = { s with pwr := { s.pwr with stage := t.pwr.stage, tilesOk := t.pwr.tilesOk, reelsBad := t.pwr.reelsBad }, seen := t.seen }))
  ∧ (∀ s r, Live s → s.pwr.stage = .resetPhase 4 → s.pwr.target = .l1 → s.weft = [] → s.loom.clock.pending = false →
      Answers (.exitPhaseEnd r) s (fun t =>
      t.pwr.st = .l1 ∧ t.pwr.stage = .steady ∧ t.pwr.epoch = s.pwr.epoch + 1 ∧ t.pwr.reqReset = false ∧ t.pwr.reqTreset = false
      ∧ t.pwr.drained = false ∧ t.pwr.reached = true ∧ t.loom.now = s.loom.now ∧ t.loom.jobs = [] ∧ t.loom.banks = []
      ∧ t.loom.drafts = [] ∧ t.loom.weave = .reset))
  ∧ (∀ s (ring : BitVec 10) v target, Live s → s.pwr.drained = true → ∀ c ∈ [
        (Instr.doorbellTail ring v, ring.toNat / 4), (.doorbellHead ring v, ring.toNat / 4),
        (.hostPowerRequest target (BitVec.ofNat 8 (ring.toNat / 4)), ring.toNat / 4)],
      Answers c.1 s (fun t => (sget 0 (weftOf t (moduleFor s c.2)).dropped c.2) = sget 0 (weftOf s (moduleFor s c.2)).dropped c.2 + 1
        ∧ t = { s with weft := t.weft, seen := t.seen }))
  ∧ (∀ s (ring : BitVec 10) cfg t0 data point, Live s → s.pwr.drained = true → ∀ c ∈ [
        Instr.ringEnable ring cfg, .ringDisable ring cfg, .partitionWrite t0 data, .weaveSwap, .pointChange point, .stretchClr],
      Answers c s (fun t =>
        let o := (Config.freeOwner s.free).toNat
        sget 0 (weftOf t (moduleFor s o)).dropped o = sget 0 (weftOf s (moduleFor s o)).dropped o + 1
        ∧ t = { s with weft := t.weft, free := s.free + 1, seen := t.seen }))

/-- An exit from L3: phase 1 begins with the rails up and leads to phase 2, which samples the straps and locks the PLL, phase 3 records
the self-test, and at the end of phase 4 the loom is at L1 in its reset state and the epoch has advanced. An exit that was withdrawn ends
with its phase, and the loom stays at L3. -/
def Obligations.ExitFromL3 : Prop :=
  (∀ s, Live s → s.pwr.st = .l3 → s.pwr.stage = .exitHeld → Answers .l3ExitStart s (fun t => t = { s with
      pwr := { s.pwr with stage := .exitPhase 1 false }
      mon := { s.mon with rails := { s.mon.rails with loomv := true, lsram := 2, pll := true, lref := true } }, seen := t.seen }))
  ∧ (∀ s r, Live s → s.pwr.stage = .exitPhase 1 false → Answers (.exitPhaseEnd r) s (fun t => t = { s with
      pwr := { s.pwr with stage := .exitPhase 2 false }, seen := t.seen }))
  ∧ (∀ s r n, Live s → s.pwr.stage = .exitPhase n true → Answers (.exitPhaseEnd r) s (fun t => t.mon.pllLock = false
      ∧ t = { s with mon := t.mon, seen := t.seen, pwr := { s.pwr with
          stage := .steady, reqTreset := false, tresetFor := [], reqReset := false, resetOwed := false } }))
  ∧ (∀ s r, Live s → s.pwr.stage = .exitPhase 2 false → Answers (.exitPhaseEnd r) s (fun t =>
      t.pwr.chainPos = r.straps ∧ t.mon.pllLock = true ∧ t.loom.clock.current = s.loom.clock.point ∧ t.pwr.stage = .exitPhase 3 false))
  ∧ (∀ s r, Live s → s.pwr.stage = .exitPhase 3 false → Answers (.exitPhaseEnd r) s (fun t =>
      (∀ i : BitVec 8, t.pwr.tilesOk.getLsbD i.toNat = true ↔ i ∉ r.failedTiles) ∧ t.pwr.stage = .exitPhase 4 false
      ∧ t = { s with pwr := { s.pwr with stage := t.pwr.stage, tilesOk := t.pwr.tilesOk, reelsBad := t.pwr.reelsBad }, seen := t.seen }))
  ∧ (∀ s r, Live s → s.pwr.stage = .exitPhase 4 false → s.pwr.target = .l1 → s.weft = [] → s.loom.clock.pending = false →
      s.pwr.resetOwed = false →
      Answers (.exitPhaseEnd r) s (fun t =>
      t.pwr.st = .l1 ∧ t.pwr.stage = .steady ∧ t.pwr.epoch = s.pwr.epoch + 1 ∧ t.loom.now = 0 ∧ t.loom.jobs = [] ∧ t.loom.banks = []
      ∧ t.loom.drafts = [] ∧ t.loom.weave = .reset ∧ t.pwr.reached = true))

/-- LSRAM at its run level releases a held exit from L2; a lost VDD_LOOM leaves the loom at L3 with its contents gone and the alert
raised; an absent supply raises its alert, and LSRAM_LOW as well where VDD_LSRAM is what an exit from L3 waits for. A link request is
held until its rails are up, the module is then powered, and it falls back to held when a rail goes. That the monitors read as an absent
supply gives them (log 43) and that a module which loses a rail forgets L_WARP_CTRL (log 21) are the model's choices. -/
def Obligations.SupplyEvents : Prop :=
  (∀ s d, Live s → s.pwr.stage = .lsramHold d → Answers .lsramRunLevel s (fun t => t = { s with
      pwr := { s.pwr with stage := .move d }, mon := { s.mon with rails := { s.mon.rails with lsram := 2 } }, seen := t.seen }))
  ∧ (∀ s, Live s → s.pwr.st ≠ .l3 → Answers (.supplyLost .loomv) s (fun t =>
      t.pwr.st = .l3 ∧ t.pwr.target = .l3 ∧ t.pwr.reqTarget = 3 ∧ t.pwr.stage = .steady ∧ t.alert.getLsbD 3 = true
      ∧ t.mon.rails.loomv = false ∧ t.loom.banks = [] ∧ t.loom.jobs = [] ∧ t.loom.drafts = [] ∧ t.loom.now = s.loom.now))
  ∧ (∀ s (m : Fin 6) rails, Live s → s.pwr.held.getLsbD m.val = true → s.pwr.stage ≠ .exitHeld →
      Answers (.supplyAbsent { link := some m, rails := rails }) s (fun t =>
      (s.pwr.powered = 0 → t.mon.rails.link = rails.link) ∧ (s.pwr.powered ≠ 0 → t.mon.rails.link = s.mon.rails.link)
      ∧ t = { s with alert := putBit s.alert 2 true, mon := { s.mon with rails := t.mon.rails }, seen := t.seen }))
  ∧ (∀ s rails, Live s → s.pwr.st = .l3 → s.pwr.stage = .exitHeld → Answers (.supplyAbsent { link := none, rails := rails }) s (fun t =>
      t.mon.rails.loomv = rails.loomv ∧ t.mon.rails.lsram = rails.lsram ∧ t.mon.rails.lref = rails.lref
      ∧ t = { s with alert := putBit (if rails.lsram = 2 then s.alert else putBit s.alert 1 true) 2 true
                     mon := { s.mon with rails := t.mon.rails }, seen := t.seen }))
  ∧ (∀ s (m : Fin 6), GateHears s → s.pwr.linkReq.getLsbD m.val = false → Answers (.linkOnRequest m) s (fun t => t = { s with
      pwr := { s.pwr with linkReq := putBit s.pwr.linkReq m.val true, held := putBit s.pwr.held m.val true }, seen := t.seen }))
  ∧ (∀ s (m : Fin 6), GateHears s → s.pwr.linkReq.getLsbD m.val = true → s.pwr.powered.getLsbD m.val = false →
      Answers (.linkOff m) s (fun t => t = { s with
      pwr := { s.pwr with linkReq := putBit s.pwr.linkReq m.val false, held := putBit s.pwr.held m.val false
                          powered := putBit s.pwr.powered m.val false }, seen := t.seen }))
  ∧ (∀ s (m : Fin 6), Live s → s.pwr.held.getLsbD m.val = true → Answers (.linkPowerUp m) s (fun t => t = { s with
      pwr := { s.pwr with powered := putBit s.pwr.powered m.val true, held := putBit s.pwr.held m.val false }
      mon := { s.mon with rails := { s.mon.rails with pll := true, link := true } }, seen := t.seen }))
  ∧ (∀ s (m : Fin 6), Live s → 2 ≤ m.val → s.pwr.powered.getLsbD m.val = true → (warpOf s (m.val - 2)).locked = false →
      Answers (.linkRailLoss m .link) s (fun t =>
      warpOf t (m.val - 2) = { WarpModule.init with rx := (warpOf s (m.val - 2)).rx }
      ∧ t.alert = putBit s.alert 11 true ∧ t.mon.rails.link = false
      ∧ t.pwr = { s.pwr with powered := putBit s.pwr.powered m.val false, held := putBit s.pwr.held m.val true }))

/-- The tenant banks, the block a loom samples, tenant resets from both sides, and the escalation registers. That merged tenant resets
report the side that asked first is the model's choice (log 22). -/
def Obligations.TenantControl : Prop :=
  (∀ s (n : BitVec 3) d, GateHears s → Answers (.tenantBlock n d) s (fun t => t = { s with
      pwr := { s.pwr with block := putBankWord s.pwr.block n.toNat d }, seen := t.seen }))
  ∧ (∀ s (n : BitVec 3) d, GateHears s → Answers (.tenantAbort n d) s (fun t => t = { s with
      pwr := { s.pwr with abort := putBankWord s.pwr.abort n.toNat d }, seen := t.seen }))
  ∧ (∀ s (i : BitVec 8), Live s → orderingRuns s.pwr = true → s.pwr.block.getLsbD i.toNat = true → s.pwr.abort.getLsbD i.toNat = false →
      (tenantOf s i.toNat).blocked = false → (ringOf s (4 * i.toNat + 2)).en = false → Answers (.blockSampled i) s (fun t =>
      tenantOf t i.toNat = { tenantOf s i.toNat with
        blocked := true, abort := false, lost := satAdd (tenantOf s i.toNat).lost 1 }
      ∧ t = { s with loom := { s.loom with tenants := t.loom.tenants }, seen := t.seen }))
  ∧ (∀ s (i : BitVec 8) v, HostHeard s → resetRuns s.pwr = false → v.toNat % 65536 = 0x5E7A →
      Answers (.hostTenantReset (.doorbell i v)) s (fun t =>
      (tenantOf t i.toNat).treset = some ((tenantOf s i.toNat).treset.getD false)
      ∧ (∀ j ∈ t.loom.jobs, j.tenant = i.toNat → j.ended = none → j.ending.isSome = true ∧ j.silent = true)
      ∧ t = { s with loom := { s.loom with tenants := t.loom.tenants, jobs := t.loom.jobs }, seen := t.seen }))
  ∧ (∀ s (i : BitVec 8), GateHears s → s.pwr.st = .l0 → resetRuns s.pwr = false → Answers (.gateTenantReset i) s (fun t =>
      (tenantOf t i.toNat).treset = some ((tenantOf s i.toNat).treset.getD true) ∧ t.pwr.reqTenant = i ∧ t.pwr.reqTreset = true
      ∧ (∀ j ∈ t.loom.jobs, j.tenant = i.toNat → j.ended = none → j.ending.isSome = true ∧ j.silent = true)))
  ∧ (∀ s (d : Word), GateHears s → s.esc.st = .idle → Answers (.escCtrlWrite (.ctrl d)) s (fun t => t = { s with
      esc := { s.esc with en := d.getLsbD 0, keep := d.getLsbD 1, rules := BitVec.ofNat 8 (d.toNat / 256)
                          waitMs := BitVec.ofNat 4 (d.toNat / 65536) }, seen := t.seen }))
  ∧ (∀ s (d : Word), GateHears s → s.esc.st = .waitLoom → s.esc.fetched = false → s.loft.releaseOwed = false → d.getLsbD 0 = false →
      Answers (.escCtrlWrite (.ctrl d)) s (fun t =>
      t.esc.st = .idle ∧ t.esc.outcome = 9 ∧ t.esc.endedIn = 1 ∧ t.loft.hold = false ∧ t.alert.getLsbD 12 = true))

/-- AONCLK, the watch memories and the thermal comparator. That the lock and the loss of AONCLK drop the writes still on their way to the
watchman is the model's choice (log 21). -/
def Obligations.WatchmanMonitors : Prop :=
  (∀ s, Live s → s.wc.aonclk = false → Answers .aonclkLock s (fun t =>
      t.wc = { WatchCores.reset with aonclk := true } ∧ t.fe.gridOn = true ∧ t.fe.hopNext = s.clocks.wclk + 12288 ∧ t.fe.hopCount = 0
      ∧ t.bell = .reset ∧ t.loft = .reset
      ∧ t = { s with fe := t.fe, wc := t.wc, bell := t.bell, loft := t.loft, esc := t.esc, wtally := t.wtally, wflight := []
                     alert := t.alert, seen := t.seen }))
  ∧ (∀ s, Live s → s.wc.aonclk = true → Answers .aonclkLoss s (fun t =>
      t.wc = .reset ∧ t.fe = .reset ∧ t.bell = .reset ∧ t.loft = .reset ∧ t.esc.st = .idle
      ∧ t = { s with fe := t.fe, wc := t.wc, bell := t.bell, loft := t.loft, esc := t.esc, wtally := t.wtally, wflight := []
                     alert := t.alert, seen := t.seen }))
  ∧ (∀ s, WatchRuns s → Answers .watchMemoryCleared s (fun t => t = { s with wc := { s.wc with ready := true }, seen := t.seen }))
  ∧ (∀ s, Live s → Answers .thermAssert s (fun t => t = { s with
      mon := { s.mon with therm := true }, alert := putBit s.alert 4 true, seen := t.seen }))
  ∧ (∀ s, Live s → Answers .thermRelease s (fun t => t = { s with mon := { s.mon with therm := false }, seen := t.seen }))

/-- The TAP: each instruction is scanned in from rest; SAMPLE/PRELOAD captures the cells and leaves the preload in the update latches, as
EXTEST does with each of its scans; BYPASS passes TDI on one bit late; the instructions that take the pins end the frame in progress and
idle the sensor port; Test-Logic-Reset selects BYPASS. -/
def Obligations.BoundaryScan : Prop :=
  (∀ s, TapRests s → Answers (.extest { inFrame := none, scans := [] }) s (fun t => t.jtag.instr = .extest ∧ t.jtag.tap = .runTestIdle
      ∧ t.jtag.update = s.jtag.update ∧ t = { s with jtag := t.jtag, fe := (idlePort s).fe, seen := t.seen }))
  ∧ (∀ s bumps cells, TapRests s → Answers (.extest { inFrame := none, scans := [(bumps, cells)] }) s (fun t => t.jtag.instr = .extest
      ∧ t.jtag.tap = .runTestIdle ∧ t.jtag.update = cells ∧ t.jtag.boundary = cells
      ∧ t.jtag.tdo = [true, false, false, false] ++ cellBits (capturedCells bumps (idlePort s))
      ∧ t = { s with jtag := t.jtag, fe := (idlePort s).fe, seen := t.seen }))
  ∧ (∀ s, TapRests s → Answers (.clamp none) s (fun t => t.jtag.instr = .clamp ∧ t.jtag.tap = .runTestIdle
      ∧ t.jtag.update = s.jtag.update ∧ t = { s with jtag := t.jtag, fe := (idlePort s).fe, seen := t.seen }))
  ∧ (∀ s, TapRests s → Answers (.highz none) s (fun t => t.jtag.instr = .highz ∧ t.jtag.tap = .runTestIdle
      ∧ t.jtag.update = s.jtag.update ∧ t = { s with jtag := t.jtag, fe := (idlePort s).fe, seen := t.seen }))
  ∧ (∀ s bumps pre, TapRests s → Answers (.samplePreload bumps pre) s (fun t => t.jtag.instr = .samplePreload
      ∧ t.jtag.tap = .runTestIdle ∧ t.jtag.update = pre ∧ t.jtag.boundary = pre
      ∧ t.jtag.tdo = [true, false, false, false] ++ cellBits (capturedCells bumps s)
      ∧ t = { s with jtag := t.jtag, seen := t.seen }))
  ∧ (∀ s op b bs, TapRests s → 4 ≤ op.toNat → Answers (.bypass { op := op, tdi := b :: bs }) s (fun t => t.jtag.instr = .bypass
      ∧ t.jtag.tdo = [true, false, false, false] ++ false :: (b :: bs).dropLast ∧ t = { s with jtag := t.jtag, seen := t.seen }))
  ∧ (∀ s op, TapRests s → 4 ≤ op.toNat → Answers (.bypass { op := op, tdi := [] }) s (fun t => t.jtag.instr = .bypass
      ∧ t = { s with jtag := t.jtag, seen := t.seen }))
  ∧ (∀ s, Live s → Answers .testLogicReset s (fun t => t = { s with
      jtag := { s.jtag with tap := .testLogicReset, instr := .bypass, tdo := [] }, seen := t.seen }))
  ∧ (∀ s n, PortQuiet s → TapRests s → 1 ≤ n → n < 48 → ∀ c ∈ [(Instr.extest { inFrame := some (.status, n), scans := [] }, JtagInstr.extest),
        (.clamp (some (.status, n)), .clamp), (.highz (some (.status, n)), .highz)],
      Answers c.1 s (fun t => t.port.shortFlag = true ∧ t.jtag.instr = c.2))

/-! ## Front end -/

/-- An enabled channel is muted for 10 ms and owes its FE bit, a disabled one loses it with its encoders, a gain change mutes for
2 ms, BIASED mutes until 4 ms past the present ramp and no less than 4 ms, and the FE bit sets when the last mute of an enable has ended. -/
def Obligations.Channels : Prop :=
  (∀ s (ch : BitVec 1), WatchHears s → s.fe.feCtrl.getLsbD ch.toNat = false → s.fe.feCtrl &&& 0x77F = s.fe.feCtrl →
      Answers (.channelEnable ch) s (fun t =>
      t.fe.feCtrl = putBit s.fe.feCtrl ch.toNat true ∧ (chanOf t.fe ch.toNat).owesFe = true ∧ (chanOf t.fe ch.toNat).cleanRun = 0
      ∧ (chanOf t.fe ch.toNat).muteEnd = max (chanOf s.fe ch.toNat).muteEnd (s.clocks.wclk + 122880)
      ∧ (s.fe.fault = false → chanOf t.fe (1 - ch.toNat) = chanOf s.fe (1 - ch.toNat)) ∧ t = { s with fe := t.fe, seen := t.seen }))
  ∧ (∀ s (ch : BitVec 1), WatchHears s → s.fe.feCtrl.getLsbD ch.toNat = true → s.fe.feCtrl &&& 0x77F = s.fe.feCtrl →
      Answers (.channelDisable ch) s (fun t =>
      t.fe.feCtrl = putBit s.fe.feCtrl ch.toNat false ∧ (chanOf t.fe ch.toNat).feBit = false ∧ (chanOf t.fe ch.toNat).owesFe = false
      ∧ (∀ i < 32, (encOf t.fe (32 * ch.toNat + i)).armed = false)
      ∧ (s.fe.fault = false → chanOf t.fe (1 - ch.toNat) = chanOf s.fe (1 - ch.toNat))
      ∧ t.loft.feRun = (if (if s.loft.ch then 1 else 0) = ch.toNat then 0 else s.loft.feRun)
      ∧ t = { s with fe := t.fe, loft := { s.loft with feRun := t.loft.feRun }, seen := t.seen }))
  ∧ (∀ s (ch : BitVec 1) (g : BitVec 3), WatchHears s → s.fe.feCtrl &&& 0x77F = s.fe.feCtrl → min g.toNat 5 ≠ effGain s.fe.feCtrl ch.toNat →
      Answers (.gainChange ch g) s (fun t =>
      effGain t.fe.feCtrl ch.toNat = min g.toNat 5
      ∧ (chanOf t.fe ch.toNat).muteEnd = max (chanOf s.fe ch.toNat).muteEnd (s.clocks.wclk + 24576)
      ∧ (s.fe.fault = false → chanOf t.fe (1 - ch.toNat) = chanOf s.fe (1 - ch.toNat)) ∧ t = { s with fe := t.fe, seen := t.seen }))
  ∧ (∀ s (ch : BitVec 1), WatchHears s → s.fe.feCtrl &&& 0x77F = s.fe.feCtrl → s.fe.feCtrl.getLsbD ch.toNat = true →
      s.fe.feCtrl.getLsbD (2 + ch.toNat) = false → Answers (.biasedSet ch) s (fun t =>
      t.fe.feCtrl = putBit s.fe.feCtrl (2 + ch.toNat) true
      ∧ (chanOf t.fe ch.toNat).muteEnd = max (chanOf s.fe ch.toNat).muteEnd
          (max (if s.fe.ramping then rampEndAt s.fe + 49152 else 0) (s.clocks.wclk + 49152))
      ∧ t = { s with fe := t.fe, seen := t.seen }))
  ∧ (∀ s (ch : BitVec 1), Live s → s.mon.rails.mic = true → s.fe.feCtrl.getLsbD ch.toNat = true →
      (chanOf s.fe ch.toNat).owesFe = true → (chanOf s.fe ch.toNat).muteEnd ≤ s.clocks.wclk → s.fe.biasOwes.getLsbD ch.toNat = false →
      Answers (.zeroMuteEnd ch) s (fun t => t = { s with
        fe := putChan ch.toNat { chanOf s.fe ch.toNat with feBit := true, owesFe := false } s.fe, seen := t.seen }))

/-- The bias generator: it ramps from its present value when it is enabled, disabled or given another voltage, an enable mutes the
biased channels, and those a disable left muted, until 4 ms past its ramp, a range change mutes the biased channels for 4 ms, and the ramp ends at its goal. -/
def Obligations.BiasRamps : Prop :=
  (∀ s, WatchHears s → s.mon.rails.mic = true → s.fe.micbCtrl &&& 0x1F = s.fe.micbCtrl → s.fe.micbCtrl.getLsbD 0 = false →
      Answers .biasEnable s (fun t =>
      t.fe.micbCtrl = putBit s.fe.micbCtrl 0 true ∧ t.fe.ramping = true ∧ t.fe.rampStart = s.clocks.wclk
      ∧ t.fe.rampFrom = rampValue s.fe s.clocks.wclk ∧ t.fe.rampGoal = voltUnits (s.fe.micbCtrl.toNat / 2 % 4)
      ∧ (∀ n < 2, (s.fe.feCtrl.getLsbD n = true ∧ s.fe.feCtrl.getLsbD (2 + n) = true) ∨ s.fe.biasOwes.getLsbD n = true →
          (chanOf t.fe n).muteEnd = max (chanOf s.fe n).muteEnd (rampEndAt t.fe + 49152))
      ∧ t.fe.biasOwes = 0 ∧ t = { s with fe := t.fe, seen := t.seen }))
  ∧ (∀ s, WatchHears s → s.fe.micbCtrl &&& 0x1F = s.fe.micbCtrl → s.fe.micbCtrl.getLsbD 0 = true → Answers .biasDisable s (fun t =>
      t.fe.micbCtrl = putBit s.fe.micbCtrl 0 false ∧ t.fe.ramping = true ∧ t.fe.rampGoal = 0 ∧ t.fe.hdrm = false ∧ t.fe.limit = false
      ∧ t.fe.rampFrom = rampValue s.fe s.clocks.wclk ∧ t = { s with fe := t.fe, seen := t.seen }))
  ∧ (∀ s (v : BitVec 2), WatchHears s → s.mon.rails.mic = true → s.fe.micbCtrl &&& 0x1F = s.fe.micbCtrl →
      s.fe.micbCtrl.getLsbD 0 = true → v.toNat ≠ s.fe.micbCtrl.toNat / 2 % 4 → Answers (.biasVoltChange v) s (fun t =>
      t.fe.micbCtrl.toNat / 2 % 4 = v.toNat ∧ t.fe.ramping = true ∧ t.fe.rampGoal = voltUnits v.toNat
      ∧ t.fe.rampFrom = rampValue s.fe s.clocks.wclk ∧ t.fe.rampStart = s.clocks.wclk ∧ t = { s with fe := t.fe, seen := t.seen }))
  ∧ (∀ s (r : BitVec 2), WatchHears s → s.fe.micbCtrl &&& 0x1F = s.fe.micbCtrl → s.fe.micbCtrl.getLsbD 0 = true →
      r.toNat ≠ s.fe.micbCtrl.toNat / 8 % 4 → Answers (.biasRangeChange r) s (fun t =>
      t.fe.micbCtrl.toNat / 8 % 4 = r.toNat ∧ t.fe.ramping = s.fe.ramping
      ∧ (∀ n < 2, s.fe.feCtrl.getLsbD n = true → s.fe.feCtrl.getLsbD (2 + n) = true →
          (chanOf t.fe n).muteEnd = max (chanOf s.fe n).muteEnd (s.clocks.wclk + 49152))
      ∧ t = { s with fe := t.fe, seen := t.seen }))
  ∧ (∀ s, Live s → s.fe.ramping = true → rampEndAt s.fe ≤ s.clocks.wclk → Answers .rampEnd s (fun t => t = { s with
      fe := { s.fe with ramping := false, rampFrom := s.fe.rampGoal, rampStart := s.clocks.wclk }, seen := t.seen }))

/-- HDRM and LIMIT: each is sticky from its rise and has its own timer, the fault is taken once one has stood for 2 ms and leaves 4 ms
after both have cleared; and the loss and return of VDDA_MIC. -/
def Obligations.BiasFaults : Prop :=
  (∀ s, WatchRuns s → s.fe.micbCtrl.getLsbD 0 = true → s.fe.hdrm = false → s.fe.limit = false → s.wtally.sel = [] →
      Answers (.hdrmChange true) s (fun t => t = { s with
      fe := { s.fe with hdrm := true, hdrmSeen := true, hdrmSince := some s.clocks.wclk, limitSince := none, goodSince := none }
      wtally := watchCounting s t, seen := t.seen }))
  ∧ (∀ s, WatchRuns s → s.fe.micbCtrl.getLsbD 0 = true → s.fe.hdrm = true → s.fe.limit = false → Answers (.hdrmChange false) s (fun t =>
      t = { s with fe := { s.fe with hdrm := false, hdrmSince := none, limitSince := none, goodSince := some s.clocks.wclk }
                   seen := t.seen }))
  ∧ (∀ s, WatchRuns s → s.fe.micbCtrl.getLsbD 0 = true → s.fe.hdrm = false → s.fe.limit = false → s.wtally.sel = [] →
      s.fe.ramping = false → s.fe.rampStart + 12288 ≤ s.clocks.wclk → Answers (.limitChange true) s (fun t => t = { s with
      fe := { s.fe with limit := true, limitSeen := true, limitSince := some s.clocks.wclk, hdrmSince := none, goodSince := none }
      wtally := watchCounting s t, seen := t.seen }))
  ∧ (∀ s b, Live s → (s.fe.hdrmSince = some b ∨ s.fe.limitSince = some b) → b + 24576 ≤ s.clocks.wclk → Answers .micbFault s (fun t =>
      t.fe.fault = true ∧ t.alert = putBit s.alert 5 true ∧ t = { s with fe := t.fe, alert := t.alert, seen := t.seen }))
  ∧ (∀ s g, Live s → s.fe.goodSince = some g → g + 49152 ≤ s.clocks.wclk → s.fe.fault = true → Answers .faultMuteEnd s (fun t =>
      t.fe.fault = false ∧ t = { s with fe := t.fe, seen := t.seen }))
  ∧ (∀ s, Live s → s.mon.rails.mic = true → Answers .vddaMicLoss s (fun t =>
      t.mon.rails.mic = false ∧ (chanOf t.fe 0).feBit = false ∧ (chanOf t.fe 1).feBit = false ∧ (∀ i < 72, (encOf t.fe i).armed = false)
      ∧ t.fe.ramping = false ∧ t.fe.rampGoal = 0 ∧ t.loft.feRun = 0
      ∧ t = { s with mon := { s.mon with rails := { s.mon.rails with mic := false } }, fe := t.fe
                     loft := { s.loft with feRun := 0 }, seen := t.seen }))
  ∧ (∀ s, WatchRuns s → s.mon.rails.mic = false → s.fe.micbCtrl.getLsbD 0 = false → Answers .vddaMicReturn s (fun t =>
      t.mon.rails.mic = true
      ∧ (∀ n < 2, s.fe.feCtrl.getLsbD n = true → (chanOf t.fe n).owesFe = true
          ∧ (chanOf t.fe n).muteEnd = max (chanOf s.fe n).muteEnd (s.clocks.wclk + 122880))
      ∧ t = { s with mon := { s.mon with rails := { s.mon.rails with mic := true } }, fe := t.fe, seen := t.seen }))

/-- Encoder settings wait for the next hop, HQ_EN mutes the enabled channels for 6 ms, the sensor port takes its settings at a sample
tick and its samples at the end of a transaction, and the trims are read from the granary. -/
def Obligations.EncodersAndSensors : Prop :=
  (∀ s (ch : BitVec 1), WatchHears s → s.fe.fbCtrl &&& 0x3FFF3 = s.fe.fbCtrl → Answers (.encoderEnable ch) s (fun t => t = { s with
      fe := { s.fe with fbCtrl := putBit s.fe.fbCtrl ch.toNat true }, seen := t.seen }))
  ∧ (∀ s d, WatchHears s → Answers (.encoderSettings d) s (fun t => t = { s with
      fe := { s.fe with fbCtrl := d &&& 0x3FFF3 }, seen := t.seen }))
  ∧ (∀ s, WatchHears s → s.fe.decCtrl &&& 0xF = s.fe.decCtrl → s.fe.decCtrl.getLsbD 0 = false → Answers (.hqPathChange true) s (fun t =>
      t.fe.decCtrl = putBit s.fe.decCtrl 0 true
      ∧ (∀ n < 2, s.fe.feCtrl.getLsbD n = true → (chanOf t.fe n).muteEnd = max (chanOf s.fe n).muteEnd (s.clocks.wclk + 73728))
      ∧ t = { s with fe := t.fe, seen := t.seen }))
  ∧ (∀ s, WatchHears s → s.fe.sens0 &&& 0x1FFFF = s.fe.sens0 → s.fe.sens0.getLsbD 0 = false → Answers .sensorPortEnable s (fun t =>
      t = { s with fe := { s.fe with sens0 := putBit s.fe.sens0 0 true, nextTick := s.clocks.wclk, taken := 0, axisHist := []
                                     sensReady := false }, seen := t.seen }))
  ∧ (∀ s, WatchHears s → s.fe.sens0 &&& 0x1FFFF = s.fe.sens0 → s.fe.sens0.getLsbD 0 = true → s.fe.sensBusy = true →
      Answers .sensorPortDisable s (fun t =>
      t = { s with fe := { s.fe with sens0 := putBit s.fe.sens0 0 false, sensReady := false }, seen := t.seen }))
  ∧ (∀ s d, WatchHears s → Answers (.sensorSettings (.ctrl1 d)) s (fun t => t = { s with
      fe := { s.fe with sens1 := d &&& 0xFFFF }, seen := t.seen }))
  ∧ (∀ s, WatchRuns s → s.fe.sens0.getLsbD 0 = true → s.fe.nextTick ≤ s.clocks.wclk → pinsTested s = false → s.fe.sensBusy = false →
      Answers .sampleTick s (fun t =>
      t.fe.sensNow0 = s.fe.sens0 ∧ t.fe.sensNow1 = s.fe.sens1 ∧ t.fe.sensNow2 = s.fe.sens2 ∧ t.fe.sensBusy = true
      ∧ t.fe.sensTxn = (s.fe.sens0, s.fe.sens1) ∧ t.fe.sensStart = s.clocks.wclk
      ∧ t.fe.nextTick = s.fe.nextTick + 122880 / 2 ^ min (s.fe.sens0.toNat / 16 % 8) 4
      ∧ t = { s with fe := t.fe, seen := t.seen }))
  ∧ (∀ s bs, Live s → s.fe.sensBusy = true → pinsTested s = false → s.fe.sens0.getLsbD 0 = true →
      s.fe.sensStart + txnClocks s.fe.sensTxn.1 ≤ s.clocks.wclk →
      Answers (.sensorTransactionEnd bs) s (fun t =>
      t.fe.sensBusy = false ∧ t.fe.sensReady = true ∧ t.fe.taken = min (s.fe.taken + 1) 16
      ∧ (s.fe.sensTxn.1.toNat / 1024 % 8 = 2 → s.fe.sensTxn.1.toNat / 16384 % 4 = 1 → bs.length = 2 →
          sget [] t.fe.axisHist 0 = (signed 16 (if s.fe.sensTxn.1.getLsbD 13 then ofLe bs else ofBe bs) :: sget [] s.fe.axisHist 0).take 16)
      ∧ t = { s with fe := t.fe, seen := t.seen }))
  ∧ (∀ s, WatchRuns s → viewRecord s.gran homeFeTrim = none → viewRecord s.gran homeMicbTrim = none → Answers .trimRead s (fun t =>
      t = { s with fe := { s.fe with trims := List.replicate 80 0, micbTrims := List.replicate 8 0, oldTrims := t.fe.oldTrims }
                   seen := t.seen }))

/-- A hop boundary moves the grid on by 12,288 clocks, puts the encoder settings in force, and records one frame of the loft's
channel; it touches nothing outside the watchman. The command stands for the passing of the watchman's clock up to the boundary (the
model's choice, log 4). -/
def Obligations.HopBoundary : Prop :=
  ∀ s h, WatchRuns s → s.fe.gridOn = true → Answers (.hopBoundary h) s (fun t =>
    t.fe.hopNext = s.fe.hopNext + 12288 ∧ t.fe.hopCount = s.fe.hopCount + 1 ∧ t.clocks.wclk = max s.clocks.wclk s.fe.hopNext
    ∧ t.fe.fbNow = s.fe.fbCtrl ∧ t.fe.feCtrl = s.fe.feCtrl ∧ t.loft.frames.length = min (s.loft.frames.length + 1) 4000
    ∧ (t.loft.frames.head?.map (fun f => f.hop)) = some t.clocks.wclk
    ∧ t = { s with clocks := { s.clocks with wclk := t.clocks.wclk }, fe := t.fe, wc := t.wc, bell := t.bell, loft := t.loft
                   wtally := t.wtally, seen := t.seen })

/-- A level-crossing encoder at one hop: none from an invalid hop, which disarms it, none from one that rebases it; else, with q_up and
q_dn the levels crossed now, it emits min(q_up - q_prev, MAXPH) spikes upward, or lowers q_prev by min(q_prev - q_dn, MAXPH) and emits
as many downward where DOWN is enabled and not suppressed. A hop that MAXPH does not cut leaves q_prev between q_up and q_dn. -/
def Obligations.EncoderSpikes : Prop :=
  ∀ (e : Encoder) (valid : Bool) (c b on step maxph : Nat) (downEn suppressed : Bool),
    let r := encoderHop e valid c b on step maxph downEn suppressed
    let qUp := if b + on ≤ c then 1 + (c - (b + on)) / step else 0
    let qDn := if b + on ≤ c + 2 then 1 + (c + 2 - (b + on)) / step else 0
    r.2.1 ≤ maxph ∧ r.2.2 ≤ maxph ∧ (r.2.1 = 0 ∨ r.2.2 = 0) ∧ ((valid = false ∨ e.armed = false) → r.2.1 = 0 ∧ r.2.2 = 0)
    ∧ (valid = false → r.1.armed = false ∧ r.1.qPrev = e.qPrev) ∧ (valid = true → r.1.armed = true)
    ∧ (valid = true → e.armed = false → r.1.qPrev = qUp)
    ∧ (valid = true → e.armed = true → r.1.qPrev ≤ e.qPrev + maxph ∧ e.qPrev ≤ r.1.qPrev + maxph)
    ∧ (valid = true → e.armed = true → e.qPrev < qUp →
        r.2.1 = min (qUp - e.qPrev) maxph ∧ r.1.qPrev = e.qPrev + r.2.1 ∧ r.2.2 = 0)
    ∧ (valid = true → e.armed = true → qUp ≤ e.qPrev → r.2.1 = 0)
    ∧ (valid = true → e.armed = true → qUp ≤ e.qPrev → qDn < e.qPrev → r.1.qPrev = e.qPrev - min (e.qPrev - qDn) maxph
        ∧ r.2.2 = if downEn && !suppressed then min (e.qPrev - qDn) maxph else 0)
    ∧ (valid = true → e.armed = true → qUp ≤ e.qPrev → e.qPrev ≤ qDn → r = (e, 0, 0))
    ∧ ((downEn = false ∨ suppressed = true) → r.2.2 = 0)
    ∧ (valid = true → qUp ≤ e.qPrev + maxph → e.qPrev ≤ qDn + maxph → qUp ≤ r.1.qPrev ∧ r.1.qPrev ≤ qDn)

/-- A baseline moves toward the level and never past it: a rise adds (x - B) >> (10 + RISE), at most 78 units of 2^-16 a hop, and a
fall takes (B - x) >> 9, with x the level in those units. -/
def Obligations.BaselineAdapts : Prop :=
  ∀ (rise : Nat) (b : BitVec 24) (c : Nat), c < 256 →
    (b.toNat < c * 65536 → b.toNat ≤ (adaptBaseline rise b c).toNat ∧ (adaptBaseline rise b c).toNat ≤ c * 65536
      ∧ (adaptBaseline rise b c).toNat ≤ b.toNat + 78
      ∧ (adaptBaseline rise b c).toNat = b.toNat + min ((c * 65536 - b.toNat) / 2 ^ (10 + rise)) 78)
    ∧ (c * 65536 ≤ b.toNat → c * 65536 ≤ (adaptBaseline rise b c).toNat ∧ (adaptBaseline rise b c).toNat ≤ b.toNat
      ∧ (adaptBaseline rise b c).toNat = b.toNat - (b.toNat - c * 65536) / 512)

/-! ## Watch cores, bell, loft -/

/-- Arming seeds the baselines and clears the counts, disarming between steps stops the cores, and network memory is written only
while the cores are disarmed and cleared. -/
def Obligations.WatchCoreControl : Prop :=
  (∀ s, WatchHears s → s.wc.ready = true → s.wc.arm = false → s.wc.stage = .none → Answers .arm s (fun t =>
      t.wc.arm = true ∧ t.wc.replay = s.wc.replay ∧ t.wc.base = seedBaselines s.gran ∧ t.wc.stepNo = 0 ∧ t.wc.winSeq = 0
      ∧ t.wc.live = [] ∧ t.wc.pub = []
      ∧ t.wc.h0 = some (firstHopAfter s s.clocks.wclk) ∧ t.wc.queues = [] ∧ t.wc.stepsBegun = 0 ∧ t.bell.latches = 0
      ∧ t = { s with wc := t.wc, bell := t.bell, seen := t.seen }))
  ∧ (∀ s, WatchHears s → s.wc.arm = true → s.wc.stage = .none → Answers .disarm s (fun t =>
      t.wc.arm = false ∧ t.wc.running = false ∧ t.wc.queues = [] ∧ t.wc.inputs = [] ∧ t.wc.h0 = none
      ∧ t = { s with wc := t.wc, seen := t.seen }))
  ∧ (∀ s d, WatchHears s → s.wc.ready = true → s.wc.arm = false → s.wc.running = false → s.wc.waddr.toNat < 0x1A000 →
      Answers (.wcMemDataWrite d) s (fun t => t = { s with
      wc := { s.wc with net := sput 0 s.wc.net s.wc.waddr.toNat d, waddr := s.wc.waddr + 1 }, seen := t.seen }))
  ∧ (∀ s d, WatchHears s → s.wc.arm = true → Answers (.wcMemDataWrite d) s (fun t => t = { s with
      wc := { s.wc with memBlocked := true, waddr := s.wc.waddr + 1 }, seen := t.seen }))
  ∧ (∀ s (k : BitVec 4) d, WatchHears s → s.wc.ready = true → s.wc.arm = false → s.wc.running = false → s.wc.waddr.toNat < 0x1A000 →
      Answers (.wcMemWinWrite k d) s (fun t => t = { s with
      wc := { s.wc with net := sput 0 s.wc.net (16 * (s.wc.waddr.toNat / 16) + k.toNat) d
                        waddr := if k = 15 then s.wc.waddr + 16 else s.wc.waddr }, seen := t.seen }))

/-- A step takes in its hop's spikes, the cutoff turns what is left into late drops, and the end of a step counts it. There
each rule whose test passes while its latch is clear fires; at the last step of a window the live counts become the published bank, or
are held while GCS_N is low, and the latches clear; a held window is published. -/
def Obligations.WatchSteps : Prop :=
  (∀ s h xs rest, WatchRuns s → s.wc.arm = true → s.wc.replay = false → s.wc.h0 = some h → s.wc.stage = .none → s.wc.inputs = xs :: rest →
      stepStartAt s.wc h ≤ s.clocks.wclk → Answers .watchStep s (fun t =>
      t.wc.stepsBegun = s.wc.stepsBegun + 1 ∧ t.wc.running = true ∧ t.wc.inputs = rest ∧ t.wc.stage ≠ .none
      ∧ t.wc.stepNo = s.wc.stepNo ∧ t.fe = s.fe ∧ t.loft = s.loft ∧ t.bell = s.bell ∧ t.loom = s.loom))
  ∧ (∀ s left, Live s → s.wc.stage = .cutoff left → s.wc.h0.getD 0 + 12288 * (s.wc.stepsBegun - 1) + 39936 ≤ s.clocks.wclk →
      Answers .deliveryCutoff s (fun t => t.wc.stage = .ended ∧ t.wc.stepsBegun = s.wc.stepsBegun
      ∧ t.wc.late = left.foldl (fun m e => smod 0 m e.1 (fun c => satAdd c e.2.length)) s.wc.late
      ∧ t.fe = s.fe ∧ t.loft = s.loft ∧ t.bell = s.bell ∧ t.loom = s.loom))
  ∧ (∀ s low, Live s → s.wc.stage = .ended → s.wc.ends.headD 0 ≤ s.clocks.wclk → Answers (.stepEnd low) s (fun t =>
      t.wc.stepNo = s.wc.stepNo + 1 ∧ t.wc.stage = .none ∧ (s.loft.auto = false → t.loft = s.loft) ∧ t.fe = s.fe ∧ t.loom = s.loom))
  ∧ (∀ s low, Live s → s.wc.stage = .ended → s.wc.ends.headD 0 ≤ s.clocks.wclk → s.wc.pendSet = [] → pinsTested s = false →
      Answers (.stepEnd low) s (fun t =>
      (∀ n < 8, t.bell.lastFired.getLsbD n = true ↔ s.bell.latches.getLsbD n = false ∧
        let rule := (sget 0 s.bell.rulesNow n).toNat
        let a := (sget 0 s.wc.live (rule / 2 ^ 3 % 64)).toNat
        let b := (sget 0 s.wc.live (rule / 2 ^ 9 % 64)).toNat
        let least := max (rule / 2 ^ 15 % 2 ^ 16) 1
        rule % 2 = 1 ∧ ((rule / 2 % 4 = 0 ∧ least ≤ a) ∨ (rule / 2 % 4 = 1 ∧ least ≤ a + b)
          ∨ (rule / 2 % 4 = 2 ∧ least ≤ a ∧ b < a) ∨ (rule / 2 % 4 = 3 ∧ least ≤ a ∧ least ≤ b)))
      ∧ (t.bell.lastFired = 0 → t.bell.firings = s.bell.firings)
      ∧ (t.bell.lastFired ≠ 0 → t.bell.firings.dropLast = s.bell.firings
          ∧ t.bell.firings.getLast?.map (fun f => (f.rules, f.ring, f.loom, f.step, f.ended, f.replay)) =
            some (t.bell.lastFired, s.bell.ringNow, s.bell.loomNow, s.wc.stepNo + 1, s.wc.ends.headD 0, s.wc.replay))
      ∧ (s.wc.winStart + 10 * max s.wc.winLenNow.toNat 1 ≤ s.wc.stepsBegun →
          t.wc.live = [] ∧ t.bell.latches = 0 ∧ t.wc.winTotal = s.wc.winTotal + 1 ∧ t.wc.winStart = s.wc.stepsBegun
          ∧ t.wc.winLenNow = s.wc.winLenNext
          ∧ (low = false → t.wc.pub = s.wc.live ∧ t.wc.winSeq = BitVec.ofNat 32 (s.wc.winTotal + 1) ∧ t.wc.heldWin = none)
          ∧ (low = true → t.wc.pub = s.wc.pub ∧ t.wc.winSeq = s.wc.winSeq ∧ t.wc.heldWin = some s.wc.live))
      ∧ (s.wc.stepsBegun < s.wc.winStart + 10 * max s.wc.winLenNow.toNat 1 →
          t.wc.live = s.wc.live ∧ t.wc.pub = s.wc.pub ∧ t.wc.winSeq = s.wc.winSeq ∧ t.wc.winTotal = s.wc.winTotal
          ∧ t.wc.winStart = s.wc.winStart ∧ t.wc.heldWin = s.wc.heldWin ∧ t.bell.latches = s.bell.latches ||| t.bell.lastFired)))
  ∧ (∀ s p, Live s → s.wc.heldWin = some p → Answers .windowPublish s (fun t => t = { s with
      wc := { s.wc with pub := p, winSeq := BitVec.ofNat 32 s.wc.winTotal, heldWin := none }, seen := t.seen }))

/-- A refractory neuron counts down and does not fire; a neuron that fires starts its refractory count from its parameter set, and one that
does not fire is left under its threshold. -/
def Obligations.NeuronRule : Prop :=
  ∀ (w : WatchCores) (core rec0 : Nat) (acc : Int),
    (0 < rec0 / 2 ^ 20 % 16 → neuronStep w core rec0 acc = (setField rec0 20 4 (rec0 / 2 ^ 20 % 16 - 1), false))
    ∧ (rec0 / 2 ^ 20 % 16 = 0 → (neuronStep w core rec0 acc).2 = true →
        field (neuronStep w core rec0 acc).1 20 4 = field (synWord w core (144 + 4 * (rec0 / 2 ^ 16 % 16) + 1)) 20 4)
    ∧ (rec0 / 2 ^ 20 % 16 = 0 → (neuronStep w core rec0 acc).2 = false →
        signed 16 (field (neuronStep w core rec0 acc).1 0 16) < signed 16 (field (synWord w core (144 + 4 * (rec0 / 2 ^ 16 % 16))) 0 16))

/-- R203: the value of a packed weight, header bits 8 to 6 holding W - 1 and bits 31 to 29 the shift of its effective weight. -/
def Obligations.SynapseWeights : Prop :=
  ∀ (w : WatchCores) (core h header j : Nat),
    let width : Nat := header / 2 ^ 6 % 8 + 1
    let words : Nat := synWord w core (h + 1 + j * width / 32) + 2 ^ 32 * synWord w core (h + 2 + j * width / 32)
    let code : Nat := words / 2 ^ (j * width % 32) % 2 ^ width
    let shift : Int := 2 ^ (header / 2 ^ 29 % 8)
    (width = 1 → code = 0 → weightOf w core h header j = -1 * shift) ∧ (width = 1 → code = 1 → weightOf w core h header j = 1 * shift)
    ∧ (2 ≤ width → code < 2 ^ (width - 1) → weightOf w core h header j = (code : Int) * shift)
    ∧ (2 ≤ width → 2 ^ (width - 1) ≤ code → weightOf w core h header j = ((code : Int) - 2 ^ width) * shift)
    ∧ -16384 ≤ weightOf w core h header j ∧ weightOf w core h header j ≤ 16256

/-- The bell action adds its rules to the cause and drives the bell for those that ring, an acknowledgement clears both but for the
firings of its own clock, a freeze waits for its boundary, and a release frees the frozen half unless it was frozen in that clock; the
freezes an older half denied in that clock then take place. That a FREEZE adds nothing while one is requested is the model's choice
(log 25). -/
def Obligations.BellAndLoft : Prop :=
  (∀ s f fs, Live s → s.bell.firings = f :: fs → max f.nominal f.ended ≤ s.clocks.wclk → s.esc.en = false →
      f.rules &&& f.loom = 0 → Answers .bellAction s (fun t =>
      t.bell.firings = fs ∧ t.bell.causeRules = s.bell.causeRules ||| f.rules
      ∧ t.bell.bellN = (s.bell.bellN || f.rules &&& f.ring != 0)
      ∧ (s.bell.causeRules = 0 → t.bell.causeStep = BitVec.ofNat 16 f.step.toNat)
      ∧ t = { s with bell := t.bell, wtally := t.wtally, loft := (settleFreeze s).loft, seen := t.seen }))
  ∧ (∀ s f fs, Live s → s.bell.firings = f :: fs → max f.nominal f.ended ≤ s.clocks.wclk → s.esc.en = false →
      f.rules &&& f.loom ≠ 0 → s.pwr.target ≠ .l3 → Answers .bellAction s (fun t => t.pwr.bellWake = true ∧ t.loom = s.loom))
  ∧ (∀ s, WatchHears s → s.bell.actedAt ≠ s.clocks.wclk → Answers .bellAck s (fun t => t = { s with
      bell := { s.bell with bellN := false, causeRules := 0, causeFirst := 0, causeReplay := false, causeSust := false, causeStep := 0
                            acted := [] }
      seen := t.seen }))
  ∧ (∀ s, WatchHears s → s.bell.actedAt = s.clocks.wclk → Answers .bellAck s (fun t => t = { s with
      bell := s.bell.acted.foldl bellCause { s.bell with
        bellN := false, causeRules := 0, causeFirst := 0, causeReplay := false, causeSust := false, causeStep := 0 }
      seen := t.seen }))
  ∧ (∀ s, WatchHears s → s.loft.frozen = none → Answers .loftFreeze s (fun t => t = { s with
      loft := { s.loft with request := some (s.loft.request.getD (s.clocks.wclk + 13)) }, seen := t.seen }))
  ∧ (∀ s f, WatchHears s → s.loft.frozen = some f → Answers .loftFreeze s (fun t => t = { s with
      loft := { s.loft with missed := true }, seen := t.seen }))
  ∧ (∀ s, WatchHears s → s.loft.hold = false → s.loft.frozen.all (fun h => h.point != s.clocks.wclk) = true →
      s.loft.denied.all (fun d => d.clk != s.clocks.wclk) = true → Answers .loftRelease s (fun t => t = { s with
      loft := { s.loft with frozen := none, releaseOwed := false, hold := false }, seen := t.seen }))
  ∧ (∀ s h, WatchHears s → s.loft.hold = false → s.loft.frozen = some h → h.point = s.clocks.wclk →
      Answers .loftRelease s (fun t => t = { s with seen := t.seen }))
  ∧ (∀ s h d, WatchHears s → s.loft.hold = false → s.loft.frozen = some h → h.point ≠ s.clocks.wclk → s.loft.denied = some d →
      d.clk = s.clocks.wclk → d.manual = true → d.auto = none → Answers .loftRelease s (fun t =>
      t.loft.frozen.map (fun g => (g.manual, g.point)) = some (true, s.clocks.wclk) ∧ t.loft.missed = d.missed
      ∧ t = { s with loft := t.loft, seen := t.seen }))
  ∧ (∀ s h d f, WatchHears s → s.loft.hold = false → s.loft.frozen = some h → h.point ≠ s.clocks.wclk → s.loft.denied = some d →
      d.clk = s.clocks.wclk → d.manual = false → d.auto = some f → Answers .loftRelease s (fun t =>
      t.loft.frozen.map (fun g => (g.manual, g.auto, g.point, g.rules)) = some (false, true, f.nominal, f.rules)
      ∧ t.loft.missed = d.missed ∧ t = { s with loft := t.loft, seen := t.seen }))
  ∧ (∀ s, WatchHears s → s.loft.hold = true → Answers .loftRelease s (fun t => t = { s with
      loft := { s.loft with releaseOwed := true }, seen := t.seen }))

/-- Watchman tallies: a new source clears its counter, CLR clears it, each before the events of its own clock, and a read of that clock
takes the count before; a write reaches the watchman in order and is lost without AONCLK, and the Gray counts are added where a counter
selects them. That GRAY_COUNT_SAMPLE n passes n watchman clocks is the model's choice (log 4). -/
def Obligations.WatchmanTally : Prop :=
  (∀ s (n : BitVec 3) (src : BitVec 8), WatchHears s → src ≠ sget 0 s.wtally.sel n.toNat → Answers (.watchTallySelect n src) s (fun t =>
      sget 0 t.wtally.sel n.toNat = src
      ∧ (s.wtally.evClk ≠ s.clocks.wclk → sget .init t.wtally.cnt n.toNat = .init)
      ∧ (s.wtally.evClk = s.clocks.wclk → sget .init t.wtally.cnt n.toNat = bump (sget 0 s.wtally.evs src.toNat) .init)
      ∧ (∀ m < 8, m ≠ n.toNat → sget 0 t.wtally.sel m = sget 0 s.wtally.sel m
          ∧ sget .init t.wtally.cnt m = sget .init s.wtally.cnt m)
      ∧ (s.wtally.evClk ≠ s.clocks.wclk → ∀ m < 8, wtallyOf t m = wtallyOf s m)
      ∧ t = { s with wtally := t.wtally, seen := t.seen } ∧ t.wtally.shadow = s.wtally.shadow
      ∧ t.wtally.refAborts = s.wtally.refAborts ∧ t.wtally.refFails = s.wtally.refFails ∧ t.wtally.refOk = s.wtally.refOk
      ∧ t.wtally.refCommits = s.wtally.refCommits))
  ∧ (∀ s (n : BitVec 3), WatchHears s → Answers (.watchTallyClr n) s (fun t =>
      (∀ m < 8, sget 0 t.wtally.sel m = sget 0 s.wtally.sel m)
      ∧ (s.wtally.evClk ≠ s.clocks.wclk → sget .init t.wtally.cnt n.toNat = .init ∧ ∀ m < 8, wtallyOf t m = wtallyOf s m)
      ∧ (s.wtally.evClk = s.clocks.wclk →
          sget .init t.wtally.cnt n.toNat = bump (sget 0 s.wtally.evs (sget 0 s.wtally.sel n.toNat).toNat) .init)
      ∧ (∀ m < 8, m ≠ n.toNat → sget .init t.wtally.cnt m = sget .init s.wtally.cnt m)
      ∧ t = { s with wtally := t.wtally, seen := t.seen } ∧ t.wtally.shadow = s.wtally.shadow
      ∧ t.wtally.refAborts = s.wtally.refAborts ∧ t.wtally.refFails = s.wtally.refFails ∧ t.wtally.refOk = s.wtally.refOk
      ∧ t.wtally.refCommits = s.wtally.refCommits))
  ∧ (∀ s n src, WatchRuns s → s.clocks.wclk ≠ s.wtally.evClk → s.wtally.sel = [(n, src)] →
      let t := watchTally src.toNat 1 s
      sget .init t.wtally.cnt n = bump 1 (wtallyOf s n)
      ∧ wtallyOf { t with wtally := clearWatchTally n s.clocks.wclk src.toNat t.wtally } n = wtallyOf s n)
  ∧ (∀ s d via at_ rest, WatchRuns s → s.wflight = { addr := 0x215, data := d, via := via, at_ := at_ } :: rest →
      Answers .writeReachesWatchman s (fun t => t = { s with
      wflight := rest, loft := { s.loft with block := BitVec.ofNat 9 d.toNat }, seen := t.seen }))
  ∧ (∀ s x rest, Live s → s.wc.aonclk = false → s.wflight = x :: rest → Answers .writeReachesWatchman s (fun t => t = { s with
      wflight := rest, seen := t.seen }))
  ∧ (∀ s n, WatchRuns s → 0 < n → s.wtally.sel = [(3, 0x01)] → (sget .init s.wtally.cnt 3).sat = false →
      s.wtally.evClk ≤ s.clocks.wclk →
      (sget .init s.wtally.cnt 3).count.toNat + 256 < 2 ^ 48 → Answers (.grayCountSample n) s (fun t =>
      t.clocks.wclk = s.clocks.wclk + n
      ∧ (wtallyOf t 3).count.toNat = (sget .init s.wtally.cnt 3).count.toNat + (s.port.grayAborts - s.wtally.refAborts).toNat
      ∧ t.wtally.refAborts = s.port.grayAborts
      ∧ t = { s with clocks := { s.clocks with wclk := t.clocks.wclk }, wtally := t.wtally, seen := t.seen }))

/-! ## Escalation -/

/-- An escalation copies once the loom is up and its destinations are good, its entry is fetched, before its limit, ahead of the ring entries of
its lc and answered in fetch order, an answer ends it PRESENTED, and it times out (WAIT + 1) ms after its trigger. -/
def Obligations.Escalations : Prop :=
  (∀ s, Live s → s.esc.st = .waitLoom → s.pwr.st = .l0 → mesochronousRuns s = true → destsGood s = true →
      Answers .escalationCopyStart s (fun t => t = { s with esc := { s.esc with st := .copy }, seen := t.seen }))
  ∧ (∀ s, Live s → s.esc.st = .waitLoom → s.pwr.st = .l0 → mesochronousRuns s = true → destsGood s = false →
      Answers .escalationCopyStart s (fun t => t.esc.st = .idle ∧ t.esc.outcome = 6 ∧ t.esc.endedIn = 1 ∧ t.alert = putBit s.alert 12 true))
  ∧ (∀ s, Live s → s.esc.st = .waitFetch → s.esc.fetched = false → s.clocks.wclk < s.esc.since + 12288 * (s.esc.waitMs.toNat + 1) →
      fetchOpen s = true → tenantOpen s s.esc.latTenant.toNat = true →
      Answers .escalationEntry s (fun t => t.esc.fetched = true ∧ t.loom.order = s.loom.order + 1 ∧ t.esc.st = .waitFetch))
  ∧ (∀ s, Live s → s.esc.st = .waitFetch → s.esc.fetched = false → s.clocks.wclk < s.esc.since + 12288 * (s.esc.waitMs.toNat + 1) →
      fetchOpen s = true → tenantOpen s s.esc.latTenant.toNat = true →
      s.loom.fetched = [] → s.loom.answeredAt ≠ some s.clocks.lc →
      Answers .escalationEntry s (fun t => t.esc.answerDue.isSome = true ∧ t.loom.fetched = []
        ∧ t.loom.answeredAt = some s.clocks.lc))
  ∧ (∀ s f rest, Live s → s.esc.st = .waitFetch → s.esc.fetched = false →
      s.clocks.wclk < s.esc.since + 12288 * (s.esc.waitMs.toNat + 1) → fetchOpen s = true →
      tenantOpen s s.esc.latTenant.toNat = true → s.loom.fetched = f :: rest → f.esc = false →
      (∀ g ∈ s.loom.fetched, g.lc ≠ s.clocks.lc) →
      Answers .escalationEntry s (fun t => t.esc = { s.esc with fetched := true }
        ∧ t.loom.fetched = s.loom.fetched ++ [{ ring := 4 * s.esc.latTenant.toNat, index := 0xFFFFFFFF
                                                bytes := escEntryBytes s.esc s.loom.now.toNat, esc := true, order := s.loom.order
                                                lc := s.clocks.lc }]
        ∧ t = { s with esc := t.esc, loom := { s.loom with
            rings := t.loom.rings, fetched := t.loom.fetched, order := s.loom.order + 1 }, seen := t.seen }))
  ∧ (∀ s f rest, Live s → s.esc.st = .waitFetch → s.esc.fetched = false →
      s.clocks.wclk < s.esc.since + 12288 * (s.esc.waitMs.toNat + 1) → fetchOpen s = true →
      tenantOpen s s.esc.latTenant.toNat = true → s.loom.fetched = f :: rest → s.loom.answeredAt = some s.clocks.lc →
      (∀ g ∈ s.loom.fetched, g.lc = s.clocks.lc) →
      Answers .escalationEntry s (fun t => t.esc = { s.esc with fetched := true }
        ∧ t.loom.fetched = { ring := 4 * s.esc.latTenant.toNat, index := 0xFFFFFFFF, bytes := escEntryBytes s.esc s.loom.now.toNat
                             esc := true, order := f.order, lc := s.clocks.lc }
            :: s.loom.fetched.map (fun g => { g with order := g.order + 1 })))
  ∧ (∀ s, Live s → s.esc.st = .waitFetch → s.esc.since + 12288 * (s.esc.waitMs.toNat + 1) ≤ s.clocks.wclk →
      Answers .escalationEntry s (fun t => t = { s with seen := t.seen }))
  ∧ (∀ s c, Live s → s.esc.st = .waitFetch → s.esc.answerDue = some c → s.loft.hold = false → Answers .escalationAnswer s (fun t =>
      t.esc = { s.esc with st := .idle, outcome := 1, answer := c, endedIn := 3, tenant := s.esc.latTenant, rule := s.esc.latRule
                           fetched := false, answerDue := none }
      ∧ t.alert = (if c = 0 then s.alert else putBit s.alert 12 true) ∧ t = { s with esc := t.esc, alert := t.alert, seen := t.seen }))
  ∧ (∀ s, Live s → s.esc.st ≠ .idle → s.esc.fetched = false → s.loft.hold = false →
      s.esc.since + 12288 * (s.esc.waitMs.toNat + 1) ≤ s.clocks.wclk → Answers .escalationTimeout s (fun t =>
      t.esc.st = .idle ∧ t.esc.outcome = 7 ∧ t.alert = putBit s.alert 12 true
      ∧ t = { s with esc := t.esc, alert := t.alert, seen := t.seen }))

/-! ## Drafts -/

/-- L_DRAFT_LOAD: NEW takes an EMPTY id to LOADING, HOT leaves its id running, COLD takes its id to COLD, UNLOAD ends at once with its
id marked, and GO while BUSY only sets OVERRUN. -/
def Obligations.DraftLoads : Prop :=
  (∀ s (id : BitVec 10) (ten : BitVec 8), HostHeard s → s.loom.verify.busy = false → (draftOf s id.toNat).st = .empty →
      Answers (.draftNew id ten) s (fun t =>
      draftOf t id.toNat = { draftOf s id.toNat with st := .loading, tenant := ten.toNat } ∧ t.loom.verify.busy = true
      ∧ t.loom.verify.result = 0xFF ∧ t.loom.verify.id = id
      ∧ (t.loom.load.map (fun ld => (ld.id, ld.tenant, ld.addr, ld.taken))) = some (id.toNat, ten.toNat, s.loom.draftAddr.toNat, 0)
      ∧ t = { s with loom := { s.loom with
          drafts := t.loom.drafts, verify := t.loom.verify, load := t.loom.load, loadReg := t.loom.loadReg }, seen := t.seen }))
  ∧ (∀ s (id : BitVec 10) (ten : BitVec 8), HostHeard s → s.loom.verify.busy = false → Answers (.draftHot id ten) s (fun t =>
      t.loom.verify.busy = true ∧ (t.loom.load.map (fun ld => (ld.id, ld.tenant, ld.mode))) = some (id.toNat, ten.toNat, .hot)
      ∧ t = { s with loom := { s.loom with verify := t.loom.verify, load := t.loom.load, loadReg := t.loom.loadReg }, seen := t.seen }))
  ∧ (∀ s (id : BitVec 10) (ten : BitVec 8), HostHeard s → s.loom.verify.busy = false → (draftOf s id.toNat).st = .resident →
      (draftOf s id.toNat).tenant = ten.toNat → Answers (.draftCold id ten) s (fun t =>
      draftOf t id.toNat = { draftOf s id.toNat with st := .cold, freed := false }
      ∧ (t.loom.load.map (fun ld => (ld.id, ld.tenant, ld.mode))) = some (id.toNat, ten.toNat, .cold)
      ∧ t = { s with loom := { s.loom with
          drafts := t.loom.drafts, verify := t.loom.verify, load := t.loom.load, loadReg := t.loom.loadReg }, seen := t.seen }))
  ∧ (∀ s (id : BitVec 10) (ten : BitVec 8), HostHeard s → s.loom.verify.busy = false → (draftOf s id.toNat).st = .resident →
      (draftOf s id.toNat).tenant = ten.toNat → Answers (.draftUnload id ten) s (fun t =>
      draftOf t id.toNat = { draftOf s id.toNat with unloading := true } ∧ t.loom.verify.busy = false ∧ t.loom.verify.result = 0
      ∧ t.loom.load = none))
  ∧ (∀ s (id : BitVec 10) (ten : BitVec 8), HostHeard s → s.loom.verify.busy = true → Answers (.draftNew id ten) s (fun t => t = { s with
      loom := { s.loom with verify := { s.loom.verify with overrun := true } }, seen := t.seen }))

/-- The image of a load: at most three rows of one 4 KiB page are asked for in order from its address, a DMA entry delivers one row in
an lc, and a tile's program is walked once its bytes are in; one that fails the walk ends the load with 0x0E. That the tile holds the
version from its walk on is the model's choice (log 27). -/
def Obligations.ImageDelivery : Prop :=
  (∀ s ld, Live s → s.pwr.st = .l0 → s.loom.load = some ld → ld.mode ≠ .unload → ld.addr % 4096 = 0 → ld.asked = 0 → ld.taken = 0 →
      ld.version = none → Answers (.imageFetch 3) s (fun t =>
      t.loom.load = some { ld with asked := 192 } ∧ t.loom.nextTag = (s.loom.nextTag + 1) % 4096
      ∧ t.loom.reads = s.loom.reads ++ [{ tag := s.loom.nextTag, mod := moduleFor s ld.tenant, tenant := ld.tenant, what := .image 192
                                          addr := ld.addr, len := 192, got := none }]
      ∧ t = { s with loom := { s.loom with load := t.loom.load, nextTag := t.loom.nextTag, reads := t.loom.reads }, weft := t.weft
                     seen := t.seen }))
  ∧ (∀ s rows ld n, Live s → s.pwr.st = .l0 → s.loom.load = some ld → ld.mode ≠ .unload →
      n = min (min rows 3) (min ((4096 - (ld.addr + ld.asked) % 4096) / 64)
        (min ((imageLimit ld - ld.asked) / 64) ((262144 - (ld.asked - ld.taken)) / 64))) → 0 < n →
      Answers (.imageFetch rows) s (fun t =>
      t.loom.load = some { ld with asked := ld.asked + 64 * n } ∧ t.loom.nextTag = (s.loom.nextTag + 1) % 4096
      ∧ t.loom.reads = s.loom.reads ++ [{ tag := s.loom.nextTag, mod := moduleFor s ld.tenant, tenant := ld.tenant
                                          what := .image (64 * n), addr := ld.addr + ld.asked, len := 64 * n, got := none }]
      ∧ t = { s with loom := { s.loom with load := t.loom.load, nextTag := t.loom.nextTag, reads := t.loom.reads }, weft := t.weft
                     seen := t.seen }))
  ∧ (∀ s (e : BitVec 10) ld, Live s → isDmaEntry (activeEntry s e.toNat) = true →
      inOccurrence s.loom.weave (activeEntry s e.toNat) (lcOf s) = true → (partOf s (activeEntry s e.toNat).tenant).en = true →
      mesochronousRuns s = true → s.loom.linkUse.contains (dmaKey e.toNat, lcOf s) = false →
      s.loom.linkUse.contains (handoffKey, lcOf s) = false → s.esc.st ≠ .copy → s.loom.load = some ld →
      ld.tenant = (activeEntry s e.toNat).tenant → 64 ≤ ld.buffer.length → ld.taken = 0 → Answers (.dmaRow e) s (fun t =>
      t.loom.load = some { ld with buffer := ld.buffer.drop 64, taken := 64, header := ld.header ++ ld.buffer.take 64 }
      ∧ t.loom.linkUse.contains (dmaKey e.toNat, lcOf s) = true
      ∧ t = { s with loom := { s.loom with load := t.loom.load, linkUse := t.loom.linkUse }, seen := t.seen }))
  ∧ (∀ s (i : BitVec 8) ld v, Live s → s.loom.load = some ld → ld.version = some v → v.pages ≠ [] → i.toNat ∈ versionTiles v →
      i.toNat ∉ ld.walked → 0x400 + ((versionTiles v).idxOf i.toNat + 1) * (v.npages * 1024) ≤ ld.taken →
      goodStructure v i.toNat (storedProgram s v i.toNat) = true → ld.walked.length + 1 < (versionTiles v).length →
      Answers (.tileWalkDone i) s (fun t => holdsVersion t i.toNat ld.id v = true ∧ t = { s with
      loom := { s.loom with load := some { ld with walked := i.toNat :: ld.walked }, tags := t.loom.tags }, seen := t.seen }))
  ∧ (∀ s (i : BitVec 8) ld v, Live s → s.loom.load = some ld → ld.version = some v → v.pages ≠ [] → i.toNat ∈ versionTiles v →
      i.toNat ∉ ld.walked → 0x400 + ((versionTiles v).idxOf i.toNat + 1) * (v.npages * 1024) ≤ ld.taken →
      goodStructure v i.toNat (storedProgram s v i.toNat) = false → Answers (.tileWalkDone i) s (fun t =>
      t.loom.verify.result = 0x0E ∧ t.loom.verify.tile = i ∧ t.loom.verify.busy = false ∧ t.loom.load = none))

/-! ## Clock -/

/-- A point change at L1 relocks at once and the restart puts the point in force with every chain lock gone; a droop is answered four
cycles on without a chain; a stretched cycle records its gap and raises the alert when the gap is under 256; CLR resets the least gap. -/
def Obligations.ClockAndStretch : Prop :=
  (∀ s (p : BitVec 3), Live s → s.pwr.drained = false → s.pwr.st = .l1 → s.pwr.stage = .steady → s.loom.clock.relocking = false →
      p.toNat ≤ 4 → p ≠ s.loom.clock.current → Answers (.pointChange p) s (fun t =>
      t.loom.clock = { s.loom.clock with point := p, pending := true, relocking := true, lockPoint := p } ∧ t.mon.pllLock = false
      ∧ t = { s with mon := { s.mon with pllLock := false }
                     loom := { s.loom with clock := t.loom.clock, weave := { s.loom.weave with slots := [], repDue := true, rep0 := s.clocks.lc } }
                     seen := t.seen }))
  ∧ (∀ s n, Live s → s.pwr.st = .l1 → s.pwr.target = .l1 → s.pwr.stage = .steady → s.pwr.resetOwed = false →
      s.loom.clock.relocking = true → s.loom.clock.heldPoint = none → Answers (.relockDone n) s (fun t =>
      t.loom.clock.current = s.loom.clock.lockPoint ∧ t.loom.clock.relocking = false ∧ t.loom.clock.pending = false
      ∧ t.mon.pllLock = true ∧ t.loom.now = s.loom.now + BitVec.ofNat 64 (10 * n) ∧ t.loom.chain.locked = false
      ∧ (∀ m < 4, (warpOf t m).locked = false)))
  ∧ (∀ s, Live s → mesochronousRuns s = true → s.loom.chain.locked = false → Answers .droopTrip s (fun t => t = { s with
      loom := { s.loom with clock := { s.loom.clock with targets := insRising (s.clocks.lc + 4) s.loom.clock.targets } }, seen := t.seen }))
  ∧ (∀ s n, Live s → mesochronousRuns s = true → s.clocks.lc ∈ s.loom.clock.targets → s.loom.clock.lastStretch = some n → n ≤ s.clocks.lc →
      s.clocks.lc - n < 65536 → s.loom.tallySel = [] → Answers .stretchedCycle s (fun t =>
      t.loom.clock.lastStretch = some s.clocks.lc ∧ t.loom.clock.lastGap.toNat = s.clocks.lc - n
      ∧ t.loom.clock.minGap.toNat = min (s.clocks.lc - n) s.loom.clock.minGap.toNat ∧ s.clocks.lc ∉ t.loom.clock.targets
      ∧ t.alert = (if s.clocks.lc - n < 256 then putBit s.alert 10 true else s.alert)
      ∧ t = { s with clocks := { s.clocks with frac := t.clocks.frac }, alert := t.alert
                     loom := { counting s t with clock := t.loom.clock, now := t.loom.now }, seen := t.seen }))
  ∧ (∀ s, HostHeard s → Answers .stretchClr s (fun t => t = { s with
      loom := { s.loom with clock := { s.loom.clock with minGap := 0xFFFF } }, seen := t.seen }))

/-! ## Weave and passes -/

/-- A booked occurrence of a resident draft starts a pass in every tile of its rectangle; a tile that does not hold the version makes it
a breach of kind VERSION. An occurrence that nobody booked idles, and the end of a job's last pass ends the job with 0 and rests its tiles,
whose ready results are in effect. A repeat boundary starts the next repeat, and installs a checked weave that
waits. That REPEAT_BOUNDARY acts at once where no weave is active is the model's choice (log 27). -/
def Obligations.SlotsAndPasses : Prop :=
  (∀ s (e : BitVec 10) v j, Live s → mesochronousRuns s = true → s.pwr.st = .l0 → walking s.loom.weave = true →
      isDraftEntry (activeEntry s e.toNat) = true → s.clocks.lc = s.loom.weave.rep0 + (activeEntry s e.toNat).start →
      s.loom.weave.slots = [] → s.loom.tiles = [] → s.loom.storeUp = [] → s.warp = [] →
      (draftOf s (activeEntry s e.toNat).id).resident = some v → idleCounted s (activeEntry s e.toNat) = false → v.warp = false →
      (∀ k ∈ s.loom.jobs, k.ending = none) → bookedJob s (activeEntry s e.toNat).id s.clocks.lc = some j →
      (∀ i ∈ versionTiles v, tileGood s i = true ∧ holdsVersion s i (activeEntry s e.toNat).id v = true) →
      Answers (.slotStart e { upsets := [], misheld := [] }) s (fun t =>
      t.loom.weave.slots.map (fun x => (x.entry, x.start, x.draft, x.run)) =
        [(e.toNat, s.clocks.lc, (activeEntry s e.toNat).id, .pass (some j.order) s.clocks.lc)]
      ∧ (∀ i ∈ versionTiles v, (tileOf t i).run = .issuing ∧ (tileOf t i).pc = 0 ∧ (tileOf t i).slot = some e.toNat)
      ∧ t = { s with loom := { s.loom with weave := { s.loom.weave with slots := t.loom.weave.slots }, tiles := t.loom.tiles }
                     warp := t.warp, seen := t.seen }))
  ∧ (∀ s (e : BitVec 10) v j i, Live s → mesochronousRuns s = true → s.pwr.st = .l0 → walking s.loom.weave = true →
      isDraftEntry (activeEntry s e.toNat) = true → s.clocks.lc = s.loom.weave.rep0 + (activeEntry s e.toNat).start →
      s.loom.weave.slots = [] → s.loom.tiles = [] → s.loom.storeUp = [] → s.warp = [] →
      (draftOf s (activeEntry s e.toNat).id).resident = some v → idleCounted s (activeEntry s e.toNat) = false → v.warp = false →
      (∀ k ∈ s.loom.jobs, k.ending = none) → bookedJob s (activeEntry s e.toNat).id s.clocks.lc = some j →
      (versionTiles v).find? (fun i => !holdsVersion s i (activeEntry s e.toNat).id v) = some i →
      Answers (.slotStart e { upsets := [], misheld := [] }) s (fun t => (tileOf t i).run = .idle
        ∧ (tenantOf t (draftOf s (activeEntry s e.toNat).id).tenant).faulted = true
        ∧ t.loom.breach = breachWord i 8 (draftOf s (activeEntry s e.toNat).id).tenant (activeEntry s e.toNat).id 0))
  ∧ (∀ s (e : BitVec 10) v, Live s → mesochronousRuns s = true → walking s.loom.weave = true →
      isDraftEntry (activeEntry s e.toNat) = true → s.clocks.lc = s.loom.weave.rep0 + (activeEntry s e.toNat).start →
      s.loom.weave.slots = [] → s.loom.storeUp = [] → s.warp = [] → s.loom.jobs = [] →
      (draftOf s (activeEntry s e.toNat).id).resident = some v → idleCounted s (activeEntry s e.toNat) = false →
      Answers (.slotStart e { upsets := [], misheld := [] }) s (fun t =>
      t.loom.weave.slots.map (fun x => (x.entry, x.start, x.run)) = [(e.toNat, s.clocks.lc, .idle)] ∧ t.loom.tiles = s.loom.tiles))
  ∧ (∀ s (e : BitVec 10) x v j n, Live s → s.loom.weave.slots = [x] → x.entry = e.toNat → x.run = .pass (some j.order) n →
      x.halted = true → x.breached = false → x.damaged = false → slotVersion s x = some v → n + v.passLc ≤ s.clocks.lc →
      s.loom.jobs = [j] → j.ended = none → j.ran + 1 = j.passes → s.loom.tallySel = [] → Answers (.passEnd e) s (fun t =>
      t.loom.weave.slots = [] ∧ t.loom.jobs = [{ j with ran := j.passes, booked := j.booked.filter (fun b => b != x.start)
                                                        ended := some 0, recordAt := n + v.passLc + 16 }]
      ∧ (∀ i < 256, (tileOf s i).slot = some e.toNat → tileOf t i = restTile (settleTile s.clocks.lc (tileOf s i)))
      ∧ t = { s with loom := { counting s t with weave := { s.loom.weave with slots := [] }, jobs := t.loom.jobs, tiles := t.loom.tiles }
                     seen := t.seen }))
  ∧ (∀ s, Live s → mesochronousRuns s = true → s.pwr.st = s.pwr.target → LoomEmpty s → s.loom.weave.swap = .idle →
      s.loom.weave.repDue = false → s.loom.chain.locked = false → 0 < s.loom.weave.activeLc →
      s.loom.weave.rep0 + s.loom.weave.activeLc ≤ s.clocks.lc → Answers .repeatBoundary s (fun t => t = { s with
      loom := { s.loom with weave := { s.loom.weave with
        rep0 := s.loom.weave.rep0 + s.loom.weave.activeLc * ((s.clocks.lc - s.loom.weave.rep0) / s.loom.weave.activeLc) } }
      seen := t.seen }))
  ∧ (∀ s, Live s → mesochronousRuns s = true → s.pwr.st = s.pwr.target → LoomEmpty s → s.loom.weave.swap = .pending →
      s.loom.chain.locked = false → s.loom.weave.activeLc = 0 → s.loom.weave.checksEnd + 64 ≤ s.clocks.lc →
      0 < s.loom.weave.shadowLc → Answers .repeatBoundary s (fun t => t = { s with
      loom := { s.loom with weave := { s.loom.weave with
        active := s.loom.weave.shadow, activeLc := s.loom.weave.shadowLc, swap := .idle, swaps := s.loom.weave.swaps + 1
        rep0 := s.clocks.lc, repDue := false } }
      seen := t.seen }))

/-! ## CTL -/

/-- NEXT, LOOP, ENDLOOP, WAIT, WAIT_END, SETA and HALT: where the tile goes on, its loops and its address counters. What they act with
is what the bundle's CTL field spells; that a LOOP which names another count does nothing is the model's choice (log 35). The bundle
stays in force for its other fields to the end of the lc. HALT in a job's last pass copies the row that its RES names (the model's
reading, log 2). -/
def Obligations.TileControl : Prop :=
  (∀ s i b x, Issues s i fieldCtl b x → s.loom.storeUp = [] → ctlOp b = 0 → Answers (.next i) s (fun t =>
      OnlyTile s t i fieldCtl { settled s i with pc := (settled s i).pc + 1, held := some (heldBy s i) }))
  ∧ (∀ s i b x (n : BitVec 20), Issues s i fieldCtl b x → s.loom.storeUp = [] → ctlOp b = 1 → field b 4 20 = n.toNat →
      (tileOf s i.toNat).loops.length < 4 → Answers (.loop i n) s (fun t => OnlyTile s t i fieldCtl { settled s i with
        pc := (settled s i).pc + 1, loops := ((settled s i).pc + 1, n.toNat + 1) :: (settled s i).loops
        held := some (heldBy s i) }))
  ∧ (∀ s i b x body k rest (m : BitVec 4), Issues s i fieldCtl b x → s.loom.storeUp = [] → ctlOp b = 2 → field b 24 4 = m.toNat →
      (tileOf s i.toNat).loops = (body, k) :: rest → 1 < k → Answers (.endloop i m) s (fun t =>
      OnlyTile s t i fieldCtl { addStrides m.toNat (settled s i) with
        pc := body, loops := (body, k - 1) :: rest, held := some (heldBy s i) }))
  ∧ (∀ s i b x body k rest (m : BitVec 4), Issues s i fieldCtl b x → s.loom.storeUp = [] → ctlOp b = 2 → field b 24 4 = m.toNat →
      (tileOf s i.toNat).loops = (body, k) :: rest → k ≤ 1 → Answers (.endloop i m) s (fun t =>
      OnlyTile s t i fieldCtl { addStrides m.toNat (settled s i) with
        pc := (settled s i).pc + 1, loops := rest, held := some (heldBy s i) }))
  ∧ (∀ s i b x (n : BitVec 20), Issues s i fieldCtl b x → ctlOp b = 3 → field b 4 20 = n.toNat → Answers (.wait i n) s (fun t =>
      OnlyTile s t i fieldCtl { settled s i with
        run := .waiting (s.clocks.lc + n.toNat + 1), held := some (heldBy s i) }))
  ∧ (∀ s i x n, Live s → s.loom.storeUp = [] → (tileOf s i.toNat).run = .waiting n → n ≤ s.clocks.lc → takesPart s i.toNat = true →
      (tileOf s i.toNat).slot.bind (slotOfEntry s) = some x → Answers (.waitEnd i) s (fun t =>
      tileOf t i.toNat = { tileOf s i.toNat with run := .issuing, pc := (tileOf s i.toNat).pc + 1 }
      ∧ (∀ j < 256, j ≠ i.toNat → tileOf t j = tileOf s j)
      ∧ t = { s with loom := { s.loom with tiles := t.loom.tiles }, seen := t.seen }))
  ∧ (∀ s i b x (c : BitVec 2) (v d : BitVec 8), Issues s i fieldCtl b x → s.loom.storeUp = [] → ctlOp b = 5 → field b 4 2 = c.toNat →
      field b 6 8 = v.toNat → field b 14 8 = d.toNat → Answers (.seta i c v d) s (fun t =>
      OnlyTile s t i fieldCtl { settled s i with
        pc := (settled s i).pc + 1, held := some (heldBy s i)
        cnt := sput 0 (settled s i).cnt c.toNat v, stride := sput 0 (settled s i).stride c.toNat d }))
  ∧ (∀ s i b x (n : BitVec 20), Issues s i fieldCtl b x → field b 4 20 ≠ n.toNat → Answers (.loop i n) s (fun t => t = { s with seen := t.seen }))
  ∧ (∀ s i b x, Issues s i fieldCtl b x → ctlOp b = 4 → slotJob x = none → Answers (.halt i []) s (fun t =>
      tileOf t i.toNat = { settled s i with run := .tail, held := some (heldBy s i) }
      ∧ slotOfEntry t x.entry = some { x with halted := true } ∧ (∀ j < 256, j ≠ i.toNat → tileOf t j = tileOf s j)
      ∧ t = { s with loom := { issueBooks s i fieldCtl with
          tiles := t.loom.tiles, weave := { s.loom.weave with slots := t.loom.weave.slots } }, seen := t.seen }))
  ∧ (∀ s i b x j bank row, Issues s i fieldCtl b x → ctlOp b = 4 → (slotJob x).bind (jobOf s) = some j →
      j.resAt = some (i.toNat, bank, row) → j.ran + 1 = j.passes → bankBreach s i.toNat bank x = none → s.loom.bankUp = [] →
      Answers (.halt i []) s (fun t =>
      jobOf t j.order = some { j with result := slice (mread s.loom.banks (rowAddr i.toNat bank row) 64) 0 24 }
      ∧ (tileOf t i.toNat).run = .tail))

/-- A bank row read by the pass that owns its bank is at its unit two cycles on, a written row changes those 64 bytes alone, a flit is
on its way with its row over the links of its plan, arrives in the receive register of its direction, and results take effect once ready.
An access to a bank that the pass does not own, or a second access of one bank in an lc, is a breach: the job's tenant is faulted, L_BREACH
names it, and nothing is written. -/
def Obligations.BanksAndMesh : Prop :=
  (∀ s i (k : BitVec 2) b x, Issues s i (fieldBank k.toNat) b x → spellsBank false k.toNat b = true →
      bankBreach s i.toNat (bankField b k.toNat).bank.toNat x = none → s.loom.bankUp = [] → Answers (.bankRead i k []) s (fun t =>
      (tileOf t i.toNat).rows.getLast? = some
        { lc := s.clocks.lc + 2, key := k.toNat, unit := (bankField b k.toNat).unit.toNat
          data := mread s.loom.banks (bankRowOf s i b k.toNat) 64, poisoned := false }
      ∧ (bankKey i.toNat (bankField b k.toNat).bank.toNat, s.clocks.lc) ∈ t.loom.bankUse
      ∧ (∀ j < 256, j ≠ i.toNat → tileOf t j = tileOf s j)
      ∧ t = { s with loom := { issueBooks s i (fieldBank k.toNat) with tiles := t.loom.tiles, bankUse := t.loom.bankUse }
                     seen := t.seen }))
  ∧ (∀ s i (k : BitVec 2) b x, Issues s i (fieldBank k.toNat) b x → spellsBank true k.toNat b = true →
      bankBreach s i.toNat (bankField b k.toNat).bank.toNat x = none → (bankField b k.toNat).unit = 2 → Answers (.bankWrite i k) s (fun t =>
      t.loom.banks = mwrite s.loom.banks (bankRowOf s i b k.toNat) (slice (settled s i).vecRow 0 64)
      ∧ tileOf t i.toNat = settled s i ∧ (∀ j < 256, j ≠ i.toNat → tileOf t j = tileOf s j)
      ∧ t = { s with loom := { issueBooks s i (fieldBank k.toNat) with
          banks := t.loom.banks, bankUp := t.loom.bankUp, bankUse := t.loom.bankUse, tiles := t.loom.tiles }, seen := t.seen }))
  ∧ (∀ s i (d : Dir) b x v, Issues s i (fieldMesh d) b x → bitOf (meshWord b (dirCode d)) 0 = true → slotVersion s x = some v →
      (planFlit s x v i.toNat (meshField b d)).fail = none → (meshField b d).src = 4 → Answers (.meshSend i d) s (fun t =>
      t.loom.flits = s.loom.flits ++ [{ (planFlit s x v i.toNat (meshField b d)).flit with
        data := slice (settled s i).vecRow 0 64, poisoned := x.poisoned || x.degraded }]
      ∧ (∀ l ∈ (planFlit s x v i.toNat (meshField b d)).links, l ∈ t.loom.linkUse)
      ∧ t = { s with loom := { issueBooks s i (fieldMesh d) with
          flits := t.loom.flits, linkUse := t.loom.linkUse, tiles := t.loom.tiles }, seen := t.seen }))
  ∧ (∀ s (i : BitVec 8) d f, Live s → s.loom.flits = [f] → f.dest = i.toNat → f.dir = d → f.engine = false → f.due = s.clocks.lc →
      takesPart s i.toNat = true → (∀ r ∈ (tileOf s i.toNat).recv, r.lc ≠ s.clocks.lc) → Answers (.meshDelivery i d) s (fun t =>
      t.loom.flits = [] ∧ (tileOf t i.toNat).recv.getLast? =
        some { lc := s.clocks.lc, key := dirCode d, unit := unitMesh, data := f.data, poisoned := f.poisoned }
      ∧ t = { s with loom := { s.loom with flits := [], tiles := t.loom.tiles }, seen := t.seen }))
  ∧ (∀ s (i : BitVec 8), Live s → mesochronousRuns s = true → tileGood s i.toNat = true → Answers (.resultReady i) s (fun t =>
      tileOf t i.toNat = settled s i ∧ (∀ j < 256, j ≠ i.toNat → tileOf t j = tileOf s j)
      ∧ t = { s with loom := { (settleOn i.toNat s).loom with tiles := t.loom.tiles }, seen := t.seen }))
  ∧ (∀ (s : State) i (k : BitVec 2) b x (a : Nat), Issues s i (fieldBank k.toNat) b x → spellsBank true k.toNat b = true →
      bankBreach s i.toNat (bankField b k.toNat).bank.toNat x = none →
      (a < bankRowOf s i b k.toNat ∨ bankRowOf s i b k.toNat + 64 ≤ a) →
      Answers (.bankWrite i k) s (fun t => mget t.loom.banks a = mget s.loom.banks a))
  ∧ (∀ s i (k : BitVec 2) b x kind, Issues s i (fieldBank k.toNat) b x → spellsBank true k.toNat b = true → x.breached = false →
      bankBreach s i.toNat (bankField b k.toNat).bank.toNat x = some kind → Answers (.bankWrite i k) s (fun t =>
        t.loom.banks = s.loom.banks ∧ (tenantOf t (draftOf s x.draft).tenant).faulted = true
        ∧ t.loom.breach = breachWord i.toNat kind (draftOf s x.draft).tenant x.draft (lcOf s - passStart x)))
  ∧ (∀ s i (d : Dir) b x v kind tile, Issues s i (fieldMesh d) b x → bitOf (meshWord b (dirCode d)) 0 = true →
      slotVersion s x = some v → x.breached = false → (planFlit s x v i.toNat (meshField b d)).fail = some (kind, tile, s.clocks.lc) →
      Answers (.meshSend i d) s (fun t => t.loom.flits = s.loom.flits ∧ (tenantOf t (draftOf s x.draft).tenant).faulted = true
        ∧ t.loom.breach = breachWord tile kind (draftOf s x.draft).tenant x.draft (lcOf s - passStart x)))

/-! ## MXU -/

/-- LOADW writes the buffer its TARGET names, SWAPW exchanges the buffers, and MAC, CORR and DRAIN read their operands at issue and are
ready after their latency; a DRAIN of a reserved MODE does nothing (log 16). A MAC of i8 codes, 34 lc on, has added its 32 exact products
to every output of an i32 entry, saturating; a CORR on an i32 entry has no effect. The operands are those that the bundle's MXU field spells. -/
def Obligations.MultiplierArray : Prop :=
  (∀ s i b x (row : BitVec 5) (target : BitVec 2), IssuesMxu s i 1 b x → field (mxuWord b) 42 5 = row.toNat →
      field (mxuWord b) 47 2 = target.toNat → Answers (.loadw i row target) s (fun t =>
      let d := sourceRow i.toNat unitW 0 s
      OnlyTileRow s t i fieldMxu d
        (if target = 0 then { settled s i with weightsSh := mwrite (settled s i).weightsSh (64 * row.toNat) d.1 }
         else if target = 1 then { settled s i with wscaleSh := mwrite (settled s i).wscaleSh 0 d.1 }
         else if target = 2 then { settled s i with sideReg := mwrite (settled s i).sideReg 0 d.1 }
         else { settled s i with drainVec := mwrite (settled s i).drainVec (64 * row.toNat) d.1 })))
  ∧ (∀ s i b x, IssuesMxu s i 2 b x → Answers (.swapw i) s (fun t => OnlyTile s t i fieldMxu { settled s i with
      weights := (settled s i).weightsSh, weightsSh := (settled s i).weights
      wscale := (settled s i).wscaleSh, wscaleSh := (settled s i).wscale }))
  ∧ (∀ s i b x m, IssuesMxu s i 3 b x → m = macField b → Answers (.mac i m) s (fun t =>
      let d := sourceRow i.toNat unitA m.asrc.toNat s
      OnlyTileRow s t i fieldMxu d (launched s i (macEffect i.toNat (settled s i) m d.1).1
        [(macEffect i.toNat (settled s i) m d.1).2])))
  ∧ (∀ s i b x acc mode dst h, IssuesMxu s i 4 b x → SpellsDrain b acc mode dst h → mode = 0 →
      (accAt (settled s i) acc.toNat).sat.any id = false → Answers (.drain i acc mode dst h) s (fun t =>
      OnlyTile s t i fieldMxu (launched s i 2 [.vec dst.toNat ((span 0 32).map (fun o =>
        (32 * h.toNat + o, laneAt (accAt (settled s i) acc.toNat).lanes o))) 4])))
  ∧ (∀ s i b x acc mode dst h, IssuesMxu s i 4 b x → SpellsDrain b acc mode dst h → mode.toNat ≤ 1 →
      (accAt (settled s i) acc.toNat).sat.any id = true → Answers (.drain i acc mode dst h) s (fun t =>
      t.loom.tally = (loomTally 0x4A (some (draftOf s x.draft).tenant) 1 { s with loom := issueBooks s i fieldMxu }).loom.tally
      ∧ t = { s with loom := { issueBooks s i fieldMxu with
          tally := t.loom.tally, tallyLc := t.loom.tallyLc, tallyEvs := t.loom.tallyEvs, tallyWas := t.loom.tallyWas
          tiles := t.loom.tiles }, seen := t.seen }))
  ∧ (∀ s i b x acc mode dst h, IssuesMxu s i 4 b x → SpellsDrain b acc mode dst h → 1 < mode.toNat → Answers (.drain i acc mode dst h) s (fun t =>
      OnlyTile s t i fieldMxu (settled s i)))
  ∧ (∀ s i b x wfmt acc ar0 ar1, IssuesMxu s i 5 b x → SpellsCorr b wfmt acc ar0 ar1 → Answers (.corr i wfmt acc ar0 ar1) s (fun t =>
      OnlyTile s t i fieldMxu (launched s i 36 [corrEffect i.toNat (settled s i) wfmt.toNat acc.toNat ar0.toNat ar1.toNat])))
  ∧ (∀ s i b x m, IssuesMxu s i 3 b x → m = macField b → (settled s i).flights = [] → m.wfmt = 3 → m.afmt = 3 → m.zpm = 0 →
      m.clr = false → (accAt (settled s i) m.acc.toNat).isF32 = false → Answers (.mac i m) s (fun t =>
      ∀ o < 32, laneAt (accAt (settleTile (s.clocks.lc + 34) (tileOf t i.toNat)) m.acc.toNat).lanes o = BitVec.ofInt 32 (max (-2 ^ 31)
        (min (2 ^ 31 - 1) (signed 32 (laneAt (accAt (settled s i) m.acc.toNat).lanes o).toNat
          + ((span 0 32).map (fun k => signed 8 (mget (settled s i).weights (32 * k + o)).toNat
              * signed 8 (leAt (sourceRow i.toNat unitA m.asrc.toNat s).1 ((if m.ah then 32 else 0) + k) 1))).sum)))))
  ∧ (∀ s i b x wfmt acc ar0 ar1, IssuesMxu s i 5 b x → SpellsCorr b wfmt acc ar0 ar1 → (settled s i).flights = [] →
      (accAt (settled s i) acc.toNat).isF32 = false → Answers (.corr i wfmt acc ar0 ar1) s (fun t =>
      accAt (settleTile (s.clocks.lc + 36) (tileOf t i.toNat)) acc.toNat = accAt (settled s i) acc.toNat))

/-! ## VEC -/

/-- i32 lanes wrap modulo 2^32, shift by B[4:0] and compare as signed numbers, two lc after issue, three for FMA. -/
def Obligations.IntegerLanes : Prop :=
  (∀ s i v x, IssuesVec s i 0x06 v x → v.type = 0 → Answers (.add i v) s (fun t =>
      VecAfter s t i v 2 (fun k => lane s i v.a k + lane s i v.b k)))
  ∧ (∀ s i v x, IssuesVec s i 0x07 v x → v.type = 0 → Answers (.sub i v) s (fun t =>
      VecAfter s t i v 2 (fun k => lane s i v.a k - lane s i v.b k)))
  ∧ (∀ s i v x, IssuesVec s i 0x08 v x → v.type = 0 → Answers (.mul i v) s (fun t =>
      VecAfter s t i v 2 (fun k => lane s i v.a k * lane s i v.b k)))
  ∧ (∀ s i v x, IssuesVec s i 0x09 v x → v.type = 0 → Answers (.min i v) s (fun t =>
      VecAfter s t i v 2 (fun k => if (lane s i v.b k).slt (lane s i v.a k) then lane s i v.b k else lane s i v.a k)))
  ∧ (∀ s i v x, IssuesVec s i 0x0A v x → v.type = 0 → Answers (.max i v) s (fun t =>
      VecAfter s t i v 2 (fun k => if (lane s i v.a k).slt (lane s i v.b k) then lane s i v.b k else lane s i v.a k)))
  ∧ (∀ s i v x, IssuesVec s i 0x0B v x → v.type = 0 → Answers (.and i v) s (fun t =>
      VecAfter s t i v 2 (fun k => lane s i v.a k &&& lane s i v.b k)))
  ∧ (∀ s i v x, IssuesVec s i 0x0C v x → v.type = 0 → Answers (.or i v) s (fun t =>
      VecAfter s t i v 2 (fun k => lane s i v.a k ||| lane s i v.b k)))
  ∧ (∀ s i v x, IssuesVec s i 0x0D v x → v.type = 0 → Answers (.xor i v) s (fun t =>
      VecAfter s t i v 2 (fun k => lane s i v.a k ^^^ lane s i v.b k)))
  ∧ (∀ s i v x, IssuesVec s i 0x0E v x → v.type = 0 → Answers (.shl i v) s (fun t =>
      VecAfter s t i v 2 (fun k => lane s i v.a k <<< ((lane s i v.b k).toNat % 32))))
  ∧ (∀ s i v x, IssuesVec s i 0x0F v x → v.type = 0 → Answers (.shr i v) s (fun t =>
      VecAfter s t i v 2 (fun k => (lane s i v.a k).sshiftRight ((lane s i v.b k).toNat % 32))))
  ∧ (∀ s i v x, IssuesVec s i 0x10 v x → v.type = 0 → Answers (.cmplt i v) s (fun t =>
      VecAfter s t i v 2 (fun k => if (lane s i v.a k).slt (lane s i v.b k) then 0xFFFFFFFF else 0)))
  ∧ (∀ s i v x, IssuesVec s i 0x11 v x → v.type = 0 → Answers (.cmpeq i v) s (fun t =>
      VecAfter s t i v 2 (fun k => if lane s i v.a k = lane s i v.b k then 0xFFFFFFFF else 0)))
  ∧ (∀ s i v x, IssuesVec s i 0x15 v x → v.type = 0 → Answers (.fma i v) s (fun t =>
      VecAfter s t i v 3 (fun k => lane s i v.a k * lane s i v.b k + lane s i v.c k)))

/-- Every operation of the vector unit puts its lanes in D after its latency, and one of a reserved TYPE, of a reserved target or, for
EXP, RCP and RSQ, not of f32 has no effect. A command that the bundle does not spell, in its operation or in its operands, changes
nothing (log 35). -/
def Obligations.VectorLanes : Prop :=
  (∀ s i v x ty, IssuesVec s i 0x06 v x → laneType v.type.toNat = some ty → Answers (.add i v) s (fun t =>
      VecAfter s t i v 2 (fun k => lane2 ty v.rna (· + ·) xAdd (lane s i v.a k) (lane s i v.b k))))
  ∧ (∀ s i v x ty, IssuesVec s i 0x07 v x → laneType v.type.toNat = some ty → Answers (.sub i v) s (fun t =>
      VecAfter s t i v 2 (fun k => lane2 ty v.rna (· - ·) xSub (lane s i v.a k) (lane s i v.b k))))
  ∧ (∀ s i v x ty, IssuesVec s i 0x08 v x → laneType v.type.toNat = some ty → Answers (.mul i v) s (fun t =>
      VecAfter s t i v 2 (fun k => lane2 ty v.rna (· * ·) xMul (lane s i v.a k) (lane s i v.b k))))
  ∧ (∀ s i v x ty, IssuesVec s i 0x09 v x → laneType v.type.toNat = some ty → Answers (.min i v) s (fun t =>
      VecAfter s t i v 2 (fun k => laneMin ty (lane s i v.a k) (lane s i v.b k))))
  ∧ (∀ s i v x ty, IssuesVec s i 0x0A v x → laneType v.type.toNat = some ty → Answers (.max i v) s (fun t =>
      VecAfter s t i v 2 (fun k => laneMax ty (lane s i v.a k) (lane s i v.b k))))
  ∧ (∀ s i v x ty, IssuesVec s i 0x0B v x → laneType v.type.toNat = some ty → Answers (.and i v) s (fun t =>
      VecAfter s t i v 2 (fun k => narrowLane ty (lane s i v.a k &&& lane s i v.b k))))
  ∧ (∀ s i v x ty, IssuesVec s i 0x0C v x → laneType v.type.toNat = some ty → Answers (.or i v) s (fun t =>
      VecAfter s t i v 2 (fun k => narrowLane ty (lane s i v.a k ||| lane s i v.b k))))
  ∧ (∀ s i v x ty, IssuesVec s i 0x0D v x → laneType v.type.toNat = some ty → Answers (.xor i v) s (fun t =>
      VecAfter s t i v 2 (fun k => narrowLane ty (lane s i v.a k ^^^ lane s i v.b k))))
  ∧ (∀ s i v x ty, IssuesVec s i 0x0E v x → laneType v.type.toNat = some ty → Answers (.shl i v) s (fun t =>
      VecAfter s t i v 2 (fun k => laneShl ty (lane s i v.a k) (lane s i v.b k))))
  ∧ (∀ s i v x ty, IssuesVec s i 0x0F v x → laneType v.type.toNat = some ty → Answers (.shr i v) s (fun t =>
      VecAfter s t i v 2 (fun k => laneShr ty (lane s i v.a k) (lane s i v.b k))))
  ∧ (∀ s i v x ty, IssuesVec s i 0x10 v x → laneType v.type.toNat = some ty → Answers (.cmplt i v) s (fun t =>
      VecAfter s t i v 2 (fun k => laneLt ty (lane s i v.a k) (lane s i v.b k))))
  ∧ (∀ s i v x ty, IssuesVec s i 0x11 v x → laneType v.type.toNat = some ty → Answers (.cmpeq i v) s (fun t =>
      VecAfter s t i v 2 (fun k => laneEq ty (lane s i v.a k) (lane s i v.b k))))
  ∧ (∀ s i v x ty, IssuesVec s i 0x15 v x → laneType v.type.toNat = some ty → Answers (.fma i v) s (fun t =>
      VecAfter s t i v 3 (fun k => laneFma ty v.rna (lane s i v.a k) (lane s i v.b k) (lane s i v.c k))))
  ∧ (∀ s i v x ty, IssuesVec s i 0x04 v x → laneType v.type.toNat = some ty → Answers (.stq i v) s (fun t =>
      VecAfter s t i v 2 (lane s i v.a)))
  ∧ (∀ s i v x ty, IssuesVec s i 0x05 v x → laneType v.type.toNat = some ty → Answers (.movi i v) s (fun t =>
      VecAfter s t i v 2 (fun _ => v.imm)))
  ∧ (∀ s i v x ty, IssuesVec s i 0x12 v x → laneType v.type.toNat = some ty → Answers (.sel i v) s (fun t =>
      VecAfter s t i v 2 (fun k => if lane s i v.c k ≠ 0 then lane s i v.a k else lane s i v.b k)))
  ∧ (∀ s i v x ty, IssuesVec s i 0x13 v x → laneType v.type.toNat = some ty → Answers (.perm i v) s (fun t =>
      VecAfter s t i v 2 (fun k => lane s i v.a ((lane s i v.b k).toNat % 64))))
  ∧ (∀ s i v x ty, IssuesVec s i 0x16 v x → laneType v.type.toNat = some ty → Answers (.rsum i v) s (fun t =>
      VecAfter s t i v 4 (fun _ => treeReduce (lane2 ty v.rna (· + ·) xAdd) (vregAt (settled s i) v.a.toNat))))
  ∧ (∀ s i v x ty, IssuesVec s i 0x17 v x → laneType v.type.toNat = some ty → Answers (.rmax i v) s (fun t =>
      VecAfter s t i v 4 (fun _ => treeReduce (laneMax ty) (vregAt (settled s i) v.a.toNat))))
  ∧ (∀ s i v x ty dst, IssuesVec s i 0x14 v x → laneType v.type.toNat = some ty → laneType (v.imm.toNat % 8) = some dst →
      Answers (.cvt i v) s (fun t => VecAfter s t i v 2 (fun k => laneCvt ty dst v.rna (lane s i v.a k))))
  ∧ (∀ s i v x, IssuesVec s i 0x18 v x → v.type = 1 → Answers (.exp i v) s (fun t =>
      VecAfter s t i v 6 (fun k => BitVec.ofNat 32 (expBits (val32 (lane s i v.a k).toNat)))))
  ∧ (∀ s i v x, IssuesVec s i 0x19 v x → v.type = 1 → Answers (.rcp i v) s (fun t =>
      VecAfter s t i v 6 (fun k => BitVec.ofNat 32 (rcpBits (val32 (lane s i v.a k).toNat)))))
  ∧ (∀ s i v x, IssuesVec s i 0x1A v x → v.type = 1 → Answers (.rsq i v) s (fun t =>
      VecAfter s t i v 6 (fun k => BitVec.ofNat 32 (rsqBits (val32 (lane s i v.a k).toNat)))))
  ∧ (∀ s i v x (c : Nat × Instr), IssuesVec s i c.1 v x → v.type ≠ 1 → c ∈ [(0x18, Instr.exp i v), (0x19, .rcp i v), (0x1A, .rsq i v)] →
      Answers c.2 s (fun t => OnlyTile s t i fieldVec (settled s i)))
  ∧ (∀ s i v x, IssuesVec s i 0x00 v x → Answers (.vecNop i) s (fun t => OnlyTile s t i fieldVec (settled s i)))
  ∧ (∀ s i v x, IssuesVec s i 0x14 v x → 4 < v.imm.toNat % 8 → Answers (.cvt i v) s (fun t => OnlyTile s t i fieldVec (settled s i)))
  ∧ (∀ s i v x (c : Nat × Instr), IssuesVec s i c.1 v x → 4 < v.type.toNat → c ∈ [(0x01, Instr.ldq i v), (0x02, .ldw i v), (0x03, .ldh i v),
        (0x04, .stq i v), (0x05, .movi i v), (0x06, .add i v), (0x07, .sub i v), (0x08, .mul i v), (0x09, .min i v), (0x0A, .max i v), (0x0B, .and i v),
        (0x0C, .or i v), (0x0D, .xor i v), (0x0E, .shl i v), (0x0F, .shr i v), (0x10, .cmplt i v), (0x11, .cmpeq i v), (0x12, .sel i v),
        (0x13, .perm i v), (0x14, .cvt i v), (0x15, .fma i v), (0x16, .rsum i v), (0x17, .rmax i v), (0x18, .exp i v), (0x19, .rcp i v),
        (0x1A, .rsq i v)] → Answers c.2 s (fun t => OnlyTile s t i fieldVec (settled s i)))
  ∧ (∀ s i b x v (c : Nat × Instr), Issues s i fieldVec b x → vecOpCode b ≠ c.1 ∨ vecField b ≠ v → c ∈ [(0x01, Instr.ldq i v),
      (0x02, .ldw i v), (0x03, .ldh i v), (0x04, .stq i v), (0x05, .movi i v), (0x06, .add i v), (0x07, .sub i v), (0x08, .mul
      i v), (0x09, .min i v), (0x0A, .max i v), (0x0B, .and i v), (0x0C, .or i v), (0x0D, .xor i v), (0x0E, .shl i v), (0x0F,
      .shr i v), (0x10, .cmplt i v), (0x11, .cmpeq i v), (0x12, .sel i v), (0x13, .perm i v), (0x14, .cvt i v), (0x15, .fma i
      v), (0x16, .rsum i v), (0x17, .rmax i v), (0x18, .exp i v), (0x19, .rcp i v), (0x1A, .rsq i v)] → Answers c.2 s (fun t
      => t = { s with seen := t.seen }))

/-- LDQ, LDW and LDH read the row their source names, two lc before their lanes are in D. -/
def Obligations.VectorLoads : Prop :=
  (∀ s i v x, IssuesVec s i 0x01 v x → v.type.toNat ≤ 4 → Answers (.ldq i v) s (fun t =>
      let d := sourceRow i.toNat unitVec (v.imm.toNat / 2 ^ 29) s
      OnlyTileRow s t i fieldVec d (launched s i 2 [.vec v.d.toNat
        ((span 0 16).map (fun k => (16 * v.part.toNat + k, BitVec.ofNat 32 (leAt d.1 (4 * k) 4)))) v.part.toNat])))
  ∧ (∀ s i v x, IssuesVec s i 0x02 v x → v.type.toNat ≤ 4 → Answers (.ldw i v) s (fun t =>
      let d := sourceRow i.toNat unitVec (v.imm.toNat / 2 ^ 29) s
      OnlyTileRow s t i fieldVec d (launched s i 2 [.vec v.d.toNat ((span 0 64).map (fun k => (k,
        let b := leAt d.1 k 1
        if v.imm.toNat % 4 = 0 then BitVec.ofInt 32 (signed 8 b) else if v.imm.toNat % 4 = 1 then BitVec.ofNat 32 b
        else if v.imm.toNat % 4 = 2 then BitVec.ofNat 32 (rne32 (floatVal f8a b)) else BitVec.ofNat 32 (rne32 (floatVal f8b b)))))
        v.part.toNat])))
  ∧ (∀ s i v x, IssuesVec s i 0x03 v x → v.type.toNat ≤ 4 → v.imm.toNat % 4 ≠ 3 → Answers (.ldh i v) s (fun t =>
      let d := sourceRow i.toNat unitVec (v.imm.toNat / 2 ^ 29) s
      OnlyTileRow s t i fieldVec d (launched s i 2 [.vec v.d.toNat ((span 0 32).map (fun k => (32 * (v.part.toNat % 2) + k,
        let h := leAt d.1 (2 * k) 2
        if v.imm.toNat % 4 = 0 then BitVec.ofInt 32 (signed 16 h) else if v.imm.toNat % 4 = 1 then BitVec.ofNat 32 (rne32 (floatVal f16 h))
        else BitVec.ofNat 32 (rne32 (floatVal bf16 h))))) v.part.toNat])))
  ∧ (∀ s i v x, IssuesVec s i 0x03 v x → v.type.toNat ≤ 4 → v.imm.toNat % 4 = 3 → Answers (.ldh i v) s (fun t =>
      OnlyTileRow s t i fieldVec (sourceRow i.toNat unitVec (v.imm.toNat / 2 ^ 29) s) (settled s i)))

/-! ## QNT -/

/-- CFG0 starts a site anew unless it names the configuration in force; CFG1 and CFG2 set the seed and the mask; LDSIDE loads the side
register; QUANT, DEQ, FLUSH and STATS deliver their results after four lc, three for DEQ, and zeros on a site that cannot convert. That
STATS with X keeps MAXERR is the model's choice (log 29). Statistics that CFG0 or STATS drops lose no clamped outlier of
OUTLIER_OVERFLOW. -/
def Obligations.QuantisationSites : Prop :=
  (∀ s i f x, IssuesQnt s i 3 f x → (siteAt (settled s i) f.site.toNat).cfg ≠ some f.imm → Answers (.cfg0 i f) s (fun t =>
      OnlyTile s t i fieldQnt (putSite f.site.toNat (let y := siteAt (settled s i) f.site.toNat
        { Site.init with cfg := some f.imm, seed := y.seed, s2 := y.seed, mask := y.mask, side := y.side })
        (dropPending true f.site.toNat (settled s i)))))
  ∧ (∀ s i f x, IssuesQnt s i 3 f x → (siteAt (settled s i) f.site.toNat).cfg = some f.imm → Answers (.cfg0 i f) s (fun t =>
      OnlyTile s t i fieldQnt (settled s i)))
  ∧ (∀ s i f x, IssuesQnt s i 4 f x → Answers (.cfg1 i f) s (fun t =>
      let y := siteAt (settled s i) f.site.toNat
      OnlyTile s t i fieldQnt (putSite f.site.toNat { y with
        seed := seedOf f.imm, s2 := if y.steps = 0 then seedOf f.imm else y.s2 } (settled s i))))
  ∧ (∀ s i f x, IssuesQnt s i 5 f x → Answers (.cfg2 i f) s (fun t =>
      OnlyTile s t i fieldQnt (putSite f.site.toNat { siteAt (settled s i) f.site.toNat with mask := f.imm } (settled s i))))
  ∧ (∀ s i f x, IssuesQnt s i 8 f x → f.src = 0 ∨ 4 ≤ f.src.toNat → Answers (.ldside i f) s (fun t =>
      let d := sourceRow i.toNat unitQnt f.src.toNat s
      OnlyTileRow s t i fieldQnt d (putSite f.site.toNat { siteAt (settled s i) f.site.toNat with side := d.1 } (settled s i))))
  ∧ (∀ s i f x, IssuesQnt s i 8 f x → 1 ≤ f.src.toNat → f.src.toNat ≤ 3 → Answers (.ldside i f) s (fun t => OnlyTile s t i fieldQnt
      (putSite f.site.toNat { siteAt (settled s i) f.site.toNat with side := List.replicate 64 0 } (settled s i))))
  ∧ (∀ s i f x, IssuesQnt s i 1 f x → siteCfg (siteAt (settled s i) f.site.toNat) = none →
      Answers (.quant i f) s (fun t => OnlyTile s t i fieldQnt (launched s i 4 [.qrow 0 (List.replicate 64 0)])))
  ∧ (∀ s i f x c q, IssuesQnt s i 1 f x → siteCfg (siteAt (settled s i) f.site.toNat) = some c →
      q = quantise f.site.toNat c (siteAt (settled s i) f.site.toNat) (if f.half then 1 else 0) f.step (quantVals (settled s i) c f) →
      Answers (.quant i f) s (fun t => OnlyTile s t i fieldQnt (putSite f.site.toNat q.site (launched s i 4
        ([.qrow q.first q.bytes, .stats q.add] ++ q.s2.toList.map (Effect.s2 f.site.toNat))))))
  ∧ (∀ s i f x, IssuesQnt s i 2 f x → siteCfg (siteAt (settled s i) f.site.toNat) = none → f.src = 0 ∨ 4 ≤ f.src.toNat →
      (siteAt (settled s i) f.site.toNat).cfg = none → Answers (.deq i f) s (fun t =>
      OnlyTileRow s t i fieldQnt (sourceRow i.toNat unitQnt f.src.toNat s)
        (launched s i 3 [.vec f.vreg.toNat ((span 0 64).map (fun k => (k, 0))) 4])))
  ∧ (∀ s i f x c, IssuesQnt s i 2 f x → siteCfg (siteAt (settled s i) f.site.toNat) = none → f.src = 0 ∨ 4 ≤ f.src.toNat →
      (siteAt (settled s i) f.site.toNat).cfg = some c → cfgFmt c.toNat = 6 → Answers (.deq i f) s (fun t =>
      OnlyTileRow s t i fieldQnt (sourceRow i.toNat unitQnt f.src.toNat s)
        (launched s i 3 [.vec f.vreg.toNat ((span (if f.half then 32 else 0) 32).map (fun k => (k, 0))) 4])))
  ∧ (∀ s i f x c ls, IssuesQnt s i 2 f x → siteCfg (siteAt (settled s i) f.site.toNat) = some c → f.src = 0 ∨ 4 ≤ f.src.toNat →
      deqLanes c (siteAt (settled s i) f.site.toNat) (sourceRow i.toNat unitQnt f.src.toNat s).1 (if f.half then 1 else 0) f.ar.toNat f.obf
        = ls.map (fun l => (l.1, some l.2)) → Answers (.deq i f) s (fun t =>
      OnlyTileRow s t i fieldQnt (sourceRow i.toNat unitQnt f.src.toNat s) (launched s i 3 [.vec f.vreg.toNat ls 4])))
  ∧ (∀ s i f x, IssuesQnt s i 6 f x → Answers (.flush i f) s (fun t => OnlyTile s t i fieldQnt
      (putSite f.site.toNat { siteAt (settled s i) f.site.toNat with records := [], nrec := 0, sideS2 := none }
        (launched s i 4 [.qrow 0 (sideBytes (siteAt (settled s i) f.site.toNat))]))))
  ∧ (∀ s i f x, IssuesQnt s i 7 f x → f.x = false → Answers (.stats i f) s (fun t =>
      let y := siteAt (settled s i) f.site.toNat
      OnlyTile s t i fieldQnt (launched s i 4 [.qrow 0 (statsRow { y with
        stats := (pendingStats (settled s i) f.site.toNat).foldl addStats y.stats })])))
  ∧ (∀ s i f x, IssuesQnt s i 7 f x → f.x = true → Answers (.stats i f) s (fun t =>
      let y := siteAt (settled s i) f.site.toNat
      let all := (pendingStats (settled s i) f.site.toNat).foldl addStats y.stats
      let z := dropPending false f.site.toNat (settled s i)
      OnlyTile s t i fieldQnt (putSite f.site.toNat { y with stats := { SiteStats.init with maxErr := all.maxErr } } { z with
        flights := z.flights ++ [{ ready := s.clocks.lc + 4, eff := .qrow 0 (statsRow { y with stats := all }) }] })))
  ∧ (∀ y lc all n, readyOverflow lc (dropPending all n y) = readyOverflow lc y)
  ∧ (∀ s i f x, IssuesQnt s i 7 f x → f.x = true → (settled s i).flights = [] → Answers (.stats i f) s (fun t =>
      let y := siteAt (settled s i) f.site.toNat
      OnlyTile s t i fieldQnt (putSite f.site.toNat { y with stats := { SiteStats.init with maxErr := y.stats.maxErr } }
        (launched s i 4 [.qrow 0 (statsRow y)]))))

/-! ## Attention -/

/-- A command flit that reaches its engine takes it until the next command may come, and the command names its sequence handle and lane; a busy engine, or
a KIND that is not known, is a breach. In T0 an APPEND writes its position to the lowest slot that is not valid; a scan passes a slot that
is not valid by; the last lc of a faulty command's scan, or T0 where there is none, sends zero flits to tile 16r + 15, which ENGINE_OUTPUT brings to it from the
east. -/
def Obligations.AttentionEngines : Prop :=
  (∀ s (r : BitVec 4) f x v h l, Live s → mesochronousRuns s = true → s.loom.engines = [] → s.loom.kvUp = [] →
      s.loom.flits.find? (atEngine r.toNat s.clocks.lc) = some f → f.slot.bind (slotOfEntry s) = some x → isPass x = true →
      slotVersion s x = some v → v.engines.getLsbD r.toNat = true → (parseCmd f.data).kind = 2 →
      cmdFault s r.toNat x (parseCmd f.data) = none → NamesLane (parseCmd f.data) h l →
      Answers (.append r h l []) s (fun t =>
      engineOf t r.toNat = { busyUntil := s.clocks.lc + 2 * ceilDiv (kvBytes (parseCmd f.data).d (parseCmd f.data).kf) 64 + 2
                             cmd := some (taken s x f.data) }
      ∧ (∀ k < 16, k ≠ r.toNat → engineOf t k = engineOf s k)
      ∧ t.loom.flits = s.loom.flits.filter (fun g => !atEngine r.toNat s.clocks.lc g)
      ∧ t = { s with loom := { s.loom with engines := t.loom.engines, flits := t.loom.flits }, seen := t.seen }))
  ∧ (∀ s (r : BitVec 4) f x v h l, Live s → mesochronousRuns s = true → s.loom.engines = [] → s.loom.kvUp = [] →
      s.loom.flits.find? (atEngine r.toNat s.clocks.lc) = some f → f.slot.bind (slotOfEntry s) = some x → isPass x = true →
      slotVersion s x = some v → v.engines.getLsbD r.toNat = true → (parseCmd f.data).kind = 1 →
      cmdFault s r.toNat x (parseCmd f.data) = none → NamesLane (parseCmd f.data) h l →
      Answers (.attend r h l []) s (fun t =>
      engineOf t r.toNat =
        { busyUntil := s.clocks.lc + queryFlits (parseCmd f.data) + kvFlits (parseCmd f.data) + 1 + (parseCmd f.data).w
            + outFlits (parseCmd f.data)
          cmd := some (taken s x f.data) }
      ∧ (∀ k < 16, k ≠ r.toNat → engineOf t k = engineOf s k)
      ∧ t.loom.flits = s.loom.flits.filter (fun g => !atEngine r.toNat s.clocks.lc g)
      ∧ t = { s with loom := { s.loom with engines := t.loom.engines, flits := t.loom.flits }, seen := t.seen }))
  ∧ (∀ s (r : BitVec 4) f x h l, Live s → mesochronousRuns s = true → (engineOf s r.toNat).cmd = none →
      s.clocks.lc < (engineOf s r.toNat).busyUntil → s.loom.flits.find? (atEngine r.toNat s.clocks.lc) = some f →
      f.slot.bind (slotOfEntry s) = some x → isPass x = true → x.breached = false → (parseCmd f.data).kind ≠ 2 →
      NamesLane (parseCmd f.data) h l → Answers (.attend r h l []) s (fun t => engineOf t r.toNat = engineOf s r.toNat
        ∧ (tenantOf t (draftOf s x.draft).tenant).faulted = true
        ∧ t.loom.breach = breachWord (16 * r.toNat + 15) 6 (draftOf s x.draft).tenant x.draft (s.clocks.lc - passStart x)))
  ∧ (∀ s (r : BitVec 4) f x v h l, Live s → mesochronousRuns s = true → s.loom.engines = [] →
      s.loom.flits.find? (atEngine r.toNat s.clocks.lc) = some f → f.slot.bind (slotOfEntry s) = some x → isPass x = true →
      x.breached = false → slotVersion s x = some v → v.engines.getLsbD r.toNat = true → (parseCmd f.data).kind ≠ 1 →
      (parseCmd f.data).kind ≠ 2 → NamesLane (parseCmd f.data) h l →
      Answers (.attend r h l []) s (fun t =>
        (engineOf t r.toNat).busyUntil = s.clocks.lc + 1 ∧ (engineOf t r.toNat).cmd = none
        ∧ t.loom.breach = breachWord (16 * r.toNat + 15) 6 (draftOf s x.draft).tenant x.draft (s.clocks.lc - passStart x)))
  ∧ (∀ s r k q l j, (engineOf s r).cmd = some k → k.appended = false → k.faulty = false → (parseCmd k.raw).kind = 2 →
      k.lane = some (q, l) → s.clocks.lc = appendLc (parseCmd k.raw) k.first → s.loom.kvUp = [] →
      appendSlot (seqOf s q).desc (laneOf (seqOf s q) l) = (some j, false) →
      kvSlotOf (laneOf (seqOf (engineTick r s) q) l) j = { valid := true, tag := (laneOf (seqOf s q) l).npos, score := 0 }
      ∧ (laneOf (seqOf (engineTick r s) q) l).npos = (laneOf (seqOf s q) l).npos + 1
      ∧ (engineTick r s).loom.kv = mwrite s.loom.kv (kvSlotAddr (seqOf s q) l j)
          (let n := kvFlits (parseCmd k.raw) / 2
           let m := kvBytes (descDim (seqOf s q).desc) (descKf (seqOf s q).desc)
           slice ((flitBytes s r (k.first + 1) n).take m) 0 (slotSize (seqOf s q).desc / 2)
            ++ slice ((flitBytes s r (k.first + 1 + n) n).take m) 0 (slotSize (seqOf s q).desc / 2)))
  ∧ (∀ s r k q l, (engineOf s r).cmd = some k → k.appended = true → k.faulty = false → (parseCmd k.raw).kind = 1 →
      k.lane = some (q, l) → k.scanned + 1 < (parseCmd k.raw).w → appendLc (parseCmd k.raw) k.first ≤ s.clocks.lc →
      (kvSlotOf (laneOf (seqOf s q) l) k.scanned).valid = false → engineTick r s = { s with
      loom := { s.loom with engines := sput Engine.init s.loom.engines r { engineOf s r with cmd := some { k with scanned := k.scanned + 1 } } } })
  ∧ (∀ s r k, (engineOf s r).cmd = some k → k.appended = false → k.faulty = true → (parseCmd k.raw).kind = 1 →
      (parseCmd k.raw).w = 0 → s.clocks.lc = appendLc (parseCmd k.raw) k.first → s.loom.flits = [] →
      (engineTick r s).loom.flits = (span 0 (outFlits (parseCmd k.raw))).map (fun i =>
          { dest := 16 * r + 15, dir := .e, due := s.clocks.lc + 24 + i
            data := List.replicate 64 0, poisoned := false, slot := k.slot, engine := true }))
  ∧ (∀ s r k, (engineOf s r).cmd = some k → k.appended = true → k.faulty = true → (parseCmd k.raw).kind = 1 →
      k.scanned + 1 = (parseCmd k.raw).w → appendLc (parseCmd k.raw) k.first ≤ s.clocks.lc →
      (engineTick r s).loom.flits = s.loom.flits ++ (span 0 (outFlits (parseCmd k.raw))).map (fun i =>
          { dest := 16 * r + 15, dir := .e, due := appendLc (parseCmd k.raw) k.first + (parseCmd k.raw).w + 24 + i
            data := List.replicate 64 0, poisoned := false, slot := k.slot, engine := true }))
  ∧ (∀ s (r : BitVec 4) f, Live s → mesochronousRuns s = true → s.loom.flits = [f] → f.dest = 16 * r.toNat + 15 → f.engine = true →
      f.due = s.clocks.lc → takesPart s (16 * r.toNat + 15) = true → (∀ y ∈ (tileOf s (16 * r.toNat + 15)).recv, y.lc ≠ s.clocks.lc) →
      Answers (.engineOutput r) s (fun t =>
      t.loom.flits = [] ∧ (tileOf t (16 * r.toNat + 15)).recv.getLast? =
        some { lc := s.clocks.lc, key := 1, unit := unitMesh, data := f.data, poisoned := f.poisoned }
      ∧ t = { s with loom := { s.loom with flits := [], tiles := t.loom.tiles }, seen := t.seen }))

/-! ## Apertures -/

/-- An access to the tile-memory or KV aperture is parked as it arrives; its rows are applied one by one, the write lands in its bank
alone, a read is answered with what its bank holds, and one that has waited 2 ms is answered with zeros and status 2. A malformed access
takes its credit and gives it back, and is discarded alone where the host holds none. One transaction to a flit, with the credits
returned in it, is the model's choice (log 11); so are the order of the park and how the timeout is told (log 31). -/
def Obligations.Apertures : Prop :=
  (∀ s (m : BitVec 1) (a : BitVec 57) d (o : BitVec 8), Takes s m.toNat → inTileAperture a.toNat = true → d.length ∈ [8, 64, 128, 192] →
      goodAddr a.toNat d.length = true → Answers (.apertureWrite m a d o) s (fun t => OnlyWeft s t m.toNat { weftOf s m.toNat with
      devPosted := (weftOf s m.toNat).devPosted - 1, oweP := (weftOf s m.toNat).oweP + 1
      park := [{ isRead := false, kv := false, addr := a.toNat, size := d.length, data := d, tag := 0, owner := o.toNat
                 since := s.loom.now.toNat, lc := s.clocks.lc }] }))
  ∧ (∀ s (m : BitVec 1) (a : BitVec 57) d (o : BitVec 8), Takes s m.toNat → inKvAperture a.toNat = true → d.length ∈ [8, 64, 128, 192] →
      goodAddr a.toNat d.length = true → Answers (.kvApertureWrite m a d o) s (fun t => OnlyWeft s t m.toNat { weftOf s m.toNat with
      devPosted := (weftOf s m.toNat).devPosted - 1, oweP := (weftOf s m.toNat).oweP + 1
      park := [{ isRead := false, kv := true, addr := a.toNat, size := d.length, data := d, tag := 0, owner := o.toNat
                 since := s.loom.now.toNat, lc := s.clocks.lc }] }))
  ∧ (∀ s (m : BitVec 1) (a : BitVec 57) (z : BitVec 2) (g : BitVec 12) (o : BitVec 8), Takes s m.toNat → inTileAperture a.toNat = true →
      goodAddr a.toNat (sizeBytes z.toNat) = true → Answers (.apertureRead m a z g o) s (fun t =>
      OnlyWeft s t m.toNat { weftOf s m.toNat with devNonposted := (weftOf s m.toNat).devNonposted - 1
                                                   park := [{ isRead := true, kv := false, addr := a.toNat, size := sizeBytes z.toNat, data := []
                                                              tag := g.toNat, owner := o.toNat, since := s.loom.now.toNat, lc := s.clocks.lc }] }))
  ∧ (∀ s (m : BitVec 1) (a : BitVec 57) (z : BitVec 2) (g : BitVec 12) (o : BitVec 8), Takes s m.toNat → inKvAperture a.toNat = true →
      goodAddr a.toNat (sizeBytes z.toNat) = true → Answers (.kvApertureRead m a z g o) s (fun t =>
      OnlyWeft s t m.toNat { weftOf s m.toNat with devNonposted := (weftOf s m.toNat).devNonposted - 1
                                                   park := [{ isRead := true, kv := true, addr := a.toNat, size := sizeBytes z.toNat, data := []
                                                              tag := g.toNat, owner := o.toNat, since := s.loom.now.toNat, lc := s.clocks.lc }] }))
  ∧ (∀ s (m : BitVec 1) (a : BitVec 57) d (o : BitVec 8), Takes s m.toNat → inTileAperture a.toNat = true → d.length ∉ [8, 64, 128, 192] →
      Answers (.apertureWrite m a d o) s (fun t => OnlyWeft s t m.toNat { weftOf s m.toNat with
      malformed := satAdd (weftOf s m.toNat).malformed 1, devPosted := (weftOf s m.toNat).devPosted - 1
      oweP := (weftOf s m.toNat).oweP + 1 }))
  ∧ (∀ s (m : BitVec 1) (a : BitVec 57) d (o : BitVec 8), Live s → (weftOf s m.toNat).trained = true →
      (weftOf s m.toNat).devPosted = 0 → Answers (.apertureWrite m a d o) s (fun t => inTileAperture a.toNat = true →
      OnlyWeft s t m.toNat { weftOf s m.toNat with malformed := satAdd (weftOf s m.toNat).malformed 1 }))
  ∧ (∀ s (m : BitVec 1) x b k n, Live s → (weftOf s m.toNat).park = [x] → (weftOf s m.toNat).inq = [] →
      (weftOf s (1 - m.toNat)).park = [] → x.isRead = false →
      placeOf x = .bank b k n → mayApply s false (.bank b k n) = true → x.data.length = 64 → x.size = 64 →
      Answers (.apertureApply m 0 []) s (fun t =>
      t.loom.banks = mwrite s.loom.banks (bankKey b k * 16384 + n) x.data
      ∧ (bankKey b k, s.clocks.lc) ∈ t.loom.bankUse ∧ weftOf t m.toNat = { weftOf s m.toNat with park := [] }
      ∧ t = { s with weft := t.weft, loom := { s.loom with banks := t.loom.banks, bankUp := t.loom.bankUp, bankUse := t.loom.bankUse }
                     seen := t.seen }))
  ∧ (∀ s (m : BitVec 1) x b k n, Live s → (weftOf s m.toNat).park = [x] → WeftIdle s m.toNat → x.isRead = true →
      (weftOf s (1 - m.toNat)).park = [] → placeOf x = .bank b k n → mayApply s true (.bank b k n) = true → x.data = [] → x.size = 64 →
      n % 64 = 0 → s.loom.bankUp = [] →
      Answers (.apertureApply m 0 []) s (fun t =>
      Sent s t m.toNat { kind := .resp 0, addr := 0, data := mread s.loom.banks (bankKey b k * 16384 + n % 16384) 64, len := 64, tag := x.tag
                         tenant := x.owner, what := .answer }
      ∧ (weftOf t m.toNat).park = []
      ∧ (weftOf t m.toNat).devNonposted = (weftOf s m.toNat).devNonposted + min ((weftOf s m.toNat).oweN + 1) 255
      ∧ t = { s with weft := t.weft, loom := { s.loom with bankUse := t.loom.bankUse }, seen := t.seen }))
  ∧ (∀ s (m : BitVec 1) x b k n, Live s → (weftOf s m.toNat).park = [x] → placeOf x = .bank b k n →
      mayApply s x.isRead (.bank b k n) = false →
      Answers (.apertureApply m 0 []) s (fun t => t = { s with seen := t.seen }))
  ∧ (∀ s (m : BitVec 1) x, Live s → (weftOf s m.toNat).park = [x] → WeftIdle s m.toNat → x.isRead = true →
      x.since + 2000000 ≤ s.loom.now.toNat → Answers (.apertureReadTimeout m 0) s (fun t =>
      Sent s t m.toNat { kind := .resp 2, addr := 0, data := List.replicate x.size 0, len := x.size, tag := x.tag, tenant := x.owner
                         what := .answer }
      ∧ (weftOf t m.toNat).park = [] ∧ t = { s with weft := t.weft, seen := t.seen }))

/-! ## The weft link -/

/-- Training gives a module its credits; a retrain counts and raises LINK_DOWN; a damaged flit draws one NAK; an intact flit in order
moves the sequence and gives its credits; READ_RESP data reaches what asked; an idle flit carries the acknowledgement after 1 us; and a
register write lands where its address says, or nowhere while the loom does not answer. That WEFT_TRAIN_RETRY changes nothing, that
the data of a READ_RESP is cut to the length asked for and that a damaged flit draws its NAK at once are the model's choices (log 31);
that a LINK reset clears MALFORMED is another (log 21). -/
def Obligations.WeftLink : Prop :=
  (∀ s (m : BitVec 1) rate rev (p n : BitVec 8), Live s → isPowered s m.toNat = true → (weftOf s m.toNat).trained = false →
      (∀ k < 2, (weftOf s k).resent = [] ∧ (weftOf s k).txq = []) → Answers (.weftTrained m rate rev p n) s (fun t =>
      OnlyWeft s t m.toNat { weftOf s m.toNat with
        trained := true, rate := rate, reversed := rev, hostPosted := p.toNat, hostNonposted := n.toNat }))
  ∧ (∀ s (m : BitVec 1), Live s → Answers (.weftTrainRetry m) s (fun t => t = { s with seen := t.seen }))
  ∧ (∀ s (m : BitVec 1), Live s → (weftOf s m.toNat).trained = true → (weftOf s m.toNat).inq = [] → (weftOf s m.toNat).park = [] →
      (weftOf s m.toNat).replay = [] → (weftOf s m.toNat).resent = [] → (weftOf s m.toNat).txq = [] → (weftOf s 0).dropped = [] →
      (weftOf s 1).dropped = [] → (weftOf s (1 - m.toNat)).resent = [] → (weftOf s (1 - m.toNat)).txq = [] → s.loom.reads = [] →
      Answers (.weftRetrain m .linkLoss) s (fun t =>
      weftOf t m.toNat = { WeftModule.init with retrains := satAdd (weftOf s m.toNat).retrains 1 }
      ∧ t.alert = putBit s.alert 11 true ∧ t = { s with weft := t.weft, alert := t.alert, seen := t.seen }))
  ∧ (∀ s (m : BitVec 1) (g : BitVec 12) d r ld, Live s → (weftOf s m.toNat).trained = true → s.loom.reads = [r] → r.tag = g.toNat →
      r.mod = m.toNat → r.got = none → r.what = .image r.len → s.loom.load = some ld → Answers (.readResp m g 0 d) s (fun t =>
      t = { s with loom := { s.loom with reads := [], load := some { ld with buffer := ld.buffer ++ slice d 0 r.len } }, seen := t.seen }))
  ∧ (∀ s (m : BitVec 1) (g : BitVec 12) (c : BitVec 4) d r n k, Live s → (weftOf s m.toNat).trained = true → s.loom.reads = [r] →
      r.tag = g.toNat → r.mod = m.toNat → r.got = none → r.what = .ring n k → c ≠ 0 → (ringOf s (4 * (n / 4) + 2)).en = false →
      n % 4 ≠ 2 → Answers (.readResp m g c d) s (fun t =>
      (ringOf t n) = { ringOf s n with en := false } ∧ (tenantOf t (n / 4)).lost = satAdd (tenantOf s (n / 4)).lost 1
      ∧ t = { s with loom := { s.loom with reads := [], rings := t.loom.rings, tenants := t.loom.tenants }, seen := t.seen }))
  ∧ (∀ s (m : BitVec 1) c, Live s → weftCause (weftOf s m.toNat) c = false → Answers (.weftRetrain m c) s (fun t =>
      t = { s with seen := t.seen }))
  ∧ (∀ s (m : BitVec 1), Live s → (weftOf s m.toNat).trained = true → (weftOf s m.toNat).replay.length < 128 →
      Answers (.ackInterval m) s (fun t => OnlyWeft s t m.toNat (sentIdle (weftOf s m.toNat) 1)))
  ∧ (∀ s (m : BitVec 1), Live s → (weftOf s m.toNat).trained = true → (weftOf s m.toNat).replay.length < 128 →
      Answers (.ackInterval m) s (fun t => (weftOf t m.toNat).flits.getLast?.map (fun e => (e.1, flitIntact e.2, flitSeq e.2,
          flitAckSeq e.2, flitAck e.2, flitTxns e.2, leAt e.2 0 8 / 2 ^ 28 % 256, leAt e.2 0 8 / 2 ^ 36 % 256)) =
        some ((weftOf s m.toNat).txSeq, true, (weftOf s m.toNat).txSeq, (weftOf s m.toNat).rxSeq, 1, 0,
          min (weftOf s m.toNat).oweP 255, min (weftOf s m.toNat).oweN 255)))
  ∧ (∀ s (m : BitVec 1) b, Live s → (weftOf s m.toNat).trained = true → flitIntact b = false → (weftOf s m.toNat).replay.length < 128 →
      Answers (.flitReceive m b []) s (fun t => OnlyWeft s t m.toNat { sentIdle (weftOf s m.toNat) 2 with dropping := true }))
  ∧ (∀ s (m : BitVec 1) b, Live s → (weftOf s m.toNat).trained = true → flitIntact b = true → flitSeq b = (weftOf s m.toNat).rxSeq + 1 →
      flitTxns b = 0 → flitAck b = 1 → (weftOf s m.toNat).rxSince < 31 → (∀ k < 2, (weftOf s k).resent = [] ∧ (weftOf s k).txq = []) →
      Answers (.flitReceive m b []) s (fun t => OnlyWeft s t m.toNat { weftOf s m.toNat with
        rxSeq := flitSeq b, dropping := false, rxSince := (weftOf s m.toNat).rxSince + 1
        hostPosted := (weftOf s m.toNat).hostPosted + leAt b 0 8 / 2 ^ 28 % 256
        hostNonposted := (weftOf s m.toNat).hostNonposted + leAt b 0 8 / 2 ^ 36 % 256
        replay := (weftOf s m.toNat).replay.filter (fun e => decide (2048 ≤ (flitAckSeq b - e.1).toNat))
        flits := (weftOf s m.toNat).flits.filter (fun e => decide (2048 ≤ (flitAckSeq b - e.1).toNat))
        nakFor := if ∀ e ∈ (weftOf s m.toNat).replay, 2048 ≤ (flitAckSeq b - e.1).toNat then (weftOf s m.toNat).nakFor else none }))
  ∧ (∀ s (d : DWord) (o : BitVec 8), HostHeard s → Answers (.registerWrite (.weft 0x400 d o)) s (fun t => t = { s with
      loom := { s.loom with draftAddr := BitVec.ofNat 57 (d.toNat % 2 ^ 57 / 64 * 64) }, seen := t.seen }))
  ∧ (∀ s (d : DWord) (o : BitVec 8), HostHeard s → s.loom.weave.swap = .idle →
      Answers (.registerWrite (.weft 0x700 d o)) s (fun t => t = { s with
      loom := { s.loom with weave := { s.loom.weave with shadowLc := d.toNat % 2 ^ 32 } }, seen := t.seen }))
  ∧ (∀ s (e : BitVec 10) (d : DWord) (o : BitVec 8), HostHeard s → s.loom.weave.swap = .idle →
      Answers (.registerWrite (.weft (BitVec.ofNat 57 (0xC000 + 16 * e.toNat)) d o)) s (fun t =>
      sget WEntry.init t.loom.weave.shadow e.toNat =
        { sget WEntry.init s.loom.weave.shadow e.toNat with start := d.toNat % 2 ^ 32, len := d.toNat / 2 ^ 32 }
      ∧ t = { s with loom := { s.loom with weave := { s.loom.weave with shadow := t.loom.weave.shadow } }, seen := t.seen }))
  ∧ (∀ s a d o, Live s → s.pwr.drained = false → loomReachable s.pwr = false → Answers (.registerWrite (.weft a d o)) s (fun t => t = { s with seen := t.seen }))
  ∧ (∀ s a d (o : BitVec 8), Reached s → s.pwr.drained = true → Answers (.registerWrite (.weft a d o)) s (fun t =>
      sget 0 (weftOf t (moduleFor s o.toNat)).dropped o.toNat = sget 0 (weftOf s (moduleFor s o.toNat)).dropped o.toNat + 1
      ∧ t = { s with weft := t.weft, seen := t.seen }))

/-! ## Rings, partitions and the weave -/

/-- A doorbell in its bounds moves its counter, with the counter of before kept for what happens in the same lc, and one out of them is
told in an event; RING_CFG starts a ring, and stops one with what it has asked for; a good
partition write is taken and a bad one only leaves its code; a weave swap is checked; a changed tally select clears its counter before
the events of its lc, and a read of an lc takes the count from before its events. -/
def Obligations.RingsAndTables : Prop :=
  (∀ s (n : BitVec 10) v, HostHeard s → n.toNat % 4 = 0 ∨ n.toNat % 4 = 3 → tailValid (ringOf s n.toNat) v = true →
      Answers (.doorbellTail n v) s (fun t => ringOf t n.toNat =
        { ringOf s n.toNat with tail := v, was := some (bellWas s (ringOf s n.toNat) (ringOf s n.toNat).tail) }
      ∧ (∀ k < 1024, k ≠ n.toNat → ringOf t k = ringOf s k) ∧ t = { s with loom := { s.loom with rings := t.loom.rings }, seen := t.seen }))
  ∧ (∀ s (n : BitVec 10) v, HostHeard s → n.toNat % 4 = 0 ∨ n.toNat % 4 = 3 → tailValid (ringOf s n.toNat) v = false →
      (ringOf s (4 * (n.toNat / 4) + 2)).en = false → Answers (.doorbellTail n v) s (fun t =>
      (tenantOf t (n.toNat / 4)).lost = satAdd (tenantOf s (n.toNat / 4)).lost 1
      ∧ t = { s with loom := { s.loom with tenants := t.loom.tenants }, seen := t.seen }))
  ∧ (∀ s (n : BitVec 10) v, HostHeard s → n.toNat % 4 = 1 ∨ (n.toNat % 4 = 2 ∧ (tenantOf s (n.toNat / 4)).lost = 0) →
      headValid (ringOf s n.toNat) v = true → Answers (.doorbellHead n v) s (fun t => ringOf t n.toNat =
        { ringOf s n.toNat with head := v, was := some (bellWas s (ringOf s n.toNat) (ringOf s n.toNat).head) }
      ∧ (∀ k < 1024, k ≠ n.toNat → ringOf t k = ringOf s k) ∧ t = { s with loom := { s.loom with rings := t.loom.rings }, seen := t.seen }))
  ∧ (∀ s (n : BitVec 10) (d : DWord), HostHeard s → n.toNat % 4 ≠ 2 → (ringOf s n.toNat).en = false → Answers (.ringEnable n d) s (fun t =>
      ringOf t n.toNat = { ringOf s n.toNat with
        size := BitVec.ofNat 4 d.toNat, notify := d.getLsbD 5, ndata := BitVec.ofNat 32 (d.toNat / 2 ^ 32), en := true, head := 0, tail := 0
        resv := 0, was := none }
      ∧ (∀ k < 1024, k ≠ n.toNat → ringOf t k = ringOf s k) ∧ t = { s with loom := { s.loom with rings := t.loom.rings }, seen := t.seen }))
  ∧ (∀ s (n : BitVec 10) d, HostHeard s → (ringOf s n.toNat).en = true → Answers (.ringEnable n d) s (fun t => t = { s with seen := t.seen }))
  ∧ (∀ s (n : BitVec 10) d, HostHeard s → n.toNat % 4 ≠ 1 → (ringOf s n.toNat).en = true → Answers (.ringDisable n d) s (fun t =>
      ringOf t n.toNat = { ringOf s n.toNat with en := false } ∧ (∀ r ∈ t.loom.reads, asksRing n.toNat r = false)
      ∧ (∀ k < 1024, k ≠ n.toNat → ringOf t k = ringOf s k)
      ∧ t = { s with loom := { s.loom with rings := t.loom.rings, reads := t.loom.reads }, seen := t.seen }))
  ∧ (∀ s (n : BitVec 10) d, HostHeard s → n.toNat % 4 = 1 → (ringOf s n.toNat).en = true → jobsOfTenant s (n.toNat / 4) ≠ [] →
      Answers (.ringDisable n d) s (fun t => t = { s with seen := t.seen }))
  ∧ (∀ s (n : BitVec 8) (d : DWord), HostHeard s → partCode s n.toNat (parsePart d) = 0 → Answers (.partitionWrite n d) s (fun t =>
      partOf t n.toNat = parsePart d ∧ t.loom.partResult = BitVec.ofNat 10 n.toNat ∧ (∀ k < 256, k ≠ n.toNat → partOf t k = partOf s k)
      ∧ t = { s with loom := { s.loom with parts := t.loom.parts, partResult := t.loom.partResult }, seen := t.seen }))
  ∧ (∀ s (n : BitVec 8) (d : DWord), HostHeard s → partCode s n.toNat (parsePart d) ≠ 0 → Answers (.partitionWrite n d) s (fun t =>
      t = { s with loom := { s.loom with
        partResult := BitVec.ofNat 10 (n.toNat + 256 * partCode s n.toNat (parsePart d)) }, seen := t.seen }))
  ∧ (∀ s, HostHeard s → Answers .weaveSwap s (fun t => t = { s with
      loom := { s.loom with weave := (if s.loom.weave.swap = .idle then { s.loom.weave with swap := .checking }
        else { s.loom.weave with swapResult := 4 }) }, seen := t.seen }))
  ∧ (∀ s, Reached s → s.loom.weave.swap = .checking → Answers .weaveCheckDone s (fun t => t = { s with
      loom := { s.loom with weave := { s.loom.weave with
        swap := if (weaveChecks s.loom.weave).1 = 0 then .pending else .idle
        swapResult := BitVec.ofNat 4 (weaveChecks s.loom.weave).1, swapEntry := BitVec.ofNat 10 (weaveChecks s.loom.weave).2
        checksEnd := s.clocks.lc } }, seen := t.seen }))
  ∧ (∀ s (n : BitVec 6) (d : DWord), HostHeard s → Answers (.loomTallySelect n d) s (fun t =>
      let e : TallySel := { src := BitVec.ofNat 8 d.toNat, tenant := BitVec.ofNat 8 (d.toNat / 256), filter := d.getLsbD 16 }
      tallySelOf t n.toNat = e ∧ (s.loom.tallyLc ≠ s.clocks.lc → sget Counter.init t.loom.tally n.toNat =
        (if d.getLsbD 17 ∨ e ≠ tallySelOf s n.toNat then .init else sget Counter.init s.loom.tally n.toNat))
      ∧ (∀ k < 64, k ≠ n.toNat → tallySelOf t k = tallySelOf s k ∧ sget Counter.init t.loom.tally k = sget Counter.init s.loom.tally k)
      ∧ t = { s with loom := { counting s t with tallySel := t.loom.tallySel, tally := t.loom.tally }, seen := t.seen }))
  ∧ (∀ s (n : BitVec 6) (d : DWord) src ten k, HostHeard s → s.loom.tallyLc = s.clocks.lc → s.loom.tallyEvs = [(src, ten, k)] →
      d.getLsbD 17 = true → Answers (.loomTallySelect n d) s (fun t =>
      sget Counter.init t.loom.tally n.toNat = (if takesLoom src ten (tallySelOf t n.toNat) then bump k .init else .init)
      ∧ tallyRead t n.toNat = .init))
  ∧ (∀ s (n : BitVec 6), HostHeard s → Answers (.loomTallyClr n) s (fun t =>
      tallySelOf t n.toNat = tallySelOf s n.toNat
      ∧ (s.loom.tallyLc ≠ s.clocks.lc → sget Counter.init t.loom.tally n.toNat = .init) ∧ tallyRead t n.toNat = .init
      ∧ (∀ k < 64, k ≠ n.toNat → tallySelOf t k = tallySelOf s k ∧ sget Counter.init t.loom.tally k = sget Counter.init s.loom.tally k)
      ∧ t = { s with loom := { counting s t with tallySel := t.loom.tallySel, tally := t.loom.tally }, seen := t.seen }))
  ∧ (∀ s n src ten, s.loom.tallyLc ≠ s.clocks.lc → s.loom.tallySel = [(n, { src := src, tenant := 0, filter := false })] →
      sget Counter.init (loomTally src.toNat ten 1 s).loom.tally n = bump 1 (sget Counter.init s.loom.tally n)
      ∧ tallyRead (loomTally src.toNat ten 1 s) n = sget Counter.init s.loom.tally n)

/-! ## Admission -/

/-- SUBMISSION_FETCH asks for entries of the next ring; an admitted RUN books its occurrences and promises its record; SEQ_OPEN takes the
lowest free id and the lowest reels that are free or return in this lc, which leave the sequence that returns them, SEQ_CLOSE of an unbound sequence is returning at once; a NOP and
a blocked tenant's entry are answered at once; a record that is due leaves with its job. One transaction to a flit is the model's
choice (log 11). -/
def Obligations.Admission : Prop :=
  (∀ s (k : BitVec 2) n, Live s → nextRing s = some n → 0 < fetchCount s n k.toNat → Answers (.submissionFetch k) s (fun t =>
      t.loom.reads = s.loom.reads ++ [{ tag := s.loom.nextTag, mod := moduleFor s (n / 4), tenant := n / 4
                                        what := .ring n (fetchCount s n k.toNat)
                                        addr := entryAddr (ringOf s n) (ringOf s n).head, len := 64 * fetchCount s n k.toNat, got := none }]
      ∧ t.loom.rr = n ∧ t.loom.nextTag = (s.loom.nextTag + 1) % 4096
      ∧ t = { s with loom := { s.loom with nextTag := t.loom.nextTag, rr := n, reads := t.loom.reads }, weft := t.weft, seen := t.seen }))
  ∧ (∀ s f rest, Fronts s f rest → takesRun f = true → runRefusal s (f.ring / 4) f.bytes = none → entDeadline f.bytes = none →
      s.loom.tallySel = [] → Answers .run s (fun t =>
      let occ := occurrences s (entDraft f.bytes) (s.clocks.lc + 64) (entPasses f.bytes)
      (t.loom.jobs.drop s.loom.jobs.length).map (fun j => (j.order, j.tenant, j.draft, j.passes, j.tag, j.subidx, j.booked, j.ended)) =
        [(f.order, f.ring / 4, entDraft f.bytes, entPasses f.bytes, entTag f.bytes, f.index, occ, none)]
      ∧ (t.loom.jobs.getLast?.map (·.promise)) = some (promiseAt s s.clocks.lc
          (occ.getLast?.getD 0 + (residentPass s (entDraft f.bytes)).getD 0 + 16))
      ∧ (∀ x ∈ occ, (entDraft f.bytes, x) ∈ t.loom.bookings)
      ∧ t = { s with loom := { counting s t with
          jobs := t.loom.jobs, bookings := t.loom.bookings, fetched := rest
          answeredAt := some s.clocks.lc }
                     esc := { s.esc with answerDue := if f.esc then some 0 else s.esc.answerDue }, seen := t.seen }))
  ∧ (∀ s f rest q, Fronts s f rest → f.ring % 4 = 0 → f.esc = false → entOp f.bytes = 2 → seqRefusal s (f.ring / 4) f.bytes = none →
      kfGood (descKf (BitVec.ofNat 41 (leAt f.bytes 32 8))) = true →
      2 * descSinks (BitVec.ofNat 41 (leAt f.bytes 32 8)) ≤ descW (BitVec.ofNat 41 (leAt f.bytes 32 8)) → freeSeqId s = some q →
      reelsNeeded (BitVec.ofNat 41 (leAt f.bytes 32 8)) ≤ (openReels s).length → s.loom.tallySel = [] →
      (ringOf s (f.ring + 1)).en = false → Answers .seqOpen s (fun t =>
      seqOf t q = { st := .opened, tenant := f.ring / 4, desc := BitVec.ofNat 41 (leAt f.bytes 32 8)
                    reels := (openReels s).take (reelsNeeded (BitVec.ofNat 41 (leAt f.bytes 32 8))), lanes := [], poisoned := false }
      ∧ (∀ k < 256, k ≠ q → seqOf t k = { seqOf s k with
          reels := (seqOf s k).reels.filter (fun r => !(seqOf t q).reels.contains r) })
      ∧ (∀ e ∈ t.loom.kvUp, e ∈ s.loom.kvUp)
      ∧ t = { s with loom := { counting s t with
          seqs := t.loom.seqs, kvUp := t.loom.kvUp, fetched := rest
          answeredAt := some s.clocks.lc }, seen := t.seen }))
  ∧ (∀ s f rest, Fronts s f rest → f.ring % 4 = 0 → f.esc = false → entOp f.bytes = 3 → seqRefusal s (f.ring / 4) f.bytes = none →
      badBind s (f.ring / 4) (leAt f.bytes 32 1) = false → s.loom.jobs = [] → Answers .seqClose s (fun t =>
      (seqOf t (leAt f.bytes 32 1)).st = .returning
      ∧ t.loom.closes = s.loom.closes ++ [{ seq := leAt f.bytes 32 1, tenant := f.ring / 4, tag := entTag f.bytes, subidx := f.index }]
      ∧ t = { s with loom := { s.loom with seqs := t.loom.seqs, closes := t.loom.closes, fetched := rest
                                           answeredAt := some s.clocks.lc }, seen := t.seen }))
  ∧ (∀ s f rest, Fronts s f rest → f.ring % 4 = 0 → f.ring < 1024 → f.esc = false → entOp f.bytes = 0 → entRes f.bytes = false →
      (tenantOf s (f.ring / 4)).blocked = false → (ringOf s (f.ring + 1)).en = true → (ringOf s (f.ring + 1)).notify = false →
      WeftIdle s (f.ring / 4 % 2) → s.loom.tallySel = [] → Answers .submitNop s (fun t =>
      let r := ringOf s (f.ring + 1)
      ringOf t (f.ring + 1) = { r with tail := r.tail + 1, resv := r.resv - 1 }
      ∧ Sent s t (f.ring / 4 % 2) { kind := .write, addr := entryAddr r r.tail, len := 64, tag := 0, tenant := f.ring / 4
                                    what := .record (f.ring + 1) r.tail.toNat
                                    data := recordBytes (entRecord f 0 (entDraft f.bytes) 0 []) s.loom.now.toNat (ringPhase r r.tail) }
      ∧ t = { s with weft := t.weft, loom := { counting s t with rings := t.loom.rings, fetched := rest, answeredAt := some s.clocks.lc }
                     seen := t.seen }))
  ∧ (∀ s f rest, Fronts s f rest → takesRun f = true → f.esc = false → (tenantOf s (f.ring / 4)).blocked = true →
      (ringOf s (f.ring + 1)).en = false → s.loom.tallySel = [] → Answers .run s (fun t => t = { s with
      loom := { counting s t with fetched := rest, answeredAt := some s.clocks.lc }, seen := t.seen }))
  ∧ (∀ s j, Reached s → s.loom.jobs = [j] → j.ended.isSome = true ∨ movesDone j = true → j.recordAt ≤ s.clocks.lc → s.loom.bobbin.out = [] → j.tenant < 256 →
      (ringOf s (4 * j.tenant + 1)).en = true → (ringOf s (4 * j.tenant + 1)).notify = false → WeftIdle s (j.tenant % 2) →
      s.loom.tallySel = [] → s.loom.seqs = [] → Answers .recordIssue s (fun t =>
      let n := 4 * j.tenant + 1
      let r := ringOf s n
      t.loom.jobs = [] ∧ ringOf t n = { r with tail := r.tail + 1, resv := r.resv - 1 }
      ∧ Sent s t (j.tenant % 2) { kind := .write, addr := entryAddr r r.tail, len := 64, tag := 0, tenant := j.tenant
                                  what := .record n r.tail.toNat
                                  data := recordBytes (jobRecord { j with ended := some (j.ended.getD 0) } s.loom.now.toNat)
                                            s.loom.now.toNat (ringPhase r r.tail) }
      ∧ t = { s with weft := t.weft, loom := { counting s t with rings := t.loom.rings, jobs := [] }, seen := t.seen }))

/-! ## The bobbin -/

/-- The stored form of a block decodes to the block. -/
def Obligations.BlockCodingRoundTrip : Prop :=
  ∀ b : List Byte, b.length = 4096 → decodeBlock (storedBlock b).2 (storedBlock b).1 = some b

/-- An admitted SAVE or RESTORE is booked on its move lc, a SAVE first writing a MAGIC of zero; each move carries one row of 64 bytes; the
outbound half, of 256 KiB, crosses the weft in order as its module can send it; a RESTORE's header and index are checked before anything is written; a block that fails ends the
job with 0x21 and leaves the tenant unmarked, while a move of a bank that the tenant's entry does not own is a breach; and
L_BOBBIN_CTRL takes a period only while no checkpoint is admitted. One transaction to a flit is the model's choice (log 11), and so is that
a SAVE has ended when its last image write has left (log 33). -/
def Obligations.Checkpoints : Prop :=
  (∀ s f rest, Fronts s f rest → f.ring % 4 = 3 → entOp f.bytes = 1 → (tenantOf s (f.ring / 4)).blocked = false →
      badCkpt s (f.ring / 4) f.bytes { parseCkpt f.bytes with nblk := blockCount s (parseCkpt f.bytes) } = false →
      ckptEntries s (f.ring / 4) (parseCkpt f.bytes).banks ≠ [] → entDeadline f.bytes = none → s.loom.tallySel = [] →
      (∀ j ∈ s.loom.jobs, j.order ≠ f.order) → Answers .save s (fun t =>
      let ms := moveLcs s (f.ring / 4) (parseCkpt f.bytes).banks (afterMoves s (f.ring / 4) (s.clocks.lc + 64))
        (64 * blockCount s (parseCkpt f.bytes))
      (t.loom.jobs.drop s.loom.jobs.length).map (fun j => (j.order, j.tenant, j.kind, j.tag, j.subidx, j.ended, j.ckpt.map (·.moves))) =
        [(f.order, f.ring / 4, .save, entTag f.bytes, f.index, none, some ms)]
      ∧ t.loom.moveBookings = ms ++ s.loom.moveBookings
      ∧ t.loom.bobbin.out = s.loom.bobbin.out ++ (if outboundHeld s + 64 ≤ 262144 then
          [{ job := f.order, tenant := f.ring / 4, addr := (parseCkpt f.bytes).image, data := List.replicate 64 0, payload := false }]
        else [])
      ∧ t = { s with loom := { counting s t with
          jobs := t.loom.jobs, moveBookings := t.loom.moveBookings, bobbin := t.loom.bobbin, fetched := rest
          answeredAt := some s.clocks.lc }, seen := t.seen }))
  ∧ (∀ s f rest, Fronts s f rest → f.ring % 4 = 3 → entOp f.bytes = 2 → (tenantOf s (f.ring / 4)).blocked = false →
      badCkpt s (f.ring / 4) f.bytes { parseCkpt f.bytes with nblk := blockCount s (parseCkpt f.bytes) } = false →
      ckptEntries s (f.ring / 4) (parseCkpt f.bytes).banks ≠ [] → entDeadline f.bytes = none → s.loom.tallySel = [] →
      Answers .restore s (fun t =>
      let n := blockCount s (parseCkpt f.bytes)
      let ms := moveLcs s (f.ring / 4) (parseCkpt f.bytes).banks
        (afterMoves s (f.ring / 4) (s.clocks.lc + 64 + restoreLead s n)) (64 * n)
      (t.loom.jobs.drop s.loom.jobs.length).map (fun j => (j.order, j.tenant, j.kind, j.tag, j.subidx, j.ended, j.ckpt.map (·.moves))) =
        [(f.order, f.ring / 4, .restore, entTag f.bytes, f.index, none, some ms)]
      ∧ t.loom.moveBookings = ms ++ s.loom.moveBookings
      ∧ t = { s with loom := { counting s t with
          jobs := t.loom.jobs, moveBookings := t.loom.moveBookings, reads := t.loom.reads
          nextTag := t.loom.nextTag, fetched := rest, answeredAt := some s.clocks.lc }
                     weft := t.weft, seen := t.seen }))
  ∧ (∀ s f rest, Fronts s f rest → f.ring % 4 = 3 → entOp f.bytes = 0 → ckptRes f.bytes = false →
      (tenantOf s (f.ring / 4)).blocked = false → (ringOf s (4 * (f.ring / 4) + 1)).en = true →
      (ringOf s (4 * (f.ring / 4) + 1)).notify = false → WeftIdle s (f.ring / 4 % 2) → s.loom.tallySel = [] → Answers .bobbinNop s (fun t =>
      let n := 4 * (f.ring / 4) + 1
      let r := ringOf s n
      ringOf t n = { r with tail := r.tail + 1, resv := r.resv - 1 }
      ∧ Sent s t (f.ring / 4 % 2) { kind := .write, addr := entryAddr r r.tail, len := 64, tag := 0, tenant := f.ring / 4
                                    what := .record n r.tail.toNat
                                    data := recordBytes (entRecord f 0 0 0 []) s.loom.now.toNat (ringPhase r r.tail) }
      ∧ t = { s with weft := t.weft, loom := { counting s t with rings := t.loom.rings, fetched := rest, answeredAt := some s.clocks.lc }
                     seen := t.seen }))
  ∧ (∀ s j c tile bank group, Live s → mesochronousRuns s = true → s.loom.jobs = [j] → j.ended = none → j.kind = .save → j.ckpt = some c →
      s.clocks.lc ∈ c.moves → blockAt s c (c.moved / 64) = .bank tile bank group → c.moved % 64 ≠ 63 →
      entryBreach s tile bank j.tenant = none → s.loom.bankUp = [] → s.loom.tallySel = [] → Answers (.bobbinMove []) s (fun t =>
      t.loom.jobs = [{ j with ckpt := some { c with
        moves := c.moves.filter (fun m => m != s.clocks.lc), moved := c.moved + 1
        block := c.block ++ mread s.loom.banks (rowAddr tile bank (64 * group + c.moved % 64)) 64 } }]
      ∧ (bankKey tile bank, s.clocks.lc) ∈ t.loom.bankUse
      ∧ t = { s with loom := { counting s t with
          jobs := t.loom.jobs, bankUse := t.loom.bankUse
          bobbin := { s.loom.bobbin with lastTenant := BitVec.ofNat 8 j.tenant } }, seen := t.seen }))
  ∧ (∀ s j c tile bank group, Live s → mesochronousRuns s = true → s.loom.jobs = [j] → j.ended = none → j.kind = .restore →
      j.ckpt = some c → s.clocks.lc ∈ c.moves → c.checked = true → blockAt s c (c.moved / 64) = .bank tile bank group → c.moved % 64 ≠ 0 →
      entryBreach s tile bank j.tenant = none → Answers (.bobbinMove []) s (fun t =>
      t.loom.banks = mwrite s.loom.banks (rowAddr tile bank (64 * group + c.moved % 64)) (slice c.decoded (64 * (c.moved % 64)) 64)
      ∧ (t.loom.jobs.map (fun k => k.ckpt.map (·.moved))) = [some (c.moved + 1)]
      ∧ t = { s with loom := { counting s t with
          banks := t.loom.banks, bankUp := t.loom.bankUp, bankUse := t.loom.bankUse, jobs := t.loom.jobs, tally := t.loom.tally,
          bobbin := { s.loom.bobbin with lastTenant := BitVec.ofNat 8 j.tenant }, reads := t.loom.reads, nextTag := t.loom.nextTag }
                     weft := t.weft, seen := t.seen }))
  ∧ (∀ s j c tile bank group, Live s → mesochronousRuns s = true → s.loom.jobs = [j] → j.ended = none → j.kind = .restore →
      j.ckpt = some c → s.clocks.lc ∈ c.moves → c.checked = true → blockAt s c (c.moved / 64) = .bank tile bank group → c.moved % 64 = 0 →
      c.nblk = c.moved / 64 + 1 → startBlock c = some none → Answers (.bobbinMove []) s (fun t =>
      (t.loom.jobs.map (fun k => (k.ended, k.ckpt.map (fun x => (x.reason, x.failBlock))))) = [(some 0x21, some (3, some (c.moved / 64)))]
      ∧ (t.loom.jobs.map (·.result)) = [List.replicate 8 0 ++ toLe 4 (c.moved / 64) ++ toLe 4 (c.moved / 64) ++ [3]]
      ∧ t.loom.tenants = s.loom.tenants ∧ t.loom.breach = s.loom.breach
      ∧ t = { s with loom := { s.loom with
          banks := t.loom.banks, bankUp := t.loom.bankUp, jobs := t.loom.jobs, bobbin := t.loom.bobbin, reads := t.loom.reads }
                     free := s.free + 4096, seen := t.seen }))
  ∧ (∀ s j c tile bank group kind, Live s → mesochronousRuns s = true → s.loom.jobs = [j] → j.ended = none → j.kind = .restore →
      j.ckpt = some c → s.clocks.lc ∈ c.moves → c.checked = true → blockAt s c (c.moved / 64) = .bank tile bank group → c.moved % 64 ≠ 0 →
      entryBreach s tile bank j.tenant = some kind → Answers (.bobbinMove []) s (fun t =>
      t.loom.banks = s.loom.banks ∧ (tenantOf t j.tenant).faulted = true ∧ t.loom.breach = breachWord tile kind j.tenant 0 0))
  ∧ (∀ s w j c, Reached s → s.loom.bobbin.out = [w] → s.loom.jobs = [j] → j.order = w.job → j.ended = none → j.ckpt = some c →
      c.zeroed = true → movesDone j = false ∨ writeChunk w < w.data.length → WeftIdle s (w.tenant % 2) → s.loom.tallySel = [] →
      Answers .bobbinWeftWrite s (fun t =>
      Sent s t (w.tenant % 2) { kind := .write, addr := w.addr, data := w.data.take (writeChunk w), len := writeChunk w, tag := 0
                                tenant := w.tenant, what := .checkpoint }
      ∧ t.loom.bobbin.out = (if w.data.drop (writeChunk w) = [] then [] else
          [{ w with addr := w.addr + writeChunk w, data := w.data.drop (writeChunk w) }])
      ∧ t = { s with weft := t.weft, loom := { counting s t with bobbin := { s.loom.bobbin with out := t.loom.bobbin.out } }, seen := t.seen }))
  ∧ (∀ s w j, Reached s → s.loom.bobbin.out = [w] → s.loom.jobs = [j] → j.order = w.job → j.ended = none → movesDone j = true →
      w.data.length ≤ writeChunk w → WeftIdle s (w.tenant % 2) → s.loom.tallySel = [] → Answers .bobbinWeftWrite s (fun t =>
      Sent s t (w.tenant % 2) { kind := .write, addr := w.addr, data := w.data.take (writeChunk w), len := writeChunk w, tag := 0
                                tenant := w.tenant, what := .checkpoint }
      ∧ t.loom.bobbin.out = [] ∧ t.loom.jobs = [{ j with ended := some 0 }]))
  ∧ (∀ s w j, Reached s → s.loom.bobbin.out = [w] → jobOf s w.job = some j → j.ended = none →
      (∀ m < 2, (weftOf s m).trained = false) → Answers .bobbinWeftWrite s (fun t => t = { s with seen := t.seen }))
  ∧ (∀ s j c code reason, Live s → s.loom.jobs = [j] → j.ended = none → j.kind = .restore → j.ckpt = some c → c.checked = false →
      payloadAt c.nblk ≤ c.headIn.length → checkImage s c = some (code, reason) → Answers .restoreCheck s (fun t =>
      (t.loom.jobs.map (fun k => (k.ended, k.ckpt.map (·.reason)))) = [(some code, some reason)]
      ∧ t = { s with loom := { s.loom with jobs := t.loom.jobs, bobbin := t.loom.bobbin, reads := t.loom.reads }, seen := t.seen }))
  ∧ (∀ s j c, Live s → s.loom.jobs = [j] → j.ended = none → j.kind = .restore → j.ckpt = some c → c.checked = false →
      payloadAt c.nblk ≤ c.headIn.length → checkImage s c = none → Answers .restoreCheck s (fun t =>
      (t.loom.jobs.map (fun k => (k.ended, k.ckpt.map (·.checked)))) = [(none, some true)]
      ∧ t = { s with loom := { s.loom with jobs := t.loom.jobs, reads := t.loom.reads, nextTag := t.loom.nextTag }, weft := t.weft
                     seen := t.seen }))
  ∧ (∀ s (d : DWord), HostHeard s → Answers (.bobbinCtrlWrite d) s (fun t => t = { s with
      loom := { s.loom with bobbin := (if s.loom.jobs.any isCkpt then { s.loom.bobbin with reject := true }
        else { s.loom.bobbin with period := BitVec.ofNat 8 d.toNat, reject := s.loom.bobbin.reject && !d.getLsbD 8 }) }, seen := t.seen }))

/-! ## The warp modules -/

/-- L_WARP_CTRL starts and stops training; training goes through its phases or fails with its code and locks at the measured latency; a
failure that retries trains again, and lost contact gives up the lock. -/
def Obligations.WarpTraining : Prop :=
  (∀ s (d : DWord), HostHeard s → Answers (.warpTrain d) s (fun t =>
      (∀ m < 4, warpOf t m = (if isPowered s (2 + m) = false ∨ (warpOf s m).train = d.getLsbD m then warpOf s m else
        { warpOf s m with train := d.getLsbD m
                          phase := if (warpOf s m).locked then (warpOf s m).phase else if d.getLsbD m then 1 else 0 }))
      ∧ t = { s with warp := t.warp, seen := t.seen }))
  ∧ (∀ s (m : BitVec 2) (o : WarpOutcome), Live s → isPowered s (2 + m.toNat) = true → (warpOf s m.toNat).train = true →
      (warpOf s m.toNat).locked = false → (warpOf s m.toNat).phase = 1 → Answers (.warpPhaseEnd m o) s (fun t =>
      warpOf t m.toNat = (if o.completed then { warpOf s m.toNat with phase := 2, rate := o.rate, reversed := o.reversed, credits := 64 }
        else { warpOf s m.toNat with fail := 1, phase := 0, credits := 0 })
      ∧ (∀ k < 4, k ≠ m.toNat → warpOf t k = warpOf s k) ∧ t = { s with warp := t.warp, seen := t.seen }))
  ∧ (∀ s (m : BitVec 2) (o : WarpOutcome), Live s → isPowered s (2 + m.toNat) = true → (warpOf s m.toNat).train = true →
      (warpOf s m.toNat).locked = false → (warpOf s m.toNat).phase = 2 → o.completed = true → Answers (.warpPhaseEnd m o) s (fun t =>
      warpOf t m.toNat = (
        if o.partnerPoint ≠ s.loom.clock.current then { warpOf s m.toNat with fail := 2, phase := 0, credits := 0 }
        else if goodPartner s m.toNat o.partnerPos = false then { warpOf s m.toNat with fail := 3, phase := 0, credits := 0 }
        else if o.ident ≠ 0x5A3256B0 then { warpOf s m.toNat with fail := 4, phase := 0, credits := 0 }
        else { warpOf s m.toNat with phase := 3 })
      ∧ (∀ k < 4, k ≠ m.toNat → warpOf t k = warpOf s k) ∧ t = { s with warp := t.warp, seen := t.seen }))
  ∧ (∀ s (m : BitVec 2) (o : WarpOutcome), Live s → isPowered s (2 + m.toNat) = true → (warpOf s m.toNat).train = true →
      (warpOf s m.toNat).locked = false → (warpOf s m.toNat).phase = 3 → o.completed = true → mesochronousRuns s = true →
      Answers (.warpPhaseEnd m o) s (fun t =>
      warpOf t m.toNat = (
        if (o.rtMax + 1) / 2 + 3 < 8 then warpOf s m.toNat
        else if 512 < (o.rtMax + 1) / 2 + 3 then { warpOf s m.toNat with fail := 5, phase := 0, credits := 0 }
        else if o.rtMin + 4 < o.rtMax then { warpOf s m.toNat with fail := 6, phase := 0, credits := 0 }
        else { warpOf s m.toNat with phase := 4, lat := BitVec.ofNat 16 ((o.rtMax + 1) / 2 + 3) })
      ∧ (∀ k < 4, k ≠ m.toNat → warpOf t k = warpOf s k) ∧ t = { s with warp := t.warp, seen := t.seen }))
  ∧ (∀ s (m : BitVec 2) (o : WarpOutcome), Live s → isPowered s (2 + m.toNat) = true → (warpOf s m.toNat).train = true →
      (warpOf s m.toNat).locked = false → (warpOf s m.toNat).phase = 4 → s.loom.drafts = [] → s.loom.tallySel = [] →
      Answers (.warpPhaseEnd m o) s (fun t =>
      warpOf t m.toNat = { warpOf s m.toNat with
        phase := 4, locked := true, point := s.loom.clock.current, credits := 0, crcRun := 0, heard := s.clocks.lc, syncOwed := 0
        partnerLocked := false, remembered := none }
      ∧ (∀ k < 4, k ≠ m.toNat → warpOf t k = warpOf s k) ∧ t = { s with warp := t.warp, loom := counting s t, seen := t.seen }))
  ∧ (∀ s (m : BitVec 2), Live s → isPowered s (2 + m.toNat) = true → (warpOf s m.toNat).train = true → (warpOf s m.toNat).locked = false →
      (warpOf s m.toNat).phase = 0 → (warpOf s m.toNat).fail ∈ [1, 5, 6] → Answers (.warpTrainRetry m) s (fun t =>
      warpOf t m.toNat = { warpOf s m.toNat with phase := 1 } ∧ (∀ k < 4, k ≠ m.toNat → warpOf t k = warpOf s k)
      ∧ t = { s with warp := t.warp, seen := t.seen }))
  ∧ (∀ s (m : BitVec 2) c, Live s → isPowered s (2 + m.toNat) = true → (warpOf s m.toNat).locked = true →
      (c = .crcRun ∧ 16 ≤ (warpOf s m.toNat).crcRun) ∨ c = .linkLoss ∨ (c = .emptySlots ∧
        (warpOf s m.toNat).heard + 64 * issueInterval s m.toNat + (warpOf s m.toNat).lat.toNat ≤ s.clocks.lc) → s.loom.weave.slots = [] → s.loom.drafts = [] → Answers (.warpRetrain m c) s (fun t =>
      warpOf t m.toNat = { WarpModule.init with
        train := (warpOf s m.toNat).train, rx := (warpOf s m.toNat).rx
        phase := if (warpOf s m.toNat).train then 1 else 0, remembered := some (warpOf s m.toNat).lat }
      ∧ (∀ k < 4, k ≠ m.toNat → warpOf t k = warpOf s k) ∧ t.alert = putBit s.alert 11 true
      ∧ t = { s with warp := t.warp, alert := t.alert, seen := t.seen }))
  ∧ (∀ s (m : BitVec 2) c, Live s → (c = .crcRun ∧ (warpOf s m.toNat).crcRun < 16) ∨ (c = .emptySlots ∧
        s.clocks.lc < (warpOf s m.toNat).heard + 64 * issueInterval s m.toNat + (warpOf s m.toNat).lat.toNat) →
      Answers (.warpRetrain m c) s (fun t => t = { s with seen := t.seen }))

/-- A frame slot sends one frame of 80 bytes whose CRC matches. A frame that is not due yet is held; of those that are, a damaged one is
counted, an intact one delivers its flit to the tile of its module's owner, and a SYNC from below sets the chain's count to its own plus the
latency and locks. With the lock lost, a flit that may be missing is delivered as a poisoned payload of zeros. -/
def Obligations.WarpFrames : Prop :=
  (∀ s (m : BitVec 2), Live s → (warpOf s m.toNat).locked = true → isFrameSlot s m.toNat = true →
      s.loom.linkUse.contains (warpKey m.toNat, s.clocks.lc) = false → Answers (.warpFrameSend m) s (fun t =>
      frameIntact (warpOf t m.toNat).sent = true ∧ (warpOf t m.toNat).sent = frameBytes s (frameOf s m.toNat)
      ∧ t.loom.linkUse.contains (warpKey m.toNat, s.clocks.lc) = true
      ∧ (∀ k < 4, k ≠ m.toNat → warpOf t k = warpOf s k)
      ∧ t = { s with warp := t.warp, loom := { s.loom with flits := t.loom.flits, linkUse := t.loom.linkUse }, seen := t.seen }))
  ∧ (∀ s (m : BitVec 2) f, Live s → (warpOf s m.toNat).locked = true → orderingRuns s.pwr = true → s.loom.clock.relocking = false →
      deliveryLc (warpOf s m.toNat) (min f.slot s.clocks.lc) ≤ s.clocks.lc → frameIntact f.bytes = false → warpOwner s m.toNat s.clocks.lc = none → s.loom.tallySel = [] →
      Answers (.warpFrameDelivery m f) s (fun t =>
      warpOf t m.toNat = { warpOf s m.toNat with
        crc := satAdd (warpOf s m.toNat).crc 1, crcRun := (warpOf s m.toNat).crcRun + 1, heard := min f.slot s.clocks.lc }
      ∧ (∀ k < 4, k ≠ m.toNat → warpOf t k = warpOf s k) ∧ t = { s with warp := t.warp, loom := counting s t, seen := t.seen }))
  ∧ (∀ s (m : BitVec 2) f d, Live s → (warpOf s m.toNat).locked = true → orderingRuns s.pwr = true → s.loom.clock.relocking = false →
      deliveryLc (warpOf s m.toNat) (min f.slot s.clocks.lc) ≤ s.clocks.lc → frameIntact f.bytes = true → leAt f.bytes 0 1 % 32 = 1 → bitOf (leAt f.bytes 0 1) 5 = s.loom.chain.locked →
      warpOwner s m.toNat s.clocks.lc = some d →
      takesPart s (warpTile m.toNat) = true → (tileOf s (warpTile m.toNat)).recv = [] → Answers (.warpFrameDelivery m f) s (fun t =>
      (tileOf t (warpTile m.toNat)).recv = [{ lc := s.clocks.lc, key := dirCode (warpDir m.toNat), unit := unitMesh, data := slice f.bytes 12 64
                                              poisoned := false }]
      ∧ (∀ j < 256, j ≠ warpTile m.toNat → tileOf t j = tileOf s j)
      ∧ warpOf t m.toNat = { warpOf s m.toNat with
        crcRun := 0, partnerLocked := s.loom.chain.locked, heard := min f.slot s.clocks.lc }
      ∧ t = { s with warp := t.warp, loom := { s.loom with tiles := t.loom.tiles }, seen := t.seen }))
  ∧ (∀ s (m : BitVec 2) f, Live s → (warpOf s m.toNat).locked = true → orderingRuns s.pwr = true → s.loom.clock.relocking = false →
      deliveryLc (warpOf s m.toNat) (min f.slot s.clocks.lc) ≤ s.clocks.lc → frameIntact f.bytes = true → leAt f.bytes 0 1 = 0x30 → m.toNat < 2 →
      goodPartner s m.toNat (BitVec.ofNat 3 (leAt f.bytes 1 1)) = true →
      s.loom.chain.sdelay ≠ 0 → mesochronousRuns s = true → s.loom.weave.slots = [] → Answers (.warpFrameDelivery m f) s (fun t =>
      t.loom.chain = { s.loom.chain with
        locked := true, now := BitVec.ofNat 64 (leAt f.bytes 4 4 + 2 ^ 32 * leAt f.bytes 8 4) + BitVec.ofNat 64 (warpOf s m.toNat).lat.toNat }
      ∧ t = { s with warp := t.warp, loom := { s.loom with chain := t.loom.chain }, seen := t.seen }))
  ∧ (∀ s (m : BitVec 2) f, Live s → orderingRuns s.pwr = true → s.loom.clock.relocking = false →
      s.clocks.lc < deliveryLc (warpOf s m.toNat) (min f.slot s.clocks.lc) → Answers (.warpFrameDelivery m f) s (fun t =>
      warpOf t m.toNat = { warpOf s m.toNat with
        heard := min f.slot s.clocks.lc
        rx := (if 80 * ((warpOf s m.toNat).rx.length + 1) ≤ 16384 then
            (warpOf s m.toNat).rx ++ [(min f.slot s.clocks.lc + (warpOf s m.toNat).lat.toNat, f.bytes)]
          else (warpOf s m.toNat).rx) }
      ∧ (∀ k < 4, k ≠ m.toNat → warpOf t k = warpOf s k) ∧ t = { s with warp := t.warp, seen := t.seen }))
  ∧ (∀ s (m : BitVec 2) f d, Live s → (warpOf s m.toNat).locked = false → orderingRuns s.pwr = true → s.loom.clock.relocking = false →
      frameIntact f.bytes = false → warpOwner s m.toNat s.clocks.lc = some d → s.loom.tallySel = [] → takesPart s (warpTile m.toNat) = true →
      (tileOf s (warpTile m.toNat)).recv = [] → Answers (.warpFrameDelivery m f) s (fun t =>
      (tileOf t (warpTile m.toNat)).recv = [{ lc := s.clocks.lc, key := dirCode (warpDir m.toNat), unit := unitMesh
                                              data := List.replicate 64 0, poisoned := true }]
      ∧ (warpOf t m.toNat).poison = satAdd (warpOf s m.toNat).poison 1))
end

