-- ==== Sys2Proof/Laws/Store.lean ====
section
/-!
SUPPORT. The sparse stores: a read after a write, and the canonical form that every operation keeps.
-/

namespace Sys2Proof.Machine

variable {α : Type} (d : α)

/-! ## Keys -/

/-- Keys rising, as a list of pairs is walked. -/
def Rises (m : Sparse α) : Prop := List.Pairwise (fun a b => a.1 < b.1) m

theorem rising_iff (ks : List Nat) : rising ks = true ↔ List.Pairwise (· < ·) ks := by
  induction ks with
  | nil => simp [rising]
  | cons a t ih =>
    cases t with
    | nil => simp [rising]
    | cons b u =>
      rw [rising, Bool.and_eq_true, decide_eq_true_eq, ih, List.pairwise_cons (a := a)]
      constructor
      · rintro ⟨hab, hp⟩
        refine ⟨fun x hx => ?_, hp⟩
        rcases List.mem_cons.1 hx with rfl | hx
        · exact hab
        · exact lt_trans hab ((List.pairwise_cons.1 hp).1 x hx)
      · rintro ⟨h, hp⟩
        exact ⟨h b (by simp), hp⟩

theorem swf_iff [DecidableEq α] (m : Sparse α) : swf d m = true ↔ Rises m ∧ ∀ e ∈ m, e.2 ≠ d := by
  simp [swf, rising_iff, Rises, List.pairwise_map]

theorem swf_nil [DecidableEq α] : swf d ([] : Sparse α) = true := by simp [swf, rising]

/-! ## Reads after writes -/

theorem sget_sdel (m : Sparse α) (i j : Nat) : sget d (sdel m i) j = if i = j then d else sget d m j := by
  induction m with
  | nil => simp [sdel, sget]
  | cons e m ih =>
    obtain ⟨k, v⟩ := e
    by_cases hk : k = i
    · subst hk
      simp only [sdel, if_true, ih, sget]
      by_cases hj : k = j <;> simp [hj]
    · simp only [sdel, hk, if_false, sget, ih]
      by_cases hj : k = j
      · subst hj; simp [Ne.symm hk]
      · simp [hj]

theorem sget_sins (m : Sparse α) (i j : Nat) (v : α) : sget d (sins m i v) j = if i = j then v else sget d m j := by
  induction m with
  | nil => simp [sins, sget]
  | cons e m ih =>
    obtain ⟨k, w⟩ := e
    simp only [sins]
    by_cases h1 : i < k
    · simp [h1, sget]
    · by_cases h2 : i = k
      · subst h2; by_cases hj : i = j <;> simp [sget, hj]
      · simp only [h1, h2, if_false, sget, ih]
        by_cases hj : k = j
        · subst hj; simp [h2]
        · simp [hj]

/-- A read returns what was last put at its key, and the old value elsewhere. -/
theorem sget_sput [DecidableEq α] (m : Sparse α) (i j : Nat) (v : α) : sget d (sput d m i v) j = if i = j then v else sget d m j := by
  unfold sput
  by_cases h : v = d
  · rw [if_pos h, sget_sdel, h]
  · rw [if_neg h, sget_sins]

@[simp] theorem sget_sput_same [DecidableEq α] (m : Sparse α) (i : Nat) (v : α) : sget d (sput d m i v) i = v := by
  simp [sget_sput]

theorem sget_sput_other [DecidableEq α] (m : Sparse α) {i j : Nat} (v : α) (h : i ≠ j) : sget d (sput d m i v) j = sget d m j := by
  simp [sget_sput, h]

@[simp] theorem sget_nil (i : Nat) : sget d ([] : Sparse α) i = d := rfl

theorem sget_smod [DecidableEq α] (m : Sparse α) (i j : Nat) (f : α → α) :
    sget d (smod d m i f) j = if i = j then f (sget d m i) else sget d m j := sget_sput d m i j _

/-! ## The canonical form is kept -/

theorem mem_sdel (m : Sparse α) (i : Nat) {e : Nat × α} (h : e ∈ sdel m i) : e ∈ m := by
  induction m with
  | nil => simp [sdel] at h
  | cons x m ih =>
    obtain ⟨k, v⟩ := x
    simp only [sdel] at h
    split at h
    · exact List.mem_cons_of_mem _ (ih h)
    · rcases List.mem_cons.1 h with h | h
      · exact h ▸ List.mem_cons_self
      · exact List.mem_cons_of_mem _ (ih h)

theorem mem_sins (m : Sparse α) (i : Nat) (v : α) {e : Nat × α} (h : e ∈ sins m i v) : e = (i, v) ∨ e ∈ m := by
  induction m with
  | nil => simpa [sins] using h
  | cons x m ih =>
    obtain ⟨k, w⟩ := x
    simp only [sins] at h
    split at h
    · simpa using h
    · split at h
      · rcases List.mem_cons.1 h with h | h
        · exact Or.inl h
        · exact Or.inr (List.mem_cons_of_mem _ h)
      · rcases List.mem_cons.1 h with h | h
        · exact Or.inr (h ▸ List.mem_cons_self)
        · rcases ih h with h | h
          · exact Or.inl h
          · exact Or.inr (List.mem_cons_of_mem _ h)

theorem rises_sdel (m : Sparse α) (i : Nat) (h : Rises m) : Rises (sdel m i) := by
  induction m with
  | nil => simpa [sdel] using h
  | cons x m ih =>
    obtain ⟨k, v⟩ := x
    obtain ⟨h1, h2⟩ := List.pairwise_cons.1 h
    simp only [sdel]
    split
    · exact ih h2
    · exact List.pairwise_cons.2 ⟨fun e he => h1 e (mem_sdel m i he), ih h2⟩

theorem rises_sins (m : Sparse α) (i : Nat) (v : α) (h : Rises m) : Rises (sins m i v) := by
  induction m with
  | nil => simp [sins, Rises]
  | cons x m ih =>
    obtain ⟨k, w⟩ := x
    obtain ⟨h1, h2⟩ := List.pairwise_cons.1 h
    simp only [sins]
    by_cases hlt : i < k
    · rw [if_pos hlt]
      refine List.pairwise_cons.2 ⟨fun e he => ?_, h⟩
      rcases List.mem_cons.1 he with rfl | he
      · exact hlt
      · exact lt_trans hlt (h1 e he)
    · rw [if_neg hlt]
      by_cases heq : i = k
      · rw [if_pos heq]; subst heq
        exact List.pairwise_cons.2 ⟨h1, h2⟩
      · rw [if_neg heq]
        refine List.pairwise_cons.2 ⟨fun e he => ?_, ih h2⟩
        rcases mem_sins m i v he with rfl | he
        · exact lt_of_le_of_ne (not_lt.1 hlt) (Ne.symm heq)
        · exact h1 e he

/-- A write keeps the canonical form. -/
theorem swf_sput [DecidableEq α] (m : Sparse α) (i : Nat) (v : α) (h : swf d m = true) : swf d (sput d m i v) = true := by
  rw [swf_iff] at h ⊢
  unfold sput
  by_cases hv : v = d
  · rw [if_pos hv]
    exact ⟨rises_sdel m i h.1, fun e he => h.2 e (mem_sdel m i he)⟩
  · rw [if_neg hv]
    refine ⟨rises_sins m i v h.1, fun e he => ?_⟩
    rcases mem_sins m i v he with rfl | he
    · exact hv
    · exact h.2 e he

theorem swf_smod [DecidableEq α] (m : Sparse α) (i : Nat) (f : α → α) (h : swf d m = true) : swf d (smod d m i f) = true :=
  swf_sput d m i _ h

/-- Leaving entries out keeps the canonical form. -/
theorem swf_filter [DecidableEq α] (m : Sparse α) (p : Nat × α → Bool) (h : swf d m = true) : swf d (m.filter p) = true := by
  rw [swf_iff] at h ⊢
  exact ⟨List.Pairwise.filter p h.1, fun e he => h.2 e (List.mem_of_mem_filter he)⟩

/-- Two canonical stores that read alike are one store. -/
theorem swf_ext [DecidableEq α] (m n : Sparse α) (hm : swf d m = true) (hn : swf d n = true)
    (h : ∀ i, sget d m i = sget d n i) : m = n := by
  have low : ∀ (x : Sparse α) (k : Nat), (∀ e ∈ x, k < e.1) → sget d x k = d := by
    intro x k hx
    induction x with
    | nil => rfl
    | cons e x ih =>
      have h1 : k < e.1 := hx e List.mem_cons_self
      obtain ⟨j, v⟩ := e
      rw [sget, if_neg (Nat.ne_of_gt h1)]
      exact ih (fun e he => hx e (List.mem_cons_of_mem _ he))
  induction m generalizing n with
  | nil =>
    cases n with
    | nil => rfl
    | cons e n =>
      have := h e.1
      obtain ⟨k, v⟩ := e
      rw [swf_iff] at hn
      simp only [sget, if_true] at this
      exact absurd this.symm (hn.2 _ List.mem_cons_self)
  | cons a m ih =>
    obtain ⟨k, v⟩ := a
    cases n with
    | nil =>
      have := h k
      rw [swf_iff] at hm
      simp only [sget, if_true] at this
      exact absurd this (hm.2 _ List.mem_cons_self)
    | cons b n =>
      obtain ⟨j, w⟩ := b
      rw [swf_iff] at hm hn
      obtain ⟨hm1, hm2⟩ := List.pairwise_cons.1 hm.1
      obtain ⟨hn1, hn2⟩ := List.pairwise_cons.1 hn.1
      have hk := h k
      have hj := h j
      simp only [sget, if_true] at hk hj
      have key : k = j := by
        rcases lt_trichotomy k j with hl | he | hl
        · rw [if_neg (Nat.ne_of_gt hl), low n k (fun e he => lt_trans hl (hn1 e he))] at hk
          exact absurd hk (hm.2 _ List.mem_cons_self)
        · exact he
        · rw [if_neg (Nat.ne_of_gt hl), low m j (fun e he => lt_trans hl (hm1 e he))] at hj
          exact absurd hj.symm (hn.2 _ List.mem_cons_self)
      subst key
      rw [if_pos rfl] at hk
      subst hk
      have rest : ∀ i, sget d m i = sget d n i := by
        intro i
        have := h i
        simp only [sget] at this
        by_cases hi : k = i
        · subst hi
          rw [low m k hm1, low n k hn1]
        · simpa [hi] using this
      rw [ih n ((swf_iff d m).2 ⟨hm2, fun e he => hm.2 e (List.mem_cons_of_mem _ he)⟩)
        ((swf_iff d n).2 ⟨hn2, fun e he => hn.2 e (List.mem_cons_of_mem _ he)⟩) rest]

/-! ## Byte memories -/

theorem mget_mput (m : Memory) (a b : Nat) (v : Byte) : mget (mput m a v) b = if a = b then v else mget m b :=
  sget_sput 0 m a b v

theorem Memory.wf_mput (m : Memory) (a : Nat) (v : Byte) (h : m.wf = true) : (mput m a v).wf = true := swf_sput 0 m a v h

/-- A write of bytes keeps the canonical form. -/
theorem Memory.wf_mwrite (bs : List Byte) : ∀ (m : Memory) (a : Nat), m.wf = true → (mwrite m a bs).wf = true := by
  induction bs with
  | nil => intro m a h; exact h
  | cons b bs ih => intro m a h; exact ih _ _ (Memory.wf_mput m a b h)

theorem Memory.wf_mzero (m : Memory) (a n : Nat) (h : m.wf = true) : (mzero m a n).wf = true := swf_filter 0 m _ h

/-- A byte outside the written range reads as before. -/
theorem mget_mwrite_outside (bs : List Byte) : ∀ (m : Memory) (a b : Nat), b < a ∨ a + bs.length ≤ b →
    mget (mwrite m a bs) b = mget m b := by
  induction bs with
  | nil => intro m a b _; rfl
  | cons x bs ih =>
    intro m a b h
    simp only [List.length_cons] at h
    rw [mwrite, ih _ _ _ (by omega), mget_mput, if_neg (by omega)]

/-- A byte inside the written range reads what was written. -/
theorem mget_mwrite_inside (bs : List Byte) : ∀ (m : Memory) (a i : Nat) (h : i < bs.length),
    mget (mwrite m a bs) (a + i) = bs[i] := by
  induction bs with
  | nil => intro m a i h; exact absurd h (by simp)
  | cons x bs ih =>
    intro m a i h
    rw [mwrite]
    cases i with
    | zero => rw [mget_mwrite_outside _ _ _ _ (by omega), mget_mput]; simp
    | succ i =>
      have := ih (mput m a x) (a + 1) i (by simpa using h)
      rw [show a + (i + 1) = a + 1 + i by omega, this]
      simp

end Sys2Proof.Machine
end

