-- ==== Sys2Proof/Laws/State.lean ====
section
/-!
SUPPORT. What each update of the state leaves alone, field by field, and what a read of a table returns after a write of it.
-/

namespace Sys2Proof.Machine

variable (s s' : State)

/-! ## onLoom -/

@[simp] theorem onLoom_pending (f : Loom → Loom) : (onLoom f s).pending = s.pending := rfl
@[simp] theorem onLoom_free (f : Loom → Loom) : (onLoom f s).free = s.free := rfl
@[simp] theorem onLoom_clocks (f : Loom → Loom) : (onLoom f s).clocks = s.clocks := rfl
@[simp] theorem onLoom_alert (f : Loom → Loom) : (onLoom f s).alert = s.alert := rfl
@[simp] theorem onLoom_seen (f : Loom → Loom) : (onLoom f s).seen = s.seen := rfl
@[simp] theorem onLoom_port (f : Loom → Loom) : (onLoom f s).port = s.port := rfl
@[simp] theorem onLoom_keys (f : Loom → Loom) : (onLoom f s).keys = s.keys := rfl
@[simp] theorem onLoom_gran (f : Loom → Loom) : (onLoom f s).gran = s.gran := rfl
@[simp] theorem onLoom_mon (f : Loom → Loom) : (onLoom f s).mon = s.mon := rfl
@[simp] theorem onLoom_pwr (f : Loom → Loom) : (onLoom f s).pwr = s.pwr := rfl
@[simp] theorem onLoom_weft (f : Loom → Loom) : (onLoom f s).weft = s.weft := rfl
@[simp] theorem onLoom_warp (f : Loom → Loom) : (onLoom f s).warp = s.warp := rfl
@[simp] theorem onLoom_jtag (f : Loom → Loom) : (onLoom f s).jtag = s.jtag := rfl
@[simp] theorem onLoom_wflight (f : Loom → Loom) : (onLoom f s).wflight = s.wflight := rfl
@[simp] theorem onLoom_fe (f : Loom → Loom) : (onLoom f s).fe = s.fe := rfl
@[simp] theorem onLoom_wc (f : Loom → Loom) : (onLoom f s).wc = s.wc := rfl
@[simp] theorem onLoom_bell (f : Loom → Loom) : (onLoom f s).bell = s.bell := rfl
@[simp] theorem onLoom_loft (f : Loom → Loom) : (onLoom f s).loft = s.loft := rfl
@[simp] theorem onLoom_esc (f : Loom → Loom) : (onLoom f s).esc = s.esc := rfl
@[simp] theorem onLoom_wtally (f : Loom → Loom) : (onLoom f s).wtally = s.wtally := rfl
@[simp] theorem onLoom_at (f : Loom → Loom) : (onLoom f s).loom = f s.loom := rfl

/-! ## onPwr -/

@[simp] theorem onPwr_pending (f : Power → Power) : (onPwr f s).pending = s.pending := rfl
@[simp] theorem onPwr_free (f : Power → Power) : (onPwr f s).free = s.free := rfl
@[simp] theorem onPwr_clocks (f : Power → Power) : (onPwr f s).clocks = s.clocks := rfl
@[simp] theorem onPwr_alert (f : Power → Power) : (onPwr f s).alert = s.alert := rfl
@[simp] theorem onPwr_seen (f : Power → Power) : (onPwr f s).seen = s.seen := rfl
@[simp] theorem onPwr_port (f : Power → Power) : (onPwr f s).port = s.port := rfl
@[simp] theorem onPwr_keys (f : Power → Power) : (onPwr f s).keys = s.keys := rfl
@[simp] theorem onPwr_gran (f : Power → Power) : (onPwr f s).gran = s.gran := rfl
@[simp] theorem onPwr_mon (f : Power → Power) : (onPwr f s).mon = s.mon := rfl
@[simp] theorem onPwr_weft (f : Power → Power) : (onPwr f s).weft = s.weft := rfl
@[simp] theorem onPwr_warp (f : Power → Power) : (onPwr f s).warp = s.warp := rfl
@[simp] theorem onPwr_jtag (f : Power → Power) : (onPwr f s).jtag = s.jtag := rfl
@[simp] theorem onPwr_wflight (f : Power → Power) : (onPwr f s).wflight = s.wflight := rfl
@[simp] theorem onPwr_fe (f : Power → Power) : (onPwr f s).fe = s.fe := rfl
@[simp] theorem onPwr_wc (f : Power → Power) : (onPwr f s).wc = s.wc := rfl
@[simp] theorem onPwr_bell (f : Power → Power) : (onPwr f s).bell = s.bell := rfl
@[simp] theorem onPwr_loft (f : Power → Power) : (onPwr f s).loft = s.loft := rfl
@[simp] theorem onPwr_esc (f : Power → Power) : (onPwr f s).esc = s.esc := rfl
@[simp] theorem onPwr_wtally (f : Power → Power) : (onPwr f s).wtally = s.wtally := rfl
@[simp] theorem onPwr_loom (f : Power → Power) : (onPwr f s).loom = s.loom := rfl
@[simp] theorem onPwr_at (f : Power → Power) : (onPwr f s).pwr = f s.pwr := rfl

/-! ## putWeft -/

@[simp] theorem putWeft_pending (m : Nat) (v : WeftModule) : (putWeft m v s).pending = s.pending := rfl
@[simp] theorem putWeft_free (m : Nat) (v : WeftModule) : (putWeft m v s).free = s.free := rfl
@[simp] theorem putWeft_clocks (m : Nat) (v : WeftModule) : (putWeft m v s).clocks = s.clocks := rfl
@[simp] theorem putWeft_alert (m : Nat) (v : WeftModule) : (putWeft m v s).alert = s.alert := rfl
@[simp] theorem putWeft_seen (m : Nat) (v : WeftModule) : (putWeft m v s).seen = s.seen := rfl
@[simp] theorem putWeft_port (m : Nat) (v : WeftModule) : (putWeft m v s).port = s.port := rfl
@[simp] theorem putWeft_keys (m : Nat) (v : WeftModule) : (putWeft m v s).keys = s.keys := rfl
@[simp] theorem putWeft_gran (m : Nat) (v : WeftModule) : (putWeft m v s).gran = s.gran := rfl
@[simp] theorem putWeft_mon (m : Nat) (v : WeftModule) : (putWeft m v s).mon = s.mon := rfl
@[simp] theorem putWeft_pwr (m : Nat) (v : WeftModule) : (putWeft m v s).pwr = s.pwr := rfl
@[simp] theorem putWeft_warp (m : Nat) (v : WeftModule) : (putWeft m v s).warp = s.warp := rfl
@[simp] theorem putWeft_jtag (m : Nat) (v : WeftModule) : (putWeft m v s).jtag = s.jtag := rfl
@[simp] theorem putWeft_wflight (m : Nat) (v : WeftModule) : (putWeft m v s).wflight = s.wflight := rfl
@[simp] theorem putWeft_fe (m : Nat) (v : WeftModule) : (putWeft m v s).fe = s.fe := rfl
@[simp] theorem putWeft_wc (m : Nat) (v : WeftModule) : (putWeft m v s).wc = s.wc := rfl
@[simp] theorem putWeft_bell (m : Nat) (v : WeftModule) : (putWeft m v s).bell = s.bell := rfl
@[simp] theorem putWeft_loft (m : Nat) (v : WeftModule) : (putWeft m v s).loft = s.loft := rfl
@[simp] theorem putWeft_esc (m : Nat) (v : WeftModule) : (putWeft m v s).esc = s.esc := rfl
@[simp] theorem putWeft_wtally (m : Nat) (v : WeftModule) : (putWeft m v s).wtally = s.wtally := rfl
@[simp] theorem putWeft_loom (m : Nat) (v : WeftModule) : (putWeft m v s).loom = s.loom := rfl

/-! ## putWarp -/

@[simp] theorem putWarp_pending (m : Nat) (v : WarpModule) : (putWarp m v s).pending = s.pending := rfl
@[simp] theorem putWarp_free (m : Nat) (v : WarpModule) : (putWarp m v s).free = s.free := rfl
@[simp] theorem putWarp_clocks (m : Nat) (v : WarpModule) : (putWarp m v s).clocks = s.clocks := rfl
@[simp] theorem putWarp_alert (m : Nat) (v : WarpModule) : (putWarp m v s).alert = s.alert := rfl
@[simp] theorem putWarp_seen (m : Nat) (v : WarpModule) : (putWarp m v s).seen = s.seen := rfl
@[simp] theorem putWarp_port (m : Nat) (v : WarpModule) : (putWarp m v s).port = s.port := rfl
@[simp] theorem putWarp_keys (m : Nat) (v : WarpModule) : (putWarp m v s).keys = s.keys := rfl
@[simp] theorem putWarp_gran (m : Nat) (v : WarpModule) : (putWarp m v s).gran = s.gran := rfl
@[simp] theorem putWarp_mon (m : Nat) (v : WarpModule) : (putWarp m v s).mon = s.mon := rfl
@[simp] theorem putWarp_pwr (m : Nat) (v : WarpModule) : (putWarp m v s).pwr = s.pwr := rfl
@[simp] theorem putWarp_weft (m : Nat) (v : WarpModule) : (putWarp m v s).weft = s.weft := rfl
@[simp] theorem putWarp_jtag (m : Nat) (v : WarpModule) : (putWarp m v s).jtag = s.jtag := rfl
@[simp] theorem putWarp_wflight (m : Nat) (v : WarpModule) : (putWarp m v s).wflight = s.wflight := rfl
@[simp] theorem putWarp_fe (m : Nat) (v : WarpModule) : (putWarp m v s).fe = s.fe := rfl
@[simp] theorem putWarp_wc (m : Nat) (v : WarpModule) : (putWarp m v s).wc = s.wc := rfl
@[simp] theorem putWarp_bell (m : Nat) (v : WarpModule) : (putWarp m v s).bell = s.bell := rfl
@[simp] theorem putWarp_loft (m : Nat) (v : WarpModule) : (putWarp m v s).loft = s.loft := rfl
@[simp] theorem putWarp_esc (m : Nat) (v : WarpModule) : (putWarp m v s).esc = s.esc := rfl
@[simp] theorem putWarp_wtally (m : Nat) (v : WarpModule) : (putWarp m v s).wtally = s.wtally := rfl
@[simp] theorem putWarp_loom (m : Nat) (v : WarpModule) : (putWarp m v s).loom = s.loom := rfl

/-! ## raise -/

@[simp] theorem raise_pending (i : Nat) : (raise i s).pending = s.pending := rfl
@[simp] theorem raise_free (i : Nat) : (raise i s).free = s.free := rfl
@[simp] theorem raise_clocks (i : Nat) : (raise i s).clocks = s.clocks := rfl
@[simp] theorem raise_seen (i : Nat) : (raise i s).seen = s.seen := rfl
@[simp] theorem raise_port (i : Nat) : (raise i s).port = s.port := rfl
@[simp] theorem raise_keys (i : Nat) : (raise i s).keys = s.keys := rfl
@[simp] theorem raise_gran (i : Nat) : (raise i s).gran = s.gran := rfl
@[simp] theorem raise_mon (i : Nat) : (raise i s).mon = s.mon := rfl
@[simp] theorem raise_pwr (i : Nat) : (raise i s).pwr = s.pwr := rfl
@[simp] theorem raise_weft (i : Nat) : (raise i s).weft = s.weft := rfl
@[simp] theorem raise_warp (i : Nat) : (raise i s).warp = s.warp := rfl
@[simp] theorem raise_jtag (i : Nat) : (raise i s).jtag = s.jtag := rfl
@[simp] theorem raise_wflight (i : Nat) : (raise i s).wflight = s.wflight := rfl
@[simp] theorem raise_fe (i : Nat) : (raise i s).fe = s.fe := rfl
@[simp] theorem raise_wc (i : Nat) : (raise i s).wc = s.wc := rfl
@[simp] theorem raise_bell (i : Nat) : (raise i s).bell = s.bell := rfl
@[simp] theorem raise_loft (i : Nat) : (raise i s).loft = s.loft := rfl
@[simp] theorem raise_esc (i : Nat) : (raise i s).esc = s.esc := rfl
@[simp] theorem raise_wtally (i : Nat) : (raise i s).wtally = s.wtally := rfl
@[simp] theorem raise_loom (i : Nat) : (raise i s).loom = s.loom := rfl

/-! ## onFe -/

@[simp] theorem onFe_pending (f : FrontEnd → FrontEnd) : (onFe f s).pending = s.pending := rfl
@[simp] theorem onFe_free (f : FrontEnd → FrontEnd) : (onFe f s).free = s.free := rfl
@[simp] theorem onFe_clocks (f : FrontEnd → FrontEnd) : (onFe f s).clocks = s.clocks := rfl
@[simp] theorem onFe_alert (f : FrontEnd → FrontEnd) : (onFe f s).alert = s.alert := rfl
@[simp] theorem onFe_seen (f : FrontEnd → FrontEnd) : (onFe f s).seen = s.seen := rfl
@[simp] theorem onFe_port (f : FrontEnd → FrontEnd) : (onFe f s).port = s.port := rfl
@[simp] theorem onFe_keys (f : FrontEnd → FrontEnd) : (onFe f s).keys = s.keys := rfl
@[simp] theorem onFe_gran (f : FrontEnd → FrontEnd) : (onFe f s).gran = s.gran := rfl
@[simp] theorem onFe_mon (f : FrontEnd → FrontEnd) : (onFe f s).mon = s.mon := rfl
@[simp] theorem onFe_pwr (f : FrontEnd → FrontEnd) : (onFe f s).pwr = s.pwr := rfl
@[simp] theorem onFe_weft (f : FrontEnd → FrontEnd) : (onFe f s).weft = s.weft := rfl
@[simp] theorem onFe_warp (f : FrontEnd → FrontEnd) : (onFe f s).warp = s.warp := rfl
@[simp] theorem onFe_jtag (f : FrontEnd → FrontEnd) : (onFe f s).jtag = s.jtag := rfl
@[simp] theorem onFe_wflight (f : FrontEnd → FrontEnd) : (onFe f s).wflight = s.wflight := rfl
@[simp] theorem onFe_wc (f : FrontEnd → FrontEnd) : (onFe f s).wc = s.wc := rfl
@[simp] theorem onFe_bell (f : FrontEnd → FrontEnd) : (onFe f s).bell = s.bell := rfl
@[simp] theorem onFe_loft (f : FrontEnd → FrontEnd) : (onFe f s).loft = s.loft := rfl
@[simp] theorem onFe_esc (f : FrontEnd → FrontEnd) : (onFe f s).esc = s.esc := rfl
@[simp] theorem onFe_wtally (f : FrontEnd → FrontEnd) : (onFe f s).wtally = s.wtally := rfl
@[simp] theorem onFe_loom (f : FrontEnd → FrontEnd) : (onFe f s).loom = s.loom := rfl
@[simp] theorem onFe_at (f : FrontEnd → FrontEnd) : (onFe f s).fe = f s.fe := rfl

/-! ## onWc -/

@[simp] theorem onWc_pending (f : WatchCores → WatchCores) : (onWc f s).pending = s.pending := rfl
@[simp] theorem onWc_free (f : WatchCores → WatchCores) : (onWc f s).free = s.free := rfl
@[simp] theorem onWc_clocks (f : WatchCores → WatchCores) : (onWc f s).clocks = s.clocks := rfl
@[simp] theorem onWc_alert (f : WatchCores → WatchCores) : (onWc f s).alert = s.alert := rfl
@[simp] theorem onWc_seen (f : WatchCores → WatchCores) : (onWc f s).seen = s.seen := rfl
@[simp] theorem onWc_port (f : WatchCores → WatchCores) : (onWc f s).port = s.port := rfl
@[simp] theorem onWc_keys (f : WatchCores → WatchCores) : (onWc f s).keys = s.keys := rfl
@[simp] theorem onWc_gran (f : WatchCores → WatchCores) : (onWc f s).gran = s.gran := rfl
@[simp] theorem onWc_mon (f : WatchCores → WatchCores) : (onWc f s).mon = s.mon := rfl
@[simp] theorem onWc_pwr (f : WatchCores → WatchCores) : (onWc f s).pwr = s.pwr := rfl
@[simp] theorem onWc_weft (f : WatchCores → WatchCores) : (onWc f s).weft = s.weft := rfl
@[simp] theorem onWc_warp (f : WatchCores → WatchCores) : (onWc f s).warp = s.warp := rfl
@[simp] theorem onWc_jtag (f : WatchCores → WatchCores) : (onWc f s).jtag = s.jtag := rfl
@[simp] theorem onWc_wflight (f : WatchCores → WatchCores) : (onWc f s).wflight = s.wflight := rfl
@[simp] theorem onWc_fe (f : WatchCores → WatchCores) : (onWc f s).fe = s.fe := rfl
@[simp] theorem onWc_bell (f : WatchCores → WatchCores) : (onWc f s).bell = s.bell := rfl
@[simp] theorem onWc_loft (f : WatchCores → WatchCores) : (onWc f s).loft = s.loft := rfl
@[simp] theorem onWc_esc (f : WatchCores → WatchCores) : (onWc f s).esc = s.esc := rfl
@[simp] theorem onWc_wtally (f : WatchCores → WatchCores) : (onWc f s).wtally = s.wtally := rfl
@[simp] theorem onWc_loom (f : WatchCores → WatchCores) : (onWc f s).loom = s.loom := rfl
@[simp] theorem onWc_at (f : WatchCores → WatchCores) : (onWc f s).wc = f s.wc := rfl

/-! ## onLoft -/

@[simp] theorem onLoft_pending (f : Loft → Loft) : (onLoft f s).pending = s.pending := rfl
@[simp] theorem onLoft_free (f : Loft → Loft) : (onLoft f s).free = s.free := rfl
@[simp] theorem onLoft_clocks (f : Loft → Loft) : (onLoft f s).clocks = s.clocks := rfl
@[simp] theorem onLoft_alert (f : Loft → Loft) : (onLoft f s).alert = s.alert := rfl
@[simp] theorem onLoft_seen (f : Loft → Loft) : (onLoft f s).seen = s.seen := rfl
@[simp] theorem onLoft_port (f : Loft → Loft) : (onLoft f s).port = s.port := rfl
@[simp] theorem onLoft_keys (f : Loft → Loft) : (onLoft f s).keys = s.keys := rfl
@[simp] theorem onLoft_gran (f : Loft → Loft) : (onLoft f s).gran = s.gran := rfl
@[simp] theorem onLoft_mon (f : Loft → Loft) : (onLoft f s).mon = s.mon := rfl
@[simp] theorem onLoft_pwr (f : Loft → Loft) : (onLoft f s).pwr = s.pwr := rfl
@[simp] theorem onLoft_weft (f : Loft → Loft) : (onLoft f s).weft = s.weft := rfl
@[simp] theorem onLoft_warp (f : Loft → Loft) : (onLoft f s).warp = s.warp := rfl
@[simp] theorem onLoft_jtag (f : Loft → Loft) : (onLoft f s).jtag = s.jtag := rfl
@[simp] theorem onLoft_wflight (f : Loft → Loft) : (onLoft f s).wflight = s.wflight := rfl
@[simp] theorem onLoft_fe (f : Loft → Loft) : (onLoft f s).fe = s.fe := rfl
@[simp] theorem onLoft_wc (f : Loft → Loft) : (onLoft f s).wc = s.wc := rfl
@[simp] theorem onLoft_bell (f : Loft → Loft) : (onLoft f s).bell = s.bell := rfl
@[simp] theorem onLoft_esc (f : Loft → Loft) : (onLoft f s).esc = s.esc := rfl
@[simp] theorem onLoft_wtally (f : Loft → Loft) : (onLoft f s).wtally = s.wtally := rfl
@[simp] theorem onLoft_loom (f : Loft → Loft) : (onLoft f s).loom = s.loom := rfl
@[simp] theorem onLoft_at (f : Loft → Loft) : (onLoft f s).loft = f s.loft := rfl

/-! ## onBell -/

@[simp] theorem onBell_pending (f : Bell → Bell) : (onBell f s).pending = s.pending := rfl
@[simp] theorem onBell_free (f : Bell → Bell) : (onBell f s).free = s.free := rfl
@[simp] theorem onBell_clocks (f : Bell → Bell) : (onBell f s).clocks = s.clocks := rfl
@[simp] theorem onBell_alert (f : Bell → Bell) : (onBell f s).alert = s.alert := rfl
@[simp] theorem onBell_seen (f : Bell → Bell) : (onBell f s).seen = s.seen := rfl
@[simp] theorem onBell_port (f : Bell → Bell) : (onBell f s).port = s.port := rfl
@[simp] theorem onBell_keys (f : Bell → Bell) : (onBell f s).keys = s.keys := rfl
@[simp] theorem onBell_gran (f : Bell → Bell) : (onBell f s).gran = s.gran := rfl
@[simp] theorem onBell_mon (f : Bell → Bell) : (onBell f s).mon = s.mon := rfl
@[simp] theorem onBell_pwr (f : Bell → Bell) : (onBell f s).pwr = s.pwr := rfl
@[simp] theorem onBell_weft (f : Bell → Bell) : (onBell f s).weft = s.weft := rfl
@[simp] theorem onBell_warp (f : Bell → Bell) : (onBell f s).warp = s.warp := rfl
@[simp] theorem onBell_jtag (f : Bell → Bell) : (onBell f s).jtag = s.jtag := rfl
@[simp] theorem onBell_wflight (f : Bell → Bell) : (onBell f s).wflight = s.wflight := rfl
@[simp] theorem onBell_fe (f : Bell → Bell) : (onBell f s).fe = s.fe := rfl
@[simp] theorem onBell_wc (f : Bell → Bell) : (onBell f s).wc = s.wc := rfl
@[simp] theorem onBell_loft (f : Bell → Bell) : (onBell f s).loft = s.loft := rfl
@[simp] theorem onBell_esc (f : Bell → Bell) : (onBell f s).esc = s.esc := rfl
@[simp] theorem onBell_wtally (f : Bell → Bell) : (onBell f s).wtally = s.wtally := rfl
@[simp] theorem onBell_loom (f : Bell → Bell) : (onBell f s).loom = s.loom := rfl
@[simp] theorem onBell_at (f : Bell → Bell) : (onBell f s).bell = f s.bell := rfl

/-! ## onEsc -/

@[simp] theorem onEsc_pending (f : Escalation → Escalation) : (onEsc f s).pending = s.pending := rfl
@[simp] theorem onEsc_free (f : Escalation → Escalation) : (onEsc f s).free = s.free := rfl
@[simp] theorem onEsc_clocks (f : Escalation → Escalation) : (onEsc f s).clocks = s.clocks := rfl
@[simp] theorem onEsc_alert (f : Escalation → Escalation) : (onEsc f s).alert = s.alert := rfl
@[simp] theorem onEsc_seen (f : Escalation → Escalation) : (onEsc f s).seen = s.seen := rfl
@[simp] theorem onEsc_port (f : Escalation → Escalation) : (onEsc f s).port = s.port := rfl
@[simp] theorem onEsc_keys (f : Escalation → Escalation) : (onEsc f s).keys = s.keys := rfl
@[simp] theorem onEsc_gran (f : Escalation → Escalation) : (onEsc f s).gran = s.gran := rfl
@[simp] theorem onEsc_mon (f : Escalation → Escalation) : (onEsc f s).mon = s.mon := rfl
@[simp] theorem onEsc_pwr (f : Escalation → Escalation) : (onEsc f s).pwr = s.pwr := rfl
@[simp] theorem onEsc_weft (f : Escalation → Escalation) : (onEsc f s).weft = s.weft := rfl
@[simp] theorem onEsc_warp (f : Escalation → Escalation) : (onEsc f s).warp = s.warp := rfl
@[simp] theorem onEsc_jtag (f : Escalation → Escalation) : (onEsc f s).jtag = s.jtag := rfl
@[simp] theorem onEsc_wflight (f : Escalation → Escalation) : (onEsc f s).wflight = s.wflight := rfl
@[simp] theorem onEsc_fe (f : Escalation → Escalation) : (onEsc f s).fe = s.fe := rfl
@[simp] theorem onEsc_wc (f : Escalation → Escalation) : (onEsc f s).wc = s.wc := rfl
@[simp] theorem onEsc_bell (f : Escalation → Escalation) : (onEsc f s).bell = s.bell := rfl
@[simp] theorem onEsc_loft (f : Escalation → Escalation) : (onEsc f s).loft = s.loft := rfl
@[simp] theorem onEsc_wtally (f : Escalation → Escalation) : (onEsc f s).wtally = s.wtally := rfl
@[simp] theorem onEsc_loom (f : Escalation → Escalation) : (onEsc f s).loom = s.loom := rfl
@[simp] theorem onEsc_at (f : Escalation → Escalation) : (onEsc f s).esc = f s.esc := rfl

/-! ## onPort -/

@[simp] theorem onPort_pending (f : GatePort → GatePort) : (onPort f s).pending = s.pending := rfl
@[simp] theorem onPort_free (f : GatePort → GatePort) : (onPort f s).free = s.free := rfl
@[simp] theorem onPort_clocks (f : GatePort → GatePort) : (onPort f s).clocks = s.clocks := rfl
@[simp] theorem onPort_alert (f : GatePort → GatePort) : (onPort f s).alert = s.alert := rfl
@[simp] theorem onPort_seen (f : GatePort → GatePort) : (onPort f s).seen = s.seen := rfl
@[simp] theorem onPort_keys (f : GatePort → GatePort) : (onPort f s).keys = s.keys := rfl
@[simp] theorem onPort_gran (f : GatePort → GatePort) : (onPort f s).gran = s.gran := rfl
@[simp] theorem onPort_mon (f : GatePort → GatePort) : (onPort f s).mon = s.mon := rfl
@[simp] theorem onPort_pwr (f : GatePort → GatePort) : (onPort f s).pwr = s.pwr := rfl
@[simp] theorem onPort_weft (f : GatePort → GatePort) : (onPort f s).weft = s.weft := rfl
@[simp] theorem onPort_warp (f : GatePort → GatePort) : (onPort f s).warp = s.warp := rfl
@[simp] theorem onPort_jtag (f : GatePort → GatePort) : (onPort f s).jtag = s.jtag := rfl
@[simp] theorem onPort_wflight (f : GatePort → GatePort) : (onPort f s).wflight = s.wflight := rfl
@[simp] theorem onPort_fe (f : GatePort → GatePort) : (onPort f s).fe = s.fe := rfl
@[simp] theorem onPort_wc (f : GatePort → GatePort) : (onPort f s).wc = s.wc := rfl
@[simp] theorem onPort_bell (f : GatePort → GatePort) : (onPort f s).bell = s.bell := rfl
@[simp] theorem onPort_loft (f : GatePort → GatePort) : (onPort f s).loft = s.loft := rfl
@[simp] theorem onPort_esc (f : GatePort → GatePort) : (onPort f s).esc = s.esc := rfl
@[simp] theorem onPort_wtally (f : GatePort → GatePort) : (onPort f s).wtally = s.wtally := rfl
@[simp] theorem onPort_loom (f : GatePort → GatePort) : (onPort f s).loom = s.loom := rfl
@[simp] theorem onPort_at (f : GatePort → GatePort) : (onPort f s).port = f s.port := rfl

/-! ## onKeys -/

@[simp] theorem onKeys_pending (f : Seal → Seal) : (onKeys f s).pending = s.pending := rfl
@[simp] theorem onKeys_free (f : Seal → Seal) : (onKeys f s).free = s.free := rfl
@[simp] theorem onKeys_clocks (f : Seal → Seal) : (onKeys f s).clocks = s.clocks := rfl
@[simp] theorem onKeys_alert (f : Seal → Seal) : (onKeys f s).alert = s.alert := rfl
@[simp] theorem onKeys_seen (f : Seal → Seal) : (onKeys f s).seen = s.seen := rfl
@[simp] theorem onKeys_port (f : Seal → Seal) : (onKeys f s).port = s.port := rfl
@[simp] theorem onKeys_gran (f : Seal → Seal) : (onKeys f s).gran = s.gran := rfl
@[simp] theorem onKeys_mon (f : Seal → Seal) : (onKeys f s).mon = s.mon := rfl
@[simp] theorem onKeys_pwr (f : Seal → Seal) : (onKeys f s).pwr = s.pwr := rfl
@[simp] theorem onKeys_weft (f : Seal → Seal) : (onKeys f s).weft = s.weft := rfl
@[simp] theorem onKeys_warp (f : Seal → Seal) : (onKeys f s).warp = s.warp := rfl
@[simp] theorem onKeys_jtag (f : Seal → Seal) : (onKeys f s).jtag = s.jtag := rfl
@[simp] theorem onKeys_wflight (f : Seal → Seal) : (onKeys f s).wflight = s.wflight := rfl
@[simp] theorem onKeys_fe (f : Seal → Seal) : (onKeys f s).fe = s.fe := rfl
@[simp] theorem onKeys_wc (f : Seal → Seal) : (onKeys f s).wc = s.wc := rfl
@[simp] theorem onKeys_bell (f : Seal → Seal) : (onKeys f s).bell = s.bell := rfl
@[simp] theorem onKeys_loft (f : Seal → Seal) : (onKeys f s).loft = s.loft := rfl
@[simp] theorem onKeys_esc (f : Seal → Seal) : (onKeys f s).esc = s.esc := rfl
@[simp] theorem onKeys_wtally (f : Seal → Seal) : (onKeys f s).wtally = s.wtally := rfl
@[simp] theorem onKeys_loom (f : Seal → Seal) : (onKeys f s).loom = s.loom := rfl
@[simp] theorem onKeys_at (f : Seal → Seal) : (onKeys f s).keys = f s.keys := rfl

/-! ## putRing -/

@[simp] theorem putRing_pending (n : Nat) (v : Ring) : (putRing n v s).pending = s.pending := rfl
@[simp] theorem putRing_free (n : Nat) (v : Ring) : (putRing n v s).free = s.free := rfl
@[simp] theorem putRing_clocks (n : Nat) (v : Ring) : (putRing n v s).clocks = s.clocks := rfl
@[simp] theorem putRing_alert (n : Nat) (v : Ring) : (putRing n v s).alert = s.alert := rfl
@[simp] theorem putRing_seen (n : Nat) (v : Ring) : (putRing n v s).seen = s.seen := rfl
@[simp] theorem putRing_port (n : Nat) (v : Ring) : (putRing n v s).port = s.port := rfl
@[simp] theorem putRing_keys (n : Nat) (v : Ring) : (putRing n v s).keys = s.keys := rfl
@[simp] theorem putRing_gran (n : Nat) (v : Ring) : (putRing n v s).gran = s.gran := rfl
@[simp] theorem putRing_mon (n : Nat) (v : Ring) : (putRing n v s).mon = s.mon := rfl
@[simp] theorem putRing_pwr (n : Nat) (v : Ring) : (putRing n v s).pwr = s.pwr := rfl
@[simp] theorem putRing_weft (n : Nat) (v : Ring) : (putRing n v s).weft = s.weft := rfl
@[simp] theorem putRing_warp (n : Nat) (v : Ring) : (putRing n v s).warp = s.warp := rfl
@[simp] theorem putRing_jtag (n : Nat) (v : Ring) : (putRing n v s).jtag = s.jtag := rfl
@[simp] theorem putRing_wflight (n : Nat) (v : Ring) : (putRing n v s).wflight = s.wflight := rfl
@[simp] theorem putRing_fe (n : Nat) (v : Ring) : (putRing n v s).fe = s.fe := rfl
@[simp] theorem putRing_wc (n : Nat) (v : Ring) : (putRing n v s).wc = s.wc := rfl
@[simp] theorem putRing_bell (n : Nat) (v : Ring) : (putRing n v s).bell = s.bell := rfl
@[simp] theorem putRing_loft (n : Nat) (v : Ring) : (putRing n v s).loft = s.loft := rfl
@[simp] theorem putRing_esc (n : Nat) (v : Ring) : (putRing n v s).esc = s.esc := rfl
@[simp] theorem putRing_wtally (n : Nat) (v : Ring) : (putRing n v s).wtally = s.wtally := rfl
@[simp] theorem putRing_loom_clock (n : Nat) (v : Ring) : (putRing n v s).loom.clock = s.loom.clock := rfl
@[simp] theorem putRing_loom_draftAddr (n : Nat) (v : Ring) : (putRing n v s).loom.draftAddr = s.loom.draftAddr := rfl
@[simp] theorem putRing_loom_loadReg (n : Nat) (v : Ring) : (putRing n v s).loom.loadReg = s.loom.loadReg := rfl
@[simp] theorem putRing_loom_verify (n : Nat) (v : Ring) : (putRing n v s).loom.verify = s.loom.verify := rfl
@[simp] theorem putRing_loom_load (n : Nat) (v : Ring) : (putRing n v s).loom.load = s.loom.load := rfl
@[simp] theorem putRing_loom_drafts (n : Nat) (v : Ring) : (putRing n v s).loom.drafts = s.loom.drafts := rfl
@[simp] theorem putRing_loom_store (n : Nat) (v : Ring) : (putRing n v s).loom.store = s.loom.store := rfl
@[simp] theorem putRing_loom_storeUp (n : Nat) (v : Ring) : (putRing n v s).loom.storeUp = s.loom.storeUp := rfl
@[simp] theorem putRing_loom_pages (n : Nat) (v : Ring) : (putRing n v s).loom.pages = s.loom.pages := rfl
@[simp] theorem putRing_loom_tags (n : Nat) (v : Ring) : (putRing n v s).loom.tags = s.loom.tags := rfl
@[simp] theorem putRing_loom_breach (n : Nat) (v : Ring) : (putRing n v s).loom.breach = s.loom.breach := rfl
@[simp] theorem putRing_loom_weave (n : Nat) (v : Ring) : (putRing n v s).loom.weave = s.loom.weave := rfl
@[simp] theorem putRing_loom_parts (n : Nat) (v : Ring) : (putRing n v s).loom.parts = s.loom.parts := rfl
@[simp] theorem putRing_loom_partResult (n : Nat) (v : Ring) : (putRing n v s).loom.partResult = s.loom.partResult := rfl
@[simp] theorem putRing_loom_tenants (n : Nat) (v : Ring) : (putRing n v s).loom.tenants = s.loom.tenants := rfl
@[simp] theorem putRing_loom_now (n : Nat) (v : Ring) : (putRing n v s).loom.now = s.loom.now := rfl
@[simp] theorem putRing_loom_fetched (n : Nat) (v : Ring) : (putRing n v s).loom.fetched = s.loom.fetched := rfl
@[simp] theorem putRing_loom_reads (n : Nat) (v : Ring) : (putRing n v s).loom.reads = s.loom.reads := rfl
@[simp] theorem putRing_loom_nextTag (n : Nat) (v : Ring) : (putRing n v s).loom.nextTag = s.loom.nextTag := rfl
@[simp] theorem putRing_loom_rr (n : Nat) (v : Ring) : (putRing n v s).loom.rr = s.loom.rr := rfl
@[simp] theorem putRing_loom_order (n : Nat) (v : Ring) : (putRing n v s).loom.order = s.loom.order := rfl
@[simp] theorem putRing_loom_answeredAt (n : Nat) (v : Ring) : (putRing n v s).loom.answeredAt = s.loom.answeredAt := rfl
@[simp] theorem putRing_loom_jobs (n : Nat) (v : Ring) : (putRing n v s).loom.jobs = s.loom.jobs := rfl
@[simp] theorem putRing_loom_bookings (n : Nat) (v : Ring) : (putRing n v s).loom.bookings = s.loom.bookings := rfl
@[simp] theorem putRing_loom_moveBookings (n : Nat) (v : Ring) : (putRing n v s).loom.moveBookings = s.loom.moveBookings := rfl
@[simp] theorem putRing_loom_closes (n : Nat) (v : Ring) : (putRing n v s).loom.closes = s.loom.closes := rfl
@[simp] theorem putRing_loom_tiles (n : Nat) (v : Ring) : (putRing n v s).loom.tiles = s.loom.tiles := rfl
@[simp] theorem putRing_loom_banks (n : Nat) (v : Ring) : (putRing n v s).loom.banks = s.loom.banks := rfl
@[simp] theorem putRing_loom_bankUp (n : Nat) (v : Ring) : (putRing n v s).loom.bankUp = s.loom.bankUp := rfl
@[simp] theorem putRing_loom_bankUse (n : Nat) (v : Ring) : (putRing n v s).loom.bankUse = s.loom.bankUse := rfl
@[simp] theorem putRing_loom_reelUse (n : Nat) (v : Ring) : (putRing n v s).loom.reelUse = s.loom.reelUse := rfl
@[simp] theorem putRing_loom_issued (n : Nat) (v : Ring) : (putRing n v s).loom.issued = s.loom.issued := rfl
@[simp] theorem putRing_loom_linkUse (n : Nat) (v : Ring) : (putRing n v s).loom.linkUse = s.loom.linkUse := rfl
@[simp] theorem putRing_loom_late (n : Nat) (v : Ring) : (putRing n v s).loom.late = s.loom.late := rfl
@[simp] theorem putRing_loom_failed (n : Nat) (v : Ring) : (putRing n v s).loom.failed = s.loom.failed := rfl
@[simp] theorem putRing_loom_tileErr (n : Nat) (v : Ring) : (putRing n v s).loom.tileErr = s.loom.tileErr := rfl
@[simp] theorem putRing_loom_flits (n : Nat) (v : Ring) : (putRing n v s).loom.flits = s.loom.flits := rfl
@[simp] theorem putRing_loom_engines (n : Nat) (v : Ring) : (putRing n v s).loom.engines = s.loom.engines := rfl
@[simp] theorem putRing_loom_kv (n : Nat) (v : Ring) : (putRing n v s).loom.kv = s.loom.kv := rfl
@[simp] theorem putRing_loom_kvUp (n : Nat) (v : Ring) : (putRing n v s).loom.kvUp = s.loom.kvUp := rfl
@[simp] theorem putRing_loom_seqs (n : Nat) (v : Ring) : (putRing n v s).loom.seqs = s.loom.seqs := rfl
@[simp] theorem putRing_loom_bobbin (n : Nat) (v : Ring) : (putRing n v s).loom.bobbin = s.loom.bobbin := rfl
@[simp] theorem putRing_loom_tallySel (n : Nat) (v : Ring) : (putRing n v s).loom.tallySel = s.loom.tallySel := rfl
@[simp] theorem putRing_loom_tally (n : Nat) (v : Ring) : (putRing n v s).loom.tally = s.loom.tally := rfl
@[simp] theorem putRing_loom_tallyLc (n : Nat) (v : Ring) : (putRing n v s).loom.tallyLc = s.loom.tallyLc := rfl
@[simp] theorem putRing_loom_tallyEvs (n : Nat) (v : Ring) : (putRing n v s).loom.tallyEvs = s.loom.tallyEvs := rfl
@[simp] theorem putRing_loom_tallyWas (n : Nat) (v : Ring) : (putRing n v s).loom.tallyWas = s.loom.tallyWas := rfl
@[simp] theorem putRing_loom_chain (n : Nat) (v : Ring) : (putRing n v s).loom.chain = s.loom.chain := rfl

/-! ## putTenant -/

@[simp] theorem putTenant_pending (t : Nat) (v : Tenant) : (putTenant t v s).pending = s.pending := rfl
@[simp] theorem putTenant_free (t : Nat) (v : Tenant) : (putTenant t v s).free = s.free := rfl
@[simp] theorem putTenant_clocks (t : Nat) (v : Tenant) : (putTenant t v s).clocks = s.clocks := rfl
@[simp] theorem putTenant_alert (t : Nat) (v : Tenant) : (putTenant t v s).alert = s.alert := rfl
@[simp] theorem putTenant_seen (t : Nat) (v : Tenant) : (putTenant t v s).seen = s.seen := rfl
@[simp] theorem putTenant_port (t : Nat) (v : Tenant) : (putTenant t v s).port = s.port := rfl
@[simp] theorem putTenant_keys (t : Nat) (v : Tenant) : (putTenant t v s).keys = s.keys := rfl
@[simp] theorem putTenant_gran (t : Nat) (v : Tenant) : (putTenant t v s).gran = s.gran := rfl
@[simp] theorem putTenant_mon (t : Nat) (v : Tenant) : (putTenant t v s).mon = s.mon := rfl
@[simp] theorem putTenant_pwr (t : Nat) (v : Tenant) : (putTenant t v s).pwr = s.pwr := rfl
@[simp] theorem putTenant_weft (t : Nat) (v : Tenant) : (putTenant t v s).weft = s.weft := rfl
@[simp] theorem putTenant_warp (t : Nat) (v : Tenant) : (putTenant t v s).warp = s.warp := rfl
@[simp] theorem putTenant_jtag (t : Nat) (v : Tenant) : (putTenant t v s).jtag = s.jtag := rfl
@[simp] theorem putTenant_wflight (t : Nat) (v : Tenant) : (putTenant t v s).wflight = s.wflight := rfl
@[simp] theorem putTenant_fe (t : Nat) (v : Tenant) : (putTenant t v s).fe = s.fe := rfl
@[simp] theorem putTenant_wc (t : Nat) (v : Tenant) : (putTenant t v s).wc = s.wc := rfl
@[simp] theorem putTenant_bell (t : Nat) (v : Tenant) : (putTenant t v s).bell = s.bell := rfl
@[simp] theorem putTenant_loft (t : Nat) (v : Tenant) : (putTenant t v s).loft = s.loft := rfl
@[simp] theorem putTenant_esc (t : Nat) (v : Tenant) : (putTenant t v s).esc = s.esc := rfl
@[simp] theorem putTenant_wtally (t : Nat) (v : Tenant) : (putTenant t v s).wtally = s.wtally := rfl
@[simp] theorem putTenant_loom_clock (t : Nat) (v : Tenant) : (putTenant t v s).loom.clock = s.loom.clock := rfl
@[simp] theorem putTenant_loom_draftAddr (t : Nat) (v : Tenant) : (putTenant t v s).loom.draftAddr = s.loom.draftAddr := rfl
@[simp] theorem putTenant_loom_loadReg (t : Nat) (v : Tenant) : (putTenant t v s).loom.loadReg = s.loom.loadReg := rfl
@[simp] theorem putTenant_loom_verify (t : Nat) (v : Tenant) : (putTenant t v s).loom.verify = s.loom.verify := rfl
@[simp] theorem putTenant_loom_load (t : Nat) (v : Tenant) : (putTenant t v s).loom.load = s.loom.load := rfl
@[simp] theorem putTenant_loom_drafts (t : Nat) (v : Tenant) : (putTenant t v s).loom.drafts = s.loom.drafts := rfl
@[simp] theorem putTenant_loom_store (t : Nat) (v : Tenant) : (putTenant t v s).loom.store = s.loom.store := rfl
@[simp] theorem putTenant_loom_storeUp (t : Nat) (v : Tenant) : (putTenant t v s).loom.storeUp = s.loom.storeUp := rfl
@[simp] theorem putTenant_loom_pages (t : Nat) (v : Tenant) : (putTenant t v s).loom.pages = s.loom.pages := rfl
@[simp] theorem putTenant_loom_tags (t : Nat) (v : Tenant) : (putTenant t v s).loom.tags = s.loom.tags := rfl
@[simp] theorem putTenant_loom_breach (t : Nat) (v : Tenant) : (putTenant t v s).loom.breach = s.loom.breach := rfl
@[simp] theorem putTenant_loom_weave (t : Nat) (v : Tenant) : (putTenant t v s).loom.weave = s.loom.weave := rfl
@[simp] theorem putTenant_loom_parts (t : Nat) (v : Tenant) : (putTenant t v s).loom.parts = s.loom.parts := rfl
@[simp] theorem putTenant_loom_partResult (t : Nat) (v : Tenant) : (putTenant t v s).loom.partResult = s.loom.partResult := rfl
@[simp] theorem putTenant_loom_rings (t : Nat) (v : Tenant) : (putTenant t v s).loom.rings = s.loom.rings := rfl
@[simp] theorem putTenant_loom_now (t : Nat) (v : Tenant) : (putTenant t v s).loom.now = s.loom.now := rfl
@[simp] theorem putTenant_loom_fetched (t : Nat) (v : Tenant) : (putTenant t v s).loom.fetched = s.loom.fetched := rfl
@[simp] theorem putTenant_loom_reads (t : Nat) (v : Tenant) : (putTenant t v s).loom.reads = s.loom.reads := rfl
@[simp] theorem putTenant_loom_nextTag (t : Nat) (v : Tenant) : (putTenant t v s).loom.nextTag = s.loom.nextTag := rfl
@[simp] theorem putTenant_loom_rr (t : Nat) (v : Tenant) : (putTenant t v s).loom.rr = s.loom.rr := rfl
@[simp] theorem putTenant_loom_order (t : Nat) (v : Tenant) : (putTenant t v s).loom.order = s.loom.order := rfl
@[simp] theorem putTenant_loom_answeredAt (t : Nat) (v : Tenant) : (putTenant t v s).loom.answeredAt = s.loom.answeredAt := rfl
@[simp] theorem putTenant_loom_jobs (t : Nat) (v : Tenant) : (putTenant t v s).loom.jobs = s.loom.jobs := rfl
@[simp] theorem putTenant_loom_bookings (t : Nat) (v : Tenant) : (putTenant t v s).loom.bookings = s.loom.bookings := rfl
@[simp] theorem putTenant_loom_moveBookings (t : Nat) (v : Tenant) : (putTenant t v s).loom.moveBookings = s.loom.moveBookings := rfl
@[simp] theorem putTenant_loom_closes (t : Nat) (v : Tenant) : (putTenant t v s).loom.closes = s.loom.closes := rfl
@[simp] theorem putTenant_loom_tiles (t : Nat) (v : Tenant) : (putTenant t v s).loom.tiles = s.loom.tiles := rfl
@[simp] theorem putTenant_loom_banks (t : Nat) (v : Tenant) : (putTenant t v s).loom.banks = s.loom.banks := rfl
@[simp] theorem putTenant_loom_bankUp (t : Nat) (v : Tenant) : (putTenant t v s).loom.bankUp = s.loom.bankUp := rfl
@[simp] theorem putTenant_loom_bankUse (t : Nat) (v : Tenant) : (putTenant t v s).loom.bankUse = s.loom.bankUse := rfl
@[simp] theorem putTenant_loom_reelUse (t : Nat) (v : Tenant) : (putTenant t v s).loom.reelUse = s.loom.reelUse := rfl
@[simp] theorem putTenant_loom_issued (t : Nat) (v : Tenant) : (putTenant t v s).loom.issued = s.loom.issued := rfl
@[simp] theorem putTenant_loom_linkUse (t : Nat) (v : Tenant) : (putTenant t v s).loom.linkUse = s.loom.linkUse := rfl
@[simp] theorem putTenant_loom_late (t : Nat) (v : Tenant) : (putTenant t v s).loom.late = s.loom.late := rfl
@[simp] theorem putTenant_loom_failed (t : Nat) (v : Tenant) : (putTenant t v s).loom.failed = s.loom.failed := rfl
@[simp] theorem putTenant_loom_tileErr (t : Nat) (v : Tenant) : (putTenant t v s).loom.tileErr = s.loom.tileErr := rfl
@[simp] theorem putTenant_loom_flits (t : Nat) (v : Tenant) : (putTenant t v s).loom.flits = s.loom.flits := rfl
@[simp] theorem putTenant_loom_engines (t : Nat) (v : Tenant) : (putTenant t v s).loom.engines = s.loom.engines := rfl
@[simp] theorem putTenant_loom_kv (t : Nat) (v : Tenant) : (putTenant t v s).loom.kv = s.loom.kv := rfl
@[simp] theorem putTenant_loom_kvUp (t : Nat) (v : Tenant) : (putTenant t v s).loom.kvUp = s.loom.kvUp := rfl
@[simp] theorem putTenant_loom_seqs (t : Nat) (v : Tenant) : (putTenant t v s).loom.seqs = s.loom.seqs := rfl
@[simp] theorem putTenant_loom_bobbin (t : Nat) (v : Tenant) : (putTenant t v s).loom.bobbin = s.loom.bobbin := rfl
@[simp] theorem putTenant_loom_tallySel (t : Nat) (v : Tenant) : (putTenant t v s).loom.tallySel = s.loom.tallySel := rfl
@[simp] theorem putTenant_loom_tally (t : Nat) (v : Tenant) : (putTenant t v s).loom.tally = s.loom.tally := rfl
@[simp] theorem putTenant_loom_tallyLc (t : Nat) (v : Tenant) : (putTenant t v s).loom.tallyLc = s.loom.tallyLc := rfl
@[simp] theorem putTenant_loom_tallyEvs (t : Nat) (v : Tenant) : (putTenant t v s).loom.tallyEvs = s.loom.tallyEvs := rfl
@[simp] theorem putTenant_loom_tallyWas (t : Nat) (v : Tenant) : (putTenant t v s).loom.tallyWas = s.loom.tallyWas := rfl
@[simp] theorem putTenant_loom_chain (t : Nat) (v : Tenant) : (putTenant t v s).loom.chain = s.loom.chain := rfl

/-! ## putDraft -/

@[simp] theorem putDraft_pending (d : Nat) (v : Draft) : (putDraft d v s).pending = s.pending := rfl
@[simp] theorem putDraft_free (d : Nat) (v : Draft) : (putDraft d v s).free = s.free := rfl
@[simp] theorem putDraft_clocks (d : Nat) (v : Draft) : (putDraft d v s).clocks = s.clocks := rfl
@[simp] theorem putDraft_alert (d : Nat) (v : Draft) : (putDraft d v s).alert = s.alert := rfl
@[simp] theorem putDraft_seen (d : Nat) (v : Draft) : (putDraft d v s).seen = s.seen := rfl
@[simp] theorem putDraft_port (d : Nat) (v : Draft) : (putDraft d v s).port = s.port := rfl
@[simp] theorem putDraft_keys (d : Nat) (v : Draft) : (putDraft d v s).keys = s.keys := rfl
@[simp] theorem putDraft_gran (d : Nat) (v : Draft) : (putDraft d v s).gran = s.gran := rfl
@[simp] theorem putDraft_mon (d : Nat) (v : Draft) : (putDraft d v s).mon = s.mon := rfl
@[simp] theorem putDraft_pwr (d : Nat) (v : Draft) : (putDraft d v s).pwr = s.pwr := rfl
@[simp] theorem putDraft_weft (d : Nat) (v : Draft) : (putDraft d v s).weft = s.weft := rfl
@[simp] theorem putDraft_warp (d : Nat) (v : Draft) : (putDraft d v s).warp = s.warp := rfl
@[simp] theorem putDraft_jtag (d : Nat) (v : Draft) : (putDraft d v s).jtag = s.jtag := rfl
@[simp] theorem putDraft_wflight (d : Nat) (v : Draft) : (putDraft d v s).wflight = s.wflight := rfl
@[simp] theorem putDraft_fe (d : Nat) (v : Draft) : (putDraft d v s).fe = s.fe := rfl
@[simp] theorem putDraft_wc (d : Nat) (v : Draft) : (putDraft d v s).wc = s.wc := rfl
@[simp] theorem putDraft_bell (d : Nat) (v : Draft) : (putDraft d v s).bell = s.bell := rfl
@[simp] theorem putDraft_loft (d : Nat) (v : Draft) : (putDraft d v s).loft = s.loft := rfl
@[simp] theorem putDraft_esc (d : Nat) (v : Draft) : (putDraft d v s).esc = s.esc := rfl
@[simp] theorem putDraft_wtally (d : Nat) (v : Draft) : (putDraft d v s).wtally = s.wtally := rfl
@[simp] theorem putDraft_loom_clock (d : Nat) (v : Draft) : (putDraft d v s).loom.clock = s.loom.clock := rfl
@[simp] theorem putDraft_loom_draftAddr (d : Nat) (v : Draft) : (putDraft d v s).loom.draftAddr = s.loom.draftAddr := rfl
@[simp] theorem putDraft_loom_loadReg (d : Nat) (v : Draft) : (putDraft d v s).loom.loadReg = s.loom.loadReg := rfl
@[simp] theorem putDraft_loom_verify (d : Nat) (v : Draft) : (putDraft d v s).loom.verify = s.loom.verify := rfl
@[simp] theorem putDraft_loom_load (d : Nat) (v : Draft) : (putDraft d v s).loom.load = s.loom.load := rfl
@[simp] theorem putDraft_loom_store (d : Nat) (v : Draft) : (putDraft d v s).loom.store = s.loom.store := rfl
@[simp] theorem putDraft_loom_storeUp (d : Nat) (v : Draft) : (putDraft d v s).loom.storeUp = s.loom.storeUp := rfl
@[simp] theorem putDraft_loom_pages (d : Nat) (v : Draft) : (putDraft d v s).loom.pages = s.loom.pages := rfl
@[simp] theorem putDraft_loom_tags (d : Nat) (v : Draft) : (putDraft d v s).loom.tags = s.loom.tags := rfl
@[simp] theorem putDraft_loom_breach (d : Nat) (v : Draft) : (putDraft d v s).loom.breach = s.loom.breach := rfl
@[simp] theorem putDraft_loom_weave (d : Nat) (v : Draft) : (putDraft d v s).loom.weave = s.loom.weave := rfl
@[simp] theorem putDraft_loom_parts (d : Nat) (v : Draft) : (putDraft d v s).loom.parts = s.loom.parts := rfl
@[simp] theorem putDraft_loom_partResult (d : Nat) (v : Draft) : (putDraft d v s).loom.partResult = s.loom.partResult := rfl
@[simp] theorem putDraft_loom_rings (d : Nat) (v : Draft) : (putDraft d v s).loom.rings = s.loom.rings := rfl
@[simp] theorem putDraft_loom_tenants (d : Nat) (v : Draft) : (putDraft d v s).loom.tenants = s.loom.tenants := rfl
@[simp] theorem putDraft_loom_now (d : Nat) (v : Draft) : (putDraft d v s).loom.now = s.loom.now := rfl
@[simp] theorem putDraft_loom_fetched (d : Nat) (v : Draft) : (putDraft d v s).loom.fetched = s.loom.fetched := rfl
@[simp] theorem putDraft_loom_reads (d : Nat) (v : Draft) : (putDraft d v s).loom.reads = s.loom.reads := rfl
@[simp] theorem putDraft_loom_nextTag (d : Nat) (v : Draft) : (putDraft d v s).loom.nextTag = s.loom.nextTag := rfl
@[simp] theorem putDraft_loom_rr (d : Nat) (v : Draft) : (putDraft d v s).loom.rr = s.loom.rr := rfl
@[simp] theorem putDraft_loom_order (d : Nat) (v : Draft) : (putDraft d v s).loom.order = s.loom.order := rfl
@[simp] theorem putDraft_loom_answeredAt (d : Nat) (v : Draft) : (putDraft d v s).loom.answeredAt = s.loom.answeredAt := rfl
@[simp] theorem putDraft_loom_jobs (d : Nat) (v : Draft) : (putDraft d v s).loom.jobs = s.loom.jobs := rfl
@[simp] theorem putDraft_loom_bookings (d : Nat) (v : Draft) : (putDraft d v s).loom.bookings = s.loom.bookings := rfl
@[simp] theorem putDraft_loom_moveBookings (d : Nat) (v : Draft) : (putDraft d v s).loom.moveBookings = s.loom.moveBookings := rfl
@[simp] theorem putDraft_loom_closes (d : Nat) (v : Draft) : (putDraft d v s).loom.closes = s.loom.closes := rfl
@[simp] theorem putDraft_loom_tiles (d : Nat) (v : Draft) : (putDraft d v s).loom.tiles = s.loom.tiles := rfl
@[simp] theorem putDraft_loom_banks (d : Nat) (v : Draft) : (putDraft d v s).loom.banks = s.loom.banks := rfl
@[simp] theorem putDraft_loom_bankUp (d : Nat) (v : Draft) : (putDraft d v s).loom.bankUp = s.loom.bankUp := rfl
@[simp] theorem putDraft_loom_bankUse (d : Nat) (v : Draft) : (putDraft d v s).loom.bankUse = s.loom.bankUse := rfl
@[simp] theorem putDraft_loom_reelUse (d : Nat) (v : Draft) : (putDraft d v s).loom.reelUse = s.loom.reelUse := rfl
@[simp] theorem putDraft_loom_issued (d : Nat) (v : Draft) : (putDraft d v s).loom.issued = s.loom.issued := rfl
@[simp] theorem putDraft_loom_linkUse (d : Nat) (v : Draft) : (putDraft d v s).loom.linkUse = s.loom.linkUse := rfl
@[simp] theorem putDraft_loom_late (d : Nat) (v : Draft) : (putDraft d v s).loom.late = s.loom.late := rfl
@[simp] theorem putDraft_loom_failed (d : Nat) (v : Draft) : (putDraft d v s).loom.failed = s.loom.failed := rfl
@[simp] theorem putDraft_loom_tileErr (d : Nat) (v : Draft) : (putDraft d v s).loom.tileErr = s.loom.tileErr := rfl
@[simp] theorem putDraft_loom_flits (d : Nat) (v : Draft) : (putDraft d v s).loom.flits = s.loom.flits := rfl
@[simp] theorem putDraft_loom_engines (d : Nat) (v : Draft) : (putDraft d v s).loom.engines = s.loom.engines := rfl
@[simp] theorem putDraft_loom_kv (d : Nat) (v : Draft) : (putDraft d v s).loom.kv = s.loom.kv := rfl
@[simp] theorem putDraft_loom_kvUp (d : Nat) (v : Draft) : (putDraft d v s).loom.kvUp = s.loom.kvUp := rfl
@[simp] theorem putDraft_loom_seqs (d : Nat) (v : Draft) : (putDraft d v s).loom.seqs = s.loom.seqs := rfl
@[simp] theorem putDraft_loom_bobbin (d : Nat) (v : Draft) : (putDraft d v s).loom.bobbin = s.loom.bobbin := rfl
@[simp] theorem putDraft_loom_tallySel (d : Nat) (v : Draft) : (putDraft d v s).loom.tallySel = s.loom.tallySel := rfl
@[simp] theorem putDraft_loom_tally (d : Nat) (v : Draft) : (putDraft d v s).loom.tally = s.loom.tally := rfl
@[simp] theorem putDraft_loom_tallyLc (d : Nat) (v : Draft) : (putDraft d v s).loom.tallyLc = s.loom.tallyLc := rfl
@[simp] theorem putDraft_loom_tallyEvs (d : Nat) (v : Draft) : (putDraft d v s).loom.tallyEvs = s.loom.tallyEvs := rfl
@[simp] theorem putDraft_loom_tallyWas (d : Nat) (v : Draft) : (putDraft d v s).loom.tallyWas = s.loom.tallyWas := rfl
@[simp] theorem putDraft_loom_chain (d : Nat) (v : Draft) : (putDraft d v s).loom.chain = s.loom.chain := rfl

/-! ## putTile -/

@[simp] theorem putTile_pending (t : Nat) (v : Tile) : (putTile t v s).pending = s.pending := rfl
@[simp] theorem putTile_free (t : Nat) (v : Tile) : (putTile t v s).free = s.free := rfl
@[simp] theorem putTile_clocks (t : Nat) (v : Tile) : (putTile t v s).clocks = s.clocks := rfl
@[simp] theorem putTile_alert (t : Nat) (v : Tile) : (putTile t v s).alert = s.alert := rfl
@[simp] theorem putTile_seen (t : Nat) (v : Tile) : (putTile t v s).seen = s.seen := rfl
@[simp] theorem putTile_port (t : Nat) (v : Tile) : (putTile t v s).port = s.port := rfl
@[simp] theorem putTile_keys (t : Nat) (v : Tile) : (putTile t v s).keys = s.keys := rfl
@[simp] theorem putTile_gran (t : Nat) (v : Tile) : (putTile t v s).gran = s.gran := rfl
@[simp] theorem putTile_mon (t : Nat) (v : Tile) : (putTile t v s).mon = s.mon := rfl
@[simp] theorem putTile_pwr (t : Nat) (v : Tile) : (putTile t v s).pwr = s.pwr := rfl
@[simp] theorem putTile_weft (t : Nat) (v : Tile) : (putTile t v s).weft = s.weft := rfl
@[simp] theorem putTile_warp (t : Nat) (v : Tile) : (putTile t v s).warp = s.warp := rfl
@[simp] theorem putTile_jtag (t : Nat) (v : Tile) : (putTile t v s).jtag = s.jtag := rfl
@[simp] theorem putTile_wflight (t : Nat) (v : Tile) : (putTile t v s).wflight = s.wflight := rfl
@[simp] theorem putTile_fe (t : Nat) (v : Tile) : (putTile t v s).fe = s.fe := rfl
@[simp] theorem putTile_wc (t : Nat) (v : Tile) : (putTile t v s).wc = s.wc := rfl
@[simp] theorem putTile_bell (t : Nat) (v : Tile) : (putTile t v s).bell = s.bell := rfl
@[simp] theorem putTile_loft (t : Nat) (v : Tile) : (putTile t v s).loft = s.loft := rfl
@[simp] theorem putTile_esc (t : Nat) (v : Tile) : (putTile t v s).esc = s.esc := rfl
@[simp] theorem putTile_wtally (t : Nat) (v : Tile) : (putTile t v s).wtally = s.wtally := rfl
@[simp] theorem putTile_loom_clock (t : Nat) (v : Tile) : (putTile t v s).loom.clock = s.loom.clock := rfl
@[simp] theorem putTile_loom_draftAddr (t : Nat) (v : Tile) : (putTile t v s).loom.draftAddr = s.loom.draftAddr := rfl
@[simp] theorem putTile_loom_loadReg (t : Nat) (v : Tile) : (putTile t v s).loom.loadReg = s.loom.loadReg := rfl
@[simp] theorem putTile_loom_verify (t : Nat) (v : Tile) : (putTile t v s).loom.verify = s.loom.verify := rfl
@[simp] theorem putTile_loom_load (t : Nat) (v : Tile) : (putTile t v s).loom.load = s.loom.load := rfl
@[simp] theorem putTile_loom_drafts (t : Nat) (v : Tile) : (putTile t v s).loom.drafts = s.loom.drafts := rfl
@[simp] theorem putTile_loom_store (t : Nat) (v : Tile) : (putTile t v s).loom.store = s.loom.store := rfl
@[simp] theorem putTile_loom_storeUp (t : Nat) (v : Tile) : (putTile t v s).loom.storeUp = s.loom.storeUp := rfl
@[simp] theorem putTile_loom_pages (t : Nat) (v : Tile) : (putTile t v s).loom.pages = s.loom.pages := rfl
@[simp] theorem putTile_loom_tags (t : Nat) (v : Tile) : (putTile t v s).loom.tags = s.loom.tags := rfl
@[simp] theorem putTile_loom_breach (t : Nat) (v : Tile) : (putTile t v s).loom.breach = s.loom.breach := rfl
@[simp] theorem putTile_loom_weave (t : Nat) (v : Tile) : (putTile t v s).loom.weave = s.loom.weave := rfl
@[simp] theorem putTile_loom_parts (t : Nat) (v : Tile) : (putTile t v s).loom.parts = s.loom.parts := rfl
@[simp] theorem putTile_loom_partResult (t : Nat) (v : Tile) : (putTile t v s).loom.partResult = s.loom.partResult := rfl
@[simp] theorem putTile_loom_rings (t : Nat) (v : Tile) : (putTile t v s).loom.rings = s.loom.rings := rfl
@[simp] theorem putTile_loom_tenants (t : Nat) (v : Tile) : (putTile t v s).loom.tenants = s.loom.tenants := rfl
@[simp] theorem putTile_loom_now (t : Nat) (v : Tile) : (putTile t v s).loom.now = s.loom.now := rfl
@[simp] theorem putTile_loom_fetched (t : Nat) (v : Tile) : (putTile t v s).loom.fetched = s.loom.fetched := rfl
@[simp] theorem putTile_loom_reads (t : Nat) (v : Tile) : (putTile t v s).loom.reads = s.loom.reads := rfl
@[simp] theorem putTile_loom_nextTag (t : Nat) (v : Tile) : (putTile t v s).loom.nextTag = s.loom.nextTag := rfl
@[simp] theorem putTile_loom_rr (t : Nat) (v : Tile) : (putTile t v s).loom.rr = s.loom.rr := rfl
@[simp] theorem putTile_loom_order (t : Nat) (v : Tile) : (putTile t v s).loom.order = s.loom.order := rfl
@[simp] theorem putTile_loom_answeredAt (t : Nat) (v : Tile) : (putTile t v s).loom.answeredAt = s.loom.answeredAt := rfl
@[simp] theorem putTile_loom_jobs (t : Nat) (v : Tile) : (putTile t v s).loom.jobs = s.loom.jobs := rfl
@[simp] theorem putTile_loom_bookings (t : Nat) (v : Tile) : (putTile t v s).loom.bookings = s.loom.bookings := rfl
@[simp] theorem putTile_loom_moveBookings (t : Nat) (v : Tile) : (putTile t v s).loom.moveBookings = s.loom.moveBookings := rfl
@[simp] theorem putTile_loom_closes (t : Nat) (v : Tile) : (putTile t v s).loom.closes = s.loom.closes := rfl
@[simp] theorem putTile_loom_banks (t : Nat) (v : Tile) : (putTile t v s).loom.banks = s.loom.banks := rfl
@[simp] theorem putTile_loom_bankUp (t : Nat) (v : Tile) : (putTile t v s).loom.bankUp = s.loom.bankUp := rfl
@[simp] theorem putTile_loom_bankUse (t : Nat) (v : Tile) : (putTile t v s).loom.bankUse = s.loom.bankUse := rfl
@[simp] theorem putTile_loom_reelUse (t : Nat) (v : Tile) : (putTile t v s).loom.reelUse = s.loom.reelUse := rfl
@[simp] theorem putTile_loom_issued (t : Nat) (v : Tile) : (putTile t v s).loom.issued = s.loom.issued := rfl
@[simp] theorem putTile_loom_linkUse (t : Nat) (v : Tile) : (putTile t v s).loom.linkUse = s.loom.linkUse := rfl
@[simp] theorem putTile_loom_late (t : Nat) (v : Tile) : (putTile t v s).loom.late = s.loom.late := rfl
@[simp] theorem putTile_loom_failed (t : Nat) (v : Tile) : (putTile t v s).loom.failed = s.loom.failed := rfl
@[simp] theorem putTile_loom_tileErr (t : Nat) (v : Tile) : (putTile t v s).loom.tileErr = s.loom.tileErr := rfl
@[simp] theorem putTile_loom_flits (t : Nat) (v : Tile) : (putTile t v s).loom.flits = s.loom.flits := rfl
@[simp] theorem putTile_loom_engines (t : Nat) (v : Tile) : (putTile t v s).loom.engines = s.loom.engines := rfl
@[simp] theorem putTile_loom_kv (t : Nat) (v : Tile) : (putTile t v s).loom.kv = s.loom.kv := rfl
@[simp] theorem putTile_loom_kvUp (t : Nat) (v : Tile) : (putTile t v s).loom.kvUp = s.loom.kvUp := rfl
@[simp] theorem putTile_loom_seqs (t : Nat) (v : Tile) : (putTile t v s).loom.seqs = s.loom.seqs := rfl
@[simp] theorem putTile_loom_bobbin (t : Nat) (v : Tile) : (putTile t v s).loom.bobbin = s.loom.bobbin := rfl
@[simp] theorem putTile_loom_tallySel (t : Nat) (v : Tile) : (putTile t v s).loom.tallySel = s.loom.tallySel := rfl
@[simp] theorem putTile_loom_tally (t : Nat) (v : Tile) : (putTile t v s).loom.tally = s.loom.tally := rfl
@[simp] theorem putTile_loom_tallyLc (t : Nat) (v : Tile) : (putTile t v s).loom.tallyLc = s.loom.tallyLc := rfl
@[simp] theorem putTile_loom_tallyEvs (t : Nat) (v : Tile) : (putTile t v s).loom.tallyEvs = s.loom.tallyEvs := rfl
@[simp] theorem putTile_loom_tallyWas (t : Nat) (v : Tile) : (putTile t v s).loom.tallyWas = s.loom.tallyWas := rfl
@[simp] theorem putTile_loom_chain (t : Nat) (v : Tile) : (putTile t v s).loom.chain = s.loom.chain := rfl

/-! ## putSeq -/

@[simp] theorem putSeq_pending (q : Nat) (v : Seq) : (putSeq q v s).pending = s.pending := rfl
@[simp] theorem putSeq_free (q : Nat) (v : Seq) : (putSeq q v s).free = s.free := rfl
@[simp] theorem putSeq_clocks (q : Nat) (v : Seq) : (putSeq q v s).clocks = s.clocks := rfl
@[simp] theorem putSeq_alert (q : Nat) (v : Seq) : (putSeq q v s).alert = s.alert := rfl
@[simp] theorem putSeq_seen (q : Nat) (v : Seq) : (putSeq q v s).seen = s.seen := rfl
@[simp] theorem putSeq_port (q : Nat) (v : Seq) : (putSeq q v s).port = s.port := rfl
@[simp] theorem putSeq_keys (q : Nat) (v : Seq) : (putSeq q v s).keys = s.keys := rfl
@[simp] theorem putSeq_gran (q : Nat) (v : Seq) : (putSeq q v s).gran = s.gran := rfl
@[simp] theorem putSeq_mon (q : Nat) (v : Seq) : (putSeq q v s).mon = s.mon := rfl
@[simp] theorem putSeq_pwr (q : Nat) (v : Seq) : (putSeq q v s).pwr = s.pwr := rfl
@[simp] theorem putSeq_weft (q : Nat) (v : Seq) : (putSeq q v s).weft = s.weft := rfl
@[simp] theorem putSeq_warp (q : Nat) (v : Seq) : (putSeq q v s).warp = s.warp := rfl
@[simp] theorem putSeq_jtag (q : Nat) (v : Seq) : (putSeq q v s).jtag = s.jtag := rfl
@[simp] theorem putSeq_wflight (q : Nat) (v : Seq) : (putSeq q v s).wflight = s.wflight := rfl
@[simp] theorem putSeq_fe (q : Nat) (v : Seq) : (putSeq q v s).fe = s.fe := rfl
@[simp] theorem putSeq_wc (q : Nat) (v : Seq) : (putSeq q v s).wc = s.wc := rfl
@[simp] theorem putSeq_bell (q : Nat) (v : Seq) : (putSeq q v s).bell = s.bell := rfl
@[simp] theorem putSeq_loft (q : Nat) (v : Seq) : (putSeq q v s).loft = s.loft := rfl
@[simp] theorem putSeq_esc (q : Nat) (v : Seq) : (putSeq q v s).esc = s.esc := rfl
@[simp] theorem putSeq_wtally (q : Nat) (v : Seq) : (putSeq q v s).wtally = s.wtally := rfl
@[simp] theorem putSeq_loom_clock (q : Nat) (v : Seq) : (putSeq q v s).loom.clock = s.loom.clock := rfl
@[simp] theorem putSeq_loom_draftAddr (q : Nat) (v : Seq) : (putSeq q v s).loom.draftAddr = s.loom.draftAddr := rfl
@[simp] theorem putSeq_loom_loadReg (q : Nat) (v : Seq) : (putSeq q v s).loom.loadReg = s.loom.loadReg := rfl
@[simp] theorem putSeq_loom_verify (q : Nat) (v : Seq) : (putSeq q v s).loom.verify = s.loom.verify := rfl
@[simp] theorem putSeq_loom_load (q : Nat) (v : Seq) : (putSeq q v s).loom.load = s.loom.load := rfl
@[simp] theorem putSeq_loom_drafts (q : Nat) (v : Seq) : (putSeq q v s).loom.drafts = s.loom.drafts := rfl
@[simp] theorem putSeq_loom_store (q : Nat) (v : Seq) : (putSeq q v s).loom.store = s.loom.store := rfl
@[simp] theorem putSeq_loom_storeUp (q : Nat) (v : Seq) : (putSeq q v s).loom.storeUp = s.loom.storeUp := rfl
@[simp] theorem putSeq_loom_pages (q : Nat) (v : Seq) : (putSeq q v s).loom.pages = s.loom.pages := rfl
@[simp] theorem putSeq_loom_tags (q : Nat) (v : Seq) : (putSeq q v s).loom.tags = s.loom.tags := rfl
@[simp] theorem putSeq_loom_breach (q : Nat) (v : Seq) : (putSeq q v s).loom.breach = s.loom.breach := rfl
@[simp] theorem putSeq_loom_weave (q : Nat) (v : Seq) : (putSeq q v s).loom.weave = s.loom.weave := rfl
@[simp] theorem putSeq_loom_parts (q : Nat) (v : Seq) : (putSeq q v s).loom.parts = s.loom.parts := rfl
@[simp] theorem putSeq_loom_partResult (q : Nat) (v : Seq) : (putSeq q v s).loom.partResult = s.loom.partResult := rfl
@[simp] theorem putSeq_loom_rings (q : Nat) (v : Seq) : (putSeq q v s).loom.rings = s.loom.rings := rfl
@[simp] theorem putSeq_loom_tenants (q : Nat) (v : Seq) : (putSeq q v s).loom.tenants = s.loom.tenants := rfl
@[simp] theorem putSeq_loom_now (q : Nat) (v : Seq) : (putSeq q v s).loom.now = s.loom.now := rfl
@[simp] theorem putSeq_loom_fetched (q : Nat) (v : Seq) : (putSeq q v s).loom.fetched = s.loom.fetched := rfl
@[simp] theorem putSeq_loom_reads (q : Nat) (v : Seq) : (putSeq q v s).loom.reads = s.loom.reads := rfl
@[simp] theorem putSeq_loom_nextTag (q : Nat) (v : Seq) : (putSeq q v s).loom.nextTag = s.loom.nextTag := rfl
@[simp] theorem putSeq_loom_rr (q : Nat) (v : Seq) : (putSeq q v s).loom.rr = s.loom.rr := rfl
@[simp] theorem putSeq_loom_order (q : Nat) (v : Seq) : (putSeq q v s).loom.order = s.loom.order := rfl
@[simp] theorem putSeq_loom_answeredAt (q : Nat) (v : Seq) : (putSeq q v s).loom.answeredAt = s.loom.answeredAt := rfl
@[simp] theorem putSeq_loom_jobs (q : Nat) (v : Seq) : (putSeq q v s).loom.jobs = s.loom.jobs := rfl
@[simp] theorem putSeq_loom_bookings (q : Nat) (v : Seq) : (putSeq q v s).loom.bookings = s.loom.bookings := rfl
@[simp] theorem putSeq_loom_moveBookings (q : Nat) (v : Seq) : (putSeq q v s).loom.moveBookings = s.loom.moveBookings := rfl
@[simp] theorem putSeq_loom_closes (q : Nat) (v : Seq) : (putSeq q v s).loom.closes = s.loom.closes := rfl
@[simp] theorem putSeq_loom_tiles (q : Nat) (v : Seq) : (putSeq q v s).loom.tiles = s.loom.tiles := rfl
@[simp] theorem putSeq_loom_banks (q : Nat) (v : Seq) : (putSeq q v s).loom.banks = s.loom.banks := rfl
@[simp] theorem putSeq_loom_bankUp (q : Nat) (v : Seq) : (putSeq q v s).loom.bankUp = s.loom.bankUp := rfl
@[simp] theorem putSeq_loom_bankUse (q : Nat) (v : Seq) : (putSeq q v s).loom.bankUse = s.loom.bankUse := rfl
@[simp] theorem putSeq_loom_reelUse (q : Nat) (v : Seq) : (putSeq q v s).loom.reelUse = s.loom.reelUse := rfl
@[simp] theorem putSeq_loom_issued (q : Nat) (v : Seq) : (putSeq q v s).loom.issued = s.loom.issued := rfl
@[simp] theorem putSeq_loom_linkUse (q : Nat) (v : Seq) : (putSeq q v s).loom.linkUse = s.loom.linkUse := rfl
@[simp] theorem putSeq_loom_late (q : Nat) (v : Seq) : (putSeq q v s).loom.late = s.loom.late := rfl
@[simp] theorem putSeq_loom_failed (q : Nat) (v : Seq) : (putSeq q v s).loom.failed = s.loom.failed := rfl
@[simp] theorem putSeq_loom_tileErr (q : Nat) (v : Seq) : (putSeq q v s).loom.tileErr = s.loom.tileErr := rfl
@[simp] theorem putSeq_loom_flits (q : Nat) (v : Seq) : (putSeq q v s).loom.flits = s.loom.flits := rfl
@[simp] theorem putSeq_loom_engines (q : Nat) (v : Seq) : (putSeq q v s).loom.engines = s.loom.engines := rfl
@[simp] theorem putSeq_loom_kv (q : Nat) (v : Seq) : (putSeq q v s).loom.kv = s.loom.kv := rfl
@[simp] theorem putSeq_loom_kvUp (q : Nat) (v : Seq) : (putSeq q v s).loom.kvUp = s.loom.kvUp := rfl
@[simp] theorem putSeq_loom_bobbin (q : Nat) (v : Seq) : (putSeq q v s).loom.bobbin = s.loom.bobbin := rfl
@[simp] theorem putSeq_loom_tallySel (q : Nat) (v : Seq) : (putSeq q v s).loom.tallySel = s.loom.tallySel := rfl
@[simp] theorem putSeq_loom_tally (q : Nat) (v : Seq) : (putSeq q v s).loom.tally = s.loom.tally := rfl
@[simp] theorem putSeq_loom_tallyLc (q : Nat) (v : Seq) : (putSeq q v s).loom.tallyLc = s.loom.tallyLc := rfl
@[simp] theorem putSeq_loom_tallyEvs (q : Nat) (v : Seq) : (putSeq q v s).loom.tallyEvs = s.loom.tallyEvs := rfl
@[simp] theorem putSeq_loom_tallyWas (q : Nat) (v : Seq) : (putSeq q v s).loom.tallyWas = s.loom.tallyWas := rfl
@[simp] theorem putSeq_loom_chain (q : Nat) (v : Seq) : (putSeq q v s).loom.chain = s.loom.chain := rfl

/-! ## putEngine -/

@[simp] theorem putEngine_pending (r : Nat) (v : Engine) : (putEngine r v s).pending = s.pending := rfl
@[simp] theorem putEngine_free (r : Nat) (v : Engine) : (putEngine r v s).free = s.free := rfl
@[simp] theorem putEngine_clocks (r : Nat) (v : Engine) : (putEngine r v s).clocks = s.clocks := rfl
@[simp] theorem putEngine_alert (r : Nat) (v : Engine) : (putEngine r v s).alert = s.alert := rfl
@[simp] theorem putEngine_seen (r : Nat) (v : Engine) : (putEngine r v s).seen = s.seen := rfl
@[simp] theorem putEngine_port (r : Nat) (v : Engine) : (putEngine r v s).port = s.port := rfl
@[simp] theorem putEngine_keys (r : Nat) (v : Engine) : (putEngine r v s).keys = s.keys := rfl
@[simp] theorem putEngine_gran (r : Nat) (v : Engine) : (putEngine r v s).gran = s.gran := rfl
@[simp] theorem putEngine_mon (r : Nat) (v : Engine) : (putEngine r v s).mon = s.mon := rfl
@[simp] theorem putEngine_pwr (r : Nat) (v : Engine) : (putEngine r v s).pwr = s.pwr := rfl
@[simp] theorem putEngine_weft (r : Nat) (v : Engine) : (putEngine r v s).weft = s.weft := rfl
@[simp] theorem putEngine_warp (r : Nat) (v : Engine) : (putEngine r v s).warp = s.warp := rfl
@[simp] theorem putEngine_jtag (r : Nat) (v : Engine) : (putEngine r v s).jtag = s.jtag := rfl
@[simp] theorem putEngine_wflight (r : Nat) (v : Engine) : (putEngine r v s).wflight = s.wflight := rfl
@[simp] theorem putEngine_fe (r : Nat) (v : Engine) : (putEngine r v s).fe = s.fe := rfl
@[simp] theorem putEngine_wc (r : Nat) (v : Engine) : (putEngine r v s).wc = s.wc := rfl
@[simp] theorem putEngine_bell (r : Nat) (v : Engine) : (putEngine r v s).bell = s.bell := rfl
@[simp] theorem putEngine_loft (r : Nat) (v : Engine) : (putEngine r v s).loft = s.loft := rfl
@[simp] theorem putEngine_esc (r : Nat) (v : Engine) : (putEngine r v s).esc = s.esc := rfl
@[simp] theorem putEngine_wtally (r : Nat) (v : Engine) : (putEngine r v s).wtally = s.wtally := rfl
@[simp] theorem putEngine_loom_clock (r : Nat) (v : Engine) : (putEngine r v s).loom.clock = s.loom.clock := rfl
@[simp] theorem putEngine_loom_draftAddr (r : Nat) (v : Engine) : (putEngine r v s).loom.draftAddr = s.loom.draftAddr := rfl
@[simp] theorem putEngine_loom_loadReg (r : Nat) (v : Engine) : (putEngine r v s).loom.loadReg = s.loom.loadReg := rfl
@[simp] theorem putEngine_loom_verify (r : Nat) (v : Engine) : (putEngine r v s).loom.verify = s.loom.verify := rfl
@[simp] theorem putEngine_loom_load (r : Nat) (v : Engine) : (putEngine r v s).loom.load = s.loom.load := rfl
@[simp] theorem putEngine_loom_drafts (r : Nat) (v : Engine) : (putEngine r v s).loom.drafts = s.loom.drafts := rfl
@[simp] theorem putEngine_loom_store (r : Nat) (v : Engine) : (putEngine r v s).loom.store = s.loom.store := rfl
@[simp] theorem putEngine_loom_storeUp (r : Nat) (v : Engine) : (putEngine r v s).loom.storeUp = s.loom.storeUp := rfl
@[simp] theorem putEngine_loom_pages (r : Nat) (v : Engine) : (putEngine r v s).loom.pages = s.loom.pages := rfl
@[simp] theorem putEngine_loom_tags (r : Nat) (v : Engine) : (putEngine r v s).loom.tags = s.loom.tags := rfl
@[simp] theorem putEngine_loom_breach (r : Nat) (v : Engine) : (putEngine r v s).loom.breach = s.loom.breach := rfl
@[simp] theorem putEngine_loom_weave (r : Nat) (v : Engine) : (putEngine r v s).loom.weave = s.loom.weave := rfl
@[simp] theorem putEngine_loom_parts (r : Nat) (v : Engine) : (putEngine r v s).loom.parts = s.loom.parts := rfl
@[simp] theorem putEngine_loom_partResult (r : Nat) (v : Engine) : (putEngine r v s).loom.partResult = s.loom.partResult := rfl
@[simp] theorem putEngine_loom_rings (r : Nat) (v : Engine) : (putEngine r v s).loom.rings = s.loom.rings := rfl
@[simp] theorem putEngine_loom_tenants (r : Nat) (v : Engine) : (putEngine r v s).loom.tenants = s.loom.tenants := rfl
@[simp] theorem putEngine_loom_now (r : Nat) (v : Engine) : (putEngine r v s).loom.now = s.loom.now := rfl
@[simp] theorem putEngine_loom_fetched (r : Nat) (v : Engine) : (putEngine r v s).loom.fetched = s.loom.fetched := rfl
@[simp] theorem putEngine_loom_reads (r : Nat) (v : Engine) : (putEngine r v s).loom.reads = s.loom.reads := rfl
@[simp] theorem putEngine_loom_nextTag (r : Nat) (v : Engine) : (putEngine r v s).loom.nextTag = s.loom.nextTag := rfl
@[simp] theorem putEngine_loom_rr (r : Nat) (v : Engine) : (putEngine r v s).loom.rr = s.loom.rr := rfl
@[simp] theorem putEngine_loom_order (r : Nat) (v : Engine) : (putEngine r v s).loom.order = s.loom.order := rfl
@[simp] theorem putEngine_loom_answeredAt (r : Nat) (v : Engine) : (putEngine r v s).loom.answeredAt = s.loom.answeredAt := rfl
@[simp] theorem putEngine_loom_jobs (r : Nat) (v : Engine) : (putEngine r v s).loom.jobs = s.loom.jobs := rfl
@[simp] theorem putEngine_loom_bookings (r : Nat) (v : Engine) : (putEngine r v s).loom.bookings = s.loom.bookings := rfl
@[simp] theorem putEngine_loom_moveBookings (r : Nat) (v : Engine) : (putEngine r v s).loom.moveBookings = s.loom.moveBookings := rfl
@[simp] theorem putEngine_loom_closes (r : Nat) (v : Engine) : (putEngine r v s).loom.closes = s.loom.closes := rfl
@[simp] theorem putEngine_loom_tiles (r : Nat) (v : Engine) : (putEngine r v s).loom.tiles = s.loom.tiles := rfl
@[simp] theorem putEngine_loom_banks (r : Nat) (v : Engine) : (putEngine r v s).loom.banks = s.loom.banks := rfl
@[simp] theorem putEngine_loom_bankUp (r : Nat) (v : Engine) : (putEngine r v s).loom.bankUp = s.loom.bankUp := rfl
@[simp] theorem putEngine_loom_bankUse (r : Nat) (v : Engine) : (putEngine r v s).loom.bankUse = s.loom.bankUse := rfl
@[simp] theorem putEngine_loom_reelUse (r : Nat) (v : Engine) : (putEngine r v s).loom.reelUse = s.loom.reelUse := rfl
@[simp] theorem putEngine_loom_issued (r : Nat) (v : Engine) : (putEngine r v s).loom.issued = s.loom.issued := rfl
@[simp] theorem putEngine_loom_linkUse (r : Nat) (v : Engine) : (putEngine r v s).loom.linkUse = s.loom.linkUse := rfl
@[simp] theorem putEngine_loom_late (r : Nat) (v : Engine) : (putEngine r v s).loom.late = s.loom.late := rfl
@[simp] theorem putEngine_loom_failed (r : Nat) (v : Engine) : (putEngine r v s).loom.failed = s.loom.failed := rfl
@[simp] theorem putEngine_loom_tileErr (r : Nat) (v : Engine) : (putEngine r v s).loom.tileErr = s.loom.tileErr := rfl
@[simp] theorem putEngine_loom_flits (r : Nat) (v : Engine) : (putEngine r v s).loom.flits = s.loom.flits := rfl
@[simp] theorem putEngine_loom_kv (r : Nat) (v : Engine) : (putEngine r v s).loom.kv = s.loom.kv := rfl
@[simp] theorem putEngine_loom_kvUp (r : Nat) (v : Engine) : (putEngine r v s).loom.kvUp = s.loom.kvUp := rfl
@[simp] theorem putEngine_loom_seqs (r : Nat) (v : Engine) : (putEngine r v s).loom.seqs = s.loom.seqs := rfl
@[simp] theorem putEngine_loom_bobbin (r : Nat) (v : Engine) : (putEngine r v s).loom.bobbin = s.loom.bobbin := rfl
@[simp] theorem putEngine_loom_tallySel (r : Nat) (v : Engine) : (putEngine r v s).loom.tallySel = s.loom.tallySel := rfl
@[simp] theorem putEngine_loom_tally (r : Nat) (v : Engine) : (putEngine r v s).loom.tally = s.loom.tally := rfl
@[simp] theorem putEngine_loom_tallyLc (r : Nat) (v : Engine) : (putEngine r v s).loom.tallyLc = s.loom.tallyLc := rfl
@[simp] theorem putEngine_loom_tallyEvs (r : Nat) (v : Engine) : (putEngine r v s).loom.tallyEvs = s.loom.tallyEvs := rfl
@[simp] theorem putEngine_loom_tallyWas (r : Nat) (v : Engine) : (putEngine r v s).loom.tallyWas = s.loom.tallyWas := rfl
@[simp] theorem putEngine_loom_chain (r : Nat) (v : Engine) : (putEngine r v s).loom.chain = s.loom.chain := rfl

/-! ## onJobs -/

@[simp] theorem onJobs_pending (f : List Job → List Job) : (onJobs f s).pending = s.pending := rfl
@[simp] theorem onJobs_free (f : List Job → List Job) : (onJobs f s).free = s.free := rfl
@[simp] theorem onJobs_clocks (f : List Job → List Job) : (onJobs f s).clocks = s.clocks := rfl
@[simp] theorem onJobs_alert (f : List Job → List Job) : (onJobs f s).alert = s.alert := rfl
@[simp] theorem onJobs_seen (f : List Job → List Job) : (onJobs f s).seen = s.seen := rfl
@[simp] theorem onJobs_port (f : List Job → List Job) : (onJobs f s).port = s.port := rfl
@[simp] theorem onJobs_keys (f : List Job → List Job) : (onJobs f s).keys = s.keys := rfl
@[simp] theorem onJobs_gran (f : List Job → List Job) : (onJobs f s).gran = s.gran := rfl
@[simp] theorem onJobs_mon (f : List Job → List Job) : (onJobs f s).mon = s.mon := rfl
@[simp] theorem onJobs_pwr (f : List Job → List Job) : (onJobs f s).pwr = s.pwr := rfl
@[simp] theorem onJobs_weft (f : List Job → List Job) : (onJobs f s).weft = s.weft := rfl
@[simp] theorem onJobs_warp (f : List Job → List Job) : (onJobs f s).warp = s.warp := rfl
@[simp] theorem onJobs_jtag (f : List Job → List Job) : (onJobs f s).jtag = s.jtag := rfl
@[simp] theorem onJobs_wflight (f : List Job → List Job) : (onJobs f s).wflight = s.wflight := rfl
@[simp] theorem onJobs_fe (f : List Job → List Job) : (onJobs f s).fe = s.fe := rfl
@[simp] theorem onJobs_wc (f : List Job → List Job) : (onJobs f s).wc = s.wc := rfl
@[simp] theorem onJobs_bell (f : List Job → List Job) : (onJobs f s).bell = s.bell := rfl
@[simp] theorem onJobs_loft (f : List Job → List Job) : (onJobs f s).loft = s.loft := rfl
@[simp] theorem onJobs_esc (f : List Job → List Job) : (onJobs f s).esc = s.esc := rfl
@[simp] theorem onJobs_wtally (f : List Job → List Job) : (onJobs f s).wtally = s.wtally := rfl
@[simp] theorem onJobs_loom_clock (f : List Job → List Job) : (onJobs f s).loom.clock = s.loom.clock := rfl
@[simp] theorem onJobs_loom_draftAddr (f : List Job → List Job) : (onJobs f s).loom.draftAddr = s.loom.draftAddr := rfl
@[simp] theorem onJobs_loom_loadReg (f : List Job → List Job) : (onJobs f s).loom.loadReg = s.loom.loadReg := rfl
@[simp] theorem onJobs_loom_verify (f : List Job → List Job) : (onJobs f s).loom.verify = s.loom.verify := rfl
@[simp] theorem onJobs_loom_load (f : List Job → List Job) : (onJobs f s).loom.load = s.loom.load := rfl
@[simp] theorem onJobs_loom_drafts (f : List Job → List Job) : (onJobs f s).loom.drafts = s.loom.drafts := rfl
@[simp] theorem onJobs_loom_store (f : List Job → List Job) : (onJobs f s).loom.store = s.loom.store := rfl
@[simp] theorem onJobs_loom_storeUp (f : List Job → List Job) : (onJobs f s).loom.storeUp = s.loom.storeUp := rfl
@[simp] theorem onJobs_loom_pages (f : List Job → List Job) : (onJobs f s).loom.pages = s.loom.pages := rfl
@[simp] theorem onJobs_loom_tags (f : List Job → List Job) : (onJobs f s).loom.tags = s.loom.tags := rfl
@[simp] theorem onJobs_loom_breach (f : List Job → List Job) : (onJobs f s).loom.breach = s.loom.breach := rfl
@[simp] theorem onJobs_loom_weave (f : List Job → List Job) : (onJobs f s).loom.weave = s.loom.weave := rfl
@[simp] theorem onJobs_loom_parts (f : List Job → List Job) : (onJobs f s).loom.parts = s.loom.parts := rfl
@[simp] theorem onJobs_loom_partResult (f : List Job → List Job) : (onJobs f s).loom.partResult = s.loom.partResult := rfl
@[simp] theorem onJobs_loom_rings (f : List Job → List Job) : (onJobs f s).loom.rings = s.loom.rings := rfl
@[simp] theorem onJobs_loom_tenants (f : List Job → List Job) : (onJobs f s).loom.tenants = s.loom.tenants := rfl
@[simp] theorem onJobs_loom_now (f : List Job → List Job) : (onJobs f s).loom.now = s.loom.now := rfl
@[simp] theorem onJobs_loom_fetched (f : List Job → List Job) : (onJobs f s).loom.fetched = s.loom.fetched := rfl
@[simp] theorem onJobs_loom_reads (f : List Job → List Job) : (onJobs f s).loom.reads = s.loom.reads := rfl
@[simp] theorem onJobs_loom_nextTag (f : List Job → List Job) : (onJobs f s).loom.nextTag = s.loom.nextTag := rfl
@[simp] theorem onJobs_loom_rr (f : List Job → List Job) : (onJobs f s).loom.rr = s.loom.rr := rfl
@[simp] theorem onJobs_loom_order (f : List Job → List Job) : (onJobs f s).loom.order = s.loom.order := rfl
@[simp] theorem onJobs_loom_answeredAt (f : List Job → List Job) : (onJobs f s).loom.answeredAt = s.loom.answeredAt := rfl
@[simp] theorem onJobs_loom_bookings (f : List Job → List Job) : (onJobs f s).loom.bookings = s.loom.bookings := rfl
@[simp] theorem onJobs_loom_moveBookings (f : List Job → List Job) : (onJobs f s).loom.moveBookings = s.loom.moveBookings := rfl
@[simp] theorem onJobs_loom_closes (f : List Job → List Job) : (onJobs f s).loom.closes = s.loom.closes := rfl
@[simp] theorem onJobs_loom_tiles (f : List Job → List Job) : (onJobs f s).loom.tiles = s.loom.tiles := rfl
@[simp] theorem onJobs_loom_banks (f : List Job → List Job) : (onJobs f s).loom.banks = s.loom.banks := rfl
@[simp] theorem onJobs_loom_bankUp (f : List Job → List Job) : (onJobs f s).loom.bankUp = s.loom.bankUp := rfl
@[simp] theorem onJobs_loom_bankUse (f : List Job → List Job) : (onJobs f s).loom.bankUse = s.loom.bankUse := rfl
@[simp] theorem onJobs_loom_reelUse (f : List Job → List Job) : (onJobs f s).loom.reelUse = s.loom.reelUse := rfl
@[simp] theorem onJobs_loom_issued (f : List Job → List Job) : (onJobs f s).loom.issued = s.loom.issued := rfl
@[simp] theorem onJobs_loom_linkUse (f : List Job → List Job) : (onJobs f s).loom.linkUse = s.loom.linkUse := rfl
@[simp] theorem onJobs_loom_late (f : List Job → List Job) : (onJobs f s).loom.late = s.loom.late := rfl
@[simp] theorem onJobs_loom_failed (f : List Job → List Job) : (onJobs f s).loom.failed = s.loom.failed := rfl
@[simp] theorem onJobs_loom_tileErr (f : List Job → List Job) : (onJobs f s).loom.tileErr = s.loom.tileErr := rfl
@[simp] theorem onJobs_loom_flits (f : List Job → List Job) : (onJobs f s).loom.flits = s.loom.flits := rfl
@[simp] theorem onJobs_loom_engines (f : List Job → List Job) : (onJobs f s).loom.engines = s.loom.engines := rfl
@[simp] theorem onJobs_loom_kv (f : List Job → List Job) : (onJobs f s).loom.kv = s.loom.kv := rfl
@[simp] theorem onJobs_loom_kvUp (f : List Job → List Job) : (onJobs f s).loom.kvUp = s.loom.kvUp := rfl
@[simp] theorem onJobs_loom_seqs (f : List Job → List Job) : (onJobs f s).loom.seqs = s.loom.seqs := rfl
@[simp] theorem onJobs_loom_bobbin (f : List Job → List Job) : (onJobs f s).loom.bobbin = s.loom.bobbin := rfl
@[simp] theorem onJobs_loom_tallySel (f : List Job → List Job) : (onJobs f s).loom.tallySel = s.loom.tallySel := rfl
@[simp] theorem onJobs_loom_tally (f : List Job → List Job) : (onJobs f s).loom.tally = s.loom.tally := rfl
@[simp] theorem onJobs_loom_tallyLc (f : List Job → List Job) : (onJobs f s).loom.tallyLc = s.loom.tallyLc := rfl
@[simp] theorem onJobs_loom_tallyEvs (f : List Job → List Job) : (onJobs f s).loom.tallyEvs = s.loom.tallyEvs := rfl
@[simp] theorem onJobs_loom_tallyWas (f : List Job → List Job) : (onJobs f s).loom.tallyWas = s.loom.tallyWas := rfl
@[simp] theorem onJobs_loom_chain (f : List Job → List Job) : (onJobs f s).loom.chain = s.loom.chain := rfl
@[simp] theorem onJobs_at (f : List Job → List Job) : (onJobs f s).loom.jobs = f s.loom.jobs := rfl

/-! ## onClock -/

@[simp] theorem onClock_pending (f : ClockState → ClockState) : (onClock f s).pending = s.pending := rfl
@[simp] theorem onClock_free (f : ClockState → ClockState) : (onClock f s).free = s.free := rfl
@[simp] theorem onClock_clocks (f : ClockState → ClockState) : (onClock f s).clocks = s.clocks := rfl
@[simp] theorem onClock_alert (f : ClockState → ClockState) : (onClock f s).alert = s.alert := rfl
@[simp] theorem onClock_seen (f : ClockState → ClockState) : (onClock f s).seen = s.seen := rfl
@[simp] theorem onClock_port (f : ClockState → ClockState) : (onClock f s).port = s.port := rfl
@[simp] theorem onClock_keys (f : ClockState → ClockState) : (onClock f s).keys = s.keys := rfl
@[simp] theorem onClock_gran (f : ClockState → ClockState) : (onClock f s).gran = s.gran := rfl
@[simp] theorem onClock_mon (f : ClockState → ClockState) : (onClock f s).mon = s.mon := rfl
@[simp] theorem onClock_pwr (f : ClockState → ClockState) : (onClock f s).pwr = s.pwr := rfl
@[simp] theorem onClock_weft (f : ClockState → ClockState) : (onClock f s).weft = s.weft := rfl
@[simp] theorem onClock_warp (f : ClockState → ClockState) : (onClock f s).warp = s.warp := rfl
@[simp] theorem onClock_jtag (f : ClockState → ClockState) : (onClock f s).jtag = s.jtag := rfl
@[simp] theorem onClock_wflight (f : ClockState → ClockState) : (onClock f s).wflight = s.wflight := rfl
@[simp] theorem onClock_fe (f : ClockState → ClockState) : (onClock f s).fe = s.fe := rfl
@[simp] theorem onClock_wc (f : ClockState → ClockState) : (onClock f s).wc = s.wc := rfl
@[simp] theorem onClock_bell (f : ClockState → ClockState) : (onClock f s).bell = s.bell := rfl
@[simp] theorem onClock_loft (f : ClockState → ClockState) : (onClock f s).loft = s.loft := rfl
@[simp] theorem onClock_esc (f : ClockState → ClockState) : (onClock f s).esc = s.esc := rfl
@[simp] theorem onClock_wtally (f : ClockState → ClockState) : (onClock f s).wtally = s.wtally := rfl
@[simp] theorem onClock_loom_draftAddr (f : ClockState → ClockState) : (onClock f s).loom.draftAddr = s.loom.draftAddr := rfl
@[simp] theorem onClock_loom_loadReg (f : ClockState → ClockState) : (onClock f s).loom.loadReg = s.loom.loadReg := rfl
@[simp] theorem onClock_loom_verify (f : ClockState → ClockState) : (onClock f s).loom.verify = s.loom.verify := rfl
@[simp] theorem onClock_loom_load (f : ClockState → ClockState) : (onClock f s).loom.load = s.loom.load := rfl
@[simp] theorem onClock_loom_drafts (f : ClockState → ClockState) : (onClock f s).loom.drafts = s.loom.drafts := rfl
@[simp] theorem onClock_loom_store (f : ClockState → ClockState) : (onClock f s).loom.store = s.loom.store := rfl
@[simp] theorem onClock_loom_storeUp (f : ClockState → ClockState) : (onClock f s).loom.storeUp = s.loom.storeUp := rfl
@[simp] theorem onClock_loom_pages (f : ClockState → ClockState) : (onClock f s).loom.pages = s.loom.pages := rfl
@[simp] theorem onClock_loom_tags (f : ClockState → ClockState) : (onClock f s).loom.tags = s.loom.tags := rfl
@[simp] theorem onClock_loom_breach (f : ClockState → ClockState) : (onClock f s).loom.breach = s.loom.breach := rfl
@[simp] theorem onClock_loom_weave (f : ClockState → ClockState) : (onClock f s).loom.weave = s.loom.weave := rfl
@[simp] theorem onClock_loom_parts (f : ClockState → ClockState) : (onClock f s).loom.parts = s.loom.parts := rfl
@[simp] theorem onClock_loom_partResult (f : ClockState → ClockState) : (onClock f s).loom.partResult = s.loom.partResult := rfl
@[simp] theorem onClock_loom_rings (f : ClockState → ClockState) : (onClock f s).loom.rings = s.loom.rings := rfl
@[simp] theorem onClock_loom_tenants (f : ClockState → ClockState) : (onClock f s).loom.tenants = s.loom.tenants := rfl
@[simp] theorem onClock_loom_now (f : ClockState → ClockState) : (onClock f s).loom.now = s.loom.now := rfl
@[simp] theorem onClock_loom_fetched (f : ClockState → ClockState) : (onClock f s).loom.fetched = s.loom.fetched := rfl
@[simp] theorem onClock_loom_reads (f : ClockState → ClockState) : (onClock f s).loom.reads = s.loom.reads := rfl
@[simp] theorem onClock_loom_nextTag (f : ClockState → ClockState) : (onClock f s).loom.nextTag = s.loom.nextTag := rfl
@[simp] theorem onClock_loom_rr (f : ClockState → ClockState) : (onClock f s).loom.rr = s.loom.rr := rfl
@[simp] theorem onClock_loom_order (f : ClockState → ClockState) : (onClock f s).loom.order = s.loom.order := rfl
@[simp] theorem onClock_loom_answeredAt (f : ClockState → ClockState) : (onClock f s).loom.answeredAt = s.loom.answeredAt := rfl
@[simp] theorem onClock_loom_jobs (f : ClockState → ClockState) : (onClock f s).loom.jobs = s.loom.jobs := rfl
@[simp] theorem onClock_loom_bookings (f : ClockState → ClockState) : (onClock f s).loom.bookings = s.loom.bookings := rfl
@[simp] theorem onClock_loom_moveBookings (f : ClockState → ClockState) : (onClock f s).loom.moveBookings = s.loom.moveBookings := rfl
@[simp] theorem onClock_loom_closes (f : ClockState → ClockState) : (onClock f s).loom.closes = s.loom.closes := rfl
@[simp] theorem onClock_loom_tiles (f : ClockState → ClockState) : (onClock f s).loom.tiles = s.loom.tiles := rfl
@[simp] theorem onClock_loom_banks (f : ClockState → ClockState) : (onClock f s).loom.banks = s.loom.banks := rfl
@[simp] theorem onClock_loom_bankUp (f : ClockState → ClockState) : (onClock f s).loom.bankUp = s.loom.bankUp := rfl
@[simp] theorem onClock_loom_bankUse (f : ClockState → ClockState) : (onClock f s).loom.bankUse = s.loom.bankUse := rfl
@[simp] theorem onClock_loom_reelUse (f : ClockState → ClockState) : (onClock f s).loom.reelUse = s.loom.reelUse := rfl
@[simp] theorem onClock_loom_issued (f : ClockState → ClockState) : (onClock f s).loom.issued = s.loom.issued := rfl
@[simp] theorem onClock_loom_linkUse (f : ClockState → ClockState) : (onClock f s).loom.linkUse = s.loom.linkUse := rfl
@[simp] theorem onClock_loom_late (f : ClockState → ClockState) : (onClock f s).loom.late = s.loom.late := rfl
@[simp] theorem onClock_loom_failed (f : ClockState → ClockState) : (onClock f s).loom.failed = s.loom.failed := rfl
@[simp] theorem onClock_loom_tileErr (f : ClockState → ClockState) : (onClock f s).loom.tileErr = s.loom.tileErr := rfl
@[simp] theorem onClock_loom_flits (f : ClockState → ClockState) : (onClock f s).loom.flits = s.loom.flits := rfl
@[simp] theorem onClock_loom_engines (f : ClockState → ClockState) : (onClock f s).loom.engines = s.loom.engines := rfl
@[simp] theorem onClock_loom_kv (f : ClockState → ClockState) : (onClock f s).loom.kv = s.loom.kv := rfl
@[simp] theorem onClock_loom_kvUp (f : ClockState → ClockState) : (onClock f s).loom.kvUp = s.loom.kvUp := rfl
@[simp] theorem onClock_loom_seqs (f : ClockState → ClockState) : (onClock f s).loom.seqs = s.loom.seqs := rfl
@[simp] theorem onClock_loom_bobbin (f : ClockState → ClockState) : (onClock f s).loom.bobbin = s.loom.bobbin := rfl
@[simp] theorem onClock_loom_tallySel (f : ClockState → ClockState) : (onClock f s).loom.tallySel = s.loom.tallySel := rfl
@[simp] theorem onClock_loom_tally (f : ClockState → ClockState) : (onClock f s).loom.tally = s.loom.tally := rfl
@[simp] theorem onClock_loom_tallyLc (f : ClockState → ClockState) : (onClock f s).loom.tallyLc = s.loom.tallyLc := rfl
@[simp] theorem onClock_loom_tallyEvs (f : ClockState → ClockState) : (onClock f s).loom.tallyEvs = s.loom.tallyEvs := rfl
@[simp] theorem onClock_loom_tallyWas (f : ClockState → ClockState) : (onClock f s).loom.tallyWas = s.loom.tallyWas := rfl
@[simp] theorem onClock_loom_chain (f : ClockState → ClockState) : (onClock f s).loom.chain = s.loom.chain := rfl
@[simp] theorem onClock_at (f : ClockState → ClockState) : (onClock f s).loom.clock = f s.loom.clock := rfl

/-! ## onWeave -/

@[simp] theorem onWeave_pending (f : Weave → Weave) : (onWeave f s).pending = s.pending := rfl
@[simp] theorem onWeave_free (f : Weave → Weave) : (onWeave f s).free = s.free := rfl
@[simp] theorem onWeave_clocks (f : Weave → Weave) : (onWeave f s).clocks = s.clocks := rfl
@[simp] theorem onWeave_alert (f : Weave → Weave) : (onWeave f s).alert = s.alert := rfl
@[simp] theorem onWeave_seen (f : Weave → Weave) : (onWeave f s).seen = s.seen := rfl
@[simp] theorem onWeave_port (f : Weave → Weave) : (onWeave f s).port = s.port := rfl
@[simp] theorem onWeave_keys (f : Weave → Weave) : (onWeave f s).keys = s.keys := rfl
@[simp] theorem onWeave_gran (f : Weave → Weave) : (onWeave f s).gran = s.gran := rfl
@[simp] theorem onWeave_mon (f : Weave → Weave) : (onWeave f s).mon = s.mon := rfl
@[simp] theorem onWeave_pwr (f : Weave → Weave) : (onWeave f s).pwr = s.pwr := rfl
@[simp] theorem onWeave_weft (f : Weave → Weave) : (onWeave f s).weft = s.weft := rfl
@[simp] theorem onWeave_warp (f : Weave → Weave) : (onWeave f s).warp = s.warp := rfl
@[simp] theorem onWeave_jtag (f : Weave → Weave) : (onWeave f s).jtag = s.jtag := rfl
@[simp] theorem onWeave_wflight (f : Weave → Weave) : (onWeave f s).wflight = s.wflight := rfl
@[simp] theorem onWeave_fe (f : Weave → Weave) : (onWeave f s).fe = s.fe := rfl
@[simp] theorem onWeave_wc (f : Weave → Weave) : (onWeave f s).wc = s.wc := rfl
@[simp] theorem onWeave_bell (f : Weave → Weave) : (onWeave f s).bell = s.bell := rfl
@[simp] theorem onWeave_loft (f : Weave → Weave) : (onWeave f s).loft = s.loft := rfl
@[simp] theorem onWeave_esc (f : Weave → Weave) : (onWeave f s).esc = s.esc := rfl
@[simp] theorem onWeave_wtally (f : Weave → Weave) : (onWeave f s).wtally = s.wtally := rfl
@[simp] theorem onWeave_loom_clock (f : Weave → Weave) : (onWeave f s).loom.clock = s.loom.clock := rfl
@[simp] theorem onWeave_loom_draftAddr (f : Weave → Weave) : (onWeave f s).loom.draftAddr = s.loom.draftAddr := rfl
@[simp] theorem onWeave_loom_loadReg (f : Weave → Weave) : (onWeave f s).loom.loadReg = s.loom.loadReg := rfl
@[simp] theorem onWeave_loom_verify (f : Weave → Weave) : (onWeave f s).loom.verify = s.loom.verify := rfl
@[simp] theorem onWeave_loom_load (f : Weave → Weave) : (onWeave f s).loom.load = s.loom.load := rfl
@[simp] theorem onWeave_loom_drafts (f : Weave → Weave) : (onWeave f s).loom.drafts = s.loom.drafts := rfl
@[simp] theorem onWeave_loom_store (f : Weave → Weave) : (onWeave f s).loom.store = s.loom.store := rfl
@[simp] theorem onWeave_loom_storeUp (f : Weave → Weave) : (onWeave f s).loom.storeUp = s.loom.storeUp := rfl
@[simp] theorem onWeave_loom_pages (f : Weave → Weave) : (onWeave f s).loom.pages = s.loom.pages := rfl
@[simp] theorem onWeave_loom_tags (f : Weave → Weave) : (onWeave f s).loom.tags = s.loom.tags := rfl
@[simp] theorem onWeave_loom_breach (f : Weave → Weave) : (onWeave f s).loom.breach = s.loom.breach := rfl
@[simp] theorem onWeave_loom_parts (f : Weave → Weave) : (onWeave f s).loom.parts = s.loom.parts := rfl
@[simp] theorem onWeave_loom_partResult (f : Weave → Weave) : (onWeave f s).loom.partResult = s.loom.partResult := rfl
@[simp] theorem onWeave_loom_rings (f : Weave → Weave) : (onWeave f s).loom.rings = s.loom.rings := rfl
@[simp] theorem onWeave_loom_tenants (f : Weave → Weave) : (onWeave f s).loom.tenants = s.loom.tenants := rfl
@[simp] theorem onWeave_loom_now (f : Weave → Weave) : (onWeave f s).loom.now = s.loom.now := rfl
@[simp] theorem onWeave_loom_fetched (f : Weave → Weave) : (onWeave f s).loom.fetched = s.loom.fetched := rfl
@[simp] theorem onWeave_loom_reads (f : Weave → Weave) : (onWeave f s).loom.reads = s.loom.reads := rfl
@[simp] theorem onWeave_loom_nextTag (f : Weave → Weave) : (onWeave f s).loom.nextTag = s.loom.nextTag := rfl
@[simp] theorem onWeave_loom_rr (f : Weave → Weave) : (onWeave f s).loom.rr = s.loom.rr := rfl
@[simp] theorem onWeave_loom_order (f : Weave → Weave) : (onWeave f s).loom.order = s.loom.order := rfl
@[simp] theorem onWeave_loom_answeredAt (f : Weave → Weave) : (onWeave f s).loom.answeredAt = s.loom.answeredAt := rfl
@[simp] theorem onWeave_loom_jobs (f : Weave → Weave) : (onWeave f s).loom.jobs = s.loom.jobs := rfl
@[simp] theorem onWeave_loom_bookings (f : Weave → Weave) : (onWeave f s).loom.bookings = s.loom.bookings := rfl
@[simp] theorem onWeave_loom_moveBookings (f : Weave → Weave) : (onWeave f s).loom.moveBookings = s.loom.moveBookings := rfl
@[simp] theorem onWeave_loom_closes (f : Weave → Weave) : (onWeave f s).loom.closes = s.loom.closes := rfl
@[simp] theorem onWeave_loom_tiles (f : Weave → Weave) : (onWeave f s).loom.tiles = s.loom.tiles := rfl
@[simp] theorem onWeave_loom_banks (f : Weave → Weave) : (onWeave f s).loom.banks = s.loom.banks := rfl
@[simp] theorem onWeave_loom_bankUp (f : Weave → Weave) : (onWeave f s).loom.bankUp = s.loom.bankUp := rfl
@[simp] theorem onWeave_loom_bankUse (f : Weave → Weave) : (onWeave f s).loom.bankUse = s.loom.bankUse := rfl
@[simp] theorem onWeave_loom_reelUse (f : Weave → Weave) : (onWeave f s).loom.reelUse = s.loom.reelUse := rfl
@[simp] theorem onWeave_loom_issued (f : Weave → Weave) : (onWeave f s).loom.issued = s.loom.issued := rfl
@[simp] theorem onWeave_loom_linkUse (f : Weave → Weave) : (onWeave f s).loom.linkUse = s.loom.linkUse := rfl
@[simp] theorem onWeave_loom_late (f : Weave → Weave) : (onWeave f s).loom.late = s.loom.late := rfl
@[simp] theorem onWeave_loom_failed (f : Weave → Weave) : (onWeave f s).loom.failed = s.loom.failed := rfl
@[simp] theorem onWeave_loom_tileErr (f : Weave → Weave) : (onWeave f s).loom.tileErr = s.loom.tileErr := rfl
@[simp] theorem onWeave_loom_flits (f : Weave → Weave) : (onWeave f s).loom.flits = s.loom.flits := rfl
@[simp] theorem onWeave_loom_engines (f : Weave → Weave) : (onWeave f s).loom.engines = s.loom.engines := rfl
@[simp] theorem onWeave_loom_kv (f : Weave → Weave) : (onWeave f s).loom.kv = s.loom.kv := rfl
@[simp] theorem onWeave_loom_kvUp (f : Weave → Weave) : (onWeave f s).loom.kvUp = s.loom.kvUp := rfl
@[simp] theorem onWeave_loom_seqs (f : Weave → Weave) : (onWeave f s).loom.seqs = s.loom.seqs := rfl
@[simp] theorem onWeave_loom_bobbin (f : Weave → Weave) : (onWeave f s).loom.bobbin = s.loom.bobbin := rfl
@[simp] theorem onWeave_loom_tallySel (f : Weave → Weave) : (onWeave f s).loom.tallySel = s.loom.tallySel := rfl
@[simp] theorem onWeave_loom_tally (f : Weave → Weave) : (onWeave f s).loom.tally = s.loom.tally := rfl
@[simp] theorem onWeave_loom_tallyLc (f : Weave → Weave) : (onWeave f s).loom.tallyLc = s.loom.tallyLc := rfl
@[simp] theorem onWeave_loom_tallyEvs (f : Weave → Weave) : (onWeave f s).loom.tallyEvs = s.loom.tallyEvs := rfl
@[simp] theorem onWeave_loom_tallyWas (f : Weave → Weave) : (onWeave f s).loom.tallyWas = s.loom.tallyWas := rfl
@[simp] theorem onWeave_loom_chain (f : Weave → Weave) : (onWeave f s).loom.chain = s.loom.chain := rfl
@[simp] theorem onWeave_at (f : Weave → Weave) : (onWeave f s).loom.weave = f s.loom.weave := rfl

/-! ## settle -/

@[simp] theorem settle_pending : (settle s s').pending = s'.pending := rfl
@[simp] theorem settle_free : (settle s s').free = s'.free := rfl
@[simp] theorem settle_clocks : (settle s s').clocks = s'.clocks := rfl
@[simp] theorem settle_alert : (settle s s').alert = s'.alert := rfl
@[simp] theorem settle_port : (settle s s').port = s'.port := rfl
@[simp] theorem settle_keys : (settle s s').keys = s'.keys := rfl
@[simp] theorem settle_gran : (settle s s').gran = s'.gran := rfl
@[simp] theorem settle_mon : (settle s s').mon = s'.mon := rfl
@[simp] theorem settle_pwr : (settle s s').pwr = s'.pwr := rfl
@[simp] theorem settle_weft : (settle s s').weft = s'.weft := rfl
@[simp] theorem settle_warp : (settle s s').warp = s'.warp := rfl
@[simp] theorem settle_jtag : (settle s s').jtag = s'.jtag := rfl
@[simp] theorem settle_wflight : (settle s s').wflight = s'.wflight := rfl
@[simp] theorem settle_fe : (settle s s').fe = s'.fe := rfl
@[simp] theorem settle_wc : (settle s s').wc = s'.wc := rfl
@[simp] theorem settle_bell : (settle s s').bell = s'.bell := rfl
@[simp] theorem settle_loft : (settle s s').loft = s'.loft := rfl
@[simp] theorem settle_esc : (settle s s').esc = s'.esc := rfl
@[simp] theorem settle_wtally : (settle s s').wtally = s'.wtally := rfl
@[simp] theorem settle_loom : (settle s s').loom = s'.loom := rfl

/-! ## Reads of a table after a write of it -/

@[simp] theorem weftOf_putWeft_same (i : Nat) (v : WeftModule) : weftOf (putWeft i v s) i = v := sget_sput_same _ _ _ _
theorem weftOf_putWeft_other (i j : Nat) (v : WeftModule) (h : i ≠ j) : weftOf (putWeft i v s) j = weftOf s j := sget_sput_other _ _ _ h
@[simp] theorem warpOf_putWarp_same (i : Nat) (v : WarpModule) : warpOf (putWarp i v s) i = v := sget_sput_same _ _ _ _
theorem warpOf_putWarp_other (i j : Nat) (v : WarpModule) (h : i ≠ j) : warpOf (putWarp i v s) j = warpOf s j := sget_sput_other _ _ _ h
@[simp] theorem ringOf_putRing_same (i : Nat) (v : Ring) : ringOf (putRing i v s) i = v := sget_sput_same _ _ _ _
theorem ringOf_putRing_other (i j : Nat) (v : Ring) (h : i ≠ j) : ringOf (putRing i v s) j = ringOf s j := sget_sput_other _ _ _ h
@[simp] theorem tenantOf_putTenant_same (i : Nat) (v : Tenant) : tenantOf (putTenant i v s) i = v := sget_sput_same _ _ _ _
theorem tenantOf_putTenant_other (i j : Nat) (v : Tenant) (h : i ≠ j) : tenantOf (putTenant i v s) j = tenantOf s j := sget_sput_other _ _ _ h
@[simp] theorem draftOf_putDraft_same (i : Nat) (v : Draft) : draftOf (putDraft i v s) i = v := sget_sput_same _ _ _ _
theorem draftOf_putDraft_other (i j : Nat) (v : Draft) (h : i ≠ j) : draftOf (putDraft i v s) j = draftOf s j := sget_sput_other _ _ _ h
@[simp] theorem tileOf_putTile_same (i : Nat) (v : Tile) : tileOf (putTile i v s) i = v := sget_sput_same _ _ _ _
theorem tileOf_putTile_other (i j : Nat) (v : Tile) (h : i ≠ j) : tileOf (putTile i v s) j = tileOf s j := sget_sput_other _ _ _ h
@[simp] theorem seqOf_putSeq_same (i : Nat) (v : Seq) : seqOf (putSeq i v s) i = v := sget_sput_same _ _ _ _
theorem seqOf_putSeq_other (i j : Nat) (v : Seq) (h : i ≠ j) : seqOf (putSeq i v s) j = seqOf s j := sget_sput_other _ _ _ h
@[simp] theorem engineOf_putEngine_same (i : Nat) (v : Engine) : engineOf (putEngine i v s) i = v := sget_sput_same _ _ _ _
theorem engineOf_putEngine_other (i j : Nat) (v : Engine) (h : i ≠ j) : engineOf (putEngine i v s) j = engineOf s j := sget_sput_other _ _ _ h

end Sys2Proof.Machine
end

