-- ==== Sys2Proof/Laws/Gate.lean ====
section
/-!
SUPPORT. What every command's answer is, and what a frame from an idle port does before its own effect.
-/

namespace Sys2Proof.Machine

/-- A command whose meaning is `fin` answers the settled effect while POR does not hold. -/
theorem Answers.of_fin {c : Instr} {s e : State} {P : State → Prop} (hl : Live s) (h : exec c s = fin s e)
    (hp : P (settle s e)) : Answers c s P := ⟨settle s e, by rw [h]; unfold fin; rw [if_neg (by rw [hl]; simp)], hp⟩

theorem fin_por {s : State} (e : State) (h : s.mon.por = true) : fin s e = .next s := if_pos h

theorem fin_live {s : State} (e : State) (h : Live s) : fin s e = .next (settle s e) := if_neg (by rw [h]; simp)

theorem next_of_fin {c : Instr} {s : State} (e : State) (h : exec c s = fin s e) (hl : Live s) : exec c s = .next (settle s e) :=
  h.trans (fin_live e hl)

/-- A frame from an idle port only sets its short-frame flag. -/
theorem beginFrame_quiet {s : State} (h : PortQuiet s) : beginFrame s = onPort (fun p => { p with shortFlag := true }) s := by
  obtain ⟨_, _, h3, h4, _⟩ := h
  have : publishHeld s = s := by simp [publishHeld, h4]
  unfold beginFrame
  simp only [this, h3]
  rfl

/-- Edges count for nothing while no lockout runs (R99). -/
theorem tick_unlocked (n : Nat) {s : State} (h : s.keys.locked = false) : tick n s = s := by
  unfold tick onKeys lockTick
  simp [h]

/-- The verdict does not look at the port's flags. -/
theorem verdictOf_port (f : SealFrame) (ctr : Word) (tag : DWord) (b : Bool) (s : State) :
    verdictOf f ctr tag (onPort (fun p => { p with shortFlag := b }) s) = verdictOf f ctr tag s := rfl

/-- Only a bad tag is counted at the verdict. -/
theorem noteVerdict_ok {v : Verdict} (s : State) (h : v.code ≠ 0x01) : noteVerdict v s = s := if_neg h

/-- Only COMMIT and RESERVE watch VDD_NV. -/
theorem noteNv_short {f : SealFrame} (mon : ProgMon) (last : Nat) (s : State) (h : isLongCommand f = false) : noteNv f mon last s = s := by
  unfold noteNv; rw [if_neg (by simp [h])]

/-- The port of an accepted frame when its commit edge comes: its flag is set and its status byte is on GSDO. -/
def acceptedLine (f : SealFrame) (code : Byte) (extra : Nat) (s : State) : State :=
  setLine (statusLine (sealedClocks f) code extra) (onPort (fun p => { p with shortFlag := true }) s)

/-- An accepted sealed frame that is no long command is its commit edge. -/
theorem sealedFrame_accepted {s : State} {f : SealFrame} {ctr : Word} {tag : DWord} {n : Nat} (h : Accepts s f ctr tag n)
    (mon : ProgMon) (extra : Nat) (hf : isLongCommand f = false) :
    sealedFrame f ctr tag mon extra s =
      endFrame (sealedCommit f { code := 0, slot := some n, effect := true } ctr mon (acceptedLine f 0 extra s)) := by
  obtain ⟨hq, hv⟩ := h
  have hk : (onPort (fun p => { p with shortFlag := true }) s).keys.locked = false := hq.2.2.2.2
  unfold sealedFrame
  rw [beginFrame_quiet hq, tick_unlocked 8 hk]
  dsimp only
  rw [verdictOf_port, hv]
  dsimp only
  rw [noteVerdict_ok _ (show (0 : Byte) ≠ 1 by decide), noteNv_short _ _ _ hf, hf, Bool.and_false, if_neg (by decide)]
  rfl

/-- An accepted COMMIT or RESERVE has programmed, as far as its monitors let it, by its commit edge. -/
theorem sealedFrame_long {s : State} {f : SealFrame} {ctr : Word} {tag : DWord} {n : Nat} (h : Accepts s f ctr tag n)
    (mon : ProgMon) (extra : Nat) (hf : isLongCommand f = true) :
    let v : Verdict := { code := 0, slot := some n, effect := true }
    let s2 := noteNv f mon 8448 (onPort (fun p => { p with shortFlag := true }) s)
    sealedFrame f ctr tag mon extra s = endFrame (sealedCommit f v ctr mon
      (setLine (statusLine (sealedClocks f) (sealedCode v (commitLong f n mon s2).2) extra) s2)) := by
  obtain ⟨hq, hv⟩ := h
  have hk : (onPort (fun p => { p with shortFlag := true }) s).keys.locked = false := hq.2.2.2.2
  unfold sealedFrame
  rw [beginFrame_quiet hq, tick_unlocked 8 hk]
  dsimp only
  rw [verdictOf_port, hv]
  dsimp only
  rw [noteVerdict_ok _ (show (0 : Byte) ≠ 1 by decide), hf, Bool.and_true, if_pos rfl]
  rfl

end Sys2Proof.Machine
end

