-- ==== Sys2Proof/Laws/Ops.lean ====
section
/-!
SUPPORT. What each shared operation can change, said once: the state after it is the state before it with the fields named here
replaced.
-/

namespace Sys2Proof.Machine

variable (s : State)

/-! ## Tallies -/

/-- The counts of the loom tally with what is kept of the events of the present lc. -/
abbrev TallyBooks := Sparse Counter × Nat × List (Nat × Option Nat × Nat) × Sparse Counter

/-- The loom with other tally books. -/
def Loom.tallied (l : Loom) (k : TallyBooks) : Loom :=
  { l with tally := k.1, tallyLc := k.2.1, tallyEvs := k.2.2.1, tallyWas := k.2.2.2 }

def Loom.books (l : Loom) : TallyBooks := (l.tally, l.tallyLc, l.tallyEvs, l.tallyWas)

theorem loomTally_frame (src : Nat) (ten : Option Nat) (n : Nat) :
    ∃ ta, loomTally src ten n s = { s with loom := s.loom.tallied ta } := by
  unfold loomTally onLoom rollTally
  split
  · exact ⟨s.loom.books, rfl⟩
  · dsimp only
    split <;> exact ⟨(_, _, _, _), rfl⟩

theorem watchTally_frame (src n : Nat) :
    ∃ c clk evs was b, watchTally src n s =
      { s with wtally := { s.wtally with cnt := c, evClk := clk, evs := evs, was := was, cleared := b } } := by
  unfold watchTally rollWatch
  split
  · exact ⟨_, _, _, _, _, rfl⟩
  · dsimp only
    split <;> exact ⟨_, _, _, _, _, rfl⟩

/-- An lc's first read or event finds the counts that the lc began with (R453). -/
theorem tallyRead_fresh (n : Nat) (h : s.loom.tallyLc ≠ s.clocks.lc) : tallyRead s n = sget .init s.loom.tally n := by
  simp [tallyRead, rollTally, h]

/-! ## Time -/

theorem passPeriods_frame (n : Nat) :
    ∃ f now, passPeriods n s = { s with clocks := { s.clocks with frac := f }, loom := { s.loom with now := now } } :=
  ⟨_, _, rfl⟩

/-- One lc moves the three counts and nothing else. -/
theorem passLc_frame : ∃ c now ch, passLc s = { s with clocks := c, loom := { s.loom with now := now, chain := ch } } := by
  unfold passLc
  split
  · exact ⟨s.clocks, s.loom.now, s.loom.chain, rfl⟩
  · dsimp only
    split
    · exact ⟨_, _, s.loom.chain, rfl⟩
    · exact ⟨_, _, _, rfl⟩

/-! ## Device-to-host traffic -/

theorem pumpN_frame (k m : Nat) : ∃ w, pumpN k m s = { s with weft := w } := by
  induction k generalizing s with
  | zero => exact ⟨s.weft, rfl⟩
  | succ k ih =>
    unfold pumpN
    dsimp only
    split
    · split
      · obtain ⟨w, h⟩ := ih (sendTxn m _ (putWeft m _ s))
        exact ⟨w, h⟩
      · exact ⟨s.weft, rfl⟩
    · split
      · obtain ⟨w, h⟩ := ih (sendTxn m _ (putWeft m _ s))
        exact ⟨w, h⟩
      · exact ⟨s.weft, rfl⟩
    · exact ⟨s.weft, rfl⟩

theorem pump_frame (m : Nat) : ∃ w, pump m s = { s with weft := w } := pumpN_frame s _ m

theorem enqueueOn_frame (m : Nat) (x : DevTxn) : ∃ w, enqueueOn m x s = { s with weft := w } := by
  obtain ⟨w, h⟩ := pump_frame (putWeft m { weftOf s m with txq := (weftOf s m).txq ++ [x] } s) m
  exact ⟨w, h⟩

theorem enqueue_frame (x : DevTxn) : ∃ w, enqueue x s = { s with weft := w } := enqueueOn_frame s _ x

theorem answerRead_frame (m tag status tenant : Nat) (data : List Byte) :
    ∃ w, answerRead m tag status tenant data s = { s with weft := w } := enqueueOn_frame s m _

/-! ## Ring entries, events, records -/

theorem writeEntry_frame (n : Nat) (e : Bool) (mk : Nat → List Byte) :
    ∃ w rs, writeEntry n e mk s = { s with weft := w, loom := { s.loom with rings := rs } } := by
  unfold writeEntry
  dsimp only
  obtain ⟨w, h⟩ := enqueue_frame s _
  rw [h]
  split
  · obtain ⟨v, k⟩ := enqueue_frame (putRing n _ { s with weft := w }) _
    rw [k]
    exact ⟨v, _, rfl⟩
  · exact ⟨w, _, rfl⟩

theorem flushLost_frame (t : Nat) :
    ∃ w rs ts, flushLost t s = { s with weft := w, loom := { s.loom with rings := rs, tenants := ts } } := by
  unfold flushLost
  split
  · obtain ⟨w, rs, h⟩ := writeEntry_frame s (eventRing t) true (eventBytes 0x11 0 (tenantOf s t).lost.toNat (nowOf s) [])
    rw [h]
    exact ⟨w, rs, _, rfl⟩
  · exact ⟨s.weft, s.loom.rings, s.loom.tenants, rfl⟩

theorem sendEvent_frame (t code id arg : Nat) (detail : List Byte) :
    ∃ w rs ts, sendEvent t code id arg detail s = { s with weft := w, loom := { s.loom with rings := rs, tenants := ts } } := by
  unfold sendEvent
  obtain ⟨w, rs, ts, h⟩ := flushLost_frame s t
  dsimp only
  rw [h]
  split
  · obtain ⟨v, qs, k⟩ := writeEntry_frame _ (eventRing t) true _
    rw [k]
    exact ⟨v, qs, ts, rfl⟩
  · exact ⟨w, rs, _, rfl⟩

theorem writeRecord_frame (r : Rec) :
    ∃ w rs ta, writeRecord r s = { s with weft := w, loom := Loom.tallied { s.loom with rings := rs } ta } := by
  unfold writeRecord
  dsimp only
  obtain ⟨ta, h⟩ := loomTally_frame s 0x45 (some r.tenant) (if r.code = 0x30 then 1 else 0)
  rw [h]
  obtain ⟨tb, k⟩ := loomTally_frame { s with loom := s.loom.tallied ta } 0x44 (some r.tenant)
    (if r.code = 2 || r.flags % 2 = 1 then 1 else 0)
  rw [k]
  split
  · obtain ⟨w, rs, j⟩ := writeEntry_frame (putRing (4 * r.tenant + 1) _ _) (4 * r.tenant + 1) false _
    rw [j]
    exact ⟨w, rs, tb, rfl⟩
  · exact ⟨s.weft, s.loom.rings, tb, rfl⟩

theorem answerNow_frame (r : Rec) :
    ∃ w rs ta, answerNow r s = { s with weft := w, loom := Loom.tallied { s.loom with rings := rs } ta } := by
  unfold answerNow
  dsimp only
  split
  · obtain ⟨ta, h⟩ := loomTally_frame s _ (some r.tenant) 1
    rw [h]
    obtain ⟨w, rs, tb, k⟩ := writeRecord_frame { s with loom := s.loom.tallied ta } r
    rw [k]
    exact ⟨w, rs, tb, rfl⟩
  · exact writeRecord_frame s r

/-! ## Jobs -/

theorem onJobs_frame (f : List Job → List Job) : onJobs f s = { s with loom := { s.loom with jobs := f s.loom.jobs } } := rfl

theorem endJob_frame (o : Nat) (code : Byte) : ∃ js, endJob o code s = { s with loom := { s.loom with jobs := js } } := ⟨_, rfl⟩

theorem flagJobs_frame (p : Job → Bool) (code : Byte) (silent : Bool) :
    ∃ js, flagJobs p code silent s = { s with loom := { s.loom with jobs := js } } := ⟨_, rfl⟩

theorem dropJob_frame (o : Nat) : ∃ js qs, dropJob o s = { s with loom := { s.loom with jobs := js, seqs := qs } } := ⟨_, _, rfl⟩

/-! ## Banks -/

theorem countTileErrors_frame (t n : Nat) :
    ∃ e, countTileErrors t n s = { s with loom := { s.loom with tileErr := e } } := by
  unfold countTileErrors
  split
  · exact ⟨s.loom.tileErr, rfl⟩
  · exact ⟨_, rfl⟩

/-- Reading a bank row changes the known upsets, the tally and the tile's error count. -/
theorem readBankRow_frame (t k row : Nat) (owner : Option Nat) (found : Upsets) :
    ∃ up ta e, (readBankRow t k row owner found s).2.2 = { s with loom := Loom.tallied { s.loom with bankUp := up, tileErr := e } ta } := by
  unfold readBankRow
  dsimp only
  obtain ⟨ta, h⟩ := loomTally_frame (onLoom _ s) 0x47 owner _
  rw [h]
  obtain ⟨tb, k⟩ := loomTally_frame _ 0x48 owner _
  rw [k]
  obtain ⟨e, j⟩ := countTileErrors_frame _ t _
  rw [j]
  exact ⟨_, tb, e, rfl⟩

theorem writeBankRow_frame (t k row : Nat) (data : List Byte) :
    ∃ up, writeBankRow t k row data s =
      { s with loom := { s.loom with banks := mwrite s.loom.banks (rowAddr t k row) (slice data 0 64), bankUp := up } } := ⟨_, rfl⟩

theorem useBank_frame (key : Nat) : ∃ u, useBank key s = { s with loom := { s.loom with bankUse := u } } := ⟨_, rfl⟩

/-! ## Conflicts and breaches -/

theorem conflictBooks_frame (loser : Loser) (kind tenant : Nat) (cut : Bool) :
    ∃ a p, conflictBooks loser kind tenant cut s = { s with alert := a, pwr := p } := ⟨_, _, rfl⟩

theorem conflictState_frame (loser : Loser) (kind tenant requested : Nat) :
    ∃ a p w rs ts ta, conflictState loser kind tenant requested s =
      { s with alert := a, pwr := p, weft := w, loom := Loom.tallied { s.loom with rings := rs, tenants := ts } ta } := by
  unfold conflictState
  dsimp only
  obtain ⟨a, p, h⟩ := conflictBooks_frame s loser kind tenant false
  rw [h]
  cases loser
  · obtain ⟨w, rs, ts, k⟩ := sendEvent_frame { s with alert := a, pwr := p } tenant evOverruled 0 (requested + 4 * kind) []
    dsimp only
    rw [k]
    obtain ⟨ta, j⟩ := loomTally_frame { s with
      alert := a, pwr := p, weft := w, loom := { s.loom with rings := rs, tenants := ts } } 0x45 (some tenant) 1
    exact ⟨a, p, w, rs, ts, ta, j⟩
  · exact ⟨a, p, s.weft, s.loom.rings, s.loom.tenants, s.loom.books, rfl⟩

theorem breachBooks_frame (kind tile tenant draft lc : Nat) (job : Option Nat) :
    ∃ b w rs ts ta js, breachBooks kind tile tenant draft lc job s =
      { s with weft := w, loom := Loom.tallied { s.loom with breach := b, rings := rs, tenants := ts, jobs := js } ta } := by
  unfold breachBooks
  dsimp only
  obtain ⟨ta, h⟩ := loomTally_frame (putTenant tenant _ (onLoom _ s)) 0x46 (some tenant) 1
  rw [h]
  obtain ⟨w, rs, ts, k⟩ := sendEvent_frame _ tenant evContractFault draft 0 _
  rw [k]
  exact ⟨_, w, rs, ts, ta, _, rfl⟩

theorem owesNotices_frame (mask : BitVec 4) (d : Nat) : ∃ w, owesNotices mask d s = { s with warp := w } := by
  unfold owesNotices
  generalize setBits 4 mask.toNat = ms
  induction ms generalizing s with
  | nil => exact ⟨s.warp, rfl⟩
  | cons m ms ih =>
    obtain ⟨w, h⟩ := ih (putWarp m { warpOf s m with txNotices := (warpOf s m).txNotices ++ [d] } s)
    exact ⟨w, h⟩

/-- A breach writes no bank, reel or draft store: it books, stops the slot's tiles and owes notices. -/
theorem breach_frame (kind tile : Nat) (x : Slot) :
    ∃ b w p rs ts ta js tl sl, breach kind tile x s = { s with
      weft := w, warp := p
      loom := Loom.tallied { s.loom with breach := b, rings := rs, tenants := ts, jobs := js, tiles := tl
                                         weave := { s.loom.weave with slots := sl } } ta } := by
  unfold breach
  split
  · exact ⟨_, s.weft, s.warp, _, _, s.loom.books, _, _, _, rfl⟩
  · rename_i y _
    split
    · exact ⟨_, s.weft, s.warp, _, _, s.loom.books, _, _, _, rfl⟩
    · dsimp only
      obtain ⟨b, w, rs, ts, ta, js, h⟩ :=
        breachBooks_frame s kind tile (draftOf s y.draft).tenant y.draft (lcOf s - passStart y) (slotJob y)
      rw [h]
      cases slotJob y <;> cases (draftOf s y.draft).resident <;> dsimp only
      · exact ⟨b, w, _, rs, ts, ta, js, _, _, rfl⟩
      · rename_i v
        obtain ⟨q, k⟩ := owesNotices_frame _ v.warpMask y.draft
        rw [k]
        exact ⟨b, w, q, rs, ts, ta, js, _, _, rfl⟩
      · exact ⟨b, w, _, rs, ts, ta, _, _, _, rfl⟩
      · rename_i v
        obtain ⟨q, k⟩ := owesNotices_frame _ v.warpMask y.draft
        rw [k]
        exact ⟨b, w, q, rs, ts, ta, _, _, _, rfl⟩

/-! ## Issue -/

/-- Taking the ready results of a tile changes its registers, and the count of outliers that overflowed. -/
theorem settleOn_frame (t : Nat) : ∃ ts ta, settleOn t s = { s with loom := Loom.tallied { s.loom with tiles := ts } ta } := by
  unfold settleOn
  obtain ⟨ta, h⟩ := loomTally_frame (putTile t (settleTile (lcOf s) (tileOf s t)) s) 0x49 (tileOf s t).lastTenant
    (readyOverflow (lcOf s) (tileOf s t))
  exact ⟨_, ta, h⟩

theorem noteIssued_frame (t k : Nat) : ∃ u, noteIssued t k s = { s with loom := { s.loom with issued := u } } := ⟨_, rfl⟩

/-- Where the tile issues, the field has not issued and the bundle spells the operation, the operation runs on the tile with its ready
results in effect. -/
theorem issueOn_some {s : State} {t k : Nat} {spells : Nat → Bool} {x : Slot} (f : Nat → Slot → State → State)
    (h : issuing s t = some x) (hk : hasIssued s t k = false) (hb : spells (bundleNow s x t) = true) :
    issueOn t k spells f s = f (bundleNow s x t) x (settleOn t (noteIssued t k s)) := by
  unfold issueOn
  rw [h]
  exact if_pos (by simp [hk, hb])

/-- A tile that issues nothing runs nothing. -/
theorem issueOn_none {s : State} {t k : Nat} {spells : Nat → Bool} (f : Nat → Slot → State → State) (h : issuing s t = none) :
    issueOn t k spells f s = s := by
  unfold issueOn; rw [h]

/-- A field that has issued in this lc, or spells another operation, runs nothing. -/
theorem issueOn_other {s : State} {t k : Nat} {spells : Nat → Bool} {x : Slot} (f : Nat → Slot → State → State)
    (h : issuing s t = some x) (hb : (spells (bundleNow s x t) && !hasIssued s t k) = false) : issueOn t k spells f s = s := by
  unfold issueOn
  rw [h]
  exact if_neg (by simp [hb])

/-- Taking a source row draws free bytes at most. -/
theorem sourceRow_frame (t unit src : Nat) : ∃ n, (sourceRow t unit src s).2 = { s with free := n } := by
  unfold sourceRow
  dsimp only
  split
  · exact ⟨s.free, rfl⟩
  · exact ⟨_, rfl⟩

theorem launch_frame (t lat : Nat) (es : List Effect) :
    ∃ ts, launch t lat es s = { s with loom := { s.loom with tiles := ts } } := ⟨_, rfl⟩

end Sys2Proof.Machine
end

