-- ==== Sys2Proof/WellFormed.lean ====
section
/-!
DEFINITION. What a command must look like to be one the outside world can give: lengths of bursts, frames, flits and reads, and
lists that name each thing once. Meanings are total and do not ask for it (log 2).
-/

namespace Sys2Proof

/-- Each word of a store is named once. -/
def upsetsGood (u : Upsets) : Bool := decide (u.map Prod.fst).Nodup

/-- A WRITE burst carries 1 to 64 words (R64). -/
def burstGood (data : List Word) : Bool := decide (1 ≤ data.length) && decide (data.length ≤ 64)

def monGood (m : ProgMon) : Bool := upsetsGood m.upsets && upsetsGood m.stageUpsets

def findsGood (f : OpenFinds) : Bool :=
  upsetsGood f.bankA && upsetsGood f.bankB && upsetsGood f.factory && decide f.weak.Nodup

def frameGood : Frame → Bool
  | .write _ data => burstGood data
  | .sealedCommand _ _ _ _ mon => monGood mon
  | .openFrame finds => findsGood finds
  | .read _ _ | .sealedWrite _ _ _ _ | .status | .ident | .undefinedOp _ => true

def capturedGood : Option (Frame × Nat) → Bool
  | none => true
  | some f => frameGood f.1

/-- Weft registers lie at multiples of eight bytes (R7). -/
def regGood : RegWrite → Bool
  | .gate _ _ _ => true
  | .weft a _ _ => decide (a.toNat % 8 = 0)

/-- One hop of a channel: 16 samples of the LP path and 48 of the HQ path, of which its 16 kHz rate takes the first 16 (R172, R174,
log 10); 32 bands, each mean over at least one value (R175). -/
def channelGood (c : ChannelHop) : Bool :=
  decide (c.lp.length = 16) && decide (c.hq.length = 48) && decide (c.bands.length = 32)
    && c.bands.all (fun p => decide (0 < p.2))

def hopGood (h : HopInput) : Bool :=
  channelGood h.ch0 && channelGood h.ch1 && decide (h.axes.length ≤ 3)
    && h.axes.all (fun p => decide (0 < p.1.2) && decide (0 < p.2.2))

/-- Sizes of a weft transaction's data (R334). -/
def sizeGood (n : Nat) : Bool := n == 8 || n == 64 || n == 128 || n == 192

/-- Rows one READ can ask for (R334). -/
def rowsGood (n : Nat) : Bool := n == 1 || n == 2 || n == 3

/-- A command the outside world can give. -/
def Instr.wellFormed : Instr → Bool
  | .write _ data _ => burstGood data
  | .commit _ _ _ mon _ => monGood mon
  | .reserve _ _ _ mon _ => monGood mon
  | .openGranary finds _ => findsGood finds
  | .shortFrame f _ => frameGood f
  | .registerWrite w => regGood w
  | .exitPhaseEnd r => decide r.failedTiles.Nodup && decide r.failedReels.Nodup
  | .extest x => capturedGood x.inFrame
  | .bypass x => decide (3 < x.op.toNat)
  | .clamp f => capturedGood f
  | .highz f => capturedGood f
  | .hopBoundary h => hopGood h
  | .sensorTransactionEnd bytes => decide (bytes.length ≤ 6)
  | .imageFetch rows => rowsGood rows
  | .slotStart _ f => upsetsGood f.upsets && decide f.misheld.Nodup
  | .halt _ ups => upsetsGood ups
  | .bankRead _ _ ups => upsetsGood ups
  | .attend _ _ _ ups => upsetsGood ups
  | .append _ _ _ ups => upsetsGood ups
  | .apertureWrite _ _ data _ => sizeGood data.length
  | .kvApertureWrite _ _ data _ => sizeGood data.length
  | .apertureApply _ _ ups => upsetsGood ups
  | .bobbinMove ups => upsetsGood ups
  | .flitReceive _ bytes ups => decide (bytes.length = 256) && upsetsGood ups
  | .readResp _ _ _ data => sizeGood data.length
  | .submissionFetch n => decide (n ≠ 0)
  | .warpPhaseEnd _ o => decide (o.rtMin ≤ o.rtMax)
  | .warpFrameDelivery _ frame => decide (frame.bytes.length = 80)
  | .por | .porRelease _ _ | .read _ _ _ | .windowRead _ _ | .tallyLoRead _ | .sealedWrite _ _ _ _ _ | .lockoutEnd
  | .unknownCommand _ _ _ _ _ | .keyPart _ _ _ _ _ | .keyInstall _ _ _ _ | .keyRetire _ _ _ _ | .keyDecommission _ _ _ _
  | .firstKeyInstall | .status _ | .ident _ | .undefinedOpcode _ _ | .stageDataWrite _ _ | .stageWinWrite _ _ _
  | .gateReset _ | .watchReset _ | .loomTarget _ _ | .loomReset | .gateTenantReset _ | .hostTenantReset _
  | .linkOnRequest _ | .linkOff _ | .linkPowerUp _ | .linkRailLoss _ _ | .supplyAbsent _ | .tenantBlock _ _
  | .tenantAbort _ _ | .blockSampled _ | .escCtrlWrite _ | .aonclkLock | .aonclkLoss | .watchMemoryCleared | .thermAssert
  | .thermRelease | .vddaMicLoss | .vddaMicReturn | .supplyLost _ | .lsramRunLevel | .l3ExitStart | .orderingPoint _
  | .hostPowerRequest _ _ | .loomMoveDone | .drainEnd | .samplePreload _ _ | .testLogicReset | .channelEnable _
  | .channelDisable _ | .gainChange _ _ | .biasedSet _ | .biasEnable | .biasDisable | .biasVoltChange _
  | .biasRangeChange _ | .hqPathChange _ | .encoderEnable _ | .encoderSettings _ | .sensorPortEnable | .sensorPortDisable
  | .sensorSettings _ | .sampleTick | .trimRead | .rampEnd | .hdrmChange _ | .limitChange _ | .micbFault | .faultMuteEnd
  | .zeroMuteEnd _ | .arm | .disarm | .wcMemDataWrite _ | .wcMemWinWrite _ _ | .watchStep | .deliveryCutoff | .stepEnd _
  | .windowPublish | .bellAction | .bellAck | .loftFreeze | .loftRelease | .escalationCopyStart | .escalationEntry
  | .escalationAnswer | .escalationTimeout | .draftNew _ _ | .draftHot _ _ | .draftCold _ _ | .draftUnload _ _ | .dmaRow _
  | .tileWalkDone _ | .pointChange _ | .relockDone _ | .stretchClr | .droopTrip | .stretchedCycle | .repeatBoundary
  | .passEnd _ | .next _ | .loop _ _ | .endloop _ _ | .wait _ _ | .waitEnd _ | .seta _ _ _ _ | .bankWrite _ _
  | .meshSend _ _ | .meshDelivery _ _ | .resultReady _ | .loadw _ _ _ | .swapw _ | .mac _ _ | .drain _ _ _ _ _
  | .corr _ _ _ _ _ | .vecNop _ | .ldq _ _ | .ldw _ _ | .ldh _ _ | .stq _ _ | .movi _ _ | .add _ _ | .sub _ _ | .mul _ _
  | .min _ _ | .max _ _ | .and _ _ | .or _ _ | .xor _ _ | .shl _ _ | .shr _ _ | .cmplt _ _ | .cmpeq _ _ | .sel _ _
  | .perm _ _ | .cvt _ _ | .fma _ _ | .rsum _ _ | .rmax _ _ | .exp _ _ | .rcp _ _ | .rsq _ _ | .quant _ _ | .deq _ _
  | .cfg0 _ _ | .cfg1 _ _ | .cfg2 _ _ | .flush _ _ | .stats _ _ | .ldside _ _ | .engineOutput _ | .apertureRead _ _ _ _ _
  | .kvApertureRead _ _ _ _ _ | .apertureReadTimeout _ _ | .weftTrained _ _ _ _ _ | .weftTrainRetry _ | .weftRetrain _ _
  | .doorbellTail _ _ | .doorbellHead _ _ | .ringEnable _ _ | .ringDisable _ _ | .partitionWrite _ _ | .weaveSwap
  | .weaveCheckDone | .run | .seqOpen | .seqClose | .submitNop | .recordIssue | .save | .restore | .bobbinNop
  | .bobbinWeftWrite | .restoreCheck | .bobbinCtrlWrite _ | .warpTrain _ | .warpTrainRetry _ | .warpRetrain _ _
  | .warpFrameSend _ | .watchTallySelect _ _ | .watchTallyClr _ | .loomTallySelect _ _ | .loomTallyClr _
  | .writeReachesWatchman | .grayCountSample _ | .ackInterval _ => true

end Sys2Proof
end

