-- ==== Sys2Proof/Tests/Slice0.lean ====
section
/-!
SUPPORT. Tests: the examples of the manual, ill-formed terms that the check refuses, and for every statement a state and operands that
meet its hypotheses.
-/

namespace Sys2Proof.Tests

-- One theorem after another: each kernel evaluation takes a deep stack.
set_option Elab.async false
open Sys2Proof Sys2Proof.Machine

/-! ## Small states -/

/-- The loom at L0 with every tile good. -/
def atL0 : State := { State.reset with
  pwr := { Power.reset with st := .l0, target := .l0, reqTarget := 0, hostTarget := 0, gateLast := 0, chainPos := 1, tilesOk := BitVec.allOnes 256 } }
def atL1 : State := { atL0 with pwr := { atL0.pwr with st := .l1, target := .l1, reqTarget := 1 } }
def staged (st : LoomState) (x : Stage) : State := { atL0 with pwr := { atL0.pwr with st := st, stage := x } }
/-- Slot 0 holds the zero key with every right. -/
def keyed : State := { State.reset with
  gran := { Granary.reset with st := .openA }
  keys := putSlot Seal.reset 0 { key := 0, st := .active, rights := 63, h := 1024, c := 0 } }
def tagOf (f : SealFrame) : DWord := sealTag 0 f 1 0 0
def watching : State := { State.reset with wc := { WatchCores.reset with aonclk := true } }

/-- A version of two tiles with one page each, and a draft of tenant 3 that holds it. -/
def ver : Version :=
  { tag := 1, points := 0x1F, warp := false, row0 := 0, col0 := 0, rows := 1, cols := 2, banks := 0x3FF, engines := 1, passLc := 49
    npages := 1, windows := [], warpMask := 0, warpLat := [0, 0, 0, 0], pages := [(0, [0]), (1, [1])] }
def drf : Draft := { Draft.init with st := .resident, tenant := 3, resident := some ver }
def pslot : Slot :=
  { entry := 1, start := 10, draft := 5, run := .pass none 10, breached := false, degraded := false, poisoned := false
    damaged := false, halted := false }
def draftEntry : WEntry := { WEntry.init with start := 10, len := 60, kind := 1, id := 5 }
/-- A pass runs in tiles 0 and 1 in lc 20. -/
def running : State := { atL0 with
  clocks := { Clocks.reset with lc := 20 }
  loom := { Loom.reset with
    weave := { Weave.reset with slots := [pslot], active := [(1, draftEntry)], activeLc := 100, repDue := false }
    drafts := [(5, drf)]
    tiles := [(0, { Tile.init with run := .issuing, slot := some 1, pc := 3, flights := [{ ready := 20, eff := .s2 0 7 }] }),
      (1, { Tile.init with run := .issuing, slot := some 1, pc := 3 })] } }
def onTile0 (f : Tile → Tile) : State := putTile 0 (f (tileOf running 0)) running
/-- As `s`, tile 0 about to issue bundle `b`, and both tiles hold the version. -/
def bundled (b : Nat) (s : State) : State := { s with loom := { s.loom with
  store := mwrite s.loom.store 192 (toLe 64 b), tags := [(0, [(5, 1)]), (1, [(5, 1)])] } }
/-- The bits with these values at these places. -/
def spell (xs : List (Nat × Nat)) : Nat := xs.foldl (fun a e => a + e.2 * 2 ^ e.1) 0
def newLoad : Load :=
  { id := 5, tenant := 3, mode := .fresh, addr := 0x1000, asked := 0, buffer := [], header := [], taken := 0, crc := 0xFFFFFFFF
    version := none, walked := [] }
def job0 : Job :=
  { order := 9, tenant := 3, kind := .run, esc := false, draft := 5, passes := 1, ran := 0, tag := 0x77, subidx := 1, promise := 0
    binds := [], resAt := none, result := [], booked := [10], recordAt := 0, ending := none, cut := false, silent := false, ended := none
    poisoned := false, degraded := false, breached := false, ckpt := none }

/-- A record of 64 bytes that are zero but for those listed. -/
def row64 (xs : List (Nat × Byte)) : List Byte := (span 0 64).map (fun i => sget 0 xs i)
def wlink : WeftModule := { WeftModule.init with trained := true, hostPosted := 8, hostNonposted := 8 }
/-- Both weft modules are trained. -/
def linked (s : State) : State := { s with weft := [(0, wlink), (1, wlink)] }
def parked (x : Waiting) : State := { linked atL0 with weft := [(0, { wlink with park := [x] }), (1, wlink)] }
def bankRead1 : Waiting :=
  { isRead := true, kv := false, addr := 0x100044040, size := 64, data := [], tag := 9, owner := 3, since := 5, lc := 0 }
/-- A flit with this link header and these transactions, its CRC right. -/
def goodFlit (h : List Byte) : List Byte :=
  let a := slice h 0 56
  let d := List.replicate 192 0
  a ++ toLe 8 (crc64 (a ++ d)) ++ d
def goodFrame (h : List Byte) : List Byte := slice h 0 76 ++ toLe 4 (crc32c (slice h 0 76))
/-- Sequence 7 of tenant 3: one lane of sixteen slots, d = 32, f8a. -/
def seq7 : Seq := { st := .opened, tenant := 3, desc := 0x8000000, reels := [5], lanes := [], poisoned := false }
def cmdFlit (kind : Byte) : List Byte := row64 [(0, kind), (10, 0x80), (11, 0x3F), (12, 16), (17, 8)]
/-- A pass of draft 5 runs a job that binds sequence 7 beside engine 0. -/
def attending : State := { running with loom := { running.loom with
  jobs := [{ job0 with binds := [(0, 7)] }], seqs := [(7, seq7)]
  weave := { running.loom.weave with slots := [{ pslot with run := .pass (some 9) 10 }] }
  tiles := [(15, { Tile.init with run := .issuing, slot := some 1 })] } }
def fetched1 (ring : Nat) (bytes : List Byte) : Fetched := { ring := ring, index := 2, bytes := bytes, esc := false, order := 40, lc := 0 }
/-- An entry of a ring of tenant 3 waits for its answer. -/
def answering (f : Fetched) : State := { linked running with loom := { running.loom with
  fetched := [f], parts := [(3, { Part.init with en := true, banks := 0x3FF })]
  weave := { running.loom.weave with
    active := [(1, draftEntry), (2, { draftEntry with kind := 3, id := 0, tenant := 3, banks := 0x3FF })] } } }
def withRecords (s : State) : State := { s with loom := { s.loom with rings := [(13, { Ring.init with en := true, base := 0x4000, resv := 1 })] } }
def saveEntry : List Byte := row64 [(0, 1), (25, 0x40), (34, 1), (42, 1), (44, 1)]
def restoreEntry : List Byte := row64 [(0, 2), (25, 0x40), (42, 1), (44, 1)]
def ckpt1 : Ckpt := { parseCkpt saveEntry with nblk := 1, moves := [20, 24] }
def ckptJob (k : JobKind) (c : Ckpt) : Job := { job0 with kind := k, draft := 0, passes := 0, booked := [], ckpt := some c }
def moving (k : JobKind) (c : Ckpt) : State := { linked running with loom := { running.loom with
  jobs := [ckptJob k c], parts := [(3, { Part.init with en := true, banks := 0x3FF })]
  weave := { running.loom.weave with
    active := [(1, draftEntry), (2, { draftEntry with kind := 3, id := 0, tenant := 3, banks := 0x3FF })] } } }
def warpWorld (w : WarpModule) : State :=
  { atL0 with pwr := { atL0.pwr with powered := 0x3F, chainPos := 3 }, warp := [(0, w), (2, { WarpModule.init with crc := 7 })] }
def outcome : WarpOutcome :=
  { completed := true, rate := 1, reversed := true, ident := 0x5A3256B0, partnerPos := 2, partnerPoint := 0, rtMax := 20, rtMin := 16 }
def lockedWarp : WarpModule := { WarpModule.init with train := true, locked := true, phase := 4, lat := 9 }

/-- A well-formed bank image of one payload word. -/
def tinyImage (seq : Word) : List Byte :=
  let h := toLe 4 0x4752414E ++ toLe 2 1 ++ toLe 2 0 ++ toLe 4 seq.toNat ++ toLe 4 8 ++ toLe 4 (crc32c (List.replicate 8 0))
    ++ List.replicate 40 0
  h ++ toLe 4 (crc32c h) ++ List.replicate 8 0
def imaged (a b : List Byte) : State := { State.reset with gran := { State.reset.gran with bankA := mwrite [] 0 a, bankB := mwrite [] 0 b } }

def packed (net : List (Nat × Word)) : WatchCores := { WatchCores.reset with net := net }

/-! ## Ill-formed terms are refused -/

theorem test_illformed_burst : Instr.wellFormed (.write 0x140 (List.replicate 65 0) 0) = false := by decide +kernel
theorem test_illformed_empty_burst : Instr.wellFormed (.write 0x140 [] 0) = false := by decide +kernel
theorem test_illformed_upsets :
    Instr.wellFormed (.slotStart 0 { upsets := [(4, .corrected), (4, .uncorrectable)], misheld := [] }) = false := by decide +kernel
theorem test_illformed_misheld : Instr.wellFormed (.slotStart 0 { upsets := [], misheld := [7, 7] }) = false := by decide +kernel
theorem test_illformed_monitor :
    Instr.wellFormed (.commit 0 1 0 { noMonitors with upsets := [(1, .corrected), (1, .corrected)] } 0) = false := by decide +kernel
theorem test_illformed_finds :
    Instr.wellFormed (.openGranary { bankA := [], bankB := [], factory := [], weak := [3, 3] } 0) = false := by decide +kernel
theorem test_illformed_short_frame : Instr.wellFormed (.shortFrame (.write 0x140 []) 9) = false := by decide +kernel
theorem test_illformed_captured_frame : Instr.wellFormed (.extest { inFrame := some (.write 0x140 [], 9), scans := [] }) = false := by decide +kernel
theorem test_illformed_test_opcode : Instr.wellFormed (.bypass { op := 3, tdi := [] }) = false := by decide +kernel
theorem test_illformed_register : Instr.wellFormed (.registerWrite (.weft 0x404 0 0)) = false := by decide +kernel
theorem test_illformed_phase : Instr.wellFormed (.exitPhaseEnd { straps := 0, failedTiles := [7, 7], failedReels := [] }) = false := by
  decide +kernel
theorem test_illformed_hop : Instr.wellFormed (.hopBoundary { ch0 := { lp := [], hq := [], bands := [] }
                                                              ch1 := { lp := [], hq := [], bands := [] }, axes := [] }) = false := by
  decide +kernel
theorem test_illformed_sensor_bytes : Instr.wellFormed (.sensorTransactionEnd (List.replicate 7 0)) = false := by decide +kernel
theorem test_illformed_image_rows : Instr.wellFormed (.imageFetch 0) = false := by decide +kernel
theorem test_illformed_halt : Instr.wellFormed (.halt 0 [(4, .corrected), (4, .corrected)]) = false := by decide +kernel
theorem test_illformed_aperture_size : Instr.wellFormed (.apertureWrite 0 0x100000000 (List.replicate 16 0) 3) = false := by decide +kernel
theorem test_illformed_flit : Instr.wellFormed (.flitReceive 0 (List.replicate 255 0) []) = false := by decide +kernel
theorem test_illformed_response : Instr.wellFormed (.readResp 0 0 0 [1]) = false := by decide +kernel
theorem test_illformed_fetch : Instr.wellFormed (.submissionFetch 0) = false := by decide +kernel
theorem test_illformed_round_trip : Instr.wellFormed (.warpPhaseEnd 0 { outcome with rtMax := 3, rtMin := 4 }) = false := by decide +kernel
theorem test_illformed_warp_frame : Instr.wellFormed (.warpFrameDelivery 0 { slot := 0, bytes := List.replicate 79 0 }) = false := by decide +kernel
theorem test_wellformed : Instr.wellFormed (.write 0x140 [0] 0) = true ∧ Instr.wellFormed (.submissionFetch 3) = true := by decide +kernel

/-! ## The manual's examples -/

/-- The state a command answers. -/
def after (c : Instr) (s : State) : State := match exec c s with
  | .next t => t
  | .fault _ => s
  | .refused _ => s

/-- R119: the check value of "123456789". -/
theorem test_crc32c_check : crc32c ((span 0x31 9).map (BitVec.ofNat 8)) = 0xE3069283 := by decide +kernel

/-- FIPS-197, appendix C.1: AES-128. -/
theorem test_aes128 : aes128 0x000102030405060708090A0B0C0D0E0F 0x00112233445566778899AABBCCDDEEFF = 0x69C4E0D86A7B0430D8CDB78070B4C55A := by
  decide +kernel

/-- 04, Example, step 2: the 19 bytes of M. -/
theorem test_seal_message : sealMessage (.write 0x288 0x80) 0x2A11 0x00713C0A 0x9B25E4D6 =
    [0x5A, 0x02, 0x88, 0, 0, 0, 0x80, 0, 0, 0x2A, 0x11, 0, 0x71, 0x3C, 0x0A, 0x9B, 0x25, 0xE4, 0xD6] := by decide +kernel

/-- 05, Example, step 3: SEQ 0x0000_0000 is newer than 0xFFFF_FFFF. -/
theorem test_sequence_wrap : newer 0 0xFFFFFFFF = true ∧ newer 0xFFFFFFFF 0 = false := by decide

/-- 03, Example, step 7: G_LOOM_CONFLICT. -/
theorem test_conflict_word :
    loomConflictWord { loser := 1, kind := 1, gate := 1, host := 2, tenant := 0x10, cut := false } = 0x00001095 := by decide +kernel

/-- 08, Example, step 7: G_BELL_CAUSE. -/
theorem test_bell_cause : bellCauseWord { Bell.reset with causeRules := 4, causeFirst := 2, causeStep := 250 } = 0x00FA0204 := by
  decide +kernel

/-- 09, Example, steps 4 and 8: L_DRAFT_VERIFY and L_DRAFT_STATE17. -/
theorem test_draft_words :
    verifyWord { Verify.reset with result := 0, id := 17, freeMin := 2 } = 0x0000000200002200
    ∧ draftWord { Draft.init with st := .resident, tenant := 3, resident := some { ver with tag := 9 } } = 0x001F000000090302 := by
  decide +kernel

/-- The operands of a QUANT of register 0 at site 3. -/
def quantThree : QntField :=
  { site := 3, vreg := 0, half := false, step := false, x := false, src := 0, obf := false, ar := 0, imm := 0 }

/-- 10, Example: site 3 under CFG0 0x1E80_0622 with S2 0.5, and the register of step 3. -/
def quantising : State := bundled (spell [(192, 1), (196, 3)]) (onTile0 (fun y => { y with
  sites := [(3, { Site.init with cfg := some 0x1E800622, s2 := 0x3F000000, ch := 256 })]
  vreg := [(0, (span 0 64).map (fun i => if i = 5 then 0x41100000 else if i = 12 then 0xC0A00000 else if i = 20 then 0x40880000
    else if i = 40 then 0x3FA00000 else if i = 47 then 0xBF000000 else 0))] }))

/-- Step 6: the row four lc later. -/
theorem test_quant_row :
    let y := settleTile 24 (tileOf (after (.quant 0 quantThree) quantising) 0)
    (y.qntRow[2]?, y.qntRow[6]?, y.qntRow[10]?, y.qntRow[20]?, y.qntRow[23]?) = (some 0x80, some 0x08, some 0x07, some 0x07, some 0xD0) := by
  decide +kernel

/-- Step 7: the side row. -/
theorem test_quant_side :
    slice (sideBytes (siteAt (tileOf (after (.quant 0 quantThree) quantising) 0) 3)) 0 28 =
      [0, 0, 0, 0x3F, 0x78, 2, 0, 0, 0x10, 0x41, 5, 0, 0xA0, 0xC0, 0x0C, 0, 0x6C, 0, 0, 0, 0, 0, 0xFF, 0, 0, 0, 0xFF, 0] := by decide +kernel

/-- Step 8: the statistics. -/
theorem test_quant_statistics :
    let x := (siteAt (settleTile 24 (tileOf (after (.quant 0 quantThree) quantising) 0)) 3).stats
    (x.count, x.sideUsed, x.overflow, x.maxErr, x.sse) = (64, 2, 1, 0x3F400000, 0x3FE2400000000000) := by decide +kernel

/-- Step 10: the new S2. -/
theorem test_step_scale :
    (closeStep 0x1E800622 { Site.init with cfg := some 0x1E800622, hist := [0x40600000, 0x40500000, 0x40300000], stepMax := 0x41100000 }).2
      = some 0x3FA49249 := by decide +kernel

/-- Step 9: a DRAIN with FOLD turns 1,536.0 into 12.25. -/
theorem test_drain_fold :
    foldLane { Tile.init with drainVec := [(2, 0x80), (3, 0x3C), (258, 0x80), (259, 0x3E)], sideReg := [(3, 0x3F)] }
      { isF32 := true, lanes := [0x44C00000], sat := [] } 0 = 0x41440000 := by decide +kernel

/-- 11, Example, steps 1 and 4: the sizes and the times of an ATTEND that reaches its engine in lc 10,002. -/
def cacheCmd : AttnCmd :=
  { kind := 1, handle := 0, app := true, upd := true, layer := 0, kvh := 0, heads := 4, qf := 0, outF32 := false, scale := 0, w := 2048
    d := 128, kf := 8 }
theorem test_attend_times :
    (slotSize 0xA48C4507F, slotsPerReel 0xA48C4507F, reelsPerLane 0xA48C4507F, reelsNeeded 0xA48C4507F) = (256, 128, 16, 192)
    ∧ (appendLc cacheCmd 10002, lastLc cacheCmd 10002, nextCmdLc cacheCmd 10002) = (10023, 12071, 12087) := by decide +kernel

/-- 11, Example, step 6: where the metadata of slot 37 lies, and its word. -/
theorem test_slot_metadata :
    placeAt 0x203000128 = .slots 1 37 ∧ metaWord { valid := true, tag := 2048, score := 0 } = 0x0001000000000800 := by decide +kernel

/-- 12, Example: draft 17 of tenant 3 with its two entries, in the lc of A's answer. -/
def withy : Version := { ver with rows := 4, cols := 4, col0 := 12, banks := 0xF, passLc := 10240, npages := 12 }
def entryA : List Byte := row64 [(0, 1), (1, 2), (2, 17), (4, 3), (29, 63), (30, 2)]
def entryB : List Byte := row64 [(0, 1), (1, 1), (2, 17), (4, 1), (16, 0xA0), (17, 0xD8), (18, 0xF9), (19, 5)]
def withyState : State := linked { atL0 with
  clocks := { Clocks.reset with lc := 60600 }
  loom := { Loom.reset with
    now := 100050500, clock := { ClockState.reset with current := 4 }, drafts := [(17, { drf with resident := some withy })]
    rings := [(13, { Ring.init with en := true, size := 2, head := 100, tail := 100, resv := 2, base := 0x8000 })]
    fetched := [{ fetched1 12 entryA with index := 40 }, { fetched1 12 entryB with index := 41, order := 41 }]
    weave := { Weave.reset with
      activeLc := 240000, repDue := false
      active := [(0, { draftEntry with start := 0, len := 12000, id := 17 }), (5, { draftEntry with start := 120000, len := 12000, id := 17 })] } } }

/-- Step 4: A's bookings and promise. -/
theorem test_run_admitted :
    ((after .run withyState).loom.jobs.map (fun j => (j.booked, j.promise, j.resAt))) =
      [([120000, 240000, 360000], 100309579, some (63, 2, 0))] := by decide +kernel

/-- Steps 5 and 6: B's refusal at index 100 of ring 13 (its DONE_AT is left out: the example reads L_NOW at two times). -/
theorem test_run_refused :
    let a := after .run withyState
    let t := after .run { a with clocks := { a.clocks with lc := 60601 }, loom := { a.loom with now := 100050500 } }
    ((weftOf t 1).replay.map (fun e => (e.2.addr, leAt e.2.data 0 1, leAt e.2.data 4 4, leAt e.2.data 16 8, leAt e.2.data 63 1))) =
      [(0x8900, 0x10, 41, 100409979, 0)] := by decide +kernel

/-- 13, Example, step 2: L_WARP_LAT0 and L_WARP_LAT3 of die 1. -/
theorem test_warp_latency :
    warpLatWord (warpWorld { lockedWarp with lat := 26, point := 4, rate := 3 }) 0 = 0x0039001A
    ∧ warpLatWord (warpWorld { lockedWarp with lat := 28, point := 4, rate := 3 }) 0 = 0x0039001C := by decide +kernel

/-- 13, Example, step 3: die 0 locks as its SDELAY is written. -/
theorem test_chain_head : (writeChain 72 { atL0 with pwr := { atL0.pwr with chainPos := 0 } }).loom.chain.locked = true := by decide +kernel

/-- 15, Example, step 5: a block of 40 zero rows, eight rows with 8 nonzero bytes each and sixteen repeats is stored in 192 bytes; a block
of zeros in 64; one of literal rows raw. -/
def activations : List Byte := List.replicate 2560 0
  ++ (span 1 8).flatMap (fun i => List.replicate 8 (BitVec.ofNat 8 i) ++ List.replicate 56 0)
  ++ (List.replicate 16 (List.replicate 8 (8 : Byte) ++ List.replicate 56 0)).flatten
theorem test_block_coding :
    (storedBlock activations).1.length = 192 ∧ slice (storedBlock activations).1 0 16 = List.replicate 10 0 ++ [0xAA, 0xAA, 0x55, 0x55, 0x55, 0x55]
    ∧ (storedBlock (List.replicate 4096 0)).1.length = 64
    ∧ (storedBlock ((span 0 4096).map (fun i => BitVec.ofNat 8 (i % 251 + 1)))).2 = true := by decide +kernel

/-- 15, Example, steps 1, 2 and 8: NBLK, P_MIN and LEAD. -/
def saveExample : List Byte := row64 [(0, 1), (27, 0x40), (28, 0xB2), (32, 0x80), (33, 0x08), (34, 0x10), (40, 0xC0), (41, 0x33), (42, 0x0F), (44, 0x0F)]
theorem test_save_sizes :
    blockCount withyState (parseCkpt saveExample) = 256 ∧ payloadAt 256 = 2176 ∧ restoreLead withyState 256 = 2792
    ∧ pMin { withyState with weft := [(0, { wlink with rate := 3 }), (1, { wlink with rate := 3 })] } = 4 := by decide +kernel

/-- 16, Example: the select of L_TALLY_SEL4. -/
theorem test_tally_select :
    (tallySelOf (after (.loomTallySelect 4 0x10353) atL0) 4) = { src := 0x53, tenant := 3, filter := true } := by decide +kernel

/-- 17, Example, steps 1 and 2: the RES copy takes an uncorrectable word as zero and counts it against the tile. -/
def lastPass : State := bundled 4 { running with loom := { running.loom with
  banks := [(0, 7), (8, 9), (16, 5)], jobs := [{ job0 with resAt := some (0, 0, 0) }]
  weave := { running.loom.weave with slots := [{ pslot with run := .pass (some 9) 10 }] } } }
theorem test_result_copy :
    ((after (.halt 0 [(1, .uncorrectable)]) lastPass).loom.jobs.map (fun j => (j.result, j.poisoned))) =
      [([7, 0, 0, 0, 0, 0, 0, 0, 0, 0, 0, 0, 0, 0, 0, 0, 5, 0, 0, 0, 0, 0, 0, 0], true)]
    ∧ (after (.halt 0 [(1, .uncorrectable)]) lastPass).loom.tileErr = [(0, 1)] := by decide +kernel

/-- A flit with one WRITE of eight bytes to L_DRAFT_ADDR is applied as it arrives (R334, R338, R339). -/
theorem test_flit_write :
    let f := slice ([0, 0, 0, 4, 0, 0, 0, 0, 1, 0, 0, 0, 3, 0, 0, 0, 0, 4] : List Byte) 0 56
    let d := slice ([0x40, 0x12] : List Byte) 0 192
    (after (.flitReceive 0 (f ++ toLe 8 (crc64 (f ++ d)) ++ d) []) (linked atL0)).loom.draftAddr = 0x1240 := by decide +kernel

/-- A failed RESTORE block ends its job alone: its tenant stays unmarked though many rows of one bank are undefined after it (R436). -/
theorem test_restore_bad_block :
    (tenantOf (after (.bobbinMove []) (moving .restore { ckpt1 with checked := true })) 3).faulted = false := by decide +kernel

/-! ## Hypotheses that something meets -/

theorem witness_StepRunsFrontCommand :
    (∃ (s : State) (c : Instr) (rest : List Instr), s.pending = c :: rest) :=
  ⟨{State.reset with pending := [.por]}, Instr.por, [], by decide +kernel⟩

theorem witness_GateReads :
    (∃ (s : State), PortQuiet s)
    ∧ (∃ (s : State), PortQuiet s)
    ∧ (∃ (s : State), GateHears s)
    ∧ (∃ (s : State), PortQuiet s)
    ∧ (∃ (s : State), PortQuiet s) :=
  ⟨⟨State.reset, by decide +kernel⟩,
  ⟨State.reset, by decide +kernel⟩,
  ⟨State.reset, by decide +kernel⟩,
  ⟨State.reset, by decide +kernel⟩,
  ⟨State.reset, by decide +kernel⟩⟩

theorem witness_GateWrites :
    (∃ (s : State) (addr : BitVec 10) (data : List Word), PortQuiet s ∧ 0x140 ≤ addr.toNat ∧ addr.toNat + data.length ≤ 0x200 ∧ data ≠ []
      ∧ data.length ≤ 64)
    ∧ (∃ (s : State) (addr : BitVec 10) (data : List Word), PortQuiet s ∧ 0x140 ≤ addr.toNat ∧ addr.toNat + data.length ≤ 0x200 ∧ data ≠ []
      ∧ data.length ≤ 64)
    ∧ (∃ (s : State), PortQuiet s)
    ∧ (∃ (s : State), PortQuiet s)
    ∧ (∃ (s : State), PortQuiet s)
    ∧ (∃ (s : State) (op : Byte), PortQuiet s ∧ isFrameOp op = false) :=
  ⟨⟨watching, 0x1FF, [(5 : Word)], by decide +kernel⟩,
  ⟨watching, 0x140, (List.replicate 64 (5 : Word)), by decide +kernel⟩,
  ⟨State.reset, by decide +kernel⟩,
  ⟨State.reset, by decide +kernel⟩,
  ⟨State.reset, by decide +kernel⟩,
  ⟨State.reset, 0, by decide +kernel⟩⟩

theorem witness_StagingWrites :
    (∃ (s : State), GateHears s ∧ s.gran.st ≠ .closed ∧ stageRegion (4 * s.gran.offset.toNat) = .open_)
    ∧ (∃ (s : State) (k : BitVec 4), GateHears s ∧ s.gran.st ≠ .closed ∧ stageRegion (4 * (16 * (s.gran.offset.toNat / 16) + k.toNat)) =
      .open_)
    ∧ (∃ (s : State) (clocks : Nat), PortQuiet s ∧ 1 ≤ clocks ∧ clocks < 48)
    ∧ (∃ (s : State) (clocks : Nat), PortQuiet s ∧ 1 ≤ clocks ∧ clocks < 48)
    ∧ (∃ (s : State) (clocks : Nat), PortQuiet s ∧ 8 ≤ clocks ∧ clocks < 240)
    ∧ (∃ (s : State) (clocks : Nat), PortQuiet s ∧ 8 ≤ clocks ∧ clocks < 240)
    ∧ (∃ (s : State), Live s ∧ pinsTested s = false ∧ s.wc.heldWin = none ∧ s.keys.locked = false ∧ s.port.shortFlag = true) :=
  ⟨⟨{keyed with gran := {keyed.gran with offset := 0x100}}, by decide +kernel⟩,
  ⟨{keyed with gran := {keyed.gran with offset := 0x103}}, 15, by decide +kernel⟩,
  ⟨State.reset, 1, by decide +kernel⟩,
  ⟨State.reset, 47, by decide +kernel⟩,
  ⟨State.reset, 8, by decide +kernel⟩,
  ⟨State.reset, 239, by decide +kernel⟩,
  ⟨{State.reset with port := {GatePort.reset with shortFlag := true, shortOp := some 0x5A}}, by decide +kernel⟩⟩

theorem witness_SealedFrames :
    (∃ (s : State) (d : Word) (ctr : Word) (tag : DWord) (n : Nat), Accepts s (.write 0x094 d) ctr tag n)
    ∧ (∃ (s : State) (arg : Word) (ctr : Word) (tag : DWord) (mon : ProgMon) (n : Nat), Accepts s (.command 1 arg) ctr tag n ∧ mon.nvLow =
      none ∧ (granaryCommit s.gran s.gran mon).2 = none)
    ∧ (∃ (s : State) (arg : Word) (ctr : Word) (tag : DWord) (mon : ProgMon) (n : Nat), Accepts s (.command 2 arg) ctr tag n ∧ mon.nvLow =
      none ∧ (granaryCommit s.gran (stageCeiling s.gran n ((slotOf s.keys n).h + 1024)) mon).2 = none)
    ∧ (∃ (s : State) (k : BitVec 2) (arg : Word) (ctr : Word) (tag : DWord) (n : Nat), Accepts s (.command (0x10 + k.setWidth 16) arg) ctr
      tag n)
    ∧ (∃ (s : State) (arg : Word) (ctr : Word) (tag : DWord) (n : Nat), Accepts s (.command 0x14 arg) ctr tag n)
    ∧ (∃ (s : State) (arg : Word) (ctr : Word) (tag : DWord) (n : Nat), Accepts s (.command 0x14 arg) ctr tag n) :=
  ⟨⟨keyed, 3, 1, (tagOf (.write 0x094 3)), 0, by decide +kernel⟩,
  ⟨keyed, 0, 1, (tagOf (.command 1 0)), noMonitors, 0, by decide +kernel⟩,
  ⟨keyed, 0, 1, (tagOf (.command 2 0)), noMonitors, 0, by decide +kernel⟩,
  ⟨keyed, 3, 0xAB, 1, (tagOf (.command 0x13 0xAB)), 0, by decide +kernel⟩,
  ⟨{keyed with keys := {keyed.keys with loadKey := 9, parts := 15}}, 0x0101, 1, (tagOf (.command 0x14 0x0101)), 0, by decide +kernel⟩,
  ⟨{keyed with keys := putSlot {keyed.keys with loadKey := 9, parts := 15} 1 {key := 0, st := .retired, rights := 0, h := 5, c := 9}},
    0x0101, 1, (tagOf (.command 0x14 0x0101)), 0, by decide +kernel⟩⟩

theorem witness_KeyCommands :
    (∃ (s : State) (arg : Word) (ctr : Word) (tag : DWord) (n : Nat), Accepts s (.command 0x15 arg) ctr tag n)
    ∧ (∃ (s : State) (arg : Word) (ctr : Word) (tag : DWord) (n : Nat), Accepts s (.command 0x16 arg) ctr tag n)
    ∧ (∃ (s : State), GateHears s ∧ s.gran.st ≠ .closed ∧ (∀ m < 4, (slotOf s.keys m).st = .empty) ∧ initKey s.keys ≠ 0)
    ∧ (∃ (s : State) (code : BitVec 16), PortQuiet s ∧ s.gran.st ≠ .closed ∧ isKnownCommand code.toNat = false)
    ∧ (∃ (s : State), GateHears s ∧ s.keys.locked = true) :=
  ⟨⟨{keyed with keys := putSlot keyed.keys 3 { key := 5, st := .active, rights := 63, h := 1024, c := 0 }}, 3, 1, (tagOf (.command 0x15
    3)), 0, by decide +kernel⟩,
  ⟨keyed, 0, 1, (tagOf (.command 0x16 0)), 0, by decide +kernel⟩,
  ⟨{State.reset with gran := {Granary.reset with st := .empty}, keys := {Seal.reset with init3 := 1}}, by decide +kernel⟩,
  ⟨keyed, 3, by decide +kernel⟩,
  ⟨{State.reset with keys := {Seal.reset with locked := true, lockLeft := 65536, consec := 16}}, by decide +kernel⟩⟩

theorem witness_BadTagsCount :
    (∃ (s : State) (fb : BitVec 16) (d : Word) (ctr : Word) (tag : DWord), PortQuiet s ∧ verdictOf (.write fb d) ctr tag s =
      { code := 1, slot := none, effect := false })
    ∧ (∃ (s : State) (fb : BitVec 16) (d : Word) (ctr : Word) (tag : DWord), PortQuiet s ∧ verdictOf (.write fb d) ctr tag s =
      { code := 1, slot := none, effect := false }) :=
  ⟨⟨keyed, 0x042, 0, 1, 0, by decide +kernel⟩,
  ⟨{keyed with keys := {keyed.keys with consec := 15}}, 0x042, 0, 1, 0, by decide +kernel⟩⟩

theorem witness_SealedFramesNeedOpen :
    (∃ (s : State), PortQuiet s ∧ s.gran.st = .closed)
    ∧ (∃ (s : State), PortQuiet s ∧ s.gran.st = .closed)
    ∧ (∃ (s : State), PortQuiet s ∧ s.gran.st = .closed)
    ∧ (∃ (s : State), PortQuiet s ∧ s.gran.st = .closed)
    ∧ (∃ (s : State), PortQuiet s ∧ s.gran.st = .closed)
    ∧ (∃ (s : State), PortQuiet s ∧ s.gran.st = .closed)
    ∧ (∃ (s : State), PortQuiet s ∧ s.gran.st = .closed)
    ∧ (∃ (s : State), PortQuiet s ∧ s.gran.st = .closed) :=
  ⟨⟨State.reset, by decide +kernel⟩,
  ⟨State.reset, by decide +kernel⟩,
  ⟨State.reset, by decide +kernel⟩,
  ⟨State.reset, by decide +kernel⟩,
  ⟨State.reset, by decide +kernel⟩,
  ⟨State.reset, by decide +kernel⟩,
  ⟨State.reset, by decide +kernel⟩,
  ⟨State.reset, by decide +kernel⟩⟩

theorem witness_NewerImageWins :
    (∃ (s : State), PortQuiet s)
    ∧ (∃ (s : State), PortQuiet s)
    ∧ (∃ (s : State), PortQuiet s)
    ∧ (∃ (s : State), PortQuiet s)
    ∧ (∃ (s : State), PortQuiet s)
    ∧ (∃ (s : State), PortQuiet s)
    ∧ (∃ (s : State), PortQuiet s) :=
  ⟨⟨(imaged (tinyImage 1) (tinyImage 2)), by decide +kernel⟩,
  ⟨(imaged (tinyImage 2) (tinyImage 1)), by decide +kernel⟩,
  ⟨(imaged (tinyImage 0) (tinyImage 0x80000000)), by decide +kernel⟩,
  ⟨(imaged (tinyImage 5) []), by decide +kernel⟩,
  ⟨(imaged [] (tinyImage 5)), by decide +kernel⟩,
  ⟨(imaged [] []), by decide +kernel⟩,
  ⟨(imaged (tinyImage 0xFFFFFFFF) (tinyImage 3)), by decide +kernel⟩⟩

theorem witness_OpenLoadsSlots :
    (∃ (s : State), PortQuiet s) :=
  ⟨State.reset, by decide +kernel⟩

theorem witness_GateAndWatchResets :
    (∃ (s : State) (d : Word), GateHears s ∧ d.toNat / 65536 = 0x6A7E ∧ d.getLsbD 0 = true ∧ d.getLsbD 1 = false)
    ∧ (∃ (s : State) (d : Word), GateHears s ∧ d.toNat / 65536 = 0x6A7E ∧ d.getLsbD 0 = true ∧ d.getLsbD 1 = false)
    ∧ (∃ (s : State) (d : Word), GateHears s ∧ d.toNat / 65536 = 0x6A7E ∧ d.getLsbD 0 = false ∧ d.getLsbD 1 = true)
    ∧ (∃ (s : State) (d : Word), GateHears s ∧ d.toNat / 65536 = 0x6A7E ∧ d.getLsbD 0 = false ∧ d.getLsbD 1 = true)
    ∧ (∃ (s : State) (d : Word), GateHears s ∧ d.toNat / 65536 = 0x6A7E ∧ d.getLsbD 0 = true ∧ d.getLsbD 1 = true)
    ∧ (∃ (s : State) (d : Word), GateHears s ∧ d.toNat / 65536 = 0x6A7E ∧ d.getLsbD 0 = true ∧ d.getLsbD 1 = true)
    ∧ (∃ (s : State) (d : Word), Live s ∧ d.toNat / 65536 ≠ 0x6A7E) :=
  ⟨⟨keyed, 0x6A7E0001, by decide +kernel⟩,
  ⟨{keyed with esc := {Escalation.reset with st := .waitLoom, en := true}, loft := {Loft.reset with hold := true}, wtally := {WatchTally.reset with shadow := [(3, 5)]}, pwr := {Power.reset with block := 5, abort := 4, conflicts := 2}},
    0x6A7E0001, by decide +kernel⟩,
  ⟨watching, 0x6A7E0002, by decide +kernel⟩,
  ⟨{watching with esc := {Escalation.reset with st := .waitLoom, en := true}, loft := {Loft.reset with hold := true}, wtally := {WatchTally.reset with shadow := [(3, 5)]}, wflight := [{addr := 0x181, data := 5, via := .unsealed, at_ := 3}]},
    0x6A7E0002, by decide +kernel⟩,
  ⟨watching, 0x6A7E0003, by decide +kernel⟩,
  ⟨keyed, 0x6A7E0003, by decide +kernel⟩,
  ⟨State.reset, 3, by decide +kernel⟩⟩

theorem witness_PowerRequestsAreTaken :
    (∃ (s : State), GateHears s ∧ s.pwr.st ≠ .l3)
    ∧ (∃ (s : State), GateHears s ∧ s.pwr.st ≠ .l3)
    ∧ (∃ (s : State) (target : BitVec 2), GateHears s ∧ s.pwr.st = .l3 ∧ s.pwr.stage = .steady ∧ target ≠ 3)
    ∧ (∃ (s : State) (target : BitVec 2), HostHeard s ∧ target ≠ 3) :=
  ⟨⟨{staged .l2 (.lsramHold .l1) with esc := {Escalation.reset with en := true}}, by decide +kernel⟩,
  ⟨atL0, by decide +kernel⟩,
  ⟨State.reset, 2, by decide +kernel⟩,
  ⟨atL1, 2, by decide +kernel⟩⟩

theorem witness_OrderingPoint :
    (∃ (s : State), Live s ∧ s.pwr.st = .l0 ∧ s.pwr.stage = .steady ∧ s.pwr.gateReq = none ∧ s.pwr.bellWake = false ∧ s.pwr.weftReqs = []
      ∧ s.pwr.chainPos ≠ 0 ∧ s.loom.clock.relocking = false ∧ NothingDue s)
    ∧ (∃ (s : State) (g : LoomState) (h : LoomState) (ten : Byte) (k : Nat), Live s ∧ s.pwr.st = .l0 ∧ s.pwr.stage = .steady ∧ s.pwr.target
      = g ∧ s.pwr.gateReq = some g ∧ g ≠ h ∧ g ≠ .l3 ∧ s.pwr.weftReqs = [(h, ten, k)] ∧ (ringOf s (4 * ten.toNat + 2)).en = false ∧
      NothingDue s)
    ∧ (∃ (s : State) (g : LoomState) (h : LoomState) (ten : Byte) (k : Nat), Live s ∧ s.pwr.st = .l0 ∧ s.pwr.stage = .steady ∧ s.pwr.target
      ≠ g ∧ s.pwr.reached = true ∧ s.pwr.gateReq = some g ∧ g ≠ h ∧ g ≠ .l3 ∧ s.pwr.weftReqs = [(h, ten, k)] ∧ s.loom.load = none ∧
      (ringOf s (4 * ten.toNat + 2)).en = false ∧ NothingDue s)
    ∧ (∃ (s : State) (h : LoomState) (ten : Byte) (k : Nat), Live s ∧ s.pwr.st = .l0 ∧ s.pwr.stage = .steady ∧ s.pwr.target ≠ .l3 ∧
      s.pwr.reached = true ∧ s.pwr.gateReq = none ∧ s.pwr.bellWake = false ∧ s.pwr.weftReqs = [(h, ten, k)] ∧ h ≠ s.pwr.target ∧ h ≠ .l3
      ∧ s.loom.load = none ∧ NothingDue s)
    ∧ (∃ (s : State), Live s ∧ s.pwr.st = .l1 ∧ s.pwr.stage = .move .l0 ∧ s.pwr.target = .l0 ∧ s.loom.clock.pending = false ∧
      s.pwr.resetOwed = false) :=
  ⟨⟨atL0, by decide +kernel⟩,
  ⟨{atL0 with pwr := {atL0.pwr with gateReq := some .l0, weftReqs := [(.l2, 7, 0)]}}, .l0, .l2, 7, 0, by decide +kernel⟩,
  ⟨{atL0 with pwr := {atL0.pwr with gateReq := some .l1, weftReqs := [(.l2, 7, 0)]}}, .l1, .l2, 7, 0, by decide +kernel⟩,
  ⟨{atL0 with pwr := {atL0.pwr with weftReqs := [(.l1, 7, 0)]}}, .l1, 7, 0, by decide +kernel⟩,
  ⟨{atL1 with pwr := {atL1.pwr with stage := .move .l0, target := .l0, reached := false}}, by decide +kernel⟩⟩

theorem witness_LoomResetAndDrain :
    (∃ (s : State), GateHears s ∧ s.pwr.st = .l1 ∧ s.pwr.target ≠ .l3 ∧ s.pwr.stage = .steady ∧ s.pwr.resetOwed = false ∧
      s.loom.clock.relocking = false ∧ s.loom.load = none ∧ s.esc.st = .idle)
    ∧ (∃ (s : State), Live s ∧ s.pwr.st = .l1 ∧ s.pwr.stage = .drain true ∧ s.loom.jobs = [] ∧ s.weft = [])
    ∧ (∃ (s : State), Live s ∧ s.pwr.stage = .drain false ∧ s.loom.jobs = [] ∧ s.weft = [])
    ∧ (∃ (s : State), Live s ∧ s.pwr.stage = .resetPhase 3)
    ∧ (∃ (s : State), Live s ∧ s.pwr.stage = .resetPhase 4 ∧ s.pwr.target = .l1 ∧ s.weft = [] ∧ s.loom.clock.pending = false)
    ∧ (∃ (s : State), Live s ∧ s.pwr.drained = true)
    ∧ (∃ (s : State), Live s ∧ s.pwr.drained = true)
    ∧ (∃ (s : State), Live s ∧ s.pwr.drained = true)
    ∧ (∃ (s : State), Live s ∧ s.pwr.drained = true)
    ∧ (∃ (s : State), Live s ∧ s.pwr.drained = true)
    ∧ (∃ (s : State), Live s ∧ s.pwr.drained = true) :=
  ⟨⟨{atL1 with pwr := {atL1.pwr with reqTarget := 1, reqCut := true, reqTenant := 9}}, by decide +kernel⟩,
  ⟨(staged .l1 (.drain true)), by decide +kernel⟩,
  ⟨(staged .l1 (.drain false)), by decide +kernel⟩,
  ⟨(staged .l1 (.resetPhase 3)), by decide +kernel⟩,
  ⟨{staged .l1 (.resetPhase 4) with pwr := {(staged .l1 (.resetPhase 4)).pwr with target := .l1, reqReset := true, reqTreset := true, drained := true, reached := false}, loom := {Loom.reset with now := 77, drafts := [(5, drf)], jobs := [job0]}},
    by decide +kernel⟩,
  ⟨{linked (staged .l1 (.drain false)) with pwr := {(staged .l1 (.drain false)).pwr with drained := true}}, by decide +kernel⟩,
  ⟨{linked (staged .l1 (.drain true)) with pwr := {(staged .l1 (.drain true)).pwr with drained := true}}, by decide +kernel⟩,
  ⟨{linked (staged .l1 (.drain true)) with pwr := {(staged .l1 (.drain true)).pwr with drained := true}}, by decide +kernel⟩,
  ⟨{linked (staged .l1 (.drain true)) with pwr := {(staged .l1 (.drain true)).pwr with drained := true}}, by decide +kernel⟩,
  ⟨{linked (staged .l1 (.drain false)) with pwr := {(staged .l1 (.drain false)).pwr with drained := true}}, by decide +kernel⟩,
  ⟨{linked (staged .l1 (.drain false)) with pwr := {(staged .l1 (.drain false)).pwr with drained := true}}, by decide +kernel⟩⟩

theorem witness_ExitFromL3 :
    (∃ (s : State), Live s ∧ s.pwr.st = .l3 ∧ s.pwr.stage = .exitHeld)
    ∧ (∃ (s : State), Live s ∧ s.pwr.stage = .exitPhase 1 false)
    ∧ (∃ (s : State) (n : Nat), Live s ∧ s.pwr.stage = .exitPhase n true)
    ∧ (∃ (s : State), Live s ∧ s.pwr.stage = .exitPhase 2 false)
    ∧ (∃ (s : State), Live s ∧ s.pwr.stage = .exitPhase 3 false)
    ∧ (∃ (s : State), Live s ∧ s.pwr.stage = .exitPhase 4 false ∧ s.pwr.target = .l1 ∧ s.weft = [] ∧ s.loom.clock.pending = false ∧
      s.pwr.resetOwed = false) :=
  ⟨⟨(staged .l3 .exitHeld), by decide +kernel⟩,
  ⟨(staged .l3 (.exitPhase 1 false)), by decide +kernel⟩,
  ⟨{staged .l3 (.exitPhase 2 true) with pwr := {(staged .l3 (.exitPhase 2 true)).pwr with reqReset := true, resetOwed := true, target := .l3}, mon := {Monitors.reset with pllLock := true}},
    2, by decide +kernel⟩,
  ⟨(staged .l3 (.exitPhase 2 false)), by decide +kernel⟩,
  ⟨(staged .l3 (.exitPhase 3 false)), by decide +kernel⟩,
  ⟨{staged .l3 (.exitPhase 4 false) with pwr := {(staged .l3 (.exitPhase 4 false)).pwr with target := .l1}}, by decide +kernel⟩⟩

theorem witness_SupplyEvents :
    (∃ (s : State) (d : LoomState), Live s ∧ s.pwr.stage = .lsramHold d)
    ∧ (∃ (s : State), Live s ∧ s.pwr.st ≠ .l3)
    ∧ (∃ (s : State) (m : Fin 6), Live s ∧ s.pwr.held.getLsbD m.val = true ∧ s.pwr.stage ≠ .exitHeld)
    ∧ (∃ (s : State), Live s ∧ s.pwr.st = .l3 ∧ s.pwr.stage = .exitHeld)
    ∧ (∃ (s : State) (m : Fin 6), GateHears s ∧ s.pwr.linkReq.getLsbD m.val = false)
    ∧ (∃ (s : State) (m : Fin 6), GateHears s ∧ s.pwr.linkReq.getLsbD m.val = true ∧ s.pwr.powered.getLsbD m.val = false)
    ∧ (∃ (s : State) (m : Fin 6), Live s ∧ s.pwr.held.getLsbD m.val = true)
    ∧ (∃ (s : State) (m : Fin 6), Live s ∧ 2 ≤ m.val ∧ s.pwr.powered.getLsbD m.val = true ∧ (warpOf s (m.val - 2)).locked = false) :=
  ⟨⟨(staged .l2 (.lsramHold .l1)), .l1, by decide +kernel⟩,
  ⟨{atL0 with esc := {Escalation.reset with st := .copy}, loom := {Loom.reset with now := 8}}, by decide +kernel⟩,
  ⟨{atL0 with pwr := {atL0.pwr with held := 32}}, 5, by decide +kernel⟩,
  ⟨(staged .l3 .exitHeld), by decide +kernel⟩,
  ⟨{State.reset with pwr := {Power.reset with linkReq := 31, powered := 2}}, 5, by decide +kernel⟩,
  ⟨{State.reset with pwr := {Power.reset with linkReq := 63, held := 32}}, 5, by decide +kernel⟩,
  ⟨{State.reset with pwr := {Power.reset with linkReq := 63, held := 1}}, 0, by decide +kernel⟩,
  ⟨{State.reset with pwr := {Power.reset with linkReq := 63, powered := 4}, warp := [(0, {WarpModule.init with phase := 3, train := true})]},
    2, by decide +kernel⟩⟩

theorem witness_TenantControl :
    (∃ (s : State), GateHears s)
    ∧ (∃ (s : State), GateHears s)
    ∧ (∃ (s : State) (i : BitVec 8), Live s ∧ orderingRuns s.pwr = true ∧ s.pwr.block.getLsbD i.toNat = true ∧ s.pwr.abort.getLsbD i.toNat
      = false ∧ (tenantOf s i.toNat).blocked = false ∧ (ringOf s (4 * i.toNat + 2)).en = false)
    ∧ (∃ (s : State) (v : DWord), HostHeard s ∧ resetRuns s.pwr = false ∧ v.toNat % 65536 = 0x5E7A)
    ∧ (∃ (s : State), GateHears s ∧ s.pwr.st = .l0 ∧ resetRuns s.pwr = false)
    ∧ (∃ (s : State), GateHears s ∧ s.esc.st = .idle)
    ∧ (∃ (s : State) (d : Word), GateHears s ∧ s.esc.st = .waitLoom ∧ s.esc.fetched = false ∧ s.loft.releaseOwed = false ∧ d.getLsbD 0 =
      false) :=
  ⟨⟨State.reset, by decide +kernel⟩,
  ⟨State.reset, by decide +kernel⟩,
  ⟨{atL0 with pwr := {atL0.pwr with block := BitVec.ofNat 256 (2^255)}}, 255, by decide +kernel⟩,
  ⟨atL0, 0x5E7A, by decide +kernel⟩,
  ⟨atL0, by decide +kernel⟩,
  ⟨State.reset, by decide +kernel⟩,
  ⟨{atL0 with esc := {Escalation.reset with st := .waitLoom, en := true, keep := true}, loft := {Loft.reset with hold := true}}, 0,
    by decide +kernel⟩⟩

theorem witness_WatchmanMonitors :
    (∃ (s : State), Live s ∧ s.wc.aonclk = false)
    ∧ (∃ (s : State), Live s ∧ s.wc.aonclk = true)
    ∧ (∃ (s : State), WatchRuns s)
    ∧ (∃ (s : State), Live s)
    ∧ (∃ (s : State), Live s) :=
  ⟨⟨State.reset, by decide +kernel⟩,
  ⟨watching, by decide +kernel⟩,
  ⟨watching, by decide +kernel⟩,
  ⟨State.reset, by decide +kernel⟩,
  ⟨{State.reset with mon := {Monitors.reset with therm := true}}, by decide +kernel⟩⟩

theorem witness_BoundaryScan :
    (∃ (s : State), TapRests s)
    ∧ (∃ (s : State), TapRests s)
    ∧ (∃ (s : State), TapRests s)
    ∧ (∃ (s : State), TapRests s)
    ∧ (∃ (s : State), TapRests s)
    ∧ (∃ (s : State) (op : BitVec 4), TapRests s ∧ 4 ≤ op.toNat)
    ∧ (∃ (s : State) (op : BitVec 4), TapRests s ∧ 4 ≤ op.toNat)
    ∧ (∃ (s : State) (op : BitVec 4), TapRests s ∧ 4 ≤ op.toNat)
    ∧ (∃ (s : State), Live s)
    ∧ (∃ (s : State) (n : Nat), PortQuiet s ∧ TapRests s ∧ 1 ≤ n ∧ n < 48)
    ∧ (∃ (s : State) (n : Nat), PortQuiet s ∧ TapRests s ∧ 1 ≤ n ∧ n < 48)
    ∧ (∃ (s : State) (n : Nat), PortQuiet s ∧ TapRests s ∧ 1 ≤ n ∧ n < 48) :=
  ⟨⟨{watching with fe := {FrontEnd.reset with sensBusy := true}}, by decide +kernel⟩,
  ⟨State.reset, by decide +kernel⟩,
  ⟨{watching with fe := {FrontEnd.reset with sensBusy := true}}, by decide +kernel⟩,
  ⟨{State.reset with jtag := {State.reset.jtag with tap := .runTestIdle}}, by decide +kernel⟩,
  ⟨State.reset, by decide +kernel⟩,
  ⟨State.reset, 15, by decide +kernel⟩,
  ⟨State.reset, 4, by decide +kernel⟩,
  ⟨State.reset, 15, by decide +kernel⟩,
  ⟨State.reset, by decide +kernel⟩,
  ⟨State.reset, 47, by decide +kernel⟩,
  ⟨State.reset, 1, by decide +kernel⟩,
  ⟨State.reset, 1, by decide +kernel⟩⟩

theorem witness_Channels :
    (∃ (s : State) (ch : BitVec 1), WatchHears s ∧ s.fe.feCtrl.getLsbD ch.toNat = false ∧ s.fe.feCtrl &&& 0x77F = s.fe.feCtrl)
    ∧ (∃ (s : State) (ch : BitVec 1), WatchHears s ∧ s.fe.feCtrl.getLsbD ch.toNat = true ∧ s.fe.feCtrl &&& 0x77F = s.fe.feCtrl)
    ∧ (∃ (s : State) (ch : BitVec 1) (g : BitVec 3), WatchHears s ∧ s.fe.feCtrl &&& 0x77F = s.fe.feCtrl ∧ min g.toNat 5 ≠ effGain
      s.fe.feCtrl ch.toNat)
    ∧ (∃ (s : State) (ch : BitVec 1) (g : BitVec 3), WatchHears s ∧ s.fe.feCtrl &&& 0x77F = s.fe.feCtrl ∧ min g.toNat 5 ≠ effGain
      s.fe.feCtrl ch.toNat)
    ∧ (∃ (s : State) (ch : BitVec 1), WatchHears s ∧ s.fe.feCtrl &&& 0x77F = s.fe.feCtrl ∧ s.fe.feCtrl.getLsbD ch.toNat = true ∧
      s.fe.feCtrl.getLsbD (2 + ch.toNat) = false)
    ∧ (∃ (s : State) (ch : BitVec 1), WatchHears s ∧ s.fe.feCtrl &&& 0x77F = s.fe.feCtrl ∧ s.fe.feCtrl.getLsbD ch.toNat = true ∧
      s.fe.feCtrl.getLsbD (2 + ch.toNat) = false)
    ∧ (∃ (s : State) (ch : BitVec 1), Live s ∧ s.mon.rails.mic = true ∧ s.fe.feCtrl.getLsbD ch.toNat = true ∧ (chanOf s.fe ch.toNat).owesFe
      = true ∧ (chanOf s.fe ch.toNat).muteEnd ≤ s.clocks.wclk ∧ s.fe.biasOwes.getLsbD ch.toNat = false) :=
  ⟨⟨watching, 1, by decide +kernel⟩,
  ⟨{watching with fe := {FrontEnd.reset with feCtrl := 0x033, chan := [(1,{Channel.init with feBit := true, feBroken := false})]}, loft := {Loft.reset with ch := true, feRun := 9}},
    1, by decide +kernel⟩,
  ⟨{watching with fe := {FrontEnd.reset with feCtrl := 0x033, chan := [(1,{Channel.init with muteEnd := 99999999})]}}, 1, 7,
    by decide +kernel⟩,
  ⟨{watching with fe := {FrontEnd.reset with feCtrl := 0x033}}, 0, 0, by decide +kernel⟩,
  ⟨{watching with fe := {FrontEnd.reset with feCtrl := 0x033}}, 1, by decide +kernel⟩,
  ⟨{watching with fe := {FrontEnd.reset with feCtrl := 0x033, ramping := true, rampGoal := 9000, chan := [(1, {Channel.init with muteEnd := 7})]}},
    1, by decide +kernel⟩,
  ⟨{watching with mon := {Monitors.reset with rails := {Monitors.reset.rails with mic := true}}, clocks := {Clocks.reset with wclk := 5}, fe := {FrontEnd.reset with feCtrl := 0x002, chan := [(1,{Channel.init with muteEnd := 5, owesFe := true})]}},
    1, by decide +kernel⟩⟩

theorem witness_BiasRamps :
    (∃ (s : State), WatchHears s ∧ s.mon.rails.mic = true ∧ s.fe.micbCtrl &&& 0x1F = s.fe.micbCtrl ∧ s.fe.micbCtrl.getLsbD 0 = false)
    ∧ (∃ (s : State), WatchHears s ∧ s.mon.rails.mic = true ∧ s.fe.micbCtrl &&& 0x1F = s.fe.micbCtrl ∧ s.fe.micbCtrl.getLsbD 0 = false)
    ∧ (∃ (s : State), WatchHears s ∧ s.fe.micbCtrl &&& 0x1F = s.fe.micbCtrl ∧ s.fe.micbCtrl.getLsbD 0 = true)
    ∧ (∃ (s : State) (v : BitVec 2), WatchHears s ∧ s.mon.rails.mic = true ∧ s.fe.micbCtrl &&& 0x1F = s.fe.micbCtrl ∧ s.fe.micbCtrl.getLsbD
      0 = true ∧ v.toNat ≠ s.fe.micbCtrl.toNat / 2 % 4)
    ∧ (∃ (s : State) (r : BitVec 2), WatchHears s ∧ s.fe.micbCtrl &&& 0x1F = s.fe.micbCtrl ∧ s.fe.micbCtrl.getLsbD 0 = true ∧ r.toNat ≠
      s.fe.micbCtrl.toNat / 8 % 4)
    ∧ (∃ (s : State), Live s ∧ s.fe.ramping = true ∧ rampEndAt s.fe ≤ s.clocks.wclk) :=
  ⟨⟨{watching with mon := {Monitors.reset with rails := {Monitors.reset.rails with mic := true}}, fe := {FrontEnd.reset with micbCtrl := 0x1E, feCtrl := 0xF, rampFrom := 4000, rampGoal := 0}},
    by decide +kernel⟩,
  ⟨{watching with mon := {Monitors.reset with rails := {Monitors.reset.rails with mic := true}}, fe := {FrontEnd.reset with micbCtrl := 0x1E, feCtrl := 0x1, biasOwes := 3, rampFrom := 4000, rampGoal := 0}},
    by decide +kernel⟩,
  ⟨{watching with fe := {FrontEnd.reset with micbCtrl := 0x1F, feCtrl := 0xF, hdrm := true, rampFrom := 4000, rampGoal := 4000}},
    by decide +kernel⟩,
  ⟨{watching with mon := {Monitors.reset with rails := {Monitors.reset.rails with mic := true}}, fe := {FrontEnd.reset with micbCtrl := 0x1F, feCtrl := 0xF, biasOwes := 1}},
    0, by decide +kernel⟩,
  ⟨{watching with fe := {FrontEnd.reset with micbCtrl := 0x1F, feCtrl := 0xF}}, 0, by decide +kernel⟩,
  ⟨{watching with clocks := {Clocks.reset with wclk := 10}, fe := {FrontEnd.reset with ramping := true, rampGoal := 100}},
    by decide +kernel⟩⟩

theorem witness_BiasFaults :
    (∃ (s : State), WatchRuns s ∧ s.fe.micbCtrl.getLsbD 0 = true ∧ s.fe.hdrm = false ∧ s.fe.limit = false ∧ s.wtally.sel = [])
    ∧ (∃ (s : State), WatchRuns s ∧ s.fe.micbCtrl.getLsbD 0 = true ∧ s.fe.hdrm = true ∧ s.fe.limit = false)
    ∧ (∃ (s : State), WatchRuns s ∧ s.fe.micbCtrl.getLsbD 0 = true ∧ s.fe.hdrm = false ∧ s.fe.limit = false ∧ s.wtally.sel = [] ∧
      s.fe.ramping = false ∧ s.fe.rampStart + 12288 ≤ s.clocks.wclk)
    ∧ (∃ (s : State) (b : Nat), Live s ∧ ((s.fe.hdrmSince = some b ∨ s.fe.limitSince = some b)) ∧ b + 24576 ≤ s.clocks.wclk)
    ∧ (∃ (s : State) (b : Nat), Live s ∧ ((s.fe.hdrmSince = some b ∨ s.fe.limitSince = some b)) ∧ b + 24576 ≤ s.clocks.wclk)
    ∧ (∃ (s : State) (g : Nat), Live s ∧ s.fe.goodSince = some g ∧ g + 49152 ≤ s.clocks.wclk ∧ s.fe.fault = true)
    ∧ (∃ (s : State), Live s ∧ s.mon.rails.mic = true)
    ∧ (∃ (s : State), WatchRuns s ∧ s.mon.rails.mic = false ∧ s.fe.micbCtrl.getLsbD 0 = false) :=
  ⟨⟨{watching with fe := {FrontEnd.reset with micbCtrl := 1, goodSince := some 0}}, by decide +kernel⟩,
  ⟨{watching with clocks := {Clocks.reset with wclk := 5}, fe := {FrontEnd.reset with micbCtrl := 1, hdrm := true, hdrmSeen := true, hdrmSince := some 2}},
    by decide +kernel⟩,
  ⟨{watching with clocks := {Clocks.reset with wclk := 12288}, fe := {FrontEnd.reset with micbCtrl := 1}}, by decide +kernel⟩,
  ⟨{watching with clocks := {Clocks.reset with wclk := 24577}, fe := {FrontEnd.reset with micbCtrl := 1, feCtrl := 15, limit := true, limitSince := some 1}},
    1, by decide +kernel⟩,
  ⟨{watching with clocks := {Clocks.reset with wclk := 24577}, fe := {FrontEnd.reset with micbCtrl := 1, feCtrl := 15, hdrm := true, hdrmSince := some 1, limitSince := some 9}},
    1, by decide +kernel⟩,
  ⟨{watching with clocks := {Clocks.reset with wclk := 49152}, fe := {FrontEnd.reset with feCtrl := 15, fault := true, goodSince := some 0}},
    0, by decide +kernel⟩,
  ⟨{watching with mon := {Monitors.reset with rails := {Monitors.reset.rails with mic := true}}, fe := {FrontEnd.reset with feCtrl := 15, ramping := true, rampGoal := 9, chan := [(0,{Channel.init with feBit := true})], enc := [(71,{Encoder.init with armed := true})]}, loft := {Loft.reset with ch := true, feRun := 9}},
    by decide +kernel⟩,
  ⟨{watching with fe := {FrontEnd.reset with feCtrl := 3}}, by decide +kernel⟩⟩

theorem witness_EncodersAndSensors :
    (∃ (s : State), WatchHears s ∧ s.fe.fbCtrl &&& 0x3FFF3 = s.fe.fbCtrl)
    ∧ (∃ (s : State), WatchHears s)
    ∧ (∃ (s : State), WatchHears s ∧ s.fe.decCtrl &&& 0xF = s.fe.decCtrl ∧ s.fe.decCtrl.getLsbD 0 = false)
    ∧ (∃ (s : State), WatchHears s ∧ s.fe.sens0 &&& 0x1FFFF = s.fe.sens0 ∧ s.fe.sens0.getLsbD 0 = false)
    ∧ (∃ (s : State), WatchHears s ∧ s.fe.sens0 &&& 0x1FFFF = s.fe.sens0 ∧ s.fe.sens0.getLsbD 0 = true ∧ s.fe.sensBusy = true)
    ∧ (∃ (s : State), WatchHears s)
    ∧ (∃ (s : State), WatchRuns s ∧ s.fe.sens0.getLsbD 0 = true ∧ s.fe.nextTick ≤ s.clocks.wclk ∧ pinsTested s = false ∧ s.fe.sensBusy =
      false)
    ∧ (∃ (s : State), Live s ∧ s.fe.sensBusy = true ∧ pinsTested s = false ∧ s.fe.sens0.getLsbD 0 = true ∧ s.fe.sensStart + txnClocks
      s.fe.sensTxn.1 ≤ s.clocks.wclk)
    ∧ (∃ (s : State), Live s ∧ s.fe.sensBusy = true ∧ pinsTested s = false ∧ s.fe.sens0.getLsbD 0 = true ∧ s.fe.sensStart + txnClocks
      s.fe.sensTxn.1 ≤ s.clocks.wclk)
    ∧ (∃ (s : State), WatchRuns s ∧ viewRecord s.gran homeFeTrim = none ∧ viewRecord s.gran homeMicbTrim = none) :=
  ⟨⟨watching, by decide +kernel⟩,
  ⟨watching, by decide +kernel⟩,
  ⟨{watching with fe := {FrontEnd.reset with feCtrl := 2}}, by decide +kernel⟩,
  ⟨{watching with clocks := {Clocks.reset with wclk := 77}, fe := {FrontEnd.reset with taken := 3}}, by decide +kernel⟩,
  ⟨{watching with fe := {FrontEnd.reset with sens0 := 1, sensBusy := true, sensReady := true}}, by decide +kernel⟩,
  ⟨watching, by decide +kernel⟩,
  ⟨{watching with fe := {FrontEnd.reset with sens0 := 0x1FFFF, sens1 := 3, enc := [(70,{Encoder.init with armed := true})]}},
    by decide +kernel⟩,
  ⟨{watching with clocks := {Clocks.reset with wclk := 99999}, fe := {FrontEnd.reset with sens0 := 1, sensBusy := true, sensTxn := (0x6801, 0)}},
    by decide +kernel⟩,
  ⟨{watching with clocks := {Clocks.reset with wclk := 99999}, fe := {FrontEnd.reset with sens0 := 1, sensBusy := true, sensTxn := (0x4801, 0)}},
    by decide +kernel⟩,
  ⟨watching, by decide +kernel⟩⟩

theorem witness_HopBoundary :
    (∃ (s : State), WatchRuns s ∧ s.fe.gridOn = true) :=
  ⟨{watching with fe := {FrontEnd.reset with gridOn := true, hopNext := 12288, feCtrl := 1, fbCtrl := 0x33}}, by decide +kernel⟩

theorem witness_WatchCoreControl :
    (∃ (s : State), WatchHears s ∧ s.wc.ready = true ∧ s.wc.arm = false ∧ s.wc.stage = .none)
    ∧ (∃ (s : State), WatchHears s ∧ s.wc.arm = true ∧ s.wc.stage = .none)
    ∧ (∃ (s : State), WatchHears s ∧ s.wc.ready = true ∧ s.wc.arm = false ∧ s.wc.running = false ∧ s.wc.waddr.toNat < 0x1A000)
    ∧ (∃ (s : State), WatchHears s ∧ s.wc.arm = true)
    ∧ (∃ (s : State), WatchHears s ∧ s.wc.ready = true ∧ s.wc.arm = false ∧ s.wc.running = false ∧ s.wc.waddr.toNat < 0x1A000) :=
  ⟨⟨{watching with wc := {watching.wc with ready := true, replay := true, live := [(1,5)]}}, by decide +kernel⟩,
  ⟨{watching with wc := {watching.wc with ready := true, arm := true, running := true, h0 := some 5}}, by decide +kernel⟩,
  ⟨{watching with wc := {watching.wc with ready := true, waddr := 0x19FFF}}, by decide +kernel⟩,
  ⟨{watching with wc := {watching.wc with ready := true, arm := true, waddr := 0x1FFFF}}, by decide +kernel⟩,
  ⟨{watching with wc := {watching.wc with ready := true, waddr := 0x19FF0}}, by decide +kernel⟩⟩

theorem witness_WatchSteps :
    (∃ (s : State) (h : Nat) (xs : List Nat) (rest : List (List Nat)), WatchRuns s ∧ s.wc.arm = true ∧ s.wc.replay = false ∧ s.wc.h0 =
      some h ∧ s.wc.stage = .none ∧ s.wc.inputs = xs :: rest ∧ stepStartAt s.wc h ≤ s.clocks.wclk)
    ∧ (∃ (s : State) (left : Sparse (List Token)), Live s ∧ s.wc.stage = .cutoff left ∧ s.wc.h0.getD 0 + 12288 * (s.wc.stepsBegun - 1) +
      39936 ≤ s.clocks.wclk)
    ∧ (∃ (s : State), Live s ∧ s.wc.stage = .ended ∧ s.wc.ends.headD 0 ≤ s.clocks.wclk)
    ∧ (∃ (s : State), Live s ∧ s.wc.stage = .ended ∧ s.wc.ends.headD 0 ≤ s.clocks.wclk ∧ s.wc.pendSet = [] ∧ pinsTested s = false)
    ∧ (∃ (s : State), Live s ∧ s.wc.stage = .ended ∧ s.wc.ends.headD 0 ≤ s.clocks.wclk ∧ s.wc.pendSet = [] ∧ pinsTested s = false)
    ∧ (∃ (s : State), Live s ∧ s.wc.stage = .ended ∧ s.wc.ends.headD 0 ≤ s.clocks.wclk ∧ s.wc.pendSet = [] ∧ pinsTested s = false)
    ∧ (∃ (s : State) (p : Sparse Word), Live s ∧ s.wc.heldWin = some p) :=
  ⟨⟨{watching with wc := {watching.wc with ready := true, arm := true, h0 := some 0, inputs := [[0, 5], [1]], net := [(0,0x00010090),(0x90,0x00000041)]}},
    0, [0, 5], [[1]], by decide +kernel⟩,
  ⟨{watching with clocks := {Clocks.reset with wclk := 39936}, wc := {watching.wc with ready := true, arm := true, h0 := some 0, stepsBegun := 1, stage := .cutoff [(2,[{src := 0, header := 9}])]}},
    [(2,[{src := 0, header := 9}])], by decide +kernel⟩,
  ⟨{watching with clocks := {Clocks.reset with wclk := 100}, wc := {watching.wc with ready := true, arm := true, stopping := true, h0 := some 0, stepsBegun := 1000, stage := .ended, ends := [100]}},
    by decide +kernel⟩,
  ⟨{watching with clocks := {Clocks.reset with wclk := 100}, bell := {Bell.reset with rulesNow := [(0, w32 (1 + 2 * 2 + 8 * 3 + 512 * 4 + 2 ^ 15 * 5)), (7, w32 (1 + 2 * 3 + 8 * 3 + 512 * 4 + 2 ^ 15 * 5)), (1, 1)], latches := 0x2, ringNow := 9, loomNow := 3}, wc := {watching.wc with ready := true, arm := true, h0 := some 0, stepsBegun := 12, winStart := 2, winLenNow := 1, winLenNext := 3, live := [(3, 5), (4, 4)], pub := [(9, 9)], stage := .ended, ends := [100]}},
    by decide +kernel⟩,
  ⟨{watching with clocks := {Clocks.reset with wclk := 100}, bell := {Bell.reset with rulesNow := [(0, w32 (1 + 2 * 2 + 8 * 3 + 512 * 4 + 2 ^ 15 * 5)), (7, w32 (1 + 2 * 3 + 8 * 3 + 512 * 4 + 2 ^ 15 * 5)), (1, 1)], latches := 0x2, ringNow := 9, loomNow := 3}, wc := {watching.wc with ready := true, arm := true, h0 := some 0, stepsBegun := 12, winStart := 2, winLenNow := 1, winLenNext := 3, live := [(3, 5), (4, 4)], pub := [(9, 9)], stage := .ended, ends := [100]}},
    by decide +kernel⟩,
  ⟨{watching with clocks := {Clocks.reset with wclk := 100}, bell := {Bell.reset with rulesNow := [(0, w32 (1 + 2 * 2 + 8 * 3 + 512 * 4 + 2 ^ 15 * 5)), (7, w32 (1 + 2 * 3 + 8 * 3 + 512 * 4 + 2 ^ 15 * 5)), (1, 1)], latches := 0x2, ringNow := 9, loomNow := 3}, wc := {watching.wc with ready := true, arm := true, h0 := some 0, stepsBegun := 11, winStart := 2, winLenNow := 1, winLenNext := 3, live := [(3, 5), (4, 4)], pub := [(9, 9)], stage := .ended, ends := [100]}},
    by decide +kernel⟩,
  ⟨{watching with wc := {watching.wc with heldWin := some [(3,4)], winTotal := 2}}, [(3,4)], by decide +kernel⟩⟩

theorem witness_BellAndLoft :
    (∃ (s : State) (f : Firing) (fs : List Firing), Live s ∧ s.bell.firings = f :: fs ∧ max f.nominal f.ended ≤ s.clocks.wclk ∧ s.esc.en
      = false ∧ f.rules &&& f.loom = 0)
    ∧ (∃ (s : State) (f : Firing) (fs : List Firing), Live s ∧ s.bell.firings = f :: fs ∧ max f.nominal f.ended ≤ s.clocks.wclk ∧ s.esc.en
      = false ∧ f.rules &&& f.loom ≠ 0 ∧ s.pwr.target ≠ .l3)
    ∧ (∃ (s : State), WatchHears s ∧ s.bell.actedAt ≠ s.clocks.wclk)
    ∧ (∃ (s : State), WatchHears s ∧ s.bell.actedAt = s.clocks.wclk)
    ∧ (∃ (s : State), WatchHears s ∧ s.loft.frozen = none)
    ∧ (∃ (s : State) (f : Frozen), WatchHears s ∧ s.loft.frozen = some f)
    ∧ (∃ (s : State), WatchHears s ∧ s.loft.hold = false ∧ s.loft.frozen.all (fun h => h.point != s.clocks.wclk) = true ∧ s.loft.denied.all
      (fun d => d.clk != s.clocks.wclk) = true)
    ∧ (∃ (s : State) (h : Frozen), WatchHears s ∧ s.loft.hold = false ∧ s.loft.frozen = some h ∧ h.point = s.clocks.wclk)
    ∧ (∃ (s : State) (h : Frozen) (d : Denied), WatchHears s ∧ s.loft.hold = false ∧ s.loft.frozen = some h ∧ h.point ≠ s.clocks.wclk ∧
      s.loft.denied = some d ∧ d.clk = s.clocks.wclk ∧ d.manual = true ∧ d.auto = none)
    ∧ (∃ (s : State) (h : Frozen) (d : Denied) (f : Firing), WatchHears s ∧ s.loft.hold = false ∧ s.loft.frozen = some h ∧ h.point ≠
      s.clocks.wclk ∧ s.loft.denied = some d ∧ d.clk = s.clocks.wclk ∧ d.manual = false ∧ d.auto = some f)
    ∧ (∃ (s : State), WatchHears s ∧ s.loft.hold = true) :=
  ⟨⟨{watching with bell := {Bell.reset with firings := [{rules := 5, ring := 4, loom := 2, step := 7, fstep := 7, nominal := 0, ended := 0, replay := false, winSeq := 0, fwin := 0, counts := [], sustNow := 0}]}},
    {rules := 5, ring := 4, loom := 2, step := 7, fstep := 7, nominal := 0, ended := 0, replay := false, winSeq := 0, fwin := 0, counts := [], sustNow := 0},
    [], by decide +kernel⟩,
  ⟨{watching with pwr := {Power.reset with target := .l2}, bell := {Bell.reset with firings := [{rules := 5, ring := 4, loom := 1, step := 7, fstep := 7, nominal := 0, ended := 0, replay := false, winSeq := 0, fwin := 0, counts := [], sustNow := 0}]}},
    {rules := 5, ring := 4, loom := 1, step := 7, fstep := 7, nominal := 0, ended := 0, replay := false, winSeq := 0, fwin := 0, counts := [], sustNow := 0},
    [], by decide +kernel⟩,
  ⟨{watching with clocks := {Clocks.reset with wclk := 3}, bell := {Bell.reset with bellN := true, causeRules := 3, acted := [{rules := 5, ring := 4, loom := 2, step := 7, fstep := 7, nominal := 0, ended := 0, replay := false, winSeq := 0, fwin := 0, counts := [], sustNow := 0}]}},
    by decide +kernel⟩,
  ⟨{watching with clocks := {Clocks.reset with wclk := 3}, bell := {Bell.reset with bellN := true, causeRules := 7, acted := [{rules := 5, ring := 4, loom := 2, step := 7, fstep := 7, nominal := 0, ended := 0, replay := false, winSeq := 0, fwin := 0, counts := [], sustNow := 0}], actedAt := 3}},
    by decide +kernel⟩,
  ⟨watching, by decide +kernel⟩,
  ⟨{watching with loft := {Loft.reset with frozen := some {frames := [], step := 0, winSeq := 0, ch := false, hq := false, rules := 0, manual := true, point := 0, auto := false, decided := 0}}},
    {frames := [], step := 0, winSeq := 0, ch := false, hq := false, rules := 0, manual := true, point := 0, auto := false, decided := 0},
    by decide +kernel⟩,
  ⟨{watching with clocks := {Clocks.reset with wclk := 3}, loft := {Loft.reset with frozen := some {frames := [], step := 0, winSeq := 0, ch := false, hq := false, rules := 0, manual := true, point := 2, auto := false, decided := 0}, denied := some {clk := 2, missed := true, auto := none, manual := true}}},
    by decide +kernel⟩,
  ⟨{watching with clocks := {Clocks.reset with wclk := 3}, loft := {Loft.reset with frozen := some {frames := [], step := 0, winSeq := 0, ch := false, hq := false, rules := 0, manual := true, point := 3, auto := false, decided := 0}}},
    {frames := [], step := 0, winSeq := 0, ch := false, hq := false, rules := 0, manual := true, point := 3, auto := false, decided := 0},
    by decide +kernel⟩,
  ⟨{watching with clocks := {Clocks.reset with wclk := 3}, loft := {Loft.reset with missed := true, frozen := some {frames := [], step := 0, winSeq := 0, ch := false, hq := false, rules := 0, manual := true, point := 2, auto := false, decided := 0}, denied := some {clk := 3, missed := false, auto := none, manual := true}}},
    {frames := [], step := 0, winSeq := 0, ch := false, hq := false, rules := 0, manual := true, point := 2, auto := false, decided := 0},
    {clk := 3, missed := false, auto := none, manual := true}, by decide +kernel⟩,
  ⟨{watching with clocks := {Clocks.reset with wclk := 3}, loft := {Loft.reset with missed := true, frozen := some {frames := [], step := 0, winSeq := 0, ch := false, hq := false, rules := 0, manual := true, point := 2, auto := false, decided := 0}, denied := some {clk := 3, missed := false, auto := some {rules := 5, ring := 4, loom := 2, step := 7, fstep := 7, nominal := 3, ended := 3, replay := false, winSeq := 0, fwin := 0, counts := [], sustNow := 0}, manual := false}}},
    {frames := [], step := 0, winSeq := 0, ch := false, hq := false, rules := 0, manual := true, point := 2, auto := false, decided := 0},
    {clk := 3, missed := false, auto := some {rules := 5, ring := 4, loom := 2, step := 7, fstep := 7, nominal := 3, ended := 3, replay := false, winSeq := 0, fwin := 0, counts := [], sustNow := 0}, manual := false},
    {rules := 5, ring := 4, loom := 2, step := 7, fstep := 7, nominal := 3, ended := 3, replay := false, winSeq := 0, fwin := 0, counts := [], sustNow := 0},
    by decide +kernel⟩,
  ⟨{watching with loft := {Loft.reset with ch := true, hold := true}}, by decide +kernel⟩⟩

theorem witness_WatchmanTally :
    (∃ (s : State) (n : BitVec 3) (src : BitVec 8), WatchHears s ∧ src ≠ sget 0 s.wtally.sel n.toNat)
    ∧ (∃ (s : State) (n : BitVec 3) (src : BitVec 8), WatchHears s ∧ src ≠ sget 0 s.wtally.sel n.toNat)
    ∧ (∃ (s : State) (n : BitVec 3) (src : BitVec 8), WatchHears s ∧ src ≠ sget 0 s.wtally.sel n.toNat)
    ∧ (∃ (s : State), WatchHears s)
    ∧ (∃ (s : State), WatchHears s)
    ∧ (∃ (s : State) (n : Nat) (src : Byte), WatchRuns s ∧ s.clocks.wclk ≠ s.wtally.evClk ∧ s.wtally.sel = [(n, src)])
    ∧ (∃ (s : State) (d : Word) (via : Via) (at_ : Nat) (rest : List InFlightWrite), WatchRuns s ∧ s.wflight =
      { addr := 0x215, data := d, via := via, at_ := at_ } :: rest)
    ∧ (∃ (s : State) (x : InFlightWrite) (rest : List InFlightWrite), Live s ∧ s.wc.aonclk = false ∧ s.wflight = x :: rest)
    ∧ (∃ (s : State) (n : Nat), WatchRuns s ∧ 0 < n ∧ s.wtally.sel = [(3, 0x01)] ∧ (sget .init s.wtally.cnt 3).sat = false ∧ s.wtally.evClk
      ≤ s.clocks.wclk ∧ (sget .init s.wtally.cnt 3).count.toNat + 256 < 2 ^ 48) :=
  ⟨⟨{watching with wtally := {WatchTally.reset with sel := [(7, 3)], cnt := [(7,{count := 4, sat := true}), (6, {count := 3, sat := false})].reverse}},
    7, 0, by decide +kernel⟩,
  ⟨{watching with clocks := {Clocks.reset with wclk := 3}, wtally := {WatchTally.reset with evClk := 3, evs := [(7, 2)], cnt := [(7,{count := 4, sat := true})]}},
    7, 7, by decide +kernel⟩,
  ⟨{watching with clocks := {Clocks.reset with wclk := 3}, wtally := {WatchTally.reset with evClk := 2, evs := [(7, 2)], cnt := [(7,{count := 4, sat := true})]}},
    7, 7, by decide +kernel⟩,
  ⟨{watching with wtally := {WatchTally.reset with sel := [(7, 3)], cnt := [(7,{count := 4, sat := true})]}}, by decide +kernel⟩,
  ⟨{watching with clocks := {Clocks.reset with wclk := 3}, wtally := {WatchTally.reset with sel := [(7, 7)], evClk := 3, evs := [(7, 2)], cnt := [(7,{count := 4, sat := true})]}},
    by decide +kernel⟩,
  ⟨{watching with clocks := {Clocks.reset with wclk := 3}, wtally := {WatchTally.reset with sel := [(7, 7)], cnt := [(7,{count := 4, sat := false})]}},
    7, 7, by decide +kernel⟩,
  ⟨{watching with wflight := [{addr := 0x215, data := 0xFFFFFFFF, via := .unsealed, at_ := 0}]}, 0xFFFFFFFF, Via.unsealed, 0, [],
    by decide +kernel⟩,
  ⟨{State.reset with wflight := [{addr := 0x215, data := 0xFFFFFFFF, via := .unsealed, at_ := 0}]},
    {addr := 0x215, data := 0xFFFFFFFF, via := .unsealed, at_ := 0}, [], by decide +kernel⟩,
  ⟨{watching with wtally := {WatchTally.reset with sel := [(3, 1)], refAborts := 250}, port := {GatePort.reset with grayAborts := 3}}, 1,
    by decide +kernel⟩⟩

theorem witness_Escalations :
    (∃ (s : State), Live s ∧ s.esc.st = .waitLoom ∧ s.pwr.st = .l0 ∧ mesochronousRuns s = true ∧ destsGood s = true)
    ∧ (∃ (s : State), Live s ∧ s.esc.st = .waitLoom ∧ s.pwr.st = .l0 ∧ mesochronousRuns s = true ∧ destsGood s = false)
    ∧ (∃ (s : State), Live s ∧ s.esc.st = .waitFetch ∧ s.esc.fetched = false ∧ s.clocks.wclk < s.esc.since + 12288 * (s.esc.waitMs.toNat +
      1) ∧ fetchOpen s = true ∧ tenantOpen s s.esc.latTenant.toNat = true)
    ∧ (∃ (s : State), Live s ∧ s.esc.st = .waitFetch ∧ s.esc.fetched = false ∧ s.clocks.wclk < s.esc.since + 12288 * (s.esc.waitMs.toNat +
      1) ∧ fetchOpen s = true ∧ tenantOpen s s.esc.latTenant.toNat = true ∧ s.loom.fetched = [] ∧ s.loom.answeredAt ≠ some s.clocks.lc)
    ∧ (∃ (s : State) (f : Fetched) (rest : List Fetched), Live s ∧ s.esc.st = .waitFetch ∧ s.esc.fetched = false ∧ s.clocks.wclk <
      s.esc.since + 12288 * (s.esc.waitMs.toNat + 1) ∧ fetchOpen s = true ∧ tenantOpen s s.esc.latTenant.toNat = true ∧ s.loom.fetched =
      f :: rest ∧ f.esc = false ∧ (∀ g ∈ s.loom.fetched, g.lc ≠ s.clocks.lc))
    ∧ (∃ (s : State) (f : Fetched) (rest : List Fetched), Live s ∧ s.esc.st = .waitFetch ∧ s.esc.fetched = false ∧ s.clocks.wclk <
      s.esc.since + 12288 * (s.esc.waitMs.toNat + 1) ∧ fetchOpen s = true ∧ tenantOpen s s.esc.latTenant.toNat = true ∧ s.loom.fetched =
      f :: rest ∧ s.loom.answeredAt = some s.clocks.lc ∧ (∀ g ∈ s.loom.fetched, g.lc = s.clocks.lc))
    ∧ (∃ (s : State), Live s ∧ s.esc.st = .waitFetch ∧ s.esc.since + 12288 * (s.esc.waitMs.toNat + 1) ≤ s.clocks.wclk)
    ∧ (∃ (s : State) (c : Byte), Live s ∧ s.esc.st = .waitFetch ∧ s.esc.answerDue = some c ∧ s.loft.hold = false)
    ∧ (∃ (s : State) (c : Byte), Live s ∧ s.esc.st = .waitFetch ∧ s.esc.answerDue = some c ∧ s.loft.hold = false)
    ∧ (∃ (s : State), Live s ∧ s.esc.st ≠ .idle ∧ s.esc.fetched = false ∧ s.loft.hold = false ∧ s.esc.since + 12288 * (s.esc.waitMs.toNat +
      1) ≤ s.clocks.wclk) :=
  ⟨⟨{atL0 with esc := {Escalation.reset with st := .waitLoom, latTenant := 3, profile := List.replicate 248 0}, loom := {Loom.reset with parts := [(3, {Part.init with en := true, banks := 1})]}},
    by decide +kernel⟩,
  ⟨{atL0 with esc := {Escalation.reset with st := .waitLoom}}, by decide +kernel⟩,
  ⟨{atL0 with esc := {Escalation.reset with st := .waitFetch, latTenant := 3, profile := List.replicate 248 0}, loom := {Loom.reset with rings := [(13, {Ring.init with en := true})]}},
    by decide +kernel⟩,
  ⟨{atL0 with esc := {Escalation.reset with st := .waitFetch, latTenant := 3, profile := List.replicate 248 0}, loom := {Loom.reset with rings := [(13, {Ring.init with en := true})]}},
    by decide +kernel⟩,
  ⟨{atL0 with esc := {Escalation.reset with st := .waitFetch, latTenant := 3, profile := List.replicate 248 0}, loom := {Loom.reset with rings := [(13, {Ring.init with en := true})], fetched := [{fetched1 12 [] with lc := 7}]}},
    {fetched1 12 [] with lc := 7}, [], by decide +kernel⟩,
  ⟨{atL0 with esc := {Escalation.reset with st := .waitFetch, latTenant := 3, profile := List.replicate 248 0}, loom := {Loom.reset with rings := [(13, {Ring.init with en := true})], fetched := [fetched1 12 [], fetched1 15 []], answeredAt := some 0}},
    (fetched1 12 []), [fetched1 15 []], by decide +kernel⟩,
  ⟨{atL0 with clocks := {Clocks.reset with wclk := 12288}, esc := {Escalation.reset with st := .waitFetch, waitMs := 0, latTenant := 3, profile := List.replicate 248 0}, loom := {Loom.reset with rings := [(13, {Ring.init with en := true})]}},
    by decide +kernel⟩,
  ⟨{atL0 with esc := {Escalation.reset with st := .waitFetch, latTenant := 3, answerDue := some 0}}, 0, by decide +kernel⟩,
  ⟨{atL0 with esc := {Escalation.reset with st := .waitFetch, latTenant := 3, answerDue := some 0x13}}, 0x13, by decide +kernel⟩,
  ⟨{atL0 with clocks := {Clocks.reset with wclk := 12288*16}, esc := {Escalation.reset with st := .copy, waitMs := 15}},
    by decide +kernel⟩⟩

theorem witness_DraftLoads :
    (∃ (s : State) (id : BitVec 10), HostHeard s ∧ s.loom.verify.busy = false ∧ (draftOf s id.toNat).st = .empty)
    ∧ (∃ (s : State), HostHeard s ∧ s.loom.verify.busy = false)
    ∧ (∃ (s : State) (id : BitVec 10) (ten : BitVec 8), HostHeard s ∧ s.loom.verify.busy = false ∧ (draftOf s id.toNat).st = .resident ∧
      (draftOf s id.toNat).tenant = ten.toNat)
    ∧ (∃ (s : State) (id : BitVec 10) (ten : BitVec 8), HostHeard s ∧ s.loom.verify.busy = false ∧ (draftOf s id.toNat).st = .resident ∧
      (draftOf s id.toNat).tenant = ten.toNat)
    ∧ (∃ (s : State), HostHeard s ∧ s.loom.verify.busy = true) :=
  ⟨⟨{atL0 with loom := {Loom.reset with draftAddr := 0x4000}}, 1023, by decide +kernel⟩,
  ⟨running, by decide +kernel⟩,
  ⟨running, 5, 3, by decide +kernel⟩,
  ⟨running, 5, 3, by decide +kernel⟩,
  ⟨{atL0 with loom := {Loom.reset with verify := {Verify.reset with busy := true}}}, by decide +kernel⟩⟩

theorem witness_ImageDelivery :
    (∃ (s : State) (ld : Load), Live s ∧ s.pwr.st = .l0 ∧ s.loom.load = some ld ∧ ld.mode ≠ .unload ∧ ld.addr % 4096 = 0 ∧ ld.asked = 0 ∧
      ld.taken = 0 ∧ ld.version = none)
    ∧ (∃ (s : State) (rows : Nat) (ld : Load) (n : Nat), Live s ∧ s.pwr.st = .l0 ∧ s.loom.load = some ld ∧ ld.mode ≠ .unload ∧ n = min (min
      rows 3) (min ((4096 - (ld.addr + ld.asked) % 4096) / 64) (min ((imageLimit ld - ld.asked) / 64) ((262144 - (ld.asked - ld.taken)) /
      64))) ∧ 0 < n)
    ∧ (∃ (s : State) (e : BitVec 10) (ld : Load), Live s ∧ isDmaEntry (activeEntry s e.toNat) = true ∧ inOccurrence s.loom.weave
      (activeEntry s e.toNat) (lcOf s) = true ∧ (partOf s (activeEntry s e.toNat).tenant).en = true ∧ mesochronousRuns s = true ∧
      s.loom.linkUse.contains (dmaKey e.toNat, lcOf s) = false ∧ s.loom.linkUse.contains (handoffKey, lcOf s) = false ∧ s.esc.st ≠ .copy
      ∧ s.loom.load = some ld ∧ ld.tenant = (activeEntry s e.toNat).tenant ∧ 64 ≤ ld.buffer.length ∧ ld.taken = 0)
    ∧ (∃ (s : State) (i : BitVec 8) (ld : Load) (v : Version), Live s ∧ s.loom.load = some ld ∧ ld.version = some v ∧ v.pages ≠ [] ∧
      i.toNat ∈ versionTiles v ∧ i.toNat ∉ ld.walked ∧ 0x400 + ((versionTiles v).idxOf i.toNat + 1) * (v.npages * 1024) ≤ ld.taken ∧
      goodStructure v i.toNat (storedProgram s v i.toNat) = true ∧ ld.walked.length + 1 < (versionTiles v).length)
    ∧ (∃ (s : State) (i : BitVec 8) (ld : Load) (v : Version), Live s ∧ s.loom.load = some ld ∧ ld.version = some v ∧ v.pages ≠ [] ∧
      i.toNat ∈ versionTiles v ∧ i.toNat ∉ ld.walked ∧ 0x400 + ((versionTiles v).idxOf i.toNat + 1) * (v.npages * 1024) ≤ ld.taken ∧
      goodStructure v i.toNat (storedProgram s v i.toNat) = false) :=
  ⟨⟨{atL0 with loom := {Loom.reset with load := some newLoad}}, newLoad, by decide +kernel⟩,
  ⟨{atL0 with loom := {Loom.reset with load := some {newLoad with asked := 0xBC0, taken := 64, addr := 0x1400, version := some ver}}}, 7,
    {newLoad with asked := 0xBC0, taken := 64, addr := 0x1400, version := some ver}, 1, by decide +kernel⟩,
  ⟨{running with loom := {running.loom with weave := {running.loom.weave with active := [(1, draftEntry), (2, {draftEntry with kind := 2, id := 0, tenant := 3})]}, parts := [(3, {Part.init with en := true, banks := 1})], load := some {newLoad with buffer := List.replicate 70 9}}},
    2, {newLoad with buffer := List.replicate 70 9}, by decide +kernel⟩,
  ⟨{running with loom := {running.loom with store := [(0, 4), (33792, 4)], load := some {newLoad with version := some ver, taken := 0x800}}},
    0, {newLoad with version := some ver, taken := 0x800}, ver, by decide +kernel⟩,
  ⟨{running with loom := {running.loom with load := some {newLoad with version := some ver, taken := 0xC00}}}, 1,
    {newLoad with version := some ver, taken := 0xC00}, ver, by decide +kernel⟩⟩

theorem witness_ClockAndStretch :
    (∃ (s : State) (p : BitVec 3), Live s ∧ s.pwr.drained = false ∧ s.pwr.st = .l1 ∧ s.pwr.stage = .steady ∧ s.loom.clock.relocking =
      false ∧ p.toNat ≤ 4 ∧ p ≠ s.loom.clock.current)
    ∧ (∃ (s : State), Live s ∧ s.pwr.st = .l1 ∧ s.pwr.target = .l1 ∧ s.pwr.stage = .steady ∧ s.pwr.resetOwed = false ∧
      s.loom.clock.relocking = true ∧ s.loom.clock.heldPoint = none)
    ∧ (∃ (s : State), Live s ∧ mesochronousRuns s = true ∧ s.loom.chain.locked = false)
    ∧ (∃ (s : State) (n : Nat), Live s ∧ mesochronousRuns s = true ∧ s.clocks.lc ∈ s.loom.clock.targets ∧ s.loom.clock.lastStretch = some n
      ∧ n ≤ s.clocks.lc ∧ s.clocks.lc - n < 65536 ∧ s.loom.tallySel = [])
    ∧ (∃ (s : State) (n : Nat), Live s ∧ mesochronousRuns s = true ∧ s.clocks.lc ∈ s.loom.clock.targets ∧ s.loom.clock.lastStretch = some n
      ∧ n ≤ s.clocks.lc ∧ s.clocks.lc - n < 65536 ∧ s.loom.tallySel = [])
    ∧ (∃ (s : State), HostHeard s) :=
  ⟨⟨atL1, 4, by decide +kernel⟩,
  ⟨{atL1 with loom := {Loom.reset with clock := {ClockState.reset with relocking := true, lockPoint := 3}, chain := {Chain.reset with locked := true}}, warp := [(2, {WarpModule.init with locked := true, lat := 5})]},
    by decide +kernel⟩,
  ⟨{atL1 with clocks := {Clocks.reset with lc := 20}, loom := {Loom.reset with clock := {ClockState.reset with targets := [22, 24, 30]}}},
    by decide +kernel⟩,
  ⟨{atL1 with clocks := {Clocks.reset with lc := 275}, loom := {Loom.reset with clock := {ClockState.reset with targets := [275, 300], lastStretch := some 20}}},
    20, by decide +kernel⟩,
  ⟨{atL1 with clocks := {Clocks.reset with lc := 276}, loom := {Loom.reset with clock := {ClockState.reset with targets := [276, 300], lastStretch := some 20}}},
    20, by decide +kernel⟩,
  ⟨{atL1 with loom := {Loom.reset with clock := {ClockState.reset with minGap := 3}}}, by decide +kernel⟩⟩

theorem witness_SlotsAndPasses :
    (∃ (s : State) (e : BitVec 10) (v : Version) (j : Job), Live s ∧ mesochronousRuns s = true ∧ s.pwr.st = .l0 ∧ walking s.loom.weave =
      true ∧ isDraftEntry (activeEntry s e.toNat) = true ∧ s.clocks.lc = s.loom.weave.rep0 + (activeEntry s e.toNat).start ∧
      s.loom.weave.slots = [] ∧ s.loom.tiles = [] ∧ s.loom.storeUp = [] ∧ s.warp = [] ∧ (draftOf s (activeEntry s e.toNat).id).resident =
      some v ∧ idleCounted s (activeEntry s e.toNat) = false ∧ v.warp = false ∧ (∀ k ∈ s.loom.jobs, k.ending = none) ∧ bookedJob s
      (activeEntry s e.toNat).id s.clocks.lc = some j ∧ (∀ i ∈ versionTiles v, tileGood s i = true ∧ holdsVersion s i (activeEntry s
      e.toNat).id v = true))
    ∧ (∃ (s : State) (e : BitVec 10) (v : Version) (j : Job) (i : Nat), Live s ∧ mesochronousRuns s = true ∧ s.pwr.st = .l0 ∧ walking
      s.loom.weave = true ∧ isDraftEntry (activeEntry s e.toNat) = true ∧ s.clocks.lc = s.loom.weave.rep0 + (activeEntry s e.toNat).start
      ∧ s.loom.weave.slots = [] ∧ s.loom.tiles = [] ∧ s.loom.storeUp = [] ∧ s.warp = [] ∧ (draftOf s (activeEntry s e.toNat).id).resident
      = some v ∧ idleCounted s (activeEntry s e.toNat) = false ∧ v.warp = false ∧ (∀ k ∈ s.loom.jobs, k.ending = none) ∧ bookedJob s
      (activeEntry s e.toNat).id s.clocks.lc = some j ∧ (versionTiles v).find? (fun i => !holdsVersion s i (activeEntry s e.toNat).id v)
      = some i)
    ∧ (∃ (s : State) (e : BitVec 10) (v : Version), Live s ∧ mesochronousRuns s = true ∧ walking s.loom.weave = true ∧ isDraftEntry
      (activeEntry s e.toNat) = true ∧ s.clocks.lc = s.loom.weave.rep0 + (activeEntry s e.toNat).start ∧ s.loom.weave.slots = [] ∧
      s.loom.storeUp = [] ∧ s.warp = [] ∧ s.loom.jobs = [] ∧ (draftOf s (activeEntry s e.toNat).id).resident = some v ∧ idleCounted s
      (activeEntry s e.toNat) = false)
    ∧ (∃ (s : State) (e : BitVec 10) (x : Slot) (v : Version) (j : Job) (n : Nat), Live s ∧ s.loom.weave.slots = [x] ∧ x.entry = e.toNat ∧
      x.run = .pass (some j.order) n ∧ x.halted = true ∧ x.breached = false ∧ x.damaged = false ∧ slotVersion s x = some v ∧ n + v.passLc
      ≤ s.clocks.lc ∧ s.loom.jobs = [j] ∧ j.ended = none ∧ j.ran + 1 = j.passes ∧ s.loom.tallySel = [])
    ∧ (∃ (s : State), Live s ∧ mesochronousRuns s = true ∧ s.pwr.st = s.pwr.target ∧ LoomEmpty s ∧ s.loom.weave.swap = .idle ∧
      s.loom.weave.repDue = false ∧ s.loom.chain.locked = false ∧ 0 < s.loom.weave.activeLc ∧ s.loom.weave.rep0 + s.loom.weave.activeLc ≤
      s.clocks.lc)
    ∧ (∃ (s : State), Live s ∧ mesochronousRuns s = true ∧ s.pwr.st = s.pwr.target ∧ LoomEmpty s ∧ s.loom.weave.swap = .pending ∧
      s.loom.chain.locked = false ∧ s.loom.weave.activeLc = 0 ∧ s.loom.weave.checksEnd + 64 ≤ s.clocks.lc ∧ 0 < s.loom.weave.shadowLc) :=
  ⟨⟨(bundled 0
    {running with clocks := {Clocks.reset with lc := 10}, loom := {running.loom with tiles := [], jobs := [job0], weave := {running.loom.weave with slots := []}}}),
    1, ver, job0, by decide +kernel⟩,
  ⟨{running with clocks := {Clocks.reset with lc := 10}, loom := {running.loom with tiles := [], jobs := [job0], tags := [(0, [(5, 1)])], weave := {running.loom.weave with slots := []}}},
    1, ver, job0, 1, by decide +kernel⟩,
  ⟨{running with clocks := {Clocks.reset with lc := 10}, loom := {running.loom with weave := {running.loom.weave with slots := []}}}, 1,
    ver, by decide +kernel⟩,
  ⟨{running with clocks := {Clocks.reset with lc := 59}, loom := {running.loom with jobs := [job0], weave := {running.loom.weave with slots := [{pslot with run := .pass (some 9) 10, halted := true}]}}},
    1, {pslot with run := .pass (some 9) 10, halted := true}, ver, job0, 10, by decide +kernel⟩,
  ⟨{atL0 with clocks := {Clocks.reset with lc := 301}, loom := {Loom.reset with weave := {Weave.reset with activeLc := 100, repDue := false}}},
    by decide +kernel⟩,
  ⟨{atL0 with clocks := {Clocks.reset with lc := 301}, loom := {Loom.reset with weave := {Weave.reset with shadowLc := 500, shadow := [(1, draftEntry)], swap := .pending, checksEnd := 237}}},
    by decide +kernel⟩⟩

theorem witness_TileControl :
    (∃ (s : State) (i : BitVec 8) (b : Nat) (x : Slot), Issues s i fieldCtl b x ∧ s.loom.storeUp = [] ∧ ctlOp b = 0)
    ∧ (∃ (s : State) (i : BitVec 8) (b : Nat) (x : Slot) (n : BitVec 20), Issues s i fieldCtl b x ∧ s.loom.storeUp = [] ∧ ctlOp b = 1 ∧
      field b 4 20 = n.toNat ∧ (tileOf s i.toNat).loops.length < 4)
    ∧ (∃ (s : State) (i : BitVec 8) (b : Nat) (x : Slot) (body : Nat) (k : Nat) (rest : List (Nat × Nat)) (m : BitVec 4), Issues s i
      fieldCtl b x ∧ s.loom.storeUp = [] ∧ ctlOp b = 2 ∧ field b 24 4 = m.toNat ∧ (tileOf s i.toNat).loops = (body, k) :: rest ∧ 1 < k)
    ∧ (∃ (s : State) (i : BitVec 8) (b : Nat) (x : Slot) (body : Nat) (k : Nat) (rest : List (Nat × Nat)) (m : BitVec 4), Issues s i
      fieldCtl b x ∧ s.loom.storeUp = [] ∧ ctlOp b = 2 ∧ field b 24 4 = m.toNat ∧ (tileOf s i.toNat).loops = (body, k) :: rest ∧ k ≤ 1)
    ∧ (∃ (s : State) (i : BitVec 8) (b : Nat) (x : Slot) (n : BitVec 20), Issues s i fieldCtl b x ∧ ctlOp b = 3 ∧ field b 4 20 = n.toNat)
    ∧ (∃ (s : State) (i : BitVec 8) (x : Slot) (n : Nat), Live s ∧ s.loom.storeUp = [] ∧ (tileOf s i.toNat).run = .waiting n ∧ n ≤
      s.clocks.lc ∧ takesPart s i.toNat = true ∧ (tileOf s i.toNat).slot.bind (slotOfEntry s) = some x)
    ∧ (∃ (s : State) (i : BitVec 8) (b : Nat) (x : Slot) (c : BitVec 2) (v : BitVec 8) (d : BitVec 8), Issues s i fieldCtl b x ∧
      s.loom.storeUp = [] ∧ ctlOp b = 5 ∧ field b 4 2 = c.toNat ∧ field b 6 8 = v.toNat ∧ field b 14 8 = d.toNat)
    ∧ (∃ (s : State) (i : BitVec 8) (b : Nat) (x : Slot) (n : BitVec 20), Issues s i fieldCtl b x ∧ field b 4 20 ≠ n.toNat)
    ∧ (∃ (s : State) (i : BitVec 8) (b : Nat) (x : Slot), Issues s i fieldCtl b x ∧ ctlOp b = 4 ∧ slotJob x = none)
    ∧ (∃ (s : State) (i : BitVec 8) (b : Nat) (x : Slot) (j : Job) (bank : Nat) (row : Nat), Issues s i fieldCtl b x ∧ ctlOp b = 4 ∧
      (slotJob x).bind (jobOf s) = some j ∧ j.resAt = some (i.toNat, bank, row) ∧ j.ran + 1 = j.passes ∧ bankBreach s i.toNat bank x =
      none ∧ s.loom.bankUp = []) :=
  ⟨⟨running, 0, 0, pslot, by decide +kernel⟩,
  ⟨(bundled 0xFFFFF1 running), 0, 0xFFFFF1, pslot, 0xFFFFF, by decide +kernel⟩,
  ⟨(bundled 0x9000002 (onTile0 (fun y => {y with loops := [(2, 2), (1, 9)], cnt := [(0, 255)], stride := [(0, 2), (3, 7)]}))), 0,
    0x9000002, pslot, 2, 2, [(1, 9)], 9, by decide +kernel⟩,
  ⟨(bundled 2 (onTile0 (fun y => {y with loops := [(2, 1)]}))), 0, 2, pslot, 2, 1, [], 0, by decide +kernel⟩,
  ⟨(bundled 3 running), 0, 3, pslot, 0, by decide +kernel⟩,
  ⟨(onTile0 (fun y => {y with run := .waiting 20})), 0, pslot, 20, by decide +kernel⟩,
  ⟨(bundled (spell [(0, 5), (4, 3), (6, 0), (14, 255)]) running), 0, (spell [(0, 5), (4, 3), (6, 0), (14, 255)]), pslot, 3, 0, 255,
    by decide +kernel⟩,
  ⟨(bundled 0xFFFFF1 running), 0, 0xFFFFF1, pslot, 5, by decide +kernel⟩,
  ⟨(bundled 4 running), 0, 4, pslot, by decide +kernel⟩,
  ⟨(bundled 4
    {running with loom := {running.loom with banks := [(0, 7), (23, 5), (24, 6)], jobs := [{job0 with resAt := some (0, 0, 0)}], weave := {running.loom.weave with slots := [{pslot with run := .pass (some 9) 10}]}}}),
    0, 4, {pslot with run := .pass (some 9) 10}, {job0 with resAt := some (0, 0, 0)}, 0, 0, by decide +kernel⟩⟩

theorem witness_BanksAndMesh :
    (∃ (s : State) (i : BitVec 8) (k : BitVec 2) (b : Nat) (x : Slot), Issues s i (fieldBank k.toNat) b x ∧ spellsBank false k.toNat b =
      true ∧ bankBreach s i.toNat (bankField b k.toNat).bank.toNat x = none ∧ s.loom.bankUp = [])
    ∧ (∃ (s : State) (i : BitVec 8) (k : BitVec 2) (b : Nat) (x : Slot), Issues s i (fieldBank k.toNat) b x ∧ spellsBank true k.toNat b =
      true ∧ bankBreach s i.toNat (bankField b k.toNat).bank.toNat x = none ∧ (bankField b k.toNat).unit = 2)
    ∧ (∃ (s : State) (i : BitVec 8) (d : Dir) (b : Nat) (x : Slot) (v : Version), Issues s i (fieldMesh d) b x ∧ bitOf (meshWord b (dirCode
      d)) 0 = true ∧ slotVersion s x = some v ∧ (planFlit s x v i.toNat (meshField b d)).fail = none ∧ (meshField b d).src = 4)
    ∧ (∃ (s : State) (i : BitVec 8) (d : Dir) (f : Flit), Live s ∧ s.loom.flits = [f] ∧ f.dest = i.toNat ∧ f.dir = d ∧ f.engine = false ∧
      f.due = s.clocks.lc ∧ takesPart s i.toNat = true ∧ (∀ r ∈ (tileOf s i.toNat).recv, r.lc ≠ s.clocks.lc))
    ∧ (∃ (s : State) (i : BitVec 8), Live s ∧ mesochronousRuns s = true ∧ tileGood s i.toNat = true)
    ∧ (∃ (s : State) (i : BitVec 8) (k : BitVec 2) (b : Nat) (x : Slot) (a : Nat), Issues s i (fieldBank k.toNat) b x ∧ spellsBank true
      k.toNat b = true ∧ bankBreach s i.toNat (bankField b k.toNat).bank.toNat x = none ∧ ((a < bankRowOf s i b k.toNat ∨ bankRowOf s i b
      k.toNat + 64 ≤ a)))
    ∧ (∃ (s : State) (i : BitVec 8) (k : BitVec 2) (b : Nat) (x : Slot) (kind : Nat), Issues s i (fieldBank k.toNat) b x ∧ spellsBank true
      k.toNat b = true ∧ x.breached = false ∧ bankBreach s i.toNat (bankField b k.toNat).bank.toNat x = some kind)
    ∧ (∃ (s : State) (i : BitVec 8) (k : BitVec 2) (b : Nat) (x : Slot) (kind : Nat), Issues s i (fieldBank k.toNat) b x ∧ spellsBank true
      k.toNat b = true ∧ x.breached = false ∧ bankBreach s i.toNat (bankField b k.toNat).bank.toNat x = some kind)
    ∧ (∃ (s : State) (i : BitVec 8) (d : Dir) (b : Nat) (x : Slot) (v : Version) (kind : Nat) (tile : Nat), Issues s i (fieldMesh d) b x ∧
      bitOf (meshWord b (dirCode d)) 0 = true ∧ slotVersion s x = some v ∧ x.breached = false ∧ (planFlit s x v i.toNat (meshField b
      d)).fail = some (kind, tile, s.clocks.lc)) :=
  ⟨⟨(bundled (spell [(352, 1), (354, 9), (360, 255), (368, 4)])
    {running with loom := {running.loom with banks := [(16384*9+64*255, 5)]}}), 0, 3, (spell [(352, 1), (354, 9), (360, 255), (368, 4)]),
    pslot, by decide +kernel⟩,
  ⟨(bundled (spell [(352, 3), (354, 9), (360, 255), (368, 2)])
    {running with loom := {running.loom with banks := [(16384*9+64*255, 5)]}}), 0, 3, (spell [(352, 3), (354, 9), (360, 255), (368, 2)]),
    pslot, by decide +kernel⟩,
  ⟨(bundled (spell [(416, 1), (417, 4), (421, 1)]) running), 0, .e, (spell [(416, 1), (417, 4), (421, 1)]), pslot, ver,
    by decide +kernel⟩,
  ⟨{running with loom := {running.loom with flits := [{dest := 1, dir := .w, due := 20, data := [3], poisoned := true, slot := some 1, engine := false}]}},
    1, .w, {dest := 1, dir := .w, due := 20, data := [3], poisoned := true, slot := some 1, engine := false}, by decide +kernel⟩,
  ⟨running, 0, by decide +kernel⟩,
  ⟨(bundled (spell [(352, 3), (368, 2)]) running), 0, 3, (spell [(352, 3), (368, 2)]), pslot, 64, by decide +kernel⟩,
  ⟨(bundled (spell [(352, 3), (368, 2)]) {running with loom := {running.loom with bankUse := [(0, 20)]}}), 0, 3, (spell [(352, 3), (368,
    2)]), pslot, 1, by decide +kernel⟩,
  ⟨(bundled (spell [(352, 3), (354, 9), (360, 255), (368, 2)])
    {running with loom := {running.loom with drafts := [(5, {drf with resident := some {ver with banks := 0x1FF}})]}}), 0, 3, (spell
    [(352, 3), (354, 9), (360, 255), (368, 2)]), pslot, 2, by decide +kernel⟩,
  ⟨(bundled (spell [(416, 1), (417, 4), (421, 1)]) {running with loom := {running.loom with linkUse := [(1, 20)]}}), 0, .e, (spell [(416,
    1), (417, 4), (421, 1)]), pslot, ver, 4, 0, by decide +kernel⟩⟩

theorem witness_MultiplierArray :
    (∃ (s : State) (i : BitVec 8) (b : Nat) (x : Slot) (row : BitVec 5) (target : BitVec 2), IssuesMxu s i 1 b x ∧ field (mxuWord b) 42 5
      = row.toNat ∧ field (mxuWord b) 47 2 = target.toNat)
    ∧ (∃ (s : State) (i : BitVec 8) (b : Nat) (x : Slot) (row : BitVec 5) (target : BitVec 2), IssuesMxu s i 1 b x ∧ field (mxuWord b) 42 5
      = row.toNat ∧ field (mxuWord b) 47 2 = target.toNat)
    ∧ (∃ (s : State) (i : BitVec 8) (b : Nat) (x : Slot) (row : BitVec 5) (target : BitVec 2), IssuesMxu s i 1 b x ∧ field (mxuWord b) 42 5
      = row.toNat ∧ field (mxuWord b) 47 2 = target.toNat)
    ∧ (∃ (s : State) (i : BitVec 8) (b : Nat) (x : Slot) (row : BitVec 5) (target : BitVec 2), IssuesMxu s i 1 b x ∧ field (mxuWord b) 42 5
      = row.toNat ∧ field (mxuWord b) 47 2 = target.toNat)
    ∧ (∃ (s : State) (i : BitVec 8) (b : Nat) (x : Slot), IssuesMxu s i 2 b x)
    ∧ (∃ (s : State) (i : BitVec 8) (b : Nat) (x : Slot) (m : MacField), IssuesMxu s i 3 b x ∧ m = macField b)
    ∧ (∃ (s : State) (i : BitVec 8) (b : Nat) (x : Slot) (acc : BitVec 6) (mode : BitVec 2) (dst : BitVec 5) (h : Bool), IssuesMxu s i 4 b
      x ∧ SpellsDrain b acc mode dst h ∧ mode = 0 ∧ (accAt (settled s i) acc.toNat).sat.any id = false)
    ∧ (∃ (s : State) (i : BitVec 8) (b : Nat) (x : Slot) (acc : BitVec 6) (mode : BitVec 2) (dst : BitVec 5) (h : Bool), IssuesMxu s i 4 b
      x ∧ SpellsDrain b acc mode dst h ∧ mode.toNat ≤ 1 ∧ (accAt (settled s i) acc.toNat).sat.any id = true)
    ∧ (∃ (s : State) (i : BitVec 8) (b : Nat) (x : Slot) (acc : BitVec 6) (mode : BitVec 2) (dst : BitVec 5) (h : Bool), IssuesMxu s i 4 b
      x ∧ SpellsDrain b acc mode dst h ∧ 1 < mode.toNat)
    ∧ (∃ (s : State) (i : BitVec 8) (b : Nat) (x : Slot) (wfmt : BitVec 4) (acc : BitVec 6) (ar0 : BitVec 4) (ar1 : BitVec 4), IssuesMxu s
      i 5 b x ∧ SpellsCorr b wfmt acc ar0 ar1)
    ∧ (∃ (s : State) (i : BitVec 8) (b : Nat) (x : Slot) (m : MacField), IssuesMxu s i 3 b x ∧ m = macField b ∧ (settled s i).flights = []
      ∧ m.wfmt = 3 ∧ m.afmt = 3 ∧ m.zpm = 0 ∧ m.clr = false ∧ (accAt (settled s i) m.acc.toNat).isF32 = false)
    ∧ (∃ (s : State) (i : BitVec 8) (b : Nat) (x : Slot) (wfmt : BitVec 4) (acc : BitVec 6) (ar0 : BitVec 4) (ar1 : BitVec 4), IssuesMxu s
      i 5 b x ∧ SpellsCorr b wfmt acc ar0 ar1 ∧ (settled s i).flights = [] ∧ (accAt (settled s i) acc.toNat).isF32 = false) :=
  ⟨⟨(bundled (spell [(32, 1), (74, 31)]) (onTile0 (fun y =>
    {y with rows := [{lc := 20, key := 0, unit := 0, data := [1,2,3], poisoned := false}]}))), 0, (spell [(32, 1), (74, 31)]), pslot, 31,
    0, by decide +kernel⟩,
  ⟨(bundled (spell [(32, 1), (74, 31), (79, 1)]) (onTile0 (fun y =>
    {y with rows := [{lc := 20, key := 0, unit := 0, data := [1,2,3], poisoned := false}]}))), 0, (spell [(32, 1), (74, 31), (79, 1)]),
    pslot, 31, 1, by decide +kernel⟩,
  ⟨(bundled (spell [(32, 1), (74, 31), (79, 2)]) (onTile0 (fun y =>
    {y with rows := [{lc := 20, key := 0, unit := 0, data := [1,2,3], poisoned := false}]}))), 0, (spell [(32, 1), (74, 31), (79, 2)]),
    pslot, 31, 2, by decide +kernel⟩,
  ⟨(bundled (spell [(32, 1), (74, 5), (79, 3)]) (onTile0 (fun y =>
    {y with rows := [{lc := 20, key := 0, unit := 0, data := [1,2,3], poisoned := false}]}))), 0, (spell [(32, 1), (74, 5), (79, 3)]),
    pslot, 5, 3, by decide +kernel⟩,
  ⟨(bundled (spell [(32, 2)]) (onTile0 (fun y => {y with weights := [(3, 4)]}))), 0, (spell [(32, 2)]), pslot, by decide +kernel⟩,
  ⟨(bundled (spell [(32, 3), (36, 3), (40, 3), (44, 63)]) (onTile0 (fun y =>
    {y with rows := [{lc := 20, key := 0, unit := 1, data := [1,2,3], poisoned := false}], weights := [(3, 4)]}))), 0, (spell [(32, 3),
    (36, 3), (40, 3), (44, 63)]), pslot, (macField (spell [(32, 3), (36, 3), (40, 3), (44, 63)])), by decide +kernel⟩,
  ⟨(bundled (spell [(32, 4), (44, 63), (53, 31), (58, 1)]) (onTile0 (fun y =>
    {y with acc := [(63, {isF32 := false, lanes := [5], sat := []})]}))), 0, (spell [(32, 4), (44, 63), (53, 31), (58, 1)]), pslot, 63,
    0, 31, true, by decide +kernel⟩,
  ⟨(bundled (spell [(32, 4), (44, 63), (51, 1), (53, 31), (58, 1)])
    {running with loom := {running.loom with tallySel := [(2, {src := 0x4A, filter := false, tenant := 0})], tiles := sput Tile.init running.loom.tiles 0 {tileOf running 0 with acc := [(63, {isF32 := false, lanes := [5], sat := [true]})]}}}),
    0, (spell [(32, 4), (44, 63), (51, 1), (53, 31), (58, 1)]), pslot, 63, 1, 31, true, by decide +kernel⟩,
  ⟨(bundled (spell [(32, 4), (44, 63), (51, 2), (53, 31), (58, 1)]) running), 0, (spell [(32, 4), (44, 63), (51, 2), (53, 31), (58, 1)]),
    pslot, 63, 2, 31, true, by decide +kernel⟩,
  ⟨(bundled (spell [(32, 5), (36, 9), (44, 63), (61, 15), (65, 15)]) running), 0, (spell [(32, 5), (36, 9), (44, 63), (61, 15), (65,
    15)]), pslot, 9, 63, 15, 15, by decide +kernel⟩,
  ⟨(bundled (spell [(32, 3), (36, 3), (40, 3), (44, 63)]) (onTile0 (fun y =>
    {y with flights := [], acc := [(63, {isF32 := false, lanes := [5, 0x7FFFFFFF], sat := []})], rows := [{lc := 20, key := 0, unit := 1, data := [0xFF,2,3], poisoned := false}], weights := [(1, 0x80), (32, 4)]}))),
    0, (spell [(32, 3), (36, 3), (40, 3), (44, 63)]), pslot, (macField (spell [(32, 3), (36, 3), (40, 3), (44, 63)])), by decide +kernel⟩,
  ⟨(bundled (spell [(32, 5), (36, 9), (44, 63), (61, 15), (65, 15)]) (onTile0 (fun y =>
    {y with flights := [], acc := [(63, {isF32 := false, lanes := [5], sat := [true]})]}))), 0, (spell [(32, 5), (36, 9), (44, 63), (61,
    15), (65, 15)]), pslot, 9, 63, 15, 15, by decide +kernel⟩⟩

theorem witness_IntegerLanes :
    (∃ (s : State) (i : BitVec 8) (v : VecField) (x : Slot), IssuesVec s i 0x06 v x ∧ v.type = 0)
    ∧ (∃ (s : State) (i : BitVec 8) (v : VecField) (x : Slot), IssuesVec s i 0x07 v x ∧ v.type = 0)
    ∧ (∃ (s : State) (i : BitVec 8) (v : VecField) (x : Slot), IssuesVec s i 0x08 v x ∧ v.type = 0)
    ∧ (∃ (s : State) (i : BitVec 8) (v : VecField) (x : Slot), IssuesVec s i 0x09 v x ∧ v.type = 0)
    ∧ (∃ (s : State) (i : BitVec 8) (v : VecField) (x : Slot), IssuesVec s i 0x0A v x ∧ v.type = 0)
    ∧ (∃ (s : State) (i : BitVec 8) (v : VecField) (x : Slot), IssuesVec s i 0x0B v x ∧ v.type = 0)
    ∧ (∃ (s : State) (i : BitVec 8) (v : VecField) (x : Slot), IssuesVec s i 0x0C v x ∧ v.type = 0)
    ∧ (∃ (s : State) (i : BitVec 8) (v : VecField) (x : Slot), IssuesVec s i 0x0D v x ∧ v.type = 0)
    ∧ (∃ (s : State) (i : BitVec 8) (v : VecField) (x : Slot), IssuesVec s i 0x0E v x ∧ v.type = 0)
    ∧ (∃ (s : State) (i : BitVec 8) (v : VecField) (x : Slot), IssuesVec s i 0x0F v x ∧ v.type = 0)
    ∧ (∃ (s : State) (i : BitVec 8) (v : VecField) (x : Slot), IssuesVec s i 0x10 v x ∧ v.type = 0)
    ∧ (∃ (s : State) (i : BitVec 8) (v : VecField) (x : Slot), IssuesVec s i 0x11 v x ∧ v.type = 0)
    ∧ (∃ (s : State) (i : BitVec 8) (v : VecField) (x : Slot), IssuesVec s i 0x15 v x ∧ v.type = 0) :=
  ⟨⟨(bundled (spell [(96, 6), (102, 31), (107, 1), (112, 2), (117, 3), (125, 1), (126, 3), (128, 0xFFFFFFFF)]) (onTile0 (fun y =>
    {y with vreg := [(1, [0x80000000, 0x40000000, 0xFFFFFFFF, 3, 7]), (2, [0xFFFFFFFF, 0x23, 0x1F, 0xFFFFFFFE, 7]), (3, [1,2])]}))), 0,
    {d := 31, a := 1, b := 2, c := 3, type := 0, rna := true, part := 3, imm := 0xFFFFFFFF}, pslot, by decide +kernel⟩,
  ⟨(bundled (spell [(96, 7), (102, 31), (107, 1), (112, 2), (117, 3), (125, 1), (126, 3), (128, 0xFFFFFFFF)]) (onTile0 (fun y =>
    {y with vreg := [(1, [0x80000000, 0x40000000, 0xFFFFFFFF, 3, 7]), (2, [0xFFFFFFFF, 0x23, 0x1F, 0xFFFFFFFE, 7]), (3, [1,2])]}))), 0,
    {d := 31, a := 1, b := 2, c := 3, type := 0, rna := true, part := 3, imm := 0xFFFFFFFF}, pslot, by decide +kernel⟩,
  ⟨(bundled (spell [(96, 8), (102, 31), (107, 1), (112, 2), (117, 3), (125, 1), (126, 3), (128, 0xFFFFFFFF)]) (onTile0 (fun y =>
    {y with vreg := [(1, [0x80000000, 0x40000000, 0xFFFFFFFF, 3, 7]), (2, [0xFFFFFFFF, 0x23, 0x1F, 0xFFFFFFFE, 7]), (3, [1,2])]}))), 0,
    {d := 31, a := 1, b := 2, c := 3, type := 0, rna := true, part := 3, imm := 0xFFFFFFFF}, pslot, by decide +kernel⟩,
  ⟨(bundled (spell [(96, 9), (102, 31), (107, 1), (112, 2), (117, 3), (125, 1), (126, 3), (128, 0xFFFFFFFF)]) (onTile0 (fun y =>
    {y with vreg := [(1, [0x80000000, 0x40000000, 0xFFFFFFFF, 3, 7]), (2, [0xFFFFFFFF, 0x23, 0x1F, 0xFFFFFFFE, 7]), (3, [1,2])]}))), 0,
    {d := 31, a := 1, b := 2, c := 3, type := 0, rna := true, part := 3, imm := 0xFFFFFFFF}, pslot, by decide +kernel⟩,
  ⟨(bundled (spell [(96, 10), (102, 31), (107, 1), (112, 2), (117, 3), (125, 1), (126, 3), (128, 0xFFFFFFFF)]) (onTile0 (fun y =>
    {y with vreg := [(1, [0x80000000, 0x40000000, 0xFFFFFFFF, 3, 7]), (2, [0xFFFFFFFF, 0x23, 0x1F, 0xFFFFFFFE, 7]), (3, [1,2])]}))), 0,
    {d := 31, a := 1, b := 2, c := 3, type := 0, rna := true, part := 3, imm := 0xFFFFFFFF}, pslot, by decide +kernel⟩,
  ⟨(bundled (spell [(96, 11), (102, 31), (107, 1), (112, 2), (117, 3), (125, 1), (126, 3), (128, 0xFFFFFFFF)]) (onTile0 (fun y =>
    {y with vreg := [(1, [0x80000000, 0x40000000, 0xFFFFFFFF, 3, 7]), (2, [0xFFFFFFFF, 0x23, 0x1F, 0xFFFFFFFE, 7]), (3, [1,2])]}))), 0,
    {d := 31, a := 1, b := 2, c := 3, type := 0, rna := true, part := 3, imm := 0xFFFFFFFF}, pslot, by decide +kernel⟩,
  ⟨(bundled (spell [(96, 12), (102, 31), (107, 1), (112, 2), (117, 3), (125, 1), (126, 3), (128, 0xFFFFFFFF)]) (onTile0 (fun y =>
    {y with vreg := [(1, [0x80000000, 0x40000000, 0xFFFFFFFF, 3, 7]), (2, [0xFFFFFFFF, 0x23, 0x1F, 0xFFFFFFFE, 7]), (3, [1,2])]}))), 0,
    {d := 31, a := 1, b := 2, c := 3, type := 0, rna := true, part := 3, imm := 0xFFFFFFFF}, pslot, by decide +kernel⟩,
  ⟨(bundled (spell [(96, 13), (102, 31), (107, 1), (112, 2), (117, 3), (125, 1), (126, 3), (128, 0xFFFFFFFF)]) (onTile0 (fun y =>
    {y with vreg := [(1, [0x80000000, 0x40000000, 0xFFFFFFFF, 3, 7]), (2, [0xFFFFFFFF, 0x23, 0x1F, 0xFFFFFFFE, 7]), (3, [1,2])]}))), 0,
    {d := 31, a := 1, b := 2, c := 3, type := 0, rna := true, part := 3, imm := 0xFFFFFFFF}, pslot, by decide +kernel⟩,
  ⟨(bundled (spell [(96, 14), (102, 31), (107, 1), (112, 2), (117, 3), (125, 1), (126, 3), (128, 0xFFFFFFFF)]) (onTile0 (fun y =>
    {y with vreg := [(1, [0x80000000, 0x40000000, 0xFFFFFFFF, 3, 7]), (2, [0xFFFFFFFF, 0x23, 0x1F, 0xFFFFFFFE, 7]), (3, [1,2])]}))), 0,
    {d := 31, a := 1, b := 2, c := 3, type := 0, rna := true, part := 3, imm := 0xFFFFFFFF}, pslot, by decide +kernel⟩,
  ⟨(bundled (spell [(96, 15), (102, 31), (107, 1), (112, 2), (117, 3), (125, 1), (126, 3), (128, 0xFFFFFFFF)]) (onTile0 (fun y =>
    {y with vreg := [(1, [0x80000000, 0x40000000, 0xFFFFFFFF, 3, 7]), (2, [0xFFFFFFFF, 0x23, 0x1F, 0xFFFFFFFE, 7]), (3, [1,2])]}))), 0,
    {d := 31, a := 1, b := 2, c := 3, type := 0, rna := true, part := 3, imm := 0xFFFFFFFF}, pslot, by decide +kernel⟩,
  ⟨(bundled (spell [(96, 16), (102, 31), (107, 1), (112, 2), (117, 3), (125, 1), (126, 3), (128, 0xFFFFFFFF)]) (onTile0 (fun y =>
    {y with vreg := [(1, [0x80000000, 0x40000000, 0xFFFFFFFF, 3, 7]), (2, [0xFFFFFFFF, 0x23, 0x1F, 0xFFFFFFFE, 7]), (3, [1,2])]}))), 0,
    {d := 31, a := 1, b := 2, c := 3, type := 0, rna := true, part := 3, imm := 0xFFFFFFFF}, pslot, by decide +kernel⟩,
  ⟨(bundled (spell [(96, 17), (102, 31), (107, 1), (112, 2), (117, 3), (125, 1), (126, 3), (128, 0xFFFFFFFF)]) (onTile0 (fun y =>
    {y with vreg := [(1, [0x80000000, 0x40000000, 0xFFFFFFFF, 3, 7]), (2, [0xFFFFFFFF, 0x23, 0x1F, 0xFFFFFFFE, 7]), (3, [1,2])]}))), 0,
    {d := 31, a := 1, b := 2, c := 3, type := 0, rna := true, part := 3, imm := 0xFFFFFFFF}, pslot, by decide +kernel⟩,
  ⟨(bundled (spell [(96, 21), (102, 31), (107, 1), (112, 2), (117, 3), (125, 1), (126, 3), (128, 0xFFFFFFFF)]) (onTile0 (fun y =>
    {y with vreg := [(1, [0x80000000, 0x40000000, 0xFFFFFFFF, 3, 7]), (2, [0xFFFFFFFF, 0x23, 0x1F, 0xFFFFFFFE, 7]), (3, [1,2])]}))), 0,
    {d := 31, a := 1, b := 2, c := 3, type := 0, rna := true, part := 3, imm := 0xFFFFFFFF}, pslot, by decide +kernel⟩⟩

theorem witness_VectorLanes :
    (∃ (s : State) (i : BitVec 8) (v : VecField) (x : Slot) (ty : LaneType), IssuesVec s i 0x06 v x ∧ laneType v.type.toNat = some ty)
    ∧ (∃ (s : State) (i : BitVec 8) (v : VecField) (x : Slot) (ty : LaneType), IssuesVec s i 0x06 v x ∧ laneType v.type.toNat = some ty)
    ∧ (∃ (s : State) (i : BitVec 8) (v : VecField) (x : Slot) (ty : LaneType), IssuesVec s i 0x07 v x ∧ laneType v.type.toNat = some ty)
    ∧ (∃ (s : State) (i : BitVec 8) (v : VecField) (x : Slot) (ty : LaneType), IssuesVec s i 0x08 v x ∧ laneType v.type.toNat = some ty)
    ∧ (∃ (s : State) (i : BitVec 8) (v : VecField) (x : Slot) (ty : LaneType), IssuesVec s i 0x09 v x ∧ laneType v.type.toNat = some ty)
    ∧ (∃ (s : State) (i : BitVec 8) (v : VecField) (x : Slot) (ty : LaneType), IssuesVec s i 0x0A v x ∧ laneType v.type.toNat = some ty)
    ∧ (∃ (s : State) (i : BitVec 8) (v : VecField) (x : Slot) (ty : LaneType), IssuesVec s i 0x0B v x ∧ laneType v.type.toNat = some ty)
    ∧ (∃ (s : State) (i : BitVec 8) (v : VecField) (x : Slot) (ty : LaneType), IssuesVec s i 0x0C v x ∧ laneType v.type.toNat = some ty)
    ∧ (∃ (s : State) (i : BitVec 8) (v : VecField) (x : Slot) (ty : LaneType), IssuesVec s i 0x0D v x ∧ laneType v.type.toNat = some ty)
    ∧ (∃ (s : State) (i : BitVec 8) (v : VecField) (x : Slot) (ty : LaneType), IssuesVec s i 0x0E v x ∧ laneType v.type.toNat = some ty)
    ∧ (∃ (s : State) (i : BitVec 8) (v : VecField) (x : Slot) (ty : LaneType), IssuesVec s i 0x0F v x ∧ laneType v.type.toNat = some ty)
    ∧ (∃ (s : State) (i : BitVec 8) (v : VecField) (x : Slot) (ty : LaneType), IssuesVec s i 0x10 v x ∧ laneType v.type.toNat = some ty)
    ∧ (∃ (s : State) (i : BitVec 8) (v : VecField) (x : Slot) (ty : LaneType), IssuesVec s i 0x11 v x ∧ laneType v.type.toNat = some ty)
    ∧ (∃ (s : State) (i : BitVec 8) (v : VecField) (x : Slot) (ty : LaneType), IssuesVec s i 0x15 v x ∧ laneType v.type.toNat = some ty)
    ∧ (∃ (s : State) (i : BitVec 8) (v : VecField) (x : Slot) (ty : LaneType), IssuesVec s i 0x04 v x ∧ laneType v.type.toNat = some ty)
    ∧ (∃ (s : State) (i : BitVec 8) (v : VecField) (x : Slot) (ty : LaneType), IssuesVec s i 0x05 v x ∧ laneType v.type.toNat = some ty)
    ∧ (∃ (s : State) (i : BitVec 8) (v : VecField) (x : Slot) (ty : LaneType), IssuesVec s i 0x12 v x ∧ laneType v.type.toNat = some ty)
    ∧ (∃ (s : State) (i : BitVec 8) (v : VecField) (x : Slot) (ty : LaneType), IssuesVec s i 0x13 v x ∧ laneType v.type.toNat = some ty)
    ∧ (∃ (s : State) (i : BitVec 8) (v : VecField) (x : Slot) (ty : LaneType), IssuesVec s i 0x16 v x ∧ laneType v.type.toNat = some ty)
    ∧ (∃ (s : State) (i : BitVec 8) (v : VecField) (x : Slot) (ty : LaneType), IssuesVec s i 0x16 v x ∧ laneType v.type.toNat = some ty)
    ∧ (∃ (s : State) (i : BitVec 8) (v : VecField) (x : Slot) (ty : LaneType), IssuesVec s i 0x17 v x ∧ laneType v.type.toNat = some ty)
    ∧ (∃ (s : State) (i : BitVec 8) (v : VecField) (x : Slot) (ty : LaneType) (dst : LaneType), IssuesVec s i 0x14 v x ∧ laneType
      v.type.toNat = some ty ∧ laneType (v.imm.toNat % 8) = some dst)
    ∧ (∃ (s : State) (i : BitVec 8) (v : VecField) (x : Slot), IssuesVec s i 0x18 v x ∧ v.type = 1)
    ∧ (∃ (s : State) (i : BitVec 8) (v : VecField) (x : Slot), IssuesVec s i 0x19 v x ∧ v.type = 1)
    ∧ (∃ (s : State) (i : BitVec 8) (v : VecField) (x : Slot), IssuesVec s i 0x1A v x ∧ v.type = 1)
    ∧ (∃ (s : State) (i : BitVec 8) (v : VecField) (x : Slot) (c : Nat × Instr), IssuesVec s i c.1 v x ∧ v.type ≠ 1 ∧ c ∈ [(0x18, Instr.exp
      i v), (0x19, .rcp i v), (0x1A, .rsq i v)])
    ∧ (∃ (s : State) (i : BitVec 8) (v : VecField) (x : Slot) (c : Nat × Instr), IssuesVec s i c.1 v x ∧ v.type ≠ 1 ∧ c ∈ [(0x18, Instr.exp
      i v), (0x19, .rcp i v), (0x1A, .rsq i v)])
    ∧ (∃ (s : State) (i : BitVec 8) (v : VecField) (x : Slot) (c : Nat × Instr), IssuesVec s i c.1 v x ∧ v.type ≠ 1 ∧ c ∈ [(0x18, Instr.exp
      i v), (0x19, .rcp i v), (0x1A, .rsq i v)])
    ∧ (∃ (s : State) (i : BitVec 8) (v : VecField) (x : Slot), IssuesVec s i 0x00 v x)
    ∧ (∃ (s : State) (i : BitVec 8) (v : VecField) (x : Slot), IssuesVec s i 0x14 v x ∧ 4 < v.imm.toNat % 8)
    ∧ (∃ (s : State) (i : BitVec 8) (v : VecField) (x : Slot) (c : Nat × Instr), IssuesVec s i c.1 v x ∧ 4 < v.type.toNat ∧ c ∈ [(0x01,
      Instr.ldq i v), (0x02, .ldw i v), (0x03, .ldh i v), (0x04, .stq i v), (0x05, .movi i v), (0x06, .add i v), (0x07, .sub i v), (0x08,
      .mul i v), (0x09, .min i v), (0x0A, .max i v), (0x0B, .and i v), (0x0C, .or i v), (0x0D, .xor i v), (0x0E, .shl i v), (0x0F, .shr i
      v), (0x10, .cmplt i v), (0x11, .cmpeq i v), (0x12, .sel i v), (0x13, .perm i v), (0x14, .cvt i v), (0x15, .fma i v), (0x16, .rsum i
      v), (0x17, .rmax i v), (0x18, .exp i v), (0x19, .rcp i v), (0x1A, .rsq i v)])
    ∧ (∃ (s : State) (i : BitVec 8) (v : VecField) (x : Slot) (c : Nat × Instr), IssuesVec s i c.1 v x ∧ 4 < v.type.toNat ∧ c ∈ [(0x01,
      Instr.ldq i v), (0x02, .ldw i v), (0x03, .ldh i v), (0x04, .stq i v), (0x05, .movi i v), (0x06, .add i v), (0x07, .sub i v), (0x08,
      .mul i v), (0x09, .min i v), (0x0A, .max i v), (0x0B, .and i v), (0x0C, .or i v), (0x0D, .xor i v), (0x0E, .shl i v), (0x0F, .shr i
      v), (0x10, .cmplt i v), (0x11, .cmpeq i v), (0x12, .sel i v), (0x13, .perm i v), (0x14, .cvt i v), (0x15, .fma i v), (0x16, .rsum i
      v), (0x17, .rmax i v), (0x18, .exp i v), (0x19, .rcp i v), (0x1A, .rsq i v)])
    ∧ (∃ (s : State) (i : BitVec 8) (v : VecField) (x : Slot) (c : Nat × Instr), IssuesVec s i c.1 v x ∧ 4 < v.type.toNat ∧ c ∈ [(0x01,
      Instr.ldq i v), (0x02, .ldw i v), (0x03, .ldh i v), (0x04, .stq i v), (0x05, .movi i v), (0x06, .add i v), (0x07, .sub i v), (0x08,
      .mul i v), (0x09, .min i v), (0x0A, .max i v), (0x0B, .and i v), (0x0C, .or i v), (0x0D, .xor i v), (0x0E, .shl i v), (0x0F, .shr i
      v), (0x10, .cmplt i v), (0x11, .cmpeq i v), (0x12, .sel i v), (0x13, .perm i v), (0x14, .cvt i v), (0x15, .fma i v), (0x16, .rsum i
      v), (0x17, .rmax i v), (0x18, .exp i v), (0x19, .rcp i v), (0x1A, .rsq i v)])
    ∧ (∃ (s : State) (i : BitVec 8) (b : Nat) (x : Slot) (v : VecField) (c : Nat × Instr), Issues s i fieldVec b x ∧ (vecOpCode b ≠ c.1 ∨
      vecField b ≠ v) ∧ c ∈ [(0x01, Instr.ldq i v), (0x02, .ldw i v), (0x03, .ldh i v), (0x04, .stq i v), (0x05, .movi i v), (0x06, .add
      i v), (0x07, .sub i v), (0x08, .mul i v), (0x09, .min i v), (0x0A, .max i v), (0x0B, .and i v), (0x0C, .or i v), (0x0D, .xor i v),
      (0x0E, .shl i v), (0x0F, .shr i v), (0x10, .cmplt i v), (0x11, .cmpeq i v), (0x12, .sel i v), (0x13, .perm i v), (0x14, .cvt i v),
      (0x15, .fma i v), (0x16, .rsum i v), (0x17, .rmax i v), (0x18, .exp i v), (0x19, .rcp i v), (0x1A, .rsq i v)])
    ∧ (∃ (s : State) (i : BitVec 8) (b : Nat) (x : Slot) (v : VecField) (c : Nat × Instr), Issues s i fieldVec b x ∧ (vecOpCode b ≠ c.1 ∨
      vecField b ≠ v) ∧ c ∈ [(0x01, Instr.ldq i v), (0x02, .ldw i v), (0x03, .ldh i v), (0x04, .stq i v), (0x05, .movi i v), (0x06, .add
      i v), (0x07, .sub i v), (0x08, .mul i v), (0x09, .min i v), (0x0A, .max i v), (0x0B, .and i v), (0x0C, .or i v), (0x0D, .xor i v),
      (0x0E, .shl i v), (0x0F, .shr i v), (0x10, .cmplt i v), (0x11, .cmpeq i v), (0x12, .sel i v), (0x13, .perm i v), (0x14, .cvt i v),
      (0x15, .fma i v), (0x16, .rsum i v), (0x17, .rmax i v), (0x18, .exp i v), (0x19, .rcp i v), (0x1A, .rsq i v)]) :=
  ⟨⟨(bundled (spell [(96, 6), (102, 31), (107, 1), (112, 2), (117, 3), (122, 1), (125, 1), (126, 3), (128, 0xFFFFFFFF)]) (onTile0 (fun y
    => {y with vreg := [(1, [0x80000000, 0x40000000, 0xFFFFFFFF, 3, 7]), (2, [0xFFFFFFFF, 0x23, 0x1F, 0xFFFFFFFE, 7]), (3, [1,2])]}))),
    0, {d := 31, a := 1, b := 2, c := 3, type := 1, rna := true, part := 3, imm := 0xFFFFFFFF}, pslot, .f32, by decide +kernel⟩,
  ⟨(bundled (spell [(96, 6), (102, 31), (107, 1), (112, 2), (117, 3), (122, 4), (125, 1), (126, 3), (128, 0xFFFFFFFF)]) (onTile0 (fun y
    => {y with vreg := [(1, [0x80000000, 0x40000000, 0xFFFFFFFF, 3, 7]), (2, [0xFFFFFFFF, 0x23, 0x1F, 0xFFFFFFFE, 7]), (3, [1,2])]}))),
    0, {d := 31, a := 1, b := 2, c := 3, type := 4, rna := true, part := 3, imm := 0xFFFFFFFF}, pslot, .bf16, by decide +kernel⟩,
  ⟨(bundled (spell [(96, 7), (102, 31), (107, 1), (112, 2), (117, 3), (122, 1), (125, 1), (126, 3), (128, 0xFFFFFFFF)]) (onTile0 (fun y
    => {y with vreg := [(1, [0x80000000, 0x40000000, 0xFFFFFFFF, 3, 7]), (2, [0xFFFFFFFF, 0x23, 0x1F, 0xFFFFFFFE, 7]), (3, [1,2])]}))),
    0, {d := 31, a := 1, b := 2, c := 3, type := 1, rna := true, part := 3, imm := 0xFFFFFFFF}, pslot, .f32, by decide +kernel⟩,
  ⟨(bundled (spell [(96, 8), (102, 31), (107, 1), (112, 2), (117, 3), (122, 1), (125, 1), (126, 3), (128, 0xFFFFFFFF)]) (onTile0 (fun y
    => {y with vreg := [(1, [0x80000000, 0x40000000, 0xFFFFFFFF, 3, 7]), (2, [0xFFFFFFFF, 0x23, 0x1F, 0xFFFFFFFE, 7]), (3, [1,2])]}))),
    0, {d := 31, a := 1, b := 2, c := 3, type := 1, rna := true, part := 3, imm := 0xFFFFFFFF}, pslot, .f32, by decide +kernel⟩,
  ⟨(bundled (spell [(96, 9), (102, 31), (107, 1), (112, 2), (117, 3), (122, 1), (125, 1), (126, 3), (128, 0xFFFFFFFF)]) (onTile0 (fun y
    => {y with vreg := [(1, [0x80000000, 0x40000000, 0xFFFFFFFF, 3, 7]), (2, [0xFFFFFFFF, 0x23, 0x1F, 0xFFFFFFFE, 7]), (3, [1,2])]}))),
    0, {d := 31, a := 1, b := 2, c := 3, type := 1, rna := true, part := 3, imm := 0xFFFFFFFF}, pslot, .f32, by decide +kernel⟩,
  ⟨(bundled (spell [(96, 10), (102, 31), (107, 1), (112, 2), (117, 3), (122, 1), (125, 1), (126, 3), (128, 0xFFFFFFFF)]) (onTile0 (fun y
    => {y with vreg := [(1, [0x80000000, 0x40000000, 0xFFFFFFFF, 3, 7]), (2, [0xFFFFFFFF, 0x23, 0x1F, 0xFFFFFFFE, 7]), (3, [1,2])]}))),
    0, {d := 31, a := 1, b := 2, c := 3, type := 1, rna := true, part := 3, imm := 0xFFFFFFFF}, pslot, .f32, by decide +kernel⟩,
  ⟨(bundled (spell [(96, 11), (102, 31), (107, 1), (112, 2), (117, 3), (122, 1), (125, 1), (126, 3), (128, 0xFFFFFFFF)]) (onTile0 (fun y
    => {y with vreg := [(1, [0x80000000, 0x40000000, 0xFFFFFFFF, 3, 7]), (2, [0xFFFFFFFF, 0x23, 0x1F, 0xFFFFFFFE, 7]), (3, [1,2])]}))),
    0, {d := 31, a := 1, b := 2, c := 3, type := 1, rna := true, part := 3, imm := 0xFFFFFFFF}, pslot, .f32, by decide +kernel⟩,
  ⟨(bundled (spell [(96, 12), (102, 31), (107, 1), (112, 2), (117, 3), (122, 1), (125, 1), (126, 3), (128, 0xFFFFFFFF)]) (onTile0 (fun y
    => {y with vreg := [(1, [0x80000000, 0x40000000, 0xFFFFFFFF, 3, 7]), (2, [0xFFFFFFFF, 0x23, 0x1F, 0xFFFFFFFE, 7]), (3, [1,2])]}))),
    0, {d := 31, a := 1, b := 2, c := 3, type := 1, rna := true, part := 3, imm := 0xFFFFFFFF}, pslot, .f32, by decide +kernel⟩,
  ⟨(bundled (spell [(96, 13), (102, 31), (107, 1), (112, 2), (117, 3), (122, 1), (125, 1), (126, 3), (128, 0xFFFFFFFF)]) (onTile0 (fun y
    => {y with vreg := [(1, [0x80000000, 0x40000000, 0xFFFFFFFF, 3, 7]), (2, [0xFFFFFFFF, 0x23, 0x1F, 0xFFFFFFFE, 7]), (3, [1,2])]}))),
    0, {d := 31, a := 1, b := 2, c := 3, type := 1, rna := true, part := 3, imm := 0xFFFFFFFF}, pslot, .f32, by decide +kernel⟩,
  ⟨(bundled (spell [(96, 14), (102, 31), (107, 1), (112, 2), (117, 3), (122, 1), (125, 1), (126, 3), (128, 0xFFFFFFFF)]) (onTile0 (fun y
    => {y with vreg := [(1, [0x80000000, 0x40000000, 0xFFFFFFFF, 3, 7]), (2, [0xFFFFFFFF, 0x23, 0x1F, 0xFFFFFFFE, 7]), (3, [1,2])]}))),
    0, {d := 31, a := 1, b := 2, c := 3, type := 1, rna := true, part := 3, imm := 0xFFFFFFFF}, pslot, .f32, by decide +kernel⟩,
  ⟨(bundled (spell [(96, 15), (102, 31), (107, 1), (112, 2), (117, 3), (122, 1), (125, 1), (126, 3), (128, 0xFFFFFFFF)]) (onTile0 (fun y
    => {y with vreg := [(1, [0x80000000, 0x40000000, 0xFFFFFFFF, 3, 7]), (2, [0xFFFFFFFF, 0x23, 0x1F, 0xFFFFFFFE, 7]), (3, [1,2])]}))),
    0, {d := 31, a := 1, b := 2, c := 3, type := 1, rna := true, part := 3, imm := 0xFFFFFFFF}, pslot, .f32, by decide +kernel⟩,
  ⟨(bundled (spell [(96, 16), (102, 31), (107, 1), (112, 2), (117, 3), (122, 1), (125, 1), (126, 3), (128, 0xFFFFFFFF)]) (onTile0 (fun y
    => {y with vreg := [(1, [0x80000000, 0x40000000, 0xFFFFFFFF, 3, 7]), (2, [0xFFFFFFFF, 0x23, 0x1F, 0xFFFFFFFE, 7]), (3, [1,2])]}))),
    0, {d := 31, a := 1, b := 2, c := 3, type := 1, rna := true, part := 3, imm := 0xFFFFFFFF}, pslot, .f32, by decide +kernel⟩,
  ⟨(bundled (spell [(96, 17), (102, 31), (107, 1), (112, 2), (117, 3), (122, 1), (125, 1), (126, 3), (128, 0xFFFFFFFF)]) (onTile0 (fun y
    => {y with vreg := [(1, [0x80000000, 0x40000000, 0xFFFFFFFF, 3, 7]), (2, [0xFFFFFFFF, 0x23, 0x1F, 0xFFFFFFFE, 7]), (3, [1,2])]}))),
    0, {d := 31, a := 1, b := 2, c := 3, type := 1, rna := true, part := 3, imm := 0xFFFFFFFF}, pslot, .f32, by decide +kernel⟩,
  ⟨(bundled (spell [(96, 21), (102, 31), (107, 1), (112, 2), (117, 3), (122, 1), (125, 1), (126, 3), (128, 0xFFFFFFFF)]) (onTile0 (fun y
    => {y with vreg := [(1, [0x80000000, 0x40000000, 0xFFFFFFFF, 3, 7]), (2, [0xFFFFFFFF, 0x23, 0x1F, 0xFFFFFFFE, 7]), (3, [1,2])]}))),
    0, {d := 31, a := 1, b := 2, c := 3, type := 1, rna := true, part := 3, imm := 0xFFFFFFFF}, pslot, .f32, by decide +kernel⟩,
  ⟨(bundled (spell [(96, 4), (102, 31), (107, 1), (112, 2), (117, 3), (122, 1), (125, 1), (126, 3), (128, 0xFFFFFFFF)]) (onTile0 (fun y
    => {y with vreg := [(1, [0x80000000, 0x40000000, 0xFFFFFFFF, 3, 7]), (2, [0xFFFFFFFF, 0x23, 0x1F, 0xFFFFFFFE, 7]), (3, [1,2])]}))),
    0, {d := 31, a := 1, b := 2, c := 3, type := 1, rna := true, part := 3, imm := 0xFFFFFFFF}, pslot, .f32, by decide +kernel⟩,
  ⟨(bundled (spell [(96, 5), (102, 31), (107, 1), (112, 2), (117, 3), (122, 1), (125, 1), (126, 3), (128, 0xFFFFFFFF)]) (onTile0 (fun y
    => {y with vreg := [(1, [0x80000000, 0x40000000, 0xFFFFFFFF, 3, 7]), (2, [0xFFFFFFFF, 0x23, 0x1F, 0xFFFFFFFE, 7]), (3, [1,2])]}))),
    0, {d := 31, a := 1, b := 2, c := 3, type := 1, rna := true, part := 3, imm := 0xFFFFFFFF}, pslot, .f32, by decide +kernel⟩,
  ⟨(bundled (spell [(96, 18), (102, 31), (107, 1), (112, 2), (117, 3), (122, 1), (125, 1), (126, 3), (128, 0xFFFFFFFF)]) (onTile0 (fun y
    => {y with vreg := [(1, [0x80000000, 0x40000000, 0xFFFFFFFF, 3, 7]), (2, [0xFFFFFFFF, 0x23, 0x1F, 0xFFFFFFFE, 7]), (3, [1,2])]}))),
    0, {d := 31, a := 1, b := 2, c := 3, type := 1, rna := true, part := 3, imm := 0xFFFFFFFF}, pslot, .f32, by decide +kernel⟩,
  ⟨(bundled (spell [(96, 19), (102, 31), (107, 1), (112, 2), (117, 3), (122, 1), (125, 1), (126, 3), (128, 0xFFFFFFFF)]) (onTile0 (fun y
    => {y with vreg := [(1, [0x80000000, 0x40000000, 0xFFFFFFFF, 3, 7]), (2, [0xFFFFFFFF, 0x23, 0x1F, 0xFFFFFFFE, 7]), (3, [1,2])]}))),
    0, {d := 31, a := 1, b := 2, c := 3, type := 1, rna := true, part := 3, imm := 0xFFFFFFFF}, pslot, .f32, by decide +kernel⟩,
  ⟨(bundled (spell [(96, 22), (102, 31), (107, 1), (112, 2), (117, 3), (122, 1), (125, 1), (126, 3), (128, 0xFFFFFFFF)]) (onTile0 (fun y
    => {y with vreg := [(1, [0x80000000, 0x40000000, 0xFFFFFFFF, 3, 7]), (2, [0xFFFFFFFF, 0x23, 0x1F, 0xFFFFFFFE, 7]), (3, [1,2])]}))),
    0, {d := 31, a := 1, b := 2, c := 3, type := 1, rna := true, part := 3, imm := 0xFFFFFFFF}, pslot, .f32, by decide +kernel⟩,
  ⟨(bundled (spell [(96, 22), (102, 31), (107, 1), (112, 2), (117, 3), (122, 4), (125, 1), (126, 3), (128, 0xFFFFFFFF)]) (onTile0 (fun y
    => {y with vreg := [(1, [0x80000000, 0x40000000, 0xFFFFFFFF, 3, 7]), (2, [0xFFFFFFFF, 0x23, 0x1F, 0xFFFFFFFE, 7]), (3, [1,2])]}))),
    0, {d := 31, a := 1, b := 2, c := 3, type := 4, rna := true, part := 3, imm := 0xFFFFFFFF}, pslot, .bf16, by decide +kernel⟩,
  ⟨(bundled (spell [(96, 23), (102, 31), (107, 1), (112, 2), (117, 3), (122, 1), (125, 1), (126, 3), (128, 0xFFFFFFFF)]) (onTile0 (fun y
    => {y with vreg := [(1, [0x80000000, 0x40000000, 0xFFFFFFFF, 3, 7]), (2, [0xFFFFFFFF, 0x23, 0x1F, 0xFFFFFFFE, 7]), (3, [1,2])]}))),
    0, {d := 31, a := 1, b := 2, c := 3, type := 1, rna := true, part := 3, imm := 0xFFFFFFFF}, pslot, .f32, by decide +kernel⟩,
  ⟨(bundled (spell [(96, 20), (102, 31), (107, 1), (112, 2), (117, 3), (122, 2), (125, 1), (126, 3), (128, 4)]) (onTile0 (fun y =>
    {y with vreg := [(1, [0x80000000, 0x40000000, 0xFFFFFFFF, 3, 7]), (2, [0xFFFFFFFF, 0x23, 0x1F, 0xFFFFFFFE, 7]), (3, [1,2])]}))), 0,
    {d := 31, a := 1, b := 2, c := 3, type := 2, rna := true, part := 3, imm := 4}, pslot, .i16, .bf16, by decide +kernel⟩,
  ⟨(bundled (spell [(96, 24), (102, 31), (107, 1), (112, 2), (117, 3), (122, 1), (125, 1), (126, 3), (128, 0xFFFFFFFF)]) (onTile0 (fun y
    => {y with vreg := [(1, [0x3F800000, 0x80000000])]}))), 0,
    {d := 31, a := 1, b := 2, c := 3, type := 1, rna := true, part := 3, imm := 0xFFFFFFFF}, pslot, by decide +kernel⟩,
  ⟨(bundled (spell [(96, 25), (102, 31), (107, 1), (112, 2), (117, 3), (122, 1), (125, 1), (126, 3), (128, 0xFFFFFFFF)]) (onTile0 (fun y
    => {y with vreg := [(1, [0x3F800000, 0x80000000])]}))), 0,
    {d := 31, a := 1, b := 2, c := 3, type := 1, rna := true, part := 3, imm := 0xFFFFFFFF}, pslot, by decide +kernel⟩,
  ⟨(bundled (spell [(96, 26), (102, 31), (107, 1), (112, 2), (117, 3), (122, 1), (125, 1), (126, 3), (128, 0xFFFFFFFF)]) (onTile0 (fun y
    => {y with vreg := [(1, [0x3F800000, 0x80000000])]}))), 0,
    {d := 31, a := 1, b := 2, c := 3, type := 1, rna := true, part := 3, imm := 0xFFFFFFFF}, pslot, by decide +kernel⟩,
  ⟨(bundled (spell [(96, 24), (102, 31), (107, 1), (112, 2), (117, 3), (122, 4), (125, 1), (126, 3), (128, 0xFFFFFFFF)]) (onTile0 (fun y
    => {y with vreg := [(1, [0x80000000, 0x40000000, 0xFFFFFFFF, 3, 7]), (2, [0xFFFFFFFF, 0x23, 0x1F, 0xFFFFFFFE, 7]), (3, [1,2])]}))),
    0, {d := 31, a := 1, b := 2, c := 3, type := 4, rna := true, part := 3, imm := 0xFFFFFFFF}, pslot, (24, Instr.exp 0
    {d := 31, a := 1, b := 2, c := 3, type := 4, rna := true, part := 3, imm := 0xFFFFFFFF}), by decide +kernel⟩,
  ⟨(bundled (spell [(96, 25), (102, 31), (107, 1), (112, 2), (117, 3), (122, 4), (125, 1), (126, 3), (128, 0xFFFFFFFF)]) (onTile0 (fun y
    => {y with vreg := [(1, [0x80000000, 0x40000000, 0xFFFFFFFF, 3, 7]), (2, [0xFFFFFFFF, 0x23, 0x1F, 0xFFFFFFFE, 7]), (3, [1,2])]}))),
    0, {d := 31, a := 1, b := 2, c := 3, type := 4, rna := true, part := 3, imm := 0xFFFFFFFF}, pslot, (25, Instr.rcp 0
    {d := 31, a := 1, b := 2, c := 3, type := 4, rna := true, part := 3, imm := 0xFFFFFFFF}), by decide +kernel⟩,
  ⟨(bundled (spell [(96, 26), (102, 31), (107, 1), (112, 2), (117, 3), (122, 4), (125, 1), (126, 3), (128, 0xFFFFFFFF)]) (onTile0 (fun y
    => {y with vreg := [(1, [0x80000000, 0x40000000, 0xFFFFFFFF, 3, 7]), (2, [0xFFFFFFFF, 0x23, 0x1F, 0xFFFFFFFE, 7]), (3, [1,2])]}))),
    0, {d := 31, a := 1, b := 2, c := 3, type := 4, rna := true, part := 3, imm := 0xFFFFFFFF}, pslot, (26, Instr.rsq 0
    {d := 31, a := 1, b := 2, c := 3, type := 4, rna := true, part := 3, imm := 0xFFFFFFFF}), by decide +kernel⟩,
  ⟨(bundled (spell [(102, 31), (107, 1), (112, 2), (117, 3), (122, 7), (125, 1), (126, 3), (128, 0xFFFFFFFF)]) running), 0,
    {d := 31, a := 1, b := 2, c := 3, type := 7, rna := true, part := 3, imm := 0xFFFFFFFF}, pslot, by decide +kernel⟩,
  ⟨(bundled (spell [(96, 20), (102, 31), (107, 1), (112, 2), (117, 3), (122, 1), (125, 1), (126, 3), (128, 5)]) running), 0,
    {d := 31, a := 1, b := 2, c := 3, type := 1, rna := true, part := 3, imm := 5}, pslot, by decide +kernel⟩,
  ⟨(bundled (spell [(96, 1), (102, 31), (107, 1), (112, 2), (117, 3), (122, 5), (125, 1), (126, 3), (128, 0xFFFFFFFF)]) (onTile0 (fun y
    => {y with vreg := [(1, [0x80000000, 0x40000000, 0xFFFFFFFF, 3, 7]), (2, [0xFFFFFFFF, 0x23, 0x1F, 0xFFFFFFFE, 7]), (3, [1,2])]}))),
    0, {d := 31, a := 1, b := 2, c := 3, type := 5, rna := true, part := 3, imm := 0xFFFFFFFF}, pslot, (1, Instr.ldq 0
    {d := 31, a := 1, b := 2, c := 3, type := 5, rna := true, part := 3, imm := 0xFFFFFFFF}), by decide +kernel⟩,
  ⟨(bundled (spell [(96, 5), (102, 31), (107, 1), (112, 2), (117, 3), (122, 5), (125, 1), (126, 3), (128, 0xFFFFFFFF)]) (onTile0 (fun y
    => {y with vreg := [(1, [0x80000000, 0x40000000, 0xFFFFFFFF, 3, 7]), (2, [0xFFFFFFFF, 0x23, 0x1F, 0xFFFFFFFE, 7]), (3, [1,2])]}))),
    0, {d := 31, a := 1, b := 2, c := 3, type := 5, rna := true, part := 3, imm := 0xFFFFFFFF}, pslot, (5, Instr.movi 0
    {d := 31, a := 1, b := 2, c := 3, type := 5, rna := true, part := 3, imm := 0xFFFFFFFF}), by decide +kernel⟩,
  ⟨(bundled (spell [(96, 26), (102, 31), (107, 1), (112, 2), (117, 3), (122, 5), (125, 1), (126, 3), (128, 0xFFFFFFFF)]) (onTile0 (fun y
    => {y with vreg := [(1, [0x80000000, 0x40000000, 0xFFFFFFFF, 3, 7]), (2, [0xFFFFFFFF, 0x23, 0x1F, 0xFFFFFFFE, 7]), (3, [1,2])]}))),
    0, {d := 31, a := 1, b := 2, c := 3, type := 5, rna := true, part := 3, imm := 0xFFFFFFFF}, pslot, (26, Instr.rsq 0
    {d := 31, a := 1, b := 2, c := 3, type := 5, rna := true, part := 3, imm := 0xFFFFFFFF}), by decide +kernel⟩,
  ⟨(bundled (spell [(96, 26), (102, 31), (107, 1), (112, 2), (117, 3), (122, 5), (125, 1), (126, 3), (128, 0xFFFFFFFF)]) running), 0,
    (spell [(96, 26), (102, 31), (107, 1), (112, 2), (117, 3), (122, 5), (125, 1), (126, 3), (128, 0xFFFFFFFF)]), pslot,
    {d := 30, a := 1, b := 2, c := 3, type := 5, rna := true, part := 3, imm := 0xFFFFFFFF}, (26, Instr.rsq 0
    {d := 30, a := 1, b := 2, c := 3, type := 5, rna := true, part := 3, imm := 0xFFFFFFFF}), by decide +kernel⟩,
  ⟨(bundled (spell [(96, 26), (102, 31), (107, 1), (112, 2), (117, 3), (122, 5), (125, 1), (126, 3), (128, 0xFFFFFFFF)]) running), 0,
    (spell [(96, 26), (102, 31), (107, 1), (112, 2), (117, 3), (122, 5), (125, 1), (126, 3), (128, 0xFFFFFFFF)]), pslot,
    {d := 31, a := 1, b := 2, c := 3, type := 5, rna := true, part := 3, imm := 0xFFFFFFFF}, (1, Instr.ldq 0
    {d := 31, a := 1, b := 2, c := 3, type := 5, rna := true, part := 3, imm := 0xFFFFFFFF}), by decide +kernel⟩⟩

theorem witness_VectorLoads :
    (∃ (s : State) (i : BitVec 8) (v : VecField) (x : Slot), IssuesVec s i 0x01 v x ∧ v.type.toNat ≤ 4)
    ∧ (∃ (s : State) (i : BitVec 8) (v : VecField) (x : Slot), IssuesVec s i 0x02 v x ∧ v.type.toNat ≤ 4)
    ∧ (∃ (s : State) (i : BitVec 8) (v : VecField) (x : Slot), IssuesVec s i 0x02 v x ∧ v.type.toNat ≤ 4)
    ∧ (∃ (s : State) (i : BitVec 8) (v : VecField) (x : Slot), IssuesVec s i 0x03 v x ∧ v.type.toNat ≤ 4 ∧ v.imm.toNat % 4 ≠ 3)
    ∧ (∃ (s : State) (i : BitVec 8) (v : VecField) (x : Slot), IssuesVec s i 0x03 v x ∧ v.type.toNat ≤ 4 ∧ v.imm.toNat % 4 = 3) :=
  ⟨⟨(bundled (spell [(96, 1), (102, 31), (107, 1), (112, 2), (117, 3), (122, 4), (125, 1), (126, 3)]) (onTile0 (fun y =>
    {y with rows := [{lc := 20, key := 0, unit := 2, data := [1,2,3,4,5], poisoned := false}]}))), 0,
    {d := 31, a := 1, b := 2, c := 3, type := 4, rna := true, part := 3, imm := 0}, pslot, by decide +kernel⟩,
  ⟨(bundled (spell [(96, 2), (102, 31), (107, 1), (112, 2), (117, 3), (125, 1), (126, 3), (128, 0xE0000000)]) (onTile0 (fun y =>
    {y with recv := [{lc := 20, key := 3, unit := 4, data := [0x80,2,3,4,5], poisoned := false}]}))), 0,
    {d := 31, a := 1, b := 2, c := 3, type := 0, rna := true, part := 3, imm := 0xE0000000}, pslot, by decide +kernel⟩,
  ⟨(bundled (spell [(96, 2), (102, 31), (107, 1), (112, 2), (117, 3), (125, 1), (126, 3), (128, 0xE0000003)]) (onTile0 (fun y =>
    {y with recv := [{lc := 20, key := 3, unit := 4, data := [0x80,2,3,4,5], poisoned := false}]}))), 0,
    {d := 31, a := 1, b := 2, c := 3, type := 0, rna := true, part := 3, imm := 0xE0000003}, pslot, by decide +kernel⟩,
  ⟨(bundled (spell [(96, 3), (102, 31), (107, 1), (112, 2), (117, 3), (125, 1), (126, 3), (128, 0xE0000002)]) (onTile0 (fun y =>
    {y with recv := [{lc := 20, key := 3, unit := 4, data := [0x80,2,3,4,5], poisoned := false}]}))), 0,
    {d := 31, a := 1, b := 2, c := 3, type := 0, rna := true, part := 3, imm := 0xE0000002}, pslot, by decide +kernel⟩,
  ⟨(bundled (spell [(96, 3), (102, 31), (107, 1), (112, 2), (117, 3), (125, 1), (126, 3), (128, 0xE0000003)]) (onTile0 (fun y =>
    {y with recv := [{lc := 20, key := 3, unit := 4, data := [0x80,2,3,4,5], poisoned := false}]}))), 0,
    {d := 31, a := 1, b := 2, c := 3, type := 0, rna := true, part := 3, imm := 0xE0000003}, pslot, by decide +kernel⟩⟩

theorem witness_QuantisationSites :
    (∃ (s : State) (i : BitVec 8) (f : QntField) (x : Slot), IssuesQnt s i 3 f x ∧ (siteAt (settled s i) f.site.toNat).cfg ≠ some f.imm)
    ∧ (∃ (s : State) (i : BitVec 8) (f : QntField) (x : Slot), IssuesQnt s i 3 f x ∧ (siteAt (settled s i) f.site.toNat).cfg = some f.imm)
    ∧ (∃ (s : State) (i : BitVec 8) (f : QntField) (x : Slot), IssuesQnt s i 4 f x)
    ∧ (∃ (s : State) (i : BitVec 8) (f : QntField) (x : Slot), IssuesQnt s i 4 f x)
    ∧ (∃ (s : State) (i : BitVec 8) (f : QntField) (x : Slot), IssuesQnt s i 5 f x)
    ∧ (∃ (s : State) (i : BitVec 8) (f : QntField) (x : Slot), IssuesQnt s i 8 f x ∧ (f.src = 0 ∨ 4 ≤ f.src.toNat))
    ∧ (∃ (s : State) (i : BitVec 8) (f : QntField) (x : Slot), IssuesQnt s i 8 f x ∧ 1 ≤ f.src.toNat ∧ f.src.toNat ≤ 3)
    ∧ (∃ (s : State) (i : BitVec 8) (f : QntField) (x : Slot), IssuesQnt s i 1 f x ∧ siteCfg (siteAt (settled s i) f.site.toNat) = none)
    ∧ (∃ (s : State) (i : BitVec 8) (f : QntField) (x : Slot) (c : Nat) (q : Quantised), IssuesQnt s i 1 f x ∧ siteCfg (siteAt (settled s
      i) f.site.toNat) = some c ∧ q = quantise f.site.toNat c (siteAt (settled s i) f.site.toNat) (if f.half then 1 else 0) f.step
      (quantVals (settled s i) c f))
    ∧ (∃ (s : State) (i : BitVec 8) (f : QntField) (x : Slot), IssuesQnt s i 2 f x ∧ siteCfg (siteAt (settled s i) f.site.toNat) = none ∧
      (f.src = 0 ∨ 4 ≤ f.src.toNat) ∧ (siteAt (settled s i) f.site.toNat).cfg = none)
    ∧ (∃ (s : State) (i : BitVec 8) (f : QntField) (x : Slot) (c : Word), IssuesQnt s i 2 f x ∧ siteCfg (siteAt (settled s i) f.site.toNat)
      = none ∧ (f.src = 0 ∨ 4 ≤ f.src.toNat) ∧ (siteAt (settled s i) f.site.toNat).cfg = some c ∧ cfgFmt c.toNat = 6)
    ∧ (∃ (s : State) (i : BitVec 8) (f : QntField) (x : Slot) (c : Nat) (ls : List (Nat × Word)), IssuesQnt s i 2 f x ∧ siteCfg (siteAt
      (settled s i) f.site.toNat) = some c ∧ (f.src = 0 ∨ 4 ≤ f.src.toNat) ∧ deqLanes c (siteAt (settled s i) f.site.toNat) (sourceRow
      i.toNat unitQnt f.src.toNat s).1 (if f.half then 1 else 0) f.ar.toNat f.obf = ls.map (fun l => (l.1, some l.2)))
    ∧ (∃ (s : State) (i : BitVec 8) (f : QntField) (x : Slot), IssuesQnt s i 6 f x)
    ∧ (∃ (s : State) (i : BitVec 8) (f : QntField) (x : Slot), IssuesQnt s i 7 f x ∧ f.x = false)
    ∧ (∃ (s : State) (i : BitVec 8) (f : QntField) (x : Slot), IssuesQnt s i 7 f x ∧ f.x = true)
    ∧ (∃ (s : State) (i : BitVec 8) (f : QntField) (x : Slot), IssuesQnt s i 7 f x ∧ f.x = true ∧ (settled s i).flights = []) :=
  ⟨⟨(bundled (spell [(192, 3), (196, 15), (200, 31), (205, 1), (206, 1), (207, 1), (224, 3)]) running), 0,
    {site := 15, vreg := 31, half := true, step := true, x := true, src := 0, obf := false, ar := 0, imm := 3}, pslot, by decide +kernel⟩,
  ⟨(bundled (spell [(192, 3), (196, 15), (200, 31), (205, 1), (206, 1), (207, 1), (224, 3)]) (onTile0 (fun y =>
    {y with sites := [(15, {Site.init with cfg := some 3})]}))), 0,
    {site := 15, vreg := 31, half := true, step := true, x := true, src := 0, obf := false, ar := 0, imm := 3}, pslot, by decide +kernel⟩,
  ⟨(bundled (spell [(192, 4), (200, 31), (205, 1), (206, 1), (207, 1), (224, 0x40000000)]) running), 0,
    {site := 0, vreg := 31, half := true, step := true, x := true, src := 0, obf := false, ar := 0, imm := 0x40000000}, pslot,
    by decide +kernel⟩,
  ⟨(bundled (spell [(192, 4), (196, 15), (200, 31), (205, 1), (206, 1), (207, 1), (224, 0x80000000)]) (onTile0 (fun y =>
    {y with sites := [(15, {Site.init with steps := 1})]}))), 0,
    {site := 15, vreg := 31, half := true, step := true, x := true, src := 0, obf := false, ar := 0, imm := 0x80000000}, pslot,
    by decide +kernel⟩,
  ⟨(bundled (spell [(192, 5), (196, 15), (200, 31), (205, 1), (206, 1), (207, 1), (224, 3)]) running), 0,
    {site := 15, vreg := 31, half := true, step := true, x := true, src := 0, obf := false, ar := 0, imm := 3}, pslot, by decide +kernel⟩,
  ⟨(bundled (spell [(192, 8), (196, 15), (200, 31), (205, 1), (206, 1), (207, 1), (208, 7), (224, 3)]) (onTile0 (fun y =>
    {y with recv := [{lc := 20, key := 3, unit := 4, data := [0x80,2,3,4,5], poisoned := false}]}))), 0,
    {site := 15, vreg := 31, half := true, step := true, x := true, src := 7, obf := false, ar := 0, imm := 3}, pslot, by decide +kernel⟩,
  ⟨(bundled (spell [(192, 8), (196, 15), (200, 31), (205, 1), (206, 1), (207, 1), (208, 3), (224, 3)]) running), 0,
    {site := 15, vreg := 31, half := true, step := true, x := true, src := 3, obf := false, ar := 0, imm := 3}, pslot, by decide +kernel⟩,
  ⟨(bundled (spell [(192, 1), (196, 15), (200, 31), (205, 1), (206, 1), (207, 1), (224, 3)]) running), 0,
    {site := 15, vreg := 31, half := true, step := true, x := true, src := 0, obf := false, ar := 0, imm := 3}, pslot, by decide +kernel⟩,
  ⟨(bundled (spell [(192, 1), (196, 15), (200, 31), (206, 1)]) (onTile0 (fun y =>
    {y with vreg := [(31, [0x40000000, 0xC0A00000, 0x44000000])], sites := [(15, {Site.init with cfg := some 3})]}))), 0,
    {site := 15, vreg := 31, half := false, step := true, x := false, src := 0, obf := false, ar := 0, imm := 0}, pslot, 3, (quantise 15
    3 {Site.init with cfg := some 3} 0 true (quantVals (settled (bundled (spell [(192, 1), (196, 15), (200, 31), (206, 1)]) (onTile0 (fun
    y => {y with vreg := [(31, [0x40000000, 0xC0A00000, 0x44000000])], sites := [(15, {Site.init with cfg := some 3})]}))) 0) 3
    {site := 15, vreg := 31, half := false, step := true, x := false, src := 0, obf := false, ar := 0, imm := 0})), by decide +kernel⟩,
  ⟨(bundled (spell [(192, 2), (196, 15), (200, 31), (205, 1), (206, 1), (207, 1), (224, 3)]) (onTile0 (fun y =>
    {y with rows := [{lc := 20, key := 0, unit := 3, data := [1,2,3,4,5], poisoned := false}]}))), 0,
    {site := 15, vreg := 31, half := true, step := true, x := true, src := 0, obf := false, ar := 0, imm := 3}, pslot, by decide +kernel⟩,
  ⟨(bundled (spell [(192, 2), (196, 15), (200, 31), (205, 1), (206, 1), (207, 1), (224, 3)]) (onTile0 (fun y =>
    {y with sites := [(15, {Site.init with cfg := some 0x1006})]}))), 0,
    {site := 15, vreg := 31, half := true, step := true, x := true, src := 0, obf := false, ar := 0, imm := 3}, pslot, 0x1006,
    by decide +kernel⟩,
  ⟨(bundled (spell [(192, 2), (196, 15), (200, 31), (205, 1), (206, 1), (207, 1), (224, 3)]) (onTile0 (fun y =>
    {y with sites := [(15, {Site.init with cfg := some 3})], rows := [{lc := 20, key := 0, unit := 3, data := [], poisoned := false}]}))),
    0, {site := 15, vreg := 31, half := true, step := true, x := true, src := 0, obf := false, ar := 0, imm := 3}, pslot, 3, ((span 0
    64).map (fun k => (k, 0))), by decide +kernel⟩,
  ⟨(bundled (spell [(192, 6), (196, 15), (200, 31), (205, 1), (206, 1), (207, 1), (224, 3)]) (onTile0 (fun y =>
    {y with sites := [(15, {Site.init with cfg := some 2, nrec := 3, records := [(0, [1])]})]}))), 0,
    {site := 15, vreg := 31, half := true, step := true, x := true, src := 0, obf := false, ar := 0, imm := 3}, pslot, by decide +kernel⟩,
  ⟨(bundled (spell [(192, 7), (196, 15), (200, 31), (205, 1), (206, 1), (224, 3)]) (onTile0 (fun y =>
    {y with sites := [(15, {Site.init with cfg := some 2, nrec := 3, records := [(0, [1])]})]}))), 0,
    {site := 15, vreg := 31, half := true, step := true, x := false, src := 0, obf := false, ar := 0, imm := 3}, pslot,
    by decide +kernel⟩,
  ⟨(bundled (spell [(192, 7), (196, 15), (200, 31), (205, 1), (206, 1), (207, 1), (224, 3)]) (onTile0 (fun y =>
    {y with flights := [], sites := [(15, {Site.init with cfg := some 2, nrec := 3, stats := {SiteStats.init with count := 4, maxErr := 5}})]}))),
    0, {site := 15, vreg := 31, half := true, step := true, x := true, src := 0, obf := false, ar := 0, imm := 3}, pslot,
    by decide +kernel⟩,
  ⟨(bundled (spell [(192, 7), (196, 15), (200, 31), (205, 1), (206, 1), (207, 1), (224, 3)]) (onTile0 (fun y =>
    {y with flights := [], sites := [(15, {Site.init with cfg := some 2, nrec := 3, stats := {SiteStats.init with count := 4, maxErr := 5}})]}))),
    0, {site := 15, vreg := 31, half := true, step := true, x := true, src := 0, obf := false, ar := 0, imm := 3}, pslot,
    by decide +kernel⟩⟩

theorem witness_AttentionEngines :
    (∃ (s : State) (r : BitVec 4) (f : Flit) (x : Slot) (v : Version) (h : BitVec 2) (l : BitVec 8 × BitVec 8), Live s ∧ mesochronousRuns
      s = true ∧ s.loom.engines = [] ∧ s.loom.kvUp = [] ∧ s.loom.flits.find? (atEngine r.toNat s.clocks.lc) = some f ∧ f.slot.bind
      (slotOfEntry s) = some x ∧ isPass x = true ∧ slotVersion s x = some v ∧ v.engines.getLsbD r.toNat = true ∧ (parseCmd f.data).kind =
      2 ∧ cmdFault s r.toNat x (parseCmd f.data) = none ∧ NamesLane (parseCmd f.data) h l)
    ∧ (∃ (s : State) (r : BitVec 4) (f : Flit) (x : Slot) (v : Version) (h : BitVec 2) (l : BitVec 8 × BitVec 8), Live s ∧ mesochronousRuns
      s = true ∧ s.loom.engines = [] ∧ s.loom.kvUp = [] ∧ s.loom.flits.find? (atEngine r.toNat s.clocks.lc) = some f ∧ f.slot.bind
      (slotOfEntry s) = some x ∧ isPass x = true ∧ slotVersion s x = some v ∧ v.engines.getLsbD r.toNat = true ∧ (parseCmd f.data).kind =
      1 ∧ cmdFault s r.toNat x (parseCmd f.data) = none ∧ NamesLane (parseCmd f.data) h l)
    ∧ (∃ (s : State) (r : BitVec 4) (f : Flit) (x : Slot) (h : BitVec 2) (l : BitVec 8 × BitVec 8), Live s ∧ mesochronousRuns s = true ∧
      (engineOf s r.toNat).cmd = none ∧ s.clocks.lc < (engineOf s r.toNat).busyUntil ∧ s.loom.flits.find? (atEngine r.toNat s.clocks.lc)
      = some f ∧ f.slot.bind (slotOfEntry s) = some x ∧ isPass x = true ∧ x.breached = false ∧ (parseCmd f.data).kind ≠ 2 ∧ NamesLane
      (parseCmd f.data) h l)
    ∧ (∃ (s : State) (r : BitVec 4) (f : Flit) (x : Slot) (v : Version) (h : BitVec 2) (l : BitVec 8 × BitVec 8), Live s ∧ mesochronousRuns
      s = true ∧ s.loom.engines = [] ∧ s.loom.flits.find? (atEngine r.toNat s.clocks.lc) = some f ∧ f.slot.bind (slotOfEntry s) = some x
      ∧ isPass x = true ∧ x.breached = false ∧ slotVersion s x = some v ∧ v.engines.getLsbD r.toNat = true ∧ (parseCmd f.data).kind ≠ 1 ∧
      (parseCmd f.data).kind ≠ 2 ∧ NamesLane (parseCmd f.data) h l)
    ∧ (∃ (s : State) (r : Nat) (k : EngineCmd) (q : Nat) (l : Nat) (j : Nat), (engineOf s r).cmd = some k ∧ k.appended = false ∧ k.faulty =
      false ∧ (parseCmd k.raw).kind = 2 ∧ k.lane = some (q, l) ∧ s.clocks.lc = appendLc (parseCmd k.raw) k.first ∧ s.loom.kvUp = [] ∧
      appendSlot (seqOf s q).desc (laneOf (seqOf s q) l) = (some j, false))
    ∧ (∃ (s : State) (r : Nat) (k : EngineCmd) (q : Nat) (l : Nat), (engineOf s r).cmd = some k ∧ k.appended = true ∧ k.faulty = false ∧
      (parseCmd k.raw).kind = 1 ∧ k.lane = some (q, l) ∧ k.scanned + 1 < (parseCmd k.raw).w ∧ appendLc (parseCmd k.raw) k.first ≤
      s.clocks.lc ∧ (kvSlotOf (laneOf (seqOf s q) l) k.scanned).valid = false)
    ∧ (∃ (s : State) (r : Nat) (k : EngineCmd), (engineOf s r).cmd = some k ∧ k.appended = false ∧ k.faulty = true ∧ (parseCmd k.raw).kind
      = 1 ∧ (parseCmd k.raw).w = 0 ∧ s.clocks.lc = appendLc (parseCmd k.raw) k.first ∧ s.loom.flits = [])
    ∧ (∃ (s : State) (r : Nat) (k : EngineCmd), (engineOf s r).cmd = some k ∧ k.appended = true ∧ k.faulty = true ∧ (parseCmd k.raw).kind =
      1 ∧ k.scanned + 1 = (parseCmd k.raw).w ∧ appendLc (parseCmd k.raw) k.first ≤ s.clocks.lc)
    ∧ (∃ (s : State) (r : BitVec 4) (f : Flit), Live s ∧ mesochronousRuns s = true ∧ s.loom.flits = [f] ∧ f.dest = 16 * r.toNat + 15 ∧
      f.engine = true ∧ f.due = s.clocks.lc ∧ takesPart s (16 * r.toNat + 15) = true ∧ (∀ y ∈ (tileOf s (16 * r.toNat + 15)).recv, y.lc ≠
      s.clocks.lc)) :=
  ⟨⟨{attending with loom := {attending.loom with engines := [], flits := [{dest := 512, dir := .e, due := 20, data := cmdFlit 2, poisoned := false, slot := some 1, engine := false}]}},
    0, {dest := 512, dir := .e, due := 20, data := cmdFlit 2, poisoned := false, slot := some 1, engine := false},
    {pslot with run := .pass (some 9) 10}, ver, 0, (0, 0), by decide +kernel⟩,
  ⟨{attending with loom := {attending.loom with engines := [], flits := [{dest := 512, dir := .e, due := 20, data := cmdFlit 1, poisoned := false, slot := some 1, engine := false}]}},
    0, {dest := 512, dir := .e, due := 20, data := cmdFlit 1, poisoned := false, slot := some 1, engine := false},
    {pslot with run := .pass (some 9) 10}, ver, 0, (0, 0), by decide +kernel⟩,
  ⟨{attending with loom := {attending.loom with engines := [(0, {busyUntil := 30, cmd := none})], flits := [{dest := 512, dir := .e, due := 20, data := cmdFlit 1, poisoned := false, slot := some 1, engine := false}]}},
    0, {dest := 512, dir := .e, due := 20, data := cmdFlit 1, poisoned := false, slot := some 1, engine := false},
    {pslot with run := .pass (some 9) 10}, 0, (0, 0), by decide +kernel⟩,
  ⟨{attending with loom := {attending.loom with engines := [], flits := [{dest := 512, dir := .e, due := 20, data := cmdFlit 9, poisoned := false, slot := some 1, engine := false}]}},
    0, {dest := 512, dir := .e, due := 20, data := cmdFlit 9, poisoned := false, slot := some 1, engine := false},
    {pslot with run := .pass (some 9) 10}, ver, 0, (0, 0), by decide +kernel⟩,
  ⟨{attending with loom := {attending.loom with engines := [(0, {busyUntil := 30, cmd := some {raw := cmdFlit 2, first := 17, lane := some (7, 0), faulty := false, appended := false, query := [], heads := [], scanned := 0, slot := some 1, job := some 9}})]}},
    0,
    {raw := cmdFlit 2, first := 17, lane := some (7, 0), faulty := false, appended := false, query := [], heads := [], scanned := 0, slot := some 1, job := some 9},
    7, 0, 0, by decide +kernel⟩,
  ⟨{attending with loom := {attending.loom with engines := [(0, {busyUntil := 30, cmd := some {raw := cmdFlit 1, first := 0, lane := some (7, 0), faulty := false, appended := true, query := [], heads := [], scanned := 0, slot := some 1, job := some 9}})]}},
    0,
    {raw := cmdFlit 1, first := 0, lane := some (7, 0), faulty := false, appended := true, query := [], heads := [], scanned := 0, slot := some 1, job := some 9},
    7, 0, by decide +kernel⟩,
  ⟨{attending with loom := {attending.loom with engines := [(0, {busyUntil := 30, cmd := some {raw := row64 [(0, 1), (10, 0x80), (11, 0x3F), (17, 8)], first := 19 - queryFlits (parseCmd (row64 [(0, 1), (10, 0x80), (11, 0x3F), (17, 8)])), lane := none, faulty := true, appended := false, query := [], heads := [], scanned := 0, slot := some 1, job := some 9}})]}},
    0,
    {raw := row64 [(0, 1), (10, 0x80), (11, 0x3F), (17, 8)], first := 19 - queryFlits (parseCmd (row64 [(0, 1), (10, 0x80), (11, 0x3F), (17, 8)])), lane := none, faulty := true, appended := false, query := [], heads := [], scanned := 0, slot := some 1, job := some 9},
    by decide +kernel⟩,
  ⟨{attending with loom := {attending.loom with engines := [(0, {busyUntil := 30, cmd := some {raw := cmdFlit 1, first := 0, lane := some (7, 0), faulty := true, appended := true, query := [], heads := [], scanned := 15, slot := some 1, job := some 9}})]}},
    0,
    {raw := cmdFlit 1, first := 0, lane := some (7, 0), faulty := true, appended := true, query := [], heads := [], scanned := 15, slot := some 1, job := some 9},
    by decide +kernel⟩,
  ⟨{attending with loom := {attending.loom with flits := [{dest := 15, dir := .e, due := 20, data := [1,2], poisoned := true, slot := some 1, engine := true}]}},
    0, {dest := 15, dir := .e, due := 20, data := [1,2], poisoned := true, slot := some 1, engine := true}, by decide +kernel⟩⟩

theorem witness_Apertures :
    (∃ (s : State) (m : BitVec 1) (a : BitVec 57) (d : List Byte), Takes s m.toNat ∧ inTileAperture a.toNat = true ∧ d.length ∈ [8, 64,
      128, 192] ∧ goodAddr a.toNat d.length = true)
    ∧ (∃ (s : State) (m : BitVec 1) (a : BitVec 57) (d : List Byte), Takes s m.toNat ∧ inKvAperture a.toNat = true ∧ d.length ∈ [8, 64,
      128, 192] ∧ goodAddr a.toNat d.length = true)
    ∧ (∃ (s : State) (m : BitVec 1) (a : BitVec 57) (z : BitVec 2), Takes s m.toNat ∧ inTileAperture a.toNat = true ∧ goodAddr a.toNat
      (sizeBytes z.toNat) = true)
    ∧ (∃ (s : State) (m : BitVec 1) (a : BitVec 57) (z : BitVec 2), Takes s m.toNat ∧ inKvAperture a.toNat = true ∧ goodAddr a.toNat
      (sizeBytes z.toNat) = true)
    ∧ (∃ (s : State) (m : BitVec 1) (a : BitVec 57) (d : List Byte), Takes s m.toNat ∧ inTileAperture a.toNat = true ∧ d.length ∉ [8, 64,
      128, 192])
    ∧ (∃ (s : State) (m : BitVec 1), Live s ∧ (weftOf s m.toNat).trained = true ∧ (weftOf s m.toNat).devPosted = 0)
    ∧ (∃ (s : State) (m : BitVec 1) (x : Waiting) (b : Nat) (k : Nat) (n : Nat), Live s ∧ (weftOf s m.toNat).park = [x] ∧ (weftOf s
      m.toNat).inq = [] ∧ (weftOf s (1 - m.toNat)).park = [] ∧ x.isRead = false ∧ placeOf x = .bank b k n ∧ mayApply s false (.bank b k
      n) = true ∧ x.data.length = 64 ∧ x.size = 64)
    ∧ (∃ (s : State) (m : BitVec 1) (x : Waiting) (b : Nat) (k : Nat) (n : Nat), Live s ∧ (weftOf s m.toNat).park = [x] ∧ WeftIdle s
      m.toNat ∧ x.isRead = true ∧ (weftOf s (1 - m.toNat)).park = [] ∧ placeOf x = .bank b k n ∧ mayApply s true (.bank b k n) = true ∧
      x.data = [] ∧ x.size = 64 ∧ n % 64 = 0 ∧ s.loom.bankUp = [])
    ∧ (∃ (s : State) (m : BitVec 1) (x : Waiting) (b : Nat) (k : Nat) (n : Nat), Live s ∧ (weftOf s m.toNat).park = [x] ∧ placeOf x = .bank
      b k n ∧ mayApply s x.isRead (.bank b k n) = false)
    ∧ (∃ (s : State) (m : BitVec 1) (x : Waiting), Live s ∧ (weftOf s m.toNat).park = [x] ∧ WeftIdle s m.toNat ∧ x.isRead = true ∧ x.since
      + 2000000 ≤ s.loom.now.toNat) :=
  ⟨⟨(linked atL0), 1, 0x103FFFF40, (List.replicate 192 7), by decide +kernel⟩,
  ⟨(linked atL0), 0, 0x3FFFFFFF8, (List.replicate 8 7), by decide +kernel⟩,
  ⟨(linked atL0), 0, 0x100000000, 3, by decide +kernel⟩,
  ⟨(linked atL0), 0, 0x200000000, 0, by decide +kernel⟩,
  ⟨(linked atL0), 0, 0x100000000, (List.replicate 16 7), by decide +kernel⟩,
  ⟨{linked atL0 with weft := [(0, {wlink with devPosted := 0}), (1, wlink)]}, 0, by decide +kernel⟩,
  ⟨(parked {bankRead1 with isRead := false, data := List.replicate 64 7}), 0,
    {bankRead1 with isRead := false, data := List.replicate 64 7}, 1, 1, 64, by decide +kernel⟩,
  ⟨(parked bankRead1), 0, bankRead1, 1, 1, 64, by decide +kernel⟩,
  ⟨{parked bankRead1 with loom := {Loom.reset with bankUse := [(11, 0)]}}, 0, bankRead1, 1, 1, 64, by decide +kernel⟩,
  ⟨{parked bankRead1 with loom := {Loom.reset with now := 2000005}}, 0, bankRead1, by decide +kernel⟩⟩

theorem witness_WeftLink :
    (∃ (s : State) (m : BitVec 1), Live s ∧ isPowered s m.toNat = true ∧ (weftOf s m.toNat).trained = false ∧ (∀ k < 2, (weftOf s
      k).resent = [] ∧ (weftOf s k).txq = []))
    ∧ (∃ (s : State), Live s)
    ∧ (∃ (s : State) (m : BitVec 1), Live s ∧ (weftOf s m.toNat).trained = true ∧ (weftOf s m.toNat).inq = [] ∧ (weftOf s m.toNat).park =
      [] ∧ (weftOf s m.toNat).replay = [] ∧ (weftOf s m.toNat).resent = [] ∧ (weftOf s m.toNat).txq = [] ∧ (weftOf s 0).dropped = [] ∧
      (weftOf s 1).dropped = [] ∧ (weftOf s (1 - m.toNat)).resent = [] ∧ (weftOf s (1 - m.toNat)).txq = [] ∧ s.loom.reads = [])
    ∧ (∃ (s : State) (m : BitVec 1) (g : BitVec 12) (r : DevRead) (ld : Load), Live s ∧ (weftOf s m.toNat).trained = true ∧ s.loom.reads =
      [r] ∧ r.tag = g.toNat ∧ r.mod = m.toNat ∧ r.got = none ∧ r.what = .image r.len ∧ s.loom.load = some ld)
    ∧ (∃ (s : State) (m : BitVec 1) (g : BitVec 12) (c : BitVec 4) (r : DevRead) (n : Nat) (k : Nat), Live s ∧ (weftOf s m.toNat).trained =
      true ∧ s.loom.reads = [r] ∧ r.tag = g.toNat ∧ r.mod = m.toNat ∧ r.got = none ∧ r.what = .ring n k ∧ c ≠ 0 ∧ (ringOf s (4 * (n / 4)
      + 2)).en = false ∧ n % 4 ≠ 2)
    ∧ (∃ (s : State) (m : BitVec 1) (c : WeftRetrainCause), Live s ∧ weftCause (weftOf s m.toNat) c = false)
    ∧ (∃ (s : State) (m : BitVec 1), Live s ∧ (weftOf s m.toNat).trained = true ∧ (weftOf s m.toNat).replay.length < 128)
    ∧ (∃ (s : State) (m : BitVec 1), Live s ∧ (weftOf s m.toNat).trained = true ∧ (weftOf s m.toNat).replay.length < 128)
    ∧ (∃ (s : State) (m : BitVec 1) (b : List Byte), Live s ∧ (weftOf s m.toNat).trained = true ∧ flitIntact b = false ∧ (weftOf s
      m.toNat).replay.length < 128)
    ∧ (∃ (s : State) (m : BitVec 1) (b : List Byte), Live s ∧ (weftOf s m.toNat).trained = true ∧ flitIntact b = true ∧ flitSeq b = (weftOf
      s m.toNat).rxSeq + 1 ∧ flitTxns b = 0 ∧ flitAck b = 1 ∧ (weftOf s m.toNat).rxSince < 31 ∧ (∀ k < 2, (weftOf s k).resent = [] ∧
      (weftOf s k).txq = []))
    ∧ (∃ (s : State), HostHeard s)
    ∧ (∃ (s : State), HostHeard s ∧ s.loom.weave.swap = .idle)
    ∧ (∃ (s : State), HostHeard s ∧ s.loom.weave.swap = .idle)
    ∧ (∃ (s : State), Live s ∧ s.pwr.drained = false ∧ loomReachable s.pwr = false)
    ∧ (∃ (s : State), Reached s ∧ s.pwr.drained = true) :=
  ⟨⟨{atL0 with pwr := {atL0.pwr with powered := 2}}, 1, by decide +kernel⟩,
  ⟨atL0, by decide +kernel⟩,
  ⟨(linked atL0), 1, by decide +kernel⟩,
  ⟨{linked atL0 with loom := {Loom.reset with load := some newLoad, reads := [{tag := 4095, mod := 1, tenant := 3, what := .image 128, addr := 0, len := 128, got := none}]}},
    1, 4095, {tag := 4095, mod := 1, tenant := 3, what := .image 128, addr := 0, len := 128, got := none}, newLoad, by decide +kernel⟩,
  ⟨{linked atL0 with loom := {Loom.reset with reads := [{tag := 4095, mod := 1, tenant := 3, what := .ring 12 1, addr := 0, len := 64, got := none}]}},
    1, 4095, 15, {tag := 4095, mod := 1, tenant := 3, what := .ring 12 1, addr := 0, len := 64, got := none}, 12, 1, by decide +kernel⟩,
  ⟨(linked atL0), 1, .ackTimeout, by decide +kernel⟩,
  ⟨(linked atL0), 1, by decide +kernel⟩,
  ⟨{linked atL0 with weft := [(0, wlink), (1, {wlink with oweP := 300, oweN := 3, txSeq := 4095, rxSeq := 77})]}, 1, by decide +kernel⟩,
  ⟨(linked atL0), 1, (List.replicate 256 1), by decide +kernel⟩,
  ⟨{linked atL0 with weft := [(0, {wlink with replay := [(5, {kind := .idle, addr := 0, data := [], len := 0, tag := 0, tenant := 0, what := .nothing}), (7, {kind := .idle, addr := 0, data := [], len := 0, tag := 0, tenant := 0, what := .nothing})], rxSince := 30})]},
    0, (goodFlit [0x00, 0x60, 0, 0xF1, 0xFF]), by decide +kernel⟩,
  ⟨atL0, by decide +kernel⟩,
  ⟨atL0, by decide +kernel⟩,
  ⟨atL0, by decide +kernel⟩,
  ⟨State.reset, by decide +kernel⟩,
  ⟨{staged .l0 (.drain true) with pwr := {(staged .l0 (.drain true)).pwr with drained := true}}, by decide +kernel⟩⟩

theorem witness_RingsAndTables :
    (∃ (s : State) (n : BitVec 10) (v : Word), HostHeard s ∧ (n.toNat % 4 = 0 ∨ n.toNat % 4 = 3) ∧ tailValid (ringOf s n.toNat) v = true)
    ∧ (∃ (s : State) (n : BitVec 10) (v : Word), HostHeard s ∧ (n.toNat % 4 = 0 ∨ n.toNat % 4 = 3) ∧ tailValid (ringOf s n.toNat) v = false
      ∧ (ringOf s (4 * (n.toNat / 4) + 2)).en = false)
    ∧ (∃ (s : State) (n : BitVec 10) (v : Word), HostHeard s ∧ (n.toNat % 4 = 1 ∨ (n.toNat % 4 = 2 ∧ (tenantOf s (n.toNat / 4)).lost = 0))
      ∧ headValid (ringOf s n.toNat) v = true)
    ∧ (∃ (s : State) (n : BitVec 10), HostHeard s ∧ n.toNat % 4 ≠ 2 ∧ (ringOf s n.toNat).en = false)
    ∧ (∃ (s : State) (n : BitVec 10), HostHeard s ∧ (ringOf s n.toNat).en = true)
    ∧ (∃ (s : State) (n : BitVec 10), HostHeard s ∧ n.toNat % 4 ≠ 1 ∧ (ringOf s n.toNat).en = true)
    ∧ (∃ (s : State) (n : BitVec 10), HostHeard s ∧ n.toNat % 4 = 1 ∧ (ringOf s n.toNat).en = true ∧ jobsOfTenant s (n.toNat / 4) ≠ [])
    ∧ (∃ (s : State) (n : BitVec 8) (d : DWord), HostHeard s ∧ partCode s n.toNat (parsePart d) = 0)
    ∧ (∃ (s : State) (n : BitVec 8) (d : DWord), HostHeard s ∧ partCode s n.toNat (parsePart d) ≠ 0)
    ∧ (∃ (s : State), HostHeard s)
    ∧ (∃ (s : State), HostHeard s)
    ∧ (∃ (s : State), Reached s ∧ s.loom.weave.swap = .checking)
    ∧ (∃ (s : State), Reached s ∧ s.loom.weave.swap = .checking)
    ∧ (∃ (s : State), HostHeard s)
    ∧ (∃ (s : State), HostHeard s)
    ∧ (∃ (s : State) (d : DWord) (src : Nat) (ten : Option Nat) (k : Nat), HostHeard s ∧ s.loom.tallyLc = s.clocks.lc ∧ s.loom.tallyEvs =
      [(src, ten, k)] ∧ d.getLsbD 17 = true)
    ∧ (∃ (s : State), HostHeard s)
    ∧ (∃ (s : State) (n : Nat) (src : Byte), s.loom.tallyLc ≠ s.clocks.lc ∧ s.loom.tallySel = [(n,
      { src := src, tenant := 0, filter := false })]) :=
  ⟨⟨{atL0 with loom := {Loom.reset with rings := [(12, {Ring.init with en := true})]}}, 12, 16, by decide +kernel⟩,
  ⟨{atL0 with loom := {Loom.reset with rings := [(12, {Ring.init with en := true})]}}, 12, 17, by decide +kernel⟩,
  ⟨{atL0 with loom := {Loom.reset with rings := [(1021, {Ring.init with en := true, tail := 3})]}}, 1021, 3, by decide +kernel⟩,
  ⟨atL0, 1023, by decide +kernel⟩,
  ⟨{atL0 with loom := {Loom.reset with rings := [(1021, {Ring.init with en := true, tail := 3})]}}, 1021, by decide +kernel⟩,
  ⟨{atL0 with loom := {Loom.reset with rings := [(1022, {Ring.init with en := true, tail := 3})]}}, 1022, by decide +kernel⟩,
  ⟨{running with loom := {running.loom with jobs := [job0], rings := [(13, {Ring.init with en := true, tail := 3})]}}, 13,
    by decide +kernel⟩,
  ⟨atL0, 255, 0xF07FFFF00, by decide +kernel⟩,
  ⟨atL0, 255, 0x10F, by decide +kernel⟩,
  ⟨atL0, by decide +kernel⟩,
  ⟨{atL0 with loom := {Loom.reset with weave := {Weave.reset with swap := .pending}}}, by decide +kernel⟩,
  ⟨{atL0 with clocks := {Clocks.reset with lc := 9}, loom := {Loom.reset with weave := {Weave.reset with swap := .checking, shadowLc := 1024, shadow := [(3, {draftEntry with start := 964})]}}},
    by decide +kernel⟩,
  ⟨{atL0 with clocks := {Clocks.reset with lc := 9}, loom := {Loom.reset with weave := {Weave.reset with swap := .checking, shadowLc := 1024, shadow := [(3, {draftEntry with start := 965})]}}},
    by decide +kernel⟩,
  ⟨atL0, by decide +kernel⟩,
  ⟨{atL0 with loom := {Loom.reset with tally := [(0, {count := 5, sat := false})]}}, by decide +kernel⟩,
  ⟨{atL0 with loom := {Loom.reset with tallyEvs := [(0x40, some 3, 2)]}}, 0x30340, 0x40, (some 3), 2, by decide +kernel⟩,
  ⟨{atL0 with loom := {Loom.reset with tallySel := [(63, {src := 0x40, tenant := 3, filter := true})], tally := [(0, {count := 5, sat := false}), (63, {count := 5, sat := true})]}},
    by decide +kernel⟩,
  ⟨{running with loom := {running.loom with tallySel := [(63, {src := 0x40, tenant := 0, filter := false})]}}, 63, 0x40,
    by decide +kernel⟩⟩

theorem witness_Admission :
    (∃ (s : State) (k : BitVec 2) (n : Nat), Live s ∧ nextRing s = some n ∧ 0 < fetchCount s n k.toNat)
    ∧ (∃ (s : State) (f : Fetched) (rest : List Fetched), Fronts s f rest ∧ takesRun f = true ∧ runRefusal s (f.ring / 4) f.bytes = none ∧
      entDeadline f.bytes = none ∧ s.loom.tallySel = [])
    ∧ (∃ (s : State) (f : Fetched) (rest : List Fetched) (q : Nat), Fronts s f rest ∧ f.ring % 4 = 0 ∧ f.esc = false ∧ entOp f.bytes = 2 ∧
      seqRefusal s (f.ring / 4) f.bytes = none ∧ kfGood (descKf (BitVec.ofNat 41 (leAt f.bytes 32 8))) = true ∧ 2 * descSinks
      (BitVec.ofNat 41 (leAt f.bytes 32 8)) ≤ descW (BitVec.ofNat 41 (leAt f.bytes 32 8)) ∧ freeSeqId s = some q ∧ reelsNeeded
      (BitVec.ofNat 41 (leAt f.bytes 32 8)) ≤ (openReels s).length ∧ s.loom.tallySel = [] ∧ (ringOf s (f.ring + 1)).en = false)
    ∧ (∃ (s : State) (f : Fetched) (rest : List Fetched), Fronts s f rest ∧ f.ring % 4 = 0 ∧ f.esc = false ∧ entOp f.bytes = 3 ∧ seqRefusal
      s (f.ring / 4) f.bytes = none ∧ badBind s (f.ring / 4) (leAt f.bytes 32 1) = false ∧ s.loom.jobs = [])
    ∧ (∃ (s : State) (f : Fetched) (rest : List Fetched), Fronts s f rest ∧ f.ring % 4 = 0 ∧ f.ring < 1024 ∧ f.esc = false ∧ entOp f.bytes
      = 0 ∧ entRes f.bytes = false ∧ (tenantOf s (f.ring / 4)).blocked = false ∧ (ringOf s (f.ring + 1)).en = true ∧ (ringOf s (f.ring +
      1)).notify = false ∧ WeftIdle s (f.ring / 4 % 2) ∧ s.loom.tallySel = [])
    ∧ (∃ (s : State) (f : Fetched) (rest : List Fetched), Fronts s f rest ∧ takesRun f = true ∧ f.esc = false ∧ (tenantOf s (f.ring /
      4)).blocked = true ∧ (ringOf s (f.ring + 1)).en = false ∧ s.loom.tallySel = [])
    ∧ (∃ (s : State) (j : Job), Reached s ∧ s.loom.jobs = [j] ∧ (j.ended.isSome = true ∨ movesDone j = true) ∧ j.recordAt ≤ s.clocks.lc ∧
      s.loom.bobbin.out = [] ∧ j.tenant < 256 ∧ (ringOf s (4 * j.tenant + 1)).en = true ∧ (ringOf s (4 * j.tenant + 1)).notify = false ∧
      WeftIdle s (j.tenant % 2) ∧ s.loom.tallySel = [] ∧ s.loom.seqs = []) :=
  ⟨⟨{linked running with loom := {running.loom with rings := [(12, {Ring.init with en := true, tail := 2}), (13, {Ring.init with en := true})]}},
    3, 12, by decide +kernel⟩,
  ⟨(answering (fetched1 12 (row64 [(0, 1), (2, 5), (4, 2)]))), (fetched1 12 (row64 [(0, 1), (2, 5), (4, 2)])), [], by decide +kernel⟩,
  ⟨(answering (fetched1 12 (row64 [(0, 2), (35, 8)]))), (fetched1 12 (row64 [(0, 2), (35, 8)])), [], 0, by decide +kernel⟩,
  ⟨{answering (fetched1 12 (row64 [(0, 3), (32, 7)])) with loom := {(answering (fetched1 12 (row64 [(0, 3), (32, 7)]))).loom with seqs := [(7, seq7)]}},
    (fetched1 12 (row64 [(0, 3), (32, 7)])), [], by decide +kernel⟩,
  ⟨(withRecords (answering (fetched1 12 (row64 [])))), (fetched1 12 (row64 [])), [], by decide +kernel⟩,
  ⟨{answering (fetched1 12 (row64 [(0, 1)])) with loom := {(answering (fetched1 12 (row64 [(0, 1)]))).loom with tenants := [(3, {Tenant.init with blocked := true})]}},
    (fetched1 12 (row64 [(0, 1)])), [], by decide +kernel⟩,
  ⟨{withRecords (linked running) with loom := {(withRecords running).loom with jobs := [{job0 with ended := some 0, recordAt := 20}]}},
    {job0 with ended := some 0, recordAt := 20}, by decide +kernel⟩⟩

theorem witness_BlockCodingRoundTrip :
    (∃ (b : List Byte), b.length = 4096) :=
  ⟨(List.replicate 4096 1), by decide +kernel⟩

theorem witness_Checkpoints :
    (∃ (s : State) (f : Fetched) (rest : List Fetched), Fronts s f rest ∧ f.ring % 4 = 3 ∧ entOp f.bytes = 1 ∧ (tenantOf s (f.ring /
      4)).blocked = false ∧ badCkpt s (f.ring / 4) f.bytes { parseCkpt f.bytes with nblk := blockCount s (parseCkpt f.bytes) } = false ∧
      ckptEntries s (f.ring / 4) (parseCkpt f.bytes).banks ≠ [] ∧ entDeadline f.bytes = none ∧ s.loom.tallySel = [] ∧ (∀ j ∈ s.loom.jobs,
      j.order ≠ f.order))
    ∧ (∃ (s : State) (f : Fetched) (rest : List Fetched), Fronts s f rest ∧ f.ring % 4 = 3 ∧ entOp f.bytes = 2 ∧ (tenantOf s (f.ring /
      4)).blocked = false ∧ badCkpt s (f.ring / 4) f.bytes { parseCkpt f.bytes with nblk := blockCount s (parseCkpt f.bytes) } = false ∧
      ckptEntries s (f.ring / 4) (parseCkpt f.bytes).banks ≠ [] ∧ entDeadline f.bytes = none ∧ s.loom.tallySel = [])
    ∧ (∃ (s : State) (f : Fetched) (rest : List Fetched), Fronts s f rest ∧ f.ring % 4 = 3 ∧ entOp f.bytes = 0 ∧ ckptRes f.bytes = false ∧
      (tenantOf s (f.ring / 4)).blocked = false ∧ (ringOf s (4 * (f.ring / 4) + 1)).en = true ∧ (ringOf s (4 * (f.ring / 4) + 1)).notify
      = false ∧ WeftIdle s (f.ring / 4 % 2) ∧ s.loom.tallySel = [])
    ∧ (∃ (s : State) (j : Job) (c : Ckpt) (tile : Nat) (bank : Nat) (group : Nat), Live s ∧ mesochronousRuns s = true ∧ s.loom.jobs = [j] ∧
      j.ended = none ∧ j.kind = .save ∧ j.ckpt = some c ∧ s.clocks.lc ∈ c.moves ∧ blockAt s c (c.moved / 64) = .bank tile bank group ∧
      c.moved % 64 ≠ 63 ∧ entryBreach s tile bank j.tenant = none ∧ s.loom.bankUp = [] ∧ s.loom.tallySel = [])
    ∧ (∃ (s : State) (j : Job) (c : Ckpt) (tile : Nat) (bank : Nat) (group : Nat), Live s ∧ mesochronousRuns s = true ∧ s.loom.jobs = [j] ∧
      j.ended = none ∧ j.kind = .restore ∧ j.ckpt = some c ∧ s.clocks.lc ∈ c.moves ∧ c.checked = true ∧ blockAt s c (c.moved / 64) =
      .bank tile bank group ∧ c.moved % 64 ≠ 0 ∧ entryBreach s tile bank j.tenant = none)
    ∧ (∃ (s : State) (j : Job) (c : Ckpt) (tile : Nat) (bank : Nat) (group : Nat), Live s ∧ mesochronousRuns s = true ∧ s.loom.jobs = [j] ∧
      j.ended = none ∧ j.kind = .restore ∧ j.ckpt = some c ∧ s.clocks.lc ∈ c.moves ∧ c.checked = true ∧ blockAt s c (c.moved / 64) =
      .bank tile bank group ∧ c.moved % 64 = 0 ∧ c.nblk = c.moved / 64 + 1 ∧ startBlock c = some none)
    ∧ (∃ (s : State) (j : Job) (c : Ckpt) (tile : Nat) (bank : Nat) (group : Nat) (kind : Nat), Live s ∧ mesochronousRuns s = true ∧
      s.loom.jobs = [j] ∧ j.ended = none ∧ j.kind = .restore ∧ j.ckpt = some c ∧ s.clocks.lc ∈ c.moves ∧ c.checked = true ∧ blockAt s c
      (c.moved / 64) = .bank tile bank group ∧ c.moved % 64 ≠ 0 ∧ entryBreach s tile bank j.tenant = some kind)
    ∧ (∃ (s : State) (w : OutWrite) (j : Job) (c : Ckpt), Reached s ∧ s.loom.bobbin.out = [w] ∧ s.loom.jobs = [j] ∧ j.order = w.job ∧
      j.ended = none ∧ j.ckpt = some c ∧ c.zeroed = true ∧ (movesDone j = false ∨ writeChunk w < w.data.length) ∧ WeftIdle s (w.tenant %
      2) ∧ s.loom.tallySel = [])
    ∧ (∃ (s : State) (w : OutWrite) (j : Job), Reached s ∧ s.loom.bobbin.out = [w] ∧ s.loom.jobs = [j] ∧ j.order = w.job ∧ j.ended = none ∧
      movesDone j = true ∧ w.data.length ≤ writeChunk w ∧ WeftIdle s (w.tenant % 2) ∧ s.loom.tallySel = [])
    ∧ (∃ (s : State) (w : OutWrite) (j : Job), Reached s ∧ s.loom.bobbin.out = [w] ∧ jobOf s w.job = some j ∧ j.ended = none ∧ (∀ m < 2,
      (weftOf s m).trained = false))
    ∧ (∃ (s : State) (j : Job) (c : Ckpt) (code : Byte) (reason : Byte), Live s ∧ s.loom.jobs = [j] ∧ j.ended = none ∧ j.kind = .restore ∧
      j.ckpt = some c ∧ c.checked = false ∧ payloadAt c.nblk ≤ c.headIn.length ∧ checkImage s c = some (code, reason))
    ∧ (∃ (s : State) (j : Job) (c : Ckpt), Live s ∧ s.loom.jobs = [j] ∧ j.ended = none ∧ j.kind = .restore ∧ j.ckpt = some c ∧ c.checked =
      false ∧ payloadAt c.nblk ≤ c.headIn.length ∧ checkImage s c = none)
    ∧ (∃ (s : State), HostHeard s)
    ∧ (∃ (s : State), HostHeard s) :=
  ⟨⟨(answering (fetched1 15 saveEntry)), (fetched1 15 saveEntry), [], by decide +kernel⟩,
  ⟨(answering (fetched1 15 restoreEntry)), (fetched1 15 restoreEntry), [], by decide +kernel⟩,
  ⟨(withRecords (answering (fetched1 15 (row64 [])))), (fetched1 15 (row64 [])), [], by decide +kernel⟩,
  ⟨(moving .save ckpt1), (ckptJob .save ckpt1), ckpt1, 0, 0, 0, by decide +kernel⟩,
  ⟨(moving .restore {ckpt1 with checked := true, moved := 63, decoded := List.replicate 64 3}), (ckptJob .restore
    {ckpt1 with checked := true, moved := 63, decoded := List.replicate 64 3}),
    {ckpt1 with checked := true, moved := 63, decoded := List.replicate 64 3}, 0, 0, 0, by decide +kernel⟩,
  ⟨(moving .restore {ckpt1 with checked := true}), (ckptJob .restore {ckpt1 with checked := true}), {ckpt1 with checked := true}, 0, 0,
    0, by decide +kernel⟩,
  ⟨{moving .restore {ckpt1 with checked := true, moved := 63, decoded := List.replicate 64 3} with loom := {(moving .restore {ckpt1 with checked := true, moved := 63, decoded := List.replicate 64 3}).loom with parts := []}},
    (ckptJob .restore {ckpt1 with checked := true, moved := 63, decoded := List.replicate 64 3}),
    {ckpt1 with checked := true, moved := 63, decoded := List.replicate 64 3}, 0, 0, 0, 2, by decide +kernel⟩,
  ⟨{moving .save {ckpt1 with zeroed := true} with loom := {(moving .save {ckpt1 with zeroed := true}).loom with bobbin := {Bobbin.reset with out := [{job := 9, tenant := 3, addr := 0x4FC0, data := List.replicate 256 5, payload := true}]}}},
    {job := 9, tenant := 3, addr := 0x4FC0, data := List.replicate 256 5, payload := true}, (ckptJob .save {ckpt1 with zeroed := true}),
    {ckpt1 with zeroed := true}, by decide +kernel⟩,
  ⟨{moving .save {ckpt1 with moved := 64} with loom := {(moving .save {ckpt1 with moved := 64}).loom with bobbin := {Bobbin.reset with out := [{job := 9, tenant := 3, addr := 0x4000, data := List.replicate 64 5, payload := false}]}}},
    {job := 9, tenant := 3, addr := 0x4000, data := List.replicate 64 5, payload := false}, (ckptJob .save {ckpt1 with moved := 64}),
    by decide +kernel⟩,
  ⟨{moving .save ckpt1 with weft := [], loom := {(moving .save ckpt1).loom with bobbin := {Bobbin.reset with out := [{job := 9, tenant := 3, addr := 0x4000, data := List.replicate 64 5, payload := false}]}}},
    {job := 9, tenant := 3, addr := 0x4000, data := List.replicate 64 5, payload := false}, (ckptJob .save ckpt1), by decide +kernel⟩,
  ⟨(moving .restore {ckpt1 with headIn := List.replicate 192 0}), (ckptJob .restore {ckpt1 with headIn := List.replicate 192 0}),
    {ckpt1 with headIn := List.replicate 192 0}, 0x21, 1, by decide +kernel⟩,
  ⟨(moving .restore {ckpt1 with headIn := slice (ckptHeader running {ckpt1 with index := List.replicate 8 0}) 0 192}), (ckptJob .restore
    {ckpt1 with headIn := slice (ckptHeader running {ckpt1 with index := List.replicate 8 0}) 0 192}),
    {ckpt1 with headIn := slice (ckptHeader running {ckpt1 with index := List.replicate 8 0}) 0 192}, by decide +kernel⟩,
  ⟨atL0, by decide +kernel⟩,
  ⟨(moving .save ckpt1), by decide +kernel⟩⟩

theorem witness_WarpTraining :
    (∃ (s : State), HostHeard s)
    ∧ (∃ (s : State), HostHeard s)
    ∧ (∃ (s : State) (m : BitVec 2), Live s ∧ isPowered s (2 + m.toNat) = true ∧ (warpOf s m.toNat).train = true ∧ (warpOf s
      m.toNat).locked = false ∧ (warpOf s m.toNat).phase = 1)
    ∧ (∃ (s : State) (m : BitVec 2), Live s ∧ isPowered s (2 + m.toNat) = true ∧ (warpOf s m.toNat).train = true ∧ (warpOf s
      m.toNat).locked = false ∧ (warpOf s m.toNat).phase = 1)
    ∧ (∃ (s : State) (m : BitVec 2) (o : WarpOutcome), Live s ∧ isPowered s (2 + m.toNat) = true ∧ (warpOf s m.toNat).train = true ∧
      (warpOf s m.toNat).locked = false ∧ (warpOf s m.toNat).phase = 2 ∧ o.completed = true)
    ∧ (∃ (s : State) (m : BitVec 2) (o : WarpOutcome), Live s ∧ isPowered s (2 + m.toNat) = true ∧ (warpOf s m.toNat).train = true ∧
      (warpOf s m.toNat).locked = false ∧ (warpOf s m.toNat).phase = 2 ∧ o.completed = true)
    ∧ (∃ (s : State) (m : BitVec 2) (o : WarpOutcome), Live s ∧ isPowered s (2 + m.toNat) = true ∧ (warpOf s m.toNat).train = true ∧
      (warpOf s m.toNat).locked = false ∧ (warpOf s m.toNat).phase = 2 ∧ o.completed = true)
    ∧ (∃ (s : State) (m : BitVec 2) (o : WarpOutcome), Live s ∧ isPowered s (2 + m.toNat) = true ∧ (warpOf s m.toNat).train = true ∧
      (warpOf s m.toNat).locked = false ∧ (warpOf s m.toNat).phase = 3 ∧ o.completed = true ∧ mesochronousRuns s = true)
    ∧ (∃ (s : State) (m : BitVec 2) (o : WarpOutcome), Live s ∧ isPowered s (2 + m.toNat) = true ∧ (warpOf s m.toNat).train = true ∧
      (warpOf s m.toNat).locked = false ∧ (warpOf s m.toNat).phase = 3 ∧ o.completed = true ∧ mesochronousRuns s = true)
    ∧ (∃ (s : State) (m : BitVec 2) (o : WarpOutcome), Live s ∧ isPowered s (2 + m.toNat) = true ∧ (warpOf s m.toNat).train = true ∧
      (warpOf s m.toNat).locked = false ∧ (warpOf s m.toNat).phase = 3 ∧ o.completed = true ∧ mesochronousRuns s = true)
    ∧ (∃ (s : State) (m : BitVec 2) (o : WarpOutcome), Live s ∧ isPowered s (2 + m.toNat) = true ∧ (warpOf s m.toNat).train = true ∧
      (warpOf s m.toNat).locked = false ∧ (warpOf s m.toNat).phase = 3 ∧ o.completed = true ∧ mesochronousRuns s = true)
    ∧ (∃ (s : State) (m : BitVec 2), Live s ∧ isPowered s (2 + m.toNat) = true ∧ (warpOf s m.toNat).train = true ∧ (warpOf s
      m.toNat).locked = false ∧ (warpOf s m.toNat).phase = 4 ∧ s.loom.drafts = [] ∧ s.loom.tallySel = [])
    ∧ (∃ (s : State) (m : BitVec 2), Live s ∧ isPowered s (2 + m.toNat) = true ∧ (warpOf s m.toNat).train = true ∧ (warpOf s
      m.toNat).locked = false ∧ (warpOf s m.toNat).phase = 0 ∧ (warpOf s m.toNat).fail ∈ [1, 5, 6])
    ∧ (∃ (s : State) (m : BitVec 2) (c : WarpRetrainCause), Live s ∧ isPowered s (2 + m.toNat) = true ∧ (warpOf s m.toNat).locked = true ∧
      ((c = .crcRun ∧ 16 ≤ (warpOf s m.toNat).crcRun) ∨ c = .linkLoss ∨ (c = .emptySlots ∧ (warpOf s m.toNat).heard + 64 * issueInterval
      s m.toNat + (warpOf s m.toNat).lat.toNat ≤ s.clocks.lc)) ∧ s.loom.weave.slots = [] ∧ s.loom.drafts = [])
    ∧ (∃ (s : State) (m : BitVec 2) (c : WarpRetrainCause), Live s ∧ isPowered s (2 + m.toNat) = true ∧ (warpOf s m.toNat).locked = true ∧
      ((c = .crcRun ∧ 16 ≤ (warpOf s m.toNat).crcRun) ∨ c = .linkLoss ∨ (c = .emptySlots ∧ (warpOf s m.toNat).heard + 64 * issueInterval
      s m.toNat + (warpOf s m.toNat).lat.toNat ≤ s.clocks.lc)) ∧ s.loom.weave.slots = [] ∧ s.loom.drafts = [])
    ∧ (∃ (s : State) (m : BitVec 2) (c : WarpRetrainCause), Live s ∧ ((c = .crcRun ∧ (warpOf s m.toNat).crcRun < 16) ∨ (c = .emptySlots ∧
      s.clocks.lc < (warpOf s m.toNat).heard + 64 * issueInterval s m.toNat + (warpOf s m.toNat).lat.toNat))) :=
  ⟨⟨(warpWorld WarpModule.init), by decide +kernel⟩,
  ⟨(warpWorld lockedWarp), by decide +kernel⟩,
  ⟨(warpWorld {WarpModule.init with train := true, phase := 1}), 0, by decide +kernel⟩,
  ⟨(warpWorld {WarpModule.init with train := true, phase := 1}), 0, by decide +kernel⟩,
  ⟨(warpWorld {WarpModule.init with train := true, phase := 2}), 0, outcome, by decide +kernel⟩,
  ⟨(warpWorld {WarpModule.init with train := true, phase := 2}), 0, {outcome with ident := 0}, by decide +kernel⟩,
  ⟨(warpWorld {WarpModule.init with train := true, phase := 2}), 0, {outcome with partnerPos := 4}, by decide +kernel⟩,
  ⟨(warpWorld {WarpModule.init with train := true, phase := 3}), 0, outcome, by decide +kernel⟩,
  ⟨(warpWorld {WarpModule.init with train := true, phase := 3}), 0, {outcome with rtMax := 1018, rtMin := 1013}, by decide +kernel⟩,
  ⟨(warpWorld {WarpModule.init with train := true, phase := 3}), 0, {outcome with rtMax := 1019}, by decide +kernel⟩,
  ⟨(warpWorld {WarpModule.init with train := true, phase := 3}), 0, {outcome with rtMax := 8, rtMin := 6}, by decide +kernel⟩,
  ⟨(warpWorld {WarpModule.init with train := true, phase := 4, lat := 9}), 0, by decide +kernel⟩,
  ⟨(warpWorld {WarpModule.init with train := true, fail := 6}), 0, by decide +kernel⟩,
  ⟨(warpWorld {lockedWarp with crcRun := 16}), 0, .crcRun, by decide +kernel⟩,
  ⟨{warpWorld {lockedWarp with heard := 0} with clocks := {Clocks.reset with lc := 5000}}, 0, .emptySlots, by decide +kernel⟩,
  ⟨(warpWorld lockedWarp), 0, .emptySlots, by decide +kernel⟩⟩

theorem witness_WarpFrames :
    (∃ (s : State) (m : BitVec 2), Live s ∧ (warpOf s m.toNat).locked = true ∧ isFrameSlot s m.toNat = true ∧ s.loom.linkUse.contains
      (warpKey m.toNat, s.clocks.lc) = false)
    ∧ (∃ (s : State) (m : BitVec 2) (f : WireFrame), Live s ∧ (warpOf s m.toNat).locked = true ∧ orderingRuns s.pwr = true ∧
      s.loom.clock.relocking = false ∧ deliveryLc (warpOf s m.toNat) (min f.slot s.clocks.lc) ≤ s.clocks.lc ∧ frameIntact f.bytes = false
      ∧ warpOwner s m.toNat s.clocks.lc = none ∧ s.loom.tallySel = [])
    ∧ (∃ (s : State) (m : BitVec 2) (f : WireFrame) (d : Nat), Live s ∧ (warpOf s m.toNat).locked = true ∧ orderingRuns s.pwr = true ∧
      s.loom.clock.relocking = false ∧ deliveryLc (warpOf s m.toNat) (min f.slot s.clocks.lc) ≤ s.clocks.lc ∧ frameIntact f.bytes = true
      ∧ leAt f.bytes 0 1 % 32 = 1 ∧ bitOf (leAt f.bytes 0 1) 5 = s.loom.chain.locked ∧ warpOwner s m.toNat s.clocks.lc = some d ∧
      takesPart s (warpTile m.toNat) = true ∧ (tileOf s (warpTile m.toNat)).recv = [])
    ∧ (∃ (s : State) (m : BitVec 2) (f : WireFrame), Live s ∧ (warpOf s m.toNat).locked = true ∧ orderingRuns s.pwr = true ∧
      s.loom.clock.relocking = false ∧ deliveryLc (warpOf s m.toNat) (min f.slot s.clocks.lc) ≤ s.clocks.lc ∧ frameIntact f.bytes = true
      ∧ leAt f.bytes 0 1 = 0x30 ∧ m.toNat < 2 ∧ goodPartner s m.toNat (BitVec.ofNat 3 (leAt f.bytes 1 1)) = true ∧ s.loom.chain.sdelay ≠
      0 ∧ mesochronousRuns s = true ∧ s.loom.weave.slots = [])
    ∧ (∃ (s : State) (m : BitVec 2) (f : WireFrame), Live s ∧ orderingRuns s.pwr = true ∧ s.loom.clock.relocking = false ∧ s.clocks.lc <
      deliveryLc (warpOf s m.toNat) (min f.slot s.clocks.lc))
    ∧ (∃ (s : State) (m : BitVec 2) (f : WireFrame) (d : Nat), Live s ∧ (warpOf s m.toNat).locked = false ∧ orderingRuns s.pwr = true ∧
      s.loom.clock.relocking = false ∧ frameIntact f.bytes = false ∧ warpOwner s m.toNat s.clocks.lc = some d ∧ s.loom.tallySel = [] ∧
      takesPart s (warpTile m.toNat) = true ∧ (tileOf s (warpTile m.toNat)).recv = []) :=
  ⟨⟨(warpWorld lockedWarp), 0, by decide +kernel⟩,
  ⟨{warpWorld lockedWarp with clocks := {Clocks.reset with lc := 9}}, 0, {slot := 0, bytes := List.replicate 80 1}, by decide +kernel⟩,
  ⟨{running with warp := [(0, lockedWarp)], loom := {running.loom with parts := [(3, {Part.init with en := true, warp := 1})], drafts := [(5, {drf with resident := some {ver with warp := true, warpMask := 1}})], tiles := [(112, {Tile.init with run := .issuing, slot := some 1})]}},
    0, {slot := 11, bytes := goodFrame ([1, 2] ++ List.replicate 10 0 ++ [7,8])}, 5, by decide +kernel⟩,
  ⟨{warpWorld lockedWarp with clocks := {Clocks.reset with lc := 9}, loom := {Loom.reset with chain := {Chain.reset with sdelay := 100}}},
    0, {slot := 0, bytes := goodFrame [0x30, 2, 0, 0, 4, 3, 2, 1, 9]}, by decide +kernel⟩,
  ⟨{warpWorld {lockedWarp with partnerLocked := true, rate := 1} with loom := {Loom.reset with chain := {Chain.reset with locked := true}}},
    0, {slot := 0, bytes := [1,2,3]}, by decide +kernel⟩,
  ⟨{running with warp := [(0, WarpModule.init)], loom := {running.loom with parts := [(3, {Part.init with en := true, warp := 1})], drafts := [(5, {drf with resident := some {ver with warp := true, warpMask := 1}})], tiles := [(112, {Tile.init with run := .issuing, slot := some 1})]}},
    0, {slot := 9, bytes := [1,2,3]}, 5, by decide +kernel⟩⟩
theorem witness_empty_queue : ∃ s : State, s.pending = [] := ⟨State.reset, by decide +kernel⟩

/-- A module that is powered and untrained. -/
def untrained : State := { atL0 with pwr := { atL0.pwr with powered := 1 } }

theorem witness_QueueLeftAlone : ∃ (c : Instr) (s t : State), exec c s = .next t :=
  ⟨.weftTrained 0 1 false 2 2, untrained, _, next_of_fin (trainWeft 0 1 false 2 2 untrained) rfl (by decide +kernel)⟩

theorem witness_RisingReadyBitsAreSeen : ∃ (c : Instr) (s t : State), Live s ∧ c ≠ .por ∧ exec c s = .next t ∧
    (ready t).getLsbD 13 = true ∧ (ready s).getLsbD 13 = false :=
  ⟨.weftTrained 0 1 false 2 2, untrained, _, by decide +kernel, by decide, next_of_fin (trainWeft 0 1 false 2 2 untrained) rfl (by decide +kernel),
    by decide +kernel,
    by decide +kernel⟩

/-- Tile 0 about to write a lane row to its bank 0. -/
def writing : State := bundled (spell [(352, 3), (368, 2)]) (onTile0 (fun y => { y with vecRow := [9] }))

theorem witness_MemoriesStayCanonical : ∃ s t : State, memOk s = true ∧ step s = .next t ∧ s.loom.banks ≠ t.loom.banks :=
  ⟨{ writing with pending := [.bankWrite 0 3] }, _, by decide +kernel,
    next_of_fin (c := .bankWrite 0 3) (s := writing) (bankWriteEffect 0 3 writing) rfl (by decide +kernel), by decide +kernel⟩

theorem witness_PowerOnReset :
    (∃ s : State, s.mon.por = true)
    ∧ (∃ (c : Instr) (s : State), s.mon.por = true ∧ c ≠ .por ∧ (∀ r st, c ≠ .porRelease r st)) :=
  ⟨⟨{ State.reset with mon := { State.reset.mon with por := true } }, by decide +kernel⟩,
    ⟨.weaveSwap, { State.reset with mon := { State.reset.mon with por := true } }, by decide +kernel, by decide, fun _ _ h => nomatch h⟩⟩

/-- An upward cut by MAXPH, a downward one, a level between q_up and q_dn, and a hop that rebases. -/
theorem witness_EncoderSpikes :
    encoderHop { armed := true, qPrev := 0 } true 200 10 20 5 3 true false = ({ armed := true, qPrev := 3 }, 3, 0)
    ∧ encoderHop { armed := true, qPrev := 9 } true 40 10 20 5 3 true false = ({ armed := true, qPrev := 6 }, 0, 3)
    ∧ encoderHop { armed := true, qPrev := 4 } true 44 10 20 5 3 true false = ({ armed := true, qPrev := 4 }, 0, 0)
    ∧ encoderHop { armed := false, qPrev := 4 } true 40 10 20 5 3 true false = ({ armed := true, qPrev := 3 }, 0, 0)
    ∧ (encoderHop { armed := true, qPrev := 4 } false 40 10 20 5 3 true false).1.armed = false := by decide +kernel

theorem witness_BaselineAdapts :
    (∃ (b : BitVec 24) (c : Nat), c < 256 ∧ b.toNat < c * 65536) ∧ (∃ (b : BitVec 24) (c : Nat), c < 256 ∧ c * 65536 ≤ b.toNat) :=
  ⟨⟨0, 255, by decide⟩, ⟨0xFFFFFF, 255, by decide⟩⟩

/-- Network memory whose parameter set 0 of core 0 has threshold 100. -/
def threshold100 : WatchCores := { WatchCores.reset with net := [(144, 100)] }

theorem witness_NeuronRule :
    0 < 0x100000 / 2 ^ 20 % 16 ∧ (neuronStep threshold100 0 0 100).2 = true ∧ (neuronStep threshold100 0 0 99).2 = false := by
  decide +kernel

/-- The state after OPEN of two images. -/
def opened (a b : List Byte) : State := after (.openGranary { bankA := [], bankB := [], factory := [], weak := [] } 0) (imaged a b)

theorem witness_NewerImageWins_cases :
    PortQuiet (imaged (tinyImage 1) (tinyImage 2)) ∧ (opened (tinyImage 1) (tinyImage 2)).gran.st = .openB
    ∧ (opened (tinyImage 2) (tinyImage 1)).gran.st = .openA ∧ (opened (tinyImage 0) (tinyImage 0x80000000)).gran.st = .openA
    ∧ (opened (tinyImage 0xFFFFFFFF) (tinyImage 3)).gran.st = .openB ∧ (opened (tinyImage 5) []).gran.st = .openA
    ∧ (opened [] (tinyImage 5)).gran.st = .openB ∧ (opened [] []).gran.st = .empty := by decide +kernel

/-- Codes 0 and 1 of one bit, and 127 and -128 of eight, each at the widest shift. -/
theorem witness_SynapseWeights_cases :
    (weightOf (packed [(1, 0xFFFFFFFE)]) 0 0 0xE0000000 0, weightOf (packed [(1, 0xFFFFFFFE)]) 0 0 0xE0000000 1) = (-128, 128)
    ∧ (weightOf (packed [(1, 0x80FF807F)]) 0 0 0xE00001C0 0, weightOf (packed [(1, 0x80FF807F)]) 0 0 0xE00001C0 1) = (16256, -16384) := by
  decide +kernel

end Sys2Proof.Tests
end

