-- ==== Sys2Proof/Proofs/PowerOnReset.lean ====
section
/-!
PROOF. Power-on reset: what POR leaves of the state, what its release does, and that nothing else acts while it holds (R46, R145, R157).
-/

namespace Sys2Proof.Machine

/-! ## The shape of every other command -/

/-- Only POR and its release are not guarded by `fin`. -/
theorem exec_eq_fin {c : Instr} (s : State) (hpor : c ≠ .por) (hrelease : ∀ rails straps, c ≠ .porRelease rails straps) :
    ∃ e, exec c s = fin s e := by
  cases c with
  | por => exact absurd rfl hpor
  | porRelease rails straps => exact absurd rfl (hrelease rails straps)
  | _ => exact ⟨_, rfl⟩

/-- POR holds the device: no command but POR and its release acts (R46). -/
theorem exec_held {c : Instr} {s : State} (h : s.mon.por = true) (hpor : c ≠ .por)
    (hrelease : ∀ rails straps, c ≠ .porRelease rails straps) : exec c s = .next s := by
  obtain ⟨e, he⟩ := exec_eq_fin s hpor hrelease
  exact he.trans (fin_por e h)

/-! ## POR and its release -/

theorem exec_por (s : State) : exec .por s = .next (porHold s) := rfl

theorem exec_porRelease (rails : Rails) (straps : BitVec 3) (s : State) :
    exec (.porRelease rails straps) s = .next (porFree rails straps s) := rfl

theorem porFree_held {s : State} (rails : Rails) (straps : BitVec 3) (h : s.mon.por = true) :
    porFree rails straps s = { s with mon := { s.mon with por := false, rails := rails, straps := straps } } := if_pos h

section porHold
variable (s : State)

@[simp] theorem porHold_pending : (porHold s).pending = s.pending := rfl
@[simp] theorem porHold_free : (porHold s).free = s.free := rfl
@[simp] theorem porHold_clocks : (porHold s).clocks = s.clocks := rfl
@[simp] theorem porHold_alert : (porHold s).alert = 0 := rfl
@[simp] theorem porHold_seen : (porHold s).seen = 1 := rfl
@[simp] theorem porHold_port : (porHold s).port = { GatePort.reset with dieLo := s.port.dieLo, dieHi := s.port.dieHi } := rfl
@[simp] theorem porHold_keys : (porHold s).keys = .reset := rfl
@[simp] theorem porHold_gran : (porHold s).gran = { Granary.reset with
    bankA := s.gran.bankA, bankB := s.gran.bankB, upA := s.gran.upA, upB := s.gran.upB
    factory := s.gran.factory, upF := s.gran.upF } := rfl
@[simp] theorem porHold_mon :
    (porHold s).mon = { Monitors.reset with por := true, rails := s.mon.rails, straps := s.mon.straps } := rfl
@[simp] theorem porHold_pwr : (porHold s).pwr = .reset := rfl
@[simp] theorem porHold_weft : (porHold s).weft = [] := rfl
@[simp] theorem porHold_warp : (porHold s).warp = [] := rfl
@[simp] theorem porHold_jtag : (porHold s).jtag = .reset := rfl
@[simp] theorem porHold_wflight : (porHold s).wflight = [] := rfl
@[simp] theorem porHold_fe : (porHold s).fe = .reset := rfl
@[simp] theorem porHold_wc : (porHold s).wc = .reset := rfl
@[simp] theorem porHold_bell : (porHold s).bell = .reset := rfl
@[simp] theorem porHold_loft : (porHold s).loft = .reset := rfl
@[simp] theorem porHold_esc : (porHold s).esc = .reset := rfl
@[simp] theorem porHold_wtally : (porHold s).wtally = .reset := rfl
@[simp] theorem porHold_loom : (porHold s).loom = .reset := rfl

end porHold

/-- The granary is closed in its reset state, so POR leaves it closed over the banks it keeps (R14, R145). -/
@[simp] theorem granary_reset_st : Granary.reset.st = .closed := rfl

/-- Settles O8: POR's state field by field, its release where POR holds, and `fin`'s guard for every other command. -/
theorem powerOnReset : Obligations.PowerOnReset := by
  unfold Obligations.PowerOnReset
  refine ⟨fun s => ⟨porHold s, exec_por s, ?_⟩, ?_, ?_⟩
  · simp
  · intro s rails straps h
    rw [exec_porRelease, porFree_held rails straps h]
  · intro c s h hpor hrelease
    exact exec_held h hpor hrelease

end Sys2Proof.Machine
end

