-- ==== Sys2Proof/Proofs/Overview.lean ====
section
/-!
PROOF. What the overview promises of the gate port and of the loom's power states: a sealed frame before OPEN is refused (R21), and a
request for a loom state is taken (R18, R43, R44, R83, R158, R168).
-/

namespace Sys2Proof.Machine

/-! ## Commands whose effect a boundary guards -/

/-- A gate frame reaches the gatehouse while no test instruction holds the pins (R57). -/
theorem fromGate_hears {s : State} (f : State → State) (h : pinsTested s = false) : fromGate f s = f s :=
  if_neg (by simp [h])

/-- A host's posted write is taken where the loom answers and no drain runs (R159). -/
theorem hostPosts_heard {s : State} (owner : Option Nat) (f : State → State) (h : HostHeard s) : hostPosts owner f s = f s := by
  obtain ⟨⟨_, hreach⟩, hdrain⟩ := h
  unfold hostPosts
  simp [hdrain, hreach]

/-! ## Refused sealed frames (R97) -/

/-- VDD_NV is noted in the monitors alone, and the port does not enter into it. -/
theorem noteNv_onPort (f : SealFrame) (mon : ProgMon) (last : Nat) (g : GatePort → GatePort) (s : State) :
    noteNv f mon last (onPort g s) = { s with port := g s.port, mon := (noteNv f mon last s).mon } := by
  unfold noteNv
  split <;> rfl

/-- A code that neither accepts a frame nor raises RESERVE_LOW. -/
abbrev PlainRefusal (code : Byte) : Prop := code ≠ 0x00 ∧ code ≠ 0x07 ∧ code ≠ 0x08

/-- The books of a plain refusal without a slot are LAST_CODE and LAST_OP (R112). -/
theorem sealedBooks_plainRefusal {f : SealFrame} {v : Verdict} {code : Byte} (ctr : Word) (s : State) (hv : v.slot = none)
    (hcode : PlainRefusal code) :
    sealedBooks f v code ctr s = onPort (fun p => { p with lastCode := code, lastOp := sealedOp f }) s := by
  obtain ⟨h0, h7, h8⟩ := hcode
  simp only [sealedBooks, raiseLow, hv, decide_eq_false h0, decide_eq_false h7, decide_eq_false h8, Bool.or_false,
    Bool.false_eq_true, if_false]

/-- A frame refused without a slot, for another reason than a bad tag, only sets the port's books; of the monitors a long command
still notes VDD_NV. -/
theorem sealedFrame_refused {s : State} {f : SealFrame} {ctr : Word} {tag : DWord} {code : Byte} (hq : PortQuiet s)
    (hv : verdictOf f ctr tag s = { code := code, slot := none, effect := false }) (hcode : PlainRefusal code) (htag : code ≠ 0x01)
    (mon : ProgMon) (extra : Nat) :
    sealedFrame f ctr tag mon extra s = { s with port := refusedPort s f code extra, mon := (noteNv f mon 8448 s).mon } := by
  obtain ⟨_, _, hshort, _, hunlocked⟩ := id hq
  have hk : (onPort (fun p => { p with shortFlag := true }) s).keys.locked = false := hunlocked
  unfold sealedFrame
  rw [beginFrame_quiet hq, tick_unlocked 8 hk]
  dsimp only
  rw [verdictOf_port, hv]
  dsimp only
  rw [noteVerdict_ok _ htag, noteNv_onPort]
  calc endFrame (sealedBooks f { code := code, slot := none, effect := false } code ctr (setLine (statusLine (sealedClocks f) code extra)
          { s with port := { s.port with shortFlag := true }, mon := (noteNv f mon 8448 s).mon }))
      = { s with port := { refusedPort s f code extra with shortFlag := false }, mon := (noteNv f mon 8448 s).mon } := by
        rw [sealedBooks_plainRefusal ctr _ rfl hcode]; rfl
    _ = _ := by rw [← hshort]; rfl

/-- Before OPEN completes the verdict is NOT_OPEN, whatever the frame carries (R21, R97). -/
theorem verdictOf_closed {s : State} (f : SealFrame) (ctr : Word) (tag : DWord) (h : s.gran.st = .closed) :
    verdictOf f ctr tag s = { code := 0x03, slot := none, effect := false } := if_pos h

theorem sealedFrame_closed {s : State} (f : SealFrame) (ctr : Word) (tag : DWord) (mon : ProgMon) (extra : Nat) (hq : PortQuiet s)
    (h : s.gran.st = .closed) :
    sealedFrame f ctr tag mon extra s = { s with port := refusedPort s f 0x03 extra, mon := (noteNv f mon 8448 s).mon } :=
  sealedFrame_refused hq (verdictOf_closed f ctr tag h) (by decide) (by decide) mon extra

/-- Every command that is a sealed command frame answers NOT_OPEN before OPEN completes. -/
theorem answers_notOpen {c : Instr} {s : State} {code : BitVec 16} {arg ctr : Word} {tag : DWord} {mon : ProgMon} {extra : Nat}
    (hexec : exec c s = fin s (fromGate (sealedFrame (.command code arg) ctr tag mon extra) s)) (hq : PortQuiet s)
    (h : s.gran.st = .closed) :
    Answers c s (fun t => t.port = refusedPort s (.command code arg) 0x03 extra
      ∧ t = { s with port := t.port, mon := t.mon, seen := t.seen }) := by
  obtain ⟨hlive, hpins, _⟩ := id hq
  rw [fromGate_hears _ hpins, sealedFrame_closed _ _ _ _ _ hq h] at hexec
  exact .of_fin hlive hexec ⟨rfl, rfl⟩

/-- Settles O15: the verdict is NOT_OPEN for every frame, and a refused frame has only the port's books. -/
theorem sealedFramesNeedOpen : Obligations.SealedFramesNeedOpen := by
  unfold Obligations.SealedFramesNeedOpen
  refine ⟨?_, ?_, ?_⟩
  · intro s fb d ctr tag extra hq h
    obtain ⟨hlive, hpins, _⟩ := id hq
    have hexec : exec (.sealedWrite fb d ctr tag extra) s =
        fin s (fromGate (sealedFrame (.write fb d) ctr tag noMonitors extra) s) := rfl
    rw [fromGate_hears _ hpins, sealedFrame_closed _ _ _ _ _ hq h, noteNv_short _ _ _ rfl] at hexec
    exact .of_fin hlive hexec rfl
  · intro s k code arg ctr tag extra hq h c hc
    simp only [List.mem_cons, List.not_mem_nil, or_false] at hc
    obtain rfl | rfl | rfl | rfl | rfl := hc <;> exact answers_notOpen rfl hq h
  · intro s arg ctr tag mon extra hq h c hc
    simp only [List.mem_cons, List.not_mem_nil, or_false] at hc
    obtain rfl | rfl := hc <;> exact answers_notOpen rfl hq h

/-! ## G_LOOM_REQ (R83, R158, R168) -/

theorem flagBit_eq (b : Bool) (i : Nat) : flagBit b i = 2 ^ i * b.toNat := by cases b <;> simp [flagBit]

theorem field_eq (v lo len : Nat) : field v lo len = v / 2 ^ lo % 2 ^ len := by rw [field, Nat.shiftRight_eq_div_pow]

/-- Bit `i` is the flag that the quotient by its place value leaves modulo 2. -/
theorem bitOf_eq {v i : Nat} {b : Bool} (h : v / 2 ^ i % 2 = b.toNat) : bitOf v i = b := by
  rw [bitOf, field_eq, pow_one, h]
  cases b <;> rfl

section loomReqData
variable (s : State) (target : BitVec 2) (cut reset : Bool) (treset : Option (BitVec 8))

/-- The fields of G_LOOM_REQ do not overlap, and its word holds them all. -/
theorem toNat_loomReqData : (loomReqData s target cut reset treset).toNat =
    target.toNat + 4 * cut.toNat + 8 * reset.toNat + 256 * (treset.getD s.pwr.reqTenant).toNat + 65536 * treset.isSome.toNat := by
  have htarget := target.isLt
  have htenant := (treset.getD s.pwr.reqTenant).isLt
  have hcut := cut.toNat_lt
  have hreset := reset.toNat_lt
  have hsome := treset.isSome.toNat_lt
  simp only [loomReqData, w32, flagBit_eq, BitVec.toNat_ofNat]
  omega

/-- What G_LOOM_REQ decodes from the word of a request are the request's own fields. -/
theorem loomReqData_fields :
    let n := (loomReqData s target cut reset treset).toNat
    field n 0 2 = target.toNat ∧ bitOf n 2 = cut ∧ bitOf n 3 = reset ∧ field n 8 8 = (treset.getD s.pwr.reqTenant).toNat
      ∧ bitOf n 16 = treset.isSome := by
  have htarget := target.isLt
  have htenant := (treset.getD s.pwr.reqTenant).isLt
  have hcut := cut.toNat_lt
  have hreset := reset.toNat_lt
  have hsome := treset.isSome.toNat_lt
  rw [toNat_loomReqData]
  refine ⟨(field_eq _ _ _).trans ?_, bitOf_eq ?_, bitOf_eq ?_, (field_eq _ _ _).trans ?_, bitOf_eq ?_⟩ <;> omega

end loomReqData

/-- G_LOOM_REQ holds this TARGET and CUT. -/
def loomRequested (target : BitVec 2) (cut : Bool) : State → State := onPwr (fun p => { p with reqTarget := target, reqCut := cut })

@[simp] theorem loomRequested_st (target : BitVec 2) (cut : Bool) (s : State) : (loomRequested target cut s).pwr.st = s.pwr.st := rfl
@[simp] theorem loomRequested_stage (target : BitVec 2) (cut : Bool) (s : State) :
    (loomRequested target cut s).pwr.stage = s.pwr.stage := rfl

/-- A request for a loom state alone sets TARGET and CUT and asks for no reset (R168). -/
theorem writeLoomReq_target (target : BitVec 2) (cut : Bool) (s : State) :
    writeLoomReq (loomReqData s target cut false none) s =
      gateTarget (loomStateOf target.toNat) (loomRequested target cut s) := by
  obtain ⟨htarget, hcut, hreset, htenant, hsome⟩ := loomReqData_fields s target cut false none
  unfold writeLoomReq
  simp only [htarget, hcut, hreset, htenant, hsome, Option.getD_none, Option.isSome_none, BitVec.ofNat_toNat, BitVec.setWidth_eq,
    Bool.false_eq_true, if_false]
  rfl

/-- The four loom states have the codes of TARGET (R168). -/
theorem ofNat_loomStateCode (target : BitVec 2) : BitVec.ofNat 2 (loomStateCode (loomStateOf target.toNat)) = target := by
  revert target; decide

theorem loomStateOf_eq_l3 (target : BitVec 2) : loomStateOf target.toNat = .l3 ↔ target = 3 := by
  revert target; decide

/-- Outside L3 a request waits for the ordering point (R83). -/
theorem gateTarget_held {s : State} (t : LoomState) (h : s.pwr.st ≠ .l3) :
    gateTarget t s = { s with pwr := { s.pwr with
      bellWake := false, gateLast := BitVec.ofNat 2 (loomStateCode t), gateReq := some t } } := by
  unfold gateTarget
  cases hst : s.pwr.st with
  | l3 => exact absurd hst h
  | _ => rfl

/-- A held exit from L3 shows LSRAM_LOW where VDD_LSRAM is below its run level (R43, R471). -/
theorem holdExit_eq (s : State) : holdExit s = { s with
    pwr := { s.pwr with stage := .exitHeld }, alert := if s.mon.rails.lsram = 2 then s.alert else putBit s.alert causeLsramLow true } := by
  unfold holdExit
  by_cases h : s.mon.rails.lsram = 2
  · rw [if_pos h]; exact if_neg (not_not.mpr h)
  · rw [if_neg h]; exact if_pos h

/-- At rest at L3 a request for a higher state acts at its edge: the exit is the target, and is held for its rails (R44, R158). -/
theorem gateTarget_leavesL3 {s : State} {t : LoomState} (hst : s.pwr.st = .l3) (hstage : s.pwr.stage = .steady) (ht : t ≠ .l3) :
    gateTarget t s = holdExit { s with pwr := { s.pwr with
      bellWake := false, gateLast := BitVec.ofNat 2 (loomStateCode t), target := t, byHost := false, reached := false
      stage := .exitHeld } } := by
  have hreached : (t == .l3) = false := beq_false_of_ne ht
  unfold gateTarget
  simp only [hst, hstage, hreached, if_neg ht, onPwr]

/-- A request for a loom state, as the gatehouse takes it. -/
theorem exec_loomTarget {s : State} (target : BitVec 2) (cut : Bool) (hpins : pinsTested s = false) :
    exec (.loomTarget target cut) s = fin s (gateTarget (loomStateOf target.toNat) (loomRequested target cut s)) := by
  calc exec (.loomTarget target cut) s
      = fin s (fromGate (fun s => writeLoomReq (loomReqData s target cut false none) s) s) := rfl
    _ = _ := by rw [fromGate_hears _ hpins, writeLoomReq_target]

/-! ## L_POWER_REQ (R83, R343) -/

/-- A host's request for another state than L3 joins the queue of its lc. -/
theorem hostPower_queues {target : BitVec 2} (m : Nat) (tenant : BitVec 8) (s : State) (h : target ≠ 3) :
    hostPower m target tenant s = { s with pwr := { s.pwr with
      hostTarget := target
      weftReqs := queueReq (loomStateOf target.toNat, tenant, 2 * s.clocks.lc + m) s.pwr.weftReqs } } := if_neg h

/-- Settles O19: G_LOOM_REQ's word gives the request back, and each place that takes it has its own equation. -/
theorem powerRequestsAreTaken : Obligations.PowerRequestsAreTaken := by
  unfold Obligations.PowerRequestsAreTaken
  refine ⟨?_, ?_, ?_⟩
  · intro s target cut ⟨hlive, hpins⟩ hst
    have hexec := exec_loomTarget target cut hpins
    rw [gateTarget_held _ (by simpa using hst), ofNat_loomStateCode] at hexec
    exact .of_fin hlive hexec rfl
  · intro s target cut ⟨hlive, hpins⟩ hst hstage htarget
    have hexec := exec_loomTarget target cut hpins
    rw [gateTarget_leavesL3 (by simpa using hst) (by simpa using hstage) (mt (loomStateOf_eq_l3 target).mp htarget),
      ofNat_loomStateCode, holdExit_eq] at hexec
    exact .of_fin hlive hexec rfl
  · intro s target tenant hheard htarget
    obtain ⟨⟨hlive, _⟩, _⟩ := id hheard
    have hexec : exec (.hostPowerRequest target tenant) s =
        fin s (hostPosts (some tenant.toNat) (hostPower (moduleFor s tenant.toNat) target tenant) s) := rfl
    rw [hostPosts_heard _ _ hheard, hostPower_queues _ _ _ htarget] at hexec
    exact .of_fin hlive hexec rfl

end Sys2Proof.Machine
end

