-- ==== Sys2Proof/Proofs/PackageSupplies.lean ====
section
/-!
PROOF. The package and the supplies: the boundary scan (R55 to R57), the supply events and the power of the link modules (R43 to R46,
R154, R471), and the exits from L3 (R44, R150, R151, R164, R268, R356).
-/

namespace Sys2Proof.Machine

/-! ## Single bits -/

/-- A bit that is put reads back, and every other bit of the mask stays. -/
theorem getLsbD_putBit {w : Nat} (v : BitVec w) (i j : Nat) (b : Bool) (hj : j < w) :
    (putBit v i b).getLsbD j = if j = i then b else v.getLsbD j := by
  have hmask : (BitVec.ofNat w (2 ^ i)).getLsbD j = decide (j = i) := by
    rw [BitVec.getLsbD_ofNat, Nat.testBit_two_pow, decide_eq_true hj, Bool.true_and, decide_eq_decide, eq_comm]
  unfold putBit
  cases b with
  | false =>
    rw [if_neg Bool.false_ne_true, BitVec.getLsbD_and, BitVec.getLsbD_not, hmask, decide_eq_true hj]
    by_cases h : j = i <;> simp [h]
  | true =>
    rw [if_pos rfl, BitVec.getLsbD_or, hmask]
    by_cases h : j = i <;> simp [h]

/-- Bits cleared one after the other: a bit stays set where no entry of the list names it. -/
theorem getLsbD_foldl_putBit_false {w : Nat} (ts : List (BitVec 8)) (v : BitVec w) (i : BitVec 8) (hi : i.toNat < w) :
    (ts.foldl (fun v t => putBit v t.toNat false) v).getLsbD i.toNat = true ↔ v.getLsbD i.toNat = true ∧ i ∉ ts := by
  induction ts generalizing v with
  | nil => simp
  | cons t ts ih =>
    rw [List.foldl_cons, ih, getLsbD_putBit _ _ _ _ hi, List.mem_cons]
    by_cases h : i = t
    · simp [h]
    · simp [h, BitVec.toNat_inj]

/-! ## Shift registers of the TAP (R55) -/

/-- The bits of a register in the order in which it shifts out, cell 0 first. -/
def regBits {n : Nat} (v : BitVec n) : List Bool := (List.range n).map v.getLsbD

@[simp] theorem length_regBits {n : Nat} (v : BitVec n) : (regBits v).length = n := by simp [regBits]

theorem regBits_ne_nil {n : Nat} (v : BitVec n) (hn : 0 < n) : regBits v ≠ [] := by simp [regBits, hn.ne']

theorem regBits_injective {n : Nat} {v w : BitVec n} (h : regBits v = regBits w) : v = w :=
  BitVec.eq_of_getLsbD_eq fun i hi => by simpa [regBits, hi] using congrArg (·[i]?) h

theorem cellBits_eq_regBits (v : BitVec 19) : cellBits v = regBits v := rfl

/-- What a register shifts out while the bits `bs` shift in. -/
def shiftOut {n : Nat} : BitVec n → List Bool → List Bool
  | _, [] => []
  | v, b :: bs => v.getLsbD 0 :: shiftOut (shiftIn v b) bs

@[simp] theorem length_shiftOut {n : Nat} (v : BitVec n) (bs : List Bool) : (shiftOut v bs).length = bs.length := by
  induction bs generalizing v with
  | nil => rfl
  | cons b bs ih => simp [shiftOut, ih]

theorem getLsbD_shiftIn {n : Nat} (v : BitVec n) (b : Bool) (i : Nat) (hi : i < n) :
    (shiftIn v b).getLsbD i = if i + 1 = n then b else v.getLsbD (i + 1) := by
  rw [shiftIn, getLsbD_putBit _ _ _ _ hi, BitVec.getLsbD_ushiftRight, Nat.add_comm 1 i]
  by_cases h : i + 1 = n
  · rw [if_pos h, if_pos (by omega)]
  · rw [if_neg h, if_neg (by omega)]

/-- One shift sends cell 0 out and takes a bit in behind the last cell. -/
theorem regBits_shiftIn {n : Nat} (v : BitVec n) (b : Bool) (hn : 0 < n) :
    regBits v ++ [b] = v.getLsbD 0 :: regBits (shiftIn v b) := by
  obtain ⟨m, rfl⟩ := Nat.exists_eq_succ_of_ne_zero hn.ne'
  have hlast : (shiftIn v b).getLsbD m = b := by rw [getLsbD_shiftIn v b m (by omega), if_pos rfl]
  have hlow : (List.range m).map (shiftIn v b).getLsbD = (List.range m).map (fun i => v.getLsbD (i + 1)) :=
    List.map_congr_left fun i hi => by
      have hi' : i < m := List.mem_range.mp hi
      rw [getLsbD_shiftIn v b i (by omega), if_neg (by omega)]
  calc regBits v ++ [b] = v.getLsbD 0 :: ((List.range m).map (fun i => v.getLsbD (i + 1)) ++ [b]) := by
        simp [regBits, List.range_succ_eq_map, Function.comp_def]
    _ = v.getLsbD 0 :: regBits (shiftIn v b) := by rw [regBits, List.range_succ, List.map_append, hlow, List.map_singleton, hlast]

/-- Shifting loses no bit: the register with what shifts in behind it is what shifted out with the register behind that. -/
theorem regBits_append {n : Nat} (v : BitVec n) (bs : List Bool) (hn : 0 < n) :
    regBits v ++ bs = shiftOut v bs ++ regBits (bs.foldl shiftIn v) := by
  induction bs generalizing v with
  | nil => simp [shiftOut]
  | cons b bs ih =>
    calc regBits v ++ b :: bs = (regBits v ++ [b]) ++ bs := by simp
      _ = v.getLsbD 0 :: (regBits (shiftIn v b) ++ bs) := by rw [regBits_shiftIn v b hn]; rfl
      _ = shiftOut v (b :: bs) ++ regBits ((b :: bs).foldl shiftIn v) := by rw [ih]; rfl

/-- A scan as long as its register shifts the whole register out and leaves in it what was shifted in. -/
theorem shift_whole {n : Nat} (v w : BitVec n) (hn : 0 < n) :
    shiftOut v (regBits w) = regBits v ∧ (regBits w).foldl shiftIn v = w := by
  obtain ⟨hout, hin⟩ := List.append_inj (regBits_append v (regBits w) hn).symm (by simp)
  exact ⟨hout, regBits_injective hin⟩

/-- A one-bit register delays what passes through it by one bit. -/
theorem shiftOut_bit (v : BitVec 1) (bs : List Bool) : shiftOut v bs = (v.getLsbD 0 :: bs).dropLast := by
  have h : v.getLsbD 0 :: bs = shiftOut v bs ++ [(bs.foldl shiftIn v).getLsbD 0] := regBits_append v bs Nat.one_pos
  rw [h, List.dropLast_concat]

/-! ## Scans (R55, R56) -/

theorem tapEdges_append (cells : BitVec 19) (es fs : List (Bool × Bool)) (j : Jtag) :
    tapEdges cells (es ++ fs) j = tapEdges cells fs (tapEdges cells es j) := by
  induction es generalizing j with
  | nil => rfl
  | cons e es ih => exact ih _

theorem drScan_of_ne_nil {bs : List Bool} (h : bs ≠ []) :
    drScan bs = [(true, true), (false, true), (false, true)] ++ scanBits bs ++ [(true, true), (false, true)] := by
  cases bs with
  | nil => exact absurd rfl h
  | cons b bs => rfl

/-- The bits of a scan pass through a register: `load` is the TAP with a value in the register, the bits shifted out so far and
the controller's state, which each edge in `shift` shifts and the last one leaves for `exit`. -/
theorem tapEdges_scanBits {n : Nat} {cells : BitVec 19} {load : BitVec n → List Bool → TapState → Jtag} {shift exit : TapState}
    (hedge : ∀ tms b v out, tapEdge cells tms b (load v out shift) =
      load (shiftIn v b) (out ++ [v.getLsbD 0]) (if tms then exit else shift))
    {bs : List Bool} (hbs : bs ≠ []) (v : BitVec n) (out : List Bool) :
    tapEdges cells (scanBits bs) (load v out shift) = load (bs.foldl shiftIn v) (out ++ shiftOut v bs) exit := by
  induction bs generalizing v out with
  | nil => exact absurd rfl hbs
  | cons b bs ih =>
    cases bs with
    | nil => exact hedge true b v out
    | cons c cs =>
      calc tapEdges cells (scanBits (b :: c :: cs)) (load v out shift)
          = tapEdges cells (scanBits (c :: cs)) (tapEdge cells false b (load v out shift)) := rfl
        _ = load ((c :: cs).foldl shiftIn (shiftIn v b)) (out ++ [v.getLsbD 0] ++ shiftOut (shiftIn v b) (c :: cs)) exit := by
          rw [hedge]; exact ih (by simp) _ _
        _ = _ := by simp [shiftOut]

/-- The TAP with a value in its instruction register. -/
def Jtag.withIr (j : Jtag) (v : BitVec 4) (out : List Bool) (t : TapState) : Jtag := { j with ir := v, tdo := out, tap := t }

/-- The TAP with cells in its boundary register. -/
def Jtag.withBoundary (j : Jtag) (v : BitVec 19) (out : List Bool) (t : TapState) : Jtag :=
  { j with boundary := v, tdo := out, tap := t }

/-- The TAP with a value in its bypass bit. -/
def Jtag.withSkip (j : Jtag) (v : BitVec 1) (out : List Bool) (t : TapState) : Jtag :=
  { j with skip := v.getLsbD 0, tdo := out, tap := t }

/-- The TAP at rest after the scan of an instruction: its opcode went in while Capture-IR's 0b0001 came out. -/
def Jtag.loaded (op : BitVec 4) (j : Jtag) : Jtag :=
  { j with tap := .runTestIdle, ir := op, instr := jtagInstr op, tdo := [true, false, false, false] }

/-- An instruction scan from rest selects its instruction and touches no data register. -/
theorem tapEdges_irScan (cells : BitVec 19) (op : BitVec 4) {j : Jtag} (h : j.tap = .testLogicReset ∨ j.tap = .runTestIdle) :
    tapEdges cells (irScan op) { j with tdo := [] } = j.loaded op := by
  obtain ⟨i, hcapture⟩ : ∃ i, tapEdges cells [(false, true), (true, true), (true, true), (false, true), (false, true)]
      { j with tdo := [] } = Jtag.withIr { j with instr := i } 1 [] .shiftIr := by
    obtain ⟨tap, ir, instr, skip, boundary, update, tdo⟩ := j
    obtain rfl | rfl : tap = .testLogicReset ∨ tap = .runTestIdle := h
    · exact ⟨.bypass, rfl⟩
    · exact ⟨instr, rfl⟩
  have hshift := tapEdges_scanBits (cells := cells) (load := Jtag.withIr { j with instr := i }) (shift := .shiftIr) (exit := .exit1Ir)
    (fun tms b v out => by cases tms <;> rfl) (regBits_ne_nil op (by decide)) 1 []
  obtain ⟨hout, hin⟩ := shift_whole 1 op (by decide)
  rw [hin, hout] at hshift
  unfold irScan
  rw [tapEdges_append, tapEdges_append, hcapture]
  exact congrArg (tapEdges cells [(true, true), (false, true)]) hshift

/-- A scan of the boundary register captures the cells, shifts them out, and updates the latches with what came in. -/
theorem tapEdges_drScan_boundary (cells pre : BitVec 19) {j : Jtag} (htap : j.tap = .runTestIdle)
    (hscans : scansBoundary j.instr = true) :
    tapEdges cells (drScan (cellBits pre)) j =
      { j with boundary := pre, update := pre, tdo := j.tdo ++ cellBits cells } := by
  have hshift := tapEdges_scanBits (cells := cells) (load := j.withBoundary) (shift := .shiftDr) (exit := .exit1Dr)
    (fun tms b v out => by cases tms <;> simp [tapEdge, Jtag.withBoundary, hscans, tapNext])
    (regBits_ne_nil pre (by decide)) cells j.tdo
  obtain ⟨hout, hin⟩ := shift_whole cells pre (by decide)
  rw [hin, hout] at hshift
  have hcapture : tapEdges cells [(true, true), (false, true), (false, true)] j = j.withBoundary cells j.tdo .shiftDr := by
    simp [tapEdges, tapEdge, tapNext, htap, hscans, Jtag.withBoundary]
  rw [cellBits_eq_regBits pre, drScan_of_ne_nil (regBits_ne_nil pre (by decide)), tapEdges_append, tapEdges_append, hcapture, hshift]
  simp [tapEdges, tapEdge, tapNext, htap, hscans, Jtag.withBoundary, cellBits_eq_regBits]

/-- Where the bypass bit is selected, what is shifted in comes out one bit late, after the 0 that Capture-DR loads. -/
theorem tapEdges_drScan_skip (cells : BitVec 19) (bs : List Bool) {j : Jtag} (htap : j.tap = .runTestIdle)
    (hscans : scansBoundary j.instr = false) :
    ∃ k, tapEdges cells (drScan bs) j = { j with skip := k, tdo := j.tdo ++ (false :: bs).dropLast } := by
  cases bs with
  | nil => exact ⟨false, by simp [drScan, tapEdges, tapEdge, tapNext, htap, hscans]⟩
  | cons b bs =>
    have hshift := tapEdges_scanBits (cells := cells) (load := j.withSkip) (shift := .shiftDr) (exit := .exit1Dr)
      (fun tms b v out => by
        have hin : (shiftIn v b).getLsbD 0 = b := getLsbD_shiftIn v b 0 Nat.one_pos
        cases tms <;> simp only [tapEdge, Jtag.withSkip, hscans, tapNext, hin] <;> rfl)
      (List.cons_ne_nil b bs) 0 j.tdo
    rw [shiftOut_bit] at hshift
    have hcapture : tapEdges cells [(true, true), (false, true), (false, true)] j = j.withSkip 0 j.tdo .shiftDr := by
      simp [tapEdges, tapEdge, tapNext, htap, hscans, Jtag.withSkip]
    rw [drScan_of_ne_nil (List.cons_ne_nil b bs), tapEdges_append, tapEdges_append, hcapture, hshift]
    exact ⟨((b :: bs).foldl shiftIn (0 : BitVec 1)).getLsbD 0, by
      simp [tapEdges, tapEdge, tapNext, htap, hscans, Jtag.withSkip]⟩

/-! ## The commands of the TAP (R55 to R57) -/

/-- An instruction is scanned in from rest, and only the TAP changes. -/
theorem loadInstr_rests (op : BitVec 4) {s : State} (h : s.jtag.tap = .testLogicReset ∨ s.jtag.tap = .runTestIdle) :
    loadInstr op s = { s with jtag := s.jtag.loaded op } :=
  congrArg (fun j => { s with jtag := j }) (tapEdges_irScan 0 op h)

/-- A scan of the boundary register after an instruction that selects it (R56). -/
theorem boundaryScan_loaded {op : BitVec 4} (bumps pre : BitVec 19) (s : State) (h : scansBoundary (jtagInstr op) = true) :
    boundaryScan bumps pre { s with jtag := s.jtag.loaded op } = { s with jtag := { s.jtag.loaded op with
      boundary := pre, update := pre, tdo := [true, false, false, false] ++ cellBits (capturedCells bumps s) } } :=
  congrArg (fun j => { s with jtag := j }) (tapEdges_drScan_boundary (capturedCells bumps s) pre rfl h)

/-- An opcode that names no other instruction selects BYPASS (R55). -/
theorem jtagInstr_bypass {op : BitVec 4} (h : 4 ≤ op.toNat) : jtagInstr op = .bypass := by
  revert op; decide

/-- BYPASS from rest: the bits pass through the bypass bit, one late (R55). -/
theorem exec_bypass {op : BitVec 4} {s : State} (tdi : List Bool) (hrest : TapRests s) (hop : 4 ≤ op.toNat) :
    ∃ k, exec (.bypass { op := op, tdi := tdi }) s = fin s { s with jtag := { s.jtag.loaded op with
      skip := k, tdo := [true, false, false, false] ++ (false :: tdi).dropLast } } := by
  have hinstr := jtagInstr_bypass hop
  have hselect : selectInstr op none s = loadInstr op s := by unfold selectInstr; rw [hinstr]
  have hexec : exec (.bypass { op := op, tdi := tdi }) s = fin s (onTap 0 (drScan tdi) (loadInstr op s)) := by
    rw [← hselect]; exact congrArg (fin s) (if_pos hinstr)
  obtain ⟨k, hscan⟩ := tapEdges_drScan_skip 0 tdi (j := s.jtag.loaded op) rfl (congrArg scansBoundary hinstr)
  rw [loadInstr_rests op hrest.2] at hexec
  exact ⟨k, hexec.trans (congrArg (fun j => fin s { s with jtag := j }) hscan)⟩

/-- An instruction that takes the pins ends the frame in progress, idles the sensor port and is scanned in (R57). -/
theorem selectInstr_takesPins {op : BitVec 4} {inFrame : Option (Frame × Nat)} {s : State} (hrest : TapRests s)
    (hop : op = 0 ∨ op = 2 ∨ op = 3) (hjtag : (loseFrame inFrame s).jtag = s.jtag) :
    selectInstr op inFrame s = { loseFrame inFrame s with jtag := s.jtag.loaded op } := by
  have hload : selectInstr op inFrame s = loadInstr op (loseFrame inFrame s) := by
    obtain rfl | rfl | rfl := hop <;> rfl
  rw [hload, loadInstr_rests op (by rw [hjtag]; exact hrest.2), hjtag]

/-- What such an instruction answers from rest. -/
theorem Answers.of_takesPins {c : Instr} {op : BitVec 4} {inFrame : Option (Frame × Nat)} {s : State} {P : State → Prop}
    (hexec : exec c s = fin s (selectInstr op inFrame s)) (hrest : TapRests s) (hop : op = 0 ∨ op = 2 ∨ op = 3)
    (hjtag : (loseFrame inFrame s).jtag = s.jtag)
    (hp : P (settle s { loseFrame inFrame s with jtag := s.jtag.loaded op })) : Answers c s P := by
  rw [selectInstr_takesPins hrest hop hjtag] at hexec
  exact .of_fin hrest.1 hexec hp

/-- A STATUS frame cut short marks the port, and the TAP does not enter into it (R57, R86). -/
theorem loseFrame_status {s : State} {n : Nat} (hq : PortQuiet s) (hn : 1 ≤ n) (hlt : n < 48) :
    (loseFrame (some (.status, n)) s).port.shortFlag = true ∧ (loseFrame (some (.status, n)) s).jtag = s.jtag := by
  have hpart : ¬ (decide (n = 0) || decide (frameClocks .status ≤ n)) = true := by
    have hclocks : frameClocks .status = 48 := rfl
    simp only [hclocks, Bool.or_eq_true, decide_eq_true_eq]
    omega
  have hcut : shortFrameEffect .status n s = cutWord statusWord n s := by
    obtain ⟨_, hpins, _⟩ := id hq
    exact (fromGate_hears _ hpins).trans (if_neg hpart)
  have hlose : loseFrame (some (.status, n)) s = idlePort (cutWord statusWord n s) := congrArg idlePort hcut
  rw [hlose]
  constructor <;> simp [idlePort, cutWord, markShort, tick, setLine, beginFrame_quiet hq]

/-- Settles O26: each scan's end from rest, the boundary or the bypass scan after it, and the frame that a taking of the pins cuts.
The model's own scan has the name `boundaryScan`. -/
theorem tapBoundaryScan : Obligations.BoundaryScan := by
  unfold Obligations.BoundaryScan
  refine ⟨?_, ?_, ?_, ?_, ?_, ?_, ?_, ?_, ?_⟩
  · intro s hrest
    exact .of_takesPins (op := 0) rfl hrest (by decide) rfl ⟨rfl, rfl, rfl, rfl⟩
  · intro s bumps cells hrest
    have hexec : exec (.extest { inFrame := none, scans := [(bumps, cells)] }) s =
        fin s (boundaryScan bumps cells (selectInstr 0 none s)) := rfl
    rw [selectInstr_takesPins hrest (by decide) rfl] at hexec
    have hscan := boundaryScan_loaded (op := 0) bumps cells (idlePort s) rfl
    exact .of_fin hrest.1 (hexec.trans (congrArg (fin s) hscan)) ⟨rfl, rfl, rfl, rfl, rfl, rfl⟩
  · intro s hrest
    exact .of_takesPins (op := 2) rfl hrest (by decide) rfl ⟨rfl, rfl, rfl, rfl⟩
  · intro s hrest
    exact .of_takesPins (op := 3) rfl hrest (by decide) rfl ⟨rfl, rfl, rfl, rfl⟩
  · intro s bumps pre hrest
    have hexec : exec (.samplePreload bumps pre) s = fin s (boundaryScan bumps pre (loadInstr 1 s)) := rfl
    rw [loadInstr_rests 1 hrest.2, boundaryScan_loaded bumps pre s rfl] at hexec
    exact .of_fin hrest.1 hexec ⟨rfl, rfl, rfl, rfl, rfl, rfl⟩
  · intro s op b bs hrest hop
    obtain ⟨k, hexec⟩ := exec_bypass (b :: bs) hrest hop
    exact .of_fin hrest.1 hexec ⟨jtagInstr_bypass hop, rfl, rfl⟩
  · intro s op hrest hop
    obtain ⟨k, hexec⟩ := exec_bypass [] hrest hop
    exact .of_fin hrest.1 hexec ⟨jtagInstr_bypass hop, rfl⟩
  · intro s hlive
    exact .of_fin hlive rfl rfl
  · intro s n hq hrest hn hlt c hc
    obtain ⟨hshort, hjtag⟩ := loseFrame_status hq hn hlt
    simp only [List.mem_cons, List.not_mem_nil, or_false] at hc
    obtain rfl | rfl | rfl := hc
    · exact .of_takesPins (op := 0) rfl hrest (by decide) hjtag ⟨hshort, rfl⟩
    · exact .of_takesPins (op := 2) rfl hrest (by decide) hjtag ⟨hshort, rfl⟩
    · exact .of_takesPins (op := 3) rfl hrest (by decide) hjtag ⟨hshort, rfl⟩

/-! ## The loss of the loom (R45, R47, R147) -/

theorem endHold_frame (s : State) : ∃ l, endHold s = { s with loft := l } := by
  unfold endHold
  split
  · split <;> exact ⟨_, rfl⟩
  · exact ⟨s.loft, rfl⟩

/-- The end of an escalation touches the escalation, the loft's hold and the alert. -/
theorem endEscalation_frame (outcome : Nat) (answer : Option Byte) (s : State) :
    ∃ e l a, endEscalation outcome answer s = { s with esc := e, loft := l, alert := a } := by
  unfold endEscalation
  dsimp only
  split <;> obtain ⟨l, h⟩ := endHold_frame _ <;> exact ⟨_, l, _, h⟩

theorem escLoomLost_frame (s : State) : ∃ e l a, escLoomLost s = { s with esc := e, loft := l, alert := a } := by
  unfold escLoomLost endUnfetched
  split
  · exact endEscalation_frame _ _ s
  · exact ⟨s.esc, s.loft, s.alert, rfl⟩

theorem escEntryLost_frame (s : State) : ∃ e l a, escEntryLost s = { s with esc := e, loft := l, alert := a } := by
  unfold escEntryLost
  split
  · exact endEscalation_frame _ _ s
  · exact ⟨s.esc, s.loft, s.alert, rfl⟩

/-- The loom at L3, its power control at rest there. -/
def Power.lost (p : Power) : Power :=
  { p with
    st := .l3, stage := .steady, target := .l3, byHost := false, reqTarget := 3, reached := true, drained := false, gateReq := none
    hostTarget := 3, weftReqs := [], bellWake := false, resetOwed := false, reqReset := false, reqTreset := false, tresetFor := [] }

/-- The loom's loss empties it as a LOOM reset does, puts its power control at L3 and raises SUPPLY_LOST (R45, R47, R147). -/
theorem loseLoom_frame (s : State) : ∃ e l a w p, loseLoom s = { s with
    esc := e, loft := l, alert := putBit a causeSupplyLost true, weft := w, warp := p
    mon := { s.mon with pllLock := false }, pwr := s.pwr.lost, loom := resetLoom s.loom } := by
  obtain ⟨e, l, a, hentry⟩ := escEntryLost_frame s
  unfold loseLoom
  rw [hentry]
  dsimp only
  obtain ⟨e', l', a', hlost⟩ := escLoomLost_frame _
  rw [hlost]
  exact ⟨e', l', a', _, _, rfl⟩

/-! ## G_LINK_REQ and the rails of the link modules (R154) -/

/-- Where one key alone makes an update, and nothing follows it, a fold over keys that name it is that update. -/
theorem foldl_once {σ : Type} {f : σ → Nat → σ} {s s' : σ} {m : Nat} {ks : List Nat} (hmem : m ∈ ks)
    (hother : ∀ k, k ≠ m → f s k = s) (hdo : f s m = s') (hdone : ∀ k, f s' k = s') : ks.foldl f s = s' := by
  induction ks with
  | nil => simp at hmem
  | cons k ks ih =>
    rw [List.foldl_cons]
    by_cases h : k = m
    · rw [h, hdo, List.foldl_fixed' hdone]
    · rw [hother k h]
      exact ih ((List.mem_cons.mp hmem).resolve_left (Ne.symm h))

/-- What G_LINK_REQ's new value asks of module `m`. -/
def linkModule (d : Word) (s : State) (m : Nat) : State :=
  if d.getLsbD m then linkOnModule m s else if s.pwr.linkReq.getLsbD m then linkOffModule m s else s

/-- A module whose bit stays is left alone (R154). -/
theorem linkModule_same {d : Word} {s : State} {m : Nat} (h : d.getLsbD m = s.pwr.linkReq.getLsbD m) : linkModule d s m = s := by
  unfold linkModule
  cases hm : s.pwr.linkReq.getLsbD m with
  | true => rw [h, hm, if_pos rfl]; exact if_pos hm
  | false => rw [h, hm]; rfl

/-- The word of G_LINK_REQ with the bit of module `m` changed. -/
def linkReqWith (s : State) (m : Fin 6) (b : Bool) : Word := (putBit s.pwr.linkReq m.val b).setWidth 32

theorem getLsbD_linkReqWith (s : State) (m : Fin 6) (b : Bool) (k : Nat) :
    (linkReqWith s m b).getLsbD k = (putBit s.pwr.linkReq m.val b).getLsbD k := by
  rw [linkReqWith, BitVec.getLsbD_setWidth, Bool.and_eq_right_iff_imp]
  intro h
  have hk := BitVec.lt_of_getLsbD h
  exact decide_eq_true (by omega)

/-- A write of G_LINK_REQ that changes the bit of one module switches that module alone (R154). -/
theorem writeLinkReq_one {s s' : State} {m : Fin 6} {b : Bool} (hdo : linkModule (linkReqWith s m b) s m.val = s')
    (hreq : s'.pwr.linkReq = putBit s.pwr.linkReq m.val b) : writeLinkReq (linkReqWith s m b) s = s' := by
  have hm := m.isLt
  refine foldl_once (f := linkModule (linkReqWith s m b)) (m := m.val) (by simp [span]) (fun k hk => linkModule_same ?_) hdo
    (fun k => linkModule_same ?_)
  · rw [getLsbD_linkReqWith]
    by_cases hlt : k < 6
    · rw [getLsbD_putBit _ _ _ _ hlt, if_neg hk]
    · rw [BitVec.getLsbD_of_ge _ _ (by omega), BitVec.getLsbD_of_ge _ _ (by omega)]
  · rw [getLsbD_linkReqWith, hreq]

theorem getLsbD_linkReqWith_same (s : State) (m : Fin 6) (b : Bool) : (linkReqWith s m b).getLsbD m.val = b := by
  rw [getLsbD_linkReqWith, getLsbD_putBit _ _ _ _ m.isLt, if_pos rfl]

/-- A module that is not requested is requested and held for its rails. -/
theorem writeLinkReq_on {s : State} {m : Fin 6} (h : s.pwr.linkReq.getLsbD m.val = false) :
    writeLinkReq (linkReqWith s m true) s = { s with pwr := { s.pwr with
      linkReq := putBit s.pwr.linkReq m.val true, held := putBit s.pwr.held m.val true } } := by
  refine writeLinkReq_one ?_ rfl
  have hon : linkModule (linkReqWith s m true) s m.val = linkOnModule m.val s := if_pos (getLsbD_linkReqWith_same s m true)
  rw [hon]
  exact if_neg (by simp only [h, Bool.false_eq_true, not_false_eq_true])

/-- A module that is requested and not powered is withdrawn, with no LINK reset. -/
theorem writeLinkReq_off {s : State} {m : Fin 6} (h : s.pwr.linkReq.getLsbD m.val = true) (hp : s.pwr.powered.getLsbD m.val = false) :
    writeLinkReq (linkReqWith s m false) s = { s with pwr := { s.pwr with
      linkReq := putBit s.pwr.linkReq m.val false, held := putBit s.pwr.held m.val false
      powered := putBit s.pwr.powered m.val false } } := by
  refine writeLinkReq_one ?_ rfl
  have hoff : linkModule (linkReqWith s m false) s m.val = linkOffModule m.val s := by
    unfold linkModule
    rw [getLsbD_linkReqWith_same, if_neg Bool.false_ne_true, if_pos h]
  rw [hoff]
  exact if_neg (by simp only [isPowered, hp, Bool.false_eq_true, not_false_eq_true])

/-- A powered warp module that loses VDD_LINK is reset, and its request is held again (R154, log 21). -/
theorem railLost_link {s : State} {m : Fin 6} (hm : 2 ≤ m.val) (h : s.pwr.powered.getLsbD m.val = true) :
    railLost m.val false s = raise causeLinkDown (resetWarp (m.val - 2) false { s with
      pwr := { s.pwr with powered := putBit s.pwr.powered m.val false, held := putBit s.pwr.held m.val true }
      mon := { s.mon with rails := { s.mon.rails with link := false } } }) := by
  have hreset : ∀ s, linkReset m.val false s = resetWarp (m.val - 2) false s := fun s => if_neg (by omega)
  exact (if_pos h).trans (congrArg (raise causeLinkDown) (hreset _))

/-! ## Absent supplies and the LSRAM run level (R43, R44, R154, R471) -/

/-- What an absent supply does where the request it names still waits for it, apart from a held exit. -/
theorem absentSupply_link {s : State} {m : Fin 6} {rails : Rails} (hstage : s.pwr.stage ≠ .exitHeld)
    (h : s.pwr.held.getLsbD m.val = true) : absentSupply (some m) rails s = raise causeSupplyAbsent (noteRails rails s) := by
  unfold absentSupply
  dsimp only
  rw [if_neg hstage]
  exact if_pos h

theorem absentSupply_exit {s : State} {rails : Rails} (hstage : s.pwr.stage = .exitHeld) :
    absentSupply none rails s = raise causeSupplyAbsent (holdExit (noteRails rails s)) := by
  unfold absentSupply
  dsimp only
  rw [if_pos hstage]
  exact if_pos (beq_iff_eq.mpr hstage)

theorem noteRails_link (rails : Rails) (s : State) :
    (noteRails rails s).mon.rails.link = if s.pwr.powered = 0 then rails.link else s.mon.rails.link := by
  simp [noteRails]

/-- At L3 outside an exit's phases the loom's monitors read as they are given (log 43). -/
theorem noteRails_loomOff {s : State} (rails : Rails) (hst : s.pwr.st = .l3) (hexit : inExitPhases s.pwr = false) :
    (noteRails rails s).mon.rails.loomv = rails.loomv ∧ (noteRails rails s).mon.rails.lsram = rails.lsram
      ∧ (noteRails rails s).mon.rails.lref = rails.lref := by
  simp [noteRails, hst, hexit]

/-- VDD_LSRAM's monitor at its run level lets a held exit from L2 go on (R43). -/
theorem lsramRun_held {s : State} {dest : LoomState} (h : s.pwr.stage = .lsramHold dest) : lsramRun s = { s with
    pwr := { s.pwr with stage := .move dest }, mon := { s.mon with rails := { s.mon.rails with lsram := 2 } } } := by
  unfold lsramRun
  rw [h]
  rfl

/-- Settles O23: the supply events by the operation that each runs, the requests of link modules by the one bit that changes. -/
theorem supplyEvents : Obligations.SupplyEvents := by
  unfold Obligations.SupplyEvents
  refine ⟨?_, ?_, ?_, ?_, ?_, ?_, ?_, ?_⟩
  · intro s d hlive hstage
    exact .of_fin hlive (congrArg (fin s) (lsramRun_held hstage)) rfl
  · intro s hlive hst
    obtain ⟨e, l, a, w, p, hlose⟩ := loseLoom_frame { s with mon := { s.mon with rails := { s.mon.rails with loomv := false } } }
    have hloss : isLoss s.pwr s.mon .loomv = true := by simp [isLoss, hst]
    have hexec : exec (.supplyLost .loomv) s = fin s (loseLoom { s with
        mon := { s.mon with rails := { s.mon.rails with loomv := false } } }) := congrArg (fin s) (if_pos hloss)
    rw [hlose] at hexec
    have halert : (putBit a causeSupplyLost true).getLsbD 3 = true := getLsbD_putBit a 3 3 true (by decide)
    exact .of_fin hlive hexec ⟨rfl, rfl, rfl, rfl, halert, rfl, rfl, rfl, rfl, rfl⟩
  · intro s m rails hlive hheld hstage
    have hexec := congrArg (fin s) (absentSupply_link (rails := rails) hstage hheld)
    have hlink := noteRails_link rails s
    exact .of_fin hlive hexec ⟨fun h => hlink.trans (if_pos h), fun h => hlink.trans (if_neg h), rfl⟩
  · intro s rails hlive hst hstage
    have hexec := congrArg (fin s) (absentSupply_exit (rails := rails) hstage)
    obtain ⟨hloomv, hlsram, hlref⟩ := noteRails_loomOff rails hst (by simp [inExitPhases, hstage])
    rw [holdExit_eq, hlsram] at hexec
    exact .of_fin hlive hexec ⟨hloomv, hlsram, hlref, by rw [← hstage]; rfl⟩
  · intro s m ⟨hlive, hpins⟩ hreq
    have hexec : exec (.linkOnRequest m) s = fin s (writeLinkReq (linkReqWith s m true) s) :=
      congrArg (fin s) (fromGate_hears _ hpins)
    rw [writeLinkReq_on hreq] at hexec
    exact .of_fin hlive hexec rfl
  · intro s m ⟨hlive, hpins⟩ hreq hpowered
    have hexec : exec (.linkOff m) s = fin s (writeLinkReq (linkReqWith s m false) s) :=
      congrArg (fin s) (fromGate_hears _ hpins)
    rw [writeLinkReq_off hreq hpowered] at hexec
    exact .of_fin hlive hexec rfl
  · intro s m hlive hheld
    exact .of_fin hlive (congrArg (fin s) (if_pos hheld)) rfl
  · intro s m hlive hm hpowered _
    have hexec := congrArg (fin s) (railLost_link hm hpowered)
    exact .of_fin hlive hexec ⟨warpOf_putWarp_same _ _ _, rfl, rfl, rfl⟩

/-! ## The phases of an exit from L3 (R44, R150, R151, R164, R268, R356) -/

/-- Phase 1 begins with the rails and LREFCLK good (R44, R151). -/
theorem startExit_held {s : State} (hst : s.pwr.st = .l3) (hstage : s.pwr.stage = .exitHeld) : startExit s = { s with
    pwr := { s.pwr with stage := .exitPhase 1 false }
    mon := { s.mon with rails := { s.mon.rails with loomv := true, lsram := 2, pll := true, lref := true } } } := by
  unfold startExit
  rw [hst, hstage]
  rfl

section phaseEnd
variable {s : State} (r : PhaseResult)

/-- A withdrawn exit ends with its phase (R161). -/
theorem phaseEnd_withdrawn {n : Nat} (h : s.pwr.stage = .exitPhase n true) : phaseEnd r s = { s with
    mon := { s.mon with pllLock := false }
    pwr := { s.pwr with stage := .steady, reqTreset := false, tresetFor := [], reqReset := false, resetOwed := false } } := by
  unfold phaseEnd
  rw [h]
  rfl

theorem phaseEnd_one (h : s.pwr.stage = .exitPhase 1 false) :
    phaseEnd r s = { s with pwr := { s.pwr with stage := .exitPhase 2 false } } := by
  unfold phaseEnd
  rw [h]
  rfl

/-- Phase 2 ends with the straps sampled and the PLL locked at the point that POINT holds (R36, R151, R256). -/
theorem phaseEnd_two (h : s.pwr.stage = .exitPhase 2 false) : phaseEnd r s = { s with
    pwr := { s.pwr with chainPos := r.straps, stage := .exitPhase 3 false }
    mon := { s.mon with straps := r.straps, pllLock := true }
    loom := { s.loom with clock := { s.loom.clock with
      current := s.loom.clock.point, pending := false, heldPoint := none, relocking := false } } } := by
  unfold phaseEnd
  rw [h]
  rfl

theorem phaseEnd_three (h : s.pwr.stage = .exitPhase 3 false) :
    phaseEnd r s = onPwr (fun p => { p with stage := .exitPhase 4 false }) (selfTest r s) := by
  unfold phaseEnd
  rw [h]
  rfl

theorem phaseEnd_four (h : s.pwr.stage = .exitPhase 4 false) : phaseEnd r s = endPhase4 true s := by
  simp [phaseEnd, h]

end phaseEnd

/-- TILES_OK shows the tiles that did not fail the self-test (R164). -/
theorem selfTest_tilesOk (r : PhaseResult) (s : State) (i : BitVec 8) :
    (selfTest r s).pwr.tilesOk.getLsbD i.toNat = true ↔ i ∉ r.failedTiles := by
  have hi : i.toNat < 256 := i.isLt
  refine (getLsbD_foldl_putBit_false r.failedTiles (BitVec.allOnes 256) i hi).trans ?_
  rw [BitVec.getLsbD_allOnes, decide_eq_true hi, eq_self_iff_true, true_and]

/-- A weft module at its reset values leaves no entry in an empty table. -/
theorem putWeft_init {s : State} (m : Nat) (h : s.weft = []) : putWeft m .init s = s := by
  have hdel : sput WeftModule.init s.weft m .init = s.weft := by rw [h]; exact if_pos rfl
  exact congrArg (fun w => { s with weft := w }) hdel

theorem weftOf_empty {s : State} (m : Nat) (h : s.weft = []) : weftOf s m = .init := by rw [weftOf, h, sget_nil]

/-- Weft modules at their reset values have discarded nothing that they could report (R159). -/
theorem reportAllDropped_empty {s : State} (h : s.weft = []) : reportAllDropped s = s := by
  have hinit : { WeftModule.init with dropped := [] } = WeftModule.init := rfl
  have hnone : WeftModule.init.dropped = [] := rfl
  simp only [reportAllDropped, List.foldl_cons, List.foldl_nil, weftOf_empty _ h, hinit, hnone, putWeft_init _ h]

/-- A loom that rests in its target's state, with no reset and no clock point due, has reached the target. -/
theorem advance_reached {s : State} (hstage : s.pwr.stage = .steady) (hpoint : s.loom.clock.pending = false)
    (hreset : s.pwr.resetOwed = false) (hst : s.pwr.st = s.pwr.target) : advance s = onPwr (fun p => { p with reached := true }) s := by
  have hrelock : relockNow s = false := by simp [relockNow, hpoint]
  unfold advance
  simp [hstage, hrelock, hreset, hst]

/-- The loom restarts at the end of phase 4 as after a LOOM reset, with L_NOW from 0 and no tile marked failed (R268, R356, log 21). -/
def restartLoom (s : State) : State :=
  let s1 := applyLoomReset s
  onLoom (fun l => { l with now := 0, failed := 0 }) { s1 with clocks := { s1.clocks with frac := 0 } }

/-- An exit from L3 clears the counts of retrains of both weft modules (log 21). -/
def clearRetrains (s : State) : State := [0, 1].foldl (fun s m => putWeft m { weftOf s m with retrains := 0 } s) s

/-- The power control at the end of an exit from L3: at L1, in a new epoch, with a LOOM reset that waited now asked for. -/
def Power.exited (p : Power) : Power :=
  { p with
    st := .l1, stage := .steady, epoch := p.epoch + 1, drained := false, reqTreset := false, tresetFor := []
    reqReset := p.resetOwed, resetOwed := p.resetOwed }

theorem endPhase4_exit_eq (s : State) :
    endPhase4 true s = advance (reportAllDropped (onPwr Power.exited (clearRetrains (restartLoom s)))) := rfl

theorem clearRetrains_empty {s : State} (h : s.weft = []) : clearRetrains s = s := by
  have hinit : { WeftModule.init with retrains := 0 } = WeftModule.init := rfl
  simp only [clearRetrains, List.foldl_cons, List.foldl_nil, weftOf_empty _ h, hinit, putWeft_init _ h]

/-- With nothing discarded by the weft modules, phase 4 ends with the restart. -/
theorem endPhase4_exit {s : State} (h : s.weft = []) : endPhase4 true s = advance (onPwr Power.exited (restartLoom s)) := by
  have hweft : (restartLoom s).weft = [] := h
  have hweft' : (onPwr Power.exited (restartLoom s)).weft = [] := h
  rw [endPhase4_exit_eq, clearRetrains_empty hweft, reportAllDropped_empty hweft']

/-- Settles O22: one equation per phase; the exit ends in the loom's restart, which at L1 is the target. -/
theorem exitFromL3 : Obligations.ExitFromL3 := by
  unfold Obligations.ExitFromL3
  refine ⟨?_, ?_, ?_, ?_, ?_, ?_⟩
  · intro s hlive hst hstage
    exact .of_fin hlive (congrArg (fin s) (startExit_held hst hstage)) rfl
  · intro s r hlive hstage
    exact .of_fin hlive (congrArg (fin s) (phaseEnd_one r hstage)) rfl
  · intro s r n hlive hstage
    exact .of_fin hlive (congrArg (fin s) (phaseEnd_withdrawn r hstage)) ⟨rfl, rfl⟩
  · intro s r hlive hstage
    exact .of_fin hlive (congrArg (fin s) (phaseEnd_two r hstage)) ⟨rfl, rfl, rfl, rfl⟩
  · intro s r hlive hstage
    exact .of_fin hlive (congrArg (fin s) (phaseEnd_three r hstage)) ⟨selfTest_tilesOk r s, rfl, rfl⟩
  · intro s r hlive hstage htarget hweft hpoint hreset
    have hexec := congrArg (fin s) ((phaseEnd_four r hstage).trans (endPhase4_exit hweft))
    rw [advance_reached (s := onPwr Power.exited (restartLoom s)) rfl hpoint hreset htarget.symm] at hexec
    exact .of_fin hlive hexec ⟨rfl, rfl, rfl, rfl, rfl, rfl, rfl, rfl, rfl⟩

end Sys2Proof.Machine
end

