-- ==== Sys2Proof/Proofs/GatePort.lean ====
section
/-!
PROOF. The gate port and what it reaches: its frames (R58 to R73, R80, R86), the staging registers (R123, R124), the key commands (R99,
R105, R106), the GATE and WATCH resets (R155, R157), the ordering point (R83, R84, R150), the tenant controls (R85, R163, R415), the
steps of the watch cores (R205 to R210) and the watchman's tally (R442 to R452).
-/

namespace Sys2Proof.Machine

/-! ## Commands of the gate port -/

theorem hears_of_quiet {s : State} (h : PortQuiet s) : GateHears s := ⟨h.1, h.2.1⟩

/-- A command of the gate port answers what its frame does, where the gatehouse hears it (R57). -/
theorem Answers.of_gate {c : Instr} {s e : State} {f : State → State} {P : State → Prop} (hg : GateHears s)
    (hexec : exec c s = fin s (fromGate f s)) (hf : f s = e) (hp : P (settle s e)) : Answers c s P :=
  .of_fin hg.1 (hexec.trans (congrArg (fin s) ((fromGate_hears f hg.2).trans hf))) hp

/-! ## What the port's flags and lines leave alone -/

theorem snapWord_flag (b : Bool) (before : List Nat) (a : Nat) (s : State) :
    snapWord (onPort (fun p => { p with shortFlag := b }) s) before a = snapWord s before a := rfl

theorem statusWord_flag (b : Bool) (s : State) : statusWord (onPort (fun p => { p with shortFlag := b }) s) = statusWord s := rfl

theorem snapshot_flag (b : Bool) (as before : List Nat) (s : State) :
    snapshot (onPort (fun p => { p with shortFlag := b }) s) before as = snapshot s before as := by
  induction as generalizing before with
  | nil => rfl
  | cons a as ih => exact congrArg₂ List.cons (snapWord_flag b before a s) (ih _)

/-- The words shifted out latch high halves and touch nothing else (R66, R448). -/
theorem readEffects_frame (snap : State) (as : List Nat) (s : State) :
    ∃ h, readEffects snap as s = { s with wtally := { s.wtally with shadow := h } } := by
  induction as generalizing s with
  | nil => exact ⟨s.wtally.shadow, rfl⟩
  | cons a as ih =>
    unfold readEffects
    split
    · obtain ⟨h, heq⟩ := ih (latchHigh ((a - 0x250) / 2) (wtallyOf snap ((a - 0x250) / 2)) s)
      exact ⟨h, heq⟩
    · exact ih s

/-- A frame that was whole leaves the short-frame flag of an idle port clear. -/
theorem endFrame_quiet (s : State) (h : s.port.shortFlag = false) :
    endFrame (onPort (fun p => { p with shortFlag := true }) s) = onPort (fun p => { p with shortOp := none }) s := by
  calc endFrame (onPort (fun p => { p with shortFlag := true }) s)
      = { s with port := { s.port with shortFlag := false, shortOp := none } } := rfl
    _ = _ := by rw [← h]; rfl

/-- Settles O7: every value is a field of the reset state. -/
theorem resetValues : Obligations.ResetValues := by
  unfold Obligations.ResetValues
  exact ⟨rfl, rfl, rfl, rfl, rfl, rfl, rfl, fun _ _ => rfl, rfl, rfl, rfl, rfl, rfl, rfl, rfl, rfl,
    rfl, rfl, rfl, rfl, rfl, rfl, rfl, rfl, rfl, rfl, rfl⟩

/-- A READ from an idle port shifts its snapshot out, and latches high halves alone (R65, R448). -/
theorem readFrame_quiet {s : State} (addr : BitVec 10) (n : BitVec 6) (extra : Nat) (hq : PortQuiet s) :
    ∃ h, readFrame addr n extra s = { s with
      port := { s.port with
        gsdo := readLine (snapshot s [] (readAddrs addr n)) extra, snap := snapshot s [] (readAddrs addr n), shortOp := none }
      wtally := { s.wtally with shadow := h } } := by
  obtain ⟨_, _, hshort, _, hunlocked⟩ := id hq
  have hk : (onPort (fun p => { p with shortFlag := true }) s).keys.locked = false := hunlocked
  have hclocks : 32 ≤ readClocks addr n := Nat.le_add_right _ _
  obtain ⟨h, heff⟩ := readEffects_frame (onPort (fun p => { p with shortFlag := true }) s)
    ((readAddrs addr n).take ((readClocks addr n - 32) / 32)) (onPort (fun p => { p with shortFlag := true }) s)
  have hburst : readBurst addr n (readClocks addr n) s = { s with
      port := { s.port with shortFlag := true, snap := snapshot s [] (readAddrs addr n) }
      wtally := { s.wtally with shadow := h } } := by
    unfold readBurst
    rw [beginFrame_quiet hq, tick_unlocked _ hk]
    dsimp only
    rw [if_neg (by omega), heff, snapshot_flag, tick_unlocked _ (by exact hk)]
    rfl
  refine ⟨h, ?_⟩
  unfold readFrame
  rw [hburst]
  dsimp only
  rw [tick_unlocked _ (by exact hk)]
  exact endFrame_quiet { s with port := { s.port with gsdo := _, snap := _ }, wtally := _ } hshort


/-- STATUS and IDENT outside a lockout shift one word out (R73). -/
theorem oneWordFrame_unlocked {s : State} (word : State → Word) (extra : Nat) (h : (beginFrame s).keys.locked = false) :
    oneWordFrame word extra s = endFrame (setLine (wordLine (word (beginFrame s)) extra) (beginFrame s)) := by
  unfold oneWordFrame
  rw [tick_unlocked 12 h]
  exact tick_unlocked _ h

/-- STATUS and IDENT from an idle port change nothing else (R73). -/
theorem oneWordFrame_quiet {s : State} {word : State → Word} (extra : Nat) (hq : PortQuiet s)
    (hword : word (onPort (fun p => { p with shortFlag := true }) s) = word s) :
    oneWordFrame word extra s = { s with port := { s.port with gsdo := wordLine (word s) extra, shortOp := none } } := by
  obtain ⟨_, _, hshort, _, hunlocked⟩ := id hq
  have hbegin := beginFrame_quiet hq
  rw [oneWordFrame_unlocked word extra (by rw [hbegin]; exact hunlocked), hbegin, hword]
  exact endFrame_quiet { s with port := { s.port with gsdo := _ } } hshort

/-- Below the HI words of the watchman's tally a snapshot is what the words read (R67). -/
theorem snapshot_eq_map {s : State} {as : List Nat} (before : List Nat) (h : ∀ a ∈ as, a < 0x250) :
    snapshot s before as = as.map (gateRead s) := by
  induction as generalizing before with
  | nil => rfl
  | cons a as ih =>
    obtain ⟨ha, has⟩ := List.forall_mem_cons.mp h
    have hword : snapWord s before a = gateRead s a := if_neg (by simp [Nat.not_le.mpr ha])
    rw [snapshot, hword, ih _ has, List.map_cons]

theorem span_eq_map_span_zero (a n : Nat) : span a n = (span 0 n).map (a + ·) := by simp [span]

theorem mem_span {a n k : Nat} : k ∈ span a n ↔ a ≤ k ∧ k < a + n := by
  simp only [span, List.mem_map, List.mem_range]
  constructor
  · rintro ⟨i, hi, rfl⟩
    omega
  · rintro ⟨h1, h2⟩
    exact ⟨k - a, by omega, by omega⟩

/-- A window read's snapshot: G_WIN_SEQ, then the counts of its field (R67). -/
theorem snapshot_window (s : State) (n : BitVec 6) :
    snapshot s [] (readAddrs 0x189 n) = s.wc.winSeq :: (span 0 (n.toNat + 1)).map (fun k => gateRead s ((0x1C0 + k) % 1024)) := by
  have haddrs : readAddrs 0x189 n = 0x189 :: (span 0 (n.toNat + 1)).map (fun k => (0x1C0 + k) % 1024) := by
    rw [readAddrs, if_pos rfl, span_eq_map_span_zero 0x1C0, List.map_map]
    rfl
  have hlow : ∀ a ∈ readAddrs 0x189 n, a < 0x250 := by
    have hn := n.isLt
    rw [haddrs, List.forall_mem_cons]
    refine ⟨by decide, fun a ha => ?_⟩
    obtain ⟨k, hk, rfl⟩ := List.mem_map.mp ha
    have hlt := (mem_span.mp hk).2
    omega
  rw [snapshot_eq_map [] hlow, haddrs, List.map_cons, List.map_map]
  rfl

/-- Settles O9: the frame of each read from an idle port. -/
theorem gateReads : Obligations.GateReads := by
  unfold Obligations.GateReads
  refine ⟨?_, ?_, ?_, ?_, ?_⟩
  · intro s addr n extra hq
    obtain ⟨h, hread⟩ := readFrame_quiet addr n extra hq
    exact .of_gate (hears_of_quiet hq) rfl hread ⟨rfl, rfl⟩
  · intro s n extra hq
    obtain ⟨h, hread⟩ := readFrame_quiet 0x189 n extra hq
    exact .of_gate (hears_of_quiet hq) rfl hread ⟨snapshot_window s n, rfl⟩
  · intro s n hg
    exact .of_gate hg rfl rfl ⟨sget_sput_same _ _ _ _, rfl⟩
  · intro s extra hq
    exact .of_gate (hears_of_quiet hq) rfl (oneWordFrame_quiet extra hq (statusWord_flag true s)) rfl
  · intro s extra hq
    exact .of_gate (hears_of_quiet hq) rfl (oneWordFrame_quiet extra hq rfl) rfl

/-! ## WRITE (R68, R69, R80, R101) -/

/-- The words of a burst on their way to the watchman. -/
def burstFlights (a clk : Nat) (ds : List Word) : List InFlightWrite :=
  (span 0 ds.length).map (fun i => { addr := BitVec.ofNat 10 (a + i), data := ds.getD i 0, via := .unsealed, at_ := clk })

theorem burstFlights_cons (a clk : Nat) (d : Word) (ds : List Word) :
    burstFlights a clk (d :: ds)
      = { addr := BitVec.ofNat 10 a, data := d, via := .unsealed, at_ := clk } :: burstFlights (a + 1) clk ds := by
  simp [burstFlights, span, List.range_succ_eq_map, Nat.add_assoc, Nat.add_comm 1]

/-- The gatehouse holds no word of rooms 0x140 to 0x1FF. -/
theorem writeGatehouse_watch {a : Nat} (d : Word) (s : State) (h : 0x140 ≤ a) : writeGatehouse a d .unsealed s = s := by
  have hne : ∀ k < 0x140, a ≠ k := fun k hk => by omega
  have hwin : ¬ a < 0x0F0 := by omega
  simp [writeGatehouse, hne, hwin]

/-- A word of rooms 0x140 to 0x1FF commits on its way to the watchman (R80). -/
theorem commitWord_watch {a : Nat} (d : Word) (s : State) (h : 0x140 ≤ a) (hlt : a < 0x200) :
    commitWord a d .unsealed s = { s with
      wflight := s.wflight ++ [{ addr := BitVec.ofNat 10 a, data := d, via := .unsealed, at_ := s.clocks.wclk }] } := by
  have hseal : hasSealField a = false := by simp [hasSealField]; omega
  have hwatch : inWatchman a = true := by simp [inWatchman]; omega
  unfold commitWord
  simp only [hseal, hwatch, Bool.and_false, if_true, Bool.false_eq_true, if_false]
  exact writeGatehouse_watch d _ h

/-- A burst within rooms 0x140 to 0x1FF puts its words on their way in order (R68, R80). -/
theorem commitBurst_watch {ds : List Word} {a : Nat} (s : State) (h : 0x140 ≤ a) (hlt : a + ds.length ≤ 0x200) :
    commitBurst ds a s = { s with wflight := s.wflight ++ burstFlights a s.clocks.wclk ds } := by
  induction ds generalizing a s with
  | nil => simp [commitBurst, burstFlights, span]
  | cons d ds ih =>
    rw [List.length_cons] at hlt
    have hreset : asksGateReset a d = false := by
      have hne : a ≠ 0x045 := by omega
      simp [asksGateReset, hne]
    have hnext : (a + 1) % 1024 = a + 1 := by omega
    rw [commitBurst, hreset, if_neg Bool.false_ne_true, hnext, commitWord_watch d s h (by omega), ih _ (by omega) (by omega)]
    simp [burstFlights_cons]

/-- The state in which a WRITE of `n` words from an idle port commits them. -/
def writing (n extra : Nat) (s : State) : State :=
  { s with port := { s.port with shortFlag := true, gsdo := writeLine n extra } }

/-- A WRITE from an idle port is its words' commits (R68). -/
theorem writeFrame_quiet {s e : State} {data : List Word} (addr : BitVec 10) (extra : Nat) (hq : PortQuiet s) (hne : data ≠ [])
    (hlen : data.length ≤ 64) (hcommit : commitBurst data addr.toNat (writing data.length extra s) = e)
    (hkeys : e.keys = s.keys) : writeFrame addr data extra s = endFrame e := by
  obtain ⟨_, _, _, _, hunlocked⟩ := id hq
  have hwords : data.take 64 = data := List.take_of_length_le hlen
  have hline : setLine (writeLine data.length extra) (onPort (fun p => { p with shortFlag := true }) s) =
      writing data.length extra s := rfl
  unfold writeFrame
  dsimp only
  rw [hwords, if_neg (by simpa using hne), beginFrame_quiet hq, hline, hcommit]
  exact tick_unlocked _ (by rw [← hunlocked, ← hkeys]; rfl)

/-- A burst within rooms 0x140 to 0x1FF has no other effect (R68, R80). -/
theorem writeFrame_watch {s : State} {data : List Word} (addr : BitVec 10) (extra : Nat) (hq : PortQuiet s) (h : 0x140 ≤ addr.toNat)
    (hlt : addr.toNat + data.length ≤ 0x200) (hne : data ≠ []) (hlen : data.length ≤ 64) :
    writeFrame addr data extra s = { s with
      wflight := s.wflight ++ burstFlights addr.toNat s.clocks.wclk data
      port := { s.port with gsdo := writeLine data.length extra, shortOp := none } } := by
  obtain ⟨_, _, hshort, _⟩ := id hq
  rw [writeFrame_quiet addr extra hq hne hlen (commitBurst_watch _ h hlt) rfl]
  exact endFrame_quiet { s with
    wflight := s.wflight ++ burstFlights addr.toNat s.clocks.wclk data
    port := { s.port with gsdo := writeLine data.length extra } } hshort

/-- One word written to a place that resets nothing (R68). -/
theorem writeFrame_one {s e : State} (addr : BitVec 10) (d : Word) (extra : Nat) (hq : PortQuiet s)
    (hreset : asksGateReset addr.toNat d = false) (hcommit : commitWord addr.toNat d .unsealed (writing 1 extra s) = e)
    (hkeys : e.keys = s.keys) : writeFrame addr [d] extra s = endFrame e := by
  refine writeFrame_quiet addr extra hq (List.cons_ne_nil d []) (by simp) ?_ hkeys
  rw [commitBurst, hreset, if_neg Bool.false_ne_true]
  exact hcommit

/-- A frame with an undefined opcode from an idle port (R60). -/
theorem undefinedFrame_quiet {s : State} (op : Byte) (extra : Nat) (hq : PortQuiet s) (hop : isFrameOp op = false) :
    undefinedFrame op extra s =
      { s with port := { s.port with badOp := true, gsdo := [.highZ (8 + extra)], shortOp := none } } := by
  obtain ⟨_, _, hshort, _, hunlocked⟩ := id hq
  unfold undefinedFrame
  rw [hop, if_neg Bool.false_ne_true, beginFrame_quiet hq, tick_unlocked _ (by exact hunlocked)]
  exact endFrame_quiet { s with port := { s.port with badOp := true, gsdo := _ } } hshort

/-- Settles O10: each WRITE by the commits of its words. -/
theorem gateWrites : Obligations.GateWrites := by
  unfold Obligations.GateWrites
  refine ⟨?_, ?_, ?_, ?_⟩
  · intro s addr data extra hq hlow hhigh hne hlen
    exact .of_gate (hears_of_quiet hq) rfl (writeFrame_watch addr extra hq hlow hhigh hne hlen) ⟨rfl, rfl⟩
  · intro s d extra hq
    obtain ⟨_, _, hshort, _⟩ := id hq
    have hwrite := writeFrame_one 0x042 d extra hq rfl rfl rfl
    exact .of_gate (hears_of_quiet hq) rfl
      (hwrite.trans (endFrame_quiet { s with port := { s.port with alertMask := _, gsdo := _ } } hshort)) rfl
  · intro s d extra hq
    obtain ⟨_, _, hshort, _⟩ := id hq
    have hwrite := writeFrame_one 0x101 d extra hq rfl rfl rfl
    exact .of_gate (hears_of_quiet hq) rfl
      (hwrite.trans (endFrame_quiet { s with port := { s.port with sealSkip := true, gsdo := _ } } hshort)) rfl
  · intro s op extra hq hop
    exact .of_gate (hears_of_quiet hq) rfl (undefinedFrame_quiet op extra hq hop) rfl


/-! ## Staging writes (R123, R124, R144) -/

/-- A write of an open region of an open granary lands as a delta, sealed or not (R123, R124). -/
theorem stageWrite_open {s : State} {b : Nat} (d : Word) (via : Via) (hst : s.gran.st ≠ .closed) (hb : stageRegion b = .open_) :
    stageWrite b d via s = { s with gran := storeDelta s.gran (b / 4) d } := by
  unfold stageWrite
  simp [hb, hst]

/-- G_STAGE_DATA steps its offset by one word (R144). -/
theorem stageData_open {s : State} (d : Word) (via : Via) (hst : s.gran.st ≠ .closed)
    (hb : stageRegion (4 * s.gran.offset.toNat) = .open_) : stageData d via s =
      { s with gran := { storeDelta s.gran s.gran.offset.toNat d with offset := s.gran.offset + 1 } } := by
  have hword : stageDataAt s.gran / 4 = s.gran.offset.toNat := Nat.mul_div_cancel_left _ (by decide)
  unfold stageData
  rw [stageWrite_open (b := stageDataAt s.gran) d via hst hb, hword]
  rfl

/-- G_STAGE_WINk addresses word `k` of the window that the offset lies in (R144). -/
theorem stageWin_open {s : State} {k : Nat} (d : Word) (via : Via) (hst : s.gran.st ≠ .closed)
    (hb : stageRegion (4 * (16 * (s.gran.offset.toNat / 16) + k)) = .open_) : stageWin k d via s =
      { s with gran := storeDelta s.gran (16 * (s.gran.offset.toNat / 16) + k) d } := by
  have hat : stageWinAt s.gran k = 4 * (16 * (s.gran.offset.toNat / 16) + k) := by unfold stageWinAt; omega
  unfold stageWin
  rw [hat, stageWrite_open d via hst hb, Nat.mul_div_cancel_left _ (by decide)]

/-! ## Short frames (R86) -/

/-- A STATUS that is cut short leaves its effect undone (R86). -/
theorem cutFrame_status {s : State} {n : Nat} (hq : PortQuiet s) (h : 1 ≤ n) (hlt : n < 48) :
    cutFrame .status n s = { s with port := { s.port with
      shortFlag := true, shortOp := none, gsdo := cutLine n (wordLine (statusWord s) 0) } } := by
  obtain ⟨_, _, _, _, hunlocked⟩ := id hq
  have hpart : (decide (n = 0) || decide (frameClocks .status ≤ n)) = false := by
    have hclocks : frameClocks .status = 48 := rfl
    simp [hclocks]; omega
  unfold cutFrame
  rw [hpart, if_neg Bool.false_ne_true]
  dsimp only [cutWord]
  rw [beginFrame_quiet hq, tick_unlocked (min n 12) (by exact hunlocked), tick_unlocked (n - 12) (by exact hunlocked)]
  rfl

/-- A SEALED WRITE that is cut short between its opcode and its verdict leaves its effect undone (R86, R98). -/
theorem cutFrame_sealedWrite {s : State} {n : Nat} (fb : BitVec 16) (d ctr : Word) (tag : DWord) (hq : PortQuiet s) (h : 8 ≤ n)
    (hlt : n < 240) : cutFrame (.sealedWrite fb d ctr tag) n s = { s with port := { s.port with
      shortFlag := true, shortOp := some opSealedWrite, gsdo := cutLine n (statusLine 248 0 0) } } := by
  obtain ⟨_, _, _, _, hunlocked⟩ := id hq
  have hpart : (decide (n = 0) || decide (frameClocks (.sealedWrite fb d ctr tag) ≤ n)) = false := by
    have hclocks : frameClocks (.sealedWrite fb d ctr tag) = 248 := rfl
    simp [hclocks]; omega
  unfold cutFrame
  rw [hpart, if_neg Bool.false_ne_true]
  dsimp only [sealedCut]
  rw [beginFrame_quiet hq, tick_unlocked _ (by exact hunlocked), if_neg (by omega), if_pos hlt]
  rfl

/-- The first clock of the frame after a short one records it (R86, R112). -/
theorem beginFrame_short {s : State} (hwin : s.wc.heldWin = none) (hshort : s.port.shortFlag = true) :
    beginFrame s = onPort (fun p => { p with
      aborts := satAdd p.aborts 1, grayAborts := p.grayAborts + 1
      lastCode := if p.shortOp.isSome then 0x04 else p.lastCode, lastOp := p.shortOp.getD p.lastOp, shortOp := none }) s := by
  have hpublish : publishHeld s = s := by simp [publishHeld, hwin]
  unfold beginFrame
  simp only [hpublish, hshort, if_true]

/-- Settles O11: the staging registers by where they land, the short frames by where they are cut. -/
theorem stagingWrites : Obligations.StagingWrites := by
  unfold Obligations.StagingWrites
  refine ⟨?_, ?_, ?_, ?_, ?_⟩
  · intro s d via hg hst hregion
    exact .of_gate hg rfl (stageData_open d via hst hregion) rfl
  · intro s k d via hg hst hregion
    exact .of_gate hg rfl (stageWin_open d via hst hregion) rfl
  · intro s clocks hq h hlt
    exact .of_gate (hears_of_quiet hq) rfl (cutFrame_status hq h hlt) rfl
  · intro s fb d ctr tag clocks hq h hlt
    exact .of_gate (hears_of_quiet hq) rfl (cutFrame_sealedWrite fb d ctr tag hq h hlt) rfl
  · intro s extra hlive hpins hwin hunlocked hshort
    have hbegin := beginFrame_short hwin hshort
    have hident := oneWordFrame_unlocked (fun _ => Config.ident) extra (by rw [hbegin]; exact hunlocked)
    rw [hbegin] at hident
    exact .of_gate ⟨hlive, hpins⟩ rfl hident ⟨rfl, rfl, rfl, rfl⟩


/-! ## Key commands (R88, R99, R105, R106, R114) -/

theorem slotOf_putSlot_same (k : Seal) (n : Nat) (v : KeySlot) : slotOf (putSlot k n v) n = v := sget_sput_same _ _ _ _

/-- Slots put one after the other: each of them reads back, and the others stay. -/
theorem slotOf_foldl_putSlot (f : Nat → KeySlot) (ns : List Nat) (k : Seal) (m : Nat) :
    slotOf (ns.foldl (fun k n => putSlot k n (f n)) k) m = if m ∈ ns then f m else slotOf k m := by
  induction ns generalizing k with
  | nil => rfl
  | cons n ns ih =>
    have hput : slotOf (putSlot k n (f n)) m = if n = m then f n else slotOf k m := sget_sput _ _ _ _ _
    rw [List.foldl_cons, ih, hput]
    by_cases hmem : m ∈ ns
    · simp [hmem]
    · by_cases hn : n = m
      · simp [hn]
      · simp [hmem, hn, Ne.symm hn]

/-- Slots 0 to 3 put one after the other all read back. -/
theorem slotOf_foldl_putSlot_all (f : Nat → KeySlot) (k : Seal) {m : Nat} (hm : m < 4) :
    slotOf ([0, 1, 2, 3].foldl (fun k n => putSlot k n (f n)) k) m = f m := by
  rw [slotOf_foldl_putSlot, if_pos]
  simp only [List.mem_cons, List.not_mem_nil, or_false]
  omega

/-- The state of an accepted frame once its books are closed (R98, R112). -/
def accepted (f : SealFrame) (ctr : Word) (n extra : Nat) (s : State) : State :=
  { s with keys := advanceCounter s.keys n ctr, port := acceptedPort s f extra }

theorem sealedBooks_accepted {s : State} (f : SealFrame) (ctr : Word) (n extra : Nat) (h : s.port.shortFlag = false) :
    endFrame (sealedBooks f { code := 0, slot := some n, effect := true } 0 ctr (acceptedLine f 0 extra s)) =
      accepted f ctr n extra s :=
  endFrame_quiet { s with
    keys := advanceCounter s.keys n ctr
    port := { s.port with
      lastCode := 0, lastOp := sealedOp f, grayOk := s.port.grayOk + 1, gsdo := statusLine (sealedClocks f) 0 extra } } h

/-- A frame whose end has been noted ends once. -/
theorem endFrame_ended {s : State} (hflag : s.port.shortFlag = false) (hop : s.port.shortOp = none) : endFrame s = s := by
  calc endFrame s = { s with port := { s.port with shortFlag := false, shortOp := none } } := rfl
    _ = s := by rw [← hflag, ← hop]

/-- An accepted command that keeps the key-load register: its counter advances, then it has its effect (R98, R106). -/
theorem sealedFrame_command {s e : State} {code : BitVec 16} {arg ctr : Word} {tag : DWord} {n : Nat}
    (h : Accepts s (.command code arg) ctr tag n) (mon : ProgMon) (extra : Nat) (hlong : isLongCommand (.command code arg) = false)
    (hload : code ≠ 0x14) (heffect : commandEffect code.toNat arg n ctr (accepted (.command code arg) ctr n extra s) = e)
    (hport : e.port = acceptedPort s (.command code arg) extra) : sealedFrame (.command code arg) ctr tag mon extra s = e := by
  obtain ⟨⟨_, _, hshort, _⟩, _⟩ := id h
  have hclear : onKeys (clearLoad (.command code arg)) e = e := congrArg (fun k => { e with keys := k }) (if_neg hload)
  have hended : endFrame e = e :=
    endFrame_ended ((congrArg GatePort.shortFlag hport).trans hshort) (congrArg GatePort.shortOp hport)
  calc sealedFrame (.command code arg) ctr tag mon extra s
      = endFrame (onKeys (clearLoad (.command code arg)) (commandEffect code.toNat arg n ctr (endFrame (sealedBooks (.command code arg)
          { code := 0, slot := some n, effect := true } 0 ctr (acceptedLine (.command code arg) 0 extra s))))) := by
        rw [sealedFrame_accepted h mon extra hlong]
        unfold sealedCommit
        dsimp only
        rw [hlong]
        rfl
    _ = e := by rw [sealedBooks_accepted _ _ _ _ hshort, heffect, hclear, hended]

/-- KEY_RETIRE's code runs its effect (R105). -/
theorem commandEffect_retire (arg : Word) (n : Nat) (ctr : Word) (s : State) : commandEffect 0x15 arg n ctr s =
    { s with gran := (retireSlot s.gran s.keys (arg.toNat % 4)).1, keys := (retireSlot s.gran s.keys (arg.toNat % 4)).2 } := rfl

/-- KEY_DECOMMISSION's code runs its effect (R106). -/
theorem commandEffect_decommission (arg : Word) (n : Nat) (ctr : Word) (s : State) : commandEffect 0x16 arg n ctr s =
    { s with gran := (decommission s.gran s.keys).1, keys := (decommission s.gran s.keys).2 } := rfl

/-- An unknown command code fails the format test, whatever the frame carries (R88, R97). -/
theorem verdictOf_unknown {s : State} {code : BitVec 16} (arg ctr : Word) (tag : DWord) (hst : s.gran.st ≠ .closed)
    (hcode : isKnownCommand code.toNat = false) :
    verdictOf (.command code arg) ctr tag s = { code := 0x0A, slot := none, effect := false } :=
  (if_neg hst).trans (if_pos (by simp [badFormat, hcode]))

theorem isLongCommand_unknown {code : BitVec 16} (arg : Word) (h : isKnownCommand code.toNat = false) :
    isLongCommand (.command code arg) = false := by
  simp only [isKnownCommand, Bool.or_eq_false_iff, beq_eq_false_iff_ne] at h
  obtain ⟨⟨h1, h2⟩, _⟩ := h
  have hne1 : (code == 1) = false := beq_false_of_ne fun hc => h1 (by rw [hc]; rfl)
  have hne2 : (code == 2) = false := beq_false_of_ne fun hc => h2 (by rw [hc]; rfl)
  simp only [isLongCommand, hne1, hne2, Bool.or_self]

/-- A sealed command frame with an unknown code has only the books of a refused frame (R88). -/
theorem sealedFrame_unknown {s : State} {code : BitVec 16} (arg ctr : Word) (tag : DWord) (mon : ProgMon) (extra : Nat)
    (hq : PortQuiet s) (hst : s.gran.st ≠ .closed) (hcode : isKnownCommand code.toNat = false) :
    sealedFrame (.command code arg) ctr tag mon extra s = { s with port := refusedPort s (.command code arg) 0x0A extra } := by
  rw [sealedFrame_refused hq (verdictOf_unknown arg ctr tag hst hcode) (by decide) (by decide),
    noteNv_short _ _ _ (isLongCommand_unknown arg hcode)]

/-- An installed key starts at its slot's old ceiling, and its counter is not lowered (R96, R114). -/
theorem slotOf_installSlot (g : Granary) (k : Seal) (n : Nat) (key : BitVec 128) (rights : BitVec 6) :
    slotOf (installSlot g k n key rights).2 n =
      { key := key, st := .active, rights := rights, h := (slotOf k n).h + 1024
        c := if (slotOf k n).h.toNat < (slotOf k n).c.toNat then (slotOf k n).c else (slotOf k n).h } :=
  slotOf_putSlot_same _ _ _

/-- A seal engine whose G_KEYINIT registers are cleared, with the result of the last GO (R114). -/
def initCleared (r : BitVec 3) (k : Seal) : Seal := { k with init0 := 0, init1 := 0, init2 := 0, init3 := 0, initResult := r }

theorem slotOf_initCleared (r : BitVec 3) (k : Seal) (n : Nat) : slotOf (initCleared r k) n = slotOf k n := rfl

/-- The first key of an empty engine goes to slot 0 with every right (R114). -/
theorem firstKey_empty {s : State} (hst : s.gran.st ≠ .closed) (hempty : ∀ m < 4, (slotOf s.keys m).st = .empty)
    (hkey : initKey s.keys ≠ 0) : firstKey s = { s with
      gran := (installSlot s.gran s.keys 0 (initKey s.keys) 0x3F).1
      keys := initCleared 1 (installSlot s.gran s.keys 0 (initKey s.keys) 0x3F).2 } := by
  have hany : ([0, 1, 2, 3].any fun n => (slotOf s.keys n).st != .empty) = false := by
    simp [hempty 0, hempty 1, hempty 2, hempty 3]
  unfold firstKey
  dsimp only
  rw [if_neg hst, hany, if_neg Bool.false_ne_true]
  exact if_neg hkey

/-- The last edges of a lockout end it (R99). -/
theorem tick_lockoutEnd {s : State} (h : s.keys.locked = true) :
    tick s.keys.lockLeft.toNat s = { s with keys := { s.keys with lockLeft := 0, locked := false, consec := 0 } } := by
  unfold tick onKeys lockTick
  simp [h]

/-- Settles O13: the effect of each command of the seal engine. -/
theorem keyCommands : Obligations.KeyCommands := by
  unfold Obligations.KeyCommands
  refine ⟨?_, ?_, ?_, ?_, ?_⟩
  · intro s arg ctr tag extra n h
    have hslot := slotOf_putSlot_same (advanceCounter s.keys n ctr) (arg.toNat % 4)
      { slotOf (advanceCounter s.keys n ctr) (arg.toNat % 4) with key := 0, st := .retired, rights := 0 }
    exact .of_gate (hears_of_quiet h.1) rfl
      (sealedFrame_command h noMonitors extra rfl (by decide) (commandEffect_retire _ _ _ _) rfl)
      ⟨congrArg KeySlot.st hslot, congrArg KeySlot.key hslot, congrArg KeySlot.rights hslot, rfl⟩
  · intro s arg ctr tag extra n h
    exact .of_gate (hears_of_quiet h.1) rfl
      (sealedFrame_command h noMonitors extra rfl (by decide) (commandEffect_decommission _ _ _ _) rfl)
      ⟨fun m hm => slotOf_foldl_putSlot_all (fun _ => .init) _ hm, rfl⟩
  · intro s hg hst hempty hkey
    exact .of_gate hg rfl (firstKey_empty hst hempty hkey)
      ⟨(slotOf_initCleared _ _ _).trans (slotOf_installSlot _ _ _ _ _), rfl, rfl, rfl, rfl, rfl, rfl⟩
  · intro s code arg ctr tag extra hq hst hcode
    exact .of_gate (hears_of_quiet hq) rfl (sealedFrame_unknown arg ctr tag noMonitors extra hq hst hcode) rfl
  · intro s hg hlocked
    exact .of_gate hg rfl (tick_lockoutEnd hlocked) rfl

/-! ## Bits and fields of a written word -/

theorem bitOf_toNat {w : Nat} (v : BitVec w) (i : Nat) : bitOf v.toNat i = v.getLsbD i := by
  rw [← BitVec.testBit_toNat, Nat.testBit_eq_decide_div_mod_eq, bitOf, field_eq]
  rfl

/-- A word's high half is its quotient by 65,536. -/
theorem field_high (d : Word) : field d.toNat 16 16 = d.toNat / 65536 := by
  have hd := d.isLt
  rw [field_eq]
  omega

/-! ## The end of an escalation (R411, R412, R415) -/

/-- The escalation registers once an escalation has ended without an answer (R411). -/
def Escalation.ended (outcome : Nat) (e : Escalation) : Escalation :=
  { e with
    outcome := BitVec.ofNat 4 outcome, endedIn := BitVec.ofNat 3 (escStateCode e.st), st := .idle, tenant := e.latTenant
    rule := e.latRule, fetched := false, answerDue := none }

/-- The hold ends, and only the loft knows of it (R412). -/
theorem endHold_ends (s : State) : ∃ l, l.hold = false ∧ endHold s = { s with loft := l } := by
  unfold endHold
  cases h : s.loft.hold with
  | false => exact ⟨s.loft, h, rfl⟩
  | true =>
    rw [if_pos rfl]
    split <;> exact ⟨_, rfl, rfl⟩

/-- An escalation that ends without an answer raises its alert and ends its hold (R411, R412). -/
theorem endEscalation_unanswered (outcome : Nat) (s : State) : ∃ l, l.hold = false ∧ endEscalation outcome none s = { s with
    esc := s.esc.ended outcome, loft := l, alert := putBit s.alert causeEscalation true } := by
  obtain ⟨l, hhold, hend⟩ := endHold_ends { s with esc := s.esc.ended outcome, alert := putBit s.alert causeEscalation true }
  exact ⟨l, hhold, hend⟩

/-- A withdrawal ends an escalation that has not been fetched, and leaves the escalation's settings (R415). -/
theorem escWithdraw_frame (s : State) : ∃ e l a, escWithdraw s = { s with esc := e, loft := l, alert := a }
    ∧ e.en = s.esc.en ∧ e.waitMs = s.esc.waitMs ∧ (s.esc.fetched = false → e.st = .idle) := by
  unfold escWithdraw endUnfetched
  split
  · obtain ⟨l, _, hend⟩ := endEscalation_unanswered outWithdrawn s
    exact ⟨_, l, _, hend, rfl, rfl, fun _ => rfl⟩
  · rename_i hnot
    refine ⟨s.esc, s.loft, s.alert, rfl, rfl, rfl, fun hfetched => ?_⟩
    by_contra hst
    exact hnot (by simp [hst, hfetched])

/-! ## GATE and WATCH resets (R155, R157, R457) -/

/-- Slots put one after the other change no more than the slots. -/
theorem foldl_putSlot_frame (f : Nat → KeySlot) (ns : List Nat) (k : Seal) :
    ∃ ss, ns.foldl (fun k n => putSlot k n (f n)) k = { k with slots := ss } := by
  induction ns generalizing k with
  | nil => exact ⟨k.slots, rfl⟩
  | cons n ns ih => exact ih (putSlot k n (f n))

/-- The seal engine after a GATE reset: slots loaded, key-load and G_KEYINIT registers cleared, the lockout kept (R113, R157). -/
def reloaded (g : Granary) (k : Seal) : Seal :=
  { loadSlots g k with loadKey := 0, parts := 0, init0 := 0, init1 := 0, init2 := 0, init3 := 0, initResult := 0 }

theorem slotOf_reloaded (g : Granary) (k : Seal) {n : Nat} (hn : n < 4) : slotOf (reloaded g k) n = loadSlot g n := by
  have hkept : ∀ k : Seal, slotOf { k with
      loadKey := 0, parts := 0, init0 := 0, init1 := 0, init2 := 0, init3 := 0, initResult := 0 } n = slotOf k n := fun _ => rfl
  exact (hkept _).trans (slotOf_foldl_putSlot_all (loadSlot g) k hn)

theorem reloaded_lockout (g : Granary) (k : Seal) : (reloaded g k).locked = k.locked ∧ (reloaded g k).lockLeft = k.lockLeft := by
  obtain ⟨ss, hload⟩ := foldl_putSlot_frame (loadSlot g) [0, 1, 2, 3] k
  have hslots : loadSlots g k = { k with slots := ss } := hload
  unfold reloaded
  rw [hslots]
  exact ⟨rfl, rfl⟩

/-- The state after a GATE reset, with what a withdrawn escalation leaves (R157). -/
def gateCleared (e : Escalation) (l : Loft) (a : BitVec 13) (s : State) : State :=
  { s with
    esc := e, loft := l, alert := a
    gran := { s.gran with deltas := [], upS := [], offset := 0 }
    keys := reloaded { s.gran with deltas := [], upS := [], offset := 0 } s.keys
    port := { GatePort.reset with
      grayAborts := s.port.grayAborts, grayFails := s.port.grayFails, grayOk := s.port.grayOk, grayCommits := s.port.grayCommits
      dieLo := s.port.dieLo, dieHi := s.port.dieHi, gsdo := s.port.gsdo }
    pwr := { s.pwr with block := 0, abort := 0, conflicts := 0, conflict := .reset }
    wtally := { s.wtally with shadow := [] }
    seen := (s.seen &&& watchSeen) ||| 1 }

theorem gateResetEffect_eq (s : State) : ∃ e l a, gateResetEffect s = gateCleared e l a s
    ∧ e.en = false ∧ e.waitMs = 3 ∧ (s.esc.fetched = false → e.st = .idle) := by
  obtain ⟨e, l, a, hwithdraw, hen, hwait, hidle⟩ :=
    escWithdraw_frame (onEsc (fun e => { e with en := false, keep := false, rules := 0, waitMs := 3, tenantReg := 0 }) s)
  refine ⟨e, l, a &&& watchAlerts, ?_, hen, hwait, hidle⟩
  unfold gateResetEffect
  dsimp only
  rw [hwithdraw]
  rfl

/-- The state after a WATCH reset with this front end (R157). -/
def watchCleared (f : FrontEnd) (s : State) : State :=
  { s with
    fe := f, wc := { WatchCores.reset with aonclk := s.wc.aonclk }, bell := .reset, loft := .reset
    esc := { Escalation.reset with
      en := s.esc.en, keep := s.esc.keep, rules := s.esc.rules, waitMs := s.esc.waitMs, tenantReg := s.esc.tenantReg }
    wtally := { WatchTally.reset with
      shadow := s.wtally.shadow
      refAborts := s.port.grayAborts, refFails := s.port.grayFails, refOk := s.port.grayOk, refCommits := s.port.grayCommits }
    alert := s.alert &&& ~~~ watchAlerts, seen := s.seen &&& ~~~ watchSeen, wflight := [] }

/-- A WATCH reset starts the hop grid again where AONCLK runs (R498). -/
theorem watchReset_eq (s : State) : ∃ f, watchReset s = watchCleared f s ∧ f.gridOn = s.wc.aonclk := by
  unfold watchReset
  cases h : s.wc.aonclk with
  | false => exact ⟨.reset, by rw [watchCleared, h]; rfl, rfl⟩
  | true => exact ⟨_, by rw [watchCleared, h]; rfl, rfl⟩

/-- G_RESET with its key (R155). -/
theorem writeReset_keyed {d : Word} (s : State) (hkey : d.toNat / 65536 = 0x6A7E) : writeReset d s =
    (if d.getLsbD 0 then gateResetEffect else id) (if d.getLsbD 1 then watchReset s else s) := by
  unfold writeReset
  have hmatch : field d.toNat 16 16 = Config.resetKey.toNat := (field_high d).trans hkey
  rw [if_pos hmatch, bitOf_toNat, bitOf_toNat]
  cases d.getLsbD 0 <;> rfl

theorem writeReset_unkeyed {d : Word} (s : State) (hkey : d.toNat / 65536 ≠ 0x6A7E) : writeReset d s = s :=
  if_neg (by rw [field_high]; exact hkey)

/-- A command that leaves the state leaves the sticky bits (R149). -/
theorem settle_self (s : State) : settle s s = s := by
  have hseen : s.seen ||| (ready s &&& ~~~ (ready s)) = s.seen := by simp
  calc settle s s = { s with seen := s.seen ||| (ready s &&& ~~~ (ready s)) } := rfl
    _ = s := by rw [hseen]

/-- Without its key G_RESET does nothing (R155). -/
theorem fin_writeReset_unkeyed {d : Word} {s : State} (hlive : Live s) (hkey : d.toNat / 65536 ≠ 0x6A7E) :
    fin s (fromGate (writeReset d) s) = .next s := by
  have hgate : fromGate (writeReset d) s = s := by
    unfold fromGate
    rw [writeReset_unkeyed s hkey, ite_self]
  rw [hgate, fin_live s hlive, settle_self]

/-- Settles O18: the state after each reset, written out. -/
theorem gateAndWatchResets : Obligations.GateAndWatchResets := by
  unfold Obligations.GateAndWatchResets
  refine ⟨?_, ?_, ?_, ?_⟩
  · intro s d hg hkey h0 h1
    obtain ⟨e, l, a, hreset, hen, hwait, hidle⟩ := gateResetEffect_eq s
    obtain ⟨hlocked, hleft⟩ := reloaded_lockout { s.gran with deltas := [], upS := [], offset := 0 } s.keys
    have hwrite := writeReset_keyed s hkey
    rw [h0, h1, if_pos rfl, if_neg Bool.false_ne_true, hreset] at hwrite
    exact .of_gate hg rfl hwrite ⟨rfl, fun n hn => slotOf_reloaded _ _ hn, hlocked, hleft, rfl, rfl, rfl, rfl, rfl, rfl, rfl, hen, hwait,
      hidle, fun _ _ => rfl, rfl⟩
  · intro s d hg hkey h0 h1
    obtain ⟨f, hreset, hgrid⟩ := watchReset_eq s
    have hwrite := writeReset_keyed s hkey
    rw [h0, h1, if_pos rfl, if_neg Bool.false_ne_true, hreset] at hwrite
    exact .of_gate hg rfl hwrite ⟨rfl, rfl, rfl, rfl, rfl, rfl, rfl, hgrid, rfl, rfl⟩
  · intro s d hg hkey h0 h1 c hc
    obtain ⟨f, hwatch, _⟩ := watchReset_eq s
    obtain ⟨e, l, a, hgate, _⟩ := gateResetEffect_eq (watchCleared f s)
    obtain ⟨hlocked, _⟩ := reloaded_lockout { s.gran with deltas := [], upS := [], offset := 0 } s.keys
    have hwrite := writeReset_keyed s hkey
    rw [h0, h1, if_pos rfl, if_pos rfl, hwatch, hgate] at hwrite
    simp only [List.mem_cons, List.not_mem_nil, or_false] at hc
    obtain rfl | rfl := hc <;> exact .of_gate hg rfl hwrite ⟨rfl, rfl, rfl, rfl, rfl, hlocked⟩
  · intro s d hlive hkey
    exact ⟨fin_writeReset_unkeyed hlive hkey, fin_writeReset_unkeyed hlive hkey⟩

/-! ## Tenant banks (R85) -/

theorem writeSealed_block {n : Nat} (d : Word) (s : State) (hn : n < 8) :
    writeSealed (0x288 + n) d s =
      { s with pwr := { s.pwr with block := putBankWord s.pwr.block n d } } := by
  have hne : ∀ k < 0x288, 0x288 + n ≠ k := fun k hk => by omega
  have hroom : 0x288 + n ≤ 0x28F := by omega
  simp [writeSealed, hne, hroom, onPwr]

theorem writeSealed_abort {n : Nat} (d : Word) (s : State) (hn : n < 8) :
    writeSealed (0x298 + n) d s =
      { s with pwr := { s.pwr with abort := putBankWord s.pwr.abort n d } } := by
  have hne : ∀ k < 0x298, 0x298 + n ≠ k := fun k hk => by omega
  have habove : ¬ 0x298 + n ≤ 0x28F := by omega
  have hroom : 0x298 + n ≤ 0x29F := by omega
  simp [writeSealed, hne, hroom, habove, onPwr]

/-- An event of a tenant whose event ring is off is lost, and counted (R348). -/
theorem sendEvent_ringOff {s : State} {t : Nat} (code id arg : Nat) (detail : List Byte)
    (h : (ringOf s (4 * t + 2)).en = false) :
    sendEvent t code id arg detail s = putTenant t { tenantOf s t with lost := satAdd (tenantOf s t).lost 1 } s := by
  have hroom : eventRoom s t = false := by simp [eventRoom, eventRing, h]
  have hflush : flushLost t s = s := by simp [flushLost, hroom]
  unfold sendEvent
  rw [hflush]
  dsimp only
  rw [hroom, if_neg Bool.false_ne_true]

/-- A tenant that the loom finds blocked, and not aborted, is blocked from this lc on (R85, R361). -/
theorem sampleBlock_blocks {s : State} {t : Nat} (hruns : orderingRuns s.pwr = true) (hblock : s.pwr.block.getLsbD t = true)
    (habort : s.pwr.abort.getLsbD t = false) (hwas : (tenantOf s t).blocked = false) (hring : (ringOf s (4 * t + 2)).en = false) :
    sampleBlock t s = putTenant t { tenantOf s t with blocked := true, abort := false, lost := satAdd (tenantOf s t).lost 1 }
      (putTenant t { tenantOf s t with blocked := true, abort := false } s) := by
  calc sampleBlock t s = sendEvent t evBlocked 0 1 [] (putTenant t { tenantOf s t with blocked := true, abort := false } s) := by
        unfold sampleBlock
        dsimp only
        rw [hruns, hblock, habort, hwas]
        rfl
    _ = _ := by rw [sendEvent_ringOff _ _ _ _ (by exact hring), tenantOf_putTenant_same]

/-- The sticky ready bits are no tenant's. -/
theorem tenantOf_settle (s e : State) (t : Nat) : tenantOf (settle s e) t = tenantOf e t := rfl

/-! ## Tenant resets (R163, R360) -/

/-- The jobs of `t` that have not ended are flagged, and will leave no record. -/
def AllSilenced (t : Nat) (js : List Job) : Prop :=
  ∀ j ∈ js, j.tenant = t → j.ended = none → j.ending.isSome = true ∧ j.silent = true

theorem flagJobs_silences (t : Nat) (code : Byte) (s : State) :
    AllSilenced t (flagJobs (fun j => j.tenant == t) code true s).loom.jobs := by
  intro j hj htenant hended
  obtain ⟨i, _, rfl⟩ := List.mem_map.mp hj
  dsimp only at htenant hended ⊢
  split at htenant <;> rename_i hflag
  · rw [if_pos hflag]
    exact ⟨rfl, Bool.or_true _⟩
  · rw [if_neg hflag] at hended
    exact absurd (by simp [htenant, hended]) hflag

/-- The request of a TENANT reset is noted with the side that asked first, and silences the tenant's work (R163). -/
theorem requestTenantReset_effect (t : Nat) (gate : Bool) (s : State) :
    (tenantOf (requestTenantReset t gate s) t).treset = some ((tenantOf s t).treset.getD gate)
      ∧ AllSilenced t (requestTenantReset t gate s).loom.jobs :=
  ⟨congrArg Tenant.treset (sget_sput_same _ _ _ _), flagJobs_silences t 0x23 _⟩

/-- The low half of a doorbell's value holds its key (R343). -/
theorem field_low (v : DWord) : field v.toNat 0 16 = v.toNat % 65536 := by simp [field_eq]

/-- A host's TENANT reset by its doorbell (R343, R360). -/
theorem hostTreset_doorbell {s : State} (i : BitVec 8) {v : DWord} (hreset : resetRuns s.pwr = false)
    (hkey : v.toNat % 65536 = 0x5E7A) : hostTreset (.doorbell i v) s = requestTenantReset i.toNat false s := by
  unfold hostTreset
  rw [hreset, if_neg Bool.false_ne_true]
  exact if_pos ((field_low v).trans hkey)

/-- At L0, with no LOOM reset, TRESET asks for its tenant's reset at once (R156, R163). -/
theorem gateTreset_running {s : State} (t : Nat) (hst : s.pwr.st = .l0) (hreset : resetRuns s.pwr = false) :
    gateTreset t s =
      requestTenantReset t true (onPwr (fun p => { p with reqTreset := true, tresetFor := insRising t p.tresetFor }) s) := by
  unfold gateTreset
  simp [hst, hreset]

/-- G_LOOM_REQ shows that a reset of tenant `i` is asked for (R168). -/
def tresetShown (i : BitVec 8) : State → State :=
  onPwr (fun p => { p with reqTenant := i, reqTreset := true, tresetFor := insRising i.toNat p.tresetFor })

/-- TRESET written with the TARGET and CUT that stand (R163, R168). -/
theorem writeLoomReq_treset {s : State} (i : BitVec 8) (hst : s.pwr.st = .l0) (hreset : resetRuns s.pwr = false) :
    writeLoomReq (loomReqData s s.pwr.reqTarget s.pwr.reqCut false (some i)) s =
      gateTarget (loomStateOf s.pwr.reqTarget.toNat) (requestTenantReset i.toNat true (tresetShown i s)) := by
  obtain ⟨htarget, hcut, hbit, htenant, hsome⟩ := loomReqData_fields s s.pwr.reqTarget s.pwr.reqCut false (some i)
  unfold writeLoomReq
  simp only [htarget, hcut, hbit, htenant, hsome, Option.getD_some, Option.isSome_some, BitVec.ofNat_toNat, BitVec.setWidth_eq,
    Bool.false_eq_true, if_false, if_true]
  exact congrArg (gateTarget _) (gateTreset_running i.toNat hst hreset)

/-! ## The escalation's control (R415) -/

/-- G_ESC_CTRL's fields (R415). -/
def Escalation.controlled (d : Word) (e : Escalation) : Escalation :=
  { e with
    en := d.getLsbD 0, keep := d.getLsbD 1, rules := BitVec.ofNat 8 (d.toNat / 256), waitMs := BitVec.ofNat 4 (d.toNat / 65536) }

theorem writeEscCtrl_eq (d : Word) (s : State) : writeEscCtrl d s =
    (if d.getLsbD 0 then id else escWithdraw) (onEsc (Escalation.controlled d) s) := by
  unfold writeEscCtrl
  dsimp only
  rw [bitOf_toNat, bitOf_toNat]
  by_cases h : d.getLsbD 0 = true
  · rw [if_pos h, if_pos h]; rfl
  · rw [if_neg h, if_neg h]; rfl

/-- With no escalation in progress nothing is withdrawn. -/
theorem escWithdraw_idle {s : State} (h : s.esc.st = .idle) : escWithdraw s = s := if_neg (by simp [h])

/-- An escalation whose entry is not fetched is withdrawn (R415). -/
theorem escWithdraw_unfetched {s : State} (hst : s.esc.st ≠ .idle) (hfetched : s.esc.fetched = false) :
    escWithdraw s = endEscalation outWithdrawn none s := if_pos (by simp [hst, hfetched])

/-- A write of G_ESC_CTRL with no escalation in progress only sets its fields. -/
theorem writeEscCtrl_idle {s : State} (d : Word) (h : s.esc.st = .idle) :
    writeEscCtrl d s = onEsc (Escalation.controlled d) s := by
  rw [writeEscCtrl_eq]
  cases d.getLsbD 0 with
  | false => exact escWithdraw_idle h
  | true => rfl

/-- Settles O24: the banks by their words, the resets by their requests, the escalation by its withdrawal. -/
theorem tenantControl : Obligations.TenantControl := by
  unfold Obligations.TenantControl
  refine ⟨?_, ?_, ?_, ?_, ?_, ?_, ?_⟩
  · intro s n d hg
    exact .of_gate hg rfl (writeSealed_block d s n.isLt) rfl
  · intro s n d hg
    exact .of_gate hg rfl (writeSealed_abort d s n.isLt) rfl
  · intro s i hlive hruns hblock habort hwas hring
    exact .of_fin hlive (congrArg (fin s) (sampleBlock_blocks hruns hblock habort hwas hring)) 
      ⟨(tenantOf_settle _ _ _).trans (tenantOf_putTenant_same _ _ _), rfl⟩
  · intro s i v hheard hreset hkey
    obtain ⟨⟨hlive, _⟩, _⟩ := id hheard
    have hexec : exec (.hostTenantReset (.doorbell i v)) s = fin s (requestTenantReset i.toNat false s) :=
      congrArg (fin s) ((hostPosts_heard _ _ hheard).trans (hostTreset_doorbell i hreset hkey))
    obtain ⟨htreset, hjobs⟩ := requestTenantReset_effect i.toNat false s
    exact .of_fin hlive hexec ⟨(congrArg Tenant.treset (tenantOf_settle _ _ _)).trans htreset, hjobs, rfl⟩
  · intro s i hg hst hreset
    have hwrite := writeLoomReq_treset i hst hreset
    rw [gateTarget_held _ (by simp [requestTenantReset, flagJobs, tresetShown, hst])] at hwrite
    obtain ⟨htreset, hjobs⟩ := requestTenantReset_effect i.toNat true (tresetShown i s)
    exact .of_gate hg rfl hwrite ⟨(congrArg Tenant.treset (tenantOf_settle _ _ _)).trans htreset, rfl, rfl, hjobs⟩
  · intro s d hg hst
    exact .of_gate hg rfl (writeEscCtrl_idle d hst) rfl
  · intro s d hg hst hfetched howed hen
    obtain ⟨l, hhold, hend⟩ := endEscalation_unanswered outWithdrawn (onEsc (Escalation.controlled d) s)
    have hbusy : (onEsc (Escalation.controlled d) s).esc.st ≠ .idle := by simp [Escalation.controlled, hst]
    have hwrite := writeEscCtrl_eq d s
    rw [hen, if_neg Bool.false_ne_true, escWithdraw_unfetched hbusy hfetched, hend] at hwrite
    exact .of_gate hg rfl hwrite ⟨rfl, rfl, congrArg (fun st => BitVec.ofNat 3 (escStateCode st)) hst, hhold,
      getLsbD_putBit _ 12 12 true (by decide)⟩

/-! ## Counters of the watchman (R440, R442, R451, R452) -/

theorem bump_zero (c : Counter) : bump 0 c = c := by
  have hc := c.count.isLt
  unfold bump
  rw [Nat.add_zero, if_pos hc, BitVec.ofNat_toNat, BitVec.setWidth_eq]

/-- A counter that does not pass its top counts every event (R440). -/
theorem bump_count {n : Nat} {c : Counter} (h : c.count.toNat + n < 2 ^ 48) : (bump n c).count.toNat = c.count.toNat + n := by
  unfold bump
  rw [if_pos h]
  exact Nat.mod_eq_of_lt h

theorem rollWatch_new {clk : Nat} {w : WatchTally} (h : w.evClk ≠ clk) :
    rollWatch clk w = { w with evClk := clk, evs := [], was := w.cnt, cleared := false } := if_neg h

theorem rollWatch_same {clk : Nat} {w : WatchTally} (h : w.evClk = clk) : rollWatch clk w = w := if_pos h

/-- A snapshot finds the present count where no clear of this clock hides it (R452). -/
theorem wtallyOf_uncleared {s : State} (n : Nat) (h : s.wtally.cleared = false ∨ s.wtally.evClk ≠ s.clocks.wclk) :
    wtallyOf s n = sget .init s.wtally.cnt n := by
  unfold wtallyOf
  obtain h | h := h <;> simp [h]

/-- In the clock of a clear a snapshot finds the counts before that clock (R452). -/
theorem wtallyOf_cleared {s : State} (n : Nat) (h : s.wtally.cleared = true) (hclk : s.wtally.evClk = s.clocks.wclk) :
    wtallyOf s n = sget .init s.wtally.was n := by
  unfold wtallyOf
  simp [h, hclk]

/-- A clear changes the counts of its own counter, the books of the clock, and nothing else (R451). -/
theorem clearWatchTally_eq (n clk src : Nat) (w : WatchTally) : clearWatchTally n clk src w =
    { rollWatch clk w with
      cnt := sput .init w.cnt n (bump (sget 0 (rollWatch clk w).evs src) .init), cleared := true } := by
  have hcnt : (rollWatch clk w).cnt = w.cnt := by unfold rollWatch; split <;> rfl
  unfold clearWatchTally
  rw [← hcnt]

section clear
variable (n clk src : Nat) (w : WatchTally)

/-- A clear of another clock than the last events' leaves its counter at zero, and keeps the counts as a snapshot shows them. -/
theorem clearWatchTally_new (h : w.evClk ≠ clk) : clearWatchTally n clk src w =
    { w with evClk := clk, evs := [], was := w.cnt, cleared := true, cnt := sput .init w.cnt n .init } := by
  rw [clearWatchTally_eq, rollWatch_new h]
  have hinit : bump (sget 0 ([] : Sparse Nat) src) .init = .init := bump_zero .init
  rw [hinit]

/-- A clear in the clock of events leaves those that its source takes (R451). -/
theorem clearWatchTally_same (h : w.evClk = clk) : clearWatchTally n clk src w =
    { w with cleared := true, cnt := sput .init w.cnt n (bump (sget 0 w.evs src) .init) } := by
  rw [clearWatchTally_eq, rollWatch_same h]

/-- A clear touches the counts and the books of its clock alone. -/
theorem clearWatchTally_frame : ∃ c k evs was, clearWatchTally n clk src w =
    { w with cnt := c, evClk := k, evs := evs, was := was, cleared := true } := by
  by_cases h : w.evClk = clk
  · exact ⟨_, _, _, _, clearWatchTally_same n clk src w h⟩
  · exact ⟨_, _, _, _, clearWatchTally_new n clk src w h⟩

/-- A clear leaves in its counter what its source had in this clock, and the other counters alone (R451). -/
theorem clearWatchTally_cnt (m : Nat) : sget .init (clearWatchTally n clk src w).cnt m =
    if n = m then (if w.evClk = clk then bump (sget 0 w.evs src) .init else .init) else sget .init w.cnt m := by
  by_cases h : w.evClk = clk
  · rw [clearWatchTally_same n clk src w h, if_pos h]
    exact sget_sput Counter.init _ _ _ _
  · rw [clearWatchTally_new n clk src w h, if_neg h]
    exact sget_sput Counter.init w.cnt n m .init

end clear

/-! ## Writes that reach the watchman (R80) -/

theorem watchmanWrite_running {s : State} {a : Nat} (d : Word) (via : Via) (at_ : Nat) (h : s.wc.aonclk = true) (ha : 0x180 ≤ a) :
    watchmanWrite a d via at_ s = writeWatchReg a d via at_ s := by
  have hroom : ¬ a < 0x180 := by omega
  simp [watchmanWrite, h, hroom]

/-- Without AONCLK a write is lost (R80). -/
theorem watchmanWrite_stopped {s : State} (a : Nat) (d : Word) (via : Via) (at_ : Nat) (h : s.wc.aonclk = false) :
    watchmanWrite a d via at_ s = s := if_pos (by simp [h])

theorem writeWatchReg_sel {n : Nat} (d : Word) (via : Via) (at_ : Nat) (s : State) (hn : n < 8) :
    writeWatchReg (0x240 + n) d via at_ s = writeWatchSel n d s := by
  have hne : ∀ k < 0x240, 0x240 + n ≠ k := fun k hk => by omega
  have hle : ∀ k < 0x240, ¬ 0x240 + n ≤ k := fun k hk => by omega
  have hlt : ∀ k < 0x240, ¬ 0x240 + n < k := fun k hk => by omega
  have hroom : 0x240 + n ≤ 0x247 := by omega
  simp [writeWatchReg, hne, hle, hroom]

/-- A counter of the watchman takes source `src`, and starts again (R447, R451). -/
def reselected (n : Nat) (src : Byte) (s : State) : State :=
  { s with wtally := clearWatchTally n s.clocks.wclk src.toNat { s.wtally with sel := sput 0 s.wtally.sel n src } }

theorem writeWatchSel_reselects {n : Nat} {d : Word} {src : Byte} {s : State} (hsrc : BitVec.ofNat 8 d.toNat = src)
    (h : bitOf d.toNat 8 = true ∨ src ≠ sget 0 s.wtally.sel n) : writeWatchSel n d s = reselected n src s := by
  have hclear : (bitOf d.toNat 8 || src != sget 0 s.wtally.sel n) = true := by
    obtain h | h := h
    · rw [h, Bool.true_or]
    · rw [bne_iff_ne.mpr h, Bool.or_true]
  unfold writeWatchSel
  dsimp only
  rw [hsrc, hclear, if_pos rfl]
  rfl

section reselected
variable (n : Nat) (src : Byte) (s : State)

theorem reselected_frame : ∃ c k evs was, reselected n src s = { s with wtally := { s.wtally with
    sel := sput 0 s.wtally.sel n src, cnt := c, evClk := k, evs := evs, was := was, cleared := true } } := by
  obtain ⟨c, k, evs, was, h⟩ :=
    clearWatchTally_frame n s.clocks.wclk src.toNat { s.wtally with sel := sput 0 s.wtally.sel n src }
  exact ⟨c, k, evs, was, congrArg (fun w => { s with wtally := w }) h⟩

theorem reselected_sel (m : Nat) :
    sget 0 (reselected n src s).wtally.sel m = if n = m then src else sget 0 s.wtally.sel m := by
  obtain ⟨c, k, evs, was, h⟩ := reselected_frame n src s
  rw [h]
  exact sget_sput _ _ _ _ _

theorem reselected_cnt (m : Nat) : sget .init (reselected n src s).wtally.cnt m =
    if n = m then (if s.wtally.evClk = s.clocks.wclk then bump (sget 0 s.wtally.evs src.toNat) .init else .init)
    else sget .init s.wtally.cnt m := clearWatchTally_cnt _ _ _ _ _

/-- A snapshot in the clock of the clear finds the counts before it (R452). -/
theorem wtallyOf_reselected (h : s.wtally.evClk ≠ s.clocks.wclk) (m : Nat) : wtallyOf (reselected n src s) m = wtallyOf s m := by
  have hnew : reselected n src s = { s with wtally := { s.wtally with
      sel := sput 0 s.wtally.sel n src, evClk := s.clocks.wclk, evs := [], was := s.wtally.cnt, cleared := true
      cnt := sput .init s.wtally.cnt n .init } } := congrArg (fun w => { s with wtally := w }) 
    (clearWatchTally_new n s.clocks.wclk src.toNat { s.wtally with sel := sput 0 s.wtally.sel n src } h)
  rw [wtallyOf_uncleared m (.inr h), hnew]
  exact wtallyOf_cleared m rfl rfl

/-- What such a write answers. -/
theorem answers_reselected {c : Instr} (hexec : exec c s = fin s (reselected n src s)) (hlive : Live s) : Answers c s (fun t =>
    (∀ m, sget 0 t.wtally.sel m = if n = m then src else sget 0 s.wtally.sel m)
    ∧ (s.wtally.evClk ≠ s.clocks.wclk → sget .init t.wtally.cnt n = .init ∧ ∀ m, wtallyOf t m = wtallyOf s m)
    ∧ (s.wtally.evClk = s.clocks.wclk → sget .init t.wtally.cnt n = bump (sget 0 s.wtally.evs src.toNat) .init)
    ∧ (∀ m, m ≠ n → sget .init t.wtally.cnt m = sget .init s.wtally.cnt m)
    ∧ t = { s with wtally := t.wtally, seen := t.seen } ∧ t.wtally.shadow = s.wtally.shadow
    ∧ t.wtally.refAborts = s.wtally.refAborts ∧ t.wtally.refFails = s.wtally.refFails ∧ t.wtally.refOk = s.wtally.refOk
    ∧ t.wtally.refCommits = s.wtally.refCommits) := by
  obtain ⟨c, k, evs, was, h⟩ := reselected_frame n src s
  have hsettle : (settle s (reselected n src s)).wtally = (reselected n src s).wtally := rfl
  have hcnt := reselected_cnt n src s
  refine .of_fin hlive hexec ⟨reselected_sel n src s, fun hclk => ⟨?_, wtallyOf_reselected n src s hclk⟩, fun hclk => ?_, fun m hm => ?_,
    rfl, ?_⟩
  · rw [hsettle, hcnt, if_pos rfl, if_neg hclk]
  · rw [hsettle, hcnt, if_pos rfl, if_pos hclk]
  · rw [hsettle, hcnt, if_neg (Ne.symm hm)]
  · rw [hsettle, h]
    exact ⟨rfl, rfl, rfl, rfl, rfl⟩

end reselected


/-- A select's write from the gate, as the watchman takes it (R80, R447). -/
theorem watchmanCommand_sel {s : State} {n : Nat} (d : Word) (hw : WatchHears s) (hn : n < 8) :
    watchmanCommand (0x240 + n) d s = writeWatchSel n d s := by
  obtain ⟨⟨_, hclk⟩, hpins⟩ := hw
  unfold watchmanCommand
  rw [fromGate_hears _ hpins]
  exact (watchmanWrite_running _ _ _ hclk (by omega)).trans (writeWatchReg_sel _ _ _ _ hn)

/-- The word of CLR holds the select's source beside CLR (R447). -/
theorem clrWord_fields (src : Byte) :
    BitVec.ofNat 8 (w32 (src.toNat + 2 ^ 8)).toNat = src ∧ bitOf (w32 (src.toNat + 2 ^ 8)).toNat 8 = true := by
  have hsrc := src.isLt
  have hword : (w32 (src.toNat + 2 ^ 8)).toNat = src.toNat + 2 ^ 8 := Nat.mod_eq_of_lt (by omega)
  rw [hword]
  refine ⟨?_, bitOf_eq (b := true) ?_⟩
  · apply BitVec.eq_of_toNat_eq
    rw [BitVec.toNat_ofNat]
    omega
  · rw [Bool.toNat_true]
    omega

/-! ## Events of the watchman's counters (R442, R443) -/

/-- The state with other books of the watchman's tally. -/
def withTally (w : WatchTally) (s : State) : State := { s with wtally := w }

/-- No clear of the present clock hides the counts. -/
def Shown (s : State) (w : WatchTally) : Prop := w.cleared = false ∨ w.evClk ≠ s.clocks.wclk

/-- Events count where the one counter in use selects their source, and the counts stay as a snapshot shows them. -/
theorem watchTally_single {s : State} {w : WatchTally} {i : Nat} {b : Byte} (src k : Nat) (hclk : s.wc.aonclk = true)
    (hsel : w.sel = [(i, b)]) (hshown : Shown s w) :
    ∃ v, watchTally src k (withTally w s) = withTally v s ∧ v.sel = [(i, b)] ∧ Shown s v
      ∧ sget .init v.cnt i = bump (if b.toNat = src then k else 0) (sget .init w.cnt i) := by
  obtain rfl | hk := Nat.eq_zero_or_pos k
  · refine ⟨w, if_pos rfl, hsel, hshown, ?_⟩
    rw [ite_self, bump_zero]
  · have hroll : (rollWatch s.clocks.wclk w).cnt = w.cnt ∧ (rollWatch s.clocks.wclk w).sel = [(i, b)]
        ∧ (rollWatch s.clocks.wclk w).cleared = false := by
      by_cases h : w.evClk = s.clocks.wclk
      · rw [rollWatch_same h]
        exact ⟨rfl, hsel, hshown.resolve_right (not_not.mpr h)⟩
      · rw [rollWatch_new h]
        exact ⟨rfl, hsel, rfl⟩
    obtain ⟨hcnt, hsel', hcleared⟩ := hroll
    refine ⟨_, if_neg (by simp [withTally, hclk, hk.ne']), hsel', .inl hcleared, ?_⟩
    dsimp only [withTally]
    rw [hsel', hcnt, List.foldl_cons, List.foldl_nil]
    by_cases hb : b.toNat = src
    · rw [if_pos hb, if_pos hb, sget_smod, if_pos rfl]
    · rw [if_neg hb, if_neg hb, bump_zero]

/-- The watchman's clock after `n` clocks more. -/
def wclkPassed (n : Nat) (s : State) : State := { s with clocks := { s.clocks with wclk := s.clocks.wclk + n } }

/-- The gatehouse's Gray counts, as the watchman has sampled them (R442). -/
def graySampled (p : GatePort) (w : WatchTally) : WatchTally :=
  { w with refAborts := p.grayAborts, refFails := p.grayFails, refOk := p.grayOk, refCommits := p.grayCommits }

/-- A sample adds what each Gray count has gained since the one before (R442). -/
theorem sampleGray_running {s : State} {n : Nat} (hn : 0 < n) (hclk : s.wc.aonclk = true) :
    let counted := watchTally 1 (s.port.grayAborts - s.wtally.refAborts).toNat
      (watchTally 2 (s.port.grayFails - s.wtally.refFails).toNat
        (watchTally 3 (s.port.grayOk - s.wtally.refOk).toNat
          (watchTally 4 (s.port.grayCommits - s.wtally.refCommits).toNat (wclkPassed n s))))
    sampleGray n s = withTally (graySampled s.port counted.wtally) counted := by
  have hruns : ¬ (!s.wc.aonclk) = true := by simp [hclk]
  exact (if_neg hn.ne').trans (if_neg hruns)

/-- With one counter in use, on the aborts, a sample adds to it the frames that were aborted since the last (R442). -/
theorem sampleGray_aborts {s : State} {n i : Nat} (hn : 0 < n) (hclk : s.wc.aonclk = true) (hsel : s.wtally.sel = [(i, 0x01)])
    (hev : s.wtally.evClk ≤ s.clocks.wclk) : ∃ w, sampleGray n s = withTally w (wclkPassed n s)
      ∧ wtallyOf (withTally w (wclkPassed n s)) i = bump (s.port.grayAborts - s.wtally.refAborts).toNat (sget .init s.wtally.cnt i)
      ∧ w.refAborts = s.port.grayAborts := by
  have hnew : Shown (wclkPassed n s) s.wtally := .inr (by simp only [wclkPassed]; omega)
  obtain ⟨w4, h4, hsel4, hshown4, hcnt4⟩ := watchTally_single (s := wclkPassed n s) 4
    (s.port.grayCommits - s.wtally.refCommits).toNat hclk hsel hnew
  obtain ⟨w3, h3, hsel3, hshown3, hcnt3⟩ := watchTally_single (s := wclkPassed n s) 3
    (s.port.grayOk - s.wtally.refOk).toNat hclk hsel4 hshown4
  obtain ⟨w2, h2, hsel2, hshown2, hcnt2⟩ := watchTally_single (s := wclkPassed n s) 2
    (s.port.grayFails - s.wtally.refFails).toNat hclk hsel3 hshown3
  obtain ⟨w1, h1, _, hshown1, hcnt1⟩ := watchTally_single (s := wclkPassed n s) 1
    (s.port.grayAborts - s.wtally.refAborts).toNat hclk hsel2 hshown2
  have hcnt : sget .init w1.cnt i = bump (s.port.grayAborts - s.wtally.refAborts).toNat (sget .init s.wtally.cnt i) := by
    have hsrc : (0x01 : Byte).toNat = 1 := rfl
    rw [hcnt1, hcnt2, hcnt3, hcnt4, hsrc]
    simp [bump_zero]
  refine ⟨graySampled s.port w1, ?_, ?_, rfl⟩
  · have h4' : watchTally 4 (s.port.grayCommits - s.wtally.refCommits).toNat (wclkPassed n s) = withTally w4 (wclkPassed n s) := h4
    rw [sampleGray_running hn hclk, h4', h3, h2, h1]
    rfl
  · exact (wtallyOf_uncleared (s := withTally (graySampled s.port w1) (wclkPassed n s)) i hshown1).trans hcnt

/-- The tally after one event of source `src`, the first of its clock, where counter `n` alone is in use and takes it. -/
def firstEvent (n : Nat) (src : Byte) (s : State) : WatchTally :=
  { s.wtally with
    evClk := s.clocks.wclk, was := s.wtally.cnt, cleared := false, cnt := smod .init s.wtally.cnt n (bump 1)
    evs := smod 0 [] src.toNat (· + 1) }

theorem watchTally_firstEvent {s : State} {n : Nat} {src : Byte} (hclk : s.wc.aonclk = true) (hev : s.clocks.wclk ≠ s.wtally.evClk)
    (hsel : s.wtally.sel = [(n, src)]) : watchTally src.toNat 1 s = withTally (firstEvent n src s) s := by
  have hcounts : ¬ (decide (1 = 0) || !s.wc.aonclk) = true := by simp [hclk]
  have htake : s.wtally.sel.foldl (fun c e => if e.2.toNat = src.toNat then smod .init c e.1 (bump 1) else c) s.wtally.cnt =
      smod .init s.wtally.cnt n (bump 1) := by
    rw [hsel, List.foldl_cons, List.foldl_nil, if_pos rfl]
  refine (if_neg hcounts).trans ?_
  unfold firstEvent
  rw [rollWatch_new (Ne.symm hev), ← htake]
  rfl

/-- One event where one counter takes it counts there; a clear of the counter in the same clock hides that from a snapshot, which finds
the count before the clock (R451, R452). -/
theorem watchTally_then_clear {s : State} {n : Nat} {src : Byte} (hclk : s.wc.aonclk = true) (hev : s.clocks.wclk ≠ s.wtally.evClk)
    (hsel : s.wtally.sel = [(n, src)]) :
    sget .init (watchTally src.toNat 1 s).wtally.cnt n = bump 1 (wtallyOf s n)
      ∧ wtallyOf (withTally (clearWatchTally n s.clocks.wclk src.toNat (watchTally src.toNat 1 s).wtally) (watchTally src.toNat 1 s)) n =
        wtallyOf s n := by
  have hbefore : wtallyOf s n = sget .init s.wtally.cnt n := wtallyOf_uncleared n (.inr (Ne.symm hev))
  obtain ⟨c, hclear⟩ : ∃ c, clearWatchTally n s.clocks.wclk src.toNat (firstEvent n src s) =
      { firstEvent n src s with cleared := true, cnt := c } := ⟨_, clearWatchTally_same _ _ _ _ rfl⟩
  rw [watchTally_firstEvent hclk hev hsel, hbefore]
  refine ⟨(sget_smod Counter.init s.wtally.cnt n n (bump 1)).trans (if_pos rfl), ?_⟩
  calc wtallyOf (withTally (clearWatchTally n s.clocks.wclk src.toNat (firstEvent n src s)) s) n
      = wtallyOf (withTally { firstEvent n src s with cleared := true, cnt := c } s) n := by rw [hclear]
    _ = sget .init s.wtally.cnt n := wtallyOf_cleared n rfl rfl

/-- The oldest write on its way reaches the watchman (R80). -/
theorem landWrite_cons {s : State} {x : InFlightWrite} {xs : List InFlightWrite} (h : s.wflight = x :: xs) :
    landWrite s = watchmanWrite x.addr.toNat x.data x.via x.at_ { s with wflight := xs } := by
  unfold landWrite
  rw [h]

/-- Settles O39: selects and clears by the one clear of a counter, the events by the one counter that takes them. -/
theorem watchmanTally : Obligations.WatchmanTally := by
  unfold Obligations.WatchmanTally
  refine ⟨?_, ?_, ?_, ?_, ?_, ?_⟩
  · intro s n src hw hsrc
    obtain ⟨⟨hlive, _⟩, _⟩ := id hw
    have hfield : BitVec.ofNat 8 (src.setWidth 32).toNat = src := by
      have hlt := src.isLt
      apply BitVec.eq_of_toNat_eq
      rw [BitVec.toNat_ofNat, BitVec.toNat_setWidth]
      omega
    have hwrite := (watchmanCommand_sel (src.setWidth 32) hw n.isLt).trans (writeWatchSel_reselects hfield (.inr hsrc))
    obtain ⟨t, hexec, hsel, hnew, hsame, hother, hframe⟩ :=
      answers_reselected (c := .watchTallySelect n src) n.toNat src s (congrArg (fin s) hwrite) hlive
    refine ⟨t, hexec, (hsel _).trans (if_pos rfl), fun h => (hnew h).1, hsame, fun m _ hm => ⟨?_, hother m hm⟩, fun h m _ => (hnew h).2 m,
      hframe⟩
    rw [hsel, if_neg (Ne.symm hm)]
  · intro s n hw
    obtain ⟨⟨hlive, _⟩, _⟩ := id hw
    obtain ⟨hfield, hclr⟩ := clrWord_fields (sget 0 s.wtally.sel n.toNat)
    have hwrite := (watchmanCommand_sel _ hw n.isLt).trans (writeWatchSel_reselects hfield (.inl hclr))
    obtain ⟨t, hexec, hsel, hnew, hsame, hother, hframe⟩ :=
      answers_reselected (c := .watchTallyClr n) n.toNat _ s (congrArg (fin s) hwrite) hlive
    refine ⟨t, hexec, fun m _ => ?_, fun h => ⟨(hnew h).1, fun m _ => (hnew h).2 m⟩, hsame, fun m _ hm => hother m hm, hframe⟩
    rw [hsel]
    split
    · next h => rw [h]
    · rfl
  · intro s n src ⟨_, hclk⟩ hev hsel
    exact watchTally_then_clear hclk hev hsel
  · intro s d via at_ rest ⟨hlive, hclk⟩ hflight
    have hland := (landWrite_cons hflight).trans (watchmanWrite_running (a := 0x215) _ _ _ hclk (by decide))
    exact .of_fin hlive (congrArg (fin s) hland) rfl
  · intro s x rest hlive hclk hflight
    have hland := (landWrite_cons hflight).trans (watchmanWrite_stopped _ _ _ _ hclk)
    exact .of_fin hlive (congrArg (fin s) hland) rfl
  · intro s n ⟨hlive, hclk⟩ hn hsel _ hev hroom
    obtain ⟨w, hsample, hcnt, href⟩ := sampleGray_aborts hn hclk hsel hev
    have hdiff := (s.port.grayAborts - s.wtally.refAborts).isLt
    refine .of_fin hlive (congrArg (fin s) hsample) ⟨rfl, ?_, href, rfl⟩
    exact (congrArg (fun c : Counter => c.count.toNat) hcnt).trans (bump_count (by omega))

/-! ## Tokens on their way to their slots (R204, R227) -/

/-- Only the watch cores differ, with the drop alert and the tally. -/
def WatchOnly (s t : State) : Prop := ∃ a wt w, t = { s with alert := a, wtally := wt, wc := w }

theorem WatchOnly.refl (s : State) : WatchOnly s s := ⟨s.alert, s.wtally, s.wc, rfl⟩

theorem WatchOnly.keeps {s t : State} (h : WatchOnly s t) : t.fe = s.fe ∧ t.loft = s.loft ∧ t.bell = s.bell ∧ t.loom = s.loom := by
  obtain ⟨a, wt, w, rfl⟩ := h
  exact ⟨rfl, rfl, rfl, rfl⟩

theorem WatchOnly.onWc {s t : State} (f : WatchCores → WatchCores) (h : WatchOnly s t) : WatchOnly s (onWc f t) := by
  obtain ⟨a, wt, w, rfl⟩ := h
  exact ⟨a, wt, f w, rfl⟩

theorem WatchOnly.withTally {s t : State} (v : WatchTally) (h : WatchOnly s t) : WatchOnly s (withTally v t) := by
  obtain ⟨a, wt, w, rfl⟩ := h
  exact ⟨a, v, w, rfl⟩

theorem WatchOnly.raise {s t : State} (i : Nat) (h : WatchOnly s t) : WatchOnly s (raise i t) := by
  obtain ⟨a, wt, w, rfl⟩ := h
  exact ⟨putBit a i true, wt, w, rfl⟩

theorem watchTally_only (src n : Nat) (s : State) : ∃ w, watchTally src n s = withTally w s := by
  obtain ⟨c, clk, evs, was, b, h⟩ := watchTally_frame s src n
  exact ⟨_, h⟩

/-- The state with other queues and queue drops, and with what a drop raises and counts. -/
def tokensRouted (a : BitVec 13) (wt : WatchTally) (q : Sparse (List Token)) (d : Sparse (BitVec 16)) (s : State) : State :=
  { s with alert := a, wtally := wt, wc := { s.wc with queues := q, qdrop := d } }

theorem WatchOnly.tokensRouted {s t : State} (a : BitVec 13) (v : WatchTally) (q : Sparse (List Token)) (d : Sparse (BitVec 16))
    (h : WatchOnly s t) : WatchOnly s (tokensRouted a v q d t) := by
  obtain ⟨_, _, w, rfl⟩ := h
  exact ⟨a, v, { w with queues := q, qdrop := d }, rfl⟩

theorem queueToken_frame (s : State) (r : Routed) : ∃ a wt q d, queueToken s r = tokensRouted a wt q d s := by
  unfold queueToken
  dsimp only
  split
  · exact ⟨s.alert, s.wtally, _, s.wc.qdrop, rfl⟩
  · obtain ⟨wt, h⟩ := watchTally_only 0x09 1 (raise causeWatchDrop
      (onWc (fun w => { w with qdrop := smod 0 w.qdrop r.core (fun c => satAdd c 1) }) s))
    rw [h]
    exact ⟨_, wt, s.wc.queues, _, rfl⟩

theorem foldl_queueToken_frame (rs : List Routed) (s : State) :
    ∃ a wt q d, rs.foldl queueToken s = tokensRouted a wt q d s := by
  induction rs generalizing s with
  | nil => exact ⟨s.alert, s.wtally, s.wc.queues, s.wc.qdrop, rfl⟩
  | cons r rs ih =>
    obtain ⟨a, wt, q, d, h⟩ := queueToken_frame s r
    obtain ⟨a', wt', q', d', h'⟩ := ih (tokensRouted a wt q d s)
    rw [List.foldl_cons, h, h']
    exact ⟨a', wt', q', d', rfl⟩

/-- Update and route end the step in progress: records, counts and the step's end are new (R201, R205, R209). -/
def WatchCores.updated (net : Sparse Word) (live : Sparse Word) (ends : List Nat) (w : WatchCores) : WatchCores :=
  { w with net := net, live := live, acc := [], ends := ends, stage := .ended }

theorem updateAndRoute_frame (s : State) : ∃ net live ends a wt q d,
    updateAndRoute s = tokensRouted a wt q d (onWc (WatchCores.updated net live ends) s) := by
  obtain ⟨net, live, ends, rs, h⟩ : ∃ net live ends rs,
      updateAndRoute s = List.foldl queueToken (onWc (WatchCores.updated net live ends) s) rs := ⟨_, _, _, _, rfl⟩
  obtain ⟨a, wt, q, d, hroute⟩ := foldl_queueToken_frame rs (onWc (WatchCores.updated net live ends) s)
  exact ⟨net, live, ends, a, wt, q, d, h.trans hroute⟩

/-! ## The start and the cutoff of a step (R205 to R208, R227) -/

/-- The watch cores once another step has begun, by its start and the inputs it leaves (R206, R208). -/
def WatchCores.begun (t0 : Nat) (last : Bool) (w : WatchCores) : WatchCores :=
  { w with
    running := true, stepsBegun := w.stepsBegun + 1, stepStart := t0, lastTaken := last
    inputs := w.inputs.drop (if w.replay then 0 else 1) }

/-- The watch cores once a step's slots are delivered (R205). -/
def WatchCores.delivered (acc : Sparse Int) (coreEnds : List Nat) (leaving : Sparse (List Nat)) (q : Sparse (List Token))
    (w : WatchCores) : WatchCores :=
  { w with acc := acc, coreEnds := coreEnds, leaving := leaving, queues := q }

/-- A step that begins takes its spikes in, routes their tokens, delivers, and updates where the cutoff leaves nothing. -/
theorem startStep_eq (t0 : Nat) (xs : List Nat) (last : Bool) (s : State) : ∃ rs acc coreEnds leaving q left,
    startStep t0 xs last s =
      let s1 := onWc (WatchCores.delivered acc coreEnds leaving q)
        (List.foldl queueToken (watchTally 0x07 xs.length (onWc (WatchCores.begun t0 last) s)) rs)
      if left.isEmpty then updateAndRoute s1 else onWc (fun w => { w with stage := .cutoff left }) s1 :=
  ⟨_, _, _, _, _, _, rfl⟩

/-- A step that begins keeps its books in the watch cores. -/
theorem startStep_frame (t0 : Nat) (xs : List Nat) (last : Bool) (s : State) :
    let t := startStep t0 xs last s
    WatchOnly s t ∧ t.wc.stepsBegun = s.wc.stepsBegun + 1 ∧ t.wc.running = true
      ∧ t.wc.inputs = s.wc.inputs.drop (if s.wc.replay then 0 else 1) ∧ t.wc.stage ≠ .none ∧ t.wc.stepNo = s.wc.stepNo := by
  obtain ⟨rs, acc, coreEnds, leaving, q, left, hstart⟩ := startStep_eq t0 xs last s
  obtain ⟨wt, hcount⟩ := watchTally_only 0x07 xs.length (onWc (WatchCores.begun t0 last) s)
  obtain ⟨a, wt', q', d, hroute⟩ := foldl_queueToken_frame rs (withTally wt (onWc (WatchCores.begun t0 last) s))
  have honly := ((((WatchOnly.refl s).onWc (WatchCores.begun t0 last)).withTally wt).tokensRouted a wt' q' d).onWc
    (WatchCores.delivered acc coreEnds leaving q)
  dsimp only at hstart ⊢
  rw [hcount, hroute] at hstart
  rw [hstart]
  split
  · obtain ⟨net, live, ends, a', wt'', q'', d', hupdate⟩ := updateAndRoute_frame (onWc (WatchCores.delivered acc coreEnds leaving q)
      (tokensRouted a wt' q' d (withTally wt (onWc (WatchCores.begun t0 last) s))))
    rw [hupdate]
    exact ⟨(honly.onWc _).tokensRouted _ _ _ _, rfl, rfl, rfl, nofun, rfl⟩
  · exact ⟨honly.onWc _, rfl, rfl, rfl, nofun, rfl⟩

/-- In live mode a step that is due takes the inputs of the oldest hop (R205, R206). -/
theorem watchStep_live {s : State} {h : Nat} {xs : List Nat} {rest : List (List Nat)} (hclk : s.wc.aonclk = true) (harm : s.wc.arm = true)
    (hreplay : s.wc.replay = false) (hh0 : s.wc.h0 = some h) (hstage : s.wc.stage = .none) (hinputs : s.wc.inputs = xs :: rest)
    (hdue : stepStartAt s.wc h ≤ s.clocks.wclk) : watchStep s = startStep (stepStartAt s.wc h) xs false s := by
  have hnow : ¬ s.clocks.wclk < stepStartAt s.wc h := Nat.not_lt.mpr hdue
  have hinput : stepInput s.wc (s.wc.stepsBegun + 1) = some (xs, false) := by simp [stepInput, hreplay, hinputs]
  unfold watchStep
  simp [hh0, hstage, hclk, harm, hnow, hinput]

/-- The late drops that a step's leftover tokens count as (R227). -/
def lateDrops (left : Sparse (List Token)) (late : Sparse (BitVec 16)) : Sparse (BitVec 16) :=
  left.foldl (fun m e => smod 0 m e.1 (fun c => satAdd c e.2.length)) late

/-- The cutoff turns what is left into late drops and ends the step (R207, R227). -/
theorem cutStep_frame {s : State} {left : Sparse (List Token)} (h : s.wc.stage = .cutoff left) :
    WatchOnly s (cutStep s) ∧ (cutStep s).wc.stage = .ended ∧ (cutStep s).wc.stepsBegun = s.wc.stepsBegun
      ∧ (cutStep s).wc.late = lateDrops left s.wc.late := by
  obtain ⟨t, honly, hbegun, hlate, hcut⟩ : ∃ t, WatchOnly s t ∧ t.wc.stepsBegun = s.wc.stepsBegun
      ∧ t.wc.late = lateDrops left s.wc.late ∧ cutStep s = updateAndRoute t := by
    have hlate := (WatchOnly.refl s).onWc (fun w => { w with late := lateDrops left w.late })
    unfold cutStep
    rw [h]
    dsimp only
    split
    · exact ⟨_, hlate, rfl, rfl, rfl⟩
    · obtain ⟨wt, hcount⟩ := watchTally_only 0x08 (left.map (fun e => e.2.length)).sum
        (raise causeWatchDrop (onWc (fun w => { w with late := lateDrops left w.late }) s))
      exact ⟨_, (hlate.raise causeWatchDrop).withTally wt, rfl, rfl, congrArg updateAndRoute hcount⟩
  obtain ⟨net, live, ends, a, wt, q, d, hupdate⟩ := updateAndRoute_frame t
  rw [hcut, hupdate]
  exact ⟨(honly.onWc _).tokensRouted _ _ _ _, rfl, hbegun, hlate⟩

/-! ## The end of a step (R206, R209, R210, R223) -/

/-- Only the watch cores and the bell differ, with the tally. -/
def WatchAndBell (s t : State) : Prop := ∃ wt w b, t = { s with wtally := wt, wc := w, bell := b }

/-- A setting that comes into force leaves the step's count and its stage. -/
theorem applySetting_frame {s t : State} (x : InFlightWrite) (h : WatchAndBell s t) :
    WatchAndBell s (applySetting t x) ∧ (applySetting t x).wc.stepNo = t.wc.stepNo ∧ (applySetting t x).wc.stage = t.wc.stage := by
  obtain ⟨wt, w, b, rfl⟩ := h
  have htrim : ∀ n w, (trimBaselines n w).stepNo = w.stepNo ∧ (trimBaselines n w).stage = w.stage := by
    intro n w
    unfold trimBaselines
    split <;> exact ⟨rfl, rfl⟩
  unfold applySetting
  dsimp only
  split
  · exact ⟨⟨wt, _, b, rfl⟩, rfl, rfl⟩
  · split
    · exact ⟨⟨wt, _, b, rfl⟩, htrim _ _⟩
    · split <;> exact ⟨⟨wt, w, _, rfl⟩, rfl, rfl⟩

theorem foldl_applySetting_frame {s t : State} (xs : List InFlightWrite) (h : WatchAndBell s t) :
    WatchAndBell s (xs.foldl applySetting t) ∧ (xs.foldl applySetting t).wc.stepNo = t.wc.stepNo
      ∧ (xs.foldl applySetting t).wc.stage = t.wc.stage := by
  induction xs generalizing t with
  | nil => exact ⟨h, rfl, rfl⟩
  | cons x xs ih =>
    obtain ⟨hx, hno, hstage⟩ := applySetting_frame x h
    obtain ⟨hxs, hno', hstage'⟩ := ih hx
    exact ⟨hxs, hno'.trans hno, hstage'.trans hstage⟩

/-- A step that has ended is counted, and its settings come into force (R206, R223). -/
def stepCounted (s : State) : State :=
  settingsAtStep (onWc (fun w => { w with stepNo := w.stepNo + 1, stage := .none })
    (watchTally 0x0A (if !s.wc.replay && decide (nominalEnd s.wc < s.wc.ends.headD 0) then 1 else 0) s))

theorem stepCounted_frame (s : State) :
    WatchAndBell s (stepCounted s) ∧ (stepCounted s).wc.stepNo = s.wc.stepNo + 1 ∧ (stepCounted s).wc.stage = .none := by
  obtain ⟨wt, hcount⟩ := watchTally_only 0x0A (if !s.wc.replay && decide (nominalEnd s.wc < s.wc.ends.headD 0) then 1 else 0) s
  unfold stepCounted settingsAtStep
  rw [hcount]
  exact foldl_applySetting_frame _ ⟨wt, _, s.bell, rfl⟩

/-- With no setting waiting a step's end only counts it. -/
theorem stepCounted_noSettings {s : State} (h : s.wc.pendSet = []) : ∃ wt, stepCounted s =
    { s with wtally := wt, wc := { s.wc with stepNo := s.wc.stepNo + 1, stage := .none } } := by
  obtain ⟨wt, hcount⟩ := watchTally_only 0x0A (if !s.wc.replay && decide (nominalEnd s.wc < s.wc.ends.headD 0) then 1 else 0) s
  unfold stepCounted settingsAtStep
  rw [hcount]
  exact ⟨wt, by simp [onWc, withTally, h]⟩

/-- A firing's automatic freeze is the loft's alone, and takes place only where AUTO asks for it (R217). -/
theorem requestAuto_frame (f : Firing) (s : State) :
    ∃ l, (s.loft.auto = false → l = s.loft) ∧ requestAuto f s = { s with loft := l } := by
  have hfreeze : ∃ l, firingFreeze f s = { s with loft := l } := by
    unfold firingFreeze freezeAt denyFreeze
    split
    · exact ⟨_, rfl⟩
    · split <;> exact ⟨_, rfl⟩
  unfold requestAuto
  split
  · exact ⟨s.loft, fun _ => rfl, rfl⟩
  · next hauto =>
    have hon : s.loft.auto ≠ false := fun h => hauto (by simp [h])
    split
    · exact ⟨_, fun h => absurd h hon, rfl⟩
    · obtain ⟨l, hl⟩ := hfreeze
      exact ⟨l, fun h => absurd h hon, hl⟩

/-- The watch cores after a window's end (R82, R209). -/
def WatchCores.windowClosed (low : Bool) (w : WatchCores) : WatchCores :=
  { w with
    winTotal := w.winTotal + 1, winSeq := if low then w.winSeq else BitVec.ofNat 32 (w.winTotal + 1)
    pub := if low then w.pub else w.live, heldWin := if low then some w.live else none
    live := [], winStart := w.stepsBegun, winLenNow := w.winLenNext }

/-- The watch cores after a step, stopped where it was the last (R208, R221). -/
def WatchCores.stopAtEnd (w : WatchCores) : WatchCores :=
  if w.lastTaken then { stopCores w with replayDone := true } else if w.stopping then stopCores w else w

/-- The bell once the rules `x` have fired, with these firings before its actions (R210). -/
def Bell.ruled (x : Byte) (fs : List Firing) (b : Bell) : Bell :=
  { b with lastFired := x, latches := b.latches ||| x, firings := fs }

/-- Whether the window in progress ends with the step (R209). -/
def windowEnds (w : WatchCores) : Bool := decide (w.winStart + windowSteps w.winLenNow ≤ w.stepsBegun)

/-- The firings that wait for their bell actions after a step's end (R210). -/
def firingsAfter (s : State) : List Firing :=
  if firedRules s = 0 then s.bell.firings else s.bell.firings ++ [firingOf s (firedRules s) (windowEnds s.wc)]

/-- A state with another loft and bell. -/
def withRules (l : Loft) (b : Bell) (s : State) : State := { s with loft := l, bell := b }

/-- The rules that fire at a step's end (R210). -/
def rulesFired (s : State) : State :=
  onBell (fun b => { b with lastFired := firedRules s }) (if firedRules s = 0 then s
    else requestAuto (firingOf s (firedRules s) (windowEnds s.wc)) (onBell (fun b => { b with
      latches := b.latches ||| firedRules s, firings := b.firings ++ [firingOf s (firedRules s) (windowEnds s.wc)] }) s))

/-- The rules that fire leave the bell with their firing, and the loft with their freeze (R210, R217). -/
theorem firings_frame (s : State) : ∃ l, (s.loft.auto = false → l = s.loft)
    ∧ rulesFired s = withRules l (s.bell.ruled (firedRules s) (firingsAfter s)) s := by
  unfold rulesFired
  by_cases h : firedRules s = 0
  · refine ⟨s.loft, fun _ => rfl, ?_⟩
    have hlatches : s.bell.latches ||| (0 : Byte) = s.bell.latches := BitVec.or_zero
    rw [if_pos h, firingsAfter, if_pos h, h, Bell.ruled, hlatches]
    rfl
  · obtain ⟨l, hkeep, hauto⟩ := requestAuto_frame (firingOf s (firedRules s) (windowEnds s.wc)) (onBell (fun b => { b with
      latches := b.latches ||| firedRules s, firings := b.firings ++ [firingOf s (firedRules s) (windowEnds s.wc)] }) s)
    refine ⟨l, hkeep, ?_⟩
    rw [if_neg h, firingsAfter, if_neg h, hauto]
    rfl

/-- The watch cores and the bell once a step's rules have fired: the window ends where `ends` says so (R209). -/
def WatchCores.stepOver (ends low : Bool) (w : WatchCores) : WatchCores := (if ends then w.windowClosed low else w).stopAtEnd

def Bell.stepOver (ends : Bool) (b : Bell) : Bell := if ends then { b with latches := 0 } else b

theorem endWindow_closed (low : Bool) (s : State) :
    endWindow low s = { s with wc := s.wc.windowClosed low, bell := { s.bell with latches := 0 } } := rfl

/-- The window's end and the cores' stop, after a step whose rules have fired. -/
theorem stepOver_eq (ends low : Bool) (l : Loft) (b : Bell) (s : State) :
    onWc WatchCores.stopAtEnd (if ends then endWindow low (withRules l b s) else withRules l b s)
      = { s with loft := l, wc := s.wc.stepOver ends low, bell := b.stepOver ends } := by
  cases ends
  · rfl
  · rw [if_pos rfl, endWindow_closed]
    rfl

/-- The cores stop after the last step of a replay, and after the step that a disarm waits for (R208, R221). -/
theorem stopAtEnd_eq (s : State) : (if s.wc.lastTaken then onWc (fun w => { stopCores w with replayDone := true }) s
    else if s.wc.stopping then onWc stopCores s else s) = onWc WatchCores.stopAtEnd s := by
  unfold onWc WatchCores.stopAtEnd
  split
  · rfl
  · split <;> rfl

theorem finishStep_phases (low : Bool) (s : State) : finishStep low s = onWc WatchCores.stopAtEnd
    (if windowEnds (stepCounted s).wc then endWindow low (rulesFired (stepCounted s)) else rulesFired (stepCounted s)) := by
  rw [← stopAtEnd_eq]
  rfl

/-- The end of a step: the step is counted, its rules are tested, and the window and the cores end where it is their last (R206 to
R210). -/
theorem finishStep_eq (low : Bool) (s : State) : ∃ l, ((stepCounted s).loft.auto = false → l = (stepCounted s).loft)
    ∧ finishStep low s = { stepCounted s with
      loft := l
      wc := (stepCounted s).wc.stepOver (windowEnds (stepCounted s).wc) low
      bell := ((stepCounted s).bell.ruled (firedRules (stepCounted s)) (firingsAfter (stepCounted s))).stepOver
        (windowEnds (stepCounted s).wc) } := by
  obtain ⟨l, hkeep, hfired⟩ := firings_frame (stepCounted s)
  refine ⟨l, hkeep, ?_⟩
  rw [finishStep_phases, hfired]
  exact stepOver_eq _ low l _ (stepCounted s)

/-- What a step's end leaves in the watch cores, whether or not they stop with it. -/
theorem stopAtEnd_keeps (w : WatchCores) (h : w.stage = .none) :
    w.stopAtEnd.stepNo = w.stepNo ∧ w.stopAtEnd.stage = .none ∧ w.stopAtEnd.live = w.live ∧ w.stopAtEnd.pub = w.pub
      ∧ w.stopAtEnd.winSeq = w.winSeq ∧ w.stopAtEnd.winTotal = w.winTotal ∧ w.stopAtEnd.winStart = w.winStart
      ∧ w.stopAtEnd.winLenNow = w.winLenNow ∧ w.stopAtEnd.heldWin = w.heldWin := by
  unfold WatchCores.stopAtEnd
  split
  · exact ⟨rfl, rfl, rfl, rfl, rfl, rfl, rfl, rfl, rfl⟩
  · split
    · exact ⟨rfl, rfl, rfl, rfl, rfl, rfl, rfl, rfl, rfl⟩
    · exact ⟨rfl, h, rfl, rfl, rfl, rfl, rfl, rfl, rfl⟩

/-! ## The rules of a step (R210) -/

/-- Flag `n` of a list stands at bit `n` of its packing. -/
theorem testBit_packBits (bs : List Bool) (n : Nat) : (packBits bs).testBit n = bs.getD n false := by
  induction bs generalizing n with
  | nil => simp [packBits]
  | cons b bs ih =>
    cases n with
    | zero => cases b <;> simp [packBits]
    | succ n =>
      have hhalf : packBits (b :: bs) / 2 = packBits bs := by cases b <;> simp [packBits]; omega
      rw [Nat.testBit_succ, hhalf, ih, List.getD_cons_succ]

/-- A rule fires where its test passes while its latch is clear. -/
theorem getLsbD_firedRules (s : State) {n : Nat} (hn : n < 8) : (firedRules s).getLsbD n
    = (rulePasses s.wc.live (sget 0 s.bell.rulesNow n).toNat && !s.bell.latches.getLsbD n) := by
  have hspan : (span 0 8)[n]? = some n := by
    rw [span, List.getElem?_map, List.getElem?_range hn]
    simp
  rw [firedRules, BitVec.getLsbD_ofNat, testBit_packBits]
  simp [hn, hspan]

/-- A rule's test in its four modes. -/
theorem rulePasses_iff (live : Sparse Word) (rule : Nat) : rulePasses live rule = true ↔
    let a := (sget 0 live (rule / 2 ^ 3 % 64)).toNat
    let b := (sget 0 live (rule / 2 ^ 9 % 64)).toNat
    let least := max (rule / 2 ^ 15 % 2 ^ 16) 1
    rule % 2 = 1 ∧ ((rule / 2 % 4 = 0 ∧ least ≤ a) ∨ (rule / 2 % 4 = 1 ∧ least ≤ a + b)
      ∨ (rule / 2 % 4 = 2 ∧ least ≤ a ∧ b < a) ∨ (rule / 2 % 4 = 3 ∧ least ≤ a ∧ least ≤ b)) := by
  have hmode : rule / 2 % 4 < 4 := Nat.mod_lt _ (by decide)
  have hon : bitOf rule 0 = true ↔ rule % 2 = 1 := by simp [bitOf, field_eq]
  unfold rulePasses
  rw [Bool.and_eq_true, hon]
  simp only [field_eq, Nat.reducePow, Nat.pow_one]
  refine and_congr_right fun _ => ?_
  generalize (sget 0 live (rule / 8 % 64)).toNat = a
  generalize (sget 0 live (rule / 512 % 64)).toNat = b
  generalize max (rule / 32768 % 65536) 1 = least
  split
  · simp [*]
  · split
    · simp [*]
    · split
      · simp [*]
      · have hthree : rule / 2 % 4 = 3 := by omega
        simp [hthree]

/-! ## The obligation -/

/-- A step that has ended ends once its last core has routed, under the held pin that the gatehouse sees (R57). -/
theorem stepEndEffect_due {s : State} (low : Bool) (hstage : s.wc.stage = .ended) (hdue : s.wc.ends.headD 0 ≤ s.clocks.wclk) :
    stepEndEffect low s = finishStep low s := by
  unfold stepEndEffect
  rw [hstage]
  exact if_neg (Nat.not_lt.mpr hdue)

/-- A step's end leaves everything but the watch cores, the bell, the loft and the tally, and the loft too without AUTO. -/
theorem finishStep_frame (low : Bool) (s : State) : ∃ wt l w b, finishStep low s = { s with wtally := wt, loft := l, wc := w, bell := b }
    ∧ w.stepNo = s.wc.stepNo + 1 ∧ w.stage = .none ∧ (s.loft.auto = false → l = s.loft) := by
  obtain ⟨⟨wt, w, b, hcounted⟩, hno, hstage⟩ := stepCounted_frame s
  obtain ⟨l, hkeep, hfinish⟩ := finishStep_eq low s
  rw [hcounted] at hno hstage hkeep hfinish
  have hover : ∀ ends, (w.stepOver ends low).stepNo = w.stepNo ∧ (w.stepOver ends low).stage = .none := by
    intro ends
    cases ends
    · obtain ⟨hno', hstage', _⟩ := stopAtEnd_keeps w hstage
      exact ⟨hno', hstage'⟩
    · obtain ⟨hno', hstage', _⟩ := stopAtEnd_keeps (w.windowClosed low) hstage
      exact ⟨hno', hstage'⟩
  exact ⟨wt, l, _, _, hfinish, (hover _).1.trans hno, (hover _).2, hkeep⟩

/-- The watch cores once a step is counted (R206). -/
def WatchCores.counted (w : WatchCores) : WatchCores := { w with stepNo := w.stepNo + 1, stage := .none }

/-- With no setting waiting, the rules of a step's end are tested on the state before it. -/
theorem finishStep_noSettings (low : Bool) {s : State} (h : s.wc.pendSet = []) :
    (finishStep low s).wc = s.wc.counted.stepOver (windowEnds s.wc) low
    ∧ (finishStep low s).bell =
      (s.bell.ruled (firedRules s) (firingsAfter (onWc WatchCores.counted s))).stepOver (windowEnds s.wc) := by
  obtain ⟨wt, hcounted⟩ := stepCounted_noSettings h
  obtain ⟨l, _, hfinish⟩ := finishStep_eq low s
  rw [hcounted] at hfinish
  rw [hfinish]
  exact ⟨rfl, rfl⟩

theorem stepOver_lastFired (x : Byte) (fs : List Firing) (b : Bell) (ends : Bool) :
    ((b.ruled x fs).stepOver ends).lastFired = x := by
  cases ends <;> rfl

theorem stepOver_firings (x : Byte) (fs : List Firing) (b : Bell) (ends : Bool) : ((b.ruled x fs).stepOver ends).firings = fs := by
  cases ends <;> rfl

theorem stepOver_latches (x : Byte) (fs : List Firing) (b : Bell) (ends : Bool) :
    ((b.ruled x fs).stepOver ends).latches = if ends then 0 else b.latches ||| x := by
  cases ends <;> rfl

theorem firedRules_counted (s : State) : firedRules (onWc WatchCores.counted s) = firedRules s := rfl

theorem firingsAfter_none {s : State} (h : firedRules s = 0) : firingsAfter (onWc WatchCores.counted s) = s.bell.firings :=
  if_pos (firedRules_counted s ▸ h)

/-- The firing that waits for its bell action is the step's own, in place after the earlier ones. -/
theorem firingsAfter_fired {s : State} (h : firedRules s ≠ 0) : firingsAfter (onWc WatchCores.counted s)
    = s.bell.firings ++ [firingOf (onWc WatchCores.counted s) (firedRules s) (windowEnds s.wc)] :=
  if_neg (firedRules_counted s ▸ h)

/-- While the window is open its counts, its start and the published bank stay. -/
theorem stepOver_open {w : WatchCores} (low : Bool) (h : w.stage = .none) :
    let t := w.stepOver false low
    t.live = w.live ∧ t.pub = w.pub ∧ t.winSeq = w.winSeq ∧ t.winTotal = w.winTotal ∧ t.winStart = w.winStart
      ∧ t.heldWin = w.heldWin := by
  obtain ⟨_, _, hlive, hpub, hseq, htotal, hstart, _, hheld⟩ := stopAtEnd_keeps w h
  exact ⟨hlive, hpub, hseq, htotal, hstart, hheld⟩

/-- The window closes with the step that completes its length (R82, R209). -/
theorem stepOver_closes {w : WatchCores} (low : Bool) (h : w.stage = .none) :
    let t := w.stepOver true low
    t.live = [] ∧ t.winTotal = w.winTotal + 1 ∧ t.winStart = w.stepsBegun ∧ t.winLenNow = w.winLenNext
      ∧ t.pub = (if low then w.pub else w.live) ∧ t.winSeq = (if low then w.winSeq else BitVec.ofNat 32 (w.winTotal + 1))
      ∧ t.heldWin = (if low then some w.live else none) := by
  obtain ⟨_, _, hlive, hpub, hseq, htotal, hstart, hlen, hheld⟩ := stopAtEnd_keeps (w.windowClosed low) h
  exact ⟨hlive, htotal, hstart, hlen, hpub, hseq, hheld⟩

theorem windowEnds_iff (w : WatchCores) : windowEnds w = true ↔ w.winStart + 10 * max w.winLenNow.toNat 1 ≤ w.stepsBegun :=
  decide_eq_true_iff

/-- Settles O35: a step's start and cutoff leave all but the watch cores, and its end is the count, the rules and the window in turn. -/
theorem watchSteps : Obligations.WatchSteps := by
  unfold Obligations.WatchSteps
  refine ⟨?_, ?_, ?_, ?_, ?_⟩
  · intro s h xs rest ⟨hlive, hclk⟩ harm hreplay hh0 hstage hinputs hdue
    have hexec : exec .watchStep s = fin s (startStep (stepStartAt s.wc h) xs false s) :=
      congrArg (fin s) (watchStep_live hclk harm hreplay hh0 hstage hinputs hdue)
    obtain ⟨honly, hbegun, hrun, htake, hstage', hno⟩ := startStep_frame (stepStartAt s.wc h) xs false s
    obtain ⟨hfe, hloft, hbell, hloom⟩ := honly.keeps
    rw [hreplay, hinputs] at htake
    generalize startStep (stepStartAt s.wc h) xs false s = e at *
    exact .of_fin hlive hexec ⟨hbegun, hrun, htake, hstage', hno, hfe, hloft, hbell, hloom⟩
  · intro s left hlive hstage hdue
    have hcut : deliveryCutoff s = cutStep s := if_neg (Nat.not_lt.mpr hdue)
    have hexec : exec .deliveryCutoff s = fin s (cutStep s) := congrArg (fin s) hcut
    obtain ⟨honly, hstage', hbegun, hlate⟩ := cutStep_frame hstage
    obtain ⟨hfe, hloft, hbell, hloom⟩ := honly.keeps
    generalize cutStep s = e at *
    exact .of_fin hlive hexec ⟨hstage', hbegun, hlate, hfe, hloft, hbell, hloom⟩
  · intro s low hlive hstage hdue
    have hexec : exec (.stepEnd low) s = fin s (finishStep (low && !pinsTested s) s) :=
      congrArg (fin s) (stepEndEffect_due _ hstage hdue)
    obtain ⟨wt, l, w, b, hfinish, hno, hstage', hkeep⟩ := finishStep_frame (low && !pinsTested s) s
    rw [hfinish] at hexec
    exact .of_fin hlive hexec ⟨hno, hstage', hkeep, rfl, rfl⟩
  · intro s low hlive hstage hdue hset hpins
    have hexec : exec (.stepEnd low) s = fin s (finishStep (low && !pinsTested s) s) :=
      congrArg (fin s) (stepEndEffect_due _ hstage hdue)
    rw [hpins, Bool.not_false, Bool.and_true] at hexec
    obtain ⟨hwc, hbell⟩ := finishStep_noSettings low hset
    have hfired := (congrArg Bell.lastFired hbell).trans (stepOver_lastFired _ _ _ _)
    have hfirings := (congrArg Bell.firings hbell).trans (stepOver_firings _ _ _ _)
    have hlatches := (congrArg Bell.latches hbell).trans (stepOver_latches _ _ _ _)
    generalize finishStep low s = e at *
    refine .of_fin hlive hexec ⟨?_, ?_, ?_, ?_, ?_⟩
    · intro n hn
      show e.bell.lastFired.getLsbD n = true ↔ _
      rw [hfired, getLsbD_firedRules s hn, Bool.and_eq_true, Bool.not_eq_true', and_comm, rulePasses_iff]
    · intro hnone
      exact hfirings.trans (firingsAfter_none (hfired.symm.trans hnone))
    · intro hsome
      have hone := hfirings.trans (firingsAfter_fired (fun h => hsome (hfired.trans h)))
      refine ⟨(congrArg List.dropLast hone).trans List.dropLast_concat, ?_⟩
      show Option.map _ e.bell.firings.getLast? = some (e.bell.lastFired, _)
      rw [hone, List.getLast?_concat, hfired]
      rfl
    · intro hends
      have hw := (windowEnds_iff s.wc).mpr hends
      rw [hw] at hwc hlatches
      obtain ⟨hlive', htotal, hstart, hlen, hpub, hseq, hheld⟩ := stepOver_closes (w := s.wc.counted) low rfl
      rw [← hwc] at hlive' htotal hstart hlen hpub hseq hheld
      refine ⟨hlive', hlatches, htotal, hstart, hlen, ?_, ?_⟩
      · rintro rfl
        exact ⟨hpub, hseq, hheld⟩
      · rintro rfl
        exact ⟨hpub, hseq, hheld⟩
    · intro hopen
      have hw : windowEnds s.wc = false := Bool.eq_false_iff.mpr (fun h => Nat.not_le.mpr hopen ((windowEnds_iff s.wc).mp h))
      rw [hw] at hwc hlatches
      obtain ⟨hlive', hpub, hseq, htotal, hstart, hheld⟩ := stepOver_open (w := s.wc.counted) low rfl
      rw [← hwc] at hlive' hpub hseq htotal hstart hheld
      rw [← hfired] at hlatches
      exact ⟨hlive', hpub, hseq, htotal, hstart, hheld, hlatches⟩
  · intro s p hlive hheld
    have hpublish : publishHeld s
        = { s with wc := { s.wc with pub := p, winSeq := BitVec.ofNat 32 s.wc.winTotal, heldWin := none } } := by
      unfold publishHeld
      rw [hheld]
      rfl
    have hexec : exec .windowPublish s = fin s _ := congrArg (fin s) hpublish
    exact .of_fin hlive hexec rfl

/-! ## The ordering point beside an escalation's copy (R83, R408) -/

/-- The loom rests at L0, and the last row of an escalation's hand-off image has landed in the present lc. -/
def copyLanded : State := { State.reset with
  pwr := { Power.reset with st := .l0, target := .l0, chainPos := 1 }
  loft := { Loft.reset with hold := true }
  esc := { Escalation.reset with en := true, st := .copy, landed := handoffRows } }

/-- The next lc ends the copy: the escalation goes on to its fetch (R408). -/
theorem orderN_copyLanded : (orderN 1 copyLanded).esc.st = .waitFetch := rfl

/-- Refutes O20: the lc that the ordering point passes also ends a copy whose last row has landed (R408), so the escalation changes
though no request stands. -/
theorem not_orderingPoint : ¬ Obligations.OrderingPoint := by
  unfold Obligations.OrderingPoint
  rintro ⟨hpass, _⟩
  have hidle : NothingDue copyLanded := ⟨rfl, rfl, rfl, fun _ _ => rfl⟩
  obtain ⟨t, hexec, _, _, ht⟩ := hpass copyLanded 1 rfl rfl rfl rfl rfl rfl (by decide) rfl hidle
  have hkept : t.esc.st = .copy := congrArg (fun u : State => u.esc.st) ht
  have hnext : t = settle copyLanded (orderN 1 copyLanded) :=
    (Host.Outcome.next.inj (hexec.symm.trans (next_of_fin (orderN 1 copyLanded) rfl rfl)))
  have hended : t.esc.st = .waitFetch := (congrArg (fun u : State => u.esc.st) hnext).trans orderN_copyLanded
  exact absurd (hkept.symm.trans hended) (by decide)

end Sys2Proof.Machine

end

