-- ==== Sys2Proof/Proofs/Seals.lean ====
section
/-!
PROOF. The seal engine's frames: the accepted ones and their effects (R101 to R104, R112, R134), the bad tags and the lockout they start
(R97 to R99), and OPEN, which loads the key slots (R113, R128, R129).
-/

namespace Sys2Proof.Machine

/-! ## Accepted frames that program nothing (R97, R98, R112) -/

/-- An accepted frame that is no long command and resets nothing: its books, then its effect, and KEY_INSTALL's clearing of the
key-load register (R98, R104). -/
theorem sealedFrame_effect {s e : State} {f : SealFrame} {ctr : Word} {tag : DWord} {n : Nat} (h : Accepts s f ctr tag n)
    (mon : ProgMon) (extra : Nat) (hlong : isLongCommand f = false) (hresets : sealedResets f = false)
    (heffect : sealedEffect f n ctr (accepted f ctr n extra s) = e) (hflag : e.port.shortFlag = false) (hop : e.port.shortOp = none) :
    sealedFrame f ctr tag mon extra s = onKeys (clearLoad f) e := by
  obtain ⟨⟨_, _, hshort, _⟩, _⟩ := id h
  calc sealedFrame f ctr tag mon extra s
      = endFrame (onKeys (clearLoad f) (sealedEffect f n ctr (endFrame (sealedBooks f
          { code := 0, slot := some n, effect := true } 0 ctr (acceptedLine f 0 extra s))))) := by
        rw [sealedFrame_accepted h mon extra hlong]
        unfold sealedCommit
        dsimp only
        rw [hlong, hresets]
        rfl
    _ = onKeys (clearLoad f) e := by
        rw [sealedBooks_accepted _ _ _ _ hshort, heffect]
        exact endFrame_ended hflag hop

/-- A sealed write of G_DEBUG sets both of its SEAL fields (R101). -/
theorem commitWord_debug (d : Word) (s : State) : commitWord 0x094 d .sealed s =
    { s with port := { s.port with debugReg := BitVec.ofNat 2 d.toNat } } := rfl

/-- An accepted SEALED WRITE of G_DEBUG (R101). -/
theorem sealedFrame_debug {s : State} {d ctr : Word} {tag : DWord} {n : Nat} (h : Accepts s (.write 0x094 d) ctr tag n) (mon : ProgMon)
    (extra : Nat) : sealedFrame (.write 0x094 d) ctr tag mon extra s = { s with
      port := { acceptedPort s (.write 0x094 d) extra with debugReg := BitVec.ofNat 2 d.toNat }
      keys := advanceCounter s.keys n ctr } := by
  obtain ⟨⟨_, _, hshort, _⟩, _⟩ := id h
  exact sealedFrame_effect h mon extra rfl rfl (commitWord_debug d _) hshort rfl

/-! ## KEY_PART and KEY_INSTALL (R104) -/

theorem toNat_keyPartCode (k : BitVec 2) : (0x10 + k.setWidth 16 : BitVec 16).toNat = 0x10 + k.toNat := by
  revert k; decide

theorem isLongCommand_keyPart (k : BitVec 2) (arg : Word) : isLongCommand (.command (0x10 + k.setWidth 16) arg) = false := by
  change ((0x10 + k.setWidth 16 : BitVec 16) == 1 || (0x10 + k.setWidth 16 : BitVec 16) == 2) = false
  revert k; decide

theorem keyPartCode_ne_install (k : BitVec 2) : (0x10 + k.setWidth 16 : BitVec 16) ≠ 0x14 := by
  revert k; decide

/-- KEY_PARTk's code puts its word in place `k` of the key-load register (R104). -/
theorem commandEffect_keyPart (k : BitVec 2) (arg : Word) (n : Nat) (ctr : Word) (s : State) :
    commandEffect (0x10 + k.setWidth 16 : BitVec 16).toNat arg n ctr s = onKeys (fun q => { q with
      loadKey := putKeyPart k.toNat arg q.loadKey, parts := putBit q.parts k.toNat true }) s := by
  have hk := k.isLt
  have hcode : (decide (0x10 ≤ 0x10 + k.toNat) && decide (0x10 + k.toNat ≤ 0x13)) = true := by
    simp only [Bool.and_eq_true, decide_eq_true_eq]
    omega
  unfold commandEffect
  rw [toNat_keyPartCode]
  dsimp only
  rw [if_pos hcode, Nat.add_sub_cancel_left]

theorem slotOf_advanceCounter_same (k : Seal) (n : Nat) (ctr : Word) :
    slotOf (advanceCounter k n ctr) n = { slotOf k n with c := ctr } := slotOf_putSlot_same _ _ _

/-- The wrapping key is the sealing slot's, whose counter does not enter into it (R104). -/
theorem unwrapKey_advanceCounter (k : Seal) (n : Nat) (ctr dieHi dieLo : Word) :
    unwrapKey (advanceCounter k n ctr) n ctr dieHi dieLo = unwrapKey k n ctr dieHi dieLo := by
  unfold unwrapKey
  rw [slotOf_advanceCounter_same]
  rfl

/-- RIGHTS of KEY_INSTALL's argument, as the slot's six bits (R104). -/
theorem ofNat_rightsField (arg : Nat) : BitVec.ofNat 6 (field arg 8 6) = BitVec.ofNat 6 (arg / 256) := by
  apply BitVec.eq_of_toNat_eq
  rw [field_eq, BitVec.toNat_ofNat, BitVec.toNat_ofNat, Nat.mod_mod]
  rfl

/-- The key that a KEY_INSTALL sealed by slot `n` puts into the slot it names, beside what that slot held once the counter had
advanced: the counter of the new key starts at the old ceiling and is never lowered (R96, R104). -/
def keyInstalled (s : State) (n : Nat) (arg ctr : Word) : KeySlot :=
  let old := slotOf (advanceCounter s.keys n ctr) (arg.toNat % 4)
  { key := unwrapKey s.keys n ctr s.port.dieHi s.port.dieLo, st := .active, rights := BitVec.ofNat 6 (arg.toNat / 256)
    h := old.h + 1024, c := if old.h.toNat < old.c.toNat then old.c else old.h }

/-- The state after a KEY_INSTALL behind its books, with this key in the slot it names and staged (R104, R107). -/
def withKey (s : State) (n : Nat) (arg ctr : Word) (extra : Nat) (v : KeySlot) : State :=
  { s with
    keys := putSlot (advanceCounter s.keys n ctr) (arg.toNat % 4) v
    gran := stageCeiling (stageKey s.gran (arg.toNat % 4) v) (arg.toNat % 4) v.h
    port := acceptedPort s (.command 0x14 arg) extra }

theorem sealedEffect_install (s : State) (n : Nat) (arg ctr : Word) (extra : Nat) :
    sealedEffect (.command 0x14 arg) n ctr (accepted (.command 0x14 arg) ctr n extra s) =
      withKey s n arg ctr extra (keyInstalled s n arg ctr) := by
  have hcode : sealedEffect (.command 0x14 arg) n ctr (accepted (.command 0x14 arg) ctr n extra s) =
      let r := installSlot s.gran (advanceCounter s.keys n ctr) (arg.toNat % 4)
        (unwrapKey (advanceCounter s.keys n ctr) n ctr s.port.dieHi s.port.dieLo) (BitVec.ofNat 6 (field arg.toNat 8 6))
      { s with gran := r.1, keys := r.2, port := acceptedPort s (.command 0x14 arg) extra } := rfl
  rw [hcode, unwrapKey_advanceCounter, ofNat_rightsField]
  rfl

/-- The state with its key-load register cleared (R104). -/
def loadCleared : State → State := onKeys (fun k => { k with loadKey := 0, parts := 0 })

/-- An accepted KEY_INSTALL fills and stages its slot, and clears the key-load register (R104). -/
theorem sealedFrame_install {s : State} {arg ctr : Word} {tag : DWord} {n : Nat} (h : Accepts s (.command 0x14 arg) ctr tag n)
    (mon : ProgMon) (extra : Nat) : sealedFrame (.command 0x14 arg) ctr tag mon extra s =
      loadCleared (withKey s n arg ctr extra (keyInstalled s n arg ctr)) := by
  obtain ⟨⟨_, _, hshort, _⟩, _⟩ := id h
  exact sealedFrame_effect h mon extra rfl rfl (sealedEffect_install s n arg ctr extra) hshort rfl

theorem slotOf_withKey (s : State) (n : Nat) (arg ctr : Word) (extra : Nat) (v : KeySlot) :
    slotOf (loadCleared (withKey s n arg ctr extra v)).keys (arg.toNat % 4) = v := slotOf_putSlot_same _ _ _

/-! ## COMMIT and RESERVE (R103, R134) -/

/-- The slots once a long command has programmed: RESERVE raises its slot's ceiling by 1,024 (R103). -/
def raisedKeys (f : SealFrame) (n : Nat) (k : Seal) : Seal :=
  if isReserve f then putSlot k n { slotOf k n with h := (slotOf k n).h + 1024 } else k

/-- A long command whose programming did not stop has the granary's commit as its effect, and counts it (R134). -/
theorem commitLong_programmed {f : SealFrame} {n : Nat} {mon : ProgMon} {s : State}
    (h : (granaryCommit s.gran (raisedView s f n) mon).2 = none) : commitLong f n mon s = ({ s with
      gran := (granaryCommit s.gran (raisedView s f n) mon).1, keys := raisedKeys f n s.keys
      port := { s.port with grayCommits := s.port.grayCommits + 1 } }, none) := by
  unfold commitLong raisedKeys
  dsimp only
  rw [h]
  cases isReserve f <;> rfl

/-- The state with the VDD_NV monitor reading good (R40). -/
def nvGood (s : State) : State := { s with mon := { s.mon with rails := { s.mon.rails with nv := true } } }

/-- A long command under which VDD_NV never falls notes that it is good (R40). -/
theorem noteNv_good {f : SealFrame} {mon : ProgMon} (last : Nat) (s : State) (hlong : isLongCommand f = true) (hnv : mon.nvLow = none) :
    noteNv f mon last s = nvGood s := by
  unfold noteNv
  rw [if_pos hlong, hnv]
  rfl

/-- An accepted COMMIT or RESERVE that finds VDD_NV good throughout and programs its image (R103, R112, R134). -/
theorem sealedFrame_programmed {s : State} {f : SealFrame} {ctr : Word} {tag : DWord} {n : Nat} {mon : ProgMon}
    (h : Accepts s f ctr tag n) (extra : Nat) (hlong : isLongCommand f = true) (hnv : mon.nvLow = none)
    (hcommit : (granaryCommit s.gran (raisedView s f n) mon).2 = none) :
    sealedFrame f ctr tag mon extra s = { nvGood s with
      gran := (granaryCommit s.gran (raisedView s f n) mon).1, keys := advanceCounter (raisedKeys f n s.keys) n ctr
      port := { acceptedPort s f extra with grayCommits := s.port.grayCommits + 1 } } := by
  obtain ⟨⟨_, _, hshort, _⟩, _⟩ := id h
  have hframe := sealedFrame_long h mon extra hlong
  dsimp only at hframe
  rw [noteNv_good _ _ hlong hnv, commitLong_programmed (by exact hcommit)] at hframe
  have hcode : sealedCode { code := 0, slot := some n, effect := true } none = 0 := rfl
  rw [hframe, hcode]
  unfold sealedCommit
  dsimp only
  rw [if_pos hlong, commitLong_programmed (by exact hcommit)]
  exact endFrame_quiet { nvGood s with
    gran := (granaryCommit s.gran (raisedView s f n) mon).1, keys := advanceCounter (raisedKeys f n s.keys) n ctr
    port := { acceptedPort s f extra with grayCommits := s.port.grayCommits + 1, shortOp := s.port.shortOp } } hshort

/-- Settles O12: the two long commands by what they program, the short frames by their effects. -/
theorem sealedFrames : Obligations.SealedFrames := by
  unfold Obligations.SealedFrames
  refine ⟨?_, ?_, ?_, ?_, ?_⟩
  · intro s d ctr tag extra n h
    exact .of_gate (hears_of_quiet h.1) rfl (sealedFrame_debug h noMonitors extra) rfl
  · intro s arg ctr tag mon extra n h hnv hcommit
    exact .of_gate (hears_of_quiet h.1) rfl (sealedFrame_programmed h extra rfl hnv hcommit) rfl
  · intro s arg ctr tag mon extra n h hnv hcommit
    exact .of_gate (hears_of_quiet h.1) rfl (sealedFrame_programmed h extra rfl hnv hcommit) rfl
  · intro s k arg ctr tag extra n h
    exact .of_gate (hears_of_quiet h.1) rfl (sealedFrame_command h noMonitors extra (isLongCommand_keyPart k arg)
      (keyPartCode_ne_install k) (commandEffect_keyPart k arg n ctr _) rfl) rfl
  · intro s arg ctr tag extra n h
    have hslot : slotOf (settle s (loadCleared (withKey s n arg ctr extra (keyInstalled s n arg ctr)))).keys (arg.toNat % 4) =
      keyInstalled s n arg ctr := slotOf_withKey s n arg ctr extra _
    refine .of_gate (hears_of_quiet h.1) rfl (sealedFrame_install h noMonitors extra) ⟨hslot, ?_⟩
    rw [hslot]
    rfl

/-! ## Bad tags (R97 to R99, R112) -/

/-- A bad tag outside a lockout: the sixteenth in a row starts one of 65,536 edges (R98, R99). -/
theorem countBadTag_unlocked {k : Seal} (h : k.locked = false) : countBadTag k = { k with
    total := satAdd k.total 1, consec := BitVec.ofNat 5 (k.consec.toNat + 1), locked := decide (k.consec.toNat + 1 = 16)
    lockLeft := if k.consec.toNat + 1 = 16 then 65536 else k.lockLeft } := by
  have hrun : Config.lockoutRun = 16 := rfl
  unfold countBadTag
  dsimp only
  rw [hrun]
  by_cases h16 : k.consec.toNat + 1 = 16
  · rw [if_pos h16, if_pos h16, decide_eq_true h16, h16]
    rfl
  · rw [if_neg h16, if_neg h16, decide_eq_false h16, ← h]

/-- The verdict's count of a bad tag raises the lockout's alert with the sixteenth (R98, R99). -/
theorem noteVerdict_badTag {s : State} (h : s.keys.locked = false) :
    noteVerdict { code := 0x01, slot := none, effect := false } s = { s with
      keys := countBadTag s.keys, port := { s.port with grayFails := s.port.grayFails + 1 }
      alert := if s.keys.consec.toNat + 1 = 16 then putBit s.alert causeSealLock true else s.alert } := by
  have hlocked : (countBadTag s.keys).locked = decide (s.keys.consec.toNat + 1 = 16) := by rw [countBadTag_unlocked h]
  unfold noteVerdict
  rw [if_pos rfl]
  dsimp only [onPort, onKeys]
  rw [hlocked]
  by_cases h16 : s.keys.consec.toNat + 1 = 16
  · rw [if_pos h16, decide_eq_true h16]; rfl
  · rw [if_neg h16, decide_eq_false h16]; rfl

/-- A frame whose tag no slot's key gives, and that is no long command, has the count of a bad tag and the books of a
refused frame (R98, R112). -/
theorem sealedFrame_badTag {s : State} {f : SealFrame} {ctr : Word} {tag : DWord} (hq : PortQuiet s)
    (hv : verdictOf f ctr tag s = { code := 0x01, slot := none, effect := false }) (hlong : isLongCommand f = false) (mon : ProgMon)
    (extra : Nat) : sealedFrame f ctr tag mon extra s = { s with
      keys := countBadTag s.keys, port := { refusedPort s f 0x01 extra with grayFails := s.port.grayFails + 1 }
      alert := if s.keys.consec.toNat + 1 = 16 then putBit s.alert causeSealLock true else s.alert } := by
  obtain ⟨_, _, hshort, _, hunlocked⟩ := id hq
  have hk : (onPort (fun p => { p with shortFlag := true }) s).keys.locked = false := hunlocked
  unfold sealedFrame
  rw [beginFrame_quiet hq, tick_unlocked 8 hk]
  dsimp only
  rw [verdictOf_port, hv, noteVerdict_badTag hk, noteNv_short _ _ _ hlong]
  dsimp only [sealedCommit]
  rw [sealedBooks_plainRefusal ctr _ rfl (by decide)]
  exact endFrame_quiet { s with
    keys := countBadTag s.keys
    port := { s.port with
      lastCode := 0x01, lastOp := sealedOp f, gsdo := statusLine (sealedClocks f) 0x01 extra, grayFails := s.port.grayFails + 1 }
    alert := if s.keys.consec.toNat + 1 = 16 then putBit s.alert causeSealLock true else s.alert } hshort

/-- Settles O14: the count of the verdict, and the books of a refused frame. -/
theorem badTagsCount : Obligations.BadTagsCount := by
  unfold Obligations.BadTagsCount
  intro s fb d ctr tag extra hq hv
  obtain ⟨_, _, _, _, hunlocked⟩ := id hq
  have hframe := sealedFrame_badTag hq hv rfl noMonitors extra
  rw [countBadTag_unlocked hunlocked] at hframe
  exact .of_gate (hears_of_quiet hq) rfl hframe rfl

/-! ## OPEN (R113, R128, R129) -/

theorem slotOf_loadSlots (g : Granary) (k : Seal) {n : Nat} (hn : n < 4) : slotOf (loadSlots g k) n = loadSlot g n :=
  slotOf_foldl_putSlot_all (loadSlot g) k hn

/-- The load of the slots leaves the rest of the seal engine (R113). -/
theorem loadSlots_frame (g : Granary) (k : Seal) : ∃ slots, loadSlots g k = { k with slots := slots } :=
  foldl_putSlot_frame (loadSlot g) [0, 1, 2, 3] k

/-- The state after an OPEN that found this, with these slots loaded (R113, R128, R129). -/
def granaryOpened (s : State) (found : Granary × Bool) (slots : Sparse KeySlot) (extra : Nat) : State :=
  { s with
    gran := found.1, keys := { s.keys with slots := slots }
    port := { s.port with lastCode := 0x00, lastOp := opOpen, gsdo := statusLine openClocks 0 extra, shortOp := none }
    alert := if found.2 then putBit s.alert causeGranary true else s.alert }

/-- OPEN from an idle port is its commit edge: no lockout counts its clocks (R99, R129). -/
theorem openFrame_quiet {s : State} {slots : Sparse KeySlot} (finds : OpenFinds) (extra : Nat) (hq : PortQuiet s)
    (hload : loadSlots (granaryOpen s.gran finds).1 s.keys = { s.keys with slots := slots }) :
    openFrame finds extra s = granaryOpened s (granaryOpen s.gran finds) slots extra := by
  obtain ⟨_, _, hshort, _, hunlocked⟩ := id hq
  have hk : (onPort (fun p => { p with shortFlag := true }) s).keys.locked = false := hunlocked
  have hgran : (onPort (fun p => { p with shortFlag := true }) s).gran = s.gran := rfl
  have hkeys : (onPort (fun p => { p with shortFlag := true }) s).keys = s.keys := rfl
  unfold openFrame
  rw [beginFrame_quiet hq, tick_unlocked openClocks hk]
  dsimp only
  rw [hgran, hkeys, hload]
  generalize granaryOpen s.gran finds = found
  obtain ⟨g, alarm⟩ := found
  have hend := endFrame_quiet { granaryOpened s (g, alarm) slots extra with
    port := { s.port with lastCode := 0x00, lastOp := opOpen, gsdo := statusLine openClocks 0 extra } } hshort
  cases alarm with
  | false => exact (tick_unlocked extra (by exact hunlocked)).trans hend
  | true => exact (tick_unlocked extra (by exact hunlocked)).trans hend

/-- Settles O17: the slots by the load, the rest by OPEN's frame. -/
theorem openLoadsSlots : Obligations.OpenLoadsSlots := by
  unfold Obligations.OpenLoadsSlots
  intro s finds extra hq
  obtain ⟨slots, hload⟩ := loadSlots_frame (granaryOpen s.gran finds).1 s.keys
  have hloaded : ∀ n < 4, slotOf { s.keys with slots := slots } n = loadSlot (granaryOpen s.gran finds).1 n := fun n hn => by
    rw [← hload]
    exact slotOf_loadSlots _ _ hn
  exact .of_gate (hears_of_quiet hq) rfl (openFrame_quiet finds extra hq hload) ⟨rfl, hloaded, rfl⟩

end Sys2Proof.Machine

end

