-- ==== Sys2Proof/Proofs/Granary.lean ====
section
/-!
PROOF. The granary and the other memories: their canonical form, at reset and after every command (R117, R231, R307), and the bank that
OPEN takes (R127).
-/

namespace Sys2Proof.Machine

/-! ## The canonical form, part by part (R117, R231, R307) -/

/-- The loom's memories have their canonical form. -/
def Loom.Canonical (l : Loom) : Prop := l.banks.wf = true ∧ l.kv.wf = true ∧ l.store.wf = true

/-- The granary's memories have their canonical form. -/
def Granary.Canonical (g : Granary) : Prop := g.bankA.wf = true ∧ g.bankB.wf = true ∧ g.factory.wf = true

theorem memOk_iff (s : State) : memOk s = true ↔ s.loom.Canonical ∧ s.gran.Canonical := by
  simp only [memOk, Bool.and_eq_true, Loom.Canonical, Granary.Canonical, and_assoc]

theorem Memory.wf_nil : Memory.wf [] = true := swf_nil 0

theorem Loom.canonical_mwrite_banks {l : Loom} {a : Nat} {bs : List Byte} {up : Upsets} (h : l.Canonical) :
    Loom.Canonical { l with banks := mwrite l.banks a bs, bankUp := up } := by
  obtain ⟨hbanks, hkv, hstore⟩ := h
  exact ⟨Memory.wf_mwrite bs _ a hbanks, hkv, hstore⟩

theorem Loom.canonical_mwrite_kv {l : Loom} {a : Nat} {bs : List Byte} {up : Upsets} (h : l.Canonical) :
    Loom.Canonical { l with kv := mwrite l.kv a bs, kvUp := up } := by
  obtain ⟨hbanks, hkv, hstore⟩ := h
  exact ⟨hbanks, Memory.wf_mwrite bs _ a hkv, hstore⟩

theorem Loom.canonical_mwrite_store {l : Loom} {a : Nat} {bs : List Byte} {up : Upsets} (h : l.Canonical) :
    Loom.Canonical { l with store := mwrite l.store a bs, storeUp := up } := by
  obtain ⟨hbanks, hkv, hstore⟩ := h
  exact ⟨hbanks, hkv, Memory.wf_mwrite bs _ a hstore⟩

/-- A LOOM reset empties the loom's memories (R268, R330). -/
theorem Loom.canonical_resetLoom (l : Loom) : (resetLoom l).Canonical := ⟨Memory.wf_nil, Memory.wf_nil, Memory.wf_nil⟩

theorem Loom.canonical_clearTally {l : Loom} (n lc : Nat) (e : TallySel) (h : l.Canonical) : (clearTally n lc e l).Canonical := by
  unfold clearTally rollTally
  split
  · exact h
  · exact h

/-! ## The image a COMMIT programs (R131 to R135) -/

theorem le_of_mem_memOfBytes {bs : List Byte} {a : Nat} {e : Host.Cell} (h : e ∈ memOfBytes a bs) : a ≤ e.1 := by
  induction bs generalizing a with
  | nil => simp [memOfBytes] at h
  | cons b bs ih =>
    rw [memOfBytes] at h
    split at h
    · exact Nat.le_of_succ_le (ih h)
    · rcases List.mem_cons.1 h with rfl | h
      · exact Nat.le_refl a
      · exact Nat.le_of_succ_le (ih h)

theorem ne_zero_of_mem_memOfBytes {bs : List Byte} {a : Nat} {e : Host.Cell} (h : e ∈ memOfBytes a bs) : e.2 ≠ 0 := by
  induction bs generalizing a with
  | nil => simp [memOfBytes] at h
  | cons b bs ih =>
    rw [memOfBytes] at h
    split at h
    · exact ih h
    · rename_i hb
      rcases List.mem_cons.1 h with rfl | h
      · exact hb
      · exact ih h

theorem rises_memOfBytes (bs : List Byte) (a : Nat) : Rises (memOfBytes a bs) := by
  induction bs generalizing a with
  | nil => exact List.Pairwise.nil
  | cons b bs ih =>
    rw [memOfBytes]
    split
    · exact ih (a + 1)
    · exact List.pairwise_cons.2 ⟨fun e he => le_of_mem_memOfBytes he, ih (a + 1)⟩

theorem Memory.wf_memOfBytes (a : Nat) (bs : List Byte) : (memOfBytes a bs).wf = true :=
  (swf_iff 0 _).2 ⟨rises_memOfBytes bs a, fun _ => ne_zero_of_mem_memOfBytes⟩

/-- Programming leaves a canonical bank: the old one, or the image as a list of bytes. -/
theorem programBank_wf {g : Granary} (stop : Option (Nat × ProgStop)) (last : Nat) (h : g.Canonical) :
    (programBank g stop last).bank.wf = true := by
  obtain ⟨hA, hB, _⟩ := h
  unfold programBank
  split
  rename_i toA seq _
  extract_lets old oldUp done
  clear_value done
  split
  · cases toA with
    | false => exact hB
    | true => exact hA
  · exact Memory.wf_memOfBytes _ _

theorem canonical_seeUpsets {g : Granary} (mon : ProgMon) (h : g.Canonical) : (seeUpsets mon g).Canonical := by
  unfold seeUpsets
  extract_lets x
  cases x.st with
  | _ => exact h

theorem canonical_putTarget {g : Granary} {p : Programmed} (h : g.Canonical) (hp : p.bank.wf = true) : (putTarget g p).Canonical := by
  obtain ⟨hA, hB, hF⟩ := h
  unfold putTarget
  split
  · exact ⟨hp, hB, hF⟩
  · exact ⟨hA, hp, hF⟩

theorem canonical_granaryCommit {g view : Granary} (mon : ProgMon) (h : g.Canonical) (hview : view.Canonical) :
    (granaryCommit g view mon).1.Canonical := by
  have hseen := canonical_seeUpsets mon hview
  have hbank := programBank_wf (progStop (seeUpsets mon view) mon) 8448 hseen
  have hvalid := canonical_putTarget hseen hbank
  have hstopped := canonical_putTarget (canonical_seeUpsets mon h) hbank
  unfold granaryCommit
  dsimp only
  split
  · exact hvalid
  · split
    · exact hstopped
    · exact hstopped
    · exact hstopped
    · exact hstopped

theorem canonical_granaryCut {g view : Granary} (mon : ProgMon) (last : Nat) (h : g.Canonical) (hview : view.Canonical) :
    (granaryCut g view mon last).Canonical :=
  canonical_putTarget (canonical_seeUpsets mon h) (programBank_wf _ last (canonical_seeUpsets mon hview))

/-- OPEN reads the banks and programs nothing (R128). -/
theorem canonical_granaryOpen {g : Granary} (finds : OpenFinds) (h : g.Canonical) : (granaryOpen g finds).1.Canonical := h

/-! ## Staging (R123, R124) -/

theorem canonical_storeDeltaBytes {g : Granary} {off : Nat} {bs : List Byte} (h : g.Canonical) : (storeDeltaBytes g off bs).Canonical :=
  List.foldlRecOn (motive := Granary.Canonical) _ _ h (fun _ hg _ _ => hg)

theorem canonical_stageSlot {g : Granary} {n m : Nat} {v : KeySlot} {w : Word} (h : g.Canonical) :
    (stageCeiling (stageKey g n v) m w).Canonical :=
  canonical_storeDeltaBytes (canonical_storeDeltaBytes h)

theorem canonical_decommission {g : Granary} {k : Seal} (h : g.Canonical) : (decommission g k).1.Canonical :=
  List.foldlRecOn (motive := Granary.Canonical) _ _ h (fun _ hg _ _ => canonical_stageSlot hg)

theorem canonical_raisedView {s : State} (f : SealFrame) (slot : Nat) (h : s.gran.Canonical) : (raisedView s f slot).Canonical := by
  unfold raisedView
  split
  · exact canonical_storeDeltaBytes h
  · exact h

/-! ## What every operation keeps

`kept_f` says it of the model's function `f`, in the order of the model's files; its hypothesis `h` is what the state before has kept
since `s₀`, so that the lemmas compose as the functions do. -/

/-- `t` waits for the same commands as `s`, and its memories have their canonical form where those of `s` have it. -/
structure Kept (s t : State) : Prop where
  queue : t.pending = s.pending
  loom : s.loom.Canonical → t.loom.Canonical
  granary : s.gran.Canonical → t.gran.Canonical

theorem Kept.refl (s : State) : Kept s s := ⟨rfl, id, id⟩

theorem Kept.memOk {s t : State} (h : Kept s t) (hs : memOk s = true) : memOk t = true := by
  rw [memOk_iff] at hs ⊢
  exact ⟨h.loom hs.1, h.granary hs.2⟩

section
-- One lemma after another: each lemma that waits for those before it holds a thread with a deep stack.
set_option Elab.async false
variable {s₀ s t : State}

/-- A further change of the state that leaves the queue alone and keeps the memories. -/
theorem Kept.same (h : Kept s₀ s) (hq : t.pending = s.pending := by rfl) (hl : s.loom.Canonical → t.loom.Canonical := by exact id)
    (hg : s.gran.Canonical → t.gran.Canonical := by exact id) : Kept s₀ t :=
  ⟨hq.trans h.queue, hl ∘ h.loom, hg ∘ h.granary⟩

theorem kept_ite {c : Prop} [Decidable c] {a b : State} (ha : Kept s₀ a) (hb : Kept s₀ b) : Kept s₀ (if c then a else b) := by
  split
  · exact ha
  · exact hb

theorem kept_foldl {α : Type} {f : State → α → State} {l : List α} (hf : ∀ {s x}, Kept s₀ s → Kept s₀ (f s x)) (h : Kept s₀ s) :
    Kept s₀ (l.foldl f s) :=
  List.foldlRecOn (motive := Kept s₀) l f h (fun _ hs _ _ => hf hs)

theorem kept_onLoom {f : Loom → Loom} (h : Kept s₀ s) (hf : ∀ l, l.Canonical → (f l).Canonical := by exact fun _ hl => hl) :
    Kept s₀ (onLoom f s) :=
  h.same rfl (hf s.loom)

/-! ### Access to the tables, alert causes, events -/

theorem kept_onPwr {f} (h : Kept s₀ s) : Kept s₀ (onPwr f s) := h.same
theorem kept_putWeft {m v} (h : Kept s₀ s) : Kept s₀ (putWeft m v s) := h.same
theorem kept_putWarp {m v} (h : Kept s₀ s) : Kept s₀ (putWarp m v s) := h.same
theorem kept_putRing {n v} (h : Kept s₀ s) : Kept s₀ (putRing n v s) := kept_onLoom h
theorem kept_putTenant {t v} (h : Kept s₀ s) : Kept s₀ (putTenant t v s) := kept_onLoom h
theorem kept_putDraft {d v} (h : Kept s₀ s) : Kept s₀ (putDraft d v s) := kept_onLoom h
theorem kept_putTile {t v} (h : Kept s₀ s) : Kept s₀ (putTile t v s) := kept_onLoom h
theorem kept_putSeq {q v} (h : Kept s₀ s) : Kept s₀ (putSeq q v s) := kept_onLoom h
theorem kept_putEngine {r v} (h : Kept s₀ s) : Kept s₀ (putEngine r v s) := kept_onLoom h
theorem kept_fromGate {f} (hf : ∀ {s}, Kept s₀ s → Kept s₀ (f s)) (h : Kept s₀ s) : Kept s₀ (fromGate f s) := kept_ite h (hf h)
theorem kept_raise {i} (h : Kept s₀ s) : Kept s₀ (raise i s) := h.same

theorem kept_loomTally {src ten n} (h : Kept s₀ s) : Kept s₀ (loomTally src ten n s) := by
  obtain ⟨books, heq⟩ := loomTally_frame s src ten n
  rw [heq]
  exact h.same

theorem kept_watchTally {src n} (h : Kept s₀ s) : Kept s₀ (watchTally src n s) := kept_ite h h.same
theorem kept_passPeriods {n} (h : Kept s₀ s) : Kept s₀ (passPeriods n s) := h.same

theorem kept_passLc (h : Kept s₀ s) : Kept s₀ (passLc s) :=
  kept_ite h (kept_ite h.same.same (kept_passPeriods (kept_onLoom h.same)))

theorem kept_sendFlit {m ack x} (h : Kept s₀ s) : Kept s₀ (sendFlit m ack x s) := kept_putWeft h

theorem kept_pumpN {k m} (h : Kept s₀ s) : Kept s₀ (pumpN k m s) := by
  obtain ⟨weft, heq⟩ := pumpN_frame s k m
  rw [heq]
  exact h.same

theorem kept_pump {m} (h : Kept s₀ s) : Kept s₀ (pump m s) := kept_pumpN h
theorem kept_enqueueOn {m x} (h : Kept s₀ s) : Kept s₀ (enqueueOn m x s) := kept_pump (kept_putWeft h)
theorem kept_enqueue {x} (h : Kept s₀ s) : Kept s₀ (enqueue x s) := kept_enqueueOn h

theorem kept_answerRead {m tag status tenant data} (h : Kept s₀ s) : Kept s₀ (answerRead m tag status tenant data s) :=
  kept_enqueueOn h

theorem kept_writeEntry {n isEvent mk} (h : Kept s₀ s) : Kept s₀ (writeEntry n isEvent mk s) := by
  unfold writeEntry
  extract_lets r s1 r' s2
  have h1 : Kept s₀ s1 := kept_enqueue h
  have h2 : Kept s₀ s2 := kept_putRing h1
  exact kept_ite (kept_enqueue h2) h2

theorem kept_flushLost {t} (h : Kept s₀ s) : Kept s₀ (flushLost t s) := kept_ite (kept_putTenant (kept_writeEntry h)) h

theorem kept_sendEvent {t code id arg detail} (h : Kept s₀ s) : Kept s₀ (sendEvent t code id arg detail s) := by
  unfold sendEvent
  extract_lets s' _
  have h' : Kept s₀ s' := kept_flushLost h
  exact kept_ite (kept_writeEntry h') (kept_putTenant h')

theorem kept_oweEvent {t code arg now} (h : Kept s₀ s) : Kept s₀ (oweEvent t code arg now s) :=
  kept_ite (kept_writeEntry h) (kept_putTenant h)

theorem kept_sendOwed {t} (h : Kept s₀ s) : Kept s₀ (sendOwed t s) := by
  unfold sendOwed
  extract_lets ten s1 s2
  have h1 : Kept s₀ s1 := kept_putTenant h
  have h2 : Kept s₀ s2 := kept_foldl (fun hs => kept_oweEvent hs) h1
  refine kept_flushLost ?_
  split
  · exact h2
  · exact kept_oweEvent h2

theorem kept_conflictBooks {loser kind tenant cut} (h : Kept s₀ s) : Kept s₀ (conflictBooks loser kind tenant cut s) :=
  kept_raise (kept_onPwr h)

theorem kept_conflictState {loser kind tenant requested} (h : Kept s₀ s) :
    Kept s₀ (conflictState loser kind tenant requested s) := by
  unfold conflictState
  extract_lets s'
  have h' : Kept s₀ s' := kept_conflictBooks h
  split
  · exact h'
  · exact kept_loomTally (kept_sendEvent h')

/-! ### Jobs, records and tenant resets -/

theorem kept_onJobs {f} (h : Kept s₀ s) : Kept s₀ (onJobs f s) := kept_onLoom h
theorem kept_modJob {o f} (h : Kept s₀ s) : Kept s₀ (modJob o f s) := kept_onJobs h
theorem kept_endJob {o code} (h : Kept s₀ s) : Kept s₀ (endJob o code s) := kept_modJob h
theorem kept_returnSeqs (h : Kept s₀ s) : Kept s₀ (returnSeqs s) := kept_onLoom h
theorem kept_dropJob {o} (h : Kept s₀ s) : Kept s₀ (dropJob o s) := kept_returnSeqs (kept_onJobs h)
theorem kept_modCkpt {o f} (h : Kept s₀ s) : Kept s₀ (modCkpt o f s) := kept_modJob h
theorem kept_noteResult {o} (h : Kept s₀ s) : Kept s₀ (noteResult o s) := kept_modJob h
theorem kept_dropQueue {o} (h : Kept s₀ s) : Kept s₀ (dropQueue o s) := kept_modCkpt (kept_onLoom h)
theorem kept_endCkpt {o code} (h : Kept s₀ s) : Kept s₀ (endCkpt o code s) := kept_dropQueue (kept_endJob (kept_noteResult h))
theorem kept_flagJobs {p code silent} (h : Kept s₀ s) : Kept s₀ (flagJobs p code silent s) := kept_onJobs h
theorem kept_flagCut (h : Kept s₀ s) : Kept s₀ (flagCut s) := kept_onJobs h

theorem kept_endFlagged {j} (h : Kept s₀ s) : Kept s₀ (endFlagged j s) := by
  unfold endFlagged
  split
  · exact h
  · split
    · exact kept_dropJob (kept_dropQueue h)
    · extract_lets s1
      have h1 : Kept s₀ s1 := kept_ite (kept_endCkpt h) (kept_endJob h)
      exact kept_ite (kept_conflictBooks h1) h1

theorem kept_writeRecord {r} (h : Kept s₀ s) : Kept s₀ (writeRecord r s) := by
  unfold writeRecord
  extract_lets n s1 _
  have h1 : Kept s₀ s1 := kept_loomTally (kept_loomTally h)
  exact kept_ite (kept_writeEntry (kept_putRing h1)) h1

theorem kept_answerNow {r} (h : Kept s₀ s) : Kept s₀ (answerNow r s) := by
  unfold answerNow
  extract_lets s1
  have h1 : Kept s₀ s1 := by
    unfold s1
    split
    · exact kept_loomTally h
    · exact h
  exact kept_writeRecord h1

theorem kept_issueJob {j} (h : Kept s₀ s) : Kept s₀ (issueJob j s) := kept_dropJob (kept_writeRecord h)

theorem kept_issueAll {n} (h : Kept s₀ s) : Kept s₀ (issueAll n s) := by
  induction n generalizing s with
  | zero => exact h
  | succ n ih =>
    unfold issueAll
    split
    · exact h
    · exact ih (kept_issueJob h)

theorem kept_cutCommands {p} (h : Kept s₀ s) : Kept s₀ (cutCommands p s) := kept_onLoom h
theorem kept_freeSeq {q} (h : Kept s₀ s) : Kept s₀ (freeSeq q s) := kept_putSeq h

theorem kept_requestTenantReset {t gate} (h : Kept s₀ s) : Kept s₀ (requestTenantReset t gate s) :=
  kept_flagJobs (kept_putTenant h)

theorem kept_clearMarks {t} (h : Kept s₀ s) : Kept s₀ (clearMarks t s) := kept_foldl (fun hs => kept_putWarp hs) h
theorem kept_clearTreset {t} (h : Kept s₀ s) : Kept s₀ (clearTreset t s) := kept_onPwr h

theorem kept_tenantResetEffect {t} (h : Kept s₀ s) : Kept s₀ (tenantResetEffect t s) := by
  unfold tenantResetEffect
  split
  · exact h
  · extract_lets s1 s2 _
    have h1 : Kept s₀ s1 := kept_onLoom (kept_cutCommands h)
    have h2 : Kept s₀ s2 := kept_foldl (fun hs => kept_putRing hs) h1
    exact kept_clearTreset (kept_putTenant (kept_clearMarks h2))

theorem kept_discardQueue {m} (h : Kept s₀ s) : Kept s₀ (discardQueue m s) := kept_putWeft h
theorem kept_dropPosted {m owner} (h : Kept s₀ s) : Kept s₀ (dropPosted m owner s) := kept_putWeft h

theorem kept_hostPosts {owner f} (hf : ∀ {s}, Kept s₀ s → Kept s₀ (f s)) (h : Kept s₀ s) : Kept s₀ (hostPosts owner f s) := by
  unfold hostPosts
  split
  · split
    · exact kept_dropPosted h
    · exact kept_dropPosted h.same
  · exact kept_ite h (hf h)

theorem kept_reportDropped {t n} (h : Kept s₀ s) : Kept s₀ (reportDropped t n s) := by
  unfold reportDropped
  extract_lets s1 _
  have h1 : Kept s₀ s1 := kept_loomTally h
  exact kept_ite (kept_sendEvent h1) (kept_putTenant h1)

theorem kept_reportAllDropped (h : Kept s₀ s) : Kept s₀ (reportAllDropped s) :=
  kept_foldl (fun hs => kept_foldl (fun hs => kept_reportDropped hs) (kept_putWeft hs)) h

theorem kept_applyLoomReset (h : Kept s₀ s) : Kept s₀ (applyLoomReset s) :=
  kept_foldl (fun hs => kept_putWarp hs) (h.same rfl (fun _ => Loom.canonical_resetLoom s.loom))

/-! ### Tiles, banks and breaches -/

theorem kept_modSlot {e f} (h : Kept s₀ s) : Kept s₀ (modSlot e f s) := kept_onLoom h

theorem kept_breachBooks {kind tile tenant draft lc job} (h : Kept s₀ s) :
    Kept s₀ (breachBooks kind tile tenant draft lc job s) := by
  unfold breachBooks
  extract_lets w s1 _ s2 s3
  have h1 : Kept s₀ s1 := kept_onLoom h
  have h2 : Kept s₀ s2 := kept_loomTally (kept_putTenant h1)
  have h3 : Kept s₀ s3 := kept_sendEvent h2
  exact kept_flagJobs h3

theorem kept_owesNotices {mask d} (h : Kept s₀ s) : Kept s₀ (owesNotices mask d s) := kept_foldl (fun hs => kept_putWarp hs) h

theorem kept_breach {kind tile x} (h : Kept s₀ s) : Kept s₀ (breach kind tile x s) := by
  unfold breach
  split
  · exact h
  · split
    · exact h
    · extract_lets d s1 s2 s3 s4
      have h1 : Kept s₀ s1 := kept_breachBooks h
      have h2 : Kept s₀ s2 := kept_modSlot h1
      have h3 : Kept s₀ s3 := kept_onLoom h2
      have h4 : Kept s₀ s4 := by
        unfold s4
        split
        · exact kept_modJob h3
        · exact h3
      split
      · exact kept_owesNotices h4
      · exact h4

theorem kept_breachByEntry {kind tile tenant} (h : Kept s₀ s) : Kept s₀ (breachByEntry kind tile tenant s) := kept_breachBooks h
theorem kept_useBank {key} (h : Kept s₀ s) : Kept s₀ (useBank key s) := kept_onLoom h
theorem kept_useReel {r write} (h : Kept s₀ s) : Kept s₀ (useReel r write s) := kept_onLoom h
theorem kept_countTileErrors {t n} (h : Kept s₀ s) : Kept s₀ (countTileErrors t n s) := kept_ite h (kept_onLoom h)

theorem kept_readBankRow {t k row owner found} (h : Kept s₀ s) : Kept s₀ (readBankRow t k row owner found s).2.2 := by
  obtain ⟨up, books, errors, heq⟩ := readBankRow_frame s t k row owner found
  rw [heq]
  exact h.same

theorem kept_writeBankRow {t k row data} (h : Kept s₀ s) : Kept s₀ (writeBankRow t k row data s) :=
  kept_onLoom h (fun _ => Loom.canonical_mwrite_banks)

theorem kept_settleOn {t} (h : Kept s₀ s) : Kept s₀ (settleOn t s) := kept_loomTally (kept_putTile h)
theorem kept_launch {t lat es} (h : Kept s₀ s) : Kept s₀ (launch t lat es s) := kept_putTile h
theorem kept_freeRow (h : Kept s₀ s) : Kept s₀ (freeRow s).2 := h.same

theorem kept_sourceRow {t unit src} (h : Kept s₀ s) : Kept s₀ (sourceRow t unit src s).2 := by
  obtain ⟨free, heq⟩ := sourceRow_frame s t unit src
  rw [heq]
  exact h.same

theorem kept_poisonSlot {x memory} (h : Kept s₀ s) : Kept s₀ (poisonSlot x memory s) := by
  unfold poisonSlot
  extract_lets s1
  have h1 : Kept s₀ s1 := kept_modSlot h
  split
  · exact kept_modJob h1
  · exact h1

/-! ### Booked occurrences -/

theorem kept_bookMoves {ms} (h : Kept s₀ s) : Kept s₀ (bookMoves ms s) := kept_onLoom h
theorem kept_freeMoves {ms} (h : Kept s₀ s) : Kept s₀ (freeMoves ms s) := kept_onLoom h

theorem kept_pushBehind {js last} (h : Kept s₀ s) : Kept s₀ (pushBehind js last s) := by
  induction js generalizing last s with
  | nil => exact h
  | cons j js ih =>
    unfold pushBehind
    split
    · exact ih h
    · exact ih (kept_bookMoves (kept_modJob h))

theorem kept_postpone {o lc} (h : Kept s₀ s) : Kept s₀ (postpone o lc s) := by
  unfold postpone
  split
  · exact h
  · split
    · exact h
    · exact kept_pushBehind (kept_bookMoves (kept_modJob (kept_freeMoves h)))

theorem kept_bookRun {d occ} (h : Kept s₀ s) : Kept s₀ (bookRun d occ s) := kept_onLoom h

theorem kept_rebook {b o} (h : Kept s₀ s) : Kept s₀ (rebook b o s) := by
  unfold rebook
  split
  · exact h
  · split
    · exact h
    · split
      · exact kept_ite (kept_endJob h) (kept_bookRun (kept_modJob h))
      · exact kept_ite (kept_endCkpt h) (kept_bookMoves (kept_modJob h))

theorem kept_rebookAll {b} (h : Kept s₀ s) : Kept s₀ (rebookAll b s) := kept_foldl (fun hs => kept_rebook hs) (kept_onLoom h)
theorem kept_pruneBookings {n} (h : Kept s₀ s) : Kept s₀ (pruneBookings n s) := kept_onLoom h

/-! ### The front end -/

theorem kept_onFe {f} (h : Kept s₀ s) : Kept s₀ (onFe f s) := h.same
theorem kept_readTrims (h : Kept s₀ s) : Kept s₀ (readTrims s) := kept_onFe h

theorem kept_dropFe {n} (h : Kept s₀ s) : Kept s₀ (dropFe n s) := by
  unfold dropFe
  extract_lets s1 _
  have h1 : Kept s₀ s1 := kept_onFe h
  exact kept_ite h1.same h1

theorem kept_noteEdge {n at_ on} (h : Kept s₀ s) : Kept s₀ (noteEdge n at_ on s) := kept_ite (kept_onFe h) h

theorem kept_startChannel {n at_} (h : Kept s₀ s) : Kept s₀ (startChannel n at_ s) := by
  unfold startChannel
  extract_lets s'
  have h' : Kept s₀ s' := kept_noteEdge h
  exact kept_onFe h'

theorem kept_stopChannel {n at_} (h : Kept s₀ s) : Kept s₀ (stopChannel n at_ s) := kept_dropFe (kept_onFe (kept_noteEdge h))
theorem kept_biasRamp {volt at_} (h : Kept s₀ s) : Kept s₀ (biasRamp volt at_ s) := kept_onFe h
theorem kept_biasOff {at_} (h : Kept s₀ s) : Kept s₀ (biasOff at_ s) := kept_onFe h

theorem kept_setBiasConditions {hdrm limit} (h : Kept s₀ s) : Kept s₀ (setBiasConditions hdrm limit s) :=
  kept_watchTally (kept_watchTally (kept_onFe h))

theorem kept_writeFeCtrl {d at_} (h : Kept s₀ s) : Kept s₀ (writeFeCtrl d at_ s) := by
  unfold writeFeCtrl
  extract_lets new old s0
  have h0 : Kept s₀ s0 := kept_onFe h
  refine kept_foldl ?_ h0
  intro _ _ hs
  extract_lets wasOn isOn s1 s2 e
  have h1 : Kept s₀ s1 := kept_ite (kept_readTrims (kept_startChannel hs)) (kept_ite (kept_stopChannel hs) hs)
  have h2 : Kept s₀ s2 := kept_ite (kept_onFe h1) h1
  exact kept_ite (kept_onFe h2) h2

theorem kept_muteStill {at_} (h : Kept s₀ s) : Kept s₀ (muteStill at_ s) := kept_onFe h

theorem kept_writeMicbCtrl {d at_} (h : Kept s₀ s) : Kept s₀ (writeMicbCtrl d at_ s) := by
  unfold writeMicbCtrl
  extract_lets new old s0 on was volt ramp
  have h0 : Kept s₀ s0 := kept_onFe h
  have hramp : Kept s₀ ramp := kept_ite (kept_biasRamp h0) (kept_muteStill h0)
  exact kept_ite (kept_readTrims hramp) <|
    kept_ite (kept_biasOff h0) (kept_ite hramp (kept_ite (kept_onFe h0) h0))

theorem kept_writeDecCtrl {d at_} (h : Kept s₀ s) : Kept s₀ (writeDecCtrl d at_ s) :=
  kept_ite (kept_onFe h) (kept_onFe (kept_onFe h))

theorem kept_writeFbCtrl {d} (h : Kept s₀ s) : Kept s₀ (writeFbCtrl d s) := kept_onFe h

theorem kept_applySensor (h : Kept s₀ s) : Kept s₀ (applySensor s) := by
  unfold applySensor
  extract_lets f rebase fencOn stepChange
  exact kept_onFe h

theorem kept_idlePort (h : Kept s₀ s) : Kept s₀ (idlePort s) := kept_onFe h

theorem kept_writeSens0 {d} (h : Kept s₀ s) : Kept s₀ (writeSens0 d s) := by
  unfold writeSens0
  extract_lets new was on s0
  have h0 : Kept s₀ s0 := kept_onFe h
  exact kept_ite (kept_onFe h0) (kept_ite (kept_onFe h0) h0)

theorem kept_writeSens1 {d} (h : Kept s₀ s) : Kept s₀ (writeSens1 d s) := kept_onFe h
theorem kept_writeSens2 {d} (h : Kept s₀ s) : Kept s₀ (writeSens2 d s) := kept_onFe h

theorem kept_micLost (h : Kept s₀ s) : Kept s₀ (micLost s) := by
  unfold micLost
  extract_lets s1
  have h1 : Kept s₀ s1 := kept_dropFe (kept_dropFe (kept_onFe h))
  exact kept_onFe h1

theorem kept_micBack (h : Kept s₀ s) : Kept s₀ (micBack s) := by
  unfold micBack
  extract_lets s1
  have h1 : Kept s₀ s1 := kept_foldl (fun hs => kept_ite (kept_startChannel hs) hs) h
  exact kept_ite (kept_biasRamp h1) h1

/-! ### The watch cores and the loft -/

theorem kept_onWc {f} (h : Kept s₀ s) : Kept s₀ (onWc f s) := h.same
theorem kept_onLoft {f} (h : Kept s₀ s) : Kept s₀ (onLoft f s) := h.same
theorem kept_onBell {f} (h : Kept s₀ s) : Kept s₀ (onBell f s) := h.same

theorem kept_sampleGray {n} (h : Kept s₀ s) : Kept s₀ (sampleGray n s) := by
  unfold sampleGray
  split
  · exact h
  · extract_lets _ s0 t p s1 _
    have h0 : Kept s₀ s0 := h.same
    have h1 : Kept s₀ s1 := kept_watchTally (kept_watchTally (kept_watchTally (kept_watchTally h0)))
    exact kept_ite h0 h1.same

theorem kept_queueToken {r} (h : Kept s₀ s) : Kept s₀ (queueToken s r) :=
  kept_ite (kept_onWc h) (kept_watchTally (kept_raise (kept_onWc h)))

theorem kept_updateAndRoute (h : Kept s₀ s) : Kept s₀ (updateAndRoute s) :=
  kept_foldl (fun hs => kept_queueToken hs) (kept_onWc h)

theorem kept_settingsNow (h : Kept s₀ s) : Kept s₀ (settingsNow s) := kept_onBell (kept_onWc h)

theorem kept_endWindow {gcsLow} (h : Kept s₀ s) : Kept s₀ (endWindow gcsLow s) := by
  unfold endWindow
  extract_lets w
  exact kept_onBell (kept_onWc h)

theorem kept_publishHeld (h : Kept s₀ s) : Kept s₀ (publishHeld s) := by
  unfold publishHeld
  split
  · exact h
  · exact kept_onWc h

theorem kept_freezeAt {point step winSeq rules manual decided} (h : Kept s₀ s) :
    Kept s₀ (freezeAt point step winSeq rules manual decided s) := by
  unfold freezeAt
  extract_lets half
  exact kept_onLoft h

theorem kept_takeManual (h : Kept s₀ s) : Kept s₀ (takeManual s) := kept_freezeAt h
theorem kept_releaseHalf (h : Kept s₀ s) : Kept s₀ (releaseHalf s) := kept_onLoft h
theorem kept_endHold (h : Kept s₀ s) : Kept s₀ (endHold s) := kept_ite (kept_ite (kept_releaseHalf h) (kept_onLoft h)) h

theorem kept_denyFreeze {f} (h : Kept s₀ s) : Kept s₀ (denyFreeze f s) := by
  unfold denyFreeze
  extract_lets now d
  exact kept_onLoft h

theorem kept_manualPoint (h : Kept s₀ s) : Kept s₀ (manualPoint s) := by
  unfold manualPoint
  split
  · exact kept_takeManual h
  · exact kept_ite (kept_onLoft h) (kept_denyFreeze h)

theorem kept_firingFreeze {f} (h : Kept s₀ s) : Kept s₀ (firingFreeze f s) := by
  unfold firingFreeze
  split
  · exact kept_freezeAt h
  · exact kept_ite (kept_freezeAt h) (kept_denyFreeze h)

theorem kept_redoFreezes {d} (h : Kept s₀ s) : Kept s₀ (redoFreezes d s) := by
  unfold redoFreezes
  extract_lets s1 s2
  have h1 : Kept s₀ s1 := kept_onLoft h
  have h2 : Kept s₀ s2 := by
    unfold s2
    split
    · exact kept_firingFreeze h1
    · exact h1
  exact kept_ite (kept_manualPoint h2) h2

theorem kept_requestRelease (h : Kept s₀ s) : Kept s₀ (requestRelease s) := by
  unfold requestRelease
  split
  · exact kept_onLoft h
  · split
    · exact h
    · split
      · exact kept_redoFreezes (kept_releaseHalf h)
      · exact kept_releaseHalf h

theorem kept_requestFreeze {at_} (h : Kept s₀ s) : Kept s₀ (requestFreeze at_ s) := kept_ite (kept_onLoft h) (kept_onLoft h)

theorem kept_writeLoftCtrl {d at_} (h : Kept s₀ s) : Kept s₀ (writeLoftCtrl d at_ s) := by
  unfold writeLoftCtrl
  extract_lets n s1 s2
  have h1 : Kept s₀ s1 := kept_onLoft h
  have h2 : Kept s₀ s2 := kept_ite (kept_requestRelease h1) h1
  exact kept_ite (kept_requestFreeze h2) h2

theorem kept_applySetting {x} (h : Kept s₀ s) : Kept s₀ (applySetting s x) := by
  unfold applySetting
  extract_lets a n
  exact kept_ite (kept_onWc h) (kept_ite (kept_onWc h) (kept_ite (kept_onBell h) (kept_onBell h)))

theorem kept_settingsAtStep (h : Kept s₀ s) : Kept s₀ (settingsAtStep s) :=
  kept_foldl (fun hs => kept_applySetting hs) (kept_onWc h)

theorem kept_requestAuto {f} (h : Kept s₀ s) : Kept s₀ (requestAuto f s) :=
  kept_ite h (kept_ite (kept_onLoft h) (kept_firingFreeze h))

theorem kept_settleFreeze (h : Kept s₀ s) : Kept s₀ (settleFreeze s) := by
  unfold settleFreeze
  split
  · exact h
  · exact kept_ite h (kept_firingFreeze (kept_onLoft h))

theorem kept_finishStep {gcsLow} (h : Kept s₀ s) : Kept s₀ (finishStep gcsLow s) := by
  unfold finishStep
  extract_lets stretched s1 fired wend s2 s3
  have h1 : Kept s₀ s1 := kept_settingsAtStep (kept_onWc (kept_watchTally h))
  have h2 : Kept s₀ s2 := kept_onBell (kept_ite h1 (kept_requestAuto (kept_onBell h1)))
  have h3 : Kept s₀ s3 := kept_ite (kept_endWindow h2) h2
  exact kept_ite (kept_onWc h3) (kept_ite (kept_onWc h3) h3)

theorem kept_cutStep (h : Kept s₀ s) : Kept s₀ (cutStep s) := by
  unfold cutStep
  split
  · extract_lets n s1
    have h1 : Kept s₀ s1 := kept_onWc h
    exact kept_updateAndRoute (kept_ite h1 (kept_watchTally (kept_raise h1)))
  · exact h

theorem kept_settleStep (h : Kept s₀ s) : Kept s₀ (settleStep s) := by
  unfold settleStep
  split
  · exact kept_finishStep (kept_cutStep h)
  · exact h

theorem kept_armCores {at_} (h : Kept s₀ s) : Kept s₀ (armCores at_ s) := by
  unfold armCores
  extract_lets s0 s1
  have h0 : Kept s₀ s0 := kept_settleStep h
  have h1 : Kept s₀ s1 := kept_ite h0 (kept_settingsNow h0)
  exact kept_onBell (kept_onWc h1)

theorem kept_disarmCores (h : Kept s₀ s) : Kept s₀ (disarmCores s) := kept_onWc h

theorem kept_writeWcCtrl {d at_} (h : Kept s₀ s) : Kept s₀ (writeWcCtrl d at_ s) := by
  unfold writeWcCtrl
  extract_lets arm s1
  have h1 : Kept s₀ s1 := kept_onWc h
  exact kept_ite (kept_ite (kept_armCores h1) h1) (kept_ite (kept_disarmCores h1) h1)

theorem kept_writeNet {a0 d} (h : Kept s₀ s) : Kept s₀ (writeNet a0 d s) :=
  kept_ite (kept_onWc h) (kept_ite h (kept_ite (kept_onWc h) (kept_onWc h)))

theorem kept_writeMemData {d} (h : Kept s₀ s) : Kept s₀ (writeMemData d s) := kept_onWc (kept_writeNet h)

theorem kept_writeMemWin {k d} (h : Kept s₀ s) : Kept s₀ (writeMemWin k d s) :=
  kept_ite (kept_onWc (kept_writeNet h)) (kept_writeNet h)

/-! ### The escalation and the bell action -/

theorem kept_onEsc {f} (h : Kept s₀ s) : Kept s₀ (onEsc f s) := h.same

theorem kept_endEscalation {outcome answer} (h : Kept s₀ s) : Kept s₀ (endEscalation outcome answer s) :=
  kept_endHold (kept_ite (kept_onEsc h) (kept_raise (kept_onEsc h)))

theorem kept_endUnfetched {outcome} (h : Kept s₀ s) : Kept s₀ (endUnfetched outcome s) := kept_ite (kept_endEscalation h) h
theorem kept_escLoomLost (h : Kept s₀ s) : Kept s₀ (escLoomLost s) := kept_endUnfetched h
theorem kept_escWithdraw (h : Kept s₀ s) : Kept s₀ (escWithdraw s) := kept_endUnfetched h
theorem kept_escEntryLost (h : Kept s₀ s) : Kept s₀ (escEntryLost s) := kept_ite (kept_endEscalation h) h
theorem kept_copyDone (h : Kept s₀ s) : Kept s₀ (copyDone s) := kept_ite (kept_endHold (kept_onEsc h)) h

theorem kept_escTrigger {f rules before} (h : Kept s₀ s) : Kept s₀ (escTrigger f rules before s) := by
  unfold escTrigger
  extract_lets s' rule profile
  have h' : Kept s₀ s' := kept_watchTally h
  split
  · exact kept_raise (kept_onEsc (kept_ite (kept_onLoft h') h'))
  · exact kept_onEsc (kept_onLoft (kept_ite h' (kept_firingFreeze h')))

theorem kept_takeBellAction {f} (h : Kept s₀ s) : Kept s₀ (takeBellAction f s) := by
  unfold takeBellAction
  extract_lets s' rings now s1 s2 s3 esc
  have h' : Kept s₀ s' := kept_settleFreeze h
  have h1 : Kept s₀ s1 := kept_onBell h'
  have h2 : Kept s₀ s2 := kept_watchTally h1
  have h3 : Kept s₀ s3 := kept_ite (kept_onPwr h2) h2
  exact kept_ite h3 (kept_escTrigger h3)

theorem kept_bellAckEffect (h : Kept s₀ s) : Kept s₀ (bellAckEffect s) := kept_onBell h

/-! ### The frame every command shares -/

theorem kept_settle {s'} (h : Kept s₀ s) : Kept s₀ (settle s' s) := h.same

/-! ### Draft images: a row delivered to the store is written there -/

theorem kept_markPages {v owner} (h : Kept s₀ s) : Kept s₀ (markPages v owner s) := kept_onLoom h
theorem kept_addTag {id v t} (h : Kept s₀ s) : Kept s₀ (addTag id v t s) := kept_onLoom h
theorem kept_dropTags {id v} (h : Kept s₀ s) : Kept s₀ (dropTags id v s) := kept_onLoom h
theorem kept_loseTags {id ts} (h : Kept s₀ s) : Kept s₀ (loseTags id ts s) := kept_onLoom h

theorem kept_freeVersion {id v} (h : Kept s₀ s) : Kept s₀ (freeVersion id v s) := by
  unfold freeVersion
  split
  · exact h
  · exact kept_dropTags (kept_markPages h)

theorem kept_noteFree {v} (h : Kept s₀ s) : Kept s₀ (noteFree v s) := kept_onLoom h
theorem kept_onDrafts {f} (h : Kept s₀ s) : Kept s₀ (onDrafts f s) := kept_onLoom h
theorem kept_markStale (h : Kept s₀ s) : Kept s₀ (markStale s) := kept_onDrafts h
theorem kept_refreshStale (h : Kept s₀ s) : Kept s₀ (refreshStale s) := kept_onDrafts h
theorem kept_setVerify {result tile} (h : Kept s₀ s) : Kept s₀ (setVerify result tile s) := kept_onLoom h

theorem kept_failDraft {ld} (h : Kept s₀ s) : Kept s₀ (failDraft ld s) := by
  unfold failDraft
  extract_lets d
  split
  · exact h
  · exact kept_ite (kept_putDraft (kept_freeVersion h)) h
  · exact kept_ite (kept_putDraft (kept_freeVersion h)) h
  · exact kept_ite (kept_ite (kept_putDraft (kept_freeVersion h)) (kept_putDraft h)) h

theorem kept_endLoad {ld result tile} (h : Kept s₀ s) : Kept s₀ (endLoad ld result tile s) :=
  kept_sendEvent (kept_setVerify (kept_ite h (kept_failDraft h)))

theorem kept_abandonLoad (h : Kept s₀ s) : Kept s₀ (abandonLoad s) := by
  unfold abandonLoad
  split
  · exact h
  · exact kept_endLoad h

theorem kept_placeVersion {ld v} (h : Kept s₀ s) : Kept s₀ (placeVersion ld v s) := by
  unfold placeVersion
  extract_lets d s1 v' s2 s3 d1
  have h1 : Kept s₀ s1 := kept_freeVersion h
  have h2 : Kept s₀ s2 := kept_markPages h1
  have h3 : Kept s₀ s3 := kept_onLoom h2
  exact kept_noteFree (kept_ite h3 (kept_putDraft h3))

theorem kept_headerArrived {ld} (h : Kept s₀ s) : Kept s₀ (headerArrived ld s) := by
  unfold headerArrived
  extract_lets code v s'
  have h' : Kept s₀ s' := kept_ite (kept_noteFree h) h
  exact kept_ite (kept_endLoad h') (kept_ite (kept_onLoom h') (kept_placeVersion h'))

theorem kept_windowsArrived {ld} (h : Kept s₀ s) : Kept s₀ (windowsArrived ld s) :=
  kept_ite (kept_endLoad h) (kept_ite (kept_onLoom h) (kept_putDraft (kept_onLoom h)))

theorem kept_deliverRow {ld0} (h : Kept s₀ s) : Kept s₀ (deliverRow ld0 s) := by
  unfold deliverRow
  extract_lets row at_ ld s1
  have h1 : Kept s₀ s1 := kept_onLoom h
  split
  · exact kept_headerArrived h1
  · split
    · exact kept_windowsArrived h1
    · split
      · exact h1
      · split
        · exact h1
        · exact kept_onLoom h1 (fun _ => Loom.canonical_mwrite_store)

theorem kept_loadPassed {ld v} (h : Kept s₀ s) : Kept s₀ (loadPassed ld v s) := by
  unfold loadPassed
  refine kept_endLoad ?_
  split
  · exact kept_putDraft h
  · exact kept_putDraft h

theorem kept_tileWalked {t} (h : Kept s₀ s) : Kept s₀ (tileWalked t s) := by
  unfold tileWalked
  split
  · exact h
  · split
    · exact h
    · extract_lets per tiles ld1 s1
      have h1 : Kept s₀ s1 := kept_addTag (kept_onLoom h)
      exact kept_ite h <|
        kept_ite (kept_endLoad h) (kept_ite h1 (kept_ite (kept_endLoad h1) (kept_loadPassed h1)))

theorem kept_startLoad {mode id tenant} (h : Kept s₀ s) : Kept s₀ (startLoad mode id tenant s) := by
  unfold startLoad
  extract_lets v ld s1 d mine
  have h1 : Kept s₀ s1 := kept_onLoom h
  split
  · exact kept_onLoom h
  · split
    · exact kept_ite (kept_endLoad (kept_putDraft h1)) (kept_endLoad h1)
    · exact kept_ite (kept_putDraft h1) h1
    · exact h1
    · exact kept_ite (kept_putDraft h1) h1

theorem kept_fetchImage {rows} (h : Kept s₀ s) : Kept s₀ (fetchImage rows s) := by
  unfold fetchImage
  split
  · exact h
  · exact kept_ite h (kept_enqueue (kept_onLoom h))

theorem kept_swapDraft {id} (h : Kept s₀ s) : Kept s₀ (swapDraft id s) := by
  unfold swapDraft
  extract_lets d
  split
  · exact h
  · exact kept_sendEvent (kept_putDraft (kept_markPages (kept_freeVersion h)))

theorem kept_swapsAt {b} (h : Kept s₀ s) : Kept s₀ (swapsAt b s) := kept_foldl (fun hs => kept_swapDraft hs) h
theorem kept_waiveWaits (h : Kept s₀ s) : Kept s₀ (waiveWaits s) := kept_onDrafts h

theorem kept_freeColds (h : Kept s₀ s) : Kept s₀ (freeColds s) := by
  unfold freeColds
  refine kept_foldl ?_ h
  intro _ _ hs
  extract_lets d s1 s2
  have h1 : Kept s₀ s1 := kept_freeVersion (kept_freeVersion hs)
  have h2 : Kept s₀ s2 := kept_putDraft h1
  split
  · split
    · split
      · exact kept_placeVersion h2
      · exact h2
    · exact h2
  · exact h2

theorem kept_loadOfFreed {id} (h : Kept s₀ s) : Kept s₀ (loadOfFreed id s) := by
  unfold loadOfFreed
  split
  · exact h
  · exact kept_ite h (kept_ite (kept_putDraft h) (kept_endLoad h))

theorem kept_freeUnloads (h : Kept s₀ s) : Kept s₀ (freeUnloads s) := by
  unfold freeUnloads
  refine kept_foldl ?_ h
  intro _ _ hs
  extract_lets d
  exact kept_loadOfFreed (kept_putDraft (kept_freeVersion (kept_freeVersion hs)))

/-! ### The fields of a bundle -/

theorem kept_noteIssued {t k} (h : Kept s₀ s) : Kept s₀ (noteIssued t k s) := kept_onLoom h

theorem kept_issueOn {t k spells f} (hf : ∀ {x0 x1 s}, Kept s₀ s → Kept s₀ (f x0 x1 s)) (h : Kept s₀ s) :
    Kept s₀ (issueOn t k spells f s) := by
  unfold issueOn
  split
  · exact h
  · exact kept_ite (hf (kept_settleOn (kept_noteIssued h))) h

theorem kept_issueCtl {op t names f} (hf : ∀ {x0 s}, Kept s₀ s → Kept s₀ (f x0 s)) (h : Kept s₀ s) :
    Kept s₀ (issueCtl op t names f s) :=
  kept_issueOn (fun hs => hf hs) h

theorem kept_issueMxu {op t names f} (hf : ∀ {x0 s}, Kept s₀ s → Kept s₀ (f x0 s)) (h : Kept s₀ s) :
    Kept s₀ (issueMxu op t names f s) :=
  kept_issueOn (fun hs => hf hs) h

theorem kept_issueVec {op t v f} (hf : ∀ {x0 s}, Kept s₀ s → Kept s₀ (f x0 s)) (h : Kept s₀ s) : Kept s₀ (issueVec op t v f s) :=
  kept_issueOn (fun hs => hf hs) h

theorem kept_issueQnt {op t q f} (hf : ∀ {x0 s}, Kept s₀ s → Kept s₀ (f x0 s)) (h : Kept s₀ s) : Kept s₀ (issueQnt op t q f s) :=
  kept_issueOn (fun hs => hf hs) h

/-! ### Link resets -/

theorem kept_resetWeft {m} (h : Kept s₀ s) : Kept s₀ (resetWeft m s) := by
  unfold resetWeft
  extract_lets s1 w o kept queued again _ s2 ow s3 s4 s5
  have h1 : Kept s₀ s1 := kept_discardQueue h
  have h2 : Kept s₀ s2 := kept_putWeft h1
  have h3 : Kept s₀ s3 := kept_putWeft h2
  have h4 : Kept s₀ s4 := kept_onLoom h3
  have h5 : Kept s₀ s5 := kept_pump h4
  exact kept_ite (kept_reportAllDropped h5) h5

theorem kept_resetWarp {m retrain} (h : Kept s₀ s) : Kept s₀ (resetWarp m retrain s) := kept_markStale (kept_putWarp h)
theorem kept_dropMark {m id} (h : Kept s₀ s) : Kept s₀ (dropMark m id s) := kept_putWarp h

theorem kept_dropMarksOf {t} (h : Kept s₀ s) : Kept s₀ (dropMarksOf t s) :=
  kept_foldl (fun hs => kept_foldl (fun hs => kept_dropMark hs) (kept_putWarp hs)) h

theorem kept_linkReset {m retrain} (h : Kept s₀ s) : Kept s₀ (linkReset m retrain s) :=
  kept_ite (kept_resetWeft h) (kept_resetWarp h)

theorem kept_linkDown {m} (h : Kept s₀ s) : Kept s₀ (linkDown m s) := by
  unfold linkDown
  extract_lets s1 _
  have h1 : Kept s₀ s1 := kept_raise (kept_linkReset h)
  exact kept_ite (kept_putWeft h1) h1

theorem kept_linkOffModule {m} (h : Kept s₀ s) : Kept s₀ (linkOffModule m s) :=
  kept_ite (kept_linkReset (kept_onPwr h)) (kept_onPwr h)

theorem kept_linkOnModule {m} (h : Kept s₀ s) : Kept s₀ (linkOnModule m s) := kept_ite h (kept_onPwr h)

theorem kept_writeLinkReq {d} (h : Kept s₀ s) : Kept s₀ (writeLinkReq d s) :=
  kept_foldl (fun hs => kept_ite (kept_linkOnModule hs) (kept_ite (kept_linkOffModule hs) hs)) h

theorem kept_powerModule {m} (h : Kept s₀ s) : Kept s₀ (powerModule m s) := kept_ite (kept_onPwr h.same) h

theorem kept_railLost {m pll} (h : Kept s₀ s) : Kept s₀ (railLost m pll s) :=
  kept_ite (kept_raise (kept_linkReset (kept_onPwr h.same))) h.same

/-! ### The answer of a RUN -/

theorem kept_admitRun {f occ promise} (h : Kept s₀ s) : Kept s₀ (admitRun f occ promise s) :=
  kept_loomTally (kept_loomTally (kept_bookRun (kept_onJobs h)))

theorem kept_answerRun {f} (h : Kept s₀ s) : Kept s₀ (answerRun f s).2 := by
  unfold answerRun
  dsimp only
  split
  · exact kept_answerNow h
  · rw [apply_ite Prod.snd]
    exact kept_ite (kept_answerNow h) (kept_admitRun h)

theorem kept_noteAnswer {code} (h : Kept s₀ s) : Kept s₀ (noteAnswer code s) := h.same

theorem kept_runFront {f} (h : Kept s₀ s) : Kept s₀ (runFront f s) :=
  kept_ite (kept_noteAnswer (kept_answerRun h)) (kept_answerRun h)

theorem kept_answerEscOf {p} (h : Kept s₀ s) : Kept s₀ (answerEscOf p s) := by
  unfold answerEscOf
  split
  · exact h
  · exact kept_runFront (kept_onLoom h)

/-! ### The loom's power states -/

theorem kept_startReset (h : Kept s₀ s) : Kept s₀ (startReset s) := by
  unfold startReset
  extract_lets s1
  have h1 : Kept s₀ s1 := kept_escLoomLost (kept_abandonLoad (kept_flagJobs h))
  exact kept_onPwr h1

theorem kept_riseOrHold {dest} (h : Kept s₀ s) : Kept s₀ (riseOrHold dest s) :=
  kept_ite (kept_raise (kept_onPwr h)) (kept_onPwr h)

theorem kept_fall (h : Kept s₀ s) : Kept s₀ (fall s) := kept_onPwr h
theorem kept_startRelock (h : Kept s₀ s) : Kept s₀ (startRelock s) := (kept_onLoom h).same
theorem kept_holdExit (h : Kept s₀ s) : Kept s₀ (holdExit s) := kept_ite (kept_raise (kept_onPwr h)) (kept_onPwr h)

theorem kept_advance (h : Kept s₀ s) : Kept s₀ (advance s) := by
  unfold advance
  extract_lets p
  exact kept_ite h <|
    kept_ite (kept_startRelock h) <|
    kept_ite (kept_startReset h) <|
    kept_ite (kept_onPwr h) <|
    kept_ite (kept_holdExit h) <|
    kept_ite h <|
    kept_ite (kept_ite (kept_fall h) h) (kept_ite (kept_riseOrHold h) (kept_riseOrHold h))

theorem kept_newTarget {t byHost tenant} (h : Kept s₀ s) : Kept s₀ (newTarget t byHost tenant s) := by
  unfold newTarget
  extract_lets was s1 s2 s3 s4
  have h1 : Kept s₀ s1 := kept_onPwr h
  have h2 : Kept s₀ s2 := kept_ite (kept_abandonLoad h1) h1
  have h3 : Kept s₀ s3 := kept_ite (kept_flagCut h2) h2
  have h4 : Kept s₀ s4 := kept_ite (kept_escLoomLost h3) h3
  exact kept_advance h4

theorem kept_releaseHold (h : Kept s₀ s) : Kept s₀ (releaseHold s) := by
  unfold releaseHold
  split
  · exact kept_onPwr h
  · exact h

theorem kept_applyTarget {t byHost tenant} (h : Kept s₀ s) : Kept s₀ (applyTarget t byHost tenant s) := by
  unfold applyTarget
  extract_lets p s1
  have h1 : Kept s₀ s1 := kept_ite (kept_conflictState h) h
  exact kept_ite h (kept_newTarget (kept_releaseHold h1))

theorem kept_orderRequests (h : Kept s₀ s) : Kept s₀ (orderRequests s) := by
  unfold orderRequests
  extract_lets g head bell s1 s2
  have h1 : Kept s₀ s1 := kept_onPwr h
  have h2 : Kept s₀ s2 := by
    unfold s2
    clear_value g
    split
    · exact kept_applyTarget h1
    · exact h1
  clear_value head
  split
  · exact h2
  · exact kept_ite (kept_conflictState h2) (kept_ite (kept_conflictState h2) (kept_applyTarget h2))

theorem kept_lockHead (h : Kept s₀ s) : Kept s₀ (lockHead s) := kept_ite (kept_onLoom h) h

theorem kept_gateTarget {t} (h : Kept s₀ s) : Kept s₀ (gateTarget t s) := by
  unfold gateTarget
  extract_lets s0 set
  have h0 : Kept s₀ s0 := kept_onPwr h
  split
  · exact kept_ite (kept_escLoomLost (kept_onPwr h0)) (kept_onPwr h0)
  · exact kept_ite (kept_ite (kept_escLoomLost (kept_onPwr h0)) (kept_onPwr h0)) <|
      kept_holdExit (kept_ite (kept_escLoomLost (kept_onPwr h0)) (kept_onPwr h0))
  · exact kept_onPwr h0

theorem kept_gateLoomReset (h : Kept s₀ s) : Kept s₀ (gateLoomReset s) := kept_ite h (kept_ite (kept_onPwr h) (kept_startReset h))

theorem kept_gateTreset {t} (h : Kept s₀ s) : Kept s₀ (gateTreset t s) :=
  kept_ite h (kept_ite (kept_onPwr h) (kept_requestTenantReset (kept_onPwr h)))

theorem kept_writeLoomReq {d} (h : Kept s₀ s) : Kept s₀ (writeLoomReq d s) := by
  unfold writeLoomReq
  extract_lets n s1 s2 s3
  have h1 : Kept s₀ s1 := kept_onPwr h
  have h2 : Kept s₀ s2 := kept_ite (kept_gateLoomReset h1) h1
  have h3 : Kept s₀ s3 := kept_ite (kept_gateTreset h2) h2
  exact kept_gateTarget h3

theorem kept_hostPower {m target tenant} (h : Kept s₀ s) : Kept s₀ (hostPower m target tenant s) := kept_ite h (kept_onPwr h)
theorem kept_dropTileLogic (h : Kept s₀ s) : Kept s₀ (dropTileLogic s) := kept_onLoom h

theorem kept_unlockChain (h : Kept s₀ s) : Kept s₀ (unlockChain s) :=
  kept_markStale (kept_foldl (fun hs => kept_putWarp hs) (kept_onLoom h))

theorem kept_unlockWarps (h : Kept s₀ s) : Kept s₀ (unlockWarps s) := kept_foldl (fun hs => kept_ite (kept_putWarp hs) hs) h
theorem kept_applyPoint (h : Kept s₀ s) : Kept s₀ (applyPoint s) := kept_refreshStale (kept_unlockWarps (kept_onLoom h))
theorem kept_enterL2 (h : Kept s₀ s) : Kept s₀ (enterL2 s) := (kept_unlockChain (kept_dropTileLogic h)).same

theorem kept_leaveL2 (h : Kept s₀ s) : Kept s₀ (leaveL2 s) := by
  unfold leaveL2
  extract_lets _ _ s1 s2
  have h1 : Kept s₀ s1 := h.same
  have h2 : Kept s₀ s2 := kept_waiveWaits (kept_ite (kept_applyPoint h1) h1)
  exact kept_onLoom h2

theorem kept_enterL3 (h : Kept s₀ s) : Kept s₀ (enterL3 s) := by
  unfold enterL3
  extract_lets s1 _
  have h1 : Kept s₀ s1 := kept_applyLoomReset h
  exact kept_onPwr h1.same

theorem kept_arrive {dest} (h : Kept s₀ s) : Kept s₀ (arrive dest s) := by
  unfold arrive
  extract_lets was s1 s2
  have h1 : Kept s₀ s1 := kept_onPwr h
  have h2 : Kept s₀ s2 := by
    unfold s2
    split
    · exact kept_enterL2 h1
    · split
      · exact kept_gateTarget (kept_onPwr (kept_enterL3 h1))
      · exact kept_enterL3 h1
    · exact kept_ite (kept_leaveL2 h1) h1
    · exact h1
  exact kept_advance h2

theorem kept_sampleStraps {straps} (h : Kept s₀ s) : Kept s₀ (sampleStraps straps s) := kept_onPwr h.same
theorem kept_startPhase3 (h : Kept s₀ s) : Kept s₀ (startPhase3 s) := kept_onPwr (kept_sampleStraps h.same)

theorem kept_moveDone (h : Kept s₀ s) : Kept s₀ (moveDone s) := by
  unfold moveDone
  split
  · exact kept_ite h (kept_arrive h)
  · exact kept_startPhase3 (kept_onPwr (kept_ite (kept_leaveL2 h) h))
  · exact h

theorem kept_settleWork {all} (h : Kept s₀ s) : Kept s₀ (settleWork all s) := by
  unfold settleWork
  extract_lets s1 s2
  have h1 : Kept s₀ s1 := kept_foldl (fun hs => kept_endFlagged hs) h
  have h2 : Kept s₀ s2 := kept_onJobs h1
  exact kept_issueAll h2

theorem kept_answerWaiting {m} (h : Kept s₀ s) : Kept s₀ (answerWaiting m s) := by
  unfold answerWaiting
  extract_lets w s1
  have h1 : Kept s₀ s1 := kept_foldl (fun hs => kept_answerRead hs) h
  exact kept_foldl (fun hs => kept_answerRead hs) h1

theorem kept_endDrain (h : Kept s₀ s) : Kept s₀ (endDrain s) := by
  unfold endDrain
  split
  · extract_lets s1
    have h1 : Kept s₀ s1 := kept_foldl (fun hs => kept_discardQueue (kept_answerWaiting hs)) (kept_settleWork (kept_answerEscOf h))
    split
    · exact kept_onPwr h1
    · split
      · exact kept_startPhase3 h1
      · exact kept_ite (kept_onPwr h1) (kept_raise (kept_onPwr h1))
      · exact kept_onPwr h1
  · exact h

theorem kept_startExit (h : Kept s₀ s) : Kept s₀ (startExit s) := by
  unfold startExit
  split
  · exact kept_onPwr h.same
  · exact h

theorem kept_selfTest {r} (h : Kept s₀ s) : Kept s₀ (selfTest r s) := kept_onPwr h

theorem kept_endPhase4 {fromL3} (h : Kept s₀ s) : Kept s₀ (endPhase4 fromL3 s) := by
  unfold endPhase4
  extract_lets s1 _ s2 s3
  have h1 : Kept s₀ s1 := kept_applyLoomReset h
  have h2 : Kept s₀ s2 := kept_ite (kept_foldl (fun hs => kept_putWeft hs) (kept_onLoom h1.same)) h1
  have h3 : Kept s₀ s3 := kept_onPwr h2
  exact kept_advance (kept_reportAllDropped h3)

theorem kept_phaseEnd {r} (h : Kept s₀ s) : Kept s₀ (phaseEnd r s) := by
  unfold phaseEnd
  split
  · exact kept_ite (kept_onPwr h.same) <|
      kept_ite (kept_onPwr h) <|
      kept_ite (kept_onPwr ((kept_onLoom (kept_sampleStraps h)).same)) <|
      kept_ite (kept_onPwr (kept_selfTest h)) (kept_endPhase4 h)
  · exact kept_ite (kept_onPwr (kept_selfTest h)) (kept_endPhase4 h)
  · exact h

theorem kept_lsramRun (h : Kept s₀ s) : Kept s₀ (lsramRun s) := by
  unfold lsramRun
  extract_lets _ _ s1
  have h1 : Kept s₀ s1 := h.same
  split
  · exact kept_onPwr h1
  · exact kept_onPwr h1
  · exact h1

theorem kept_loseLoom (h : Kept s₀ s) : Kept s₀ (loseLoom s) := by
  unfold loseLoom
  extract_lets s' s1 s2
  have h' : Kept s₀ s' := kept_escEntryLost h
  have h1 : Kept s₀ s1 := kept_foldl (fun hs => kept_putWeft hs) h'
  have h2 : Kept s₀ s2 := kept_escLoomLost (kept_enterL3 (kept_onPwr h1))
  exact kept_raise h2

theorem kept_supplyLoss {k} (h : Kept s₀ s) : Kept s₀ (supplyLoss k s) := kept_ite (kept_loseLoom h.same) h.same
theorem kept_noteRails {rails} (h : Kept s₀ s) : Kept s₀ (noteRails rails s) := h.same

theorem kept_absentSupply {m rails} (h : Kept s₀ s) : Kept s₀ (absentSupply m rails s) := by
  unfold absentSupply
  extract_lets s1 s2 waits
  have h1 : Kept s₀ s1 := kept_noteRails h
  have h2 : Kept s₀ s2 := kept_ite (kept_holdExit h1) h1
  exact kept_ite (kept_raise h2) h2

theorem kept_sampleBlock {t} (h : Kept s₀ s) : Kept s₀ (sampleBlock t s) := by
  unfold sampleBlock
  extract_lets block abort ten s1 s2
  have h1 : Kept s₀ s1 := kept_putTenant h
  have h2 : Kept s₀ s2 := kept_ite (kept_dropMarksOf (kept_flagJobs h1)) h1
  exact kept_ite h (kept_sendEvent h2)

/-! ### Clock points -/

theorem kept_onClock {f} (h : Kept s₀ s) : Kept s₀ (onClock f s) := kept_onLoom h

theorem kept_writePoint {p} (h : Kept s₀ s) : Kept s₀ (writePoint p s) := by
  unfold writePoint
  extract_lets c
  exact kept_ite h <|
    kept_ite (kept_onClock h) <|
    kept_ite (kept_ite (kept_advance (kept_onClock h)) h) (kept_advance (kept_onClock h))

theorem kept_relockDone {periods} (h : Kept s₀ s) : Kept s₀ (relockDone periods s) := by
  unfold relockDone
  extract_lets c s1 _ _ s2 s3 s4 s5
  have h1 : Kept s₀ s1 := kept_onLoom h
  have h2 : Kept s₀ s2 := h1.same
  have h3 : Kept s₀ s3 := kept_onClock h2
  have h4 : Kept s₀ s4 := kept_refreshStale (kept_onLoom (kept_unlockWarps h3))
  have h5 : Kept s₀ s5 := kept_onLoom h4
  split
  · exact h
  · split
    · exact kept_writePoint (kept_advance h5)
    · exact kept_advance h5

theorem kept_addTarget {lc} (h : Kept s₀ s) : Kept s₀ (addTarget lc s) := kept_onClock h
theorem kept_owesStretch {m from_ target} (h : Kept s₀ s) : Kept s₀ (owesStretch m from_ target s) := kept_putWarp h

theorem kept_droop (h : Kept s₀ s) : Kept s₀ (droop s) := by
  unfold droop
  extract_lets n d t
  exact kept_ite (kept_foldl (fun hs => kept_owesStretch hs) (kept_addTarget h)) <|
    kept_addTarget h

theorem kept_stretchCycle (h : Kept s₀ s) : Kept s₀ (stretchCycle s) := by
  unfold stretchCycle
  extract_lets c n gap beyond s1 s2
  have h1 : Kept s₀ s1 := kept_onClock (kept_passPeriods h)
  have h2 : Kept s₀ s2 := kept_loomTally h1
  exact kept_ite h (kept_ite (kept_raise (kept_loomTally h2)) h2)

theorem kept_clearStretch (h : Kept s₀ s) : Kept s₀ (clearStretch s) := kept_onClock h

/-! ### Slots and passes -/

theorem kept_onWeave {f} (h : Kept s₀ s) : Kept s₀ (onWeave f s) := kept_onLoom h

theorem kept_passRan {x} (h : Kept s₀ s) : Kept s₀ (passRan x s) := by
  unfold passRan
  split
  · exact h
  · exact kept_modJob h

theorem kept_settleSlot {x} (h : Kept s₀ s) : Kept s₀ (settleSlot x s) := by
  unfold settleSlot
  split
  · exact h
  · exact kept_ite (kept_endJob h) (kept_ite (kept_endJob h) (kept_passRan h))

theorem kept_closeSlot {x} (h : Kept s₀ s) : Kept s₀ (closeSlot x s) := by
  unfold closeSlot
  extract_lets s'
  have h' : Kept s₀ s' := kept_foldl (fun hs => kept_settleOn hs) h
  exact kept_settleSlot (kept_onLoom h')

theorem kept_closeEnded {n} (h : Kept s₀ s) : Kept s₀ (closeEnded n s) := kept_foldl (fun hs => kept_closeSlot hs) h
theorem kept_endFlaggedWhere {p} (h : Kept s₀ s) : Kept s₀ (endFlaggedWhere p s) := kept_foldl (fun hs => kept_endFlagged hs) h

theorem kept_fetchBundle {t n x} (h : Kept s₀ s) : Kept s₀ (fetchBundle t n x s) := by
  unfold fetchBundle
  split
  · exact h
  · extract_lets w ten s1 bad s2 y s3 d
    have h1 : Kept s₀ s1 := kept_loomTally h
    have h2 : Kept s₀ s2 := kept_countTileErrors (kept_loomTally h1)
    have h3 : Kept s₀ s3 := kept_putTile (kept_modSlot h2)
    exact kept_ite h1 (kept_putDraft h3)

theorem kept_idleSlot {e en counted} (h : Kept s₀ s) : Kept s₀ (idleSlot e en counted s) := kept_loomTally (kept_onWeave h)

theorem kept_beginTile {e tenant v x t} (h : Kept s₀ s) : Kept s₀ (beginTile e tenant v x t s) := by
  unfold beginTile
  extract_lets old clean
  exact kept_ite h (kept_ite (kept_putTile h) (kept_fetchBundle (kept_putTile h)))

theorem kept_versionBreach {v x} (h : Kept s₀ s) : Kept s₀ (versionBreach v x s) := by
  unfold versionBreach
  split
  · exact kept_breach h
  · exact h

theorem kept_sendMarks {v id} (h : Kept s₀ s) : Kept s₀ (sendMarks v id s) :=
  kept_ite h (kept_foldl (fun hs => kept_ite (kept_putWarp hs) hs) h)

theorem kept_beginPass {e en v job} (h : Kept s₀ s) : Kept s₀ (beginPass e en v job s) := by
  unfold beginPass
  extract_lets x s1
  have h1 : Kept s₀ s1 := kept_onWeave h
  exact kept_versionBreach (kept_sendMarks (kept_foldl (fun hs => kept_beginTile hs) h1))

theorem kept_dropClaim {d lc} (h : Kept s₀ s) : Kept s₀ (dropClaim d lc s) := kept_foldl (fun hs => kept_putWarp hs) h

theorem kept_startDraft {e en} (h : Kept s₀ s) : Kept s₀ (startDraft e en s) := by
  unfold startDraft
  extract_lets lc job mark s1 s2 s3
  have h1 : Kept s₀ s1 := kept_dropClaim h
  have h2 : Kept s₀ s2 := by
    unfold s2
    clear_value mark
    split
    · exact kept_dropMark h1
    · exact h1
  have h3 : Kept s₀ s3 := by
    unfold s3
    clear_value job
    split
    · exact kept_ite (kept_endJob h2) h2
    · exact h2
  split
  · exact kept_idleSlot h3
  · split
    · exact kept_idleSlot h1
    · exact kept_ite (kept_beginPass h1) (kept_idleSlot h1)

theorem kept_slotStartEffect {e ups misheld} (h : Kept s₀ s) : Kept s₀ (slotStartEffect e ups misheld s) := by
  unfold slotStartEffect
  extract_lets w en s1 s2
  have h1 : Kept s₀ s1 := kept_endFlaggedWhere (kept_closeEnded h)
  have h2 : Kept s₀ s2 := kept_loseTags (kept_onLoom h1)
  exact kept_ite h (kept_ite (kept_startDraft h2) h2)

theorem kept_passEndEffect {e} (h : Kept s₀ s) : Kept s₀ (passEndEffect e s) := by
  unfold passEndEffect
  split
  · exact h
  · extract_lets len
    exact kept_ite h (kept_ite (kept_ite (kept_closeSlot h) h) (kept_ite (kept_closeSlot h) h))

theorem kept_swapWeave {b} (h : Kept s₀ s) : Kept s₀ (swapWeave b s) := kept_rebookAll (kept_onWeave h)
theorem kept_endStale (h : Kept s₀ s) : Kept s₀ (endStale s) := kept_foldl (fun hs => kept_endJob hs) h

theorem kept_freeReturning (h : Kept s₀ s) : Kept s₀ (freeReturning s) := by
  unfold freeReturning
  refine kept_foldl ?_ h
  intro _ _ hs
  extract_lets owed s1
  have h1 : Kept s₀ s1 := kept_onLoom (kept_freeSeq (kept_cutCommands hs))
  exact kept_foldl (fun hs => kept_writeRecord hs) h1

theorem kept_tenantResets (h : Kept s₀ s) : Kept s₀ (tenantResets s) := by
  unfold tenantResets
  refine kept_foldl ?_ h
  intro _ _ hs
  extract_lets tiles
  exact kept_tenantResetEffect (kept_answerEscOf (kept_foldl (fun hs => kept_putTile hs) hs))

theorem kept_failTiles (h : Kept s₀ s) : Kept s₀ (failTiles s) := kept_foldl (fun hs => kept_onLoom hs) h

theorem kept_boundarySwaps {b} (h : Kept s₀ s) : Kept s₀ (boundarySwaps b s) := by
  unfold boundarySwaps
  extract_lets s1 s2
  have h1 : Kept s₀ s1 := kept_ite h (kept_swapsAt h)
  have h2 : Kept s₀ s2 := kept_ite (kept_swapWeave h1) h1
  exact kept_endStale (kept_refreshStale (kept_freeUnloads (kept_freeColds h2)))

theorem kept_shiftBookings {from_ k} (h : Kept s₀ s) : Kept s₀ (shiftBookings from_ k s) :=
  kept_ite h (kept_foldl (fun hs => kept_ite hs (kept_putWarp hs)) (kept_onLoom h))

theorem kept_beginRepeat {b} (h : Kept s₀ s) : Kept s₀ (beginRepeat b s) := kept_ite h (kept_onWeave (kept_shiftBookings h))

theorem kept_boundaryAt {b} (h : Kept s₀ s) : Kept s₀ (boundaryAt b s) := by
  unfold boundaryAt
  extract_lets s1 s2 s3
  have h1 : Kept s₀ s1 := kept_tenantResets (kept_endFlaggedWhere (kept_closeEnded h))
  have h2 : Kept s₀ s2 := kept_failTiles (kept_freeReturning (kept_returnSeqs h1))
  have h3 : Kept s₀ s3 := kept_pruneBookings (kept_boundarySwaps (kept_beginRepeat h2))
  exact kept_ite (kept_startRelock h3) (kept_ite (kept_fall h3) h3)

theorem kept_repeatBoundaryEffect (h : Kept s₀ s) : Kept s₀ (repeatBoundaryEffect s) := by
  unfold repeatBoundaryEffect
  split
  · exact h
  · split
    · exact kept_boundaryAt h
    · exact h

/-! ### The CTL, BANK and MESH commands -/

theorem kept_holdBundle {t} (h : Kept s₀ s) : Kept s₀ (holdBundle t s) := kept_putTile h
theorem kept_goTo {t x pc} (h : Kept s₀ s) : Kept s₀ (goTo t x pc s) := kept_fetchBundle (kept_putTile h)

theorem kept_ctl {op t names f} (hf : ∀ {x0 s}, Kept s₀ s → Kept s₀ (f x0 s)) (h : Kept s₀ s) : Kept s₀ (ctl op t names f s) :=
  kept_issueCtl (fun hs => hf (kept_holdBundle hs)) h

theorem kept_nextEffect {t} (h : Kept s₀ s) : Kept s₀ (nextEffect t s) := kept_ctl (fun hs => kept_goTo hs) h

theorem kept_loopEffect {t iters} (h : Kept s₀ s) : Kept s₀ (loopEffect t iters s) := by
  unfold loopEffect
  refine kept_ctl ?_ h
  intro _ _ hs
  extract_lets y s1
  have h1 : Kept s₀ s1 := kept_putTile hs
  exact kept_goTo h1

theorem kept_endloopEffect {t mask} (h : Kept s₀ s) : Kept s₀ (endloopEffect t mask s) := by
  unfold endloopEffect
  refine kept_ctl ?_ h
  intro _ _ hs
  extract_lets y
  split
  · exact kept_ite (kept_goTo (kept_putTile hs)) (kept_goTo (kept_putTile hs))
  · exact kept_goTo (kept_putTile hs)

theorem kept_waitEffect {t lcs} (h : Kept s₀ s) : Kept s₀ (waitEffect t lcs s) := kept_ctl (fun hs => kept_putTile hs) h

theorem kept_waitEndEffect {t} (h : Kept s₀ s) : Kept s₀ (waitEndEffect t s) := by
  unfold waitEndEffect
  extract_lets y
  split
  · exact kept_ite (kept_fetchBundle (kept_putTile h)) h
  · exact h

theorem kept_setaEffect {t cnt value stride} (h : Kept s₀ s) : Kept s₀ (setaEffect t cnt value stride s) := by
  unfold setaEffect
  refine kept_ctl ?_ h
  intro _ _ hs
  extract_lets y
  exact kept_goTo (kept_putTile hs)

theorem kept_passRead {t k row ups x} (h : Kept s₀ s) : Kept s₀ (passRead t k row ups x s).2 := by
  unfold passRead
  split
  · exact kept_breach h
  · have hread := kept_readBankRow (t := t) (k := k) (row := row) (owner := some (draftOf s x.draft).tenant) (found := ups)
      (kept_useBank (key := bankKey t k) h)
    exact kept_ite (kept_poisonSlot hread) hread

theorem kept_deliver {t lc key unit data} (h : Kept s₀ s) : Kept s₀ (deliver t lc key unit data s) := kept_putTile h

theorem kept_bankReadEffect {t k ups} (h : Kept s₀ s) : Kept s₀ (bankReadEffect t k ups s) := by
  unfold bankReadEffect
  refine kept_issueOn ?_ h
  intro _ _ _ hs
  extract_lets f r
  exact kept_deliver (kept_passRead hs)

theorem kept_writeSource {t unit} (h : Kept s₀ s) : Kept s₀ (writeSource t unit s).2 := by
  unfold writeSource
  split
  · exact h
  · split
    · exact h
    · split
      · exact kept_sourceRow h
      · exact kept_freeRow h

theorem kept_bankWriteEffect {t k} (h : Kept s₀ s) : Kept s₀ (bankWriteEffect t k s) := by
  unfold bankWriteEffect
  refine kept_issueOn ?_ h
  intro _ _ _ hs
  extract_lets f row d
  split
  · exact kept_breach hs
  · exact kept_writeBankRow (kept_useBank (kept_writeSource hs))

theorem kept_resCopy {t ups x} (h : Kept s₀ s) : Kept s₀ (resCopy t ups x s) := by
  unfold resCopy
  split
  · exact h
  · split
    · exact h
    · exact kept_ite (kept_modJob (kept_passRead h)) h

theorem kept_haltEffect {t ups} (h : Kept s₀ s) : Kept s₀ (haltEffect t ups s) := by
  unfold haltEffect
  refine kept_ctl ?_ h
  intro _ _ hs
  extract_lets s1 _
  have h1 : Kept s₀ s1 := kept_resCopy hs
  exact kept_modSlot (kept_putTile h1)

theorem kept_takeLinks {ls} (h : Kept s₀ s) : Kept s₀ (takeLinks ls s) := kept_onLoom h

theorem kept_meshSource {t src} (h : Kept s₀ s) : Kept s₀ (meshSource t src s).2 := by
  unfold meshSource
  split
  · split
    · exact h
    · exact kept_freeRow h
  · split
    · exact h
    · split
      · exact h
      · split
        · exact kept_sourceRow h
        · exact kept_freeRow h

theorem kept_meshSendEffect {t d} (h : Kept s₀ s) : Kept s₀ (meshSendEffect t d s) := by
  unfold meshSendEffect
  refine kept_issueOn ?_ h
  intro _ _ _ hs
  split
  · exact hs
  · dsimp only
    split
    · exact kept_ite (kept_breach hs) (kept_onLoom (kept_takeLinks hs))
    · exact kept_onLoom (kept_takeLinks (kept_meshSource hs))

theorem kept_lateBreaches (h : Kept s₀ s) : Kept s₀ (lateBreaches s) := by
  unfold lateBreaches
  refine kept_foldl ?_ (kept_onLoom h)
  intro _ _ hs
  split
  · exact kept_breach hs
  · exact hs

theorem kept_receive {t key data poisoned} (h : Kept s₀ s) : Kept s₀ (receive t key data poisoned s) := by
  unfold receive
  extract_lets y
  split
  · exact h
  · split
    · split
      · exact kept_breach h
      · exact h
    · exact kept_putTile h

theorem kept_takeFlits {p} (h : Kept s₀ s) : Kept s₀ (takeFlits p s) := kept_onLoom h

theorem kept_meshDeliveryEffect {t d} (h : Kept s₀ s) : Kept s₀ (meshDeliveryEffect t d s) := by
  unfold meshDeliveryEffect
  extract_lets here
  split
  · exact h
  · exact kept_receive (kept_takeFlits h)

/-! ### The KV store -/

theorem kept_markSeq {q} (h : Kept s₀ s) : Kept s₀ (markSeq q s) := kept_putSeq h

theorem kept_kvWordsRead {q w n} (h : Kept s₀ s) : Kept s₀ (kvWordsRead q w n s).2 :=
  kept_ite (kept_loomTally (kept_loomTally h)) (kept_markSeq (kept_loomTally (kept_loomTally h)))

theorem kept_upsetBooks {k ten} (h : Kept s₀ s) : Kept s₀ (upsetBooks k ten s) := by
  cases k with
  | silent v => exact h
  | _ => exact kept_loomTally h

theorem kept_readMetaWord {q l key f} (h : Kept s₀ s) : Kept s₀ (readMetaWord q l key f s) := by
  unfold readMetaWord
  split
  · exact h
  · extract_lets sq _ sq1 s1
    have h1 : Kept s₀ s1 := kept_onLoom (kept_putSeq h)
    exact kept_upsetBooks h1.same

theorem kept_readSlotMeta {q l j} (h : Kept s₀ s) : Kept s₀ (readSlotMeta q l j s) := kept_readMetaWord h
theorem kept_readLaneMeta {q l} (h : Kept s₀ s) : Kept s₀ (readLaneMeta q l s) := kept_foldl (fun hs => kept_readMetaWord hs) h

theorem kept_readMeta {q l} (h : Kept s₀ s) : Kept s₀ (readMeta q l s) :=
  kept_readLaneMeta (kept_foldl (fun hs => kept_readSlotMeta hs) h)

theorem kept_clearMetaUps {q} (h : Kept s₀ s) : Kept s₀ (clearMetaUps q s) := kept_onLoom h

theorem kept_appendPos {q l key value} (h : Kept s₀ s) : Kept s₀ (appendPos q l key value s) := by
  unfold appendPos
  dsimp only
  split
  · exact kept_putSeq h
  · exact kept_loomTally (kept_onLoom (kept_putSeq h) (fun _ => Loom.canonical_mwrite_kv))

/-! ### Admission -/

theorem kept_fetchEffect {want} (h : Kept s₀ s) : Kept s₀ (fetchEffect want s) := by
  unfold fetchEffect
  split
  · exact h
  · exact kept_ite h (kept_enqueue (kept_onLoom h))

theorem kept_takeEntry {n bytes} (h : Kept s₀ s) : Kept s₀ (takeEntry n bytes s) := kept_putRing (kept_putRing (kept_onLoom h))

theorem kept_entriesArrived {n k data} (h : Kept s₀ s) : Kept s₀ (entriesArrived n k data s) :=
  kept_foldl (fun hs => kept_ite (kept_takeEntry hs) hs) h

theorem kept_leaveReels {rs} (h : Kept s₀ s) : Kept s₀ (leaveReels rs s) := kept_onLoom h

theorem kept_answerOpen {f} (h : Kept s₀ s) : Kept s₀ (answerOpen f s) := by
  unfold answerOpen
  extract_lets b t d refuse reels sq
  split
  · exact kept_answerNow h
  · split
    · exact kept_answerNow h
    · split
      · exact kept_answerNow h
      · exact kept_ite (kept_answerNow h) (kept_answerNow (kept_putSeq (kept_clearMetaUps (kept_leaveReels h))))

theorem kept_answerClose {f} (h : Kept s₀ s) : Kept s₀ (answerClose f s) := by
  unfold answerClose
  extract_lets b t q refuse
  split
  · exact kept_answerNow h
  · exact kept_ite (kept_answerNow h) (kept_returnSeqs (kept_putSeq (kept_onLoom h)))

theorem kept_answerNop {f} (h : Kept s₀ s) : Kept s₀ (answerNop f s) := kept_answerNow h

theorem kept_answerFront {p g} (hg : ∀ {x0 s}, Kept s₀ s → Kept s₀ (g x0 s)) (h : Kept s₀ s) : Kept s₀ (answerFront p g s) := by
  unfold answerFront
  split
  · exact h
  · exact kept_ite (hg (kept_onLoom h)) h

theorem kept_recordEffect (h : Kept s₀ s) : Kept s₀ (recordEffect s) := by
  unfold recordEffect
  split
  · exact h
  · split
    · exact h
    · exact kept_issueJob h

/-! ### The warp modules -/

theorem kept_writeWarpCtrl {d} (h : Kept s₀ s) : Kept s₀ (writeWarpCtrl d s) :=
  kept_foldl (fun hs => kept_ite hs (kept_ite (kept_putWarp hs) (kept_putWarp hs))) h

theorem kept_failTraining {m code} (h : Kept s₀ s) : Kept s₀ (failTraining m code s) := kept_putWarp h

theorem kept_lockWarp {m} (h : Kept s₀ s) : Kept s₀ (lockWarp m s) := by
  unfold lockWarp
  extract_lets w s1
  have h1 : Kept s₀ s1 := kept_markStale (kept_putWarp h)
  split
  · exact kept_ite h1 (kept_foldl (fun hs => kept_sendEvent hs) (kept_loomTally h1))
  · exact h1

theorem kept_warpPhaseEnd {m o} (h : Kept s₀ s) : Kept s₀ (warpPhaseEnd m o s) := by
  unfold warpPhaseEnd
  extract_lets w lat
  split
  · exact h
  · split
    · exact kept_ite (kept_putWarp h) (kept_failTraining h)
    · split
      · exact kept_ite h <|
          kept_ite (kept_failTraining h) <|
          kept_ite (kept_failTraining h) (kept_ite (kept_failTraining h) (kept_putWarp h))
      · split
        · exact kept_ite h <|
            kept_ite (kept_failTraining h) (kept_ite (kept_failTraining h) (kept_putWarp h))
        · exact kept_ite (kept_lockWarp h) h

theorem kept_warpRetry {m} (h : Kept s₀ s) : Kept s₀ (warpRetry m s) := kept_ite (kept_putWarp h) h
theorem kept_warpRetrainEffect {m c} (h : Kept s₀ s) : Kept s₀ (warpRetrainEffect m c s) := kept_ite (kept_linkDown h) h
theorem kept_writeChain {d} (h : Kept s₀ s) : Kept s₀ (writeChain d s) := kept_lockHead (kept_onLoom h)

theorem kept_writeFollow {n d} (h : Kept s₀ s) : Kept s₀ (writeFollow n d s) := by
  unfold writeFollow
  extract_lets old new
  clear_value new
  exact kept_onLoom h

/-! ### Timed frames -/

theorem kept_modWarp {m f} (h : Kept s₀ s) : Kept s₀ (modWarp m f s) := kept_putWarp h
theorem kept_sendFrame {m} (h : Kept s₀ s) : Kept s₀ (sendFrame m s) := kept_ite h (kept_putWarp (kept_takeLinks (kept_onLoom h)))

theorem kept_degradePass {d} (h : Kept s₀ s) : Kept s₀ (degradePass d s) := by
  unfold degradePass
  split
  · exact kept_poisonSlot h
  · exact h

theorem kept_countPoison {m} (h : Kept s₀ s) : Kept s₀ (countPoison m s) := kept_loomTally (kept_modWarp h)
theorem kept_landFlit {m data poisoned} (h : Kept s₀ s) : Kept s₀ (landFlit m data poisoned s) := kept_receive h

theorem kept_poisonedFlit {m} (h : Kept s₀ s) : Kept s₀ (poisonedFlit m s) := by
  unfold poisonedFlit
  split
  · exact h
  · exact kept_landFlit (kept_degradePass (kept_countPoison h))

theorem kept_intactFlit {m bad data} (h : Kept s₀ s) : Kept s₀ (intactFlit m bad data s) := by
  unfold intactFlit
  split
  · exact kept_modWarp h
  · exact kept_ite (kept_poisonedFlit h) (kept_landFlit h)

theorem kept_faultNotice {m id} (h : Kept s₀ s) : Kept s₀ (faultNotice m id s) := kept_degradePass (kept_countPoison h)

theorem kept_takeMark {m id c} (h : Kept s₀ s) : Kept s₀ (takeMark m id c s) := by
  unfold takeMark
  split
  · exact h
  · extract_lets s1
    have h1 : Kept s₀ s1 := kept_onLoom h
    split
    · exact kept_dropMark h1
    · split
      · exact kept_dropMark h1
      · exact kept_modWarp h1

theorem kept_takeStretch {m v} (h : Kept s₀ s) : Kept s₀ (takeStretch m v s) := by
  unfold takeStretch
  extract_lets c t n
  exact kept_ite h <|
    kept_ite (kept_foldl (fun hs => kept_owesStretch hs) (kept_addTarget h)) <|
    kept_markStale (kept_onLoom (kept_addTarget h))

theorem kept_moveCount {v} (h : Kept s₀ s) : Kept s₀ (moveCount v s) := by
  unfold moveCount
  extract_lets run s1 s2
  have h1 : Kept s₀ s1 := kept_foldl (fun hs => kept_poisonSlot hs) h
  have h2 : Kept s₀ s2 := kept_onLoom h1
  exact kept_foldl (fun hs => kept_modWarp hs) h2

theorem kept_takeSync {m pos locked v} (h : Kept s₀ s) : Kept s₀ (takeSync m pos locked v s) :=
  kept_ite (kept_modWarp h) (kept_ite h (kept_onLoom (kept_ite h (kept_moveCount h))))

theorem kept_damagedFrame {m} (h : Kept s₀ s) : Kept s₀ (damagedFrame m s) := kept_poisonedFlit (kept_loomTally (kept_modWarp h))

theorem kept_intactFrame {m b} (h : Kept s₀ s) : Kept s₀ (intactFrame m b s) := by
  unfold intactFrame
  extract_lets f locked id a head s1 s2 s3 s4
  have h1 : Kept s₀ s1 := kept_modWarp h
  have h2 : Kept s₀ s2 := kept_ite (kept_takeSync h1) h1
  have h3 : Kept s₀ s3 := kept_ite (kept_takeStretch h2) h2
  have h4 : Kept s₀ s4 := kept_ite (kept_takeMark h3) h3
  exact kept_ite (kept_intactFlit h4) (kept_ite (kept_faultNotice h4) h4)

theorem kept_frameDelivered {m b} (h : Kept s₀ s) : Kept s₀ (frameDelivered m b s) := by
  unfold frameDelivered
  exact kept_ite (kept_ite h (kept_poisonedFlit h)) <|
    kept_ite (kept_intactFrame h) (kept_damagedFrame h)

theorem kept_frameArrived {m f} (h : Kept s₀ s) : Kept s₀ (frameArrived m f s) := by
  unfold frameArrived
  extract_lets slot due s1
  have h1 : Kept s₀ s1 := kept_ite (kept_modWarp h) h
  exact kept_ite h1 (kept_ite (kept_frameDelivered h1) (kept_ite (kept_modWarp h1) h1))

theorem kept_dueFramesOf {m} (h : Kept s₀ s) : Kept s₀ (dueFramesOf m s) := by
  unfold dueFramesOf
  split
  · exact h
  · exact kept_foldl (fun hs => kept_frameDelivered hs) (kept_modWarp h)

theorem kept_dueFrames (h : Kept s₀ s) : Kept s₀ (dueFrames s) := kept_foldl (fun hs => kept_dueFramesOf hs) h

/-! ### The attention engines -/

theorem kept_scanSlot {q l c stream heads j} (h : Kept s₀ s) : Kept s₀ (scanSlot q l c stream heads j s).2.2 := by
  unfold scanSlot
  extract_lets sq addr used kr vr
  have hk : Kept s₀ kr.2 := kept_kvWordsRead h
  have hv : Kept s₀ vr.2 := kept_kvWordsRead hk
  split
  · exact hv
  · exact kept_ite (kept_onLoom (kept_putSeq hv)) hv

theorem kept_setCmd {r k} (h : Kept s₀ s) : Kept s₀ (setCmd r k s) := kept_putEngine h

theorem kept_engineDone {r k} (h : Kept s₀ s) : Kept s₀ (engineDone r k s) := by
  unfold engineDone
  extract_lets c s1 out at_ fl
  have h1 : Kept s₀ s1 := by
    unfold s1
    split
    · exact kept_ite (kept_onLoom (kept_putSeq h)) h
    · exact h
  exact kept_onLoom h1

theorem kept_engineAppend {r k} (h : Kept s₀ s) : Kept s₀ (engineAppend r k s) := by
  unfold engineAppend
  extract_lets c q0 a0 n s1 k1 s3
  have h1 : Kept s₀ s1 := by
    unfold s1
    split
    · exact h
    · exact kept_ite (kept_appendPos (kept_readMeta h)) (kept_readMeta h)
  have h3 : Kept s₀ s3 := kept_takeFlits (kept_setCmd h1)
  exact kept_ite (kept_engineDone h3) h3

theorem kept_engineScan {r k} (h : Kept s₀ s) : Kept s₀ (engineScan r k s) := by
  unfold engineScan
  extract_lets c k1
  split
  · exact kept_setCmd h
  · split
    · exact kept_setCmd h
    · extract_lets x s1
      have h1 : Kept s₀ s1 := by
        unfold s1
        split
        · exact kept_ite (kept_modJob (kept_scanSlot h)) (kept_scanSlot h)
        · exact kept_scanSlot h
      exact kept_setCmd h1

theorem kept_engineTick {r} (h : Kept s₀ s) : Kept s₀ (engineTick r s) := by
  unfold engineTick
  split
  · exact h
  · extract_lets c s1
    have h1 : Kept s₀ s1 := kept_engineScan h
    split
    · exact kept_setCmd h
    · split
      · exact h
      · split
        · exact kept_engineAppend h
        · split
          · split
            · exact h1
            · split
              · exact kept_engineDone h1
              · exact h1
          · exact h

theorem kept_dropLost (h : Kept s₀ s) : Kept s₀ (dropLost s) := kept_onLoom h

theorem kept_loomTick (h : Kept s₀ s) : Kept s₀ (loomTick s) := by
  unfold loomTick
  exact kept_ite h <|
    kept_foldl (fun hs => kept_engineTick hs) (kept_lateBreaches (kept_dropLost (kept_dueFrames h)))

theorem kept_demoteLater {r lane} (h : Kept s₀ s) : Kept s₀ (demoteLater r lane s) := by
  refine kept_foldl ?_ h
  intro _ _ hs
  split
  · dsimp only
    split
    · exact kept_breach (kept_setCmd hs)
    · exact kept_setCmd hs
  · exact hs

theorem kept_takeCmd {r raw x} (h : Kept s₀ s) : Kept s₀ (takeCmd r raw x s) := by
  unfold takeCmd
  extract_lets c fault lane k s1 s2
  have h1 : Kept s₀ s1 := kept_putEngine h
  have h2 : Kept s₀ s2 := by
    unfold s2
    clear_value lane
    split
    · exact kept_demoteLater h1
    · exact h1
  clear_value fault
  split
  · exact kept_breach h2
  · exact h2

theorem kept_engineCmd {r kinds handle lane ups} (h : Kept s₀ s) : Kept s₀ (engineCmd r kinds handle lane ups s) := by
  unfold engineCmd
  dsimp only
  split
  · exact h
  · split
    · exact h
    · have h1 := kept_takeFlits (p := atEngine r (lcOf s)) (kept_onLoom (f := fun l => { l with kvUp := addUpsets l.kvUp ups }) h)
      exact kept_ite h (kept_ite (kept_breach h1) (kept_ite (kept_breach (kept_putEngine h1)) (kept_takeCmd h1)))

theorem kept_engineOutput {r} (h : Kept s₀ s) : Kept s₀ (engineOutput r s) := by
  unfold engineOutput
  extract_lets here
  split
  · exact h
  · exact kept_receive (kept_takeFlits h)

theorem kept_orderOnce (h : Kept s₀ s) : Kept s₀ (orderOnce s) := by
  unfold orderOnce
  extract_lets s0 s1
  have h0 : Kept s₀ s0 := kept_passLc h
  have h1 : Kept s₀ s1 := kept_loomTick (kept_ite h0 (kept_copyDone h0))
  exact kept_ite (kept_lockHead (kept_orderRequests h1)) h1

theorem kept_orderN {n} (h : Kept s₀ s) : Kept s₀ (orderN n s) := by
  induction n generalizing s with
  | zero => exact h
  | succ n ih => exact ih (kept_orderOnce h)

/-! ### The gate register map -/

theorem kept_startGrid (h : Kept s₀ s) : Kept s₀ (startGrid s) := kept_readTrims (kept_onFe h)
theorem kept_watchReset (h : Kept s₀ s) : Kept s₀ (watchReset s) := kept_ite (kept_startGrid h.same) h.same

theorem kept_gateResetEffect (h : Kept s₀ s) : Kept s₀ (gateResetEffect s) := by
  unfold gateResetEffect
  extract_lets _ g s0 p
  have h0 : Kept s₀ s0 := kept_escWithdraw (kept_onEsc h)
  exact ⟨h0.queue, h0.loom, h.granary⟩

theorem kept_writeReset {d} (h : Kept s₀ s) : Kept s₀ (writeReset d s) := by
  unfold writeReset
  split
  · extract_lets s1
    have h1 : Kept s₀ s1 := kept_ite (kept_watchReset h) h
    exact kept_ite (kept_gateResetEffect h1) h1
  · exact h

theorem kept_settleSetting {a0 d via at_} (h : Kept s₀ s) : Kept s₀ (settleSetting a0 d via at_ s) := by
  unfold settleSetting
  extract_lets x
  exact kept_ite (kept_settingsNow h) (kept_ite (kept_onWc (kept_applySetting h)) (kept_onWc h))

theorem kept_writeWatchSel {n d} (h : Kept s₀ s) : Kept s₀ (writeWatchSel n d s) := h.same
theorem kept_writeDrops {n d} (h : Kept s₀ s) : Kept s₀ (writeDrops n d s) := kept_onWc h
theorem kept_writeBellCtrl {d via} (h : Kept s₀ s) : Kept s₀ (writeBellCtrl d via s) := kept_onBell h

theorem kept_writeFrontReg {a0 d at_} (h : Kept s₀ s) : Kept s₀ (writeFrontReg a0 d at_ s) := by
  unfold writeFrontReg
  exact kept_ite (kept_writeFeCtrl h) <|
    kept_ite (kept_writeMicbCtrl h) <|
    kept_ite (kept_onFe h) <|
    kept_ite (kept_writeDecCtrl h) <|
    kept_ite (kept_writeFbCtrl h) <|
    kept_ite (kept_onFe h) <|
    kept_ite (kept_writeSens0 h) <|
    kept_ite (kept_writeSens1 h) (kept_ite (kept_writeSens2 h) (kept_ite (kept_onFe h) h))

theorem kept_writeWatchReg {a0 d via at_} (h : Kept s₀ s) : Kept s₀ (writeWatchReg a0 d via at_ s) := by
  unfold writeWatchReg
  exact kept_ite (kept_writeWcCtrl h) <|
    kept_ite (kept_onWc h) <|
    kept_ite (kept_writeMemData h) <|
    kept_ite (kept_writeDrops h) <|
    kept_ite (kept_settleSetting (kept_onWc h)) <|
    kept_ite (kept_settleSetting (kept_onWc h)) <|
    kept_ite (kept_onWc h) <|
    kept_ite (kept_writeMemWin h) <|
    kept_ite (kept_settleSetting (kept_onBell h)) <|
    kept_ite (kept_settleSetting (kept_writeBellCtrl h)) <|
    kept_ite (kept_ite (kept_bellAckEffect h) h) <|
    kept_ite (kept_onWc h) <|
    kept_ite (kept_writeLoftCtrl h) <|
    kept_ite (kept_onLoft h) <|
    kept_ite (kept_writeWatchSel h) (kept_ite h.same (kept_ite h.same h))

theorem kept_watchmanWrite {a0 d via at_} (h : Kept s₀ s) : Kept s₀ (watchmanWrite a0 d via at_ s) :=
  kept_ite h (kept_ite (kept_writeFrontReg h) (kept_writeWatchReg h))

theorem kept_watchmanCommand {a0 d} (h : Kept s₀ s) : Kept s₀ (watchmanCommand a0 d s) :=
  kept_fromGate (fun hs => kept_watchmanWrite hs) h

theorem kept_stageWrite {b d via} (h : Kept s₀ s) : Kept s₀ (stageWrite b d via s) := by
  unfold stageWrite
  extract_lets sealedOnly _ s1
  have h1 : Kept s₀ s1 := kept_ite h.same h
  exact kept_ite h1 (kept_ite h1.same h1)

theorem kept_stageData {d via} (h : Kept s₀ s) : Kept s₀ (stageData d via s) := (kept_stageWrite h).same
theorem kept_stageWin {k d via} (h : Kept s₀ s) : Kept s₀ (stageWin k d via s) := kept_stageWrite h

theorem kept_firstKey (h : Kept s₀ s) : Kept s₀ (firstKey s) := by
  unfold firstKey
  extract_lets k key done r
  have hstaged : Kept s₀ (done r.1 r.2 1) := h.same rfl id canonical_stageSlot
  exact kept_ite h.same (kept_ite h.same (kept_ite h.same hstaged))

theorem kept_writeEscCtrl {d} (h : Kept s₀ s) : Kept s₀ (writeEscCtrl d s) :=
  kept_ite (kept_onEsc h) (kept_escWithdraw (kept_onEsc h))

theorem kept_writeEscTenant {d} (h : Kept s₀ s) : Kept s₀ (writeEscTenant d s) :=
  kept_ite (kept_onEsc h) (kept_escWithdraw (kept_onEsc h))

theorem kept_writeSealed {a0 d} (h : Kept s₀ s) : Kept s₀ (writeSealed a0 d s) := by
  unfold writeSealed
  exact kept_ite h.same <|
    kept_ite (kept_writeLoomReq h) <|
    kept_ite (kept_writeLinkReq h) <|
    kept_ite (kept_writeEscCtrl h) <|
    kept_ite (kept_writeEscTenant h) (kept_ite (kept_onPwr h) (kept_ite (kept_onPwr h) h))

theorem kept_writeGatehouse {a0 d via} (h : Kept s₀ s) : Kept s₀ (writeGatehouse a0 d via s) := by
  unfold writeGatehouse
  extract_lets
  exact kept_ite h.same <|
    kept_ite h.same <|
    kept_ite h.same <|
    kept_ite h.same <|
    kept_ite h.same <|
    kept_ite (kept_onPwr h) <|
    kept_ite (kept_writeReset h) <|
    kept_ite h.same <|
    kept_ite h.same <|
    kept_ite h.same <|
    kept_ite h.same <|
    kept_ite h.same <|
    kept_ite (kept_ite (kept_firstKey h) h) <|
    kept_ite h.same <|
    kept_ite (kept_stageData h) (kept_ite (kept_stageWin h) (kept_ite (kept_writeSealed h) h))

theorem kept_commitWord {a0 d via} (h : Kept s₀ s) : Kept s₀ (commitWord a0 d via s) := by
  unfold commitWord
  extract_lets _ s1 s2
  have h1 : Kept s₀ s1 := kept_ite h.same h
  have h2 : Kept s₀ s2 := kept_ite h1.same h1
  exact kept_writeGatehouse h2

/-! ### Draft loads and the escalation's loom side -/

theorem kept_writeDraftLoad {d} (h : Kept s₀ s) : Kept s₀ (writeDraftLoad d s) := by
  unfold writeDraftLoad
  extract_lets n go s1
  have h1 : Kept s₀ s1 := kept_onLoom h
  exact kept_ite (kept_startLoad h) (kept_ite (kept_startLoad h1) h1)

theorem kept_draftLoad {mode id tenant} (h : Kept s₀ s) : Kept s₀ (draftLoad mode id tenant s) :=
  kept_hostPosts kept_writeDraftLoad h

theorem kept_entryWrite {t k row tenant data} (h : Kept s₀ s) : Kept s₀ (entryWrite t k row tenant data s) := by
  unfold entryWrite
  split
  · exact kept_breachByEntry h
  · exact kept_writeBankRow (kept_useBank h)

theorem kept_landRow {en} (h : Kept s₀ s) : Kept s₀ (landRow en s) := by
  unfold landRow
  exact kept_onEsc (kept_entryWrite h)

theorem kept_dmaRowEffect {e} (h : Kept s₀ s) : Kept s₀ (dmaRowEffect e s) := by
  unfold dmaRowEffect
  extract_lets en
  split
  · exact h
  · split
    · exact kept_landRow (kept_takeLinks h)
    · split
      · exact h
      · exact kept_ite (kept_deliverRow (kept_takeLinks h)) h

theorem kept_copyStart (h : Kept s₀ s) : Kept s₀ (copyStart s) := kept_ite (kept_ite (kept_onEsc h) (kept_endEscalation h)) h

theorem kept_escEntry (h : Kept s₀ s) : Kept s₀ (escEntry s) := by
  unfold escEntry
  extract_lets t f c _ s1
  have h1 : Kept s₀ s1 := kept_onEsc (kept_putRing h)
  exact kept_ite (kept_answerFront (fun hs => kept_runFront hs) (kept_onLoom h1)) h

theorem kept_escAnswer (h : Kept s₀ s) : Kept s₀ (escAnswer s) := by
  unfold escAnswer
  split
  · exact kept_ite (kept_endEscalation h) h
  · exact h

theorem kept_escTimeout (h : Kept s₀ s) : Kept s₀ (escTimeout s) := kept_ite (kept_endEscalation h) h

/-! ### The bobbin -/

theorem kept_pushOut {o tenant addr payload data} (h : Kept s₀ s) : Kept s₀ (pushOut o tenant addr payload data s) :=
  kept_onLoom h

theorem kept_zeroImage {o} (h : Kept s₀ s) : Kept s₀ (zeroImage o s) := by
  unfold zeroImage
  split
  · exact h
  · exact kept_ite (kept_pushOut (kept_modCkpt h)) h

theorem kept_askOnce {o} (h : Kept s₀ s) : Kept s₀ (askOnce o s) := by
  unfold askOnce
  split
  · exact h
  · split
    · exact h
    · exact kept_ite h (kept_enqueue (kept_modCkpt (kept_onLoom h)))

theorem kept_askN {n o} (h : Kept s₀ s) : Kept s₀ (askN n o s) := by
  induction n generalizing s with
  | zero => exact h
  | succ n ih => exact ih (kept_askOnce h)

theorem kept_readAhead {o} (h : Kept s₀ s) : Kept s₀ (readAhead o s) := by
  unfold readAhead
  split
  · exact kept_askN h
  · exact h

theorem kept_readAheadAll (h : Kept s₀ s) : Kept s₀ (readAheadAll s) := kept_foldl (fun hs => kept_readAhead hs) h

theorem kept_admitCkpt {f save c promise} (h : Kept s₀ s) : Kept s₀ (admitCkpt f save c promise s) := by
  unfold admitCkpt
  extract_lets t j s1
  have h1 : Kept s₀ s1 := kept_loomTally (kept_bookMoves (kept_onJobs h))
  exact kept_ite (kept_zeroImage h1) (kept_readAhead h1)

theorem kept_answerCkpt {f} (h : Kept s₀ s) : Kept s₀ (answerCkpt f s) := by
  unfold answerCkpt
  extract_lets b t c0 c save refuse lo ms p
  exact kept_ite (kept_answerNow h) <|
    kept_ite (kept_answerNow h) <|
    kept_ite (kept_answerNow h) (kept_ite (kept_answerNow h) (kept_admitCkpt h))

theorem kept_answerBobbinNop {f} (h : Kept s₀ s) : Kept s₀ (answerBobbinNop f s) := kept_answerNow h

theorem kept_readRow {b r tenant ups} (h : Kept s₀ s) : Kept s₀ (readRow b r tenant ups s).2.2 := by
  unfold readRow
  split
  · split
    · exact kept_breachByEntry h
    · exact kept_readBankRow (kept_useBank h)
  · extract_lets a s1 f
    have h1 : Kept s₀ s1 := kept_useReel (kept_onLoom h)
    exact kept_kvWordsRead h1
  · exact kept_foldl (fun hs => kept_readSlotMeta hs) (kept_onLoom h)
  · extract_lets sq l s1
    have h1 : Kept s₀ s1 := kept_readLaneMeta (kept_onLoom h)
    clear_value s1
    split
    · exact h
    · exact h1
  · exact h

theorem kept_writeRow {b r tenant data} (h : Kept s₀ s) : Kept s₀ (writeRow b r tenant data s) := by
  unfold writeRow
  split
  · exact kept_entryWrite h
  · exact kept_useReel (kept_onLoom h (fun _ => Loom.canonical_mwrite_kv))
  · exact kept_onLoom (kept_putSeq h)
  · exact kept_ite h (kept_onLoom (kept_putSeq h))
  · exact h

theorem kept_failCkpt {o code reason block} (h : Kept s₀ s) : Kept s₀ (failCkpt o code reason block s) :=
  kept_readAheadAll (kept_endCkpt (kept_modCkpt h))

theorem kept_finishCkpt {o save} (h : Kept s₀ s) : Kept s₀ (finishCkpt o save s) := kept_modJob (kept_noteResult h)

theorem kept_moveBooks {o tenant} (h : Kept s₀ s) : Kept s₀ (moveBooks o tenant s) :=
  kept_loomTally (kept_onLoom (kept_modCkpt h))

theorem kept_blockDone {o j c block} (h : Kept s₀ s) : Kept s₀ (blockDone o j c block s) := by
  unfold blockDone
  extract_lets n p entry c1 s1 s2 pad head s3
  have h1 : Kept s₀ s1 := kept_modCkpt h
  have h2 : Kept s₀ s2 := kept_pushOut (kept_pushOut (kept_loomTally h1))
  have h3 : Kept s₀ s3 := kept_ite h2 (kept_pushOut h2)
  exact kept_ite h2 (kept_finishCkpt (kept_pushOut (kept_pushOut h3)))

theorem kept_saveMove {j c ups} (h : Kept s₀ s) : Kept s₀ (saveMove j c ups s) := by
  unfold saveMove
  extract_lets b r block last s1
  have h1 : Kept s₀ s1 := kept_moveBooks (kept_modCkpt (kept_readRow h))
  exact kept_ite (kept_postpone h) <|
    kept_ite (kept_failCkpt (kept_readRow h)) (kept_ite (kept_blockDone h1) h1)

theorem kept_fillRow {b r tenant data} (h : Kept s₀ s) : Kept s₀ (fillRow b r tenant data s) := by
  unfold fillRow
  split
  · exact kept_writeBankRow h
  · exact kept_writeRow h
  · exact kept_writeRow h
  · exact kept_writeRow h
  · exact h

theorem kept_freeTarget {j c} (h : Kept s₀ s) : Kept s₀ (freeTarget j c s) := kept_foldl (fun hs => kept_fillRow hs.same) h

theorem kept_restoreMove {j c} (h : Kept s₀ s) : Kept s₀ (restoreMove j c s) := by
  unfold restoreMove
  extract_lets b go
  have hgo : ∀ c1, Kept s₀ (go c1) := fun c1 => by
    unfold go
    extract_lets s1 s2
    have h2 : Kept s₀ s2 := kept_moveBooks (kept_writeRow (kept_modCkpt h))
    exact kept_ite (kept_finishCkpt h2) h2
  split
  · exact kept_postpone h
  · split
    · exact hgo c
    · split
      · exact kept_postpone h
      · exact kept_failCkpt (kept_freeTarget h)
      · exact hgo _

theorem kept_bobbinMoveEffect {ups} (h : Kept s₀ s) : Kept s₀ (bobbinMoveEffect ups s) := by
  unfold bobbinMoveEffect
  split
  · exact h
  · split
    · exact h
    · split
      · exact h
      · extract_lets s1 c1
        have h1 : Kept s₀ s1 := kept_modCkpt h
        exact kept_ite (kept_saveMove h1) (kept_readAheadAll (kept_restoreMove h1))

theorem kept_saveSent {o} (h : Kept s₀ s) : Kept s₀ (saveSent o s) := kept_ite h (kept_modJob h)

theorem kept_weftWriteEffect (h : Kept s₀ s) : Kept s₀ (weftWriteEffect s) := by
  unfold weftWriteEffect
  extract_lets live s1
  have h1 : Kept s₀ s1 := kept_onLoom h
  split
  · exact h1
  · extract_lets s2
    have h2 : Kept s₀ s2 := kept_loomTally (kept_enqueue h1)
    exact kept_foldl (fun hs => kept_zeroImage hs) (kept_saveSent h2)

theorem kept_imageArrived {o data} (h : Kept s₀ s) : Kept s₀ (imageArrived o data s) := by
  unfold imageArrived
  split
  · exact h
  · exact kept_readAhead (kept_loomTally (kept_modCkpt h))

theorem kept_restoreCheckEffect (h : Kept s₀ s) : Kept s₀ (restoreCheckEffect s) := by
  unfold restoreCheckEffect
  split
  · exact h
  · split
    · exact h
    · split
      · exact kept_failCkpt h
      · exact kept_readAhead (kept_modCkpt h)

theorem kept_writeBobbinCtrl {d} (h : Kept s₀ s) : Kept s₀ (writeBobbinCtrl d s) := by
  unfold writeBobbinCtrl
  extract_lets b b1
  exact kept_onLoom h

/-! ### Gate-port frames: a sealed frame alone programs a bank -/

theorem kept_onPort {f} (h : Kept s₀ s) : Kept s₀ (onPort f s) := h.same
theorem kept_onKeys {f} (h : Kept s₀ s) : Kept s₀ (onKeys f s) := h.same
theorem kept_setLine {line} (h : Kept s₀ s) : Kept s₀ (setLine line s) := kept_onPort h
theorem kept_tick {n} (h : Kept s₀ s) : Kept s₀ (tick n s) := kept_onKeys h

theorem kept_beginFrame (h : Kept s₀ s) : Kept s₀ (beginFrame s) := by
  unfold beginFrame
  extract_lets s1
  have h1 : Kept s₀ s1 := kept_publishHeld h
  exact kept_ite (kept_onPort h1) (kept_onPort h1)

theorem kept_endFrame (h : Kept s₀ s) : Kept s₀ (endFrame s) := kept_onPort h
theorem kept_markShort {op} (h : Kept s₀ s) : Kept s₀ (markShort op s) := kept_onPort h
theorem kept_latchHigh {n c} (h : Kept s₀ s) : Kept s₀ (latchHigh n c s) := h.same

theorem kept_readEffects {snap as} (h : Kept s₀ s) : Kept s₀ (readEffects snap as s) := by
  induction as generalizing s with
  | nil => exact h
  | cons a as ih => exact ih (kept_ite (kept_latchHigh h) h)

theorem kept_readBurst {addr n clocks} (h : Kept s₀ s) : Kept s₀ (readBurst addr n clocks s) := by
  unfold readBurst
  extract_lets as s1
  have h1 : Kept s₀ s1 := kept_tick (kept_beginFrame h)
  exact kept_ite h1 (kept_tick (kept_onPort (kept_readEffects h1)))

theorem kept_readFrame {addr n extra} (h : Kept s₀ s) : Kept s₀ (readFrame addr n extra s) :=
  kept_tick (kept_endFrame (kept_setLine (kept_readBurst h)))

theorem kept_oneWordFrame {word extra} (h : Kept s₀ s) : Kept s₀ (oneWordFrame word extra s) := by
  unfold oneWordFrame
  extract_lets s1
  have h1 : Kept s₀ s1 := kept_tick (kept_beginFrame h)
  exact kept_tick (kept_endFrame (kept_setLine h1))

theorem kept_commitBurst {ds a} (h : Kept s₀ s) : Kept s₀ (commitBurst ds a s) := by
  induction ds generalizing a s with
  | nil => exact h
  | cons d ds ih => exact kept_ite (kept_commitWord h) (ih (kept_commitWord h))

theorem kept_writeFrame {addr data extra} (h : Kept s₀ s) : Kept s₀ (writeFrame addr data extra s) := by
  unfold writeFrame
  extract_lets words
  exact kept_ite h <|
    kept_tick (kept_endFrame (kept_commitBurst (kept_setLine (kept_beginFrame h))))

theorem kept_noteVerdict {v} (h : Kept s₀ s) : Kept s₀ (noteVerdict v s) := by
  unfold noteVerdict
  split
  · extract_lets s1
    have h1 : Kept s₀ s1 := kept_onPort (kept_onKeys h)
    exact kept_ite (kept_raise h1) h1
  · exact h

theorem kept_noteNv {f mon last} (h : Kept s₀ s) : Kept s₀ (noteNv f mon last s) := kept_ite h.same h

theorem kept_commitLong {f slot mon} (h : Kept s₀ s) : Kept s₀ (commitLong f slot mon s).1 := by
  unfold commitLong
  extract_lets r s1 s2
  have h1 : Kept s₀ s1 := h.same rfl id (fun hg => canonical_granaryCommit mon hg (canonical_raisedView f slot hg))
  have h2 : Kept s₀ s2 := kept_onPort h1
  clear_value s1 s2 r
  split
  · exact kept_ite (kept_onKeys h2) h2
  · exact kept_raise h1
  · exact h1

theorem kept_commandEffect {code arg slot ctr} (h : Kept s₀ s) : Kept s₀ (commandEffect code arg slot ctr s) :=
  kept_ite (kept_onKeys h) <| kept_ite (h.same rfl id canonical_stageSlot) <|
    kept_ite (h.same rfl id canonical_storeDeltaBytes) <| kept_ite (h.same rfl id (canonical_decommission (k := s.keys))) h

theorem kept_sealedEffect {f slot ctr} (h : Kept s₀ s) : Kept s₀ (sealedEffect f slot ctr s) := by
  unfold sealedEffect
  split
  · exact kept_commitWord h
  · exact kept_commandEffect h

theorem kept_raiseLow {code} (h : Kept s₀ s) : Kept s₀ (raiseLow code s) := kept_ite (kept_raise h) h

theorem kept_sealedBooks {f v code ctr} (h : Kept s₀ s) : Kept s₀ (sealedBooks f v code ctr s) := by
  unfold sealedBooks
  extract_lets s1
  have h1 : Kept s₀ s1 := by
    unfold s1
    split
    · exact kept_onKeys h
    · exact h
  exact kept_raiseLow (kept_onPort h1)

theorem kept_sealedCommit {f v ctr mon} (h : Kept s₀ s) : Kept s₀ (sealedCommit f v ctr mon s) := by
  unfold sealedCommit
  split
  · split
    · exact kept_sealedBooks (kept_commitLong h)
    · extract_lets s1
      have h1 : Kept s₀ s1 := kept_onKeys (kept_sealedEffect (kept_endFrame (kept_sealedBooks h)))
      exact kept_ite h1 (kept_raiseLow h1)
  · exact kept_onKeys (kept_sealedBooks h)
  · exact kept_sealedBooks h

theorem kept_sealedFrame {f ctr tag mon extra} (h : Kept s₀ s) : Kept s₀ (sealedFrame f ctr tag mon extra s) := by
  unfold sealedFrame
  extract_lets s1 v s2 code
  have h1 : Kept s₀ s1 := kept_tick (kept_beginFrame h)
  have h2 : Kept s₀ s2 := kept_noteNv (kept_noteVerdict h1)
  exact kept_endFrame (kept_sealedCommit (kept_setLine h2))

theorem kept_sealedCut {f ctr tag mon clocks} (h : Kept s₀ s) : Kept s₀ (sealedCut f ctr tag mon clocks s) := by
  unfold sealedCut
  extract_lets s1 line v s2
  have h1 : Kept s₀ s1 := kept_tick (kept_beginFrame h)
  have h2 : Kept s₀ s2 := kept_noteNv (kept_noteVerdict h1)
  split
  · exact kept_markShort (kept_setLine h1)
  · split
    · exact kept_markShort (kept_setLine h1)
    · refine kept_markShort ?_
      split
      · exact kept_setLine (h2.same rfl id (fun hg => canonical_granaryCut mon _ hg (canonical_raisedView f _ hg)))
      · exact kept_setLine h2

theorem kept_openFrame {finds extra} (h : Kept s₀ s) : Kept s₀ (openFrame finds extra s) := by
  unfold openFrame
  extract_lets s1 r s2 s3
  have h1 : Kept s₀ s1 := kept_tick (kept_beginFrame h)
  have h2 : Kept s₀ s2 := h1.same
  have h3 : Kept s₀ s3 := kept_onPort h2
  exact kept_tick (kept_endFrame (kept_ite (kept_raise h3) h3))

theorem kept_undefinedFrame {op extra} (h : Kept s₀ s) : Kept s₀ (undefinedFrame op extra s) :=
  kept_ite h (kept_tick (kept_endFrame (kept_onPort (kept_beginFrame h))))

theorem kept_cutWord {word clocks} (h : Kept s₀ s) : Kept s₀ (cutWord word clocks s) := by
  unfold cutWord
  extract_lets s1
  have h1 : Kept s₀ s1 := kept_tick (kept_beginFrame h)
  exact kept_markShort (kept_tick (kept_setLine h1))

theorem kept_cutFrame {f clocks} (h : Kept s₀ s) : Kept s₀ (cutFrame f clocks s) := by
  unfold cutFrame
  split
  · exact h
  · split
    · exact kept_markShort (kept_setLine (kept_readBurst h))
    · extract_lets words s1
      have h1 : Kept s₀ s1 := kept_tick (kept_commitBurst (kept_setLine (kept_beginFrame h)))
      exact kept_ite (kept_endFrame h1) (kept_markShort h1)
    · exact kept_sealedCut h
    · exact kept_sealedCut h
    · exact kept_markShort (kept_tick (kept_setLine (kept_beginFrame h)))
    · exact kept_cutWord h
    · exact kept_cutWord h
    · exact kept_markShort (kept_tick (kept_setLine (kept_beginFrame h)))

theorem kept_shortFrameEffect {f clocks} (h : Kept s₀ s) : Kept s₀ (shortFrameEffect f clocks s) := kept_fromGate kept_cutFrame h

/-! ### Power-on reset, resets and monitors -/

/-- POR empties the loom's memories and keeps the MRAM (R145). -/
theorem kept_porHold (h : Kept s₀ s) : Kept s₀ (porHold s) :=
  h.same rfl (fun _ => ⟨Memory.wf_nil, Memory.wf_nil, Memory.wf_nil⟩)

theorem kept_porFree {rails straps} (h : Kept s₀ s) : Kept s₀ (porFree rails straps s) := kept_ite h.same h

theorem kept_hostTreset {r} (h : Kept s₀ s) : Kept s₀ (hostTreset r s) := by
  unfold hostTreset
  split
  · exact h
  · split
    · exact kept_ite (kept_requestTenantReset h) h
    · exact kept_ite (kept_requestTenantReset h) h

theorem kept_aonLock (h : Kept s₀ s) : Kept s₀ (aonLock s) := kept_ite h (kept_watchReset h.same)
theorem kept_aonLoss (h : Kept s₀ s) : Kept s₀ (aonLoss s) := kept_ite (kept_watchReset h.same) h

/-! ### Hop boundaries and the sensor port -/

theorem kept_settleFe {n} (h : Kept s₀ s) : Kept s₀ (settleFe n s) := kept_ite (kept_onFe h) h

theorem kept_closeFrame {n h'} (h : Kept s₀ s) : Kept s₀ (closeFrame n h' s) :=
  kept_ite (kept_onFe h) (kept_watchTally (kept_onFe h))

theorem kept_applyFb (h : Kept s₀ s) : Kept s₀ (applyFb s) := by
  unfold applyFb
  extract_lets new old rebase go
  exact kept_onFe h

theorem kept_bandHop {i level} (h : Kept s₀ s) : Kept s₀ (bandHop i level s).1 :=
  kept_ite (kept_watchTally (kept_onBell (kept_ite (kept_onWc (kept_onFe h)) (kept_onFe h))))
    (kept_ite (kept_onWc (kept_onFe h)) (kept_onFe h))

theorem kept_bandsHop {ls i} (h : Kept s₀ s) : Kept s₀ (bandsHop ls i s).1 := by
  induction ls generalizing i s with
  | nil => exact h
  | cons l ls ih => exact ih (kept_bandHop h)

theorem kept_bufferSpikes {lines} (h : Kept s₀ s) : Kept s₀ (bufferSpikes lines s) := kept_ite (kept_onWc h) h

theorem kept_recordFrame (h : Kept s₀ s) : Kept s₀ (recordFrame s) := by
  unfold recordFrame
  extract_lets c whole fr
  exact kept_onLoft h

theorem kept_startFrames (h : Kept s₀ s) : Kept s₀ (startFrames s) := kept_onFe h

theorem kept_manualFreeze (h : Kept s₀ s) : Kept s₀ (manualFreeze s) := by
  unfold manualFreeze
  split
  · exact h
  · exact kept_ite h (kept_manualPoint (kept_onLoft h))

theorem kept_tickGrid (h : Kept s₀ s) : Kept s₀ (tickGrid s) := kept_onFe (kept_sampleGray h)
theorem kept_hopTrims (h : Kept s₀ s) : Kept s₀ (hopTrims s) := kept_ite (kept_readTrims h) h

theorem kept_hopEffect {h'} (h : Kept s₀ s) : Kept s₀ (hopEffect h' s) := by
  unfold hopEffect
  split
  · exact h
  · extract_lets s1 r
    have h1 : Kept s₀ s1 := kept_closeFrame (kept_closeFrame (kept_settleFe (kept_settleFe (kept_applyFb (kept_tickGrid h)))))
    exact kept_hopTrims <| kept_manualFreeze <| kept_settleFreeze <| kept_startFrames <| kept_recordFrame <|
      kept_bufferSpikes (kept_bandsHop h1)

theorem kept_frontWrite {a0 d} (h : Kept s₀ s) : Kept s₀ (frontWrite a0 d s) := kept_watchmanCommand h
theorem kept_rampDone (h : Kept s₀ s) : Kept s₀ (rampDone s) := kept_ite (kept_onFe h) h
theorem kept_hdrmEffect {on} (h : Kept s₀ s) : Kept s₀ (hdrmEffect on s) := kept_ite (kept_setBiasConditions h) h
theorem kept_limitEffect {on} (h : Kept s₀ s) : Kept s₀ (limitEffect on s) := kept_ite (kept_setBiasConditions h) h
theorem kept_biasFault (h : Kept s₀ s) : Kept s₀ (biasFault s) := kept_ite h (kept_raise (kept_onFe h))

theorem kept_faultMuteEnd (h : Kept s₀ s) : Kept s₀ (faultMuteEnd s) := by
  unfold faultMuteEnd
  split
  · exact h
  · exact kept_ite h (kept_onFe h)

theorem kept_micRail {on} (h : Kept s₀ s) : Kept s₀ (micRail on s) := h.same
theorem kept_sampleTickEffect (h : Kept s₀ s) : Kept s₀ (sampleTickEffect s) := kept_ite h (kept_onFe (kept_applySensor h))
theorem kept_transactionEnd {bytes} (h : Kept s₀ s) : Kept s₀ (transactionEnd bytes s) := kept_ite h (kept_onFe h)

/-! ### The TAP -/

theorem kept_loseFrame {inFrame} (h : Kept s₀ s) : Kept s₀ (loseFrame inFrame s) := by
  unfold loseFrame
  extract_lets s1
  have h1 : Kept s₀ s1 := by
    unfold s1
    split
    · exact kept_shortFrameEffect h
    · exact h
  exact kept_idlePort h1

theorem kept_onTap {cells edges} (h : Kept s₀ s) : Kept s₀ (onTap cells edges s) := h.same
theorem kept_loadInstr {op} (h : Kept s₀ s) : Kept s₀ (loadInstr op s) := kept_onTap h.same
theorem kept_boundaryScan {bumps shifted} (h : Kept s₀ s) : Kept s₀ (boundaryScan bumps shifted s) := kept_onTap h

theorem kept_selectInstr {op inFrame} (h : Kept s₀ s) : Kept s₀ (selectInstr op inFrame s) := by
  unfold selectInstr
  refine kept_loadInstr ?_
  split
  · exact h
  · exact h
  · exact kept_loseFrame h

/-! ### The MXU, VEC and QNT commands -/

theorem kept_rowOp {t unit src f} (hf : ∀ {x0 s}, Kept s₀ s → Kept s₀ (f x0 s)) (h : Kept s₀ s) :
    Kept s₀ (rowOp t unit src f s) :=
  hf (kept_sourceRow h)

theorem kept_modTile {t f} (h : Kept s₀ s) : Kept s₀ (modTile t f s) := kept_putTile h

theorem kept_loadwEffect {t row target} (h : Kept s₀ s) : Kept s₀ (loadwEffect t row target s) :=
  kept_issueMxu (fun hs => kept_rowOp (fun hs => kept_modTile hs) hs) h

theorem kept_macIssue {t f} (h : Kept s₀ s) : Kept s₀ (macIssue t f s) :=
  kept_issueMxu (fun hs => kept_rowOp (fun hs => kept_launch hs) hs) h

theorem kept_drainIssue {t acc mode dst h'} (h : Kept s₀ s) : Kept s₀ (drainIssue t acc mode dst h' s) := by
  unfold drainIssue
  refine kept_issueMxu ?_ h
  intro _ _ hs
  extract_lets tile a
  exact kept_ite hs (kept_loomTally (kept_launch hs))

theorem kept_corrIssue {t wfmt acc ar0 ar1} (h : Kept s₀ s) : Kept s₀ (corrIssue t wfmt acc ar0 ar1 s) :=
  kept_issueMxu (fun hs => kept_launch hs) h

theorem kept_vecRun {t lat f v} (h : Kept s₀ s) : Kept s₀ (vecRun t lat f v s) := by
  unfold vecRun
  split
  · exact h
  · exact kept_launch h

theorem kept_vecOp {op t lat v f} (h : Kept s₀ s) : Kept s₀ (vecOp op t lat v f s) := kept_issueVec (fun hs => kept_vecRun hs) h

theorem kept_vecLoad {op t v f} (h : Kept s₀ s) : Kept s₀ (vecLoad op t v f s) := by
  unfold vecLoad
  refine kept_issueVec ?_ h
  intro _ _ hs
  split
  · exact hs
  · refine kept_rowOp ?_ hs
    intro _ _ hs
    split
    · exact kept_launch hs
    · exact hs

theorem kept_cvtIssue {t v} (h : Kept s₀ s) : Kept s₀ (cvtIssue t v s) := by
  unfold cvtIssue
  refine kept_issueVec ?_ h
  intro _ _ hs
  split
  · exact hs
  · exact kept_vecRun hs

theorem kept_f32Op {op t v g} (h : Kept s₀ s) : Kept s₀ (f32Op op t v g s) :=
  kept_issueVec (fun hs => kept_ite (kept_vecRun hs) hs) h

theorem kept_quantIssue {t f} (h : Kept s₀ s) : Kept s₀ (quantIssue t f s) := by
  unfold quantIssue
  refine kept_issueQnt ?_ h
  intro _ _ hs
  extract_lets x n
  split
  · exact kept_launch hs
  · extract_lets q es
    exact kept_launch (kept_putTile hs)

theorem kept_qntRowOp {t src f} (hf : ∀ {x0 s}, Kept s₀ s → Kept s₀ (f x0 s)) (h : Kept s₀ s) : Kept s₀ (qntRowOp t src f s) :=
  kept_ite (kept_rowOp hf h) (hf h)

theorem kept_deqIssue {t f} (h : Kept s₀ s) : Kept s₀ (deqIssue t f s) := by
  unfold deqIssue
  refine kept_issueQnt ?_ h
  intro _ _ hs
  refine kept_qntRowOp ?_ hs
  intro _ _ hs
  extract_lets x
  split
  · exact kept_launch hs
  · exact kept_launch (kept_ite hs.same hs)

theorem kept_cfg0Issue {t f} (h : Kept s₀ s) : Kept s₀ (cfg0Issue t f s) := kept_issueQnt (fun hs => kept_modTile hs) h

theorem kept_flushIssue {t f} (h : Kept s₀ s) : Kept s₀ (flushIssue t f s) := by
  unfold flushIssue
  refine kept_issueQnt ?_ h
  intro _ _ hs
  extract_lets n x y
  exact kept_launch (kept_putTile hs)

theorem kept_statsIssue {t f} (h : Kept s₀ s) : Kept s₀ (statsIssue t f s) := by
  unfold statsIssue
  refine kept_issueQnt ?_ h
  intro _ _ hs
  extract_lets x n y all _ x1
  exact kept_launch (kept_putTile hs)

theorem kept_ldsideIssue {t f} (h : Kept s₀ s) : Kept s₀ (ldsideIssue t f s) :=
  kept_issueQnt (fun hs => kept_qntRowOp (fun hs => kept_modTile hs) hs) h

/-! ### The commands of the watch cores -/

theorem kept_startStep {t0 spikes last} (h : Kept s₀ s) : Kept s₀ (startStep t0 spikes last s) := by
  unfold startStep
  extract_lets k s1 takes t s2 cut d s3
  have h1 : Kept s₀ s1 := kept_watchTally (kept_onWc h)
  have h2 : Kept s₀ s2 := kept_foldl (fun hs => kept_queueToken hs) h1
  have h3 : Kept s₀ s3 := kept_onWc h2
  exact kept_ite (kept_updateAndRoute h3) (kept_onWc h3)

theorem kept_watchStep (h : Kept s₀ s) : Kept s₀ (watchStep s) := by
  unfold watchStep
  extract_lets w
  split
  · split
    · exact h
    · split
      · exact h
      · exact kept_startStep h
  · exact h

theorem kept_deliveryCutoff (h : Kept s₀ s) : Kept s₀ (deliveryCutoff s) := kept_ite h (kept_cutStep h)

theorem kept_stepEndEffect {gcsLow} (h : Kept s₀ s) : Kept s₀ (stepEndEffect gcsLow s) := by
  unfold stepEndEffect
  split
  · exact kept_ite h (kept_finishStep h)
  · exact h

theorem kept_bellActionEffect (h : Kept s₀ s) : Kept s₀ (bellActionEffect s) := by
  unfold bellActionEffect
  split
  · exact h
  · exact kept_ite h (kept_takeBellAction (kept_onBell h))

theorem kept_landWrite (h : Kept s₀ s) : Kept s₀ (landWrite s) := by
  unfold landWrite
  split
  · exact h
  · exact kept_watchmanWrite h.same

/-! ### The weft control region -/

theorem kept_enableRing {n d} (h : Kept s₀ s) : Kept s₀ (enableRing n d s) :=
  kept_ite (kept_sendOwed (kept_putRing h)) (kept_putRing h)

theorem kept_dropRingRead {n} (h : Kept s₀ s) : Kept s₀ (dropRingRead n s) := kept_onLoom h
theorem kept_disableRing {n} (h : Kept s₀ s) : Kept s₀ (disableRing n s) := kept_ite h (kept_dropRingRead (kept_putRing h))

theorem kept_writeRingCfg {n d} (h : Kept s₀ s) : Kept s₀ (writeRingCfg n d s) := by
  unfold writeRingCfg
  extract_lets r
  exact kept_ite (kept_ite h (kept_disableRing h)) (kept_ite (kept_enableRing h) (kept_putRing h))

theorem kept_writeRing {n w d} (h : Kept s₀ s) : Kept s₀ (writeRing n w d s) := by
  unfold writeRing
  extract_lets r
  exact kept_ite (kept_ite h (kept_putRing h)) <|
    kept_ite (kept_writeRingCfg h) (kept_ite (kept_ite h (kept_putRing h)) h)

theorem kept_badDoorbell {n v} (h : Kept s₀ s) : Kept s₀ (badDoorbell n v s) := kept_sendEvent h

theorem kept_ringTail {n v} (h : Kept s₀ s) : Kept s₀ (ringTail n v s) :=
  kept_ite h (kept_ite (kept_putRing h) (kept_badDoorbell h))

theorem kept_ringHead {n v} (h : Kept s₀ s) : Kept s₀ (ringHead n v s) := by
  unfold ringHead
  exact kept_ite h <|
    kept_ite (kept_ite (kept_flushLost (kept_putRing h)) (kept_putRing h)) <|
    kept_badDoorbell h

theorem kept_writeDoorbell {m t o d} (h : Kept s₀ s) : Kept s₀ (writeDoorbell m t o d s) := by
  unfold writeDoorbell
  extract_lets v
  exact kept_ite (kept_ringTail h) <|
    kept_ite (kept_ringHead h) <|
    kept_ite (kept_ringHead h) <|
    kept_ite (kept_ringTail h) (kept_ite (kept_hostPower h) (kept_ite (kept_hostTreset h) h))

theorem kept_writePart {t d} (h : Kept s₀ s) : Kept s₀ (writePart t d s) := kept_ite (kept_onLoom (kept_onLoom h)) (kept_onLoom h)
theorem kept_writeShadow {e w d} (h : Kept s₀ s) : Kept s₀ (writeShadow e w d s) := kept_ite h (kept_onWeave h)
theorem kept_writeWeaveCtrl {d} (h : Kept s₀ s) : Kept s₀ (writeWeaveCtrl d s) := kept_ite h (kept_onWeave h)
theorem kept_weaveGo (h : Kept s₀ s) : Kept s₀ (weaveGo s) := kept_ite (kept_onWeave h) (kept_onWeave h)
theorem kept_weaveChecked (h : Kept s₀ s) : Kept s₀ (weaveChecked s) := kept_ite h (kept_onWeave h)

theorem kept_writeTallySel {n d} (h : Kept s₀ s) : Kept s₀ (writeTallySel n d s) := by
  unfold writeTallySel
  refine kept_onLoom h (fun l hl => ?_)
  dsimp only
  split
  · exact Loom.canonical_clearTally _ _ _ hl
  · exact hl

theorem kept_writeCtlLow {m a d owner} (h : Kept s₀ s) : Kept s₀ (writeCtlLow m a d owner s) := by
  have hstretch : Kept s₀ (if bitOf d.toNat 32 then clearStretch s else s) := kept_ite (kept_clearStretch h) h
  unfold writeCtlLow
  refine kept_ite (kept_hostPower h) <| kept_ite (kept_writePoint h) <| kept_ite (kept_ite (kept_onClock hstretch) hstretch) <|
    kept_ite (kept_onLoom h) <| kept_ite (kept_writeDraftLoad h) <| kept_ite (kept_ite (kept_onLoom h) h) <|
    kept_ite (kept_hostTreset h) <| kept_ite (kept_writeWeaveCtrl h) <| kept_ite (kept_ite (kept_weaveGo h) h) <|
    kept_ite (kept_writeWarpCtrl h) <| kept_ite (kept_writeChain h) <| kept_ite (kept_writeBobbinCtrl h) ?_
  split
  · exact kept_writeFollow h
  · exact kept_writeTallySel h
  · exact h

theorem kept_writeCtlHigh {a0 d} (h : Kept s₀ s) : Kept s₀ (writeCtlHigh a0 d s) := by
  unfold writeCtlHigh
  split
  · exact kept_writePart h
  · exact kept_writeShadow h
  · exact kept_writeRing h
  · exact h

theorem kept_weftWrite {m a0 d owner} (h : Kept s₀ s) : Kept s₀ (weftWrite m a0 d owner s) := by
  unfold weftWrite
  exact kept_ite h <|
    kept_ite (kept_writeCtlLow h) <|
    kept_ite (kept_writeCtlHigh h) (kept_ite (kept_writeDoorbell h) h)

theorem kept_registerWriteEffect {w} (h : Kept s₀ s) : Kept s₀ (registerWriteEffect w s) := by
  unfold registerWriteEffect
  split
  · exact kept_fromGate kept_commitWord h
  · exact kept_hostPosts kept_weftWrite h

/-! ### The apertures -/

theorem kept_readSlotWord {q l j} (h : Kept s₀ s) : Kept s₀ (readSlotWord q l j s).2 := kept_readSlotMeta h

theorem kept_readSlotWords {q n k} (h : Kept s₀ s) : Kept s₀ (readSlotWords q n k s).2 := by
  induction k generalizing n s with
  | zero => exact h
  | succ k ih =>
    unfold readSlotWords
    dsimp only
    refine ih ?_
    split
    · exact kept_readSlotWord h
    · exact h

theorem kept_readReelRow {q x b n ups} (h : Kept s₀ s) : Kept s₀ (readReelRow q x b n ups s).2 := by
  unfold readReelRow
  dsimp only
  split
  · exact h
  · split
    · exact h
    · exact kept_kvWordsRead (kept_useReel (kept_onLoom h))

theorem kept_readPlace {p n ups} (h : Kept s₀ s) : Kept s₀ (readPlace p n ups s).2 := by
  unfold readPlace
  split
  · exact kept_readBankRow (kept_useBank h)
  · split
    · exact kept_readReelRow h
    · exact h
  · split
    · exact kept_readSlotWords h
    · exact h
  · exact h

theorem kept_writePlace {p data} (h : Kept s₀ s) : Kept s₀ (writePlace p data s) := by
  unfold writePlace
  split
  · exact kept_onLoom (kept_useBank h) (fun _ => Loom.canonical_mwrite_banks)
  · exact kept_ite h (kept_useReel (kept_onLoom h (fun _ => Loom.canonical_mwrite_kv)))
  · exact h

/-! ### The weft link -/

theorem kept_modWeft {m f} (h : Kept s₀ s) : Kept s₀ (modWeft m f s) := kept_putWeft h
theorem kept_sendIdle {m ack} (h : Kept s₀ s) : Kept s₀ (sendIdle m ack s) := kept_ite (kept_sendFlit h) h
theorem kept_takeNak {m seq} (h : Kept s₀ s) : Kept s₀ (takeNak m seq s) := kept_ite h (kept_loomTally (kept_putWeft h))
theorem kept_dropRead {r} (h : Kept s₀ s) : Kept s₀ (dropRead r s) := kept_onLoom h

theorem kept_consume {r d} (h : Kept s₀ s) : Kept s₀ (consume r d s) := by
  unfold consume
  split
  · exact kept_entriesArrived h
  · exact kept_onLoom h
  · exact kept_imageArrived h

theorem kept_deliverReads {k} (h : Kept s₀ s) : Kept s₀ (deliverReads k s) := by
  induction k generalizing s with
  | zero => exact h
  | succ k ih =>
    unfold deliverReads
    split
    · exact h
    · exact ih (kept_consume (kept_dropRead h))

theorem kept_readFailed {r status} (h : Kept s₀ s) : Kept s₀ (readFailed r status s) := by
  unfold readFailed
  extract_lets s1
  have h1 : Kept s₀ s1 := kept_dropRead h
  split
  · exact kept_sendEvent (kept_putRing h1)
  · exact kept_abandonLoad h1
  · exact kept_failCkpt h1

theorem kept_readResponse {m tag status data} (h : Kept s₀ s) : Kept s₀ (readResponse m tag status data s) := by
  unfold readResponse
  split
  · exact h
  · exact kept_ite (kept_readFailed h) (kept_deliverReads (kept_onLoom h))

theorem kept_popHead {m x} (h : Kept s₀ s) : Kept s₀ (popHead m x s) := kept_modWeft h

theorem kept_answerHost {m tag status owner data} (h : Kept s₀ s) : Kept s₀ (answerHost m tag status owner data s) :=
  kept_answerRead (kept_modWeft h)

theorem kept_parkTxn {m x} (h : Kept s₀ s) : Kept s₀ (parkTxn m x s) := kept_modWeft h

theorem kept_dropBad {m isRead owner} (h : Kept s₀ s) : Kept s₀ (dropBad m isRead owner s) :=
  kept_sendEvent (kept_loomTally (kept_ite (kept_modWeft h) h))

theorem kept_serveRead {m x} (h : Kept s₀ s) : Kept s₀ (serveRead m x s) := by
  unfold serveRead
  exact kept_ite (kept_answerHost h) <|
    kept_ite (kept_answerHost h) (kept_ite (kept_parkTxn h) (kept_answerHost h))

theorem kept_serveWrite {m x} (h : Kept s₀ s) : Kept s₀ (serveWrite m x s) :=
  kept_ite h (kept_ite (kept_weftWrite h) (kept_ite (kept_parkTxn h) h))

theorem kept_serveQueue {k m} (h : Kept s₀ s) : Kept s₀ (serveQueue k m s) := by
  induction k generalizing s with
  | zero => exact h
  | succ k ih =>
    unfold serveQueue
    split
    · exact h
    · exact kept_ite (ih (kept_dropBad (kept_popHead h))) <|
        kept_ite h (ih (kept_ite (kept_serveRead (kept_popHead h)) (kept_serveWrite (kept_popHead h))))

theorem kept_serve {m} (h : Kept s₀ s) : Kept s₀ (serve m s) := kept_serveQueue h

theorem kept_malformed {m isRead tag owner size} (h : Kept s₀ s) : Kept s₀ (malformed m isRead tag owner size s) :=
  kept_ite (kept_answerRead (kept_modWeft h)) (kept_modWeft h)

theorem kept_malformedTxn {m isRead tag owner size} (h : Kept s₀ s) : Kept s₀ (malformedTxn m isRead tag owner size s) :=
  kept_malformed (kept_modWeft h)

theorem kept_acceptTxn {m x} (h : Kept s₀ s) : Kept s₀ (acceptTxn m x s) := by
  unfold acceptTxn
  extract_lets w
  exact kept_ite (kept_malformed h) <|
    kept_ite (kept_dropPosted (kept_modWeft h)) (kept_serve (kept_putWeft h))

theorem kept_hostWrite {m addr owner data} (h : Kept s₀ s) : Kept s₀ (hostWrite m addr owner data s) :=
  kept_ite h (kept_ite (kept_malformedTxn h) (kept_acceptTxn h))

theorem kept_hostRead {m addr size tag owner} (h : Kept s₀ s) : Kept s₀ (hostRead m addr size tag owner s) :=
  kept_ite h (kept_ite (kept_malformedTxn h) (kept_acceptTxn h))

theorem kept_flitTxn {m b ups i} (h : Kept s₀ s) : Kept s₀ (flitTxn m b ups i s) := by
  unfold flitTxn
  extract_lets head kind g n tag owner addr data fits
  exact kept_ite (kept_ite (kept_acceptTxn h) (kept_malformedTxn h)) <|
    kept_ite (kept_ite (kept_acceptTxn h) (kept_malformedTxn h)) <|
    kept_ite (kept_ite (kept_readResponse h) (kept_malformed h)) (kept_malformed h)

theorem kept_flitHeader {m b} (h : Kept s₀ s) : Kept s₀ (flitHeader m b s) := by
  unfold flitHeader
  extract_lets head s1
  have h1 : Kept s₀ s1 := kept_modWeft h
  exact kept_ite (kept_modWeft h1) (kept_ite (kept_takeNak (kept_modWeft h1)) h1)

theorem kept_flitRejected {m b} (h : Kept s₀ s) : Kept s₀ (flitRejected m b s) := kept_ite h (kept_modWeft (kept_sendIdle h))

theorem kept_flitEffect {m b ups} (h : Kept s₀ s) : Kept s₀ (flitEffect m b ups s) := by
  unfold flitEffect
  extract_lets w s1 s2
  have h1 : Kept s₀ s1 := kept_foldl (fun hs => kept_flitTxn hs) (kept_flitHeader h)
  have h2 : Kept s₀ s2 := kept_pump (kept_pump h1)
  exact kept_ite h (kept_ite (kept_flitRejected h) (kept_ite (kept_sendIdle h2) h2))

theorem kept_takeOver {m} (h : Kept s₀ s) : Kept s₀ (takeOver m s) := by
  unfold takeOver
  extract_lets w o goes merge tags
  exact kept_onLoom (kept_putWeft (kept_putWeft h))

theorem kept_trainWeft {m rate reversed posted nonposted} (h : Kept s₀ s) :
    Kept s₀ (trainWeft m rate reversed posted nonposted s) :=
  kept_ite (kept_pump (kept_takeOver (kept_modWeft h))) h

theorem kept_retrainWeft {m c} (h : Kept s₀ s) : Kept s₀ (retrainWeft m c s) := kept_ite (kept_linkDown h) h
theorem kept_unpark {m i} (h : Kept s₀ s) : Kept s₀ (unpark m i s) := kept_modWeft h
theorem kept_repark {m i x} (h : Kept s₀ s) : Kept s₀ (repark m i x s) := kept_modWeft h

theorem kept_applyWaiting {m i ups} (h : Kept s₀ s) : Kept s₀ (applyWaiting m i ups s) := by
  unfold applyWaiting
  split
  · exact h
  · extract_lets x p r d s1 d
    have h1 : Kept s₀ s1 := kept_writePlace h
    split
    · exact h
    · split
      · exact kept_serve (kept_dropBad (kept_unpark h))
      · split
        · exact kept_ite (kept_repark (kept_readPlace h)) <|
            kept_answerHost (kept_unpark (kept_readPlace h))
        · exact kept_ite (kept_serve (kept_unpark h1)) (kept_repark h1)

theorem kept_apertureTimeout {m i} (h : Kept s₀ s) : Kept s₀ (apertureTimeout m i s) := by
  unfold apertureTimeout
  split
  · exact h
  · exact kept_ite (kept_answerHost (kept_unpark h)) h

/-! ### A command (R149) -/

/-- A command that waits for POR keeps what its effect keeps. -/
theorem Kept.of_fin {e : State} (h : fin s e = .next t) (he : Kept s e) : Kept s t := by
  unfold fin at h
  split at h
  · cases h
    exact .refl s
  · cases h
    exact kept_settle he

/-- Every command keeps the queue and the canonical form of the memories. -/
theorem kept_exec {c : Instr} (h : exec c s = .next t) : Kept s t := by
  have hs := Kept.refl s
  cases c with
  | por =>
    cases h
    exact kept_porHold hs
  | porRelease =>
    cases h
    exact kept_porFree hs
  | read | windowRead => exact .of_fin h (kept_fromGate kept_readFrame hs)
  | tallyLoRead => exact .of_fin h (kept_fromGate kept_latchHigh hs)
  | write => exact .of_fin h (kept_fromGate kept_writeFrame hs)
  | registerWrite => exact .of_fin h (kept_registerWriteEffect hs)
  | sealedWrite | unknownCommand | commit | reserve | keyPart | keyInstall | keyRetire | keyDecommission =>
    exact .of_fin h (kept_fromGate kept_sealedFrame hs)
  | lockoutEnd => exact .of_fin h (kept_fromGate kept_tick hs)
  | firstKeyInstall => exact .of_fin h (kept_fromGate kept_firstKey hs)
  | openGranary => exact .of_fin h (kept_fromGate kept_openFrame hs)
  | status | ident => exact .of_fin h (kept_fromGate kept_oneWordFrame hs)
  | undefinedOpcode => exact .of_fin h (kept_fromGate kept_undefinedFrame hs)
  | shortFrame => exact .of_fin h (kept_shortFrameEffect hs)
  | stageDataWrite => exact .of_fin h (kept_fromGate kept_stageData hs)
  | stageWinWrite => exact .of_fin h (kept_fromGate kept_stageWin hs)
  | gateReset | watchReset => exact .of_fin h (kept_fromGate kept_writeReset hs)
  | loomTarget | loomReset | gateTenantReset => exact .of_fin h (kept_fromGate (fun hr => kept_writeLoomReq hr) hs)
  | hostTenantReset => exact .of_fin h (kept_hostPosts kept_hostTreset hs)
  | linkOnRequest | linkOff => exact .of_fin h (kept_fromGate (fun hr => kept_writeLinkReq hr) hs)
  | linkPowerUp => exact .of_fin h (kept_powerModule hs)
  | linkRailLoss => exact .of_fin h (kept_railLost hs)
  | supplyAbsent => exact .of_fin h (kept_absentSupply hs)
  | tenantBlock | tenantAbort => exact .of_fin h (kept_fromGate kept_writeSealed hs)
  | blockSampled => exact .of_fin h (kept_sampleBlock hs)
  | aonclkLock => exact .of_fin h (kept_aonLock hs)
  | aonclkLoss => exact .of_fin h (kept_aonLoss hs)
  | watchMemoryCleared => exact .of_fin h (kept_ite (kept_onWc hs) hs)
  | thermAssert => exact .of_fin h (kept_raise hs.same)
  | thermRelease | testLogicReset => exact .of_fin h hs.same
  | vddaMicLoss => exact .of_fin h (kept_ite (kept_micLost (kept_micRail hs)) hs)
  | vddaMicReturn => exact .of_fin h (kept_ite hs (kept_ite (kept_micBack (kept_micRail hs)) (kept_micRail hs)))
  | supplyLost => exact .of_fin h (kept_supplyLoss hs)
  | lsramRunLevel => exact .of_fin h (kept_lsramRun hs)
  | l3ExitStart => exact .of_fin h (kept_startExit hs)
  | exitPhaseEnd => exact .of_fin h (kept_phaseEnd hs)
  | orderingPoint => exact .of_fin h (kept_orderN hs)
  | hostPowerRequest => exact .of_fin h (kept_hostPosts kept_hostPower hs)
  | loomMoveDone => exact .of_fin h (kept_moveDone hs)
  | drainEnd => exact .of_fin h (kept_endDrain hs)
  | extest => exact .of_fin h (kept_foldl (fun hr => kept_boundaryScan hr) (kept_selectInstr hs))
  | samplePreload => exact .of_fin h (kept_boundaryScan (kept_selectInstr hs))
  | clamp | highz => exact .of_fin h (kept_selectInstr hs)
  | bypass => exact .of_fin h (kept_ite (kept_onTap (kept_selectInstr hs)) hs)
  | channelEnable | channelDisable | gainChange | biasedSet | biasEnable | biasDisable | biasVoltChange | biasRangeChange
  | hqPathChange | encoderEnable | encoderSettings | sensorPortEnable | sensorPortDisable => exact .of_fin h (kept_frontWrite hs)
  | sampleTick => exact .of_fin h (kept_sampleTickEffect hs)
  | sensorTransactionEnd => exact .of_fin h (kept_transactionEnd hs)
  | trimRead => exact .of_fin h (kept_ite (kept_readTrims hs) hs)
  | rampEnd => exact .of_fin h (kept_rampDone hs)
  | hdrmChange => exact .of_fin h (kept_hdrmEffect hs)
  | limitChange => exact .of_fin h (kept_limitEffect hs)
  | micbFault => exact .of_fin h (kept_biasFault hs)
  | faultMuteEnd => exact .of_fin h (kept_faultMuteEnd hs)
  | zeroMuteEnd => exact .of_fin h (kept_settleFe hs)
  | hopBoundary => exact .of_fin h (kept_hopEffect hs)
  | arm | disarm | wcMemDataWrite | wcMemWinWrite | bellAck | loftFreeze | loftRelease | watchTallySelect | watchTallyClr =>
    exact .of_fin h (kept_watchmanCommand hs)
  | watchStep => exact .of_fin h (kept_watchStep hs)
  | deliveryCutoff => exact .of_fin h (kept_deliveryCutoff hs)
  | stepEnd => exact .of_fin h (kept_stepEndEffect hs)
  | windowPublish => exact .of_fin h (kept_publishHeld hs)
  | bellAction => exact .of_fin h (kept_bellActionEffect hs)
  | escalationCopyStart => exact .of_fin h (kept_copyStart hs)
  | escalationEntry => exact .of_fin h (kept_escEntry hs)
  | escalationAnswer => exact .of_fin h (kept_escAnswer hs)
  | escalationTimeout => exact .of_fin h (kept_escTimeout hs)
  | draftNew | draftHot | draftCold | draftUnload => exact .of_fin h (kept_draftLoad hs)
  | imageFetch => exact .of_fin h (kept_fetchImage hs)
  | dmaRow => exact .of_fin h (kept_dmaRowEffect hs)
  | tileWalkDone => exact .of_fin h (kept_tileWalked hs)
  | pointChange => exact .of_fin h (kept_hostPosts kept_writePoint hs)
  | relockDone => exact .of_fin h (kept_relockDone hs)
  | stretchClr => exact .of_fin h (kept_hostPosts kept_clearStretch hs)
  | droopTrip => exact .of_fin h (kept_ite (kept_droop hs) hs)
  | stretchedCycle => exact .of_fin h (kept_ite (kept_stretchCycle hs) hs)
  | repeatBoundary => exact .of_fin h (kept_repeatBoundaryEffect hs)
  | slotStart => exact .of_fin h (kept_slotStartEffect hs)
  | passEnd => exact .of_fin h (kept_passEndEffect hs)
  | next => exact .of_fin h (kept_nextEffect hs)
  | loop => exact .of_fin h (kept_loopEffect hs)
  | endloop => exact .of_fin h (kept_endloopEffect hs)
  | wait => exact .of_fin h (kept_waitEffect hs)
  | waitEnd => exact .of_fin h (kept_waitEndEffect hs)
  | halt => exact .of_fin h (kept_haltEffect hs)
  | seta => exact .of_fin h (kept_setaEffect hs)
  | bankRead => exact .of_fin h (kept_bankReadEffect hs)
  | bankWrite => exact .of_fin h (kept_bankWriteEffect hs)
  | meshSend => exact .of_fin h (kept_meshSendEffect hs)
  | meshDelivery => exact .of_fin h (kept_meshDeliveryEffect hs)
  | resultReady => exact .of_fin h (kept_ite (kept_settleOn hs) hs)
  | loadw => exact .of_fin h (kept_loadwEffect hs)
  | swapw => exact .of_fin h (kept_issueMxu (fun hr => kept_modTile hr) hs)
  | mac => exact .of_fin h (kept_macIssue hs)
  | drain => exact .of_fin h (kept_drainIssue hs)
  | corr => exact .of_fin h (kept_corrIssue hs)
  | vecNop => exact .of_fin h (kept_issueOn id hs)
  | ldq | ldw | ldh => exact .of_fin h (kept_vecLoad hs)
  | stq | movi | add | sub | mul | min | max | and | or | xor | shl | shr | cmplt | cmpeq | sel | perm | fma | rsum | rmax =>
    exact .of_fin h (kept_vecOp hs)
  | cvt => exact .of_fin h (kept_cvtIssue hs)
  | exp | rcp | rsq => exact .of_fin h (kept_f32Op hs)
  | quant => exact .of_fin h (kept_quantIssue hs)
  | deq => exact .of_fin h (kept_deqIssue hs)
  | cfg0 => exact .of_fin h (kept_cfg0Issue hs)
  | cfg1 | cfg2 => exact .of_fin h (kept_issueQnt (fun hr => kept_modTile hr) hs)
  | flush => exact .of_fin h (kept_flushIssue hs)
  | stats => exact .of_fin h (kept_statsIssue hs)
  | ldside => exact .of_fin h (kept_ldsideIssue hs)
  | attend | append => exact .of_fin h (kept_engineCmd hs)
  | engineOutput => exact .of_fin h (kept_ite (kept_engineOutput hs) hs)
  | apertureWrite | kvApertureWrite => exact .of_fin h (kept_ite (kept_hostWrite hs) hs)
  | apertureRead | kvApertureRead => exact .of_fin h (kept_ite (kept_hostRead hs) hs)
  | apertureApply => exact .of_fin h (kept_applyWaiting hs)
  | apertureReadTimeout => exact .of_fin h (kept_apertureTimeout hs)
  | weftTrained => exact .of_fin h (kept_trainWeft hs)
  | weftTrainRetry => exact .of_fin h hs
  | weftRetrain => exact .of_fin h (kept_retrainWeft hs)
  | flitReceive => exact .of_fin h (kept_flitEffect hs)
  | readResp => exact .of_fin h (kept_ite (kept_readResponse hs) hs)
  | doorbellTail => exact .of_fin h (kept_hostPosts kept_ringTail hs)
  | doorbellHead => exact .of_fin h (kept_hostPosts kept_ringHead hs)
  | ringEnable | ringDisable => exact .of_fin h (kept_hostPosts kept_writeRingCfg hs)
  | partitionWrite => exact .of_fin h (kept_hostPosts kept_writePart hs)
  | weaveSwap => exact .of_fin h (kept_hostPosts kept_weaveGo hs)
  | weaveCheckDone => exact .of_fin h (kept_ite (kept_weaveChecked hs) hs)
  | submissionFetch => exact .of_fin h (kept_fetchEffect hs)
  | run => exact .of_fin h (kept_answerFront (fun hr => kept_runFront hr) hs)
  | seqOpen => exact .of_fin h (kept_answerFront (fun hr => kept_answerOpen hr) hs)
  | seqClose => exact .of_fin h (kept_answerFront (fun hr => kept_answerClose hr) hs)
  | submitNop => exact .of_fin h (kept_answerFront (fun hr => kept_answerNop hr) hs)
  | recordIssue => exact .of_fin h (kept_recordEffect hs)
  | save | restore => exact .of_fin h (kept_answerFront (fun hr => kept_answerCkpt hr) hs)
  | bobbinNop => exact .of_fin h (kept_answerFront (fun hr => kept_answerBobbinNop hr) hs)
  | bobbinMove => exact .of_fin h (kept_bobbinMoveEffect hs)
  | bobbinWeftWrite => exact .of_fin h (kept_ite (kept_weftWriteEffect hs) hs)
  | restoreCheck => exact .of_fin h (kept_restoreCheckEffect hs)
  | bobbinCtrlWrite => exact .of_fin h (kept_hostPosts kept_writeBobbinCtrl hs)
  | warpTrain => exact .of_fin h (kept_hostPosts kept_writeWarpCtrl hs)
  | warpPhaseEnd => exact .of_fin h (kept_warpPhaseEnd hs)
  | warpTrainRetry => exact .of_fin h (kept_warpRetry hs)
  | warpRetrain => exact .of_fin h (kept_warpRetrainEffect hs)
  | warpFrameSend => exact .of_fin h (kept_sendFrame hs)
  | warpFrameDelivery => exact .of_fin h (kept_frameArrived hs)
  | loomTallySelect => exact .of_fin h (kept_hostPosts kept_writeTallySel hs)
  | loomTallyClr => exact .of_fin h (kept_hostPosts (fun hr => kept_writeTallySel hr) hs)
  | writeReachesWatchman => exact .of_fin h (kept_landWrite hs)
  | grayCountSample => exact .of_fin h (kept_sampleGray hs)
  | ackInterval => exact .of_fin h (kept_sendIdle hs)
  | escCtrlWrite w =>
    refine .of_fin h (kept_fromGate (fun hr => ?_) hs)
    cases w with
    | ctrl | tenant => exact kept_writeSealed hr
  | sensorSettings w =>
    refine .of_fin h ?_
    cases w with
    | ctrl0 | ctrl1 | ctrl2 => exact kept_frontWrite hs

end

/-! ## The memories of every state a step reaches -/

/-- A step runs the next command of the queue, or leaves the state alone. -/
theorem memOk_step {s t : State} (h : step s = .next t) (hs : memOk s = true) : memOk t = true := by
  unfold step at h
  split at h
  · cases h
    exact hs
  · exact (kept_exec h).memOk hs

/-- Settles O4: every operation of a command keeps the canonical form. -/
theorem memoriesStayCanonical : Obligations.MemoriesStayCanonical := by
  unfold Obligations.MemoriesStayCanonical
  intro s t hs h
  exact memOk_step h hs

/-- Settles O5: the memories start empty, and the factory block as the die's notes. -/
theorem resetMemoriesCanonical : Obligations.ResetMemoriesCanonical := by
  unfold Obligations.ResetMemoriesCanonical
  exact (memOk_iff State.reset).2
    ⟨⟨Memory.wf_nil, Memory.wf_nil, Memory.wf_nil⟩, Memory.wf_nil, Memory.wf_nil, by decide⟩

/-! ## Which bank OPEN takes (R127) -/

theorem newer_eq_true_iff (x y : Word) : newer x y = true ↔ 1 ≤ (x - y).toNat ∧ (x - y).toNat ≤ 0x7FFFFFFF := decide_eq_true_iff

/-- The bank R127 takes, by the verdicts and the sequence numbers of a granary. -/
def winner (g : Granary) : GranOpen :=
  if g.verdictA = 0 && g.verdictB = 0 then (if newer g.seqB g.seqA then .openB else .openA)
  else if g.verdictA = 0 then .openA else if g.verdictB = 0 then .openB else .empty

/-- OPEN leaves the verdicts and sequence numbers it chose by. -/
theorem granaryOpen_st (g : Granary) (finds : OpenFinds) : (granaryOpen g finds).1.st = winner (granaryOpen g finds).1 := rfl

section
variable {g : Granary}

theorem winner_of_newer (hA : g.verdictA = 0) (hB : g.verdictB = 0) (h : newer g.seqB g.seqA = true) : winner g = .openB := by
  simp [winner, hA, hB, h]

theorem winner_of_not_newer (hA : g.verdictA = 0) (hB : g.verdictB = 0) (h : ¬ newer g.seqB g.seqA = true) : winner g = .openA := by
  simp [winner, hA, hB, h]

theorem winner_of_bad_B (hA : g.verdictA = 0) (hB : g.verdictB ≠ 0) : winner g = .openA := by
  simp_all [winner]

theorem winner_of_bad_A (hA : g.verdictA ≠ 0) (hB : g.verdictB = 0) : winner g = .openB := by
  simp_all [winner]

theorem winner_of_bad_both (hA : g.verdictA ≠ 0) (hB : g.verdictB ≠ 0) : winner g = .empty := by
  simp_all [winner]

end

/-- Settles O16: OPEN's choice is `winner`, case by case of the two verdicts and the serial comparison. -/
theorem newerImageWins : Obligations.NewerImageWins := by
  unfold Obligations.NewerImageWins
  intro s finds extra hq
  obtain ⟨slots, hload⟩ := loadSlots_frame (granaryOpen s.gran finds).1 s.keys
  refine .of_gate (hears_of_quiet hq) rfl (openFrame_quiet finds extra hq hload) ?_
  have hst : (settle s (granaryOpened s (granaryOpen s.gran finds) slots extra)).gran.st = winner (granaryOpen s.gran finds).1 :=
    granaryOpen_st s.gran finds
  intro g newerB
  refine ⟨fun hA hB h => hst.trans (winner_of_newer hA hB ((newer_eq_true_iff _ _).2 h)),
    fun hA hB h => hst.trans (winner_of_not_newer hA hB (h ∘ (newer_eq_true_iff _ _).1)),
    fun hA hB => hst.trans (winner_of_bad_B hA hB), fun hA hB => hst.trans (winner_of_bad_A hA hB),
    fun hA hB => hst.trans (winner_of_bad_both hA hB)⟩

end Sys2Proof.Machine

end

