-- ==== Sys2Proof/Proofs/StartupShutdown.lean ====
section
/-!
PROOF. Startup and shutdown: the sticky ready bits (R148, R149), a LOOM reset's drain (R156, R159), AONCLK and the watchman's monitors
(R148, R165, R192, R498), and the bell and the loft (R210, R211, R217, R224, R412).
-/

namespace Sys2Proof.Machine

/-! ## The ready bits (R148, R149) -/

/-- The sticky bits are no condition of a ready bit. -/
theorem ready_settle (s e : State) : ready (settle s e) = ready e := rfl

/-- A ready bit that the effect of a command raises is seen (R149). -/
theorem settle_seen_of_rises {s e : State} {i : Nat} (hi : i < 20) (hup : (ready e).getLsbD i = true)
    (hdown : (ready s).getLsbD i = false) : (settle s e).seen.getLsbD i = true := by
  have hseen : (settle s e).seen = e.seen ||| (ready e &&& ~~~ (ready s)) := rfl
  rw [hseen, BitVec.getLsbD_or, BitVec.getLsbD_and, BitVec.getLsbD_not, hup, hdown, decide_eq_true hi]
  exact Bool.or_true _

/-- The release of POR does nothing to a device that POR does not hold (R46). -/
theorem porFree_live {s : State} (rails : Rails) (straps : BitVec 3) (h : Live s) : porFree rails straps s = s := if_neg (by simp [h])

/-- While POR does not hold, a command other than POR settles its effect, or is POR's release, which does nothing then. -/
theorem next_settled_or_same {c : Instr} {s t : State} (hlive : Live s) (hpor : c ≠ .por) (h : exec c s = .next t) :
    (∃ e, t = settle s e) ∨ t = s := by
  by_cases hrelease : ∃ rails straps, c = .porRelease rails straps
  · obtain ⟨rails, straps, rfl⟩ := hrelease
    rw [exec_porRelease, porFree_live rails straps hlive] at h
    exact .inr (Host.Outcome.next.inj h).symm
  · obtain ⟨e, he⟩ := exec_eq_fin s hpor (fun rails straps hc => hrelease ⟨rails, straps, hc⟩)
    rw [he, fin_live e hlive] at h
    exact .inl ⟨e, (Host.Outcome.next.inj h).symm⟩

/-- Settles O6: every effect is settled, and where nothing is settled no ready bit rises. -/
theorem risingReadyBitsAreSeen : Obligations.RisingReadyBitsAreSeen := by
  unfold Obligations.RisingReadyBitsAreSeen
  intro c s t hlive hpor h i hi hup hdown
  obtain ⟨e, rfl⟩ | rfl := next_settled_or_same hlive hpor h
  · exact settle_seen_of_rises hi (ready_settle s e ▸ hup) hdown
  · rw [hup] at hdown
    exact absurd hdown (by decide)

/-! ## A LOOM reset's drain (R156, R159, R410) -/

/-- A LOOM reset drains the loom at L1, no job is admitted, and the admission stage holds an escalation's entry that it has not answered. -/
def drainingEscalation : State :=
  { State.reset with
    pwr := { Power.reset with st := .l1, stage := .drain true, target := .l1, drained := true, reqReset := true }
    esc := { Escalation.reset with st := .waitFetch, fetched := true }
    loom := { Loom.reset with fetched := [{ ring := 0, index := 0xFFFFFFFF, bytes := [], esc := true, order := 0, lc := 0 }] } }

/-- The end of the drain answers the entry, which leaves the admission stage (R410). -/
theorem endDrain_answersEscalation : (endDrain drainingEscalation).loom.fetched = [] := rfl

/-- Refutes O21: a LOOM reset's drain that ends at L1 with no job admitted still changes more than the power control and the straps, for
an escalation's entry that waits there is answered first and leaves the admission stage. -/
theorem not_loomResetAndDrain : ¬ Obligations.LoomResetAndDrain := by
  unfold Obligations.LoomResetAndDrain
  rintro ⟨_, hdrain, _⟩
  obtain ⟨t, hexec, hsame⟩ := hdrain drainingEscalation rfl rfl rfl rfl rfl
  have ht : settle drainingEscalation (endDrain drainingEscalation) = t :=
    Host.Outcome.next.inj ((next_of_fin (c := .drainEnd) _ rfl rfl).symm.trans hexec)
  have hfetched : t.loom.fetched = [] := ht ▸ endDrain_answersEscalation
  rw [hsame] at hfetched
  exact absurd hfetched (List.cons_ne_nil _ _)

/-! ## AONCLK (R148, R165, R442, R498) -/

theorem aonLock_stopped {s : State} (h : s.wc.aonclk = false) : aonLock s = watchReset { s with wc := { s.wc with aonclk := true } } :=
  if_neg (by simp [h])

theorem aonLoss_running {s : State} (h : s.wc.aonclk = true) : aonLoss s = watchReset { s with wc := { s.wc with aonclk := false } } :=
  if_pos h

/-- A WATCH reset under AONCLK puts the front end at its reset values and starts the hop grid (R498). -/
theorem watchReset_running {s : State} (h : s.wc.aonclk = true) : ∃ f, watchReset s = watchCleared f s
    ∧ f.gridOn = true ∧ f.hopNext = s.clocks.wclk + Config.hopClocks ∧ f.hopCount = 0 := by
  unfold watchReset
  rw [if_pos h]
  exact ⟨_, rfl, rfl, rfl, rfl⟩

/-- Without AONCLK a WATCH reset leaves the hop grid stopped (R165). -/
theorem watchReset_stopped {s : State} (h : s.wc.aonclk = false) : watchReset s = watchCleared .reset s := by
  unfold watchReset
  rw [if_neg (by simp [h])]
  rfl

/-- Settles O25: the lock and the loss of AONCLK are WATCH resets; the rest touches one field. -/
theorem watchmanMonitors : Obligations.WatchmanMonitors := by
  unfold Obligations.WatchmanMonitors
  refine ⟨?_, ?_, ?_, ?_, ?_⟩
  · intro s hlive hclk
    obtain ⟨f, hreset, hgrid, hnext, hcount⟩ := watchReset_running (s := { s with wc := { s.wc with aonclk := true } }) rfl
    exact .of_fin hlive (congrArg (fin s) ((aonLock_stopped hclk).trans hreset)) ⟨rfl, hgrid, hnext, hcount, rfl, rfl, rfl⟩
  · intro s hlive hclk
    have hreset := watchReset_stopped (s := { s with wc := { s.wc with aonclk := false } }) rfl
    exact .of_fin hlive (congrArg (fin s) ((aonLoss_running hclk).trans hreset)) ⟨rfl, rfl, rfl, rfl, rfl, rfl⟩
  · intro s ⟨hlive, hclk⟩
    exact .of_fin hlive (congrArg (fin s) (if_pos hclk)) rfl
  · intro s hlive
    exact .of_fin hlive rfl rfl
  · intro s hlive
    exact .of_fin hlive rfl rfl

/-! ## The bell action (R210, R211) -/

theorem firingFreeze_frame (f : Firing) (s : State) : ∃ l, firingFreeze f s = { s with loft := l } := by
  unfold firingFreeze
  split
  · exact ⟨_, rfl⟩
  · split <;> exact ⟨_, rfl⟩

theorem settleFreeze_frame (s : State) : ∃ l, settleFreeze s = { s with loft := l } := by
  unfold settleFreeze
  split
  · exact ⟨s.loft, rfl⟩
  · split
    · exact ⟨s.loft, rfl⟩
    · obtain ⟨l, h⟩ := firingFreeze_frame _ (onLoft (fun l => { l with autoReq := none }) s)
      exact ⟨l, h⟩

/-- A firing's freeze does not look at the bell. -/
theorem firingFreeze_onBell (f : Firing) (g : Bell → Bell) (s : State) :
    (firingFreeze f (onBell g s)).loft = (firingFreeze f s).loft := by
  unfold firingFreeze
  rw [onBell_loft]
  split
  · rfl
  · split <;> rfl

/-- Neither does an automatic freeze that waits for its point (R217). -/
theorem settleFreeze_onBell (g : Bell → Bell) (s : State) : (settleFreeze (onBell g s)).loft = (settleFreeze s).loft := by
  unfold settleFreeze
  rw [onBell_loft]
  split
  · rfl
  · rw [onBell_clocks]
    split
    · rfl
    · exact firingFreeze_onBell _ g (onLoft (fun l => { l with autoReq := none }) s)

/-- The bell once the oldest firing has acted: its cause and BELL_N, with the firing among those of its clock (R210, R211). -/
def bellActed (f : Firing) (s : State) : Bell :=
  { bellCause s.bell f with
    acted := if s.bell.actedAt = s.clocks.wclk then s.bell.acted ++ [f] else [f], actedAt := s.clocks.wclk }

theorem watchTally_onlyTally (src n : Nat) (s : State) : ∃ w, watchTally src n s = { s with wtally := w } := by
  obtain ⟨c, clk, evs, was, b, h⟩ := watchTally_frame s src n
  exact ⟨_, h⟩

/-- The ring that a bell action counts, of a firing whose rules ring while BELL_N is high (R211). -/
def newRing (f : Firing) (s : State) : Nat := if decide (f.rules &&& f.ring ≠ 0) && !s.bell.bellN then 1 else 0

/-- With no escalation enabled, a bell action brings a due freeze, the bell and its tally, and wakes the loom where its rules ask for
it (R160, R211). -/
theorem takeBellAction_unescalated {s : State} (f : Firing) (hen : s.esc.en = false) : ∃ w, takeBellAction f s =
    (if decide (f.rules &&& f.loom ≠ 0) && decide (s.pwr.target ≠ .l3) then onPwr (fun p => { p with bellWake := true }) else id)
      { s with bell := bellActed f s, wtally := w, loft := (settleFreeze s).loft } := by
  obtain ⟨l, hfreeze⟩ := settleFreeze_frame s
  obtain ⟨w, htally⟩ := watchTally_onlyTally 0x05 (newRing f s) { s with loft := l, bell := bellActed f s }
  refine ⟨w, ?_⟩
  unfold takeBellAction
  rw [hfreeze]
  dsimp only
  rw [hen, if_neg Bool.false_ne_true, if_pos rfl, apply_ite (fun g : State → State => g _), id_eq]
  have hacted : watchTally 0x05 (newRing f s) (onBell (fun _ => bellActed f s) { s with loft := l }) = _ := htally
  exact hacted ▸ rfl

/-- The oldest firing acts once its step has ended and its freeze point has passed (R211). -/
theorem bellActionEffect_due {s : State} {f : Firing} {fs : List Firing} (hf : s.bell.firings = f :: fs)
    (hdue : max f.nominal f.ended ≤ s.clocks.wclk) :
    bellActionEffect s = takeBellAction f (onBell (fun b => { b with firings := fs }) s) := by
  unfold bellActionEffect
  rw [hf]
  exact if_neg (by omega)

/-! ## Words of the watchman (R80, R211, R225) -/

/-- A command's own word of the watch rooms, as the watchman takes it (R80). -/
theorem watchmanCommand_running {s : State} {a : Nat} (d : Word) (hw : WatchHears s) (ha : 0x180 ≤ a) :
    watchmanCommand a d s = writeWatchReg a d .unsealed s.clocks.wclk s := by
  obtain ⟨⟨_, hclk⟩, hpins⟩ := hw
  unfold watchmanCommand
  rw [fromGate_hears _ hpins]
  exact watchmanWrite_running _ _ _ hclk ha

theorem writeWatchReg_bellAck (via : Via) (at_ : Nat) (s : State) : writeWatchReg 0x20A 1 via at_ s = bellAckEffect s := rfl

theorem writeWatchReg_loftCtrl (d : Word) (via : Via) (at_ : Nat) (s : State) :
    writeWatchReg 0x214 d via at_ s = writeLoftCtrl d at_ s := rfl

/-- An acknowledgement in a clock without a firing clears the cause (R211). -/
theorem bellAckEffect_quiet {s : State} (h : s.bell.actedAt ≠ s.clocks.wclk) : bellAckEffect s = { s with bell := { s.bell with
    bellN := false, causeRules := 0, causeFirst := 0, causeReplay := false, causeSust := false, causeStep := 0, acted := [] } } := by
  exact congrArg (fun b => { s with bell := b }) (if_neg h)

/-- One in the clock of firings leaves these (R79, R224). -/
theorem bellAckEffect_acted {s : State} (h : s.bell.actedAt = s.clocks.wclk) : bellAckEffect s = { s with
    bell := s.bell.acted.foldl bellCause { s.bell with
      bellN := false, causeRules := 0, causeFirst := 0, causeReplay := false, causeSust := false, causeStep := 0 } } := by
  exact congrArg (fun b => { s with bell := b }) (if_pos h)

/-! ## The loft's control (R217, R224, R225, R412) -/

/-- G_LOFT_CTRL with FREEZE or RELEASE holds the fields that stand beside these. -/
theorem loftWordWith_fields (l : Loft) (freeze release : Bool) :
    let n := (loftWordWith l freeze release).toNat
    bitOf n 0 = l.ch ∧ bitOf n 1 = l.auto ∧ bitOf n 2 = freeze ∧ bitOf n 3 = release ∧ bitOf n 5 = false := by
  unfold loftWordWith
  generalize l.ch = ch
  generalize l.auto = auto
  revert ch auto freeze release
  decide

/-- A write of FREEZE or RELEASE beside the present fields asks for these alone. -/
theorem writeLoftCtrl_loftWord (freeze release : Bool) (at_ : Nat) (s : State) :
    writeLoftCtrl (loftWordWith s.loft freeze release) at_ s =
      (if freeze then requestFreeze at_ else id) ((if release then requestRelease else id) s) := by
  obtain ⟨hch, hauto, hfreeze, hrelease, hmissed⟩ := loftWordWith_fields s.loft freeze release
  have hkept : onLoft (fun l => { l with
      ch := if feEnabled s.fe 0 || feEnabled s.fe 1 then l.ch else s.loft.ch, auto := s.loft.auto, missed := l.missed && !false
      feRun := if feEnabled s.fe 0 || feEnabled s.fe 1 || l.ch == s.loft.ch then l.feRun else 0 }) s = s := by
    simp [onLoft]
  unfold writeLoftCtrl
  dsimp only
  rw [hch, hauto, hfreeze, hrelease, hmissed, hkept]
  cases freeze <;> cases release <;> rfl

/-- LOFT_FREEZE asks for a manual freeze (R217). -/
theorem exec_loftFreeze {s : State} (hw : WatchHears s) : exec .loftFreeze s = fin s (requestFreeze s.clocks.wclk s) :=
  congrArg (fin s) ((watchmanCommand_running _ hw (by decide)).trans (writeLoftCtrl_loftWord true false _ s))

/-- LOFT_RELEASE asks for a release (R217). -/
theorem exec_loftRelease {s : State} (hw : WatchHears s) : exec .loftRelease s = fin s (requestRelease s) :=
  congrArg (fin s) ((watchmanCommand_running _ hw (by decide)).trans (writeLoftCtrl_loftWord false true _ s))

theorem requestFreeze_free {s : State} (at_ : Nat) (h : s.loft.frozen = none) :
    requestFreeze at_ s = { s with loft := { s.loft with request := some (s.loft.request.getD (at_ + 13)) } } :=
  if_neg (by simp [h])

theorem requestFreeze_frozen {s : State} {f : Frozen} (at_ : Nat) (h : s.loft.frozen = some f) :
    requestFreeze at_ s = { s with loft := { s.loft with missed := true } } := if_pos (by simp [h])

section requestRelease
variable {s : State}

/-- Under the escalation's hold a release is owed (R412). -/
theorem requestRelease_held (h : s.loft.hold = true) : requestRelease s = { s with loft := { s.loft with releaseOwed := true } } :=
  if_pos h

/-- A half that is frozen in the clock of the release stays (R224). -/
theorem requestRelease_fresh {h : Frozen} (hhold : s.loft.hold = false) (hfrozen : s.loft.frozen = some h)
    (hpoint : h.point = s.clocks.wclk) : requestRelease s = s := by
  unfold requestRelease
  simp [hhold, hfrozen, hpoint]

/-- A release with no freeze of its own clock frees the half (R217). -/
theorem requestRelease_frees (hhold : s.loft.hold = false) (hfrozen : s.loft.frozen.all (fun h => h.point != s.clocks.wclk) = true)
    (hdenied : s.loft.denied.all (fun d => d.clk != s.clocks.wclk) = true) : requestRelease s = releaseHalf s := by
  have hfresh : s.loft.frozen.any (fun h => h.point == s.clocks.wclk) = false := by
    cases hf : s.loft.frozen with
    | none => rfl
    | some h => simpa [hf] using hfrozen
  have hnone : s.loft.denied.filter (fun d => d.clk == s.clocks.wclk && (d.manual || d.auto.isSome)) = none := by
    cases hd : s.loft.denied with
    | none => rfl
    | some d =>
      rw [hd] at hdenied
      have : d.clk ≠ s.clocks.wclk := by simpa using hdenied
      simp [Option.filter, this]
  unfold requestRelease
  simp only [hhold, hfresh, hnone, Bool.false_eq_true, if_false]

/-- The freezes that an older half denied in the clock of its release take place (R224). -/
theorem requestRelease_redoes {h : Frozen} {d : Denied} (hhold : s.loft.hold = false) (hfrozen : s.loft.frozen = some h)
    (hpoint : h.point ≠ s.clocks.wclk) (hdenied : s.loft.denied = some d) (hclk : d.clk = s.clocks.wclk)
    (hkind : (d.manual || d.auto.isSome) = true) : requestRelease s = redoFreezes d (releaseHalf s) := by
  unfold requestRelease
  simp [hhold, hfrozen, hpoint, hdenied, hclk, hkind, Option.filter]

end requestRelease

/-- With nothing frozen a manual freeze takes place at once (R217). -/
theorem manualPoint_free {s : State} (h : s.loft.frozen = none) : manualPoint s = takeManual s := by
  unfold manualPoint
  rw [h]

/-- With nothing frozen a firing's freeze takes place at its point (R217). -/
theorem firingFreeze_free {s : State} (f : Firing) (h : s.loft.frozen = none) : firingFreeze f s =
    freezeAt f.nominal f.fstep (BitVec.ofNat 32 f.fwin) f.rules false (some f.ended) s := by
  unfold firingFreeze
  rw [h]

/-- The loft as a freeze that is redone finds it: free, with MISSED as before the denial. -/
def releasedBefore (d : Denied) (s : State) : State := onLoft (fun l => { l with missed := d.missed, denied := none }) (releaseHalf s)

theorem redoFreezes_manual {d : Denied} (s : State) (hmanual : d.manual = true) (hauto : d.auto = none) :
    redoFreezes d (releaseHalf s) = takeManual (releasedBefore d s) := by
  unfold redoFreezes
  rw [hmanual, hauto]
  exact manualPoint_free (s := releasedBefore d s) rfl

theorem redoFreezes_auto {d : Denied} {f : Firing} (s : State) (hmanual : d.manual = false) (hauto : d.auto = some f) :
    redoFreezes d (releaseHalf s) =
      freezeAt f.nominal f.fstep (BitVec.ofNat 32 f.fwin) f.rules false (some f.ended) (releasedBefore d s) := by
  unfold redoFreezes
  rw [hmanual, hauto]
  exact firingFreeze_free (s := releasedBefore d s) f rfl

/-- Settles O38: the bell action by its frame, the acknowledgement by its clock, and freeze and release by what is frozen. -/
theorem bellAndLoft : Obligations.BellAndLoft := by
  unfold Obligations.BellAndLoft
  refine ⟨?_, ?_, ?_, ?_, ?_, ?_, ?_, ?_, ?_, ?_, ?_⟩
  · intro s f fs hlive hf hdue hen hloom
    obtain ⟨w, hact⟩ := takeBellAction_unescalated (s := onBell (fun b => { b with firings := fs }) s) f hen
    rw [hloom, settleFreeze_onBell] at hact
    refine .of_fin hlive (congrArg (fin s) ((bellActionEffect_due hf hdue).trans hact)) ⟨rfl, rfl, ?_, fun h => if_pos h, rfl⟩
    exact congrArg (s.bell.bellN || ·) decide_not
  · intro s f fs hlive hf hdue hen hloom htarget
    obtain ⟨w, hact⟩ := takeBellAction_unescalated (s := onBell (fun b => { b with firings := fs }) s) f hen
    have hwakes : (decide (f.rules &&& f.loom ≠ 0) && decide (s.pwr.target ≠ .l3)) = true := by
      rw [decide_eq_true hloom, decide_eq_true htarget]; rfl
    rw [onBell_pwr, hwakes, if_pos rfl] at hact
    exact .of_fin hlive (congrArg (fin s) ((bellActionEffect_due hf hdue).trans hact)) ⟨rfl, rfl⟩
  · intro s hw hclk
    exact .of_fin hw.1.1 (congrArg (fin s) ((watchmanCommand_running 1 hw (by decide)).trans (bellAckEffect_quiet hclk))) rfl
  · intro s hw hclk
    exact .of_fin hw.1.1 (congrArg (fin s) ((watchmanCommand_running 1 hw (by decide)).trans (bellAckEffect_acted hclk))) rfl
  · intro s hw hfrozen
    exact .of_fin hw.1.1 ((exec_loftFreeze hw).trans (congrArg (fin s) (requestFreeze_free _ hfrozen))) rfl
  · intro s f hw hfrozen
    exact .of_fin hw.1.1 ((exec_loftFreeze hw).trans (congrArg (fin s) (requestFreeze_frozen _ hfrozen))) rfl
  · intro s hw hhold hfrozen hdenied
    exact .of_fin hw.1.1 ((exec_loftRelease hw).trans (congrArg (fin s) (requestRelease_frees hhold hfrozen hdenied))) rfl
  · intro s h hw hhold hfrozen hpoint
    exact .of_fin hw.1.1 ((exec_loftRelease hw).trans (congrArg (fin s) (requestRelease_fresh hhold hfrozen hpoint))) rfl
  · intro s h d hw hhold hfrozen hpoint hdenied hclk hmanual hauto
    have hredo := (requestRelease_redoes hhold hfrozen hpoint hdenied hclk (by simp [hmanual])).trans (redoFreezes_manual s hmanual hauto)
    exact .of_fin hw.1.1 ((exec_loftRelease hw).trans (congrArg (fin s) hredo)) ⟨rfl, rfl, rfl⟩
  · intro s h d f hw hhold hfrozen hpoint hdenied hclk hmanual hauto
    have hredo := (requestRelease_redoes hhold hfrozen hpoint hdenied hclk (by simp [hauto])).trans (redoFreezes_auto s hmanual hauto)
    exact .of_fin hw.1.1 ((exec_loftRelease hw).trans (congrArg (fin s) hredo)) ⟨rfl, rfl, rfl⟩
  · intro s hw hhold
    exact .of_fin hw.1.1 ((exec_loftRelease hw).trans (congrArg (fin s) (requestRelease_held hhold))) rfl

end Sys2Proof.Machine
end

