-- ==== Sys2Proof/Proofs/WeftLink.lean ====
section
/-!
PROOF. The weft link: training, retrains, flits, NAKs and acknowledgements of one module (R333 to R339), responses to the loom's own reads
(R340, R367), and register writes from the host (R159, R334).
-/

namespace Sys2Proof.Machine

/-! ## Bytes of a number, and fields of an image (R7) -/

theorem length_toLe (n v : Nat) : (toLe n v).length = n := by
  induction n generalizing v with
  | zero => rfl
  | succ n ih => exact congrArg (· + 1) (ih _)

theorem ofLe_toLe (n v : Nat) : ofLe (toLe n v) = v % 256 ^ n := by
  induction n generalizing v with
  | zero => rw [pow_zero, Nat.mod_one]; rfl
  | succ n ih =>
    have hrest : ofLe (toLe (n + 1) v) = v % 256 + 256 * ofLe (toLe n (v >>> 8)) := by simp [toLe, ofLe]
    rw [hrest, ih, Nat.shiftRight_eq_div_pow, pow_succ' 256 n, Nat.mod_mul]

/-- A slice that lies between two parts of an image. -/
theorem slice_append_append (xs ys zs : List Byte) : slice (xs ++ ys ++ zs) xs.length ys.length = ys := by
  simp [slice]

/-- A number that is laid into an image reads back. -/
theorem leAt_toLe (xs zs : List Byte) {off n v : Nat} (hoff : xs.length = off) (hv : v < 256 ^ n) :
    leAt (xs ++ toLe n v ++ zs) off n = v := by
  have hslice := slice_append_append xs (toLe n v) zs
  rw [length_toLe, hoff] at hslice
  rw [leAt, hslice, ofLe_toLe, Nat.mod_eq_of_lt hv]

theorem crc64Bit_lt (c : Nat) : crc64Bit c < 2 ^ 64 :=
  Nat.xor_lt_two_pow (Nat.mod_lt _ (by decide)) (by split <;> decide)

theorem crc64_lt (bs : List Byte) : crc64 bs < 2 ^ 64 := by
  have hfold : bs.foldl crc64Byte (2 ^ 64 - 1) < 2 ^ 64 := by
    generalize hc : 2 ^ 64 - 1 = c
    have hlt : c < 2 ^ 64 := by omega
    clear hc
    induction bs generalizing c with
    | nil => exact hlt
    | cons b bs ih => exact ih _ (crc64Bit_lt _)
  exact Nat.xor_lt_two_pow hfold (by decide)

/-! ## An idle flit (R334, R335, R337) -/

/-- The transaction of an idle flit. -/
def idleTxn : DevTxn := { kind := .idle, addr := 0, data := [], len := 0, tag := 0, tenant := 0, what := .nothing }

section outFlit
variable (seq ackSeq : BitVec 12) (ack : BitVec 2) (crp crn : Nat)

/-- The link header of an idle flit (R334). -/
def idleLink : Nat := seq.toNat + 2 ^ 12 * ackSeq.toNat + 2 ^ 24 * ack.toNat + 2 ^ 28 * crp + 2 ^ 36 * crn

theorem outFlit_idle : ∃ head, head.length = 48 ∧ outFlit seq ackSeq ack crp crn idleTxn =
    toLe 8 (idleLink seq ackSeq ack crp crn) ++ head
      ++ toLe 8 (crc64 (toLe 8 (idleLink seq ackSeq ack crp crn) ++ head ++ List.replicate 192 0)) ++ List.replicate 192 0 := by
  refine ⟨List.replicate 16 0 ++ List.replicate 32 0, by simp, ?_⟩
  simp [outFlit, idleTxn, idleLink, flagBit, slice]

theorem flitIntact_idle : flitIntact (outFlit seq ackSeq ack crp crn idleTxn) = true := by
  obtain ⟨head, hlen, hflit⟩ := outFlit_idle seq ackSeq ack crp crn
  have hhead : (toLe 8 (idleLink seq ackSeq ack crp crn) ++ head).length = 56 := by simp [length_toLe, hlen]
  rw [hflit]
  generalize toLe 8 (idleLink seq ackSeq ack crp crn) ++ head = h at hhead
  generalize hcrc : crc64 (h ++ List.replicate 192 0) = c
  have hlt : c < 256 ^ 8 := hcrc ▸ crc64_lt _
  have htake : (h ++ toLe 8 c ++ List.replicate 192 0).take 56 = h := by
    rw [List.append_assoc, ← hhead, List.take_left]
  have hdrop : (h ++ toLe 8 c ++ List.replicate 192 0).drop 64 = List.replicate 192 0 :=
    List.drop_left' (by rw [List.length_append, hhead, length_toLe])
  unfold flitIntact
  rw [leAt_toLe _ _ hhead hlt, htake, hdrop, hcrc, beq_self_eq_true, Bool.and_true]
  rw [beq_iff_eq, List.length_append, List.length_append, hhead, length_toLe, List.length_replicate]

variable {crp crn}

/-- An idle flit's link header reads back. -/
theorem leAt_idle (hcrp : crp ≤ 255) (hcrn : crn ≤ 255) :
    leAt (outFlit seq ackSeq ack crp crn idleTxn) 0 8 = idleLink seq ackSeq ack crp crn := by
  have hseq := seq.isLt
  have hackSeq := ackSeq.isLt
  have hack := ack.isLt
  obtain ⟨head, _, hflit⟩ := outFlit_idle seq ackSeq ack crp crn
  rw [hflit, List.append_assoc, List.append_assoc]
  exact leAt_toLe [] _ rfl (by unfold idleLink; omega)

/-- What the host reads of an idle flit: intact, with its numbers, its ACK, no transaction and its credits. -/
theorem idleFlit_fields (hcrp : crp ≤ 255) (hcrn : crn ≤ 255) : let b := outFlit seq ackSeq ack crp crn idleTxn
    flitIntact b = true ∧ flitSeq b = seq ∧ flitAckSeq b = ackSeq ∧ flitAck b = ack.toNat ∧ flitTxns b = 0
      ∧ leAt b 0 8 / 2 ^ 28 % 256 = crp ∧ leAt b 0 8 / 2 ^ 36 % 256 = crn := by
  have hseq := seq.isLt
  have hackSeq := ackSeq.isLt
  have hack := ack.isLt
  have hfield : ∀ {w : Nat} {x : BitVec w} {n : Nat}, n = x.toNat → BitVec.ofNat w n = x := fun h => by rw [h, BitVec.ofNat_toNat, BitVec.setWidth_eq]
  refine ⟨flitIntact_idle .., hfield ?_, hfield ?_, ?_, ?_, ?_, ?_⟩
  all_goals
    simp only [flitAck, flitTxns, field_eq, leAt_idle seq ackSeq ack hcrp hcrn, idleLink]
    omega

end outFlit

/-! ## The weft table -/

/-- The states differ at most in the form of the weft table. -/
def SameWeft (s t : State) : Prop := t = { s with weft := t.weft } ∧ ∀ k, weftOf t k = weftOf s k

namespace SameWeft
variable {s t u : State}

theorem refl (s : State) : SameWeft s s := ⟨rfl, fun _ => rfl⟩

theorem trans (h : SameWeft s t) (h' : SameWeft t u) : SameWeft s u := by
  obtain ⟨heq, hof⟩ := h
  obtain ⟨heq', hof'⟩ := h'
  refine ⟨?_, fun k => (hof' k).trans (hof k)⟩
  rw [heq] at heq'
  exact heq'

/-- Putting back what is read changes no module. -/
theorem put_self {m : Nat} {v : WeftModule} (h : v = weftOf s m) : SameWeft s (putWeft m v s) := by
  refine ⟨rfl, fun k => ?_⟩
  by_cases hk : m = k
  · rw [← hk, weftOf_putWeft_same, h]
  · exact weftOf_putWeft_other _ _ _ _ hk

theorem put (m : Nat) (v : WeftModule) (h : SameWeft s t) : SameWeft (putWeft m v s) (putWeft m v t) := by
  obtain ⟨heq, hof⟩ := h
  refine ⟨congrArg (fun x : State => { x with weft := sput .init t.weft m v }) heq, fun k => ?_⟩
  by_cases hk : m = k
  · rw [← hk, weftOf_putWeft_same, weftOf_putWeft_same]
  · rw [weftOf_putWeft_other _ _ _ _ hk, weftOf_putWeft_other _ _ _ _ hk, hof]

/-- Of two writes of one module the second counts. -/
theorem put_put (m : Nat) (v v' : WeftModule) : SameWeft (putWeft m v s) (putWeft m v (putWeft m v' s)) := by
  refine ⟨rfl, fun k => ?_⟩
  by_cases hk : m = k
  · rw [← hk, weftOf_putWeft_same, weftOf_putWeft_same]
  · rw [weftOf_putWeft_other _ _ _ _ hk, weftOf_putWeft_other _ _ _ _ hk, weftOf_putWeft_other _ _ _ _ hk]

end SameWeft

theorem otherModule_ne (m : BitVec 1) : m.toNat ≠ 1 - m.toNat := by
  have hm := m.isLt
  omega

/-- A command that puts one module and settles. -/
theorem SameWeft.onlyWeft {s e : State} {m : BitVec 1} {y : WeftModule} (h : SameWeft (putWeft m.toNat y s) e) :
    OnlyWeft s (settle s e) m.toNat y := by
  obtain ⟨heq, hof⟩ := h
  refine ⟨(hof _).trans (weftOf_putWeft_same _ _ _), (hof _).trans (weftOf_putWeft_other _ _ _ _ (otherModule_ne m)), ?_⟩
  exact congrArg (fun x : State => { x with seen := (settle s e).seen }) heq

theorem SameWeft.table {s t : State} {m : Nat} {v : WeftModule} (h : SameWeft (putWeft m v s) t) :
    ∃ w, t = { s with weft := w } ∧ sget .init w m = v := by
  obtain ⟨heq, hof⟩ := h
  exact ⟨t.weft, heq, (hof m).trans (weftOf_putWeft_same _ _ _)⟩

/-! ## Sending (R335, R337) -/

/-- A module with nothing queued sends nothing. -/
theorem pump_nothing {s : State} {m : Nat} (hresent : (weftOf s m).resent = []) (htxq : (weftOf s m).txq = []) : pump m s = s := by
  unfold pump
  rw [hresent, htxq]
  rfl

/-- An idle flit leaves a trained module while the replay buffer has room (R335). -/
theorem sendIdle_room {s : State} {m : Nat} (ack : BitVec 2) (htrained : (weftOf s m).trained = true)
    (hroom : (weftOf s m).replay.length < 128) : sendIdle m ack s = putWeft m (sentIdle (weftOf s m) ack) s := by
  have hmay : maySend s m idleTxn = true := by simp [maySend, htrained, hroom, idleTxn, isOwnTxn]
  exact if_pos hmay

/-- What the host reads of the idle flit that a module has sent. -/
theorem sentIdle_flit (w : WeftModule) (ack : BitVec 2) :
    ∃ b, (sentIdle w ack).flits.getLast? = some (w.txSeq, b) ∧ flitIntact b = true ∧ flitSeq b = w.txSeq ∧ flitAckSeq b = w.rxSeq
      ∧ flitAck b = ack.toNat ∧ flitTxns b = 0 ∧ leAt b 0 8 / 2 ^ 28 % 256 = min w.oweP 255
      ∧ leAt b 0 8 / 2 ^ 36 % 256 = min w.oweN 255 :=
  ⟨_, List.getLast?_concat, idleFlit_fields _ _ _ (Nat.min_le_right _ _) (Nat.min_le_right _ _)⟩

/-! ## Training and retraining (R333, R336) -/

/-- Reads that a change of their modules leaves as they are. -/
theorem onLoom_sameReads {s : State} {g : DevRead → DevRead} (h : s.loom.reads.map g = s.loom.reads) :
    onLoom (fun l => { l with reads := l.reads.map g }) s = s :=
  congrArg (fun rs => { s with loom := { s.loom with reads := rs } }) h

/-- A module with nothing queued is as it is without its queues. -/
theorem withoutQueues {w : WeftModule} (hresent : w.resent = []) (htxq : w.txq = []) : { w with resent := [], txq := [] } = w := by
  cases w
  cases hresent
  cases htxq
  rfl

/-- A module that trains while nothing waits on the other one takes nothing over (R338). -/
theorem takeOver_nothing {s : State} {m : Nat} (hresent : (weftOf s (1 - m)).resent = []) (htxq : (weftOf s (1 - m)).txq = []) :
    SameWeft s (takeOver m s) := by
  have hmine : SameWeft s (putWeft m (weftOf s m) s) := .put_self rfl
  have hother : SameWeft s (putWeft (1 - m) { weftOf s (1 - m) with resent := [], txq := [] } (putWeft m (weftOf s m) s)) :=
    hmine.trans (.put_self ((withoutQueues hresent htxq).trans (hmine.2 _).symm))
  unfold takeOver
  simp only [hresent, htxq, List.append_nil, List.filter_nil, List.map_nil, List.nil_append]
  rw [onLoom_sameReads (by simp)]
  exact hother

/-- Training gives a module its rate and its credits; with nothing queued it sends nothing (R333, R337). -/
theorem trainWeft_idle {s : State} {m : BitVec 1} (rate : BitVec 2) (rev : Bool) (p n : Nat) (hpower : isPowered s m.toNat = true)
    (huntrained : (weftOf s m.toNat).trained = false) (hqueues : ∀ k < 2, (weftOf s k).resent = [] ∧ (weftOf s k).txq = []) :
    SameWeft (putWeft m.toNat { weftOf s m.toNat with
      trained := true, rate := rate, reversed := rev, hostPosted := p, hostNonposted := n } s) (trainWeft m.toNat rate rev p n s) := by
  obtain ⟨hresent, htxq⟩ := hqueues m.toNat m.isLt
  obtain ⟨hresent', htxq'⟩ := hqueues (1 - m.toNat) (by omega)
  have hother := weftOf_putWeft_other s m.toNat (1 - m.toNat) { weftOf s m.toNat with
      trained := true, rate := rate, reversed := rev, hostPosted := p, hostNonposted := n } (otherModule_ne m)
  have htaken := takeOver_nothing (hother ▸ hresent') (hother ▸ htxq')
  unfold trainWeft
  rw [hpower, huntrained, Bool.not_false, Bool.and_true, if_pos rfl]
  unfold modWeft
  rw [pump_nothing (by rw [htaken.2, weftOf_putWeft_same]; exact hresent) (by rw [htaken.2, weftOf_putWeft_same]; exact htxq)]
  exact htaken

theorem discardQueue_empty {s : State} {m : Nat} (hinq : (weftOf s m).inq = []) (hpark : (weftOf s m).park = []) :
    SameWeft s (discardQueue m s) := by
  refine .put_self ?_
  generalize weftOf s m = w at hinq hpark
  cases w
  cases hinq
  cases hpark
  rfl

theorem reportAllDropped_none {s : State} (hdropped : ∀ k < 2, (weftOf s k).dropped = []) : SameWeft s (reportAllDropped s) := by
  have h0 := hdropped 0 (by decide)
  have h1 := hdropped 1 (by decide)
  have hfirst : SameWeft s (putWeft 0 { weftOf s 0 with dropped := [] } s) := .put_self (by rw [← h0])
  unfold reportAllDropped
  simp only [List.foldl_cons, List.foldl_nil, h0]
  rw [hfirst.2 1, h1]
  exact hfirst.trans (.put_self (by rw [hfirst.2 1, ← h1]))

/-- Module `m` at its initial state but for its count of retrains and what it has to report (R336). -/
def weftCleared (m : Nat) (s : State) : State :=
  putWeft m { WeftModule.init with retrains := (weftOf s m).retrains, dropped := (weftOf s m).dropped } s

/-- Module `o` takes over what module `m` has to send again, and its reads (R336, R365). -/
def handOver (m o : Nat) (kept queued again : List DevTxn) (s : State) : State :=
  onLoom (fun l => { l with reads := l.reads.map (fun r => if r.mod = m then { r with mod := o } else r) })
    (putWeft o { weftOf s o with resent := (weftOf s o).resent ++ kept, txq := (weftOf s o).txq ++ queued ++ again } s)

theorem handOver_nothing {s : State} (m o : Nat) (hreads : s.loom.reads = []) : SameWeft s (handOver m o [] [] [] s) := by
  unfold handOver
  rw [onLoom_sameReads (by simp [hreads])]
  exact .put_self (by simp)

/-- Module `m`'s reads whose flits are not among those kept, to be issued again (R336). -/
def readsAgain (m : Nat) (sent : List DevTxn) (s : State) : List DevTxn :=
  (s.loom.reads.filter (fun r => r.mod == m && r.got.isNone && !sent.any (fun x => x.kind == .read && x.tag == r.tag))).map readTxn

/-- What the modules have discarded is reported while the loom answers (R159). -/
def reportReached (s : State) : State := if loomReachable s.pwr && !s.pwr.drained then reportAllDropped s else s

/-- A LINK reset, step by step: the queue is discarded, the module cleared, and what it had to send handed over (R336, R365). -/
theorem resetWeft_eq (m : Nat) (s : State) :
    let s1 := discardQueue m s
    let kept := keptTxns (weftOf s1 m)
    let queued := (weftOf s1 m).txq.filter isOwnTxn
    resetWeft m s = reportReached (pump (otherOr s1 m)
      (handOver m (otherOr s1 m) kept queued (readsAgain m (kept ++ queued) s1) (weftCleared m s1))) := by
  unfold resetWeft reportReached handOver weftCleared readsAgain
  dsimp only

theorem reportReached_none {s : State} (hdropped : ∀ k < 2, (weftOf s k).dropped = []) : SameWeft s (reportReached s) := by
  unfold reportReached
  split
  · exact reportAllDropped_none hdropped
  · exact .refl s

theorem otherOr_lt (s : State) (m : BitVec 1) : otherOr s m.toNat < 2 := by
  have hm := m.isLt
  unfold otherOr
  split <;> omega

/-- A module with nothing to carry out or to hand over: nothing waits on it or on the other one, neither has discarded anything, and no
read is outstanding. -/
structure WeftQuiet (s : State) (m : BitVec 1) : Prop where
  inq : (weftOf s m.toNat).inq = []
  park : (weftOf s m.toNat).park = []
  replay : (weftOf s m.toNat).replay = []
  resent : (weftOf s m.toNat).resent = []
  txq : (weftOf s m.toNat).txq = []
  otherResent : (weftOf s (1 - m.toNat)).resent = []
  otherTxq : (weftOf s (1 - m.toNat)).txq = []
  dropped : ∀ k < 2, (weftOf s k).dropped = []
  reads : s.loom.reads = []

/-- A module at its initial state but for its count of retrains. -/
def retrained (w : WeftModule) : WeftModule := { WeftModule.init with retrains := w.retrains }

/-- Once a quiet module is cleared, nothing is queued and nothing is to be reported. -/
theorem WeftQuiet.cleared {s t : State} {m : BitVec 1} (h : WeftQuiet s m)
    (ht : SameWeft (putWeft m.toNat (retrained (weftOf s m.toNat)) s) t) {k : Nat} (hk : k < 2) :
    (weftOf t k).resent = [] ∧ (weftOf t k).txq = [] ∧ (weftOf t k).dropped = [] := by
  have hm := m.isLt
  rw [ht.2]
  by_cases hkm : m.toNat = k
  · rw [← hkm, weftOf_putWeft_same]
    exact ⟨rfl, rfl, rfl⟩
  · have hother : k = 1 - m.toNat := by omega
    rw [weftOf_putWeft_other _ _ _ _ hkm]
    exact ⟨hother ▸ h.otherResent, hother ▸ h.otherTxq, h.dropped k hk⟩

/-- A quiet module resets to its initial state but for its count of retrains (R336). -/
theorem resetWeft_quiet {s : State} {m : BitVec 1} (h : WeftQuiet s m) :
    SameWeft (putWeft m.toNat (retrained (weftOf s m.toNat)) s) (resetWeft m.toNat s) := by
  have hdiscard := discardQueue_empty h.inq h.park
  have hreads : (discardQueue m.toNat s).loom.reads = [] := h.reads
  have hcleared : SameWeft (putWeft m.toNat (retrained (weftOf s m.toNat)) s) (weftCleared m.toNat (discardQueue m.toNat s)) := by
    have hdropped : (weftOf s m.toNat).dropped = [] := h.dropped _ m.isLt
    unfold weftCleared
    rw [hdiscard.2, hdropped]
    exact hdiscard.put _ _
  have hkept : keptTxns (weftOf s m.toNat) = [] := by simp [keptTxns, h.replay, h.resent]
  have hreset := resetWeft_eq m.toNat s
  simp only [hdiscard.2, hkept, h.txq, List.filter_nil, List.append_nil, readsAgain, hreads, List.map_nil] at hreset
  have hsame := hcleared.trans (handOver_nothing m.toNat (otherOr (discardQueue m.toNat s) m.toNat) hreads)
  obtain ⟨hresent, htxq, _⟩ := h.cleared hsame (otherOr_lt (discardQueue m.toNat s) m)
  rw [hreset, pump_nothing hresent htxq]
  exact hsame.trans (reportReached_none fun k hk => (h.cleared hsame hk).2.2)

/-- A weft module that loses its link resets and counts the retrain (R92, R333). -/
theorem linkDown_weft {m : Nat} (s : State) (hm : m < 2) :
    linkDown m s = putWeft m { weftOf (raise causeLinkDown (resetWeft m s)) m with
      retrains := satAdd (weftOf (raise causeLinkDown (resetWeft m s)) m).retrains 1 } (raise causeLinkDown (resetWeft m s)) := by
  have hreset : linkReset m true s = resetWeft m s := if_pos hm
  unfold linkDown
  rw [hreset]
  exact if_pos hm

/-- A quiet module that loses its link resets, counts the retrain and raises LINK_DOWN (R92, R333, R336). -/
theorem linkDown_quiet {s : State} {m : BitVec 1} (h : WeftQuiet s m) : ∃ w, linkDown m.toNat s =
      { s with weft := w, alert := putBit s.alert causeLinkDown true }
    ∧ sget .init w m.toNat = { WeftModule.init with retrains := satAdd (weftOf s m.toNat).retrains 1 } := by
  obtain ⟨w, hreset, hmine⟩ := (resetWeft_quiet h).table
  have hraised : weftOf (raise causeLinkDown { s with weft := w }) m.toNat = retrained (weftOf s m.toNat) := hmine
  rw [linkDown_weft s m.isLt, hreset, hraised]
  exact ⟨_, rfl, sget_sput_same _ _ _ _⟩

/-! ## Responses (R338, R367) -/

section readResponse
variable {s : State} {r : DevRead} {m tag : Nat}

/-- The one read outstanding is the one that a response of its tag and module answers. -/
theorem readResponse_one (status : Nat) (d : List Byte) (hreads : s.loom.reads = [r]) (htag : r.tag = tag) (hmod : r.mod = m)
    (hgot : r.got = none) : readResponse m tag status d s =
      if status ≠ 0 then readFailed r status s
      else deliverReads 1 { s with loom := { s.loom with reads := [{ r with got := some (slice d 0 r.len) }] } } := by
  have hfind : s.loom.reads.find? (fun r => r.tag == tag && r.mod == m && r.got.isNone) = some r := by
    simp [hreads, htag, hmod, hgot]
  unfold readResponse
  simp only [hfind]
  simp only [onLoom, hreads, List.map_cons, List.map_nil, htag, hmod, and_self, if_true, List.length_cons, List.length_nil]

theorem dropRead_one (hreads : s.loom.reads = [r]) : dropRead r s = { s with loom := { s.loom with reads := [] } } := by
  unfold dropRead onLoom
  simp [hreads]

/-- Data that is in for the one read reaches what asked for it. -/
theorem deliverReads_one {d : List Byte} (hreads : s.loom.reads = [r]) (hgot : r.got = some d) :
    deliverReads 1 s = consume r d { s with loom := { s.loom with reads := [] } } := by
  have hready : firstReady s.loom.reads [] = some (r, d) := by simp [hreads, firstReady, hgot]
  unfold deliverReads
  simp only [hready, dropRead_one hreads]
  rfl

/-- Rows of a draft image join the load's buffer (R367). -/
theorem readResponse_image {ld : Load} {n : Nat} (d : List Byte) (hreads : s.loom.reads = [r]) (htag : r.tag = tag) (hmod : r.mod = m)
    (hgot : r.got = none) (hwhat : r.what = .image n) (hload : s.loom.load = some ld) : readResponse m tag 0 d s =
      { s with loom := { s.loom with reads := [], load := some { ld with buffer := ld.buffer ++ slice d 0 r.len } } } := by
  rw [readResponse_one 0 d hreads htag hmod hgot, if_neg (by decide), deliverReads_one rfl rfl]
  simp [consume, hwhat, onLoom, hload]

/-- A read of a ring that fails stops the ring, and its tenant's event is lost where it has no event ring (R348, R367). -/
theorem readResponse_ringFails {status n k : Nat} (d : List Byte) (hreads : s.loom.reads = [r]) (htag : r.tag = tag) (hmod : r.mod = m)
    (hgot : r.got = none) (hwhat : r.what = .ring n k) (hstatus : status ≠ 0) (hevents : (ringOf s (4 * (n / 4) + 2)).en = false)
    (hn : n % 4 ≠ 2) : readResponse m tag status d s =
      putTenant (n / 4) { tenantOf s (n / 4) with lost := satAdd (tenantOf s (n / 4)).lost 1 }
        (putRing n { ringOf s n with en := false } { s with loom := { s.loom with reads := [] } }) := by
  have hring : (ringOf (putRing n { ringOf s n with en := false } { s with loom := { s.loom with reads := [] } }) (4 * (n / 4) + 2)).en =
      false := by
    rw [ringOf_putRing_other _ _ _ _ (by omega)]
    exact hevents
  rw [readResponse_one status d hreads htag hmod hgot, if_pos hstatus]
  unfold readFailed
  rw [dropRead_one hreads, hwhat]
  exact sendEvent_ringOff _ _ _ _ hring

end readResponse

/-! ## Flits that come (R334, R335) -/

/-- A damaged flit draws a NAK, and flits are discarded until the missing one (R335, R468). -/
theorem flitEffect_damaged {s : State} {m : Nat} {b : List Byte} (ups : Upsets) (htrained : (weftOf s m).trained = true)
    (hdamaged : flitIntact b = false) (hroom : (weftOf s m).replay.length < 128) :
    SameWeft (putWeft m { sentIdle (weftOf s m) 2 with dropping := true } s) (flitEffect m b ups s) := by
  have hrejected : flitEffect m b ups s = modWeft m (fun w => { w with dropping := true }) (sendIdle m 2 s) := by
    simp [flitEffect, flitRejected, htrained, hdamaged]
  rw [hrejected, sendIdle_room 2 htrained hroom]
  unfold modWeft
  rw [weftOf_putWeft_same]
  exact .put_put _ _ _

/-- A module once it has taken an intact flit's link header with ACK 1 (R335 to R337). -/
def acknowledged (b : List Byte) (w : WeftModule) : WeftModule :=
  ackReplay (flitAckSeq b) { w with
    rxSeq := flitSeq b, dropping := false, rxSince := w.rxSince + 1
    hostPosted := w.hostPosted + field (leAt b 0 8) 28 8, hostNonposted := w.hostNonposted + field (leAt b 0 8) 36 8 }

theorem acknowledged_eq (b : List Byte) (w : WeftModule) : acknowledged b w = { w with
    rxSeq := flitSeq b, dropping := false, rxSince := w.rxSince + 1
    hostPosted := w.hostPosted + leAt b 0 8 / 2 ^ 28 % 256, hostNonposted := w.hostNonposted + leAt b 0 8 / 2 ^ 36 % 256
    replay := w.replay.filter (fun e => decide (2048 ≤ (flitAckSeq b - e.1).toNat))
    flits := w.flits.filter (fun e => decide (2048 ≤ (flitAckSeq b - e.1).toNat))
    nakFor := if ∀ e ∈ w.replay, 2048 ≤ (flitAckSeq b - e.1).toNat then w.nakFor else none } := by
  simp only [acknowledged, ackReplay, beyondAck, field_eq, List.all_eq_true, decide_eq_true_eq]
  rfl

theorem flitHeader_ack {m : Nat} {b : List Byte} (s : State) (hack : flitAck b = 1) :
    SameWeft (putWeft m (acknowledged b (weftOf s m)) s) (flitHeader m b s) := by
  unfold flitHeader
  dsimp only
  rw [if_pos hack]
  unfold modWeft
  rw [weftOf_putWeft_same]
  exact .put_put _ _ _

/-- An intact flit in order without a transaction leaves its header's news alone, where nothing is queued and no acknowledgement is
due (R335). -/
theorem flitEffect_empty {s : State} {m : BitVec 1} {b : List Byte} (ups : Upsets) (htrained : (weftOf s m.toNat).trained = true)
    (hintact : flitIntact b = true) (hseq : flitSeq b = (weftOf s m.toNat).rxSeq + 1) (htxns : flitTxns b = 0) (hack : flitAck b = 1)
    (hsince : (weftOf s m.toNat).rxSince < 31) (hqueues : ∀ k < 2, (weftOf s k).resent = [] ∧ (weftOf s k).txq = []) :
    SameWeft (putWeft m.toNat (acknowledged b (weftOf s m.toNat)) s) (flitEffect m.toNat b ups s) := by
  have hheader := flitHeader_ack (m := m.toNat) (b := b) s hack
  have hmine : weftOf (flitHeader m.toNat b s) m.toNat = acknowledged b (weftOf s m.toNat) :=
    (hheader.2 _).trans (weftOf_putWeft_same _ _ _)
  have hother : weftOf (flitHeader m.toNat b s) (1 - m.toNat) = weftOf s (1 - m.toNat) :=
    (hheader.2 _).trans (weftOf_putWeft_other _ _ _ _ (otherModule_ne m))
  obtain ⟨hresent, htxq⟩ := hqueues m.toNat m.isLt
  obtain ⟨hresent', htxq'⟩ := hqueues (1 - m.toNat) (by omega)
  have hpump : pump m.toNat (flitHeader m.toNat b s) = flitHeader m.toNat b s :=
    pump_nothing (hmine ▸ hresent) (hmine ▸ htxq)
  have hpump' : pump (1 - m.toNat) (flitHeader m.toNat b s) = flitHeader m.toNat b s :=
    pump_nothing (hother ▸ hresent') (hother ▸ htxq')
  have hsince' : ¬ 32 ≤ (weftOf (flitHeader m.toNat b s) m.toNat).rxSince := by
    rw [hmine]
    exact fun h => absurd (show 32 ≤ (weftOf s m.toNat).rxSince + 1 from h) (by omega)
  have heffect : flitEffect m.toNat b ups s = flitHeader m.toNat b s := by
    unfold flitEffect
    simp only [htrained, hintact, hseq, htxns, span, List.range_zero, List.map_nil, List.foldl_nil, hpump, hpump', hsince', Bool.not_true,
      Bool.false_or, bne_self_eq_false, Bool.false_eq_true, if_false]
  rw [heffect]
  exact hheader

/-! ## Register writes of the host (R10, R159, R340) -/

section weftWrite
variable {s : State} (d : DWord) (o : BitVec 8)

/-- A write of a register of the loom, as the host posts it. -/
theorem exec_weftWrite (a : BitVec 57) (hheard : HostHeard s) : exec (.registerWrite (.weft a d o)) s =
    fin s (weftWrite (moduleFor s o.toNat) a.toNat d o s) :=
  congrArg (fin s) (hostPosts_heard (some o.toNat) (weftWrite (moduleFor s o.toNat) a.toNat d o) hheard)

theorem weftWrite_low {m a : Nat} (hreach : loomReachable s.pwr = true) (ha : a < 0x8000) :
    weftWrite m a d o s = writeCtlLow m a d o s := by
  unfold weftWrite
  rw [if_neg (by simp [hreach]), if_pos ha]

theorem weftWrite_high {m a : Nat} (hreach : loomReachable s.pwr = true) (hlow : 0x8000 ≤ a) (ha : a < 0x400000) :
    weftWrite m a d o s = writeCtlHigh a d s := by
  unfold weftWrite
  rw [if_neg (by simp [hreach]), if_neg (by omega), if_pos ha]

/-- L_DRAFT_ADDR holds a 64-byte boundary (R271). -/
theorem writeCtlLow_draftAddr (m : Nat) : writeCtlLow m 0x400 d o s =
    { s with loom := { s.loom with draftAddr := BitVec.ofNat 57 (d.toNat % 2 ^ 57 / 64 * 64) } } := by
  have hwrite : writeCtlLow m 0x400 d o s =
      { s with loom := { s.loom with draftAddr := BitVec.ofNat 57 (field d.toNat 0 57 / 64 * 64) } } := rfl
  rw [hwrite, field_eq, pow_zero, Nat.div_one]

/-- L_WEAVE_CTRL sets the shadow's length while no swap is in progress (R372). -/
theorem writeCtlLow_weaveCtrl (m : Nat) (h : s.loom.weave.swap = .idle) : writeCtlLow m 0x700 d o s =
    { s with loom := { s.loom with weave := { s.loom.weave with shadowLc := d.toNat % 2 ^ 32 } } } := by
  have hwrite : writeCtlLow m 0x700 d o s = writeWeaveCtrl d s := rfl
  rw [hwrite, writeWeaveCtrl, if_neg (not_not.mpr h), field_eq, pow_zero, Nat.div_one]
  rfl

theorem wordIn_word {base n k : Nat} (hbase : base % 8 = 0) (hk : k < n) : wordIn (base + 8 * k) base n = some k := by
  have hplace : (base + 8 * k - base) / 8 = k := by omega
  unfold wordIn
  rw [if_pos (by simp only [Bool.and_eq_true, decide_eq_true_eq]; omega), hplace]

theorem wordIn_beyond {a base n : Nat} (h : base + 8 * n ≤ a) : wordIn a base n = none :=
  if_neg (by simp only [Bool.and_eq_true, decide_eq_true_eq]; omega)

/-- Word 0 of an entry of the shadow table (R372). -/
theorem writeCtlHigh_shadow {e : Nat} (he : e < 1024) : writeCtlHigh (0xC000 + 16 * e) d s = writeShadow e 0 d s := by
  have hplace : 0xC000 + 16 * e = 0xC000 + 8 * (2 * e) := by omega
  have heven : 2 * e % 2 = 0 := by omega
  have hhalf : 2 * e / 2 = e := by omega
  unfold writeCtlHigh
  rw [wordIn_beyond (base := 0xB000) (by omega), hplace, wordIn_word (by decide) (by omega)]
  dsimp only
  rw [heven, hhalf]

theorem writeShadow_start {e : Nat} (h : s.loom.weave.swap = .idle) : writeShadow e 0 d s =
    onWeave (fun w => { w with shadow := sput .init w.shadow e { sget WEntry.init w.shadow e with
      start := d.toNat % 2 ^ 32, len := d.toNat / 2 ^ 32 } }) s := by
  have hd := d.isLt
  have hlen : d.toNat / 2 ^ 32 % 2 ^ 32 = d.toNat / 2 ^ 32 := Nat.mod_eq_of_lt (by omega)
  unfold writeShadow
  dsimp only
  rw [if_neg (not_not.mpr h), if_pos rfl, field_eq, field_eq, pow_zero, Nat.div_one, hlen]
  rfl

/-- A discarded write is counted for its owner on its module (R159). -/
theorem dropPosted_dropped (m owner : Nat) (s : State) :
    sget 0 (weftOf (dropPosted m owner s) m).dropped owner = sget 0 (weftOf s m).dropped owner + 1 := by
  unfold dropPosted
  rw [weftOf_putWeft_same]
  exact (sget_smod 0 (weftOf s m).dropped owner owner (· + 1)).trans (if_pos rfl)

end weftWrite

/-- Settles O54: training, retrains and flits by what they leave of one module, a response by the one read outstanding, and a register
write by its address. -/
theorem weftLink : Obligations.WeftLink := by
  unfold Obligations.WeftLink
  refine ⟨?_, ?_, ?_, ?_, ?_, ?_, ?_, ?_, ?_, ?_, ?_, ?_, ?_, ?_, ?_⟩
  · intro s m rate rev p n hlive hpower huntrained hqueues
    exact .of_fin hlive rfl (trainWeft_idle rate rev p.toNat n.toNat hpower huntrained hqueues).onlyWeft
  · intro s m hlive
    exact .of_fin hlive rfl rfl
  · intro s m hlive htrained hinq hpark hreplay hresent htxq hdropped hdropped' hresent' htxq' hreads
    have hquiet : WeftQuiet s m := ⟨hinq, hpark, hreplay, hresent, htxq, hresent', htxq', fun k hk => by interval_cases k <;> assumption, hreads⟩
    obtain ⟨w, hdown, hmine⟩ := linkDown_quiet hquiet
    have hretrain : retrainWeft m.toNat .linkLoss s = _ := (if_pos (by rw [htrained]; rfl)).trans hdown
    exact .of_fin hlive (congrArg (fin s) hretrain) ⟨hmine, rfl, rfl⟩
  · intro s m g d r ld hlive htrained hreads htag hmod hgot hwhat hload
    exact .of_fin hlive (congrArg (fin s) ((if_pos htrained).trans (readResponse_image d hreads htag hmod hgot hwhat hload))) rfl
  · intro s m g c d r n k hlive htrained hreads htag hmod hgot hwhat hc hevents hn
    have hstatus : c.toNat ≠ 0 := fun h => hc (BitVec.eq_of_toNat_eq h)
    refine .of_fin hlive (congrArg (fin s) ((if_pos htrained).trans
      (readResponse_ringFails d hreads htag hmod hgot hwhat hstatus hevents hn))) ⟨?_, ?_, rfl⟩
    · exact ringOf_putRing_same { s with loom := { s.loom with reads := [] } } n { ringOf s n with en := false }
    · exact congrArg Tenant.lost (tenantOf_putTenant_same _ (n / 4) { tenantOf s (n / 4) with lost := satAdd (tenantOf s (n / 4)).lost 1 })
  · intro s m c hlive hcause
    exact .of_fin hlive (congrArg (fin s) (if_neg (by simp [hcause]))) rfl
  · intro s m hlive htrained hroom
    exact .of_fin hlive (congrArg (fin s) (sendIdle_room 1 htrained hroom)) (SameWeft.refl _).onlyWeft
  · intro s m hlive htrained hroom
    obtain ⟨b, hlast, hintact, hseq, hackSeq, hack, htxns, hcrp, hcrn⟩ := sentIdle_flit (weftOf s m.toNat) 1
    have hsent : weftOf (settle s (putWeft m.toNat (sentIdle (weftOf s m.toNat) 1) s)) m.toNat = _ := weftOf_putWeft_same _ _ _
    refine .of_fin hlive (congrArg (fin s) (sendIdle_room 1 htrained hroom)) ?_
    rw [hsent, hlast, Option.map_some, hintact, hseq, hackSeq, hack, htxns, hcrp, hcrn]
    rfl
  · intro s m b hlive htrained hdamaged hroom
    exact .of_fin hlive rfl (flitEffect_damaged [] htrained hdamaged hroom).onlyWeft
  · intro s m b hlive htrained hintact hseq htxns hack hsince hqueues
    refine .of_fin hlive rfl ?_
    rw [← acknowledged_eq]
    exact (flitEffect_empty [] htrained hintact hseq htxns hack hsince hqueues).onlyWeft
  · intro s d o hheard
    exact .of_fin hheard.1.1 ((exec_weftWrite d o _ hheard).trans (congrArg (fin s)
      ((weftWrite_low d o hheard.1.2 (by decide)).trans (writeCtlLow_draftAddr d o _)))) rfl
  · intro s d o hheard hswap
    exact .of_fin hheard.1.1 ((exec_weftWrite d o _ hheard).trans (congrArg (fin s)
      ((weftWrite_low d o hheard.1.2 (by decide)).trans (writeCtlLow_weaveCtrl d o _ hswap)))) rfl
  · intro s e d o hheard hswap
    have he := e.isLt
    have haddr : (BitVec.ofNat 57 (0xC000 + 16 * e.toNat)).toNat = 0xC000 + 16 * e.toNat := by
      rw [BitVec.toNat_ofNat]
      exact Nat.mod_eq_of_lt (by omega)
    refine .of_fin hheard.1.1 ((exec_weftWrite d o _ hheard).trans (congrArg (fin s) ((weftWrite_high d o hheard.1.2 ?_ ?_).trans
      ((congrArg (fun a => writeCtlHigh a d s) haddr).trans ((writeCtlHigh_shadow d he).trans (writeShadow_start d hswap))))))
      ⟨sget_sput_same _ _ _ _, rfl⟩ <;> omega
  · intro s a d o hlive hdrain hreach
    exact .of_fin hlive (congrArg (fin s) ((if_neg (by simp [hdrain])).trans (if_pos (by simp [hreach])))) rfl
  · intro s a d o hreached hdrain
    exact .of_fin hreached.1 (congrArg (fin s) (if_pos hdrain)) ⟨dropPosted_dropped _ _ s, rfl⟩

end Sys2Proof.Machine
end

