-- ==== Sys2Proof/Proofs/FrontEnd.lean ====
section
/-!
PROOF. The listening front end: the level-crossing encoders (R177, R178), channels and their mutes (R170, R183, R191, R196), the bias
generator, its faults and VDDA_MIC (R180 to R193), encoder settings, sensor port and trims (R184 to R190), and the hop (R190, R216, R498).
-/

namespace Sys2Proof.Machine

/-! ## A level-crossing encoder (R177, R178) -/

/-- The levels crossed upward at band level `c`, from the onset `on` above baseline `b` (R177). -/
def levelsUp (c b on step : Nat) : Nat := if b + on ≤ c then 1 + (c - (b + on)) / step else 0

/-- The levels that still count as crossed on the way down: those of a level two codes higher (R177). -/
def levelsDown (c b on step : Nat) : Nat := levelsUp (c + 2) b on step

/-- The hysteresis only adds levels. -/
theorem levelsUp_le_levelsDown (c b on step : Nat) : levelsUp c b on step ≤ levelsDown c b on step := by
  unfold levelsDown levelsUp
  split
  · rw [if_pos (by omega)]
    exact Nat.add_le_add_left (Nat.div_le_div_right (by omega)) 1
  · exact Nat.zero_le _

section encoderHop
variable {e : Encoder} (c b on step maxph : Nat) (downEn suppressed : Bool)

theorem encoderHop_invalid : encoderHop e false c b on step maxph downEn suppressed = ({ e with armed := false }, 0, 0) := rfl

theorem encoderHop_rebases (harmed : e.armed = false) : encoderHop e true c b on step maxph downEn suppressed =
    ({ armed := true, qPrev := levelsUp c b on step }, 0, 0) := by
  simp [encoderHop, levelsUp, harmed]

theorem encoderHop_rises (harmed : e.armed = true) (h : e.qPrev < levelsUp c b on step) :
    encoderHop e true c b on step maxph downEn suppressed =
      let n := min (levelsUp c b on step - e.qPrev) maxph
      ({ e with qPrev := e.qPrev + n }, n, 0) :=
  (if_neg (by decide)).trans ((if_neg (by simp [harmed])).trans (if_pos h))

theorem encoderHop_falls (harmed : e.armed = true) (hup : levelsUp c b on step ≤ e.qPrev) (h : levelsDown c b on step < e.qPrev) :
    encoderHop e true c b on step maxph downEn suppressed =
      let n := min (e.qPrev - levelsDown c b on step) maxph
      ({ e with qPrev := e.qPrev - n }, 0, if downEn && !suppressed then n else 0) :=
  (if_neg (by decide)).trans ((if_neg (by simp [harmed])).trans ((if_neg (Nat.not_lt.mpr hup)).trans (if_pos h)))

theorem encoderHop_stays (harmed : e.armed = true) (hup : levelsUp c b on step ≤ e.qPrev) (hdn : e.qPrev ≤ levelsDown c b on step) :
    encoderHop e true c b on step maxph downEn suppressed = (e, 0, 0) :=
  (if_neg (by decide)).trans ((if_neg (by simp [harmed])).trans ((if_neg (Nat.not_lt.mpr hup)).trans (if_neg (Nat.not_lt.mpr hdn))))

end encoderHop

/-- Settles O32: the five outcomes of a hop, one after the other. -/
theorem encoderSpikes : Obligations.EncoderSpikes := by
  unfold Obligations.EncoderSpikes
  intro e valid c b on step maxph downEn suppressed r qUp qDn
  have hup : qUp = levelsUp c b on step := rfl
  have hdn : qDn = levelsDown c b on step := rfl
  have hle : qUp ≤ qDn := levelsUp_le_levelsDown c b on step
  clear_value qUp qDn
  cases valid with
  | false =>
    have hr : r = _ := encoderHop_invalid c b on step maxph downEn suppressed
    rw [hr]
    simp
  | true =>
    cases harmed : e.armed with
    | false =>
      have hr : r = _ := encoderHop_rebases c b on step maxph downEn suppressed harmed
      rw [hr, ← hup]
      simp [hle]
    | true =>
      by_cases hrise : e.qPrev < qUp
      · have hr : r = _ := encoderHop_rises c b on step maxph downEn suppressed harmed (hup ▸ hrise)
        rw [hr, ← hup]
        simp [harmed, hrise]
        omega
      · by_cases hfall : qDn < e.qPrev
        · have hr : r = _ := encoderHop_falls c b on step maxph downEn suppressed harmed (hup ▸ Nat.not_lt.mp hrise) (hdn ▸ hfall)
          rw [hr, ← hdn]
          -- DOWN spikes leave in one of the four cases of DOWN and its suppression; the levels move alike in all
          cases downEn <;> cases suppressed <;> simp [harmed, hfall, hrise] <;> omega
        · have hr : r = _ := encoderHop_stays c b on step maxph downEn suppressed harmed (hup ▸ Nat.not_lt.mp hrise)
            (hdn ▸ Nat.not_lt.mp hfall)
          rw [hr]
          simp [harmed, hrise, hfall]
          omega

/-! ## Words with one bit or one field replaced (R197) -/

/-- A bit that the mask keeps may be put in a masked word. -/
theorem putBit_masked {w : Nat} {v m : BitVec w} {i : Nat} (b : Bool) (hv : v &&& m = v) (hm : m.getLsbD i = true) :
    putBit v i b &&& m = putBit v i b := by
  refine BitVec.eq_of_getLsbD_eq fun j hj => ?_
  rw [BitVec.getLsbD_and, getLsbD_putBit _ _ _ _ hj]
  by_cases h : j = i
  · rw [h, hm, Bool.and_true]
  · rw [if_neg h, ← BitVec.getLsbD_and, hv]

theorem testBit_field (v lo len j : Nat) : (field v lo len).testBit j = (decide (j < len) && v.testBit (lo + j)) := by
  rw [field, Nat.testBit_mod_two_pow, Nat.testBit_shiftRight]

theorem field_congr {v w lo len : Nat} (h : ∀ j, lo ≤ j → j < lo + len → v.testBit j = w.testBit j) :
    field v lo len = field w lo len := by
  refine Nat.eq_of_testBit_eq fun j => ?_
  rw [testBit_field, testBit_field]
  by_cases hj : j < len
  · rw [h _ (by omega) (by omega)]
  · rw [decide_eq_false hj, Bool.false_and, Bool.false_and]

/-- A bit outside a field leaves the field alone. -/
theorem field_putBit {w : Nat} (v : BitVec w) (i : Nat) (b : Bool) {lo len : Nat} (h : i < lo ∨ lo + len ≤ i) :
    field (putBit v i b).toNat lo len = field v.toNat lo len := by
  refine field_congr fun j hlo hhi => ?_
  rw [BitVec.testBit_toNat, BitVec.testBit_toNat]
  by_cases hj : j < w
  · rw [getLsbD_putBit _ _ _ _ hj, if_neg (by omega)]
  · rw [BitVec.getLsbD_of_ge _ _ (by omega), BitVec.getLsbD_of_ge _ _ (by omega)]

theorem getLsbD_withField (w : Word) {lo len : Nat} (x : Nat) {j : Nat} (hj : j < 32) :
    (withField w lo len x).getLsbD j = if lo ≤ j ∧ j < lo + len then x.testBit (j - lo) else w.getLsbD j := by
  have hsum : setField w.toNat lo len x = 2 ^ lo * (2 ^ len * (w.toNat >>> (lo + len)) + x % 2 ^ len) + w.toNat % 2 ^ lo := by
    rw [setField, pow_add]
    ring
  rw [withField, w32, BitVec.getLsbD_ofNat, decide_eq_true hj, Bool.true_and, hsum,
    Nat.testBit_two_pow_mul_add _ (Nat.mod_lt _ (Nat.two_pow_pos _)), Nat.testBit_two_pow_mul_add _ (Nat.mod_lt _ (Nat.two_pow_pos _))]
  by_cases hlo : j < lo
  · rw [if_pos hlo, if_neg (by omega), Nat.testBit_mod_two_pow, decide_eq_true hlo, Bool.true_and, BitVec.testBit_toNat]
  · rw [if_neg hlo]
    by_cases hhi : j < lo + len
    · rw [if_pos (by omega), if_pos (by omega), Nat.testBit_mod_two_pow, decide_eq_true (by omega), Bool.true_and]
    · rw [if_neg (by omega), if_neg (by omega), Nat.testBit_shiftRight, BitVec.testBit_toNat]
      congr 1
      omega

theorem field_withField_same (w : Word) {lo len : Nat} (x : Nat) (h : lo + len ≤ 32) :
    field (withField w lo len x).toNat lo len = x % 2 ^ len := by
  refine Nat.eq_of_testBit_eq fun j => ?_
  rw [testBit_field, Nat.testBit_mod_two_pow, BitVec.testBit_toNat]
  by_cases hj : j < len
  · rw [getLsbD_withField _ _ (by omega), if_pos (by omega), Nat.add_sub_cancel_left]
  · rw [decide_eq_false hj, Bool.false_and, Bool.false_and]

theorem field_withField_other (w : Word) {lo len lo' len' : Nat} (x : Nat) (h : lo' + len' ≤ lo ∨ lo + len ≤ lo')
    (hw : lo' + len' ≤ 32) :
    field (withField w lo len x).toNat lo' len' = field w.toNat lo' len' := by
  refine field_congr fun j hlo hhi => ?_
  rw [BitVec.testBit_toNat, BitVec.testBit_toNat, getLsbD_withField _ _ (by omega), if_neg (by omega)]

theorem getLsbD_withField_other (w : Word) {lo len j : Nat} (x : Nat) (h : j < lo ∨ lo + len ≤ j) (hj : j < 32) :
    (withField w lo len x).getLsbD j = w.getLsbD j := by
  rw [getLsbD_withField _ _ hj, if_neg (by omega)]

/-- A field that the mask keeps may be put in a masked word. -/
theorem withField_masked {w m : Word} {lo len : Nat} (x : Nat) (hw : w &&& m = w) (hm : ∀ j < len, m.getLsbD (lo + j) = true) :
    withField w lo len x &&& m = withField w lo len x := by
  refine BitVec.eq_of_getLsbD_eq fun j hj => ?_
  rw [BitVec.getLsbD_and, getLsbD_withField _ _ hj]
  by_cases h : lo ≤ j ∧ j < lo + len
  · have hbit := hm (j - lo) (by omega)
    rw [Nat.add_sub_cancel' h.1] at hbit
    rw [hbit, Bool.and_true]
  · rw [if_neg h, ← BitVec.getLsbD_and, hw]

/-! ## Writes of the front end's registers (R80) -/

/-- A command's own word of the front end, as the watchman takes it (R80). -/
theorem frontWrite_running {s : State} {a : Nat} (d : Word) (hw : WatchHears s) (hlo : 0x140 ≤ a) (hhi : a < 0x180) :
    frontWrite a d s = writeFrontReg a d s.clocks.wclk s := by
  obtain ⟨⟨_, hclk⟩, hpins⟩ := hw
  have hrange : (decide (0x140 ≤ a) && decide (a < 0x180)) = true := by simp [hlo, hhi]
  unfold frontWrite watchmanCommand
  rw [fromGate_hears _ hpins]
  exact (if_neg (by simp [hclk])).trans (if_pos hrange)

/-! ## Channels and encoders in their tables -/

@[simp] theorem chanOf_modChan_same (n : Nat) (g : Channel → Channel) (f : FrontEnd) : chanOf (modChan n g f) n = g (chanOf f n) :=
  sget_sput_same _ _ _ _

theorem chanOf_modChan_other {n m : Nat} (g : Channel → Channel) (f : FrontEnd) (h : n ≠ m) : chanOf (modChan n g f) m = chanOf f m :=
  sget_sput_other _ _ _ h

/-- What a change of a channel keeps, it keeps of every channel. -/
theorem chanOf_modChan_keeps {β : Type} (p : Channel → β) {n : Nat} {g : Channel → Channel} (hg : ∀ c, p (g c) = p c) (f : FrontEnd)
    (m : Nat) : p (chanOf (modChan n g f) m) = p (chanOf f m) := by
  by_cases h : n = m
  · rw [h, chanOf_modChan_same, hg]
  · rw [chanOf_modChan_other _ _ h]

@[simp] theorem chanOf_startMute_same (n u : Nat) (f : FrontEnd) :
    chanOf (startMute n u f) n = { chanOf f n with muteEnd := max (chanOf f n).muteEnd u, zeroSeen := true } :=
  chanOf_modChan_same _ _ _

theorem chanOf_startMute_other {n m : Nat} (u : Nat) (f : FrontEnd) (h : n ≠ m) : chanOf (startMute n u f) m = chanOf f m :=
  chanOf_modChan_other _ _ h

/-- Two front ends that differ in their channels alone. -/
def ChanOnly (f g : FrontEnd) : Prop := g = { f with chan := g.chan }

theorem ChanOnly.trans {f g h : FrontEnd} (hfg : ChanOnly f g) (hgh : ChanOnly g h) : ChanOnly f h :=
  Eq.trans hgh (congrArg (fun x : FrontEnd => { x with chan := h.chan }) hfg)

theorem modChan_chanOnly (n : Nat) (g : Channel → Channel) (f : FrontEnd) : ChanOnly f (modChan n g f) := rfl

theorem ChanOnly.feCtrl {f g : FrontEnd} (h : ChanOnly f g) : g.feCtrl = f.feCtrl := (congrArg FrontEnd.feCtrl h).trans rfl

theorem ChanOnly.encOf {f g : FrontEnd} (h : ChanOnly f g) (i : Nat) : encOf g i = encOf f i :=
  (congrArg (Machine.encOf · i) h).trans rfl

/-- Steps that change only channels, one after the other. -/
theorem foldl_chanOnly {α : Type} {step : FrontEnd → α → FrontEnd} (hstep : ∀ f a, ChanOnly f (step f a)) (xs : List α)
    (f : FrontEnd) : ChanOnly f (xs.foldl step f) := by
  induction xs generalizing f with
  | nil => exact rfl
  | cons x xs ih => exact (hstep f x).trans (ih (step f x))

/-- What each step keeps of the channels, all of them keep. -/
theorem chanOf_foldl_keeps {α β : Type} (p : Channel → β) {step : FrontEnd → α → FrontEnd}
    (hstep : ∀ f a m, p (chanOf (step f a) m) = p (chanOf f m)) (xs : List α) (f : FrontEnd) (m : Nat) :
    p (chanOf (xs.foldl step f) m) = p (chanOf f m) := by
  induction xs generalizing f with
  | nil => rfl
  | cons x xs ih => exact (ih (step f x)).trans (hstep f x m)

@[simp] theorem modChan_feCtrl (n : Nat) (g : Channel → Channel) (f : FrontEnd) : (modChan n g f).feCtrl = f.feCtrl := rfl

@[simp] theorem encOf_modChan (n j : Nat) (g : Channel → Channel) (f : FrontEnd) : encOf (modChan n g f) j = encOf f j := rfl

/-- Two front ends that differ in their encoders alone. -/
def EncOnly (f g : FrontEnd) : Prop := g = { f with enc := g.enc }

/-- The encoders named by a list rebase at their next valid hop (R178). -/
theorem foldl_putEnc (ks : List Nat) (f : FrontEnd) :
    EncOnly f (ks.foldl (fun f j => putEnc j { encOf f j with armed := false } f) f)
      ∧ ∀ j, (j ∈ ks ∨ (encOf f j).armed = false) →
        (encOf (ks.foldl (fun f j => putEnc j { encOf f j with armed := false } f) f) j).armed = false := by
  induction ks generalizing f with
  | nil => exact ⟨rfl, fun j h => h.resolve_left (List.not_mem_nil)⟩
  | cons k ks ih =>
    obtain ⟨honly, harmed⟩ := ih (putEnc k { encOf f k with armed := false } f)
    refine ⟨honly, fun j h => harmed j ?_⟩
    have hput : encOf (putEnc k { encOf f k with armed := false } f) j = if k = j then { encOf f k with armed := false } else encOf f j :=
      sget_sput _ _ _ _ _
    rw [hput]
    by_cases hkj : k = j
    · exact .inr (by rw [if_pos hkj])
    · rw [if_neg hkj]
      exact h.imp_left fun hmem => (List.mem_cons.mp hmem).resolve_left (Ne.symm hkj)

theorem disarmEncoders_encOnly (i n : Nat) (f : FrontEnd) : EncOnly f (disarmEncoders i n f) := (foldl_putEnc _ f).1

theorem armed_disarmEncoders {i n j : Nat} (f : FrontEnd) (hlo : i ≤ j) (hhi : j < i + n) :
    (encOf (disarmEncoders i n f) j).armed = false :=
  (foldl_putEnc _ f).2 j (.inl (mem_span.mpr ⟨hlo, hhi⟩))

@[simp] theorem chanOf_disarmEncoders (i n m : Nat) (f : FrontEnd) : chanOf (disarmEncoders i n f) m = chanOf f m :=
  (congrArg (chanOf · m) (disarmEncoders_encOnly i n f)).trans rfl

@[simp] theorem disarmEncoders_feCtrl (i n : Nat) (f : FrontEnd) : (disarmEncoders i n f).feCtrl = f.feCtrl :=
  (congrArg FrontEnd.feCtrl (disarmEncoders_encOnly i n f)).trans rfl

/-! ## The trims (R186, R187) -/

/-- A read of the trims changes the trims. -/
theorem readTrims_frame (s : State) : ∃ trims micbTrims oldTrims, readTrims s = { s with
    fe := { s.fe with trims := trims, micbTrims := micbTrims, oldTrims := oldTrims } } := ⟨_, _, _, rfl⟩

/-! ## A channel on and off (R183, R191, R196) -/

/-- A start or stop of a channel's decimators is noted in that channel alone, and moves no mute. -/
theorem noteEdge_spec (n at_ : Nat) (on : Bool) (s : State) : ∃ f, noteEdge n at_ on s = { s with fe := f } ∧ ChanOnly s.fe f
    ∧ (chanOf f n).muteEnd = (chanOf s.fe n).muteEnd ∧ ∀ m, n ≠ m → chanOf f m = chanOf s.fe m := by
  unfold noteEdge
  split
  · refine ⟨_, rfl, rfl, ?_, fun m h => chanOf_modChan_other _ _ h⟩
    rw [chanOf_modChan_same]
  · exact ⟨s.fe, rfl, rfl, rfl, fun _ _ => rfl⟩

/-- An enabled channel is muted for 10 ms and owes its FE bit (R183). -/
theorem startChannel_spec (n at_ : Nat) (s : State) : ∃ f, startChannel n at_ s = { s with fe := f } ∧ ChanOnly s.fe f
    ∧ (chanOf f n).owesFe = true ∧ (chanOf f n).cleanRun = 0 ∧ (chanOf f n).muteEnd = max (chanOf s.fe n).muteEnd (at_ + 122880)
    ∧ ∀ m, n ≠ m → chanOf f m = chanOf s.fe m := by
  obtain ⟨g, hedge, honly, hmute, hother⟩ := noteEdge_spec n at_ true s
  unfold startChannel
  rw [hedge]
  refine ⟨_, rfl, honly.trans rfl, ?_, ?_, ?_, fun m h => ?_⟩
  · rw [chanOf_modChan_same]
  · rw [chanOf_modChan_same]
  · rw [chanOf_modChan_same, chanOf_startMute_same]
    exact congrArg (max · _) hmute
  · rw [chanOf_modChan_other _ _ h, chanOf_startMute_other _ _ h]
    exact hother m h

/-- The FE bit falls, and the loft starts its history again where it is its channel's (R148, R196). -/
theorem dropFe_eq (n : Nat) (s : State) : dropFe n s = { s with
    fe := modChan n (fun c => { c with feBit := false, feBroken := true, owesFe := false }) s.fe
    loft := { s.loft with feRun := if (if s.loft.ch then 1 else 0) = n then 0 else s.loft.feRun } } := by
  by_cases h : (if s.loft.ch then 1 else 0) = n
  · rw [if_pos h]
    exact if_pos h
  · rw [if_neg h]
    exact if_neg h

/-- A disabled channel has neither its FE bit nor an armed encoder (R196). -/
theorem stopChannel_spec (n at_ : Nat) (s : State) : ∃ f, stopChannel n at_ s = { s with
      fe := f, loft := { s.loft with feRun := if (if s.loft.ch then 1 else 0) = n then 0 else s.loft.feRun } }
    ∧ f.feCtrl = s.fe.feCtrl ∧ (chanOf f n).feBit = false ∧ (chanOf f n).owesFe = false
    ∧ (∀ i < 32, (encOf f (32 * n + i)).armed = false) ∧ ∀ m, n ≠ m → chanOf f m = chanOf s.fe m := by
  obtain ⟨g, hedge, honly, _, hother⟩ := noteEdge_spec n at_ false s
  unfold stopChannel
  rw [hedge, dropFe_eq]
  refine ⟨_, rfl, ?_, ?_, ?_, fun i hi => ?_, fun m h => ?_⟩
  · rw [modChan_feCtrl, onFe_at, modChan_feCtrl, disarmEncoders_feCtrl]
    exact honly.feCtrl
  · rw [chanOf_modChan_same]
  · rw [chanOf_modChan_same]
  · rw [encOf_modChan, onFe_at, encOf_modChan]
    exact armed_disarmEncoders _ (by omega) (by omega)
  · rw [chanOf_modChan_other _ _ h, onFe_at, chanOf_modChan_other _ _ h, chanOf_disarmEncoders]
    exact hother m h

/-! ## G_FE_CTRL (R170, R183, R196) -/

/-- A channel's settings in a value of G_FE_CTRL: its enable, BIASED and its effective gain code. -/
def chanSettings (w : Word) (n : Nat) : Bool × Bool × Nat := (w.getLsbD n, w.getLsbD (2 + n), effGain w n)

/-- What a new value of G_FE_CTRL does to channel `n`: its enable or disable, a gain mute and a BIASED mute (R183, R196). -/
def rewriteChannel (old new : Word) (at_ n : Nat) (s : State) : State :=
  let s1 := if new.getLsbD n && !old.getLsbD n then readTrims (startChannel n at_ s)
    else if old.getLsbD n && !new.getLsbD n then stopChannel n at_ s else s
  let s2 := if effGain old n ≠ effGain new n then onFe (startMute n (at_ + msClocks 2)) s1 else s1
  if new.getLsbD n && new.getLsbD (2 + n) && !old.getLsbD (2 + n) then
    onFe (startMute n (max (if s.fe.ramping then rampEndAt s.fe + msClocks 4 else 0) (at_ + msClocks 4))) s2
  else s2

/-- The front end as the write of G_FE_CTRL finds it: the register is new, and frames under a fault mute so far are noted (R174). -/
def feCtrlTaken (new : Word) (s : State) : State := onFe (fun f => { noteFault f with feCtrl := new }) s

theorem writeFeCtrl_eq (d : Word) (at_ : Nat) (s : State) : writeFeCtrl d at_ s =
    rewriteChannel s.fe.feCtrl (d &&& 0x77F) at_ 1
      (rewriteChannel s.fe.feCtrl (d &&& 0x77F) at_ 0 (feCtrlTaken (d &&& 0x77F) s)) := by
  unfold writeFeCtrl
  simp only [bitOf_toNat]
  rfl

section rewriteChannel
variable {old new : Word} {n : Nat} (at_ : Nat) (s : State)

theorem rewriteChannel_same (h : chanSettings new n = chanSettings old n) : rewriteChannel old new at_ n s = s := by
  obtain ⟨hon, hbiased, hgain⟩ : new.getLsbD n = old.getLsbD n ∧ new.getLsbD (2 + n) = old.getLsbD (2 + n)
    ∧ effGain new n = effGain old n := by simpa [chanSettings] using h
  simp [rewriteChannel, hon, hbiased, hgain]

theorem rewriteChannel_enables (h : chanSettings new n = (true, (chanSettings old n).2)) (hoff : old.getLsbD n = false) :
    rewriteChannel old new at_ n s = readTrims (startChannel n at_ s) := by
  obtain ⟨hon, hbiased, hgain⟩ : new.getLsbD n = true ∧ new.getLsbD (2 + n) = old.getLsbD (2 + n)
    ∧ effGain new n = effGain old n := by simpa [chanSettings] using h
  simp [rewriteChannel, hon, hoff, hbiased, hgain]

theorem rewriteChannel_disables (h : chanSettings new n = (false, (chanSettings old n).2)) (hon : old.getLsbD n = true) :
    rewriteChannel old new at_ n s = stopChannel n at_ s := by
  obtain ⟨hoff, hbiased, hgain⟩ : new.getLsbD n = false ∧ new.getLsbD (2 + n) = old.getLsbD (2 + n)
    ∧ effGain new n = effGain old n := by simpa [chanSettings] using h
  simp [rewriteChannel, hon, hoff, hgain]

theorem rewriteChannel_changesGain {g : Nat} (h : chanSettings new n = (old.getLsbD n, old.getLsbD (2 + n), g)) (hg : g ≠ effGain old n) :
    rewriteChannel old new at_ n s = onFe (startMute n (at_ + 24576)) s := by
  obtain ⟨hon, hbiased, hgain⟩ : new.getLsbD n = old.getLsbD n ∧ new.getLsbD (2 + n) = old.getLsbD (2 + n)
    ∧ effGain new n = g := by simpa [chanSettings] using h
  simp [rewriteChannel, hon, hbiased, hgain, hg.symm, msClocks]

theorem rewriteChannel_biases (h : chanSettings new n = (true, true, effGain old n)) (hon : old.getLsbD n = true)
    (hbias : old.getLsbD (2 + n) = false) : rewriteChannel old new at_ n s =
      onFe (startMute n (max (if s.fe.ramping then rampEndAt s.fe + 49152 else 0) (at_ + 49152))) s := by
  obtain ⟨hon', hbias', hgain⟩ : new.getLsbD n = true ∧ new.getLsbD (2 + n) = true
    ∧ effGain new n = effGain old n := by simpa [chanSettings] using h
  simp [rewriteChannel, hon, hon', hbias, hbias', hgain, msClocks]

end rewriteChannel

/-- A write that changes the settings of one channel is what it does to that channel. -/
theorem writeFeCtrl_single {d : Word} {n : Nat} (at_ : Nat) {s : State} (hn : n < 2) (hd : d &&& 0x77F = d)
    (hother : chanSettings d (1 - n) = chanSettings s.fe.feCtrl (1 - n)) :
    writeFeCtrl d at_ s = rewriteChannel s.fe.feCtrl d at_ n (feCtrlTaken d s) := by
  rw [writeFeCtrl_eq, hd]
  obtain rfl | rfl : n = 0 ∨ n = 1 := by omega
  · exact rewriteChannel_same _ _ hother
  · rw [rewriteChannel_same _ _ hother]

/-- A command's own G_FE_CTRL word that changes the settings of one channel (R80). -/
theorem frontWrite_feCtrl {d : Word} {n : Nat} {s : State} (hw : WatchHears s) (hn : n < 2) (hd : d &&& 0x77F = d)
    (hother : chanSettings d (1 - n) = chanSettings s.fe.feCtrl (1 - n)) :
    frontWrite 0x140 d s = rewriteChannel s.fe.feCtrl d s.clocks.wclk n (feCtrlTaken d s) :=
  (frontWrite_running d hw (by decide) (by decide)).trans (writeFeCtrl_single s.clocks.wclk hn hd hother)

/-- Noting a fault mute moves no ZERO mute, and without a fault there is nothing to note (R174, R182). -/
theorem noteFault_spec (f : FrontEnd) : ChanOnly f (noteFault f) ∧ (∀ n, (chanOf (noteFault f) n).muteEnd = (chanOf f n).muteEnd)
    ∧ (f.fault = false → noteFault f = f) := by
  refine ⟨foldl_chanOnly (fun f n => ?_) _ _, fun n => ?_, fun h => ?_⟩
  · split <;> exact rfl
  · refine chanOf_foldl_keeps Channel.muteEnd (fun f m => ?_) _ f n
    split
    · refine chanOf_modChan_keeps Channel.muteEnd ?_ f
      exact fun _ => rfl
    · exact fun _ => rfl
  · simp [noteFault, faultMuted, h]

theorem feCtrlTaken_spec (d : Word) (s : State) : ∃ c, feCtrlTaken d s = { s with fe := { s.fe with feCtrl := d, chan := c } }
    ∧ (∀ n, (sget .init c n).muteEnd = (chanOf s.fe n).muteEnd) ∧ (s.fe.fault = false → c = s.fe.chan) := by
  obtain ⟨honly, hmute, hnone⟩ := noteFault_spec s.fe
  refine ⟨(noteFault s.fe).chan, ?_, hmute, fun h => congrArg FrontEnd.chan (hnone h)⟩
  exact congrArg (fun f : FrontEnd => { s with fe := { f with feCtrl := d } }) honly

section chanSettings
variable (w : Word) {n : Nat}

theorem effGain_putBit {i : Nat} (b : Bool) (hi : i < 4) : effGain (putBit w i b) n = effGain w n := by
  rw [effGain, field_putBit _ _ _ (by omega), effGain]

/-- A bit of another channel leaves a channel's settings. -/
theorem chanSettings_putBit {i : Nat} (b : Bool) (hn : n < 2) (hi : i < 4) (h : n ≠ i ∧ 2 + n ≠ i) :
    chanSettings (putBit w i b) n = chanSettings w n := by
  rw [chanSettings, getLsbD_putBit _ _ _ _ (by omega), getLsbD_putBit _ _ _ _ (by omega), if_neg h.1, if_neg h.2,
    effGain_putBit _ _ hi, chanSettings]

theorem chanSettings_enable (b : Bool) (hn : n < 2) : chanSettings (putBit w n b) n = (b, (chanSettings w n).2) := by
  rw [chanSettings, getLsbD_putBit _ _ _ _ (by omega), getLsbD_putBit _ _ _ _ (by omega), if_pos rfl, if_neg (by omega),
    effGain_putBit _ _ (by omega), chanSettings]

theorem chanSettings_biased (b : Bool) (hn : n < 2) : chanSettings (putBit w (2 + n) b) n = (w.getLsbD n, b, effGain w n) := by
  rw [chanSettings, getLsbD_putBit _ _ _ _ (by omega), getLsbD_putBit _ _ _ _ (by omega), if_pos rfl, if_neg (by omega),
    effGain_putBit _ _ (by omega)]

theorem chanSettings_gain (x : Nat) (hn : n < 2) : chanSettings (withField w (4 + 4 * n) 3 x) n =
    (w.getLsbD n, w.getLsbD (2 + n), min (x % 8) 5) := by
  rw [chanSettings, getLsbD_withField_other _ _ (by omega) (by omega), getLsbD_withField_other _ _ (by omega) (by omega), effGain,
    field_withField_same _ _ (by omega)]
  rfl

theorem chanSettings_gain_other {k : Nat} (x : Nat) (hn : n < 2) (hk : k < 2) (h : n ≠ k) :
    chanSettings (withField w (4 + 4 * k) 3 x) n = chanSettings w n := by
  rw [chanSettings, getLsbD_withField_other _ _ (by omega) (by omega), getLsbD_withField_other _ _ (by omega) (by omega), effGain,
    field_withField_other _ _ (by omega) (by omega), ← effGain, chanSettings]

end chanSettings

/-- The bits that G_FE_CTRL has (R197). -/
theorem feCtrl_bits : ∀ n < 2, (0x77F : Word).getLsbD n = true ∧ (0x77F : Word).getLsbD (2 + n) = true
    ∧ ∀ j < 3, (0x77F : Word).getLsbD (4 + 4 * n + j) = true := by decide

/-- A channel's mute ends reached, its FE bit sets (R183). -/
theorem settleFe_due {n : Nat} {s : State} (howes : (chanOf s.fe n).owesFe = true) (hon : s.fe.feCtrl.getLsbD n = true)
    (hmic : s.mon.rails.mic = true) (hmute : (chanOf s.fe n).muteEnd ≤ s.clocks.wclk) (hbias : s.fe.biasOwes.getLsbD n = false) :
    settleFe n s = { s with fe := putChan n { chanOf s.fe n with feBit := true, owesFe := false } s.fe } := by
  have hunmuted : zMuted s n = false := by simp [zMuted, hmute, hbias]
  have hen : feEnabled s.fe n = true := (bitOf_toNat _ _).trans hon
  exact if_pos (by simp [howes, hen, hmic, hunmuted])

/-- Settles O27: each write changes the settings of one channel; the FE bit sets by the branch of its mute's end. -/
theorem channels : Obligations.Channels := by
  unfold Obligations.Channels
  refine ⟨?_, ?_, ?_, ?_, ?_⟩
  · intro s ch hw hoff hmasked
    have hch : ch.toNat < 2 := ch.isLt
    obtain ⟨c, htaken, hmute, hsame⟩ := feCtrlTaken_spec (putBit s.fe.feCtrl ch.toNat true) s
    obtain ⟨f, hstart, honly, howes, hrun, hend, hother⟩ :=
      startChannel_spec ch.toNat s.clocks.wclk { s with fe := { s.fe with feCtrl := putBit s.fe.feCtrl ch.toNat true, chan := c } }
    obtain ⟨_, _, _, hread⟩ := readTrims_frame { s with fe := f }
    have hwrite := frontWrite_feCtrl hw hch (putBit_masked true hmasked (feCtrl_bits _ hch).1)
      (chanSettings_putBit _ _ (by omega) (by omega) (by omega))
    rw [rewriteChannel_enables _ _ (chanSettings_enable _ _ hch) hoff, htaken, hstart, hread] at hwrite
    refine .of_fin hw.1.1 (congrArg (fin s) hwrite) ⟨honly.feCtrl, howes, hrun, ?_, fun hfault => ?_, rfl⟩
    · exact hend.trans (congrArg (max · _) (hmute _))
    · exact (hother _ (by omega)).trans (congrArg (sget Channel.init · _) (hsame hfault))
  · intro s ch hw hon hmasked
    have hch : ch.toNat < 2 := ch.isLt
    obtain ⟨c, htaken, _, hsame⟩ := feCtrlTaken_spec (putBit s.fe.feCtrl ch.toNat false) s
    obtain ⟨f, hstop, hctrl, hfe, howes, harmed, hother⟩ :=
      stopChannel_spec ch.toNat s.clocks.wclk { s with fe := { s.fe with feCtrl := putBit s.fe.feCtrl ch.toNat false, chan := c } }
    have hwrite := frontWrite_feCtrl hw hch (putBit_masked false hmasked (feCtrl_bits _ hch).1)
      (chanSettings_putBit _ _ (by omega) (by omega) (by omega))
    rw [rewriteChannel_disables _ _ (chanSettings_enable _ _ hch) hon, htaken, hstop] at hwrite
    refine .of_fin hw.1.1 (congrArg (fin s) hwrite) ⟨hctrl, hfe, howes, harmed, fun hfault => ?_, rfl, rfl⟩
    exact (hother _ (by omega)).trans (congrArg (sget Channel.init · _) (hsame hfault))
  · intro s ch g hw hmasked hgain
    have hch : ch.toNat < 2 := ch.isLt
    have hsettings := chanSettings_gain s.fe.feCtrl g.toNat hch
    rw [Nat.mod_eq_of_lt g.isLt] at hsettings
    obtain ⟨c, htaken, hmute, hsame⟩ := feCtrlTaken_spec (withField s.fe.feCtrl (4 + 4 * ch.toNat) 3 g.toNat) s
    have hwrite := frontWrite_feCtrl hw hch (withField_masked g.toNat hmasked (feCtrl_bits _ hch).2.2)
      (chanSettings_gain_other _ _ (by omega) hch (by omega))
    rw [rewriteChannel_changesGain _ _ hsettings hgain, htaken] at hwrite
    refine .of_fin hw.1.1 (congrArg (fin s) hwrite) ⟨congrArg (fun x => x.2.2) hsettings, ?_, fun hfault => ?_, rfl⟩
    · exact (congrArg Channel.muteEnd (chanOf_startMute_same _ _ _)).trans (congrArg (max · _) (hmute _))
    · exact (chanOf_startMute_other _ _ (by omega)).trans (congrArg (sget Channel.init · _) (hsame hfault))
  · intro s ch hw hmasked hon hbias
    have hch : ch.toNat < 2 := ch.isLt
    have hsettings := chanSettings_biased s.fe.feCtrl true hch
    rw [hon] at hsettings
    obtain ⟨c, htaken, hmute, _⟩ := feCtrlTaken_spec (putBit s.fe.feCtrl (2 + ch.toNat) true) s
    have hwrite := frontWrite_feCtrl hw hch (putBit_masked true hmasked (feCtrl_bits _ hch).2.1)
      (chanSettings_putBit _ _ (by omega) (by omega) (by omega))
    rw [rewriteChannel_biases _ _ hsettings hon hbias, htaken] at hwrite
    refine .of_fin hw.1.1 (congrArg (fin s) hwrite) ⟨rfl, ?_, rfl⟩
    exact (congrArg Channel.muteEnd (chanOf_startMute_same _ _ _)).trans (congrArg (max · _) (hmute _))
  · intro s ch hlive hmic hon howes hmute hbias
    exact .of_fin hlive (congrArg (fin s) (settleFe_due howes hon hmic hmute hbias)) rfl

/-! ## ZERO mutes on several channels (R183) -/

/-- A ZERO mute on each channel that a list names. -/
def muteAll (ks : List Nat) (u : Nat) (f : FrontEnd) : FrontEnd := ks.foldl (fun f n => startMute n u f) f

theorem startMute_chanOnly (n u : Nat) (f : FrontEnd) : ChanOnly f (startMute n u f) := rfl

theorem muteAll_chanOnly (ks : List Nat) (u : Nat) (f : FrontEnd) : ChanOnly f (muteAll ks u f) :=
  foldl_chanOnly (fun f n => startMute_chanOnly n u f) ks f

theorem muteEnd_muteAll (ks : List Nat) (u : Nat) (f : FrontEnd) (n : Nat) :
    (chanOf (muteAll ks u f) n).muteEnd = if n ∈ ks then max (chanOf f n).muteEnd u else (chanOf f n).muteEnd := by
  induction ks generalizing f with
  | nil => rfl
  | cons k ks ih =>
    refine (ih (startMute k u f)).trans ?_
    by_cases hk : k = n
    · simp [hk]
    · simp [chanOf_startMute_other _ _ hk, Ne.symm hk]

theorem mem_channels {n : Nat} (h : n < 2) : n ∈ [0, 1] := by
  rw [List.mem_pair]
  omega

theorem mem_mutedChannels {f : FrontEnd} {n : Nat} :
    n ∈ mutedChannels f ↔ n < 2 ∧ f.feCtrl.getLsbD n = true ∧ f.feCtrl.getLsbD (2 + n) = true := by
  have hlt : n ∈ [0, 1] ↔ n < 2 := ⟨fun h => by rw [List.mem_pair] at h; omega, mem_channels⟩
  rw [mutedChannels, List.mem_filter, hlt, Bool.and_eq_true, feEnabled, feBiased, bitOf_toNat, bitOf_toNat]

/-! ## The bias generator (R180, R183, R189) -/

/-- A ramp of the bias mutes the biased channels, and those that a disable left muted, until 4 ms past its end (R183). -/
theorem biasRamp_spec (volt at_ : Nat) (s : State) : let r := startRamp at_ (voltUnits volt) s.fe
    ∃ c, biasRamp volt at_ s = { s with fe := { r with chan := c, biasOwes := 0 } }
      ∧ ∀ n < 2, (s.fe.feCtrl.getLsbD n = true ∧ s.fe.feCtrl.getLsbD (2 + n) = true) ∨ s.fe.biasOwes.getLsbD n = true →
        (sget .init c n).muteEnd = max (chanOf s.fe n).muteEnd (rampEndAt r + 49152) := by
  intro r
  let u := rampEndAt r + msClocks 4
  let ks := mutedChannels r ++ [0, 1].filter (fun n => r.biasOwes.getLsbD n)
  have hmutes : [0, 1].foldl (fun f n => if r.biasOwes.getLsbD n then startMute n u f else f) (muteBiased u r) = muteAll ks u r :=
    List.foldl_filter.symm.trans List.foldl_append.symm
  refine ⟨(muteAll ks u r).chan, ?_, fun n hn hcause => ?_⟩
  · exact (congrArg (fun f : FrontEnd => { s with fe := { f with biasOwes := 0 } }) (hmutes.trans (muteAll_chanOnly ks u r)) :)
  · have hmem : n ∈ ks := List.mem_append.mpr (hcause.imp (fun h => mem_mutedChannels.mpr ⟨hn, h⟩)
      (fun h => List.mem_filter.mpr ⟨mem_channels hn, h⟩))
    exact (muteEnd_muteAll ks u r n).trans (if_pos hmem)

/-- A disabled bias ramps to 0 V, and HDRM and LIMIT read 0 (R181, R196). -/
theorem biasOff_spec (at_ : Nat) (s : State) : ∃ f, biasOff at_ s = { s with fe := f } ∧ f.micbCtrl = s.fe.micbCtrl ∧ f.ramping = true
    ∧ f.rampGoal = 0 ∧ f.rampFrom = rampValue s.fe at_ ∧ f.hdrm = false ∧ f.limit = false := by
  have honly : ChanOnly (startRamp at_ 0 s.fe) (muteAll (mutedChannels (startRamp at_ 0 s.fe)) 0 (startRamp at_ 0 s.fe)) :=
    muteAll_chanOnly _ _ _
  refine ⟨_, rfl, ?_, ?_, ?_, ?_, rfl, rfl⟩
  · exact (congrArg FrontEnd.micbCtrl honly).trans rfl
  · exact (congrArg FrontEnd.ramping honly).trans rfl
  · exact (congrArg FrontEnd.rampGoal honly).trans rfl
  · exact (congrArg FrontEnd.rampFrom honly).trans rfl

/-! ## G_MICB_CTRL (R183, R189, R191) -/

/-- The front end with a new value of G_MICB_CTRL. -/
def micbTaken (d : Word) (s : State) : State := onFe (fun f => { f with micbCtrl := d }) s

section writeMicbCtrl
variable {d : Word} (at_ : Nat) {s : State} (hd : d &&& 0x1F = d)
include hd

theorem writeMicbCtrl_enables (hon : d.getLsbD 0 = true) (hoff : s.fe.micbCtrl.getLsbD 0 = false) (hmic : s.mon.rails.mic = true) :
    writeMicbCtrl d at_ s = readTrims (biasRamp (field d.toNat 1 2) at_ (micbTaken d s)) := by
  unfold writeMicbCtrl
  simp only [hd, bitOf_toNat, hon, hoff, hmic]
  exact (if_pos rfl).trans (congrArg readTrims (if_pos rfl))

theorem writeMicbCtrl_disables (hoff : d.getLsbD 0 = false) (hon : s.fe.micbCtrl.getLsbD 0 = true) :
    writeMicbCtrl d at_ s = biasOff at_ (micbTaken d s) := by
  unfold writeMicbCtrl
  simp only [hd, bitOf_toNat, hon, hoff]
  rfl

theorem writeMicbCtrl_changesVolt (hon : d.getLsbD 0 = true) (hwas : s.fe.micbCtrl.getLsbD 0 = true) (hmic : s.mon.rails.mic = true)
    (hvolt : field d.toNat 1 2 ≠ field s.fe.micbCtrl.toNat 1 2) :
    writeMicbCtrl d at_ s = biasRamp (field d.toNat 1 2) at_ (micbTaken d s) := by
  unfold writeMicbCtrl
  simp only [hd, bitOf_toNat, hon, hwas, hmic]
  exact if_pos hvolt

theorem writeMicbCtrl_changesRange (hon : d.getLsbD 0 = true) (hwas : s.fe.micbCtrl.getLsbD 0 = true)
    (hvolt : field d.toNat 1 2 = field s.fe.micbCtrl.toNat 1 2) (hrange : field d.toNat 3 2 ≠ field s.fe.micbCtrl.toNat 3 2) :
    writeMicbCtrl d at_ s = onFe (muteBiased (at_ + 49152)) (micbTaken d s) := by
  unfold writeMicbCtrl
  simp only [hd, bitOf_toNat, hon, hwas]
  exact (if_neg (not_not.mpr hvolt)).trans (if_pos hrange)

end writeMicbCtrl

/-- A command's own G_MICB_CTRL word (R80). -/
theorem frontWrite_micbCtrl {s : State} (d : Word) (hw : WatchHears s) : frontWrite 0x141 d s = writeMicbCtrl d s.clocks.wclk s :=
  frontWrite_running d hw (by decide) (by decide)

/-- The bits that G_MICB_CTRL has (R197). -/
theorem micbCtrl_bits : ∀ j < 5, (0x1F : Word).getLsbD j = true := by decide

/-- The generator's goal is reached (R180). -/
theorem rampDone_due {s : State} (hramp : s.fe.ramping = true) (hend : rampEndAt s.fe ≤ s.clocks.wclk) :
    rampDone s = { s with fe := { s.fe with ramping := false, rampFrom := s.fe.rampGoal, rampStart := s.clocks.wclk } } :=
  if_pos (by simp [hramp, hend])

/-- Settles O28: each write of G_MICB_CTRL by the branch that it takes. -/
theorem biasRamps : Obligations.BiasRamps := by
  unfold Obligations.BiasRamps
  refine ⟨?_, ?_, ?_, ?_, ?_⟩
  · intro s hw hmic hmasked hoff
    have hon : (putBit s.fe.micbCtrl 0 true).getLsbD 0 = true := getLsbD_putBit _ 0 0 true (by decide)
    have hvolt : field (putBit s.fe.micbCtrl 0 true).toNat 1 2 = s.fe.micbCtrl.toNat / 2 % 4 :=
      (field_putBit _ _ _ (.inl (by decide))).trans (field_eq _ 1 2)
    obtain ⟨c, hramp, hmute⟩ := biasRamp_spec (s.fe.micbCtrl.toNat / 2 % 4) s.clocks.wclk (micbTaken (putBit s.fe.micbCtrl 0 true) s)
    have hwrite := (frontWrite_micbCtrl (putBit s.fe.micbCtrl 0 true) hw).trans
      (writeMicbCtrl_enables s.clocks.wclk (putBit_masked true hmasked (micbCtrl_bits 0 (by decide))) hon hoff hmic)
    rw [hvolt, hramp] at hwrite
    obtain ⟨_, _, _, hread⟩ := readTrims_frame _
    exact .of_fin hw.1.1 (congrArg (fin s) (hwrite.trans hread)) ⟨rfl, rfl, rfl, rfl, rfl, hmute, rfl, rfl⟩
  · intro s hw hmasked hon
    have hoff : (putBit s.fe.micbCtrl 0 false).getLsbD 0 = false := getLsbD_putBit _ 0 0 false (by decide)
    obtain ⟨f, hbias, hctrl, hramp, hgoal, hfrom, hhdrm, hlimit⟩ :=
      biasOff_spec s.clocks.wclk (micbTaken (putBit s.fe.micbCtrl 0 false) s)
    have hwrite := (frontWrite_micbCtrl (putBit s.fe.micbCtrl 0 false) hw).trans
      (writeMicbCtrl_disables s.clocks.wclk (putBit_masked false hmasked (micbCtrl_bits 0 (by decide))) hoff hon)
    exact .of_fin hw.1.1 (congrArg (fin s) (hwrite.trans hbias)) ⟨hctrl, hramp, hgoal, hhdrm, hlimit, hfrom, rfl⟩
  · intro s v hw hmic hmasked hwas hdiff
    have hon : (withField s.fe.micbCtrl 1 2 v.toNat).getLsbD 0 = true :=
      (getLsbD_withField_other _ _ (.inl (by decide)) (by decide)).trans hwas
    have hvolt : field (withField s.fe.micbCtrl 1 2 v.toNat).toNat 1 2 = v.toNat :=
      (field_withField_same _ _ (by decide)).trans (Nat.mod_eq_of_lt v.isLt)
    obtain ⟨c, hramp, _⟩ := biasRamp_spec v.toNat s.clocks.wclk (micbTaken (withField s.fe.micbCtrl 1 2 v.toNat) s)
    have hwrite := (frontWrite_micbCtrl (withField s.fe.micbCtrl 1 2 v.toNat) hw).trans
      (writeMicbCtrl_changesVolt s.clocks.wclk (withField_masked _ hmasked fun j hj => micbCtrl_bits _ (by omega)) hon hwas hmic
        (by rw [hvolt]; exact fun h => hdiff (h.trans (field_eq _ 1 2))))
    rw [hvolt, hramp] at hwrite
    exact .of_fin hw.1.1 (congrArg (fin s) hwrite) ⟨(field_eq _ 1 2).symm.trans hvolt, rfl, rfl, rfl, rfl, rfl⟩
  · intro s r hw hmasked hwas hdiff
    have hon : (withField s.fe.micbCtrl 3 2 r.toNat).getLsbD 0 = true :=
      (getLsbD_withField_other _ _ (.inl (by decide)) (by decide)).trans hwas
    have hrange : field (withField s.fe.micbCtrl 3 2 r.toNat).toNat 3 2 = r.toNat :=
      (field_withField_same _ _ (by decide)).trans (Nat.mod_eq_of_lt r.isLt)
    have hwrite := (frontWrite_micbCtrl (withField s.fe.micbCtrl 3 2 r.toNat) hw).trans
      (writeMicbCtrl_changesRange s.clocks.wclk (withField_masked _ hmasked fun j hj => micbCtrl_bits _ (by omega)) hon hwas
        (field_withField_other _ _ (.inl (by decide)) (by decide))
        (by rw [hrange]; exact fun h => hdiff (h.trans (field_eq _ 3 2))))
    have honly := muteAll_chanOnly (mutedChannels s.fe) (s.clocks.wclk + 49152) (micbTaken (withField s.fe.micbCtrl 3 2 r.toNat) s).fe
    refine .of_fin hw.1.1 (congrArg (fin s) hwrite) ⟨?_, ?_, fun n hn hen hbiased => ?_, rfl⟩
    · exact (congrArg (fun f : FrontEnd => f.micbCtrl.toNat / 8 % 4) honly).trans ((field_eq _ 3 2).symm.trans hrange)
    · exact (congrArg FrontEnd.ramping honly).trans rfl
    · exact (muteEnd_muteAll _ _ _ n).trans (if_pos (mem_mutedChannels.mpr ⟨hn, hen, hbiased⟩))
  · intro s hlive hramp hend
    exact .of_fin hlive (congrArg (fin s) (rampDone_due hramp hend)) rfl

/-! ## HDRM, LIMIT and the bias fault (R181, R182, R189, R193) -/

/-- With no counter selected, an event of the watchman leaves the counts. -/
theorem watchTally_unselected (src n : Nat) {s : State} (h : s.wtally.sel = []) : ∃ clk evs was b, watchTally src n s =
    { s with wtally := { s.wtally with evClk := clk, evs := evs, was := was, cleared := b } } := by
  unfold watchTally rollWatch
  split
  · exact ⟨_, _, _, _, rfl⟩
  · split
    all_goals
      dsimp only
      rw [h]
      exact ⟨_, _, _, _, rfl⟩

/-- The front end once HDRM and LIMIT read otherwise (R181, R182). -/
def FrontEnd.conditions (hdrm limit : Bool) (now : Nat) (f : FrontEnd) : FrontEnd :=
  { f with
    hdrm := hdrm, limit := limit, hdrmSeen := f.hdrmSeen || (hdrm && !f.hdrm), limitSeen := f.limitSeen || (limit && !f.limit)
    hdrmSince := stoodSince f.hdrm hdrm f.hdrmSince now, limitSince := stoodSince f.limit limit f.limitSince now
    goodSince := if hdrm || limit then none else (if f.hdrm || f.limit then some now else f.goodSince) }

section conditions
variable {f : FrontEnd} (now : Nat)

theorem conditions_hdrmRises (hhdrm : f.hdrm = false) (hlimit : f.limit = false) : f.conditions true f.limit now = { f with
    hdrm := true, hdrmSeen := true, hdrmSince := some now, limitSince := none, goodSince := none } := by
  simp [FrontEnd.conditions, stoodSince, hhdrm, hlimit]

theorem conditions_hdrmFalls (hhdrm : f.hdrm = true) (hlimit : f.limit = false) : f.conditions false f.limit now = { f with
    hdrm := false, hdrmSince := none, limitSince := none, goodSince := some now } := by
  simp [FrontEnd.conditions, stoodSince, hhdrm, hlimit]

theorem conditions_limitRises (hhdrm : f.hdrm = false) (hlimit : f.limit = false) : f.conditions f.hdrm true now = { f with
    limit := true, limitSeen := true, limitSince := some now, hdrmSince := none, goodSince := none } := by
  simp [FrontEnd.conditions, stoodSince, hhdrm, hlimit]

end conditions

/-- With no counter selected, HDRM and LIMIT change the front end, and the watchman's books of the clock (R193, R451). -/
theorem setBiasConditions_unselected (hdrm limit : Bool) {s : State} (h : s.wtally.sel = []) : ∃ clk evs was b,
    setBiasConditions hdrm limit s = { s with
      fe := s.fe.conditions hdrm limit s.clocks.wclk
      wtally := { s.wtally with evClk := clk, evs := evs, was := was, cleared := b } } := by
  obtain ⟨clk, evs, was, b, hfirst⟩ := watchTally_unselected 0x0B (if hdrm && !s.fe.hdrm then 1 else 0)
    (s := { s with fe := s.fe.conditions hdrm limit s.clocks.wclk }) h
  obtain ⟨clk', evs', was', b', hsecond⟩ := watchTally_unselected 0x0C (if limit && !s.fe.limit then 1 else 0)
    (s := { s with
      fe := s.fe.conditions hdrm limit s.clocks.wclk
      wtally := { s.wtally with evClk := clk, evs := evs, was := was, cleared := b } }) h
  exact ⟨clk', evs', was', b', (congrArg (watchTally 0x0C _) hfirst).trans hsecond⟩

/-- Conditions that do not rise count nothing (R193). -/
theorem setBiasConditions_falls {hdrm limit : Bool} {s : State} (hh : (hdrm && !s.fe.hdrm) = false) (hl : (limit && !s.fe.limit) = false) :
    setBiasConditions hdrm limit s = { s with fe := s.fe.conditions hdrm limit s.clocks.wclk } := by
  unfold setBiasConditions
  simp only [hh, hl]
  rfl

theorem biasOn_eq (f : FrontEnd) : biasOn f = f.micbCtrl.getLsbD 0 := bitOf_toNat _ _

theorem hdrmEffect_judged (on : Bool) {s : State} (hclk : s.wc.aonclk = true) (hbias : s.fe.micbCtrl.getLsbD 0 = true) :
    hdrmEffect on s = setBiasConditions on s.fe.limit s :=
  if_pos (by rw [hclk, biasOn_eq, hbias]; rfl)

/-- LIMIT is judged once the generator has stood for 1 ms (R181). -/
theorem limitEffect_judged (on : Bool) {s : State} (hclk : s.wc.aonclk = true) (hbias : s.fe.micbCtrl.getLsbD 0 = true)
    (hramp : s.fe.ramping = false) (hstood : s.fe.rampStart + 12288 ≤ s.clocks.wclk) :
    limitEffect on s = setBiasConditions s.fe.hdrm on s :=
  if_pos (by rw [hclk, biasOn_eq, hbias, hramp]; exact decide_eq_true hstood)

/-- One condition that has stood for 2 ms is enough (R182). -/
theorem stoodTwoMs_of_since {s : State} {b : Nat} (hsince : s.fe.hdrmSince = some b ∨ s.fe.limitSince = some b)
    (hb : b + 24576 ≤ s.clocks.wclk) : stoodTwoMs s = true := by
  obtain h | h := hsince <;> simp [stoodTwoMs, h, msClocks, hb]

/-- The frames of the biased channels are under a fault mute from here on, or were until here (R174, R182). -/
theorem foldl_faultSeen_chanOnly (ks : List Nat) (f : FrontEnd) :
    ChanOnly f (ks.foldl (fun f n => modChan n (fun c => { c with faultSeen := true }) f) f) :=
  foldl_chanOnly (fun f n => modChan_chanOnly n _ f) ks f

/-- The fault raises its alert (R182). -/
theorem biasFault_taken {s : State} (h : stoodTwoMs s = true) : ∃ f,
    biasFault s = raise causeMicb { s with fe := f } ∧ f.fault = true := by
  refine ⟨_, if_neg (by simp [h]), ?_⟩
  refine (congrArg FrontEnd.fault (foldl_faultSeen_chanOnly _ _)).trans ?_
  exact (congrArg FrontEnd.fault (disarmEncoders_encOnly _ _ _)).trans (congrArg FrontEnd.fault (disarmEncoders_encOnly _ _ _))

theorem faultMuteEnd_due {s : State} {g : Nat} (hgood : s.fe.goodSince = some g) (hg : g + 49152 ≤ s.clocks.wclk)
    (hfault : s.fe.fault = true) :
    ∃ f, faultMuteEnd s = { s with fe := f } ∧ f.fault = false := by
  have hpast : ¬ s.clocks.wclk < g + msClocks 4 := Nat.not_lt.mpr hg
  unfold faultMuteEnd
  rw [hgood]
  refine ⟨_, if_neg (by simp [hpast, hfault]), ?_⟩
  exact (congrArg FrontEnd.fault (foldl_faultSeen_chanOnly _ _)).trans rfl

/-! ## VDDA_MIC (R191) -/

/-- A channel's FE bit is down, and its frame and its enable's mute with it (R148, R196). -/
def dropFeBit (c : Channel) : Channel := { c with feBit := false, feBroken := true, owesFe := false }

/-- A channel's decimators stop at a clock where they ran (R191, R196). -/
def stopDecimators (now : Nat) (f : FrontEnd) (n : Nat) : FrontEnd :=
  modChan n (fun c => { c with cleanRun := 0, edges := if feEnabled f n then c.edges ++ [(now, false)] else c.edges }) f

theorem stopDecimators_chanOnly (now : Nat) (f : FrontEnd) (n : Nat) : ChanOnly f (stopDecimators now f n) :=
  modChan_chanOnly n _ f

theorem feBit_stopDecimators (now : Nat) (f : FrontEnd) (n m : Nat) : (chanOf (stopDecimators now f n) m).feBit = (chanOf f m).feBit := by
  refine chanOf_modChan_keeps Channel.feBit ?_ f m
  exact fun _ => rfl

/-- Both channels without VDDA_MIC (R191). -/
def stopBoth (now : Nat) (f : FrontEnd) : FrontEnd := [0, 1].foldl (stopDecimators now) (modChan 1 dropFeBit (modChan 0 dropFeBit f))

theorem stopBoth_spec (now : Nat) (f : FrontEnd) : ChanOnly f (stopBoth now f) ∧ (chanOf (stopBoth now f) 0).feBit = false
    ∧ (chanOf (stopBoth now f) 1).feBit = false := by
  have hdropped : ChanOnly f (modChan 1 dropFeBit (modChan 0 dropFeBit f)) := (modChan_chanOnly _ _ _).trans (modChan_chanOnly _ _ _)
  have hfe := chanOf_foldl_keeps Channel.feBit (feBit_stopDecimators now) [0, 1] (modChan 1 dropFeBit (modChan 0 dropFeBit f))
  refine ⟨hdropped.trans (foldl_chanOnly (stopDecimators_chanOnly now) [0, 1] _), (hfe 0).trans ?_, (hfe 1).trans ?_⟩
  · rw [chanOf_modChan_other _ _ (by decide), chanOf_modChan_same]
    rfl
  · rw [chanOf_modChan_same]
    rfl

/-- The bias output is off (R191). -/
def biasOutputOff (now : Nat) (f : FrontEnd) : FrontEnd := { f with ramping := false, rampFrom := 0, rampGoal := 0, rampStart := now }

/-- Without VDDA_MIC every encoder is disarmed, the bias output is off, both channels stop and the loft's run is over (R191, R196). -/
theorem micLost_eq (s : State) : micLost s = { s with
    fe := stopBoth s.clocks.wclk (disarmEncoders 0 72 (biasOutputOff s.clocks.wclk s.fe)), loft := { s.loft with feRun := 0 } } := by
  have hrun : (if (if s.loft.ch then 1 else 0) = 1 then 0 else if (if s.loft.ch then 1 else 0) = 0 then 0 else s.loft.feRun) = 0 := by
    cases s.loft.ch <;> rfl
  unfold micLost
  rw [dropFe_eq, dropFe_eq]
  generalize disarmEncoders 0 72 = disarm
  exact congrArg (fun n => { s with
    fe := stopBoth s.clocks.wclk (disarm (biasOutputOff s.clocks.wclk s.fe)), loft := { s.loft with feRun := n } }) hrun

/-- A channel that is enabled restarts, and the other stays (R191). -/
theorem restart_spec (n : Nat) (s : State) : ∃ f, (if feEnabled s.fe n then startChannel n s.clocks.wclk s else s) = { s with fe := f }
    ∧ ChanOnly s.fe f ∧ (s.fe.feCtrl.getLsbD n = true → (chanOf f n).owesFe = true
      ∧ (chanOf f n).muteEnd = max (chanOf s.fe n).muteEnd (s.clocks.wclk + 122880)) ∧ ∀ m, n ≠ m → chanOf f m = chanOf s.fe m := by
  have hen : feEnabled s.fe n = s.fe.feCtrl.getLsbD n := bitOf_toNat _ _
  rw [hen]
  cases s.fe.feCtrl.getLsbD n with
  | false => exact ⟨s.fe, rfl, rfl, fun h => absurd h (by decide), fun _ _ => rfl⟩
  | true =>
    obtain ⟨f, hstart, honly, howes, _, hmute, hother⟩ := startChannel_spec n s.clocks.wclk s
    exact ⟨f, hstart, honly, fun _ => ⟨howes, hmute⟩, hother⟩

/-- With the bias off, the return of VDDA_MIC restarts the enabled channels (R191). -/
theorem micBack_spec {s : State} (hbias : s.fe.micbCtrl.getLsbD 0 = false) : ∃ f, micBack s = { s with fe := f }
    ∧ ∀ n < 2, s.fe.feCtrl.getLsbD n = true → (chanOf f n).owesFe = true
      ∧ (chanOf f n).muteEnd = max (chanOf s.fe n).muteEnd (s.clocks.wclk + 122880) := by
  obtain ⟨f, hfirst, honly, hrestart0, hother0⟩ := restart_spec 0 s
  obtain ⟨g, hsecond, _, hrestart1, hother1⟩ := restart_spec 1 { s with fe := f }
  refine ⟨g, ?_, fun n hn hen => ?_⟩
  · unfold micBack
    dsimp only [List.foldl_cons, List.foldl_nil]
    rw [hfirst]
    exact (if_neg (by rw [biasOn_eq, hbias]; decide)).trans hsecond
  · obtain rfl | rfl : n = 0 ∨ n = 1 := by omega
    · rw [hother1 0 (by decide)]
      exact hrestart0 hen
    · obtain ⟨howes, hmute⟩ := hrestart1 ((congrArg (·.getLsbD 1) honly.feCtrl).trans hen)
      exact ⟨howes, hmute.trans (congrArg (fun c : Channel => max c.muteEnd _) (hother0 1 (by decide)))⟩

/-- Settles O29: each condition by what it does to the front end, and VDDA_MIC by what it does to each channel. -/
theorem biasFaults : Obligations.BiasFaults := by
  unfold Obligations.BiasFaults
  refine ⟨?_, ?_, ?_, ?_, ?_, ?_, ?_⟩
  · intro s ⟨hlive, hclk⟩ hbias hhdrm hlimit hsel
    obtain ⟨_, _, _, _, hset⟩ := setBiasConditions_unselected true s.fe.limit hsel
    rw [conditions_hdrmRises _ hhdrm hlimit] at hset
    exact .of_fin hlive (congrArg (fin s) ((hdrmEffect_judged true hclk hbias).trans hset)) rfl
  · intro s ⟨hlive, hclk⟩ hbias hhdrm hlimit
    have hset := setBiasConditions_falls (hdrm := false) (limit := s.fe.limit) (s := s) rfl (by simp [hlimit])
    rw [conditions_hdrmFalls _ hhdrm hlimit] at hset
    exact .of_fin hlive (congrArg (fin s) ((hdrmEffect_judged false hclk hbias).trans hset)) rfl
  · intro s ⟨hlive, hclk⟩ hbias hhdrm hlimit hsel hramp hstood
    obtain ⟨_, _, _, _, hset⟩ := setBiasConditions_unselected s.fe.hdrm true hsel
    rw [conditions_limitRises _ hhdrm hlimit] at hset
    exact .of_fin hlive (congrArg (fin s) ((limitEffect_judged true hclk hbias hramp hstood).trans hset)) rfl
  · intro s b hlive hsince hb
    obtain ⟨f, htaken, hfault⟩ := biasFault_taken (stoodTwoMs_of_since hsince hb)
    exact .of_fin hlive (congrArg (fin s) htaken) ⟨hfault, rfl, rfl⟩
  · intro s g hlive hgood hg hfault
    obtain ⟨f, hend, hclear⟩ := faultMuteEnd_due hgood hg hfault
    exact .of_fin hlive (congrArg (fin s) hend) ⟨hclear, rfl⟩
  · intro s hlive hmic
    have hoff := disarmEncoders_encOnly 0 72 (biasOutputOff s.clocks.wclk s.fe)
    have harmed : ∀ i < 72, (encOf (disarmEncoders 0 72 (biasOutputOff s.clocks.wclk s.fe)) i).armed = false :=
      fun i hi => armed_disarmEncoders _ (Nat.zero_le i) (by omega)
    obtain ⟨honly, hfe0, hfe1⟩ := stopBoth_spec s.clocks.wclk (disarmEncoders 0 72 (biasOutputOff s.clocks.wclk s.fe))
    exact .of_fin hlive (congrArg (fin s) ((if_pos hmic).trans (micLost_eq _))) ⟨rfl, hfe0, hfe1,
      fun i hi => (congrArg Encoder.armed (honly.encOf i)).trans (harmed i hi),
      (congrArg FrontEnd.ramping honly).trans (congrArg FrontEnd.ramping hoff),
      (congrArg FrontEnd.rampGoal honly).trans (congrArg FrontEnd.rampGoal hoff), rfl, rfl⟩
  · intro s ⟨hlive, hclk⟩ hmic hbias
    obtain ⟨f, hback, hrestart⟩ := micBack_spec (s := micRail true s) hbias
    exact .of_fin hlive (congrArg (fin s) ((if_neg (by simp [hmic])).trans ((if_pos hclk).trans hback))) ⟨rfl, hrestart, rfl⟩

/-! ## Encoder settings and HQ_EN (R183, R190) -/

/-- The bits that G_FB_CTRL, G_DEC_CTRL and G_SENS_CTRL0 have and that commands put one by one (R197). -/
theorem enable_bits : (∀ n < 2, (0x3FFF3 : Word).getLsbD n = true) ∧ (0xF : Word).getLsbD 0 = true
    ∧ (0x1FFFF : Word).getLsbD 0 = true := by decide

theorem foldl_muteEnabled (u : Nat) (ks : List Nat) (f : FrontEnd) :
    ks.foldl (fun f n => if feEnabled f n then startMute n u f else f) f = muteAll (ks.filter (feEnabled f)) u f := by
  induction ks generalizing f with
  | nil => rfl
  | cons k ks ih =>
    have hkeeps : feEnabled (startMute k u f) = feEnabled f := rfl
    rw [List.foldl_cons, List.filter_cons]
    split
    · rw [ih, hkeeps]
      rfl
    · exact ih f

/-- A change of HQ_EN mutes the enabled channels for 6 ms (R183). -/
theorem writeDecCtrl_changesHq {d : Word} (at_ : Nat) {s : State} (hd : d &&& 0xF = d) (h : d.getLsbD 0 ≠ s.fe.decCtrl.getLsbD 0) : ∃ f,
    writeDecCtrl d at_ s = { s with fe := f } ∧ f.decCtrl = d
      ∧ ∀ n < 2, s.fe.feCtrl.getLsbD n = true → (chanOf f n).muteEnd = max (chanOf s.fe n).muteEnd (at_ + 73728) := by
  let noted : FrontEnd := { s.fe with decCtrl := d, hqEdges := s.fe.hqEdges ++ [(at_, bitOf d.toNat 0)] }
  let ks := [0, 1].filter (feEnabled noted)
  have hchange : ¬ (bitOf d.toNat 0 == bitOf s.fe.decCtrl.toNat 0) = true := by
    rw [bitOf_toNat, bitOf_toNat, beq_iff_eq]
    exact h
  refine ⟨muteAll ks (at_ + 73728) noted, ?_, (congrArg FrontEnd.decCtrl (muteAll_chanOnly ks _ noted)).trans rfl, fun n hn hen => ?_⟩
  · unfold writeDecCtrl
    simp only [hd]
    exact (if_neg hchange).trans (congrArg (fun f => { s with fe := f }) (foldl_muteEnabled (at_ + 73728) [0, 1] noted))
  · have hmem : n ∈ ks := List.mem_filter.mpr ⟨mem_channels hn, (bitOf_toNat _ _).trans hen⟩
    exact (muteEnd_muteAll ks _ noted n).trans (if_pos hmem)

/-! ## The sensor port (R184, R185, R190) -/

/-- A slice that is the whole list. -/
theorem slice_whole {bs : List Byte} {n : Nat} (h : bs.length = n) : slice bs 0 n = bs := by
  simp [slice, ← h]

/-- A command's own G_SENS_CTRL0 word (R80). -/
theorem frontWrite_sens0 {s : State} (d : Word) (hw : WatchHears s) : frontWrite 0x148 d s = writeSens0 d s :=
  frontWrite_running d hw (by decide) (by decide)

section writeSens0
variable {d : Word} {s : State} (hd : d &&& 0x1FFFF = d)
include hd

/-- EN rising starts the ticks at the present clock (R190, log 24). -/
theorem writeSens0_enables (hon : d.getLsbD 0 = true) (hoff : s.fe.sens0.getLsbD 0 = false) : writeSens0 d s = { s with
    fe := { s.fe with sens0 := d, nextTick := s.clocks.wclk, taken := 0, axisHist := [], sensReady := false } } := by
  unfold writeSens0
  simp only [hd, bitOf_toNat, hon, hoff]
  rfl

/-- EN falling lets a transaction in progress complete (R190). -/
theorem writeSens0_disables_busy (hoff : d.getLsbD 0 = false) (hon : s.fe.sens0.getLsbD 0 = true) (hbusy : s.fe.sensBusy = true) :
    writeSens0 d s = { s with fe := { s.fe with sens0 := d, sensReady := false } } := by
  unfold writeSens0
  simp only [hd, bitOf_toNat, hon, hoff]
  exact congrArg (fun f => { s with fe := f }) (if_pos hbusy)

end writeSens0

/-- The settings of the sensor port take effect; what they rebase is the samples and the feature encoders (R190). -/
theorem applySensor_frame (s : State) : ∃ taken hist e, applySensor s = { s with fe := { s.fe with
    sensNow0 := s.fe.sens0, sensNow1 := s.fe.sens1, sensNow2 := s.fe.sens2, taken := taken, axisHist := hist, enc := e } } := by
  unfold applySensor onFe
  dsimp only
  split <;> split
  · exact ⟨_, _, _, congrArg (fun f => { s with fe := f }) (disarmEncoders_encOnly 64 8 _)⟩
  · exact ⟨_, _, _, congrArg (fun f => { s with fe := f }) (disarmEncoders_encOnly 64 8 _)⟩
  · exact ⟨_, _, _, rfl⟩
  · exact ⟨_, _, _, rfl⟩

/-- A sample tick of an idle port starts a transaction under the settings that it brings into force (R184, R190). -/
theorem sampleTickEffect_due {s : State} (hclk : s.wc.aonclk = true) (hon : s.fe.sens0.getLsbD 0 = true)
    (hdue : s.fe.nextTick ≤ s.clocks.wclk) (hpins : pinsTested s = false) (hidle : s.fe.sensBusy = false) :
    ∃ taken hist e, sampleTickEffect s = { s with fe := { s.fe with
      sensNow0 := s.fe.sens0, sensNow1 := s.fe.sens1, sensNow2 := s.fe.sens2, taken := taken, axisHist := hist, enc := e
      nextTick := s.fe.nextTick + 122880 / 2 ^ min (s.fe.sens0.toNat / 16 % 8) 4
      sensBusy := true, sensStart := s.clocks.wclk, sensTxn := (s.fe.sens0, s.fe.sens1) } } := by
  obtain ⟨taken, hist, e, happly⟩ := applySensor_frame s
  have hruns : ¬ (!s.wc.aonclk || !bitOf s.fe.sens0.toNat 0 || decide (s.clocks.wclk < s.fe.nextTick)) = true := by
    rw [hclk, bitOf_toNat, hon, decide_eq_false (by omega)]
    decide
  have htick : tickClocks s.fe.sens0 = 122880 / 2 ^ min (s.fe.sens0.toNat / 16 % 8) 4 :=
    congrArg (fun r => 122880 / 2 ^ min r 4) (field_eq _ 4 3)
  refine ⟨taken, hist, e, (if_neg hruns).trans ?_⟩
  rw [happly]
  simp only [onFe, hidle, hpins, htick]
  rfl

/-- A transaction that ends under an enabled port leaves its samples (R185, R190). -/
theorem transactionEnd_due {s : State} (bytes : List Byte) (hbusy : s.fe.sensBusy = true) (hpins : pinsTested s = false)
    (hon : s.fe.sens0.getLsbD 0 = true) (hdue : s.fe.sensStart + txnClocks s.fe.sensTxn.1 ≤ s.clocks.wclk) :
    let bs := slice bytes 0 (sensBytes s.fe.sensTxn.1)
    transactionEnd bytes s = { s with fe := { takeSamples (stuckStep s.fe bs) bs with sensBusy := false, sensReady := true } } := by
  have hends : ¬ (!s.fe.sensBusy || pinsTested s || decide (s.clocks.wclk < s.fe.sensStart + txnClocks s.fe.sensTxn.1)) = true := by
    rw [hbusy, hpins, decide_eq_false (by omega)]
    decide
  exact (if_neg hends).trans (congrArg (fun f => { s with fe := f }) (if_pos ((bitOf_toNat _ 0).trans hon)))

/-- A transaction of two bytes and one axis adds one sample to that axis (R185). -/
theorem takeSamples_single {f : FrontEnd} {bs : List Byte} (hbytes : sensBytes f.sensTxn.1 = 2) (haxes : sensAxes f.sensTxn.1 = 1)
    (hlen : bs.length = 2) : sget [] (takeSamples f bs).axisHist 0 =
      (signed 16 (if f.sensTxn.1.getLsbD 13 then ofLe bs else ofBe bs) :: sget [] f.axisHist 0).take 16 := by
  have huse : axesInUse f.sensTxn.1 = 1 := by rw [axesInUse, hbytes, haxes]; rfl
  have hsample : axisSample (bitOf f.sensTxn.1.toNat 13) bs 0 = signed 16 (if f.sensTxn.1.getLsbD 13 then ofLe bs else ofBe bs) := by
    rw [axisSample, slice_whole hlen, bitOf_toNat]
  unfold takeSamples
  simp only [huse]
  exact (sget_sput_same _ _ _ _).trans (congrArg (fun x => (x :: sget [] f.axisHist 0).take 16) hsample)

/-- Without their records the trims are zero (R187). -/
theorem readTrims_absent {s : State} (hfe : viewRecord s.gran homeFeTrim = none)
    (hmicb : viewRecord s.gran homeMicbTrim = none) : ∃ old, readTrims s = { s with
      fe := { s.fe with trims := List.replicate 80 0, micbTrims := List.replicate 8 0, oldTrims := old } } := by
  unfold readTrims
  rw [hfe, hmicb]
  exact ⟨_, rfl⟩

/-- Settles O30: each register's write by the branch it takes, the sensor port's events by what they do when due. -/
theorem encodersAndSensors : Obligations.EncodersAndSensors := by
  unfold Obligations.EncodersAndSensors
  obtain ⟨hfbBits, hdecBit, hsensBit⟩ := enable_bits
  refine ⟨?_, ?_, ?_, ?_, ?_, ?_, ?_, ?_, ?_⟩
  · intro s ch hw hmasked
    have hwrite := (frontWrite_running (putBit s.fe.fbCtrl ch.toNat true) hw (a := 0x144) (by decide) (by decide)).trans
      (congrArg (fun d => onFe (fun f => { f with fbCtrl := d }) s) (putBit_masked true hmasked (hfbBits ch.toNat ch.isLt)))
    exact .of_fin hw.1.1 (congrArg (fin s) hwrite) rfl
  · intro s d hw
    exact .of_fin hw.1.1 (congrArg (fin s) (frontWrite_running d hw (a := 0x144) (by decide) (by decide))) rfl
  · intro s hw hmasked hoff
    have hon : (putBit s.fe.decCtrl 0 true).getLsbD 0 = true := getLsbD_putBit _ 0 0 true (by decide)
    obtain ⟨f, hchange, hctrl, hmute⟩ := writeDecCtrl_changesHq s.clocks.wclk (putBit_masked true hmasked hdecBit)
      (by rw [hon, hoff]; decide)
    have hwrite := (frontWrite_running (putBit s.fe.decCtrl 0 true) hw (a := 0x143) (by decide) (by decide)).trans hchange
    exact .of_fin hw.1.1 (congrArg (fin s) hwrite) ⟨hctrl, hmute, rfl⟩
  · intro s hw hmasked hoff
    have hon : (putBit s.fe.sens0 0 true).getLsbD 0 = true := getLsbD_putBit _ 0 0 true (by decide)
    have hwrite := (frontWrite_sens0 (putBit s.fe.sens0 0 true) hw).trans
      (writeSens0_enables (putBit_masked true hmasked hsensBit) hon hoff)
    exact .of_fin hw.1.1 (congrArg (fin s) hwrite) rfl
  · intro s hw hmasked hon hbusy
    have hoff : (putBit s.fe.sens0 0 false).getLsbD 0 = false := getLsbD_putBit _ 0 0 false (by decide)
    have hwrite := (frontWrite_sens0 (putBit s.fe.sens0 0 false) hw).trans
      (writeSens0_disables_busy (putBit_masked false hmasked hsensBit) hoff hon hbusy)
    exact .of_fin hw.1.1 (congrArg (fin s) hwrite) rfl
  · intro s d hw
    exact .of_fin hw.1.1 (congrArg (fin s) (frontWrite_running d hw (a := 0x149) (by decide) (by decide))) rfl
  · intro s ⟨hlive, hclk⟩ hon hdue hpins hidle
    obtain ⟨_, _, _, htick⟩ := sampleTickEffect_due hclk hon hdue hpins hidle
    exact .of_fin hlive (congrArg (fin s) htick) ⟨rfl, rfl, rfl, rfl, rfl, rfl, rfl, rfl⟩
  · intro s bs hlive hbusy hpins hon hdue
    refine .of_fin hlive (congrArg (fin s) (transactionEnd_due bs hbusy hpins hon hdue)) ⟨rfl, rfl, rfl, fun hbytes haxes hlen => ?_, rfl⟩
    have hfield : field s.fe.sensTxn.1.toNat 10 3 = 2 := (field_eq _ 10 3).trans hbytes
    have htwo : sensBytes s.fe.sensTxn.1 = 2 := by rw [sensBytes, hfield]; rfl
    have hone : sensAxes s.fe.sensTxn.1 = 1 := congrArg (max · 1) ((field_eq _ 14 2).trans haxes)
    dsimp only
    rw [htwo, slice_whole hlen]
    exact takeSamples_single (f := stuckStep s.fe bs) htwo hone hlen
  · intro s ⟨hlive, hclk⟩ hfe hmicb
    obtain ⟨old, hread⟩ := readTrims_absent hfe hmicb
    exact .of_fin hlive (congrArg (fin s) ((if_pos hclk).trans hread)) rfl

/-! ## The steps of a hop (R174 to R179, R190, R208, R212 to R217, R498) -/

/-- Two states that differ in the front end, the watch cores, the bell, the loft and the watchman's tally alone. -/
def WatchmanOnly (s t : State) : Prop := t = { s with fe := t.fe, wc := t.wc, bell := t.bell, loft := t.loft, wtally := t.wtally }

theorem WatchmanOnly.trans {s t u : State} (hst : WatchmanOnly s t) (htu : WatchmanOnly t u) : WatchmanOnly s u :=
  Eq.trans htu (congrArg (fun x : State =>
    { x with fe := u.fe, wc := u.wc, bell := u.bell, loft := u.loft, wtally := u.wtally }) hst)

/-- The grid and the settings in force are the same (R190, R498). -/
structure GridKept (f g : FrontEnd) : Prop where
  hopNext  : g.hopNext = f.hopNext
  hopCount : g.hopCount = f.hopCount
  fbNow    : g.fbNow = f.fbNow
  feCtrl   : g.feCtrl = f.feCtrl

theorem GridKept.trans {f g h : FrontEnd} (hfg : GridKept f g) (hgh : GridKept g h) : GridKept f h :=
  ⟨hgh.hopNext.trans hfg.hopNext, hgh.hopCount.trans hfg.hopCount, hgh.fbNow.trans hfg.fbNow, hgh.feCtrl.trans hfg.feCtrl⟩

theorem ChanOnly.gridKept {f g : FrontEnd} (h : ChanOnly f g) : GridKept f g :=
  ⟨(congrArg FrontEnd.hopNext h).trans rfl, (congrArg FrontEnd.hopCount h).trans rfl, (congrArg FrontEnd.fbNow h).trans rfl, h.feCtrl⟩

/-- What the steps of a hop keep once the grid has moved on and the settings are in force: these two, the loft's frames, and everything
outside the watchman. -/
structure HopKeeps (s t : State) : Prop where
  grid    : GridKept s.fe t.fe
  frames  : t.loft.frames = s.loft.frames
  outside : WatchmanOnly s t

namespace HopKeeps

theorem refl (s : State) : HopKeeps s s := ⟨⟨rfl, rfl, rfl, rfl⟩, rfl, rfl⟩

theorem trans {s t u : State} (hst : HopKeeps s t) (htu : HopKeeps t u) : HopKeeps s u :=
  ⟨hst.grid.trans htu.grid, htu.frames.trans hst.frames, hst.outside.trans htu.outside⟩

theorem of_onFe {g : FrontEnd → FrontEnd} {s : State} (h : GridKept s.fe (g s.fe)) : HopKeeps s (onFe g s) := ⟨h, rfl, rfl⟩

theorem of_modChan (n : Nat) (g : Channel → Channel) (s : State) : HopKeeps s (onFe (modChan n g) s) :=
  .of_onFe (modChan_chanOnly n g s.fe).gridKept

theorem of_onWc (g : WatchCores → WatchCores) (s : State) : HopKeeps s (onWc g s) := ⟨⟨rfl, rfl, rfl, rfl⟩, rfl, rfl⟩

theorem of_onBell (g : Bell → Bell) (s : State) : HopKeeps s (onBell g s) := ⟨⟨rfl, rfl, rfl, rfl⟩, rfl, rfl⟩

theorem of_onLoft {g : Loft → Loft} {s : State} (h : (g s.loft).frames = s.loft.frames) : HopKeeps s (onLoft g s) :=
  ⟨⟨rfl, rfl, rfl, rfl⟩, h, rfl⟩

theorem of_watchTally (src n : Nat) (s : State) : HopKeeps s (watchTally src n s) := by
  obtain ⟨w, h⟩ := watchTally_only src n s
  rw [h]
  exact ⟨⟨rfl, rfl, rfl, rfl⟩, rfl, rfl⟩

theorem of_readTrims (s : State) : HopKeeps s (readTrims s) := by
  obtain ⟨_, _, _, h⟩ := readTrims_frame s
  rw [h]
  exact ⟨⟨rfl, rfl, rfl, rfl⟩, rfl, rfl⟩

end HopKeeps

theorem settleFe_keeps (n : Nat) (s : State) : HopKeeps s (settleFe n s) := by
  unfold settleFe
  dsimp only
  split
  · exact .of_modChan _ _ s
  · exact .refl s

theorem closeFrame_keeps (n : Nat) (h : ChannelHop) (s : State) : HopKeeps s (closeFrame n h s) := by
  unfold closeFrame
  dsimp only
  split
  · exact .of_modChan _ _ s
  · exact (HopKeeps.of_modChan _ _ s).trans (.of_watchTally _ _ _)

theorem putEnc_keeps (i : Nat) (e : Encoder) (s : State) : HopKeeps s (onFe (putEnc i e) s) := ⟨⟨rfl, rfl, rfl, rfl⟩, rfl, rfl⟩

/-- An encoder's hop changes its encoder, its baseline and, where a sustained flag rises, the bell's cause and a tally (R177, R214). -/
theorem bandHop_eq (i : Nat) (level : Option Nat) (s : State) : ∃ e g used rise, (bandHop i level s).1 =
    let s2 := if used = true then onWc g (onFe (putEnc i e) s) else onFe (putEnc i e) s
    if rise = true then watchTally 0x06 1 (onBell (fun b => { b with causeSust := true }) s2) else s2 := ⟨_, _, _, _, rfl⟩

theorem bandHop_keeps (i : Nat) (level : Option Nat) (s : State) : HopKeeps s (bandHop i level s).1 := by
  obtain ⟨e, g, used, rise, hband⟩ := bandHop_eq i level s
  have hbase : HopKeeps s (if used = true then onWc g (onFe (putEnc i e) s) else onFe (putEnc i e) s) := by
    split
    · exact (putEnc_keeps i e s).trans (.of_onWc g _)
    · exact putEnc_keeps i e s
  rw [hband]
  dsimp only
  split
  · exact (hbase.trans (.of_onBell _ _)).trans (.of_watchTally _ _ _)
  · exact hbase

theorem bandsHop_keeps (levels : List (Option Nat)) (i : Nat) (s : State) : HopKeeps s (bandsHop levels i s).1 := by
  induction levels generalizing i s with
  | nil => exact .refl s
  | cons l ls ih => exact (bandHop_keeps i l s).trans (ih (i + 1) _)

theorem bufferSpikes_keeps (lines : List Nat) (s : State) : HopKeeps s (bufferSpikes lines s) := by
  unfold bufferSpikes
  split
  · exact .of_onWc _ s
  · exact .refl s

theorem startFrames_keeps (s : State) : HopKeeps s (startFrames s) :=
  .of_onFe (GridKept.trans (g := { s.fe with oldTrims := [], hqEdges := [] }) ⟨rfl, rfl, rfl, rfl⟩
    (foldl_chanOnly (fun f n => modChan_chanOnly n _ f) [0, 1] _).gridKept)

theorem freezeAt_keeps (point : Nat) (step winSeq : Word) (rules : Byte) (manual : Bool) (decided : Option Nat) (s : State) :
    HopKeeps s (freezeAt point step winSeq rules manual decided s) := ⟨⟨rfl, rfl, rfl, rfl⟩, rfl, rfl⟩

theorem denyFreeze_keeps (f : Option Firing) (s : State) : HopKeeps s (denyFreeze f s) := ⟨⟨rfl, rfl, rfl, rfl⟩, rfl, rfl⟩

theorem firingFreeze_keeps (f : Firing) (s : State) : HopKeeps s (firingFreeze f s) := by
  unfold firingFreeze
  split
  · exact freezeAt_keeps _ _ _ _ _ _ s
  · split
    · exact freezeAt_keeps _ _ _ _ _ _ s
    · exact denyFreeze_keeps _ s

theorem settleFreeze_keeps (s : State) : HopKeeps s (settleFreeze s) := by
  unfold settleFreeze
  split
  · exact .refl s
  · split
    · exact .refl s
    · exact (HopKeeps.of_onLoft (g := fun l => { l with autoReq := none }) rfl).trans (firingFreeze_keeps _ _)

theorem manualPoint_keeps (s : State) : HopKeeps s (manualPoint s) := by
  unfold manualPoint
  split
  · exact freezeAt_keeps _ _ _ _ _ _ s
  · split
    · exact ⟨⟨rfl, rfl, rfl, rfl⟩, rfl, rfl⟩
    · exact denyFreeze_keeps _ s

theorem manualFreeze_keeps (s : State) : HopKeeps s (manualFreeze s) := by
  unfold manualFreeze
  split
  · exact .refl s
  · split
    · exact .refl s
    · exact (HopKeeps.of_onLoft (g := fun l => { l with request := none }) rfl).trans (manualPoint_keeps _)

theorem hopTrims_keeps (s : State) : HopKeeps s (hopTrims s) := by
  unfold hopTrims
  split
  · exact .of_readTrims s
  · exact .refl s

/-! ## The grid, the settings in force and the recorded frame (R190, R216, R442, R498) -/

/-- The passing of the watchman's clock changes the clock and the tally (R442). -/
theorem sampleGray_frame (n : Nat) {s : State} (hclk : s.wc.aonclk = true) : ∃ w, sampleGray n s = withTally w (wclkPassed n s) := by
  rcases Nat.eq_zero_or_pos n with rfl | hn
  · exact ⟨s.wtally, rfl⟩
  · obtain ⟨w4, h4⟩ := watchTally_only 4 (s.port.grayCommits - s.wtally.refCommits).toNat (wclkPassed n s)
    obtain ⟨w3, h3⟩ := watchTally_only 3 (s.port.grayOk - s.wtally.refOk).toNat (withTally w4 (wclkPassed n s))
    obtain ⟨w2, h2⟩ := watchTally_only 2 (s.port.grayFails - s.wtally.refFails).toNat (withTally w3 (withTally w4 (wclkPassed n s)))
    obtain ⟨w1, h1⟩ := watchTally_only 1 (s.port.grayAborts - s.wtally.refAborts).toNat
      (withTally w2 (withTally w3 (withTally w4 (wclkPassed n s))))
    have hrun := sampleGray_running hn hclk
    dsimp only at hrun
    rw [h4, h3, h2, h1] at hrun
    exact ⟨_, hrun⟩

/-- The watchman's clock reaches the boundary, and the grid moves on (R498). -/
theorem tickGrid_frame {s : State} (hclk : s.wc.aonclk = true) : ∃ w, tickGrid s = { s with
    clocks := { s.clocks with wclk := max s.clocks.wclk s.fe.hopNext }, wtally := w
    fe := { s.fe with hopNext := s.fe.hopNext + 12288, hopCount := s.fe.hopCount + 1 } } := by
  obtain ⟨w, hsample⟩ := sampleGray_frame (s.fe.hopNext - s.clocks.wclk) hclk
  have hreach : s.clocks.wclk + (s.fe.hopNext - s.clocks.wclk) = max s.clocks.wclk s.fe.hopNext := by omega
  refine ⟨w, ?_⟩
  unfold tickGrid
  rw [hsample, ← hreach]
  rfl

theorem EncOnly.trans {f g h : FrontEnd} (hfg : EncOnly f g) (hgh : EncOnly g h) : EncOnly f h :=
  Eq.trans hgh (congrArg (fun x : FrontEnd => { x with enc := h.enc }) hfg)

theorem disarmIf_encOnly (p : Prop) [Decidable p] (i n : Nat) (f : FrontEnd) : EncOnly f (if p then disarmEncoders i n f else f) := by
  split
  · exact disarmEncoders_encOnly i n f
  · exact rfl

/-- G_FB_CTRL takes effect, and what it rebases is encoders (R178, R190). -/
theorem applyFb_frame (s : State) : ∃ e, applyFb s = { s with fe := { s.fe with fbNow := s.fe.fbCtrl, enc := e } } :=
  ⟨_, congrArg (fun f => { s with fe := f })
    (((disarmIf_encOnly _ _ _ _).trans (disarmIf_encOnly _ _ _ _)).trans (disarmIf_encOnly _ _ _ _))⟩

/-- The frame that the loft records at a hop ends at the present clock (R216). -/
theorem recordFrame_frame (s : State) : ∃ fr run, fr.hop = s.clocks.wclk ∧ recordFrame s = { s with
    loft := { s.loft with frames := (fr :: s.loft.frames).take 4000, feRun := run } } := ⟨_, _, rfl, rfl⟩

/-- The state of a hop once its grid has moved on and its settings are in force. -/
theorem hopStart_frame {s : State} (hclk : s.wc.aonclk = true) : ∃ w e, applyFb (tickGrid s) = { s with
    clocks := { s.clocks with wclk := max s.clocks.wclk s.fe.hopNext }, wtally := w
    fe := { s.fe with hopNext := s.fe.hopNext + 12288, hopCount := s.fe.hopCount + 1, fbNow := s.fe.fbCtrl, enc := e } } := by
  obtain ⟨w, hgrid⟩ := tickGrid_frame hclk
  obtain ⟨e, hfb⟩ := applyFb_frame (tickGrid s)
  rw [hgrid] at hfb
  exact ⟨w, e, (congrArg applyFb hgrid).trans hfb⟩

/-- From the settings in force to the spikes that wait for their step. -/
def hopListened (h : HopInput) (s0 : State) : State :=
  let s1 := closeFrame 1 h.ch1 (closeFrame 0 h.ch0 (settleFe 1 (settleFe 0 s0)))
  let r := bandsHop (hopLevels s1 h) 0 s1
  bufferSpikes r.2 r.1

theorem hopListened_keeps (h : HopInput) (s : State) : HopKeeps s (hopListened h s) :=
  (((((settleFe_keeps 0 s).trans (settleFe_keeps 1 _)).trans (closeFrame_keeps 0 h.ch0 _)).trans (closeFrame_keeps 1 h.ch1 _)).trans
    (bandsHop_keeps _ 0 _)).trans (bufferSpikes_keeps _ _)

/-- From the recorded frame to the end of the hop. -/
def hopClosed (s : State) : State := hopTrims (manualFreeze (settleFreeze (startFrames s)))

theorem hopClosed_keeps (s : State) : HopKeeps s (hopClosed s) :=
  (((startFrames_keeps s).trans (settleFreeze_keeps _)).trans (manualFreeze_keeps _)).trans (hopTrims_keeps _)

theorem hopEffect_running {s : State} (h : HopInput) (hclk : s.wc.aonclk = true) (hgrid : s.fe.gridOn = true) :
    hopEffect h s = hopClosed (recordFrame (hopListened h (applyFb (tickGrid s)))) :=
  if_neg (by simp [hclk, hgrid])

/-- Settles O31: the grid and the settings first, then steps that keep them, with one frame recorded between. -/
theorem hopBoundary : Obligations.HopBoundary := by
  unfold Obligations.HopBoundary
  intro s h ⟨hlive, hclk⟩ hgrid
  obtain ⟨w, e, hstart⟩ := hopStart_frame hclk
  have hbefore := hopListened_keeps h (applyFb (tickGrid s))
  obtain ⟨fr, run, hhop, hrecord⟩ := recordFrame_frame (hopListened h (applyFb (tickGrid s)))
  have hafter := hopClosed_keeps (recordFrame (hopListened h (applyFb (tickGrid s))))
  have hexec : exec (.hopBoundary h) s = _ := congrArg (fin s) (hopEffect_running h hclk hgrid)
  rw [hrecord] at hafter hexec
  rw [hstart] at hbefore hafter hexec hhop
  generalize hopListened h _ = u at hbefore hafter hexec hhop
  generalize hopClosed _ = v at hafter hexec
  have houtside : WatchmanOnly { s with clocks := { s.clocks with wclk := max s.clocks.wclk s.fe.hopNext } } v :=
    Eq.trans hafter.outside (congrArg (fun x : State =>
      { x with fe := v.fe, wc := v.wc, bell := v.bell, loft := v.loft, wtally := v.wtally }) hbefore.outside)
  have hclock : v.clocks.wclk = max s.clocks.wclk s.fe.hopNext := (congrArg (fun x : State => x.clocks.wclk) houtside).trans rfl
  have hsame : v.clocks.wclk = u.clocks.wclk := (congrArg (fun x : State => x.clocks.wclk) hafter.outside).trans rfl
  have hframes : v.loft.frames = (fr :: s.loft.frames).take 4000 :=
    hafter.frames.trans (congrArg (fun fs => (fr :: fs).take 4000) hbefore.frames)
  have hkept := hbefore.grid.trans hafter.grid
  refine .of_fin hlive hexec ⟨hkept.hopNext, hkept.hopCount, hclock, hkept.fbNow, hkept.feCtrl, ?_, ?_, ?_⟩
  · exact (congrArg List.length hframes).trans (List.length_take.trans (Nat.min_comm _ _))
  · exact (congrArg (fun fs => fs.head?.map LoftFrame.hop) hframes).trans (congrArg some (hhop.trans hsame.symm))
  · exact (congrArg (fun x : State => { x with seen := (settle s v).seen }) houtside).trans (congrArg (fun n => { s with
      clocks := { s.clocks with wclk := n }, fe := v.fe, wc := v.wc, bell := v.bell, loft := v.loft, wtally := v.wtally
      seen := (settle s v).seen }) hclock.symm)

end Sys2Proof.Machine
end

