-- ==== Sys2Proof/Proofs/WatchCores.lean ====
section
/-!
PROOF. The watch cores: the baselines (R212), the update of one neuron (R200, R201), packed synapse weights (R202, R203), and arming,
disarming and the writes of network memory (R213, R219 to R221).
-/

namespace Sys2Proof.Machine

/-! ## Baselines (R212) -/

section adaptBaseline
variable {b : BitVec 24} {c : Nat}

theorem toNat_adaptBaseline_rise (rise : Nat) (hc : c < 256) (h : b.toNat < c * 65536) :
    (adaptBaseline rise b c).toNat = b.toNat + min ((c * 65536 - b.toNat) / 2 ^ (10 + rise)) 78 := by
  have hstep := Nat.div_le_self (c * 65536 - b.toNat) (2 ^ (10 + rise))
  unfold adaptBaseline
  dsimp only
  rw [if_pos h, Nat.shiftRight_eq_div_pow, BitVec.toNat_ofNat, Nat.mod_eq_of_lt (by omega)]

theorem toNat_adaptBaseline_fall (rise : Nat) (h : c * 65536 ≤ b.toNat) :
    (adaptBaseline rise b c).toNat = b.toNat - (b.toNat - c * 65536) / 512 := by
  have hb := b.isLt
  unfold adaptBaseline
  dsimp only
  rw [if_neg (Nat.not_lt.mpr h), Nat.shiftRight_eq_div_pow, BitVec.toNat_ofNat, Nat.mod_eq_of_lt (by omega)]

end adaptBaseline

/-- Settles O33: an increment is a quotient of the distance to the level, so it never exceeds it. -/
theorem baselineAdapts : Obligations.BaselineAdapts := by
  unfold Obligations.BaselineAdapts
  intro rise b c hc
  constructor
  · intro hrise
    have hstep := Nat.div_le_self (c * 65536 - b.toNat) (2 ^ (10 + rise))
    rw [toNat_adaptBaseline_rise rise hc hrise]
    generalize (c * 65536 - b.toNat) / 2 ^ (10 + rise) = q at hstep ⊢
    exact ⟨by omega, by omega, by omega, rfl⟩
  · intro hfall
    rw [toNat_adaptBaseline_fall rise hfall]
    exact ⟨by omega, by omega, rfl⟩

/-! ## Fields and signed numbers (R6) -/

theorem field_setField_same (v lo len x : Nat) : field (setField v lo len x) lo len = x % 2 ^ len := by
  have hsplit : setField v lo len x = v % 2 ^ lo + 2 ^ lo * (x % 2 ^ len + 2 ^ len * (v >>> (lo + len))) := by
    rw [setField, pow_add]
    ring
  rw [field_eq, hsplit, Nat.add_mul_div_left _ _ (Nat.two_pow_pos lo), Nat.div_eq_of_lt (Nat.mod_lt _ (Nat.two_pow_pos lo)), Nat.zero_add,
    Nat.add_mul_mod_self_left, Nat.mod_mod]

/-- A signed number is the balanced remainder of its word. -/
theorem signed_eq_bmod (n v : Nat) : signed (n + 1) v = (v : Int).bmod (2 ^ (n + 1)) := by
  have hcast : (2 : Int) ^ (n + 1) = (2 ^ (n + 1) : Nat) := by push_cast; rfl
  unfold signed
  rw [Int.bmod_def, ← Int.natCast_mod, Nat.add_sub_cancel, hcast]
  generalize v % 2 ^ (n + 1) = x
  rw [pow_succ' 2 n]
  dsimp only
  split <;> split <;> omega

/-- A number in range comes back from its two's complement. -/
theorem signed_unsigned {n : Nat} {i : Int} (hlo : -2 ^ n ≤ i) (hhi : i < 2 ^ n) : signed (n + 1) (unsigned (n + 1) i) = i := by
  have hpow : (2 ^ (n + 1) : Int) = 2 * 2 ^ n := pow_succ' 2 n
  have hpos : 0 ≤ i % (2 ^ (n + 1) : Nat) := Int.emod_nonneg _ (by positivity)
  rw [signed_eq_bmod, unsigned, Int.toNat_of_nonneg hpos, Int.emod_bmod]
  exact Int.bmod_eq_of_le_mul_two (by push_cast; omega) (by push_cast; omega)

theorem signed_range (n v : Nat) : -2 ^ n ≤ signed (n + 1) v ∧ signed (n + 1) v < 2 ^ n := by
  have hpow : (2 ^ (n + 1) : Int) = 2 * 2 ^ n := pow_succ' 2 n
  have hlo := Int.le_bmod (x := v) (Nat.two_pow_pos (n + 1))
  have hhi := Int.bmod_lt (x := v) (Nat.two_pow_pos (n + 1))
  push_cast at hlo hhi
  rw [signed_eq_bmod]
  omega

theorem signed_mod (w v : Nat) : signed w (v % 2 ^ w) = signed w v := by rw [signed, signed, Nat.mod_mod]

theorem sat16_range (i : Int) : -2 ^ 15 ≤ sat16 i ∧ sat16 i < 2 ^ 15 := by
  unfold sat16 clampInt
  split
  · omega
  · split <;> omega

/-! ## The update of one neuron (R200, R201) -/

section neuronStep
variable (w : WatchCores) (core rec0 : Nat) (acc : Int)

/-- Word `i` of the parameter set that a neuron's record names (R200). -/
def neuronParam (i : Nat) : Nat := synWord w core (144 + 4 * field rec0 16 4 + i)

/-- THRESH of a neuron (R200). -/
def neuronThresh : Int := signed 16 (field (neuronParam w core rec0 0) 0 16)

/-- VFLOOR of a neuron (R200). -/
def neuronFloor : Int := signed 16 (field (neuronParam w core rec0 1) 0 16)

/-- V of a neuron after leak, input and bias (R201). -/
def neuronSum : Int :=
  let leak := field (neuronParam w core rec0 1) 16 4
  let v := signed 16 (field rec0 0 16)
  sat16 ((if leak = 0 then v else v - v / 2 ^ leak) + acc + signed 16 (field (neuronParam w core rec0 2) 0 16))

/-- V of a neuron that is held to its floor, before it may fire (R201). -/
def neuronLevel : Int :=
  if neuronSum w core rec0 acc < neuronFloor w core rec0 then neuronFloor w core rec0 else neuronSum w core rec0 acc

variable {w core rec0 acc}

theorem neuronLevel_range : -2 ^ 15 ≤ neuronLevel w core rec0 acc ∧ neuronLevel w core rec0 acc < 2 ^ 15 := by
  unfold neuronLevel
  split
  · exact signed_range 15 _
  · exact sat16_range _

theorem neuronStep_refractory (h : 0 < field rec0 20 4) :
    neuronStep w core rec0 acc = (setField rec0 20 4 (field rec0 20 4 - 1), false) := if_pos h

/-- A neuron that is not refractory and reaches its threshold fires. -/
theorem neuronStep_fires (href : field rec0 20 4 = 0) (h : neuronThresh w core rec0 ≤ neuronLevel w core rec0 acc) :
    ∃ v, neuronStep w core rec0 acc =
      (setField (setField rec0 0 16 (unsigned 16 v)) 20 4 (field (neuronParam w core rec0 1) 20 4), true) :=
  ⟨_, (if_neg (by omega)).trans (if_pos h)⟩

theorem neuronStep_quiet (href : field rec0 20 4 = 0) (h : neuronLevel w core rec0 acc < neuronThresh w core rec0) :
    neuronStep w core rec0 acc = (setField rec0 0 16 (unsigned 16 (neuronLevel w core rec0 acc)), false) :=
  (if_neg (by omega)).trans (if_neg (Int.not_le.mpr h))

/-- V of a record is the level that was put in it. -/
theorem signed_field_setField_level (rec0 : Nat) {v : Int} (h : -2 ^ 15 ≤ v ∧ v < 2 ^ 15) :
    signed 16 (field (setField rec0 0 16 (unsigned 16 v)) 0 16) = v := by
  rw [field_setField_same, signed_mod, signed_unsigned h.1 h.2]

end neuronStep

/-- Settles O36: a neuron counts down, fires, or stays under its threshold. -/
theorem neuronRule : Obligations.NeuronRule := by
  unfold Obligations.NeuronRule
  intro w core rec0 acc
  have href : rec0 / 2 ^ 20 % 16 = field rec0 20 4 := (field_eq rec0 20 4).symm
  have hset : rec0 / 2 ^ 16 % 16 = field rec0 16 4 := (field_eq rec0 16 4).symm
  rw [href, hset]
  refine ⟨neuronStep_refractory, fun href hfired => ?_, fun href hquiet => ?_⟩
  · obtain h | h := lt_or_ge (neuronLevel w core rec0 acc) (neuronThresh w core rec0)
    · rw [neuronStep_quiet href h] at hfired
      exact absurd hfired Bool.false_ne_true
    · obtain ⟨v, hstep⟩ := neuronStep_fires href h
      rw [hstep, field_setField_same]
      exact Nat.mod_eq_of_lt (Nat.mod_lt _ (by decide))
  · obtain h | h := lt_or_ge (neuronLevel w core rec0 acc) (neuronThresh w core rec0)
    · rw [neuronStep_quiet href h, signed_field_setField_level rec0 neuronLevel_range]
      exact h
    · obtain ⟨v, hstep⟩ := neuronStep_fires href h
      rw [hstep] at hquiet
      exact absurd hquiet.symm Bool.false_ne_true

/-! ## Packed synapse weights (R202, R203) -/

/-- The value of a weight code of `wd` bits (R203). -/
def codeValue (wd code : Nat) : Int := if wd = 1 then (if code = 0 then -1 else 1) else signed wd code

/-- Code `j` of the packed words that follow header word `h` (R202). -/
def weightCode (w : WatchCores) (core h header j : Nat) : Nat :=
  let wd := field header 6 3 + 1
  let bit := j * wd
  field (synWord w core (h + 1 + bit / 32) + 2 ^ 32 * synWord w core (h + 2 + bit / 32)) (bit % 32) wd

theorem weightOf_eq (w : WatchCores) (core h header j : Nat) : weightOf w core h header j =
    codeValue (field header 6 3 + 1) (weightCode w core h header j) * 2 ^ field header 29 3 := rfl

section codeValue
variable {wd code : Nat}

theorem codeValue_nonneg (hwd : 2 ≤ wd) (h : code < 2 ^ (wd - 1)) : codeValue wd code = code := by
  have hlt : code < 2 ^ wd := h.trans_le (Nat.pow_le_pow_right (by decide) (Nat.sub_le _ _))
  unfold codeValue signed
  rw [if_neg (by omega), Nat.mod_eq_of_lt hlt]
  exact if_pos h

theorem codeValue_neg (hwd : 2 ≤ wd) (h : 2 ^ (wd - 1) ≤ code) (hlt : code < 2 ^ wd) : codeValue wd code = code - 2 ^ wd := by
  unfold codeValue signed
  rw [if_neg (by omega), Nat.mod_eq_of_lt hlt]
  exact if_neg (Nat.not_lt.mpr h)

end codeValue

theorem codeValue_range (code : Nat) {n : Nat} (hn : n ≤ 7) : -128 ≤ codeValue (n + 1) code ∧ codeValue (n + 1) code ≤ 127 := by
  have hpow : (2 ^ n : Int) ≤ 2 ^ 7 := pow_le_pow_right₀ (by decide) hn
  have hsigned := signed_range n code
  unfold codeValue
  split
  · split <;> decide
  · omega

/-- A signed byte, shifted left by up to seven places, stays within fifteen bits. -/
theorem shifted_range {v : Int} {n : Nat} (hv : -128 ≤ v ∧ v ≤ 127) (hn : n ≤ 7) :
    -16384 ≤ v * 2 ^ n ∧ v * 2 ^ n ≤ 16256 := by
  have hpos : (0 : Int) < 2 ^ n := by positivity
  have hpow : (2 ^ n : Int) ≤ 2 ^ 7 := pow_le_pow_right₀ (by decide) hn
  have hlo := mul_le_mul_of_nonneg_right hv.1 hpos.le
  have hhi := mul_le_mul_of_nonneg_right hv.2 hpos.le
  omega

/-- Settles O37: the value of the code that the header's width names, times the header's shift. -/
theorem synapseWeights : Obligations.SynapseWeights := by
  unfold Obligations.SynapseWeights
  intro w core h header j width words code shift
  have hwidth : field header 6 3 + 1 = width := congrArg (· + 1) (field_eq header 6 3)
  have hcode : weightCode w core h header j = code := by
    unfold weightCode
    dsimp only
    rw [hwidth]
    exact field_eq _ _ _
  have hshift : (2 : Int) ^ field header 29 3 = shift := congrArg (2 ^ ·) (field_eq header 29 3)
  have hvalue : weightOf w core h header j = codeValue width code * shift := by
    rw [weightOf_eq, hwidth, hcode, hshift]
  have hlt : code < 2 ^ width := Nat.mod_lt _ (Nat.two_pow_pos width)
  have hrange : -16384 ≤ weightOf w core h header j ∧ weightOf w core h header j ≤ 16256 :=
    shifted_range (codeValue_range _ (Nat.le_of_lt_succ (Nat.mod_lt _ (by decide)))) (Nat.le_of_lt_succ (Nat.mod_lt _ (by decide)))
  rw [hvalue] at hrange ⊢
  refine ⟨fun hone hzero => ?_, fun hone hset => ?_, fun htwo hlow => ?_, fun htwo hhigh => ?_, hrange⟩
  · rw [hone, hzero]
    rfl
  · rw [hone, hset]
    rfl
  · rw [codeValue_nonneg htwo hlow]
  · rw [codeValue_neg htwo hhigh hlt]

/-! ## Arming and disarming (R213, R220, R221) -/

/-- The word of an arming or disarming holds ARM and the present REPLAY, and clears no flag. -/
theorem wcCtrlWord_bits (w : WatchCores) (arm : Bool) :
    bitOf (wcCtrlWord w arm).toNat 0 = arm ∧ bitOf (wcCtrlWord w arm).toNat 1 = w.replay ∧ bitOf (wcCtrlWord w arm).toNat 4 = false := by
  unfold wcCtrlWord
  generalize w.replay = replay
  revert arm replay
  decide

/-- A write of the present REPLAY with another ARM bit only arms or disarms. -/
theorem writeWcCtrl_wcCtrlWord (arm : Bool) (at_ : Nat) (s : State) : writeWcCtrl (wcCtrlWord s.wc arm) at_ s =
    if arm && !s.wc.arm then (if s.wc.ready && s.wc.aonclk then armCores at_ s else s)
    else if !arm && s.wc.arm then disarmCores s else s := by
  obtain ⟨harm, hreplay, hblocked⟩ := wcCtrlWord_bits s.wc arm
  have hkept : onWc (fun w => { w with
      replay := if w.arm then w.replay else s.wc.replay, memBlocked := w.memBlocked && !false }) s = s := by
    simp [onWc]
  unfold writeWcCtrl
  dsimp only
  rw [harm, hreplay, hblocked, hkept]

theorem trimBaselines_replay (ctrl : Nat) (w : WatchCores) : (trimBaselines ctrl w).replay = w.replay := by
  unfold trimBaselines
  split <;> rfl

theorem settleStep_idle {s : State} (h : s.wc.stage = .none) : settleStep s = s := by
  have hcut : cutStep s = s := by simp only [cutStep, h]
  simp only [settleStep, hcut, h]

theorem settingsNow_frame (s : State) : ∃ w b, settingsNow s = { s with wc := w, bell := b } ∧ w.replay = s.wc.replay :=
  ⟨_, _, rfl, trimBaselines_replay _ _⟩

/-- Arming between steps touches the watch cores and the bell: it seeds the baselines, clears the counts, and sets the first hop. -/
theorem armCores_idle {s : State} (at_ : Nat) (h : s.wc.stage = .none) : ∃ w b, armCores at_ s = { s with wc := w, bell := b }
    ∧ w.arm = true ∧ w.replay = s.wc.replay ∧ w.base = seedBaselines s.gran ∧ w.stepNo = 0 ∧ w.winSeq = 0 ∧ w.live = [] ∧ w.pub = []
    ∧ w.h0 = some (firstHopAfter s at_) ∧ w.queues = [] ∧ w.stepsBegun = 0 ∧ b.latches = 0 := by
  have hsettings : ∃ w b, (if s.wc.running then s else settingsNow s) = { s with wc := w, bell := b } ∧ w.replay = s.wc.replay := by
    split
    · exact ⟨s.wc, s.bell, rfl, rfl⟩
    · exact settingsNow_frame s
  obtain ⟨w, b, hnow, hreplay⟩ := hsettings
  unfold armCores onBell onWc stopCores
  rw [settleStep_idle h]
  dsimp only
  rw [hnow]
  exact ⟨_, _, rfl, by simp only [hreplay, and_self]⟩

/-- Between steps a disarm stops the cores at once (R221). -/
theorem disarmCores_idle {s : State} (h : s.wc.stage = .none) : disarmCores s = { s with wc := stopCores { s.wc with arm := false } } :=
  congrArg (fun w => { s with wc := w }) (if_pos h)

theorem writeWatchReg_wcCtrl (d : Word) (via : Via) (at_ : Nat) (s : State) : writeWatchReg 0x180 d via at_ s = writeWcCtrl d at_ s := rfl

/-- Arming and disarming write G_WC_CTRL (R220, R221). -/
theorem watchmanCommand_wcCtrlWord {s : State} (arm : Bool) (hw : WatchHears s) : watchmanCommand 0x180 (wcCtrlWord s.wc arm) s =
    if arm && !s.wc.arm then (if s.wc.ready && s.wc.aonclk then armCores s.clocks.wclk s else s)
    else if !arm && s.wc.arm then disarmCores s else s :=
  (watchmanCommand_running _ hw (by decide)).trans
    ((writeWatchReg_wcCtrl _ _ _ s).trans (writeWcCtrl_wcCtrlWord arm s.clocks.wclk s))

theorem exec_arm {s : State} (hw : WatchHears s) (hready : s.wc.ready = true) (harm : s.wc.arm = false) :
    exec .arm s = fin s (armCores s.clocks.wclk s) := by
  refine congrArg (fin s) ((watchmanCommand_wcCtrlWord true hw).trans ?_)
  simp [harm, hready, hw.1.2]

theorem exec_disarm {s : State} (hw : WatchHears s) (harm : s.wc.arm = true) : exec .disarm s = fin s (disarmCores s) := by
  refine congrArg (fin s) ((watchmanCommand_wcCtrlWord false hw).trans ?_)
  simp [harm]

/-! ## Writes of network memory (R219) -/

theorem writeWatchReg_memData (d : Word) (via : Via) (at_ : Nat) (s : State) : writeWatchReg 0x183 d via at_ s = writeMemData d s := rfl

theorem writeWatchReg_memWin (k : BitVec 4) (d : Word) (via : Via) (at_ : Nat) (s : State) :
    writeWatchReg (0x1B0 + k.toNat) d via at_ s = writeMemWin k.toNat d s := by
  have hk := k.isLt
  have hne : ∀ n < 0x1B0, 0x1B0 + k.toNat ≠ n := fun n hn => by omega
  have hgt : ∀ n < 0x1B0, ¬ 0x1B0 + k.toNat ≤ n := fun n hn => by omega
  have hroom : 0x1B0 + k.toNat ≤ 0x1BF := by omega
  simp [writeWatchReg, hne, hgt, hroom]

theorem exec_wcMemDataWrite {s : State} (d : Word) (hw : WatchHears s) : exec (.wcMemDataWrite d) s = fin s (writeMemData d s) :=
  congrArg (fin s) ((watchmanCommand_running d hw (by decide)).trans (writeWatchReg_memData d _ _ s))

theorem exec_wcMemWinWrite {s : State} (k : BitVec 4) (d : Word) (hw : WatchHears s) :
    exec (.wcMemWinWrite k d) s = fin s (writeMemWin k.toNat d s) :=
  congrArg (fin s) ((watchmanCommand_running d hw (by omega)).trans (writeWatchReg_memWin k d _ _ s))

section writeNet
variable {s : State} {a : Nat} (d : Word)

/-- Cores that are clear, disarmed and stopped take a word of their memory. -/
theorem writeNet_stored (hready : s.wc.ready = true) (harm : s.wc.arm = false) (hrun : s.wc.running = false) (ha : a < 0x1A000) :
    writeNet a d s = { s with wc := { s.wc with net := sput 0 s.wc.net a d } } :=
  (if_neg (by simp [harm, hready])).trans ((if_neg (Nat.not_le.mpr ha)).trans (if_neg (by simp [hrun])))

/-- Armed cores block it. -/
theorem writeNet_blocked (harm : s.wc.arm = true) : writeNet a d s = { s with wc := { s.wc with memBlocked := true } } :=
  if_pos (by simp [harm])

end writeNet

theorem writeMemWin_eq (k : BitVec 4) (d : Word) (s : State) : writeMemWin k.toNat d s =
    onWc (fun w => { w with waddr := if k = 15 then w.waddr + 16 else w.waddr })
      (writeNet (16 * (s.wc.waddr.toNat / 16) + k.toNat) d s) := by
  have hk : k.toNat = 15 ↔ k = 15 := BitVec.toNat_inj (y := 15)
  unfold writeMemWin
  simp only [hk]
  split <;> rfl

/-- Settles O34: each command is one write of the watch rooms, and each write one case of its register. -/
theorem watchCoreControl : Obligations.WatchCoreControl := by
  unfold Obligations.WatchCoreControl
  refine ⟨fun s hw hready harm hstage => ?_, fun s hw harm hstage => ?_, fun s d hw hready harm hrun ha => ?_, fun s d hw harm => ?_,
    fun s k d hw hready harm hrun ha => ?_⟩
  · obtain ⟨w, b, heffect, hw0⟩ := armCores_idle s.clocks.wclk hstage
    have hexec : exec .arm s = _ := (exec_arm hw hready harm).trans (congrArg (fin s) heffect)
    obtain ⟨harmed, hreplay, hbase, hstep, hseq, hlive, hpub, hhop, hqueues, hbegun, hlatches⟩ := hw0
    exact .of_fin hw.1.1 hexec ⟨harmed, hreplay, hbase, hstep, hseq, hlive, hpub, hhop, hqueues, hbegun, hlatches, rfl⟩
  · exact .of_fin hw.1.1 ((exec_disarm hw harm).trans (congrArg (fin s) (disarmCores_idle hstage))) ⟨rfl, rfl, rfl, rfl, rfl, rfl⟩
  · refine .of_fin hw.1.1 (exec_wcMemDataWrite d hw) ?_
    rw [writeMemData, writeNet_stored d hready harm hrun ha]
    rfl
  · refine .of_fin hw.1.1 (exec_wcMemDataWrite d hw) ?_
    rw [writeMemData, writeNet_blocked d harm]
    rfl
  · refine .of_fin hw.1.1 (exec_wcMemWinWrite k d hw) ?_
    rw [writeMemWin_eq, writeNet_stored d hready harm hrun (by omega)]
    rfl

end Sys2Proof.Machine
end

