-- ==== Sys2Proof/Proofs/LoomContract.lean ====
section
/-!
PROOF. The loom contract: draft loads and images (R246 to R252), clock points and stretched cycles (R242, R243, R256), the bundle's CTL,
BANK and MESH fields (R232 to R237), slots and passes (R239, R249, R349 to R357), breaches (R263 to R265), and the apertures (R253, R254).
-/

namespace Sys2Proof.Machine

/-! ## L_DRAFT_LOAD (R247, R251, R252, R271) -/

/-- The word of L_DRAFT_LOAD holds what the command names, with GO. -/
theorem loadWord_fields (mode : LoadMode) (id : BitVec 10) (ten : BitVec 8) : let n := (loadWord mode id ten).toNat
    bitOf n 20 = true ∧ loadModeOf (field n 18 2) = mode ∧ field n 0 10 = id.toNat ∧ field n 10 8 = ten.toNat := by
  have hid := id.isLt
  have hten := ten.isLt
  have hmode : loadModeCode mode < 4 := by cases mode <;> decide
  have hword : (loadWord mode id ten).toNat = id.toNat + 2 ^ 10 * ten.toNat + 2 ^ 18 * loadModeCode mode + 2 ^ 20 := by
    rw [loadWord, BitVec.toNat_ofNat]
    exact Nat.mod_eq_of_lt (by omega)
  simp only [hword, field_eq]
  refine ⟨bitOf_eq (by simp only [Bool.toNat_true]; omega), ?_, by omega, by omega⟩
  have hcode : (id.toNat + 2 ^ 10 * ten.toNat + 2 ^ 18 * loadModeCode mode + 2 ^ 20) / 2 ^ 18 % 2 ^ 2 = loadModeCode mode := by omega
  rw [hcode]
  cases mode <;> rfl

/-- A load as GO starts it. -/
def freshLoad (mode : LoadMode) (id tenant : Nat) (s : State) : Load :=
  { id := id, tenant := tenant, mode := mode, addr := s.loom.draftAddr.toNat, asked := 0, buffer := [], header := [], taken := 0
    crc := 0xFFFFFFFF, version := none, walked := [] }

/-- L_DRAFT_VERIFY and the load in progress once GO is written. -/
def loadStarted (mode : LoadMode) (id tenant : Nat) : State → State := fun s => onLoom (fun l => { l with
  verify := { l.verify with result := 0xFF, busy := true, id := BitVec.ofNat 10 id, tile := 0, freeMin := 0 }
  load := some (freshLoad mode id tenant s) }) s

/-- The load ends, and its tenant is told where its event ring has room (R348). -/
theorem endLoad_frame (ld : Load) (result : Byte) (tile : Nat) (s : State) :
    let s1 := setVerify result tile (if result = verOk then s else failDraft ld s)
    ∃ w rs ts, endLoad ld result tile s = { s1 with weft := w, loom := { s1.loom with rings := rs, tenants := ts } } :=
  sendEvent_frame _ _ _ _ _ _

section startLoad
variable {s : State} {id tenant : Nat}

theorem startLoad_busy (mode : LoadMode) (id tenant : Nat) (h : s.loom.verify.busy = true) : startLoad mode id tenant s =
    { s with loom := { s.loom with verify := { s.loom.verify with overrun := true } } } := if_pos h

/-- NEW of an EMPTY id. -/
theorem startLoad_fresh (hbusy : s.loom.verify.busy = false) (hst : (draftOf s id).st = .empty) : startLoad .fresh id tenant s =
    putDraft id { draftOf s id with st := .loading, tenant := tenant } (loadStarted .fresh id tenant s) := by
  unfold startLoad
  rw [if_neg (by simp [hbusy])]
  exact if_pos hst

theorem startLoad_hot (hbusy : s.loom.verify.busy = false) : startLoad .hot id tenant s = loadStarted .hot id tenant s := by
  unfold startLoad
  rw [if_neg (by simp [hbusy])]
  rfl

/-- COLD of a RESIDENT id of the tenant. -/
theorem startLoad_cold (hbusy : s.loom.verify.busy = false) (hst : (draftOf s id).st = .resident)
    (hten : (draftOf s id).tenant = tenant) : startLoad .cold id tenant s =
    putDraft id { draftOf s id with st := .cold, freed := false } (loadStarted .cold id tenant s) := by
  unfold startLoad
  rw [if_neg (by simp [hbusy])]
  exact if_pos (by simp [hst, hten])

/-- UNLOAD of a RESIDENT id of the tenant ends at once with its id marked. -/
theorem startLoad_unload (hbusy : s.loom.verify.busy = false) (hst : (draftOf s id).st = .resident)
    (hten : (draftOf s id).tenant = tenant) : let u := startLoad .unload id tenant s
    draftOf u id = { draftOf s id with unloading := true } ∧ u.loom.verify.busy = false ∧ u.loom.verify.result = verOk
      ∧ u.loom.load = none := by
  have hload : startLoad .unload id tenant s = endLoad (freshLoad .unload id tenant s) verOk 0
      (putDraft id { draftOf s id with unloading := true } (loadStarted .unload id tenant s)) := by
    unfold startLoad
    rw [if_neg (by simp [hbusy])]
    exact if_pos (by simp [hst, hten])
  obtain ⟨w, rs, ts, hend⟩ := endLoad_frame (freshLoad .unload id tenant s) verOk 0
    (putDraft id { draftOf s id with unloading := true } (loadStarted .unload id tenant s))
  rw [hload, hend, if_pos rfl]
  exact ⟨draftOf_putDraft_same _ _ _, rfl, rfl, rfl⟩

end startLoad

/-- A load's command writes L_DRAFT_LOAD with GO, while no drain discards it. -/
theorem draftLoad_heard {s : State} (mode : LoadMode) (id : BitVec 10) (ten : BitVec 8) (hheard : HostHeard s) :
    draftLoad mode id ten s = writeDraftLoad (loadWord mode id ten) s := hostPosts_heard _ _ hheard

/-- GO starts the load that the word names. -/
theorem draftLoad_idle {s : State} (mode : LoadMode) (id : BitVec 10) (ten : BitVec 8) (hheard : HostHeard s)
    (hbusy : s.loom.verify.busy = false) : ∃ w, draftLoad mode id ten s =
      startLoad mode id.toNat ten.toNat { s with loom := { s.loom with loadReg := w } } := by
  obtain ⟨hgo, hmode, hid, hten⟩ := loadWord_fields mode id ten
  refine ⟨BitVec.ofNat 20 (field (loadWord mode id ten).toNat 0 20), ?_⟩
  rw [draftLoad_heard mode id ten hheard]
  unfold writeDraftLoad
  dsimp only
  rw [hgo, hbusy, Bool.and_false, if_neg Bool.false_ne_true, if_pos rfl, hmode, hid, hten]
  rfl

/-- GO while BUSY only sets OVERRUN. -/
theorem draftLoad_busy {s : State} (mode : LoadMode) (id : BitVec 10) (ten : BitVec 8) (hheard : HostHeard s)
    (hbusy : s.loom.verify.busy = true) : draftLoad mode id ten s =
      { s with loom := { s.loom with verify := { s.loom.verify with overrun := true } } } := by
  obtain ⟨hgo, _, _, _⟩ := loadWord_fields mode id ten
  rw [draftLoad_heard mode id ten hheard]
  exact (if_pos (by simp [hgo, hbusy])).trans (startLoad_busy .fresh 0 0 hbusy)

/-- Settles O41: what GO starts, mode by mode; an UNLOAD's end is told to the tenant. -/
theorem draftLoads : Obligations.DraftLoads := by
  unfold Obligations.DraftLoads
  refine ⟨?_, ?_, ?_, ?_, ?_⟩
  · intro s id ten hheard hbusy hst
    obtain ⟨w, hload⟩ := draftLoad_idle .fresh id ten hheard hbusy
    refine .of_fin hheard.1.1 (congrArg (fin s) (hload.trans (startLoad_fresh hbusy hst)))
      ⟨draftOf_putDraft_same _ _ _, rfl, rfl, ?_, rfl, rfl⟩
    exact (BitVec.ofNat_toNat 10 id).trans (BitVec.setWidth_eq id)
  · intro s id ten hheard hbusy
    obtain ⟨w, hload⟩ := draftLoad_idle .hot id ten hheard hbusy
    exact .of_fin hheard.1.1 (congrArg (fin s) (hload.trans (startLoad_hot hbusy))) ⟨rfl, rfl, rfl⟩
  · intro s id ten hheard hbusy hst hten
    obtain ⟨w, hload⟩ := draftLoad_idle .cold id ten hheard hbusy
    exact .of_fin hheard.1.1 (congrArg (fin s) (hload.trans (startLoad_cold hbusy hst hten)))
      ⟨draftOf_putDraft_same _ _ _, rfl, rfl⟩
  · intro s id ten hheard hbusy hst hten
    obtain ⟨w, hload⟩ := draftLoad_idle .unload id ten hheard hbusy
    exact .of_fin hheard.1.1 (congrArg (fin s) hload) (startLoad_unload hbusy hst hten)
  · intro s id ten hheard hbusy
    exact .of_fin hheard.1.1 (congrArg (fin s) (draftLoad_busy .fresh id ten hheard hbusy)) rfl

/-! ## The image of a load (R247 to R249, R334, R349) -/

/-- The read of `n` image rows that the loom asks for next. -/
def imageRead (ld : Load) (n : Nat) (s : State) : DevRead :=
  { tag := s.loom.nextTag, mod := moduleFor s ld.tenant, tenant := ld.tenant, what := .image (64 * n), addr := ld.addr + ld.asked
    len := 64 * n, got := none }

/-- Rows a load may ask for in one read: up to three of one 4 KiB page, within the image and the fetch buffer (R334, R349). -/
def fetchRows (rows : Nat) (ld : Load) : Nat :=
  min (min rows 3) (min ((4096 - (ld.addr + ld.asked) % 4096) / 64)
    (min ((imageLimit ld - ld.asked) / 64) ((262144 - (ld.asked - ld.taken)) / 64)))

/-- The loom as it asks for `n` more rows. -/
def imageAsked (ld : Load) (n : Nat) (s : State) : State := onLoom (fun l => { l with
  nextTag := (s.loom.nextTag + 1) % 4096, load := some { ld with asked := ld.asked + 64 * n }
  reads := l.reads ++ [imageRead ld n s] }) s

/-- At L0 a load asks for its next rows. -/
theorem fetchImage_asks {s : State} {ld : Load} {rows : Nat} (hst : s.pwr.st = .l0) (hload : s.loom.load = some ld)
    (hmode : ld.mode ≠ .unload) (hpos : 0 < fetchRows rows ld) : 
    ∃ w, fetchImage rows s = { imageAsked ld (fetchRows rows ld) s with weft := w } := by
  have hgo : ¬ (decide (s.pwr.st ≠ .l0) || decide (ld.mode = .unload) || decide (fetchRows rows ld = 0)) = true := by
    simp [hst, hmode, hpos.ne']
  obtain ⟨w, hsent⟩ := enqueue_frame (imageAsked ld (fetchRows rows ld) s)
    { kind := .read, addr := ld.addr + ld.asked, data := [], len := 64 * fetchRows rows ld, tag := s.loom.nextTag, tenant := ld.tenant
      what := .image }
  refine ⟨w, ?_⟩
  unfold fetchImage
  rw [hload]
  exact (if_neg hgo).trans hsent

/-- The first rows of an image that begins on a page: three of them. -/
theorem fetchRows_first {ld : Load} (haddr : ld.addr % 4096 = 0) (hasked : ld.asked = 0) (htaken : ld.taken = 0)
    (hversion : ld.version = none) : fetchRows 3 ld = 3 := by
  have hlimit : imageLimit ld = 0x400 := by rw [imageLimit, hversion]
  rw [fetchRows, hlimit, hasked, htaken, Nat.add_zero, haddr]
  rfl

/-- A list of enough bytes is not filled up by a slice from its start. -/
theorem slice_zero_of_le {bs : List Byte} {n : Nat} (h : n ≤ bs.length) : slice bs 0 n = bs.take n := by
  simp [slice, h]

/-- The first row of an image joins the header. -/
theorem deliverRow_first {ld : Load} (s : State) (htaken : ld.taken = 0) (hlen : 64 ≤ ld.buffer.length) : deliverRow ld s =
    { s with loom := { s.loom with
      load := some { ld with buffer := ld.buffer.drop 64, taken := 64, header := ld.header ++ ld.buffer.take 64 } } } := by
  unfold deliverRow
  simp only [htaken, slice_zero_of_le hlen]
  rfl

/-- A DMA entry of the load's tenant, active in this lc and with nothing landed in it, delivers the next image row (R349). -/
theorem dmaRowEffect_delivers {s : State} {e : Nat} {ld : Load} (hdma : isDmaEntry (activeEntry s e) = true)
    (hin : inOccurrence s.loom.weave (activeEntry s e) (lcOf s) = true) (hpart : (partOf s (activeEntry s e).tenant).en = true)
    (hruns : mesochronousRuns s = true) (hfree : dmaUsed s (dmaKey e) = false) (hhandoff : dmaUsed s handoffKey = false)
    (hesc : s.esc.st ≠ .copy) (hload : s.loom.load = some ld) (hten : ld.tenant = (activeEntry s e).tenant)
    (hlen : 64 ≤ ld.buffer.length) : dmaRowEffect e s = deliverRow ld (takeLinks [(dmaKey e, lcOf s)] s) := by
  have hlands : landsHere s (activeEntry s e) = false := by simp [landsHere, hesc]
  unfold dmaRowEffect
  simp [hdma, hin, hpart, hruns, hfree, hhandoff, hlands, hload, hten, hlen]

section tileWalked
variable {s : State} {t : Nat} {ld : Load} {v : Version}

/-- The walk of a tile whose bytes are in and that has not been walked (R248). -/
theorem tileWalked_runs (hload : s.loom.load = some ld) (hversion : ld.version = some v) (hpages : v.pages ≠ [])
    (hmem : t ∈ versionTiles v) (hnew : t ∉ ld.walked)
    (htaken : 0x400 + ((versionTiles v).idxOf t + 1) * (v.npages * 1024) ≤ ld.taken) : tileWalked t s =
      if goodStructure v t (storedProgram s v t) then
        let ld1 := { ld with walked := t :: ld.walked }
        let s1 := addTag ld.id v t (onLoom (fun l => { l with load := some ld1 }) s)
        if ld1.walked.length < (versionTiles v).length then s1
        else if (ld1.crc ^^^ 0xFFFFFFFF) ≠ leAt ld1.header 0x78 4 then endLoad ld1 0x0D 0 s1
        else loadPassed ld1 v s1
      else endLoad ld 0x0E t s := by
  have hgo : ¬ (v.pages.isEmpty || !(versionTiles v).contains t || ld.walked.contains t
      || decide (ld.taken < 0x400 + ((versionTiles v).idxOf t + 1) * (v.npages * Config.pageBytes))) = true := by
    have hbytes : Config.pageBytes = 1024 := rfl
    simp [hpages, hmem, hnew, hbytes, htaken]
  unfold tileWalked
  simp only [hload, hversion]
  rw [if_neg hgo]
  cases goodStructure v t (storedProgram s v t) <;> rfl

end tileWalked

/-- A tile that has been walked holds the version. -/
theorem holdsVersion_addTag (id : Nat) (v : Version) (t : Nat) (s : State) : holdsVersion (addTag id v t s) t id v = true := by
  have htags : sget [] (addTag id v t s).loom.tags t = (id, v.tag) :: (sget [] s.loom.tags t).filter (· != (id, v.tag)) :=
    (sget_smod [] s.loom.tags t t (fun xs => (id, v.tag) :: xs.filter (· != (id, v.tag)))).trans (if_pos rfl)
  rw [holdsVersion, htags]
  simp

/-- Settles O42: the reads, the row of a DMA entry, and the walk of a tile. -/
theorem imageDelivery : Obligations.ImageDelivery := by
  unfold Obligations.ImageDelivery
  refine ⟨?_, ?_, ?_, ?_, ?_⟩
  · intro s ld hlive hst hload hmode haddr hasked htaken hversion
    have hrows := fetchRows_first haddr hasked htaken hversion
    obtain ⟨w, hfetch⟩ := fetchImage_asks (rows := 3) hst hload hmode (by rw [hrows]; decide)
    rw [hrows] at hfetch
    have hload' : (imageAsked ld 3 s).loom.load = some { ld with asked := 192 } := by rw [← Nat.zero_add 192, ← hasked]; rfl
    have hreads : imageRead ld 3 s = { imageRead ld 3 s with addr := ld.addr } := by simp [imageRead, hasked]
    exact .of_fin hlive (congrArg (fin s) hfetch) ⟨hload', rfl, congrArg (fun r => s.loom.reads ++ [r]) hreads, rfl⟩
  · intro s rows ld n hlive hst hload hmode hn hpos
    have hrows : fetchRows rows ld = n := hn.symm
    obtain ⟨w, hfetch⟩ := fetchImage_asks (rows := rows) hst hload hmode (by rw [hrows]; exact hpos)
    rw [hrows] at hfetch
    exact .of_fin hlive (congrArg (fin s) hfetch) ⟨rfl, rfl, rfl, rfl⟩
  · intro s e ld hlive hdma hin hpart hruns hfree hhandoff hesc hload hten hlen htaken
    have hrow := dmaRowEffect_delivers hdma hin hpart hruns hfree hhandoff hesc hload hten hlen
    exact .of_fin hlive (congrArg (fin s) (hrow.trans (deliverRow_first _ htaken hlen)))
      ⟨rfl, by simp [takeLinks], rfl⟩
  · intro s i ld v hlive hload hversion hpages hmem hnew htaken hgood hmore
    have hwalk := tileWalked_runs hload hversion hpages hmem hnew htaken
    rw [if_pos hgood] at hwalk
    exact .of_fin hlive (congrArg (fin s) (hwalk.trans (if_pos hmore))) ⟨holdsVersion_addTag _ _ _ _, rfl⟩
  · intro s i ld v hlive hload hversion hpages hmem hnew htaken hbad
    have hwalk := tileWalked_runs hload hversion hpages hmem hnew htaken
    rw [if_neg (by simp [hbad])] at hwalk
    obtain ⟨w, rs, ts, hend⟩ := endLoad_frame ld 0x0E i.toNat s
    refine .of_fin hlive (congrArg (fin s) (hwalk.trans hend)) ⟨rfl, ?_, rfl, rfl⟩
    exact (BitVec.ofNat_toNat 8 i).trans (BitVec.setWidth_eq i)

/-! ## Points and relocks (R256, R384, R393) -/

/-- A point change that is pending at L1 begins its relock at once (R256). -/
theorem advance_relocks {s : State} (hst : s.pwr.st = .l1) (hstage : s.pwr.stage = .steady) (hpending : s.loom.clock.pending = true)
    (hrelocking : s.loom.clock.relocking = false) : advance s = startRelock s := by
  have hnow : relockNow s = true := by simp [relockNow, hst, hpending, hrelocking]
  unfold advance
  simp [hstage, hnow]

/-- A write of another point waits for its relock (R256). -/
theorem writePoint_other {s : State} {p : BitVec 3} (hp : p.toNat ≤ 4) (hrelocking : s.loom.clock.relocking = false)
    (hother : p ≠ s.loom.clock.current) :
    writePoint p s = advance (onClock (fun c => { c with point := p, pending := true }) s) := by
  unfold writePoint
  simp [hrelocking, hother, not_lt.mpr hp]

/-- Module `m` at the restart of a new point (R393). -/
def unlockWarp (s : State) (m : Nat) : State :=
  if (warpOf s m).locked || decide (2 ≤ (warpOf s m).phase.toNat) then putWarp m { warpOf s m with
    locked := false, lat := 0, phase := 2, credits := 64, partnerLocked := false, crcRun := 0, syncOwed := 0
    txMarks := [], txStretch := [], txNotices := [], sent := [] } s
  else s

theorem unlockWarps_eq (s : State) : unlockWarps s = [0, 1, 2, 3].foldl unlockWarp s := rfl

theorem unlockWarp_frame (s : State) (m : Nat) : ∃ w, unlockWarp s m = { s with warp := w } := by
  unfold unlockWarp
  split <;> exact ⟨_, rfl⟩

theorem unlockWarp_locked_same (s : State) (m : Nat) : (warpOf (unlockWarp s m) m).locked = false := by
  unfold unlockWarp
  split
  · rw [warpOf_putWarp_same]
  · next h =>
    rw [Bool.or_eq_true, not_or] at h
    exact Bool.not_eq_true _ ▸ h.1

theorem warpOf_unlockWarp_other (s : State) {k m : Nat} (h : k ≠ m) : warpOf (unlockWarp s k) m = warpOf s m := by
  unfold unlockWarp
  split
  · exact warpOf_putWarp_other _ _ _ _ h
  · rfl

theorem foldl_unlockWarp_frame (ks : List Nat) (s : State) : ∃ w, ks.foldl unlockWarp s = { s with warp := w } := by
  induction ks generalizing s with
  | nil => exact ⟨s.warp, rfl⟩
  | cons k ks ih =>
    obtain ⟨w, hfirst⟩ := unlockWarp_frame s k
    obtain ⟨w', hrest⟩ := ih (unlockWarp s k)
    exact ⟨w', by rw [List.foldl_cons, hrest, hfirst]⟩

theorem foldl_unlockWarp_locked {ks : List Nat} {s : State} {m : Nat} (h : m ∈ ks ∨ (warpOf s m).locked = false) :
    (warpOf (ks.foldl unlockWarp s) m).locked = false := by
  induction ks generalizing s with
  | nil => exact h.resolve_left List.not_mem_nil
  | cons k ks ih =>
    rw [List.foldl_cons]
    by_cases hk : k = m
    · exact ih (.inr (hk ▸ unlockWarp_locked_same s k))
    · refine ih (h.imp (fun hmem => (List.mem_cons.mp hmem).resolve_left (Ne.symm hk)) fun hlocked => ?_)
      rw [warpOf_unlockWarp_other s hk, hlocked]

/-- The restart of a new point ends every warp lock (R393). -/
theorem unlockWarps_spec (s : State) :
    ∃ w, unlockWarps s = { s with warp := w } ∧ ∀ m < 4, (sget WarpModule.init w m).locked = false := by
  obtain ⟨w, hfold⟩ := foldl_unlockWarp_frame [0, 1, 2, 3] s
  refine ⟨w, (unlockWarps_eq s).trans hfold, fun m hm => ?_⟩
  have hmem : m ∈ [0, 1, 2, 3] := by interval_cases m <;> decide
  have hlocked := foldl_unlockWarp_locked (s := s) (.inl hmem)
  rw [hfold] at hlocked
  exact hlocked

/-- The point of a relock in force, `n` nominal periods on (R256, R356). -/
def pointInForce (n : Nat) (s : State) : State := { s with
  clocks := { s.clocks with frac := 0 }, mon := { s.mon with pllLock := true }
  loom := { s.loom with
    now := s.loom.now + BitVec.ofNat 64 (10 * n)
    clock := { s.loom.clock with current := s.loom.clock.lockPoint, pending := false, relocking := false, heldPoint := none } } }

/-- The restart after a relock, without a write of POINT held (R256, R393). -/
def restarted (n : Nat) (s : State) : State :=
  onLoom (fun l => { l with weave := { l.weave with repDue := true, rep0 := lcOf s, slots := [] } })
    (refreshStale (onLoom (fun l => { l with chain := { l.chain with locked := false } }) (unlockWarps (pointInForce n s))))

theorem relockDone_unheld {s : State} (n : Nat) (hrelocking : s.loom.clock.relocking = true) (hheld : s.loom.clock.heldPoint = none) :
    relockDone n s = advance (restarted n s) := by
  unfold relockDone
  dsimp only
  rw [if_neg (by simp [hrelocking]), hheld]
  rfl

/-- A restart at L1, the target, with no reset owed ends there. -/
theorem relockDone_steady {s : State} (n : Nat) (hst : s.pwr.st = .l1) (htarget : s.pwr.target = .l1) (hstage : s.pwr.stage = .steady)
    (howed : s.pwr.resetOwed = false) (hrelocking : s.loom.clock.relocking = true) (hheld : s.loom.clock.heldPoint = none) :
    relockDone n s = onPwr (fun p => { p with reached := true }) (restarted n s) := by
  obtain ⟨w, hwarps, _⟩ := unlockWarps_spec (pointInForce n s)
  rw [relockDone_unheld n hrelocking hheld]
  refine advance_reached ?_ ?_ ?_ ?_ <;> rw [restarted, hwarps]
  · exact hstage
  · rfl
  · exact howed
  · exact hst.trans htarget.symm

/-! ## Stretched cycles (R242, R243) -/

/-- With no counter selected an event changes only what is kept of the lc (R453). -/
theorem loomTally_unselected (src : Nat) (ten : Option Nat) (n : Nat) {s : State} (h : s.loom.tallySel = []) : ∃ lc evs was,
    loomTally src ten n s = { s with loom := { s.loom with tallyLc := lc, tallyEvs := evs, tallyWas := was } } := by
  unfold loomTally onLoom rollTally
  split
  · exact ⟨s.loom.tallyLc, s.loom.tallyEvs, s.loom.tallyWas, rfl⟩
  · dsimp only
    split <;> rw [h] <;> exact ⟨_, _, _, rfl⟩

/-- A droop without a chain is answered four cycles on (R242). -/
theorem droop_unchained {s : State} (h : s.loom.chain.locked = false) : droop s = addTarget (s.clocks.lc + 4) s := by
  unfold droop
  exact if_neg (by simp [h])

/-- The clock once a stretched cycle has come `g` lc after the last one (R243). -/
def stretchedClock (g : Nat) (s : State) : ClockState := { s.loom.clock with
  targets := s.loom.clock.targets.filter (fun t => decide (s.clocks.lc < t)), lastStretch := some s.clocks.lc
  lastGap := BitVec.ofNat 16 (min g 0xFFFF), minGap := BitVec.ofNat 16 (min g s.loom.clock.minGap.toNat)
  overSeen := s.loom.clock.overSeen || decide (g < 256) }

/-- A stretched cycle at its target, after an earlier one, with no counter selected. -/
theorem stretchCycle_gap {s : State} {n : Nat} (htarget : s.clocks.lc ∈ s.loom.clock.targets) (hlast : s.loom.clock.lastStretch = some n)
    (hsel : s.loom.tallySel = []) : ∃ f now lc evs was, stretchCycle s = { s with
      clocks := { s.clocks with frac := f }
      alert := if s.clocks.lc - n < 256 then putBit s.alert causeStretchOver true else s.alert
      loom := { s.loom with clock := stretchedClock (s.clocks.lc - n) s, now := now, tallyLc := lc, tallyEvs := evs, tallyWas := was } } := by
  obtain ⟨f, now, hpassed⟩ := passPeriods_frame s 1
  obtain ⟨lc, evs, was, hfirst⟩ := loomTally_unselected 0x4B none 1
    (s := { s with clocks := { s.clocks with frac := f }, loom := { s.loom with clock := stretchedClock (s.clocks.lc - n) s, now := now } }) hsel
  obtain ⟨lc', evs', was', hsecond⟩ := loomTally_unselected 0x4C none 1 (s := { s with
    clocks := { s.clocks with frac := f }
    loom := { s.loom with
      clock := stretchedClock (s.clocks.lc - n) s, now := now, tallyLc := lc, tallyEvs := evs, tallyWas := was } }) hsel
  have hcounted : stretchCycle s =
      if decide (s.clocks.lc - n < 256) then raise causeStretchOver (loomTally 0x4C none 1 (loomTally 0x4B none 1 { s with
        clocks := { s.clocks with frac := f }, loom := { s.loom with clock := stretchedClock (s.clocks.lc - n) s, now := now } }))
      else loomTally 0x4B none 1 { s with
        clocks := { s.clocks with frac := f }, loom := { s.loom with clock := stretchedClock (s.clocks.lc - n) s, now := now } } := by
    unfold stretchCycle
    dsimp only
    rw [if_neg (by simp [lcOf, htarget]), hlast, hpassed]
    rfl
  rw [hcounted, hfirst, hsecond]
  by_cases hover : s.clocks.lc - n < 256
  · exact ⟨f, now, lc', evs', was', by rw [if_pos hover, decide_eq_true hover, if_pos rfl]; rfl⟩
  · exact ⟨f, now, lc, evs, was, by rw [if_neg hover, decide_eq_false hover, if_neg Bool.false_ne_true]⟩

/-- Settles O43: a point change and its restart, a droop, a stretched cycle and CLR, each by what it does to the clock. -/
theorem clockAndStretch : Obligations.ClockAndStretch := by
  unfold Obligations.ClockAndStretch
  refine ⟨?_, ?_, ?_, ?_, ?_⟩
  · intro s p hlive hdrain hst hstage hrelocking hp hother
    have hreach : loomReachable s.pwr = true := by simp [loomReachable, inResetGap, hst, hstage]
    have hheard : hostPosts none (writePoint p) s = writePoint p s := hostPosts_heard none (writePoint p) ⟨⟨hlive, hreach⟩, hdrain⟩
    have hrelock := advance_relocks (s := onClock (fun c => { c with point := p, pending := true }) s) hst hstage rfl hrelocking
    exact .of_fin hlive (congrArg (fin s) (hheard.trans ((writePoint_other hp hrelocking hother).trans hrelock))) ⟨rfl, rfl, rfl⟩
  · intro s n hlive hst htarget hstage howed hrelocking hheld
    obtain ⟨w, hwarps, hlocked⟩ := unlockWarps_spec (pointInForce n s)
    have hdone := relockDone_steady n hst htarget hstage howed hrelocking hheld
    rw [restarted, hwarps] at hdone
    exact .of_fin hlive (congrArg (fin s) hdone) ⟨rfl, rfl, rfl, rfl, rfl, rfl, hlocked⟩
  · intro s hlive hruns hchain
    exact .of_fin hlive (congrArg (fin s) ((if_pos hruns).trans (droop_unchained hchain))) rfl
  · intro s n hlive hruns htarget hlast _ hgap hsel
    obtain ⟨f, now, lc, evs, was, hcycle⟩ := stretchCycle_gap htarget hlast hsel
    refine .of_fin hlive (congrArg (fin s) ((if_pos hruns).trans hcycle)) ⟨rfl, ?_, ?_, ?_, rfl, rfl⟩
    · have hlow : (BitVec.ofNat 16 (min (s.clocks.lc - n) 0xFFFF)).toNat = s.clocks.lc - n := by
        rw [BitVec.toNat_ofNat]
        omega
      exact hlow
    · have hmin := s.loom.clock.minGap.isLt
      exact (BitVec.toNat_ofNat _ _).trans (Nat.mod_eq_of_lt (by omega))
    · intro hmem
      exact absurd (List.mem_filter.mp hmem).2 (by simp)
  · intro s hheard
    exact .of_fin hheard.1.1 (congrArg (fin s) (hostPosts_heard none clearStretch hheard)) rfl

/-! ## A park entry that is no whole number of words (R253, R254, R337) -/

/-- A write to the last word of bank 9 of tile 0 of which one byte is left, as no access of the host leaves it: the aperture applies
whole words. -/
def tornWrite : Waiting :=
  { isRead := false, kv := false, addr := tileBase + 10 * 0x4000 - 8, size := 8, data := [0], tag := 0, owner := 0, since := 0, lc := 0 }

/-- The loom at L3, where no bank access may be applied, with the torn write in module 0's park. -/
def tornPark : State := { State.reset with weft := [(0, { WeftModule.init with park := [tornWrite] })] }

/-- The byte that is left lies in bank 9. -/
theorem placeOf_tornWrite : placeOf tornWrite = .bank 0 9 0x3FFF := by decide

/-- A read of the park entry finds its whole words only: none, and the place past them lies in no bank. An access that touches nothing is
applied in any lc, so the entry leaves the park. -/
theorem applyWaiting_tornPark : (weftOf (applyWaiting 0 0 [] tornPark) 0).park = [] := by decide

/-- Refutes O53: an access whose bank may not be accessed is applied all the same where its park entry holds no whole number of words,
for the entry is read word by word and its place is that of the words read. -/
theorem not_apertures : ¬ Obligations.Apertures := by
  unfold Obligations.Apertures
  rintro ⟨_, _, _, _, _, _, _, _, hwaits, _⟩
  obtain ⟨t, hexec, hsame⟩ := hwaits tornPark 0 tornWrite 0 9 0x3FFF rfl rfl placeOf_tornWrite (by decide)
  have ht : settle tornPark (applyWaiting 0 0 [] tornPark) = t :=
    Host.Outcome.next.inj ((next_of_fin (c := .apertureApply 0 0 []) _ rfl rfl).symm.trans hexec)
  have hpark : (weftOf t 0).park = [] := ht ▸ applyWaiting_tornPark
  rw [hsame] at hpark
  exact absurd hpark (List.cons_ne_nil _ _)

/-! ## Ready results (R236, R294) -/

/-- A result changes registers, rows, accumulators and sites alone. -/
theorem applyEffect_frame (y : Tile) (e : Effect) : ∃ a v r q ss,
    applyEffect y e = { y with acc := a, vreg := v, vecRow := r, qntRow := q, sites := ss } := by
  cases e <;> exact ⟨_, _, _, _, _, rfl⟩

/-- So do results in any order. -/
theorem foldl_applyEffect_frame (fs : List InFlight) (y : Tile) : ∃ a v r q ss,
    fs.foldl (fun t f => applyEffect t f.eff) y = { y with acc := a, vreg := v, vecRow := r, qntRow := q, sites := ss } := by
  induction fs generalizing y with
  | nil => exact ⟨y.acc, y.vreg, y.vecRow, y.qntRow, y.sites, rfl⟩
  | cons f fs ih =>
    obtain ⟨a, v, r, q, ss, hfirst⟩ := applyEffect_frame y f.eff
    obtain ⟨a', v', r', q', ss', hrest⟩ := ih (applyEffect y f.eff)
    exact ⟨a', v', r', q', ss', by rw [List.foldl_cons, hrest, hfirst]⟩

section settleTile
variable (lc : Nat) (y : Tile)

theorem settleTile_frame : ∃ a v r q ss, settleTile lc y = { y with
    flights := y.flights.filter (fun f => decide (lc < f.ready)), acc := a, vreg := v, vecRow := r, qntRow := q, sites := ss } :=
  foldl_applyEffect_frame _ _

@[simp] theorem settleTile_flights : (settleTile lc y).flights = y.flights.filter (fun f => decide (lc < f.ready)) := by
  obtain ⟨_, _, _, _, _, h⟩ := settleTile_frame lc y
  rw [h]

@[simp] theorem settleTile_slot : (settleTile lc y).slot = y.slot := by
  obtain ⟨_, _, _, _, _, h⟩ := settleTile_frame lc y
  rw [h]

@[simp] theorem settleTile_loops : (settleTile lc y).loops = y.loops := by
  obtain ⟨_, _, _, _, _, h⟩ := settleTile_frame lc y
  rw [h]

@[simp] theorem settleTile_cnt : (settleTile lc y).cnt = y.cnt := by
  obtain ⟨_, _, _, _, _, h⟩ := settleTile_frame lc y
  rw [h]

@[simp] theorem settleTile_held : (settleTile lc y).held = y.held := by
  obtain ⟨_, _, _, _, _, h⟩ := settleTile_frame lc y
  rw [h]

/-- With no result ready a tile is as it was. -/
theorem settleTile_quiet (h : ∀ f ∈ y.flights, lc < f.ready) : settleTile lc y = y := by
  have hready : y.flights.filter (fun f => decide (f.ready ≤ lc)) = [] := by
    simp only [List.filter_eq_nil_iff, decide_eq_true_eq]
    exact fun f hf => not_le.mpr (h f hf)
  have hkept : y.flights.filter (fun f => decide (lc < f.ready)) = y.flights := by
    simpa only [List.filter_eq_self, decide_eq_true_eq] using h
  unfold settleTile readyFlights
  rw [hready, hkept]
  rfl

/-- Results take effect once. -/
theorem settleTile_settleTile : settleTile lc (settleTile lc y) = settleTile lc y := by
  refine settleTile_quiet lc _ fun f hf => ?_
  rw [settleTile_flights] at hf
  exact of_decide_eq_true (List.mem_filter.mp hf).2

end settleTile

/-! ## One tile of the fabric -/

/-- The states differ at most in the table of tiles, and there at tile `i` alone, which is `y`. -/
def OneTile (s e : State) (i : Nat) (y : Tile) : Prop :=
  tileOf e i = y ∧ (∀ j, j ≠ i → tileOf e j = tileOf s j) ∧ e = { s with loom := { s.loom with tiles := e.loom.tiles } }

namespace OneTile
variable {s e : State} {i : Nat} {y : Tile}

theorem refl (s : State) (i : Nat) : OneTile s s i (tileOf s i) := ⟨rfl, fun _ _ => rfl, rfl⟩

theorem lc (h : OneTile s e i y) : lcOf e = lcOf s := by
  rw [h.2.2]
  rfl

/-- A further write of the tile replaces it. -/
theorem put (h : OneTile s e i y) (z : Tile) : OneTile s (putTile i z e) i z := by
  obtain ⟨_, hothers, heq⟩ := h
  refine ⟨tileOf_putTile_same _ _ _, fun j hj => (tileOf_putTile_other _ _ _ _ (Ne.symm hj)).trans (hothers j hj), ?_⟩
  rw [heq]
  rfl

theorem tile (h : OneTile s e i y) : tileOf e i = y := h.1

theorem other (h : OneTile s e i y) {j : Nat} (hj : j ≠ i) : tileOf e j = tileOf s j := h.2.1 j hj

theorem eq (h : OneTile s e i y) : e = { s with loom := { s.loom with tiles := e.loom.tiles } } := h.2.2

end OneTile

/-! ## Issue (R233, R239) -/

/-- The state in which field `k` of tile `i`'s bundle acts: its issue is booked and the tile's ready results are in effect. -/
def issuedOn (i k : Nat) (s : State) : State := settleOn i (noteIssued i k s)

theorem tileOf_settleOn_same (i : Nat) (s : State) : tileOf (settleOn i s) i = settleTile (lcOf s) (tileOf s i) := by
  unfold settleOn
  obtain ⟨ta, h⟩ := loomTally_frame (putTile i (settleTile (lcOf s) (tileOf s i)) s) 0x49 (tileOf s i).lastTenant
    (readyOverflow (lcOf s) (tileOf s i))
  dsimp only
  rw [h]
  exact tileOf_putTile_same s i _

theorem tileOf_settleOn_other {i j : Nat} (s : State) (hj : j ≠ i) : tileOf (settleOn i s) j = tileOf s j := by
  unfold settleOn
  obtain ⟨ta, h⟩ := loomTally_frame (putTile i (settleTile (lcOf s) (tileOf s i)) s) 0x49 (tileOf s i).lastTenant
    (readyOverflow (lcOf s) (tileOf s i))
  dsimp only
  rw [h]
  exact tileOf_putTile_other s i j _ hj.symm

section issuedOn
variable (s : State) (i : BitVec 8) (k : Nat)

theorem tileOf_issuedOn_same : tileOf (issuedOn i.toNat k s) i.toNat = settled s i := tileOf_settleOn_same _ _

theorem tileOf_issuedOn_other {j : Nat} (hj : j ≠ i.toNat) : tileOf (issuedOn i.toNat k s) j = tileOf s j := tileOf_settleOn_other _ hj

/-- Issue changes the tiles, the count of outliers and the book of issues. -/
theorem issuedOn_frame : ∃ ts ta u, issuedOn i.toNat k s =
    { s with loom := Loom.tallied { s.loom with tiles := ts, issued := u } ta } := by
  obtain ⟨u, hnote⟩ := noteIssued_frame s i.toNat k
  obtain ⟨ts, ta, h⟩ := settleOn_frame { s with loom := { s.loom with issued := u } } i.toNat
  exact ⟨ts, ta, u, by rw [issuedOn, hnote, h]⟩

/-- The loom's books after the issue are those that the claims name. -/
theorem issuedOn_eq : issuedOn i.toNat k s = { s with loom := issueBooks s i k } := by
  obtain ⟨ts, ta, u, h⟩ := issuedOn_frame s i k
  have hbooks : issueBooks s i k = (issuedOn i.toNat k s).loom := rfl
  rw [hbooks, h]

end issuedOn

theorem lcOf_issuedOn (s : State) (i : BitVec 8) (k : Nat) : lcOf (issuedOn i.toNat k s) = s.clocks.lc := by
  rw [issuedOn_eq]
  rfl

/-- A field that spells the operation acts after its issue. -/
theorem issueOn_issues {s : State} {i : BitVec 8} {k b : Nat} {x : Slot} {spells : Nat → Bool} (f : Nat → Slot → State → State)
    (hissues : Issues s i k b x) (hspells : spells b = true) : issueOn i.toNat k spells f s = f b x (issuedOn i.toNat k s) := by
  obtain ⟨_, hslot, hfresh, rfl⟩ := hissues
  exact issueOn_some f hslot hfresh hspells

/-- A command that leaves one tile changed after an issue. -/
theorem OneTile.onlyTile {s e : State} {i : BitVec 8} {k : Nat} {y : Tile} (h : OneTile (issuedOn i.toNat k s) e i.toNat y) :
    OnlyTile s (settle s e) i k y := by
  refine ⟨h.tile, fun j _ hj => (h.other hj).trans (tileOf_issuedOn_other s i k hj), ?_⟩
  have heq := h.eq
  rw [issuedOn_eq] at heq
  exact congrArg (fun u : State => { u with seen := (settle s e).seen }) heq

/-- After an issue that touches one tile the rest is as it was. -/
theorem OneTile.frame {s e : State} {i : BitVec 8} {k : Nat} {y : Tile} (h : OneTile (issuedOn i.toNat k s) e i.toNat y) :
    ∃ ts ta u, e = { s with loom := Loom.tallied { s.loom with tiles := ts, issued := u } ta } := by
  obtain ⟨ts, ta, u, hissued⟩ := issuedOn_frame s i k
  have heq := h.eq
  rw [hissued] at heq
  exact ⟨e.loom.tiles, ta, u, heq⟩

/-! ## CTL (R234) -/

/-- Tile `i` as its control operation finds it: the bundle stays in force for its other fields. -/
def ctlTile (s : State) (i : BitVec 8) : Tile := { settled s i with held := some (heldBy s i) }

section ctl
variable {s : State} {i : BitVec 8} {b : Nat} {x : Slot}

/-- A control operation that the bundle spells acts on its tile. -/
theorem ctl_issues {op : Nat} {names : Nat → Bool} (f : Slot → State → State) (hissues : Issues s i fieldCtl b x)
    (hop : ctlOp b = op) (hnames : names b = true) :
    ctl op i.toNat names f s = f x (holdBundle i.toNat (issuedOn i.toNat fieldCtl s)) := by
  unfold ctl issueCtl
  exact issueOn_issues _ hissues (by simp [hop, hnames])

/-- One that it does not spell changes nothing (log 35). -/
theorem ctl_other {op : Nat} {names : Nat → Bool} (f : Slot → State → State) (hissues : Issues s i fieldCtl b x)
    (hnames : names b = false) : ctl op i.toNat names f s = s := by
  obtain ⟨_, hslot, _, hb⟩ := hissues
  unfold ctl issueCtl
  refine issueOn_other (fun _ x s => f x (holdBundle i.toNat s)) hslot ?_
  rw [hb, hnames]
  simp

theorem holdBundle_oneTile (s : State) (i : BitVec 8) :
    OneTile (issuedOn i.toNat fieldCtl s) (holdBundle i.toNat (issuedOn i.toNat fieldCtl s)) i.toNat (ctlTile s i) := by
  have htile := tileOf_issuedOn_same s i fieldCtl
  unfold holdBundle
  rw [htile, lcOf_issuedOn]
  exact (OneTile.refl _ _).put _

end ctl

/-- With no upset known in the draft stores a bundle is fetched as it stands (R266). -/
theorem fetchBundle_clean {s : State} (t n : Nat) (x : Slot) (h : s.loom.storeUp = []) : fetchBundle t n x s = s := by
  unfold fetchBundle
  split
  · rfl
  · have hcorrected : ∀ w, correctedIn s.loom.storeUp w 8 = 0 := fun w => by simp [h, correctedIn, upsetOf]
    have hbad : ∀ w, uncorrectableIn s.loom.storeUp w 8 = 0 := fun w => by simp [h, uncorrectableIn, upsetOf]
    simp only [hcorrected, hbad, if_true]
    rfl

section goTo
variable {s e : State} {i : BitVec 8} {y : Tile}

/-- The tile goes on to bundle `pc`. -/
theorem goTo_oneTile (x : Slot) (pc : Nat) (hclean : s.loom.storeUp = []) (h : OneTile (issuedOn i.toNat fieldCtl s) e i.toNat y) :
    OneTile (issuedOn i.toNat fieldCtl s) (goTo i.toNat x pc e) i.toNat { y with pc := pc } := by
  have hstore : e.loom.storeUp = [] := by
    obtain ⟨ts, ta, u, heq⟩ := h.frame
    rw [heq]
    exact hclean
  unfold goTo
  rw [fetchBundle_clean (s := putTile i.toNat { tileOf e i.toNat with pc := pc } e) _ _ _ hstore, h.tile]
  exact h.put _

end goTo

/-! ## The control operations, each on the tile that its bundle holds in force (R234) -/

section operations
variable {s : State} {i : BitVec 8} {b : Nat} {x : Slot}

theorem nextEffect_issues (hissues : Issues s i fieldCtl b x) (hclean : s.loom.storeUp = []) (hop : ctlOp b = 0) :
    OneTile (issuedOn i.toNat fieldCtl s) (nextEffect i.toNat s) i.toNat { ctlTile s i with pc := (ctlTile s i).pc + 1 } := by
  have hheld := holdBundle_oneTile s i
  unfold nextEffect
  rw [ctl_issues _ hissues hop rfl, hheld.tile]
  exact goTo_oneTile x _ hclean hheld

theorem loopEffect_issues {n : Nat} (hissues : Issues s i fieldCtl b x) (hclean : s.loom.storeUp = []) (hop : ctlOp b = 1)
    (hn : field b 4 20 = n) (hdepth : (tileOf s i.toNat).loops.length < 4) :
    OneTile (issuedOn i.toNat fieldCtl s) (loopEffect i.toNat n s) i.toNat { ctlTile s i with
      pc := (ctlTile s i).pc + 1, loops := ((ctlTile s i).pc + 1, n + 1) :: (ctlTile s i).loops } := by
  have hheld := holdBundle_oneTile s i
  have hloops : (ctlTile s i).loops = (tileOf s i.toNat).loops := settleTile_loops _ _
  have hroom : (((ctlTile s i).pc + 1, n + 1) :: (ctlTile s i).loops).take 4 = ((ctlTile s i).pc + 1, n + 1) :: (ctlTile s i).loops :=
    List.take_of_length_le (by rw [List.length_cons, hloops]; exact hdepth)
  unfold loopEffect
  rw [ctl_issues _ hissues hop (by simp [hn])]
  dsimp only
  rw [hheld.tile, hroom]
  exact goTo_oneTile x _ hclean (hheld.put _)

/-- ENDLOOP goes back to its body while iterations are left, else on, its loop closed. -/
theorem endloopEffect_issues {m body k : Nat} {rest : List (Nat × Nat)} (hissues : Issues s i fieldCtl b x)
    (hclean : s.loom.storeUp = []) (hop : ctlOp b = 2) (hm : field b 24 4 = m) (hloops : (tileOf s i.toNat).loops = (body, k) :: rest) :
    OneTile (issuedOn i.toNat fieldCtl s) (endloopEffect i.toNat m s) i.toNat (
      if 1 < k then { addStrides m (ctlTile s i) with pc := body, loops := (body, k - 1) :: rest }
      else { addStrides m (ctlTile s i) with pc := (ctlTile s i).pc + 1, loops := rest }) := by
  have hheld := holdBundle_oneTile s i
  have hopen : (addStrides m (ctlTile s i)).loops = (body, k) :: rest := (settleTile_loops _ _).trans hloops
  unfold endloopEffect
  rw [ctl_issues _ hissues hop (by simp [hm])]
  dsimp only
  rw [hheld.tile, hopen]
  dsimp only
  split
  · exact goTo_oneTile x _ hclean (hheld.put _)
  · exact goTo_oneTile x _ hclean (hheld.put _)

theorem waitEffect_issues {n : Nat} (hissues : Issues s i fieldCtl b x) (hop : ctlOp b = 3) (hn : field b 4 20 = n) :
    OneTile (issuedOn i.toNat fieldCtl s) (waitEffect i.toNat n s) i.toNat
      { ctlTile s i with run := .waiting (s.clocks.lc + n + 1) } := by
  have hheld := holdBundle_oneTile s i
  have hlc : lcOf (holdBundle i.toNat (issuedOn i.toNat fieldCtl s)) = s.clocks.lc := hheld.lc.trans (lcOf_issuedOn s i fieldCtl)
  unfold waitEffect
  rw [ctl_issues _ hissues hop (by simp [hn])]
  rw [hheld.tile, hlc]
  exact hheld.put _

theorem setaEffect_issues {c : BitVec 2} {v d : BitVec 8} (hissues : Issues s i fieldCtl b x) (hclean : s.loom.storeUp = [])
    (hop : ctlOp b = 5) (hc : field b 4 2 = c.toNat) (hv : field b 6 8 = v.toNat) (hd : field b 14 8 = d.toNat) :
    OneTile (issuedOn i.toNat fieldCtl s) (setaEffect i.toNat c v d s) i.toNat { ctlTile s i with
      pc := (ctlTile s i).pc + 1
      cnt := sput 0 (ctlTile s i).cnt c.toNat v, stride := sput 0 (ctlTile s i).stride c.toNat d } := by
  have hheld := holdBundle_oneTile s i
  unfold setaEffect
  rw [ctl_issues _ hissues hop (by simp [hc, hv, hd])]
  dsimp only
  rw [hheld.tile]
  exact goTo_oneTile x _ hclean (hheld.put _)

/-- A wait that is over: the tile issues its next bundle (R234). -/
theorem waitEndEffect_over {t n : Nat} (hclean : s.loom.storeUp = []) (hrun : (tileOf s t).run = .waiting n) (hn : n ≤ s.clocks.lc)
    (htakes : takesPart s t = true) (hslot : (tileOf s t).slot.bind (slotOfEntry s) = some x) :
    waitEndEffect t s = putTile t { tileOf s t with run := .issuing, pc := (tileOf s t).pc + 1 } s := by
  have hgo : (decide (n ≤ lcOf s) && takesPart s t) = true := by simp [lcOf, hn, htakes]
  unfold waitEndEffect
  simp only [hrun, hslot, hgo, if_true]
  exact fetchBundle_clean (s := putTile t { tileOf s t with run := .issuing, pc := (tileOf s t).pc + 1 } s) t (lcOf s) x hclean

/-- HALT copies the row that RES names, and the tile runs its tail. -/
theorem haltEffect_issues (ups : Upsets) (hissues : Issues s i fieldCtl b x) (hop : ctlOp b = 4) : haltEffect i.toNat ups s =
    let s1 := resCopy i.toNat ups x (holdBundle i.toNat (issuedOn i.toNat fieldCtl s))
    modSlot x.entry (fun y => { y with halted := true }) (putTile i.toNat { tileOf s1 i.toNat with run := .tail } s1) :=
  ctl_issues _ hissues hop rfl

end operations

/-! ## Slots of a pass -/

/-- The slot that a tile issues for is the one its entry names. -/
theorem slotOfEntry_of_issuing {s : State} {t : Nat} {x : Slot} (h : issuing s t = some x) : slotOfEntry s x.entry = some x := by
  unfold issuing at h
  dsimp only at h
  split at h
  · obtain ⟨e, _, hfind⟩ := Option.bind_eq_some_iff.mp h
    have hentry : x.entry = e := by simpa using List.find?_some hfind
    rw [hentry, hfind]
  · cases h

/-- A change of the slot of an entry that keeps its entry. -/
theorem slotOfEntry_modSlot {s : State} {x : Slot} (f : Slot → Slot) (h : slotOfEntry s x.entry = some x)
    (hentry : ∀ y, (f y).entry = y.entry) : slotOfEntry (modSlot x.entry f s) x.entry = some (f x) := by
  have hpred : ((fun y : Slot => y.entry == x.entry) ∘ fun y => if y.entry = x.entry then f y else y) = fun y => y.entry == x.entry := by
    funext y
    by_cases hy : y.entry = x.entry
    · simp [hy, hentry]
    · simp [hy]
  have hfind : slotOfEntry (modSlot x.entry f s) x.entry =
      (slotOfEntry s x.entry).map (fun y => if y.entry = x.entry then f y else y) := by
    unfold slotOfEntry modSlot
    rw [onLoom_at, List.find?_map, hpred]
  rw [hfind, h, Option.map_some, if_pos rfl]

/-! ## Rows of a bank (R232, R466) -/

theorem span_add (a p q : Nat) : span a (p + q) = span a p ++ span (a + p) q := by
  simp [span, List.range_add, Nat.add_assoc]

theorem mread_add (m : Memory) (a p q : Nat) : mread m a (p + q) = mread m a p ++ mread m (a + p) q := by
  rw [mread, span_add, List.map_append]
  rfl

/-- Bytes read word by word. -/
theorem flatMap_mread (m : Memory) (w k : Nat) : (span w k).flatMap (fun v => mread m (8 * v) 8) = mread m (8 * w) (8 * k) := by
  induction k with
  | zero => rfl
  | succ k ih =>
    have hlast : span (w + k) 1 = [w + k] := by simp [span]
    rw [span_add, List.flatMap_append, ih, hlast, Nat.mul_add 8 k 1, mread_add, ← Nat.mul_add]
    simp

/-- With no upset known a read finds the bytes that are stored. -/
theorem peekRow_clean (m : Memory) {a : Nat} (ha : a % 8 = 0) (k : Nat) : peekRow m [] a (8 * k) = mread m a (8 * k) := by
  have haddr : 8 * (a / 8) = a := by omega
  have hwords : peekRow m [] a (8 * k) = (span (a / 8) k).flatMap (fun v => mread m (8 * v) 8) := by
    unfold peekRow
    rw [Nat.mul_div_cancel_left k (by decide)]
    rfl
  rw [hwords, flatMap_mread, haddr]

/-- A bank row read with no upset known or found: its bytes, and no books. -/
theorem readBankRow_clean {s : State} (t k row : Nat) (owner : Option Nat) (h : s.loom.bankUp = []) :
    readBankRow t k row owner [] s = (mread s.loom.banks (rowAddr t k row) 64, false, s) := by
  have haligned : rowAddr t k row % 8 = 0 := by
    have htile : Config.tileBank = 16384 := rfl
    rw [rowAddr, htile]
    omega
  have hsame : onLoom (fun l => { l with bankUp := [] }) s = s :=
    congrArg (fun u => { s with loom := { s.loom with bankUp := u } }) h.symm
  have hcorrected : ∀ w, correctedIn [] w 8 = 0 := fun w => by simp [correctedIn, upsetOf]
  have hbad : ∀ w, uncorrectableIn [] w 8 = 0 := fun w => by simp [uncorrectableIn, upsetOf]
  have hup : addUpsets s.loom.bankUp [] = [] := by simp [h, addUpsets]
  unfold readBankRow
  simp only [List.filter_nil, hup, hcorrected, hbad, hsame]
  rw [peekRow_clean s.loom.banks haligned 8]
  rfl

/-- A row that a pass reads from its own bank. -/
theorem passRead_clean {s : State} {t k : Nat} {x : Slot} (row : Nat) (hbank : bankBreach s t k x = none) (hup : s.loom.bankUp = []) :
    passRead t k row [] x s = (mread s.loom.banks (rowAddr t k row) 64, useBank (bankKey t k) s) := by
  have hread := readBankRow_clean (s := useBank (bankKey t k) s) t k row (some (draftOf s x.draft).tenant) hup
  unfold passRead
  rw [hbank]
  simp only [hread, Bool.false_eq_true, if_false]
  rfl

/-- A breach of a bank is judged without the tiles. -/
theorem OneTile.bankBreach {s e : State} {i : Nat} {y : Tile} (h : OneTile s e i y) (t k : Nat) (x : Slot) :
    bankBreach e t k x = Machine.bankBreach s t k x := by
  rw [h.eq]
  rfl

theorem bankBreach_issuedOn (s : State) (i : BitVec 8) (k t bank : Nat) (x : Slot) :
    bankBreach (issuedOn i.toNat k s) t bank x = bankBreach s t bank x := by
  obtain ⟨ts, ta, u, h⟩ := issuedOn_frame s i k
  rw [h]
  rfl

/-! ## RES (R357, log 2) -/

/-- A pass of no job copies nothing. -/
theorem resCopy_jobless {s : State} (t : Nat) (ups : Upsets) {x : Slot} (h : slotJob x = none) : resCopy t ups x s = s := by
  unfold resCopy
  rw [h]
  rfl

/-- The last pass of a job copies the row that its RES names on the tile. -/
theorem resCopy_last {s : State} {t bank row : Nat} {x : Slot} {j : Job} (hjob : (slotJob x).bind (jobOf s) = some j)
    (hres : j.resAt = some (t, bank, row)) (hlast : j.ran + 1 = j.passes) (hbank : bankBreach s t bank x = none)
    (hup : s.loom.bankUp = []) : resCopy t [] x s =
      modJob j.order (fun j => { j with result := slice (mread s.loom.banks (rowAddr t bank row) 64) 0 24 })
        (useBank (bankKey t bank) s) := by
  have hread := passRead_clean row hbank hup
  unfold resCopy
  simp only [hjob, hres, hlast, and_self, if_true, hread]

/-- The job of an order, once it is changed in a way that keeps orders. -/
theorem jobOf_modJob {s : State} {j : Job} (f : Job → Job) (h : jobOf s j.order = some j) (horder : ∀ k, (f k).order = k.order) :
    jobOf (modJob j.order f s) j.order = some (f j) := by
  have hpred : ((fun k : Job => k.order == j.order) ∘ fun k => if k.order = j.order then f k else k) = fun k => k.order == j.order := by
    funext k
    by_cases hk : k.order = j.order
    · simp [hk, horder]
    · simp [hk]
  have hfind : jobOf (modJob j.order f s) j.order = (jobOf s j.order).map (fun k => if k.order = j.order then f k else k) := by
    unfold jobOf modJob
    rw [onJobs_frame, List.find?_map, hpred]
  rw [hfind, h, Option.map_some, if_pos rfl]

theorem jobOf_order {s : State} {o : Nat} {j : Job} (h : jobOf s o = some j) : j.order = o := by
  simpa using List.find?_some h

namespace OneTile
variable {s e : State} {i : BitVec 8} {k : Nat} {y : Tile}

theorem weave (h : OneTile (issuedOn i.toNat k s) e i.toNat y) : e.loom.weave = s.loom.weave := by
  obtain ⟨ts, ta, u, heq⟩ := h.frame
  rw [heq]
  rfl

/-- The slots of a pass stand beside its tiles. -/
theorem slotOfEntry {b : Nat} {x : Slot} (h : OneTile (issuedOn i.toNat k s) e i.toNat y) (hissues : Issues s i k b x) :
    Machine.slotOfEntry e x.entry = some x := by
  have hslot : Machine.slotOfEntry s x.entry = some x := slotOfEntry_of_issuing hissues.2.1
  unfold Machine.slotOfEntry at hslot ⊢
  rw [h.weave, hslot]

/-- A tile and its slot change beside the books of the issue. -/
theorem modSlot (h : OneTile (issuedOn i.toNat k s) e i.toNat y) (n : Nat) (f : Slot → Slot) :
    Machine.modSlot n f e = { s with loom := { issueBooks s i k with
      tiles := e.loom.tiles, weave := { s.loom.weave with slots := (Machine.modSlot n f e).loom.weave.slots } } } := by
  have heq := h.eq
  rw [issuedOn_eq] at heq
  calc Machine.modSlot n f e
      = { e with loom := { e.loom with weave := { e.loom.weave with slots := (Machine.modSlot n f e).loom.weave.slots } } } := rfl
    _ = _ := by
      generalize (Machine.modSlot n f e).loom.weave.slots = sl
      rw [h.weave, heq]

end OneTile

/-! ## HALT (R239, R357) -/

section halt
variable (s : State) (i : BitVec 8)

/-- A pass of no job halts: its tile runs its tail and its slot is marked. -/
theorem haltEffect_jobless {b : Nat} {x : Slot} (ups : Upsets) (hissues : Issues s i fieldCtl b x) (hop : ctlOp b = 4)
    (hjob : slotJob x = none) : ∃ e, OneTile (issuedOn i.toNat fieldCtl s) e i.toNat { ctlTile s i with run := .tail }
      ∧ haltEffect i.toNat ups s = modSlot x.entry (fun y => { y with halted := true }) e := by
  have hheld := holdBundle_oneTile s i
  refine ⟨_, hheld.put { ctlTile s i with run := .tail }, ?_⟩
  rw [haltEffect_issues ups hissues hop, resCopy_jobless _ _ hjob]
  dsimp only
  rw [hheld.tile]

/-- The jobs after a HALT are those after its copy, and the tile runs its tail. -/
theorem haltEffect_reads {b : Nat} {x : Slot} (ups : Upsets) (hissues : Issues s i fieldCtl b x) (hop : ctlOp b = 4) (o : Nat) :
    let t := haltEffect i.toNat ups s
    jobOf t o = jobOf (resCopy i.toNat ups x (holdBundle i.toNat (issuedOn i.toNat fieldCtl s))) o ∧ (tileOf t i.toNat).run = .tail := by
  rw [haltEffect_issues ups hissues hop]
  generalize resCopy i.toNat ups x (holdBundle i.toNat (issuedOn i.toNat fieldCtl s)) = s1
  exact ⟨rfl, congrArg Tile.run (tileOf_putTile_same s1 i.toNat { tileOf s1 i.toNat with run := .tail })⟩

/-- The last pass of a job halts: the row of RES is the job's result. -/
theorem jobOf_resCopy {bank row : Nat} {x : Slot} {j : Job} (hjob : (slotJob x).bind (jobOf s) = some j)
    (hres : j.resAt = some (i.toNat, bank, row)) (hlast : j.ran + 1 = j.passes) (hbank : bankBreach s i.toNat bank x = none)
    (hup : s.loom.bankUp = []) : jobOf (resCopy i.toNat [] x (holdBundle i.toNat (issuedOn i.toNat fieldCtl s))) j.order =
      some { j with result := slice (mread s.loom.banks (rowAddr i.toNat bank row) 64) 0 24 } := by
  have hbank' : bankBreach (holdBundle i.toNat (issuedOn i.toNat fieldCtl s)) i.toNat bank x = none := by
    rw [(holdBundle_oneTile s i).bankBreach, bankBreach_issuedOn, hbank]
  obtain ⟨o, _, hfind⟩ := Option.bind_eq_some_iff.mp hjob
  have hown : jobOf s j.order = some j := by rw [jobOf_order hfind, hfind]
  obtain ⟨ts, ta, u, heq⟩ := (holdBundle_oneTile s i).frame
  generalize holdBundle i.toNat (issuedOn i.toNat fieldCtl s) = e at hbank' heq
  have hjobs : jobOf e = jobOf s := by rw [heq]; rfl
  have hbanks : e.loom.banks = s.loom.banks := by rw [heq]; rfl
  have hup' : e.loom.bankUp = [] := by rw [heq]; exact hup
  rw [resCopy_last (by rw [hjobs, hjob]) hres hlast hbank' hup', hbanks]
  exact jobOf_modJob (s := useBank (bankKey i.toNat bank) e) _ ((congrFun hjobs _).trans hown) fun _ => rfl

end halt

/-- Settles O45: each operation acts on the tile that its bundle holds in force; HALT's copy reads a bank of the pass. -/
theorem tileControl : Obligations.TileControl := by
  unfold Obligations.TileControl
  refine ⟨?_, ?_, ?_, ?_, ?_, ?_, ?_, ?_, ?_, ?_⟩
  · intro s i b x hissues hclean hop
    exact .of_fin hissues.1 rfl (nextEffect_issues hissues hclean hop).onlyTile
  · intro s i b x n hissues hclean hop hn hdepth
    exact .of_fin hissues.1 rfl (loopEffect_issues hissues hclean hop hn hdepth).onlyTile
  · intro s i b x body k rest m hissues hclean hop hm hloops hk
    have hend := endloopEffect_issues hissues hclean hop hm hloops
    rw [if_pos hk] at hend
    exact .of_fin hissues.1 rfl hend.onlyTile
  · intro s i b x body k rest m hissues hclean hop hm hloops hk
    have hend := endloopEffect_issues hissues hclean hop hm hloops
    rw [if_neg (not_lt.mpr hk)] at hend
    exact .of_fin hissues.1 rfl hend.onlyTile
  · intro s i b x n hissues hop hn
    exact .of_fin hissues.1 rfl (waitEffect_issues hissues hop hn).onlyTile
  · intro s i x n hlive hclean hrun hn htakes hslot
    refine .of_fin hlive (congrArg (fin s) (waitEndEffect_over hclean hrun hn htakes hslot)) ⟨?_, fun j _ hj => ?_, rfl⟩
    · exact tileOf_putTile_same _ _ _
    · exact tileOf_putTile_other _ _ _ _ hj.symm
  · intro s i b x c v d hissues hclean hop hc hv hd
    exact .of_fin hissues.1 rfl (setaEffect_issues hissues hclean hop hc hv hd).onlyTile
  · intro s i b x n hissues hn
    exact .of_fin hissues.1 (congrArg (fin s) (ctl_other _ hissues (by simp [hn]))) rfl
  · intro s i b x hissues hop hjob
    obtain ⟨e, hone, hhalt⟩ := haltEffect_jobless s i [] hissues hop hjob
    refine .of_fin hissues.1 (congrArg (fin s) hhalt) ⟨hone.tile, ?_, fun j _ hj => ?_, ?_⟩
    · exact slotOfEntry_modSlot _ (hone.slotOfEntry hissues) fun _ => rfl
    · exact (hone.other hj).trans (tileOf_issuedOn_other s i fieldCtl hj)
    · rw [hone.modSlot]
      rfl
  · intro s i b x j bank row hissues hop hjob hres hlast hbank hup
    obtain ⟨hjobs, htail⟩ := haltEffect_reads s i [] hissues hop j.order
    exact .of_fin hissues.1 rfl ⟨hjobs.trans (jobOf_resCopy s i hjob hres hlast hbank hup), htail⟩

/-! ## Rows on their way (R232, R235) -/

section banks
variable (s : State) (i : BitVec 8) (k : Nat)

/-- The counters that the bundle of this lc finds are those from before the issue. -/
theorem bundleCnt_issuedOn : bundleCnt (issuedOn i.toNat k s) (tileOf (issuedOn i.toNat k s) i.toNat) = bundleCnt s (tileOf s i.toNat) := by
  have hlc : lcOf (issuedOn i.toNat k s) = lcOf s := by rw [issuedOn_eq]; rfl
  have hheld : (settled s i).held = (tileOf s i.toNat).held := settleTile_held _ _
  have hcnt : (settled s i).cnt = (tileOf s i.toNat).cnt := settleTile_cnt _ _
  rw [tileOf_issuedOn_same]
  simp only [bundleCnt, heldNow, hheld, hcnt, hlc]

/-- The row that a BANK field names, as the issue finds it. -/
theorem rowAddr_issuedOn (b n : Nat) : rowAddr i.toNat (bankField b n).bank.toNat
      (fieldRow (bundleCnt (issuedOn i.toNat k s) (tileOf (issuedOn i.toNat k s) i.toNat)) (bankField b n)) = bankRowOf s i b n := by
  rw [bundleCnt_issuedOn]
  rfl

end banks

theorem tileOf_useBank (key j : Nat) (s : State) : tileOf (useBank key s) j = tileOf s j := rfl

theorem lcOf_useBank (key : Nat) (s : State) : lcOf (useBank key s) = lcOf s := rfl

theorem deliver_oneTile (s : State) (t lc key unit : Nat) (data : List Byte) : OneTile s (deliver t lc key unit data s) t
    { pruneRows (lcOf s) (tileOf s t) with rows := (pruneRows (lcOf s) (tileOf s t)).rows ++
        [{ lc := lc, key := key, unit := unit, data := data, poisoned := false }] } := (OneTile.refl s t).put _

section bankFields
variable {s : State} {i : BitVec 8} {k : BitVec 2} {b : Nat} {x : Slot}

/-- A BANK field that reads a bank of its pass: the bank's access is taken, and the row is on its way to its unit. -/
theorem bankReadEffect_issues (hissues : Issues s i (fieldBank k.toNat) b x) (hspells : spellsBank false k.toNat b = true)
    (hbank : bankBreach s i.toNat (bankField b k.toNat).bank.toNat x = none) (hup : s.loom.bankUp = []) :
    OneTile (useBank (bankKey i.toNat (bankField b k.toNat).bank.toNat) (issuedOn i.toNat (fieldBank k.toNat) s))
      (bankReadEffect i.toNat k.toNat [] s) i.toNat { pruneRows s.clocks.lc (settled s i) with
        rows := (pruneRows s.clocks.lc (settled s i)).rows ++ [
          { lc := s.clocks.lc + 2, key := k.toNat, unit := (bankField b k.toNat).unit.toNat
            data := mread s.loom.banks (bankRowOf s i b k.toNat) 64, poisoned := false }] } := by
  obtain ⟨ts, ta, u, hissued⟩ := issuedOn_frame s i (fieldBank k.toNat)
  have hup' : (issuedOn i.toNat (fieldBank k.toNat) s).loom.bankUp = [] := by rw [hissued]; exact hup
  have hbanks : (issuedOn i.toNat (fieldBank k.toNat) s).loom.banks = s.loom.banks := by rw [hissued]; rfl
  have hbank' := (bankBreach_issuedOn s i (fieldBank k.toNat) _ _ x).trans hbank
  have heffect : bankReadEffect i.toNat k.toNat [] s = deliver i.toNat (s.clocks.lc + 2) k.toNat (bankField b k.toNat).unit.toNat
      (mread s.loom.banks (bankRowOf s i b k.toNat) 64)
      (useBank (bankKey i.toNat (bankField b k.toNat).bank.toNat) (issuedOn i.toNat (fieldBank k.toNat) s)) := by
    unfold bankReadEffect
    rw [issueOn_issues _ hissues hspells]
    dsimp only
    rw [passRead_clean _ hbank' hup', rowAddr_issuedOn, hbanks, lcOf_issuedOn]
  have htile : tileOf (useBank (bankKey i.toNat (bankField b k.toNat).bank.toNat) (issuedOn i.toNat (fieldBank k.toNat) s)) i.toNat =
      settled s i := (tileOf_useBank _ _ _).trans (tileOf_issuedOn_same s i (fieldBank k.toNat))
  have hlc : lcOf (useBank (bankKey i.toNat (bankField b k.toNat).bank.toNat) (issuedOn i.toNat (fieldBank k.toNat) s)) =
      s.clocks.lc := (lcOf_useBank _ _).trans (lcOf_issuedOn s i (fieldBank k.toNat))
  rw [heffect, ← htile, ← hlc]
  exact deliver_oneTile _ _ _ _ _ _

/-- A BANK field that writes a bank of its pass. -/
theorem bankWriteEffect_issues (hissues : Issues s i (fieldBank k.toNat) b x) (hspells : spellsBank true k.toNat b = true)
    (hbank : bankBreach s i.toNat (bankField b k.toNat).bank.toNat x = none) : bankWriteEffect i.toNat k.toNat s =
    let d := writeSource i.toNat (bankField b k.toNat).unit.toNat (issuedOn i.toNat (fieldBank k.toNat) s)
    writeBankRow i.toNat (bankField b k.toNat).bank.toNat (fieldRow (bundleCnt s (tileOf s i.toNat)) (bankField b k.toNat)) d.1
      (useBank (bankKey i.toNat (bankField b k.toNat).bank.toNat) d.2) := by
  have hbank' := (bankBreach_issuedOn s i (fieldBank k.toNat) _ _ x).trans hbank
  unfold bankWriteEffect
  rw [issueOn_issues _ hissues hspells]
  dsimp only
  rw [hbank', bundleCnt_issuedOn]

/-- A BANK field whose write breaches (R263). -/
theorem bankWriteEffect_breaches {kind : Nat} (hissues : Issues s i (fieldBank k.toNat) b x) (hspells : spellsBank true k.toNat b = true)
    (hbank : bankBreach s i.toNat (bankField b k.toNat).bank.toNat x = some kind) : bankWriteEffect i.toNat k.toNat s =
    breach kind i.toNat x (issuedOn i.toNat (fieldBank k.toNat) s) := by
  have hbank' := (bankBreach_issuedOn s i (fieldBank k.toNat) _ _ x).trans hbank
  unfold bankWriteEffect
  rw [issueOn_issues _ hissues hspells]
  dsimp only
  rw [hbank']

end bankFields

/-- After a read the tile and the book of bank accesses differ beside the books of the issue. -/
theorem OneTile.bankFrame {s e : State} {i : BitVec 8} {k key : Nat} {y : Tile}
    (h : OneTile (useBank key (issuedOn i.toNat k s)) e i.toNat y) :
    e = { s with loom := { issueBooks s i k with tiles := e.loom.tiles, bankUse := e.loom.bankUse } }
      ∧ (key, s.clocks.lc) ∈ e.loom.bankUse := by
  have heq := h.eq
  rw [issuedOn_eq] at heq
  generalize issueBooks s i k = books at heq ⊢
  generalize e.loom.tiles = ts at heq
  subst heq
  exact ⟨rfl, List.mem_cons_self⟩

/-! ## Written rows (R232, R235, log 12) -/

theorem length_slice (bs : List Byte) (off n : Nat) : (slice bs off n).length = n := by
  simp only [slice, List.length_append, List.length_replicate, List.length_take]
  omega

theorem slice_slice (bs : List Byte) (off n : Nat) : slice (slice bs off n) 0 n = slice bs off n := slice_whole (length_slice bs off n)

/-- The data of a write draws free bytes at most. -/
theorem writeSource_frame (t unit : Nat) (s : State) : ∃ n, (writeSource t unit s).2 = { s with free := n } := by
  unfold writeSource
  split
  · exact ⟨s.free, rfl⟩
  · split
    · exact ⟨s.free, rfl⟩
    · split
      · exact sourceRow_frame s _ _ _
      · exact ⟨_, rfl⟩

/-- A row written to a bank leaves every byte outside it. -/
theorem mget_writeBankRow_outside (t k row : Nat) (data : List Byte) (s : State) {a : Nat}
    (h : a < rowAddr t k row ∨ rowAddr t k row + 64 ≤ a) : mget (writeBankRow t k row data s).loom.banks a = mget s.loom.banks a := by
  obtain ⟨up, hwrite⟩ := writeBankRow_frame s t k row data
  rw [hwrite]
  exact mget_mwrite_outside _ _ _ _ (by rwa [length_slice])

/-! ## Breaches (R263, R265) -/

/-- An entry of an event or completion ring leaves the tenants and L_BREACH. -/
theorem writeEntry_keeps (n : Nat) (ev : Bool) (mk : Nat → List Byte) (s : State) :
    (writeEntry n ev mk s).loom.tenants = s.loom.tenants ∧ (writeEntry n ev mk s).loom.breach = s.loom.breach := by
  obtain ⟨w, rs, h⟩ := writeEntry_frame s n ev mk
  rw [h]
  exact ⟨rfl, rfl⟩

theorem flushLost_faulted (t : Nat) (s : State) : (tenantOf (flushLost t s) t).faulted = (tenantOf s t).faulted := by
  unfold flushLost
  split
  · rw [tenantOf_putTenant_same]
  · rfl

/-- An event leaves its tenant's fault as it stands. -/
theorem sendEvent_faulted (t code id arg : Nat) (detail : List Byte) (s : State) :
    (tenantOf (sendEvent t code id arg detail s) t).faulted = (tenantOf s t).faulted := by
  rw [← flushLost_faulted t s]
  unfold sendEvent
  dsimp only
  split
  · rw [tenantOf, (writeEntry_keeps _ _ _ _).1]
    rfl
  · rw [tenantOf_putTenant_same]

/-- The marks of a breach: the tenant is faulted and L_BREACH names it. -/
theorem breachBooks_marks (kind tile tenant draft lc : Nat) (job : Option Nat) (s : State) :
    let t := breachBooks kind tile tenant draft lc job s
    (tenantOf t tenant).faulted = true ∧ t.loom.breach = breachWord tile kind tenant draft lc := by
  unfold breachBooks
  dsimp only
  generalize hput : putTenant tenant _ _ = s1
  have hfaulted : (tenantOf s1 tenant).faulted = true := by rw [← hput, tenantOf_putTenant_same]
  have hbreach : s1.loom.breach = breachWord tile kind tenant draft lc := by rw [← hput]; rfl
  obtain ⟨ta, htally⟩ := loomTally_frame s1 0x46 (some tenant) 1
  rw [htally]
  constructor
  · refine (sendEvent_faulted _ _ _ _ _ _).trans ?_
    exact hfaulted
  · obtain ⟨w, rs, ts, hevent⟩ := sendEvent_frame { s1 with loom := s1.loom.tallied ta } tenant evContractFault draft 0
      (toLe 8 (breachWord tile kind tenant draft lc).toNat)
    rw [hevent]
    exact hbreach

/-- The tiles of a slot that breaches in lc `lc` stop: the detecting one next lc, the others in four (R263). -/
def stopTiles (lc tile : Nat) (x : Slot) (tiles : Sparse Tile) : Sparse Tile := tiles.map (fun e =>
  if e.2.slot = some x.entry && e.2.stopAt.isNone then (e.1, { e.2 with stopAt := some (lc + (if e.1 = tile then 1 else 4)) }) else e)

/-- The first breach of a slot: its books, its tiles stopped, its slot and job marked, notices owed. -/
theorem breach_first {s : State} {x : Slot} (kind tile : Nat) (hslot : slotOfEntry s x.entry = some x) (hfirst : x.breached = false) :
    let b := breachBooks kind tile (draftOf s x.draft).tenant x.draft (lcOf s - passStart x) (slotJob x) s
    ∃ w js sl, breach kind tile x s = { b with warp := w, loom := { b.loom with
      jobs := js, weave := { b.loom.weave with slots := sl }, tiles := stopTiles (lcOf s) tile x b.loom.tiles } } := by
  unfold breach
  dsimp only
  rw [hslot]
  dsimp only
  rw [hfirst, if_neg Bool.false_ne_true]
  generalize breachBooks kind tile (draftOf s x.draft).tenant x.draft (lcOf s - passStart x) (slotJob x) s = b
  generalize hstopped : onLoom _ (modSlot x.entry _ b) = c
  have hc : ∃ sl, c = { b with loom := { b.loom with
      weave := { b.loom.weave with slots := sl }, tiles := stopTiles (lcOf s) tile x b.loom.tiles } } := ⟨_, hstopped.symm⟩
  obtain ⟨sl, rfl⟩ := hc
  clear hstopped
  have hnotices : ∀ u : State, ∃ w, (match (draftOf s x.draft).resident with
      | some v => owesNotices v.warpMask x.draft u
      | none => u) = { u with warp := w } := fun u => by
    cases (draftOf s x.draft).resident with
    | none => exact ⟨u.warp, rfl⟩
    | some v => exact owesNotices_frame u v.warpMask x.draft
  cases slotJob x with
  | none =>
    obtain ⟨w, h⟩ := hnotices { b with loom := { b.loom with
      weave := { b.loom.weave with slots := sl }, tiles := stopTiles (lcOf s) tile x b.loom.tiles } }
    exact ⟨w, b.loom.jobs, sl, h⟩
  | some o =>
    dsimp only
    generalize hmarked : modJob o _ _ = m
    have hm : ∃ js, m = { b with loom := { b.loom with
        jobs := js, weave := { b.loom.weave with slots := sl }, tiles := stopTiles (lcOf s) tile x b.loom.tiles } } := ⟨_, hmarked.symm⟩
    obtain ⟨js, rfl⟩ := hm
    obtain ⟨w, h⟩ := hnotices { b with loom := { b.loom with
      jobs := js, weave := { b.loom.weave with slots := sl }, tiles := stopTiles (lcOf s) tile x b.loom.tiles } }
    exact ⟨w, js, sl, h⟩

/-- A breach faults its tenant and L_BREACH names it; no bank is written and no flit sent (R263, R265). -/
theorem breach_marks {s : State} {x : Slot} (kind tile : Nat) (hslot : slotOfEntry s x.entry = some x) (hfirst : x.breached = false) :
    let t := breach kind tile x s
    t.loom.banks = s.loom.banks ∧ t.loom.flits = s.loom.flits ∧ (tenantOf t (draftOf s x.draft).tenant).faulted = true
      ∧ t.loom.breach = breachWord tile kind (draftOf s x.draft).tenant x.draft (lcOf s - passStart x) := by
  obtain ⟨hfaulted, hword⟩ := breachBooks_marks kind tile (draftOf s x.draft).tenant x.draft (lcOf s - passStart x) (slotJob x) s
  obtain ⟨bw, w, rs, ts, ta, js, hbooks⟩ :=
    breachBooks_frame s kind tile (draftOf s x.draft).tenant x.draft (lcOf s - passStart x) (slotJob x)
  obtain ⟨w', js', sl, hbreach⟩ := breach_first kind tile hslot hfirst
  rw [hbooks] at hfaulted hword hbreach
  rw [hbreach]
  exact ⟨rfl, rfl, hfaulted, hword⟩

/-- The breach of a field that issues is judged by what the pass had before the issue. -/
theorem breach_issuedOn {s : State} {i : BitVec 8} {k b : Nat} {x : Slot} (kind tile : Nat) (hissues : Issues s i k b x)
    (hfirst : x.breached = false) : let t := breach kind tile x (issuedOn i.toNat k s)
    t.loom.banks = s.loom.banks ∧ t.loom.flits = s.loom.flits ∧ (tenantOf t (draftOf s x.draft).tenant).faulted = true
      ∧ t.loom.breach = breachWord tile kind (draftOf s x.draft).tenant x.draft (lcOf s - passStart x) := by
  have hmarks := breach_marks kind tile ((OneTile.refl _ _).slotOfEntry hissues) hfirst
  obtain ⟨ts, ta, u, hissued⟩ := issuedOn_frame s i k
  generalize issuedOn i.toNat k s = e at hmarks hissued
  have hbanks : e.loom.banks = s.loom.banks := by rw [hissued]; rfl
  have hflits : e.loom.flits = s.loom.flits := by rw [hissued]; rfl
  have hdraft : draftOf e x.draft = draftOf s x.draft := by rw [hissued]; rfl
  have hlc : lcOf e = lcOf s := by rw [hissued]; rfl
  rwa [hbanks, hflits, hdraft, hlc] at hmarks

/-! ## Flits (R237, R240) -/

/-- A route's failure looks at the slots of tiles and at the links in use. -/
theorem linkFail_congr {s e : State} (x : Slot) (hslots : ∀ a, (tileOf e a).slot = (tileOf s a).slot)
    (huse : e.loom.linkUse = s.loom.linkUse) (ls : List ((Nat × Dir) × Nat)) : linkFail e x ls = linkFail s x ls := by
  induction ls with
  | nil => rfl
  | cons l ls ih =>
    have howns : ∀ a b, ownsLink e x a b = ownsLink s x a b := fun a b => by
      unfold ownsLink
      cases b <;> simp only [hslots]
    unfold linkFail
    rw [howns, huse, ih]

theorem tileOf_issuedOn_slot (s : State) (i : BitVec 8) (k a : Nat) : (tileOf (issuedOn i.toNat k s) a).slot = (tileOf s a).slot := by
  by_cases ha : a = i.toNat
  · rw [ha, tileOf_issuedOn_same]
    exact settleTile_slot _ _
  · rw [tileOf_issuedOn_other s i k ha]

theorem planRoute_issuedOn (s : State) (i : BitVec 8) (k : Nat) (x : Slot) (f : Flit) (route : List (Nat × Dir))
    (last : Option (Nat × Nat × Nat)) : planRoute (issuedOn i.toNat k s) x f route last = planRoute s x f route last := by
  have huse : (issuedOn i.toNat k s).loom.linkUse = s.loom.linkUse := by
    obtain ⟨ts, ta, u, h⟩ := issuedOn_frame s i k
    rw [h]
    rfl
  have hfail := linkFail_congr x (tileOf_issuedOn_slot s i k) huse
  unfold planRoute
  simp only [hfail, lcOf_issuedOn]
  rfl

/-- The plan of a flit is that from before the issue. -/
theorem planFlit_issuedOn (s : State) (i : BitVec 8) (k : Nat) (x : Slot) (v : Version) (t : Nat) (f : MeshField) :
    planFlit (issuedOn i.toNat k s) x v t f = planFlit s x v t f := by
  obtain ⟨ts, ta, u, h⟩ := issuedOn_frame s i k
  have hinterval : ∀ m, issueInterval (issuedOn i.toNat k s) m = issueInterval s m := fun m => by rw [h]; rfl
  have howner : ∀ m n, warpOwner (issuedOn i.toNat k s) m n = warpOwner s m n := fun m n => by rw [h]; rfl
  have hchain : (issuedOn i.toNat k s).loom.chain = s.loom.chain := by rw [h]; rfl
  unfold planFlit
  simp only [planRoute_issuedOn, hinterval, howner, hchain, lcOf_issuedOn]
  rfl

section issueBooks
variable (s : State) (i : BitVec 8) (k : Nat)

theorem issueBooks_tile : sget Tile.init (issueBooks s i k).tiles i.toNat = settled s i := tileOf_issuedOn_same s i k

theorem issueBooks_otherTile {j : Nat} (hj : j ≠ i.toNat) : sget Tile.init (issueBooks s i k).tiles j = tileOf s j :=
  tileOf_issuedOn_other s i k hj

/-- An issue leaves the banks and the flits. -/
theorem issueBooks_banks_flits : (issueBooks s i k).banks = s.loom.banks ∧ (issueBooks s i k).flits = s.loom.flits := by
  obtain ⟨ts, ta, u, h⟩ := issuedOn_frame s i k
  rw [issuedOn_eq] at h
  have hbooks := congrArg State.loom h
  dsimp only at hbooks
  rw [hbooks]
  exact ⟨rfl, rfl⟩

end issueBooks

theorem slotOfEntry_takeLinks (ls : List (Nat × Nat)) (s : State) (e : Nat) : slotOfEntry (takeLinks ls s) e = slotOfEntry s e := rfl

section mesh
variable {s : State} {i : BitVec 8} {d : Dir} {b : Nat} {x : Slot} {v : Version}

/-- A MESH field whose flit breaches at its first link, or before (R263). -/
theorem meshSendEffect_breaches {kind tile : Nat} (hissues : Issues s i (fieldMesh d) b x)
    (hspells : bitOf (meshWord b (dirCode d)) 0 = true) (hversion : slotVersion s x = some v)
    (hfail : (planFlit s x v i.toNat (meshField b d)).fail = some (kind, tile, s.clocks.lc)) :
    meshSendEffect i.toNat d s = breach kind tile x (issuedOn i.toNat (fieldMesh d) s) := by
  have hversion' : slotVersion (issuedOn i.toNat (fieldMesh d) s) x = some v := by
    obtain ⟨ts, ta, u, h⟩ := issuedOn_frame s i (fieldMesh d)
    rw [h]
    exact hversion
  unfold meshSendEffect
  rw [issueOn_issues _ hissues hspells]
  dsimp only
  rw [hversion']
  dsimp only
  rw [planFlit_issuedOn, hfail, lcOf_issuedOn]
  exact if_pos rfl

/-- A flit of the VEC row that meets no failure is on its way over the links of its plan. -/
theorem meshSendEffect_sends (hissues : Issues s i (fieldMesh d) b x) (hspells : bitOf (meshWord b (dirCode d)) 0 = true)
    (hversion : slotVersion s x = some v) (hfail : (planFlit s x v i.toNat (meshField b d)).fail = none)
    (hsrc : (meshField b d).src = 4) : ∃ used, meshSendEffect i.toNat d s = { s with loom := { issueBooks s i (fieldMesh d) with
      flits := s.loom.flits ++ [{ (planFlit s x v i.toNat (meshField b d)).flit with
        data := slice (settled s i).vecRow 0 64, poisoned := x.poisoned || x.degraded }]
      linkUse := (planFlit s x v i.toNat (meshField b d)).links ++ used } } := by
  have hversion' : slotVersion (issuedOn i.toNat (fieldMesh d) s) x = some v := by
    obtain ⟨ts, ta, u, h⟩ := issuedOn_frame s i (fieldMesh d)
    rw [h]
    exact hversion
  have hslot : slotOfEntry (issuedOn i.toNat (fieldMesh d) s) x.entry = some x := (OneTile.refl _ _).slotOfEntry hissues
  have hdata : meshSource i.toNat (meshField b d).src.toNat (issuedOn i.toNat (fieldMesh d) s) =
      (slice (settled s i).vecRow 0 64, issuedOn i.toNat (fieldMesh d) s) := by
    rw [hsrc, ← tileOf_issuedOn_same s i (fieldMesh d)]
    rfl
  have hcur : ∀ ls, (slotOfEntry (takeLinks ls (issuedOn i.toNat (fieldMesh d) s)) x.entry).getD x = x := fun ls => by
    rw [slotOfEntry_takeLinks, hslot]
    rfl
  have hsend : meshSendEffect i.toNat d s =
      onLoom (fun l => { l with flits := l.flits ++ [{ (planFlit s x v i.toNat (meshField b d)).flit with
        data := slice (settled s i).vecRow 0 64, poisoned := x.poisoned || x.degraded }] })
        (takeLinks (planFlit s x v i.toNat (meshField b d)).links (issuedOn i.toNat (fieldMesh d) s)) := by
    unfold meshSendEffect
    rw [issueOn_issues _ hissues hspells]
    dsimp only
    rw [hversion']
    dsimp only
    rw [planFlit_issuedOn, hfail, hdata]
    dsimp only
    rw [hcur]
  rw [hsend, issuedOn_eq, ← (issueBooks_banks_flits s i (fieldMesh d)).2]
  generalize issueBooks s i (fieldMesh d) = books
  generalize planFlit s x v i.toNat (meshField b d) = p
  exact ⟨_, rfl⟩

end mesh

/-- A flit that is the only one on the mesh and due at its tile in this lc enters the receive register of its direction (R237). -/
theorem meshDeliveryEffect_one {s : State} {t : Nat} {d : Dir} {f : Flit} (hflits : s.loom.flits = [f]) (hdest : f.dest = t)
    (hdir : f.dir = d) (hengine : f.engine = false) (hdue : f.due = s.clocks.lc) (htakes : takesPart s t = true)
    (hfree : ∀ r ∈ (tileOf s t).recv, r.lc ≠ s.clocks.lc) : OneTile { s with loom := { s.loom with flits := [] } }
      (meshDeliveryEffect t d s) t { pruneRows (lcOf s) (tileOf s t) with recv := (pruneRows (lcOf s) (tileOf s t)).recv ++
        [{ lc := s.clocks.lc, key := dirCode d, unit := unitMesh, data := f.data, poisoned := f.poisoned }] } := by
  have hleft : takeFlits (fun f => f.dest == t && f.dir == d && !f.engine) s = { s with loom := { s.loom with flits := [] } } := by
    simp [takeFlits, onLoom, hflits, hdest, hdir, hengine, hdue, lcOf]
  have hfind : s.loom.flits.find? (fun f => f.dest == t && f.dir == d && !f.engine && f.due == lcOf s) = some f := by
    simp [hflits, hdest, hdir, hengine, hdue, lcOf]
  have hroom : (pruneRows (lcOf s) (tileOf s t)).recv.any (fun r => r.lc == lcOf s && r.key == dirCode d) = false := by
    rw [List.any_eq_false]
    intro r hr
    have hlc := hfree r (List.mem_of_mem_filter hr)
    simp [lcOf, hlc]
  have htakes' : takesPart { s with loom := { s.loom with flits := [] } } t = true := htakes
  have hdeliver : meshDeliveryEffect t d s = putTile t { pruneRows (lcOf s) (tileOf s t) with
      recv := (pruneRows (lcOf s) (tileOf s t)).recv ++
        [{ lc := s.clocks.lc, key := dirCode d, unit := unitMesh, data := f.data, poisoned := f.poisoned }] }
      { s with loom := { s.loom with flits := [] } } := by
    unfold meshDeliveryEffect
    dsimp only
    rw [hfind]
    dsimp only
    rw [hleft]
    unfold receive
    dsimp only
    rw [htakes', Bool.not_true, if_neg Bool.false_ne_true]
    exact if_neg (by rw [Bool.not_eq_true]; exact hroom)
  rw [hdeliver]
  exact (OneTile.refl _ _).put _

/-- A BANK field that writes the VEC row to a bank of its pass: these 64 bytes change. -/
theorem bankWriteEffect_vec {s : State} {i : BitVec 8} {k : BitVec 2} {b : Nat} {x : Slot} (hissues : Issues s i (fieldBank k.toNat) b x)
    (hspells : spellsBank true k.toNat b = true) (hbank : bankBreach s i.toNat (bankField b k.toNat).bank.toNat x = none)
    (hunit : (bankField b k.toNat).unit = 2) : ∃ up u, bankWriteEffect i.toNat k.toNat s = { s with
      loom := { issueBooks s i (fieldBank k.toNat) with
        banks := mwrite s.loom.banks (bankRowOf s i b k.toNat) (slice (settled s i).vecRow 0 64), bankUp := up, bankUse := u } } := by
  have hdata : writeSource i.toNat (bankField b k.toNat).unit.toNat (issuedOn i.toNat (fieldBank k.toNat) s) =
      (slice (settled s i).vecRow 0 64, issuedOn i.toNat (fieldBank k.toNat) s) := by
    rw [hunit, ← tileOf_issuedOn_same s i (fieldBank k.toNat)]
    rfl
  obtain ⟨u, huse⟩ := useBank_frame (issuedOn i.toNat (fieldBank k.toNat) s) (bankKey i.toNat (bankField b k.toNat).bank.toNat)
  obtain ⟨up, hrow⟩ := writeBankRow_frame { issuedOn i.toNat (fieldBank k.toNat) s with
    loom := { (issuedOn i.toNat (fieldBank k.toNat) s).loom with bankUse := u } } i.toNat (bankField b k.toNat).bank.toNat
    (fieldRow (bundleCnt s (tileOf s i.toNat)) (bankField b k.toNat)) (slice (settled s i).vecRow 0 64)
  have hwrite := bankWriteEffect_issues hissues hspells hbank
  rw [hdata] at hwrite
  dsimp only at hwrite
  rw [huse, hrow, slice_slice, issuedOn_eq] at hwrite
  dsimp only at hwrite
  rw [(issueBooks_banks_flits s i (fieldBank k.toNat)).1] at hwrite
  exact ⟨up, u, hwrite⟩

/-- Settles O46: a row on its way, a written row, a flit, its delivery and the results that are ready, each by the fields it changes;
a breach by its marks. -/
theorem banksAndMesh : Obligations.BanksAndMesh := by
  unfold Obligations.BanksAndMesh
  refine ⟨?_, ?_, ?_, ?_, ?_, ?_, ?_, ?_⟩
  · intro s i k b x hissues hspells hbank hup
    have hread := bankReadEffect_issues hissues hspells hbank hup
    obtain ⟨heq, huse⟩ := hread.bankFrame
    have hothers := fun j (hj : j ≠ i.toNat) =>
      (hread.other hj).trans ((tileOf_useBank _ _ _).trans (tileOf_issuedOn_other s i (fieldBank k.toNat) hj))
    have hrows := (congrArg (fun y : Tile => y.rows.getLast?) hread.tile).trans List.getLast?_concat
    have heffect : exec (.bankRead i k []) s = fin s (bankReadEffect i.toNat k.toNat [] s) := rfl
    generalize bankReadEffect i.toNat k.toNat [] s = e at *
    exact .of_fin hissues.1 heffect ⟨hrows, huse, fun j _ hj => hothers j hj,
      congrArg (fun u : State => { u with seen := (settle s e).seen }) heq⟩
  · intro s i k b x hissues hspells hbank hunit
    obtain ⟨up, u, hwrite⟩ := bankWriteEffect_vec hissues hspells hbank hunit
    have htile := issueBooks_tile s i (fieldBank k.toNat)
    have hothers := fun j (hj : j ≠ i.toNat) => issueBooks_otherTile s i (fieldBank k.toNat) hj
    refine .of_fin hissues.1 (congrArg (fin s) hwrite) ?_
    generalize issueBooks s i (fieldBank k.toNat) = books at htile hothers
    exact ⟨rfl, htile, fun j _ hj => hothers j hj, rfl⟩
  · intro s i d b x v hissues hspells hversion hfail hsrc
    obtain ⟨used, hsend⟩ := meshSendEffect_sends hissues hspells hversion hfail hsrc
    refine .of_fin hissues.1 (congrArg (fin s) hsend) ?_
    generalize planFlit s x v i.toNat (meshField b d) = p
    generalize issueBooks s i (fieldMesh d) = books
    exact ⟨rfl, fun l hl => List.mem_append_left _ hl, rfl⟩
  · intro s i d f hlive hflits hdest hdir hengine hdue htakes hfree
    have hdeliver := meshDeliveryEffect_one hflits hdest hdir hengine hdue htakes hfree
    have hrecv := (congrArg (fun y : Tile => y.recv.getLast?) hdeliver.tile).trans List.getLast?_concat
    have heffect : exec (.meshDelivery i d) s = fin s (meshDeliveryEffect i.toNat d s) := rfl
    generalize meshDeliveryEffect i.toNat d s = e at *
    exact .of_fin hlive heffect ⟨congrArg (·.loom.flits) hdeliver.eq, hrecv,
      congrArg (fun u : State => { u with seen := (settle s e).seen }) hdeliver.eq⟩
  · intro s i hlive hruns hgood
    have hsettled : settleOn i.toNat s = { s with loom := (settleOn i.toNat s).loom } := by
      obtain ⟨ts, ta, h⟩ := settleOn_frame s i.toNat
      rw [h]
    have hsame := tileOf_settleOn_same i.toNat s
    have hothers := fun j (hj : j ≠ i.toNat) => tileOf_settleOn_other s hj
    have hready : exec (.resultReady i) s = fin s (settleOn i.toNat s) := congrArg (fin s) (if_pos (by rw [hruns, hgood]; rfl))
    generalize settleOn i.toNat s = e at *
    exact .of_fin hlive hready ⟨hsame, fun j _ hj => hothers j hj,
      congrArg (fun u : State => { u with seen := (settle s e).seen }) hsettled⟩
  · intro s i k b x a hissues hspells hbank ha
    obtain ⟨n, hdraws⟩ := writeSource_frame i.toNat (bankField b k.toNat).unit.toNat (issuedOn i.toNat (fieldBank k.toNat) s)
    have hbanks := (issueBooks_banks_flits s i (fieldBank k.toNat)).1
    refine .of_fin hissues.1 (congrArg (fin s) (bankWriteEffect_issues hissues hspells hbank)) ?_
    refine (mget_writeBankRow_outside _ _ _ _ _ ha).trans ?_
    rw [hdraws, issuedOn_eq]
    generalize issueBooks s i (fieldBank k.toNat) = books at hbanks ⊢
    exact congrArg (mget · a) hbanks
  · intro s i k b x kind hissues hspells hfirst hbank
    obtain ⟨hbanks, _, hmarks⟩ := breach_issuedOn kind i.toNat hissues hfirst
    refine .of_fin hissues.1 (congrArg (fin s) (bankWriteEffect_breaches hissues hspells hbank)) ?_
    generalize breach kind i.toNat x (issuedOn i.toNat (fieldBank k.toNat) s) = e at hbanks hmarks
    exact ⟨hbanks, hmarks⟩
  · intro s i d b x v kind tile hissues hspells hversion hfirst hfail
    obtain ⟨_, hmarks⟩ := breach_issuedOn kind tile hissues hfirst
    refine .of_fin hissues.1 (congrArg (fin s) (meshSendEffect_breaches hissues hspells hversion hfail)) ?_
    generalize breach kind tile x (issuedOn i.toNat (fieldMesh d) s) = e at hmarks
    exact hmarks

/-! ## Repeat boundaries of an empty loom (R349, R351) -/

theorem onLoom_of_fixed {s : State} {f : Loom → Loom} (h : f s.loom = s.loom) : onLoom f s = s := by
  unfold onLoom
  rw [h]

theorem map_of_nil {α : Type} {l : List α} (h : l = []) (g : α → α) : l.map g = l := by
  rw [h]
  rfl

theorem filter_of_nil {α : Type} {l : List α} (h : l = []) (p : α → Bool) : l.filter p = l := by
  rw [h]
  rfl

section empty
variable {s : State}

theorem LoomEmpty.noSlot (h : LoomEmpty s) : s.loom.weave.slots = [] := by
  obtain ⟨_, _, _, _, _, _, _, _, hslots, _⟩ := h
  exact hslots

/-- A change of the weave that leaves no slot. -/
theorem LoomEmpty.weave (h : LoomEmpty s) {f : Weave → Weave} (hslots : (f s.loom.weave).slots = []) : LoomEmpty (onWeave f s) := by
  obtain ⟨hjobs, hdrafts, htenants, hseqs, herrs, hbookings, hmoves, hload, _, hpending⟩ := h
  exact ⟨hjobs, hdrafts, htenants, hseqs, herrs, hbookings, hmoves, hload, hslots, hpending⟩

theorem closeEnded_noSlot (n : Nat) (h : s.loom.weave.slots = []) : closeEnded n s = s := by
  unfold closeEnded
  rw [h]
  rfl

theorem returnSeqs_none (h : s.loom.seqs = []) : returnSeqs s = s := by
  refine onLoom_of_fixed ?_
  rw [map_of_nil h]

theorem refreshStale_none (h : s.loom.drafts = []) : refreshStale s = s := by
  unfold refreshStale onDrafts
  refine onLoom_of_fixed ?_
  rw [map_of_nil h]

theorem pruneBookings_none (b : Nat) (hbookings : s.loom.bookings = []) (hmoves : s.loom.moveBookings = []) : pruneBookings b s = s := by
  refine onLoom_of_fixed ?_
  rw [filter_of_nil hbookings, filter_of_nil hmoves]

/-- Where no job, tenant, sequence, slot or tile error stands, a boundary ends and resets nothing. -/
theorem boundaryEnds_empty (h : LoomEmpty s) (p : Job → Bool) (b : Nat) :
    failTiles (freeReturning (returnSeqs (tenantResets (endFlaggedWhere p (closeEnded b s))))) = s := by
  obtain ⟨hjobs, _, htenants, hseqs, herrs, _, _, _, hslots, _⟩ := h
  have hflagged : endFlaggedWhere p s = s := by unfold endFlaggedWhere; rw [hjobs]; rfl
  have hresets : tenantResets s = s := by unfold tenantResets; rw [htenants]; rfl
  have hreturning : freeReturning s = s := by unfold freeReturning; rw [hseqs]; rfl
  have hfailed : failTiles s = s := by unfold failTiles; rw [herrs]; rfl
  rw [closeEnded_noSlot b hslots, hflagged, hresets, returnSeqs_none hseqs, hreturning, hfailed]

/-- Where no draft and no job stands, nothing is freed, stale or ended. -/
theorem boundaryFrees_empty (h : LoomEmpty s) : endStale (refreshStale (freeUnloads (freeColds s))) = s := by
  obtain ⟨hjobs, hdrafts, _⟩ := h
  have hcolds : freeColds s = s := by unfold freeColds; rw [hdrafts]; rfl
  have hunloads : freeUnloads s = s := by unfold freeUnloads; rw [hdrafts]; rfl
  have hstale : endStale s = s := by unfold endStale; rw [hjobs]; rfl
  rw [hcolds, hunloads, refreshStale_none hdrafts, hstale]

/-- With no job and no booking nothing books again. -/
theorem rebookAll_empty (h : LoomEmpty s) (b : Nat) : rebookAll b s = s := by
  obtain ⟨hjobs, _, _, _, _, hbookings, hmoves, _⟩ := h
  unfold rebookAll
  dsimp only
  generalize hcut : onLoom _ s = c
  have hc : c = s := by
    rw [← hcut]
    refine onLoom_of_fixed ?_
    rw [filter_of_nil hbookings, filter_of_nil hmoves, map_of_nil hjobs]
  rw [hc, openJobs, hjobs]
  rfl

/-- The installed weave once the shadow is swapped in at boundary `b` (R351). -/
def swapped (b : Nat) (w : Weave) : Weave :=
  { w with active := w.shadow, activeLc := w.shadowLc, swap := .idle, swaps := w.swaps + 1, rep0 := b, repDue := false }

/-- All that a boundary can change in an empty loom: the swap of a weave that waits. -/
theorem boundarySwaps_empty (h : LoomEmpty s) (b : Nat) : boundarySwaps b s = if swapDue b s then onWeave (swapped b) s else s := by
  obtain ⟨_, hdrafts, _, _, _, _, _, _, _, hpending⟩ := id h
  have hswaps : swapsAt b s = s := by unfold swapsAt; rw [hdrafts]; rfl
  have hempty : LoomEmpty (onWeave (swapped b) s) := h.weave h.noSlot
  unfold boundarySwaps
  dsimp only
  rw [hpending, if_neg Bool.false_ne_true, hswaps, Bool.not_false, Bool.and_true]
  cases swapDue b s with
  | false => exact boundaryFrees_empty h
  | true =>
    have hrebooked : swapWeave b s = onWeave (swapped b) s := rebookAll_empty hempty b
    rw [if_pos rfl, if_pos rfl, hrebooked]
    exact boundaryFrees_empty hempty

theorem beginRepeat_uninstalled (b : Nat) (h : s.loom.weave.activeLc = 0) : beginRepeat b s = s := by
  unfold beginRepeat
  exact if_pos h

/-- A repeat that starts where it was expected moves no booking. -/
theorem beginRepeat_expected {b : Nat} (hinstalled : s.loom.weave.activeLc ≠ 0) (h : expectedStart s.loom.weave b = b) :
    beginRepeat b s = onWeave (fun w => { w with rep0 := b, repDue := false }) s := by
  unfold beginRepeat
  dsimp only
  rw [if_neg hinstalled, h, Nat.sub_self]
  rfl

/-- A boundary of an empty loom begins a repeat and swaps a waiting weave; the power state stays where it is the target. -/
theorem boundaryAt_empty (h : LoomEmpty s) (hst : s.pwr.st = s.pwr.target) (b : Nat) {t : State}
    (ht : boundarySwaps b (beginRepeat b s) = t) (hempty : LoomEmpty t) (hpwr : t.pwr = s.pwr) : boundaryAt b s = t := by
  obtain ⟨_, _, _, _, _, hbookings, hmoves, _, _, hpending⟩ := hempty
  have hstays : fallDue t = false := by simp [fallDue, targetBelow, hpwr, hst]
  unfold boundaryAt
  dsimp only
  rw [boundaryEnds_empty h, ht, pruneBookings_none b hbookings hmoves, hpending, hstays]
  rfl

/-- The grid of repeats is where it was. -/
theorem expectedStart_grid (w : Weave) (hdue : w.repDue = false) (hinstalled : 0 < w.activeLc) (k : Nat) :
    expectedStart w (w.rep0 + w.activeLc * k) = w.rep0 + w.activeLc * k := by
  unfold expectedStart
  rw [hdue, if_neg Bool.false_ne_true, Nat.add_sub_cancel_left, Nat.mul_div_cancel_left k hinstalled]

end empty

/-- A boundary of an installed weave, with no swap that waits: the next repeat begins on the grid. -/
theorem repeatBoundaryEffect_walks {s : State} (hruns : mesochronousRuns s = true) (hst : s.pwr.st = s.pwr.target) (h : LoomEmpty s)
    (hswap : s.loom.weave.swap = .idle) (hdue : s.loom.weave.repDue = false) (hchain : s.loom.chain.locked = false)
    (hinstalled : 0 < s.loom.weave.activeLc) (hover : s.loom.weave.rep0 + s.loom.weave.activeLc ≤ s.clocks.lc) :
    repeatBoundaryEffect s = onWeave (fun w => { w with
      rep0 := w.rep0 + w.activeLc * ((s.clocks.lc - w.rep0) / w.activeLc) }) s := by
  obtain ⟨b, hb⟩ : ∃ b, b = s.loom.weave.rep0 + s.loom.weave.activeLc * ((s.clocks.lc - s.loom.weave.rep0) / s.loom.weave.activeLc) :=
    ⟨_, rfl⟩
  have hboundary : boundaryLc s = some b := by
    simp [boundaryLc, lcOf, hdue, hchain, hover, Nat.pos_iff_ne_zero.mp hinstalled, hb]
  have hexpected : expectedStart s.loom.weave b = b := hb ▸ expectedStart_grid _ hdue hinstalled _
  have hbegun := beginRepeat_expected (Nat.pos_iff_ne_zero.mp hinstalled) hexpected
  have hempty : LoomEmpty (onWeave (fun w => { w with rep0 := b, repDue := false }) s) := h.weave h.noSlot
  have hnone : swapDue b (onWeave (fun w => { w with rep0 := b, repDue := false }) s) = false := by
    simp [swapDue, onWeave, onLoom, hswap]
  have hswaps : boundarySwaps b (beginRepeat b s) = onWeave (fun w => { w with rep0 := b, repDue := false }) s := by
    rw [hbegun, boundarySwaps_empty hempty, hnone]
    rfl
  unfold repeatBoundaryEffect
  rw [hruns, hboundary]
  dsimp only
  rw [Bool.not_true, if_neg Bool.false_ne_true, boundaryAt_empty h hst b hswaps hempty rfl, hb, ← hdue]
  rfl

/-- A boundary with no weave installed: a checked weave that waits is installed at once (log 27). -/
theorem repeatBoundaryEffect_installs {s : State} (hruns : mesochronousRuns s = true) (hst : s.pwr.st = s.pwr.target) (h : LoomEmpty s)
    (hswap : s.loom.weave.swap = .pending) (hchain : s.loom.chain.locked = false) (hnone : s.loom.weave.activeLc = 0)
    (hchecked : s.loom.weave.checksEnd + 64 ≤ s.clocks.lc) : repeatBoundaryEffect s = onWeave (swapped s.clocks.lc) s := by
  have hboundary : boundaryLc s = some s.clocks.lc := by simp [boundaryLc, lcOf, hnone]
  have hempty : LoomEmpty (onWeave (swapped s.clocks.lc) s) := h.weave h.noSlot
  have hdue : swapDue s.clocks.lc s = true := by simp [swapDue, hswap, hchecked, hchain]
  have hswaps : boundarySwaps s.clocks.lc (beginRepeat s.clocks.lc s) = onWeave (swapped s.clocks.lc) s := by
    rw [beginRepeat_uninstalled _ hnone, boundarySwaps_empty h, hdue]
    rfl
  unfold repeatBoundaryEffect
  rw [hruns, hboundary]
  dsimp only
  rw [Bool.not_true, if_neg Bool.false_ne_true, boundaryAt_empty h hst _ hswaps hempty rfl]

/-! ## Pass ends (R239, R357) -/

/-- A read after a change of every entry that leaves the value of an absent one. -/
theorem sget_mapped {α : Type} {d : α} {g : Nat × α → Nat × α} (f : Nat → α → α) (hg : ∀ e, g e = (e.1, f e.1 e.2))
    (hd : ∀ i, f i d = d) (m : Sparse α) (i : Nat) : sget d (m.map g) i = f i (sget d m i) := by
  induction m with
  | nil => exact (hd i).symm
  | cons e m ih =>
    rw [List.map_cons, hg]
    simp only [sget, ih]
    split
    · next hkey => rw [hkey]
    · rfl

theorem mem_of_sget_ne {α : Type} {d : α} {m : Sparse α} {i : Nat} (h : sget d m i ≠ d) : (i, sget d m i) ∈ m := by
  induction m with
  | nil => exact absurd rfl h
  | cons e m ih =>
    obtain ⟨key, v⟩ := e
    simp only [sget] at h ⊢
    split
    · next hkey =>
      rw [hkey]
      exact List.mem_cons_self
    · next hkey =>
      rw [if_neg hkey] at h
      exact List.mem_cons_of_mem _ (ih h)

/-- With no counter selected a tile settles beside the count of events alone. -/
theorem settleOn_unselected {s : State} (t : Nat) (h : s.loom.tallySel = []) : ∃ tiles lc evs was, settleOn t s =
    { s with loom := { s.loom with tiles := tiles, tallyLc := lc, tallyEvs := evs, tallyWas := was } } := by
  obtain ⟨lc, evs, was, htally⟩ := loomTally_unselected 0x49 (tileOf s t).lastTenant (readyOverflow (lcOf s) (tileOf s t))
    (s := putTile t (settleTile (lcOf s) (tileOf s t)) s) h
  exact ⟨_, lc, evs, was, htally⟩

theorem settleOns_unselected (ts : List Nat) {s : State} (h : s.loom.tallySel = []) : ∃ tiles lc evs was,
    ts.foldl (fun s t => settleOn t s) s =
      { s with loom := { s.loom with tiles := tiles, tallyLc := lc, tallyEvs := evs, tallyWas := was } } := by
  induction ts generalizing s with
  | nil => exact ⟨_, _, _, _, rfl⟩
  | cons t ts ih =>
    obtain ⟨tiles, lc, evs, was, hfirst⟩ := settleOn_unselected t h
    obtain ⟨tiles', lc', evs', was', hrest⟩ := ih (s := settleOn t s) (by rw [hfirst]; exact h)
    refine ⟨tiles', lc', evs', was', hrest.trans ?_⟩
    rw [hfirst]

/-- Settling a list of tiles settles each of them, once or more often. -/
theorem tileOf_settleOns (i : Nat) (ts : List Nat) (s : State) : tileOf (ts.foldl (fun s t => settleOn t s) s) i =
    if i ∈ ts then settleTile (lcOf s) (tileOf s i) else tileOf s i := by
  induction ts generalizing s with
  | nil => rfl
  | cons t ts ih =>
    have hlc : lcOf (settleOn t s) = lcOf s := by
      obtain ⟨tiles, ta, h⟩ := settleOn_frame s t
      rw [h]
      rfl
    rw [List.foldl_cons, ih, hlc]
    by_cases ht : i = t
    · rw [ht, tileOf_settleOn_same, settleTile_settleTile, if_pos List.mem_cons_self, ite_self]
    · rw [tileOf_settleOn_other s ht]
      simp only [List.mem_cons, ht, false_or]

section ends
variable {s : State} {x : Slot}

theorem mem_slotTiles {i : Nat} (h : (tileOf s i).slot = some x.entry) : i ∈ slotTiles s x := by
  have hne : tileOf s i ≠ .init := fun hinit => by rw [hinit] at h; cases h
  refine List.mem_map.mpr ⟨(i, tileOf s i), List.mem_filter.mpr ⟨mem_of_sget_ne hne, ?_⟩, rfl⟩
  simp [h]

/-- A slot closes: its tiles have settled and rest, and its slot is gone. -/
theorem closeSlot_unselected (x : Slot) (h : s.loom.tallySel = []) : ∃ tiles lc evs was, closeSlot x s =
      settleSlot x { s with loom := { s.loom with
        weave := { s.loom.weave with slots := s.loom.weave.slots.filter (fun y => y.entry != x.entry) }
        tiles := tiles, tallyLc := lc, tallyEvs := evs, tallyWas := was } }
    ∧ ∀ i, (tileOf s i).slot = some x.entry → sget .init tiles i = restTile (settleTile (lcOf s) (tileOf s i)) := by
  obtain ⟨tiles, lc, evs, was, hsettled⟩ := settleOns_unselected (slotTiles s x) h
  have htile := fun i (hi : i ∈ slotTiles s x) => (tileOf_settleOns i (slotTiles s x) s).trans (if_pos hi)
  unfold closeSlot
  dsimp only
  rw [hsettled] at htile ⊢
  refine ⟨_, lc, evs, was, rfl, fun i hi => ?_⟩
  have hslot : (sget .init tiles i).slot = some x.entry := by
    rw [show sget .init tiles i = _ from htile i (mem_slotTiles hi), settleTile_slot, hi]
  rw [sget_mapped (fun _ y => if y.slot = some x.entry then restTile y else y) (fun e => ?_) (fun _ => rfl), if_pos hslot]
  · exact congrArg restTile (htile i (mem_slotTiles hi))
  · split <;> rfl

/-- A slot without breach and damage has run. -/
theorem settleSlot_ran (hbreached : x.breached = false) (hdamaged : x.damaged = false) : settleSlot x s = passRan x s := by
  unfold settleSlot
  cases hjob : slotJob x with
  | none => simp [passRan, hjob]
  | some o => simp [hbreached, hdamaged]

theorem modJob_only {j : Job} (h : s.loom.jobs = [j]) (f : Job → Job) :
    modJob j.order f s = { s with loom := { s.loom with jobs := [f j] } } := by
  have hmapped : s.loom.jobs.map (fun k => if k.order = j.order then f k else k) = [f j] := by simp [h]
  exact congrArg (fun js => { s with loom := { s.loom with jobs := js } }) hmapped

/-- The last pass of the only job: it has ended with 0, and its record is due (R355, R357). -/
theorem passRan_last {j : Job} {n : Nat} {v : Version} (hrun : x.run = .pass (some j.order) n) (hversion : slotVersion s x = some v)
    (hjobs : s.loom.jobs = [j]) (hended : j.ended = none) (hran : j.ran + 1 = j.passes) : passRan x s = { s with
      loom := { s.loom with jobs := [{ j with
        ran := j.passes, booked := j.booked.filter (fun b => b != x.start), ended := some 0, recordAt := n + v.passLc + 16 }] } } := by
  have hjob : slotJob x = some j.order := by simp [slotJob, hrun]
  have hstart : passStart x = n := by simp [passStart, hrun]
  unfold passRan
  rw [hjob]
  dsimp only
  rw [hversion, hstart]
  rw [modJob_only hjobs]
  dsimp only
  rw [hended, hran, if_neg (by simp), if_neg (Nat.lt_irrefl _)]
  rfl

end ends

/-- PASS_END of the last pass of the only job. -/
theorem passEndEffect_last {s : State} {x : Slot} {j : Job} {n : Nat} {v : Version} (hslots : s.loom.weave.slots = [x])
    (hrun : x.run = .pass (some j.order) n) (hhalted : x.halted = true) (hbreached : x.breached = false) (hdamaged : x.damaged = false)
    (hversion : slotVersion s x = some v) (hover : n + v.passLc ≤ s.clocks.lc) (hjobs : s.loom.jobs = [j]) (hended : j.ended = none)
    (hran : j.ran + 1 = j.passes) (hsel : s.loom.tallySel = []) : ∃ tiles lc evs was,
      passEndEffect x.entry s = { s with loom := { s.loom with
        weave := { s.loom.weave with slots := [] }, jobs := [{ j with
          ran := j.passes, booked := j.booked.filter (fun b => b != x.start), ended := some 0, recordAt := n + v.passLc + 16 }]
        tiles := tiles, tallyLc := lc, tallyEvs := evs, tallyWas := was } }
      ∧ ∀ i, (tileOf s i).slot = some x.entry → sget .init tiles i = restTile (settleTile s.clocks.lc (tileOf s i)) := by
  obtain ⟨tiles, lc, evs, was, hclosed, htiles⟩ := closeSlot_unselected x hsel
  have hslot : slotOfEntry s x.entry = some x := by simp [slotOfEntry, hslots]
  have hpass : isPass x = true := by simp [isPass, hrun]
  have hstart : passStart x = n := by simp [passStart, hrun]
  have hcloses : passEndEffect x.entry s = closeSlot x s := by
    simp [passEndEffect, hslot, hpass, hbreached, hdamaged, hversion, hhalted, hstart, hover, lcOf]
  have hgone : s.loom.weave.slots.filter (fun y => y.entry != x.entry) = [] := by simp [hslots]
  refine ⟨tiles, lc, evs, was, ?_, htiles⟩
  rw [hcloses, hclosed, settleSlot_ran hbreached hdamaged, passRan_last hrun ?_ ?_ hended hran, hgone]
  · exact hversion
  · exact hjobs

/-! ## Slot starts (R239, R249, R349, R350) -/

section starts
variable {s : State}

theorem warpOf_unpaired (h : s.warp = []) (m : Nat) : warpOf s m = .init := by
  unfold warpOf
  rw [h]
  rfl

/-- Without a mark no occurrence is claimed, and none is given up. -/
theorem claimedBy_unpaired (h : s.warp = []) (d lc : Nat) : claimedBy s d lc = none := by
  unfold claimedBy
  simp only [warpOf_unpaired h]
  rfl

theorem dropClaim_unpaired (h : s.warp = []) (d lc : Nat) : dropClaim d lc s = s := by
  have hkept : ∀ m, putWarp m { warpOf s m with marks := (warpOf s m).marks.filter (fun k => !(k.id == d && k.claim == lc)) } s = s := by
    intro m
    unfold putWarp
    rw [warpOf_unpaired h, h]
    exact congrArg (fun w => { s with warp := w }) h.symm
  unfold dropClaim
  simp only [List.foldl_cons, List.foldl_nil, hkept]

/-- No job's work is flagged. -/
theorem endFlaggedWhere_unflagged (p : Job → Bool) (h : ∀ j ∈ s.loom.jobs, j.ending = none) : endFlaggedWhere p s = s := by
  have hnone : s.loom.jobs.filter (fun j => p j && (j.ended.isNone || (j.silent && isCkpt j)) && j.ending.isSome) = [] :=
    List.filter_eq_nil_iff.mpr fun j hj => by simp [h j hj]
  unfold endFlaggedWhere
  rw [hnone]
  rfl

/-- The first lc of a DRAFT entry's occurrence, with no slot open, no work flagged and no damage found, starts the draft. -/
theorem slotStartEffect_starts (e : Nat) (hruns : mesochronousRuns s = true) (hwalk : walking s.loom.weave = true)
    (hdraft : isDraftEntry (activeEntry s e) = true) (hfirst : s.clocks.lc = s.loom.weave.rep0 + (activeEntry s e).start)
    (hslots : s.loom.weave.slots = []) (hup : s.loom.storeUp = []) (hflags : ∀ j ∈ s.loom.jobs, j.ending = none) :
    slotStartEffect e [] [] s = startDraft e (activeEntry s e) s := by
  have hkind : isNoneEntry (activeEntry s e) = false := by
    unfold isDraftEntry at hdraft
    unfold isNoneEntry
    rw [eq_of_beq hdraft]
    rfl
  have hfound : onLoom (fun l => { l with storeUp := addUpsets l.storeUp [] }) s = s := by
    refine onLoom_of_fixed ?_
    rw [show addUpsets s.loom.storeUp [] = s.loom.storeUp from filter_of_nil hup _]
  have hfirst' : lcOf s = s.loom.weave.rep0 + (activeEntry s e).start := hfirst
  have hacts : (!walking s.loom.weave || isNoneEntry (activeEntry s e) || !mesochronousRuns s
      || decide (lcOf s ≠ s.loom.weave.rep0 + (activeEntry s e).start)
      || s.loom.weave.slots.any (fun x => x.entry == e && x.start == lcOf s)) = false := by
    simp [hwalk, hkind, hruns, hfirst', hslots]
  unfold slotStartEffect
  dsimp only
  rw [hacts, if_neg Bool.false_ne_true, closeEnded_noSlot _ hslots, endFlaggedWhere_unflagged _ hflags, hfound, hdraft, if_pos rfl]
  rfl

/-- A resident draft's booked occurrence begins its pass. -/
theorem startDraft_begins (e : Nat) {en : WEntry} {v : Version} {j : Job} (hwarp : s.warp = []) (hcounted : idleCounted s en = false)
    (hresident : (draftOf s en.id).resident = some v) (hst : s.pwr.st = .l0) (hjob : bookedJob s en.id s.clocks.lc = some j) :
    startDraft e en s = beginPass e en v (some j.order) s := by
  have hjob' : bookedJob s en.id (lcOf s) = some j := hjob
  unfold startDraft
  dsimp only
  rw [dropClaim_unpaired hwarp, hcounted, if_neg Bool.false_ne_true, hresident, hjob', hst]
  rfl

/-- An occurrence of a resident draft that nobody booked runs the idle pattern. -/
theorem startDraft_idles (e : Nat) {en : WEntry} {v : Version} (hwarp : s.warp = []) (hcounted : idleCounted s en = false)
    (hresident : (draftOf s en.id).resident = some v) (hjobs : s.loom.jobs = []) : startDraft e en s = idleSlot e en false s := by
  have hjob : bookedJob s en.id (lcOf s) = none := by
    unfold bookedJob
    rw [hjobs]
    rfl
  unfold startDraft
  dsimp only
  rw [dropClaim_unpaired hwarp, hcounted, if_neg Bool.false_ne_true, hresident, hjob, claimedBy_unpaired hwarp]
  exact if_neg (by simp)

end starts

/-- Whether a tile starts a pass of a version: it is good and holds the version. -/
def startsPass (s : State) (v : Version) (id t : Nat) : Bool := tileGood s t && holdsVersion s t id v

/-- A tile in the slot of entry `e` from its first lc: it issues from bundle 0, or idles. -/
def Begun (e : Nat) (starts : Bool) (y : Tile) : Prop :=
  y.slot = some e ∧ if starts then y.run = .issuing ∧ y.pc = 0 else y.run = .idle

section begin
variable {s : State} (e : Nat) (v : Version) (x : Slot)

/-- With a clean store the start of a pass on a tile touches that tile alone. -/
theorem beginTile_oneTile (tenant t : Nat) (hup : s.loom.storeUp = []) : ∃ y, OneTile s (beginTile e tenant v x t s) t y
    ∧ (((tileOf s t).slot = none ∨ Begun e (startsPass s v x.draft t) (tileOf s t)) → Begun e (startsPass s v x.draft t) y) := by
  unfold beginTile
  dsimp only
  split
  · next hslot =>
    refine ⟨_, OneTile.refl s t, fun h => h.resolve_left fun hnone => ?_⟩
    rw [hnone] at hslot
    exact Bool.false_ne_true hslot
  · split
    · next hlacks =>
      have hstarts : startsPass s v x.draft t = false := by
        unfold startsPass
        revert hlacks
        cases tileGood s t <;> cases holdsVersion s t x.draft v <;> decide
      refine ⟨_, (OneTile.refl s t).put _, fun _ => ⟨rfl, ?_⟩⟩
      rw [hstarts]
      rfl
    · next hholds =>
      have hstarts : startsPass s v x.draft t = true := by
        unfold startsPass
        revert hholds
        cases tileGood s t <;> cases holdsVersion s t x.draft v <;> decide
      rw [fetchBundle_clean _ _ _ (by exact hup)]
      refine ⟨_, (OneTile.refl s t).put _, fun _ => ⟨rfl, ?_⟩⟩
      rw [hstarts]
      exact ⟨rfl, rfl⟩

/-- The starts of a pass on tiles touch tiles alone. -/
theorem beginTiles_frame (ts : List Nat) (hup : s.loom.storeUp = []) : ∃ tiles,
    ts.foldl (fun s t => beginTile e (draftOf s x.draft).tenant v x t s) s = { s with loom := { s.loom with tiles := tiles } } := by
  induction ts generalizing s with
  | nil => exact ⟨_, rfl⟩
  | cons t ts ih =>
    obtain ⟨y, hone, _⟩ := beginTile_oneTile e v x (draftOf s x.draft).tenant t hup
    obtain ⟨tiles, hrest⟩ := ih (s := beginTile e (draftOf s x.draft).tenant v x t s) (by rw [hone.eq]; exact hup)
    refine ⟨tiles, hrest.trans ?_⟩
    rw [hone.eq]

/-- Tiles that were in no slot have begun, each as it holds the version. -/
theorem beginTiles_begun {ts : List Nat} {t : Nat} (hup : s.loom.storeUp = [])
    (hfree : ∀ a, (tileOf s a).slot = none ∨ Begun e (startsPass s v x.draft a) (tileOf s a))
    (ht : t ∈ ts ∨ Begun e (startsPass s v x.draft t) (tileOf s t)) :
    Begun e (startsPass s v x.draft t) (tileOf (ts.foldl (fun s t => beginTile e (draftOf s x.draft).tenant v x t s) s) t) := by
  induction ts generalizing s with
  | nil => exact ht.resolve_left List.not_mem_nil
  | cons a ts ih =>
    obtain ⟨y, hone, hbegun⟩ := beginTile_oneTile e v x (draftOf s x.draft).tenant a hup
    have hstarts : ∀ b, startsPass (beginTile e (draftOf s x.draft).tenant v x a s) v x.draft b = startsPass s v x.draft b := fun b => by
      rw [hone.eq]
      rfl
    have htile : Begun e (startsPass s v x.draft a) (tileOf (beginTile e (draftOf s x.draft).tenant v x a s) a) :=
      hone.tile ▸ hbegun (hfree a)
    rw [List.foldl_cons, ← hstarts t]
    refine ih (by rw [hone.eq]; exact hup) (fun b => ?_) ?_ <;> rw [hstarts]
    · by_cases hb : b = a
      · exact .inr (hb ▸ htile)
      · rw [hone.other hb]
        exact hfree b
    · by_cases hta : t = a
      · exact .inr (hta ▸ htile)
      · rw [hone.other hta]
        exact ht.imp_left fun hmem => (List.mem_cons.mp hmem).resolve_left hta

end begin

/-- The slot of a pass that begins. -/
def freshSlot (e start draft : Nat) (job : Option Nat) : Slot :=
  { entry := e, start := start, draft := draft, run := .pass job start, breached := false, degraded := false
    poisoned := false, damaged := false, halted := false }

/-- The state with one open slot. -/
def withSlot (x : Slot) (s : State) : State := { s with loom := { s.loom with weave := { s.loom.weave with slots := [x] } } }

theorem sendMarks_noWarp {v : Version} (h : v.warp = false) (id : Nat) (s : State) : sendMarks v id s = s := by
  unfold sendMarks
  rw [h]
  rfl

/-- A pass of a draft without warp begins in a free fabric: its slot stands and every tile of its rectangle has begun, before the
check of the version. -/
theorem beginPass_begins {s : State} (e : Nat) {en : WEntry} {v : Version} (job : Option Nat) (hslots : s.loom.weave.slots = [])
    (htiles : s.loom.tiles = []) (hup : s.loom.storeUp = []) (hwarp : v.warp = false) : ∃ tiles,
      beginPass e en v job s = versionBreach v (freshSlot e s.clocks.lc en.id job) { s with loom := { s.loom with
        weave := { s.loom.weave with slots := [freshSlot e s.clocks.lc en.id job] }, tiles := tiles } }
      ∧ ∀ i ∈ versionTiles v, Begun e (startsPass s v en.id i) (sget .init tiles i) := by
  have hopened : s.loom.weave.slots ++ [freshSlot e s.clocks.lc en.id job] = [freshSlot e s.clocks.lc en.id job] := by
    rw [hslots]
    rfl
  have hslot : onWeave (fun w => { w with slots := w.slots ++ [freshSlot e s.clocks.lc en.id job] }) s =
      withSlot (freshSlot e s.clocks.lc en.id job) s :=
    congrArg (fun sl => { s with loom := { s.loom with weave := { s.loom.weave with slots := sl } } }) hopened
  have hbegins : beginPass e en v job s = versionBreach v (freshSlot e s.clocks.lc en.id job) (sendMarks v en.id
      ((versionTiles v).foldl (fun u t => beginTile e (draftOf u (freshSlot e s.clocks.lc en.id job).draft).tenant v
        (freshSlot e s.clocks.lc en.id job) t u) (onWeave (fun w => { w with
          slots := w.slots ++ [freshSlot e s.clocks.lc en.id job] }) s))) := rfl
  have hfree : ∀ a, (tileOf (withSlot (freshSlot e s.clocks.lc en.id job) s) a).slot = none := fun a => by
    unfold tileOf withSlot
    dsimp only
    rw [htiles]
    rfl
  obtain ⟨tiles, hframe⟩ := beginTiles_frame e v (freshSlot e s.clocks.lc en.id job) (versionTiles v)
    (s := withSlot (freshSlot e s.clocks.lc en.id job) s) hup
  have hbegun := fun i (hi : i ∈ versionTiles v) => beginTiles_begun e v (freshSlot e s.clocks.lc en.id job)
    (s := withSlot (freshSlot e s.clocks.lc en.id job) s) hup (fun a => .inl (hfree a)) (.inl hi)
  rw [hbegins, hslot]
  rw [hframe] at hbegun ⊢
  rw [sendMarks_noWarp hwarp]
  exact ⟨tiles, rfl, hbegun⟩

/-- A pass whose tiles all hold the version is no breach. -/
theorem versionBreach_held {v : Version} {x : Slot} {s : State} (h : ∀ i ∈ versionTiles v, holdsVersion s i x.draft v = true) :
    versionBreach v x s = s := by
  have hnone : (versionTiles v).find? (fun t => !holdsVersion s t x.draft v) = none :=
    List.find?_eq_none.mpr fun i hi => by simp [h i hi]
  unfold versionBreach
  rw [hnone]

/-- A breach leaves a tile's run as it stands: it stops at a later lc. -/
theorem breach_run {s : State} {x : Slot} (kind tile : Nat) (hslot : slotOfEntry s x.entry = some x) (hfirst : x.breached = false)
    (i : Nat) : (tileOf (breach kind tile x s) i).run = (tileOf s i).run := by
  obtain ⟨bw, w, rs, ts, ta, js, hbooks⟩ :=
    breachBooks_frame s kind tile (draftOf s x.draft).tenant x.draft (lcOf s - passStart x) (slotJob x)
  obtain ⟨w', js', sl, hbreach⟩ := breach_first kind tile hslot hfirst
  rw [hbooks] at hbreach
  have htile : tileOf (breach kind tile x s) i = sget .init (stopTiles (lcOf s) tile x s.loom.tiles) i := by
    rw [hbreach]
    rfl
  rw [htile, stopTiles, sget_mapped (fun a y => if y.slot = some x.entry && y.stopAt.isNone then
    { y with stopAt := some (lcOf s + (if a = tile then 1 else 4)) } else y) (fun e => ?_) (fun _ => rfl)]
  · split <;> rfl
  · split <;> rfl

/-- The first tile without the version makes a pass that starts in this lc a breach (R249). -/
theorem versionBreach_marks {v : Version} {s : State} {e i id : Nat} {job : Option Nat}
    (hslots : s.loom.weave.slots = [freshSlot e s.clocks.lc id job])
    (hlacks : (versionTiles v).find? (fun t => !holdsVersion s t id v) = some i) :
    let t := versionBreach v (freshSlot e s.clocks.lc id job) s
    (∀ a, (tileOf t a).run = (tileOf s a).run) ∧ (tenantOf t (draftOf s id).tenant).faulted = true
      ∧ t.loom.breach = breachWord i 8 (draftOf s id).tenant id 0 := by
  have hslot : slotOfEntry s (freshSlot e s.clocks.lc id job).entry = some (freshSlot e s.clocks.lc id job) := by
    simp [slotOfEntry, hslots]
  have hbreaches : versionBreach v (freshSlot e s.clocks.lc id job) s = breach 8 i (freshSlot e s.clocks.lc id job) s := by
    unfold versionBreach
    rw [show (freshSlot e s.clocks.lc id job).draft = id from rfl, hlacks]
  have hoffset : lcOf s - passStart (freshSlot e s.clocks.lc id job) = 0 := Nat.sub_self _
  obtain ⟨_, _, hfaulted, hword⟩ := breach_marks 8 i hslot rfl
  rw [hoffset] at hword
  rw [hbreaches]
  exact ⟨breach_run 8 i hslot rfl, hfaulted, hword⟩

/-- An idle slot that is not counted opens its slot and leaves the tiles. -/
theorem idleSlot_opens (e : Nat) (en : WEntry) (s : State) : ∃ x : Slot,
    (idleSlot e en false s).loom.weave.slots = s.loom.weave.slots ++ [x] ∧ (x.entry, x.start, x.run) = (e, s.clocks.lc, .idle)
      ∧ (idleSlot e en false s).loom.tiles = s.loom.tiles := ⟨_, rfl, rfl, rfl⟩

/-- Settles O44: slot starts that begin a pass, breach and idle, the end of a job's last pass, and repeat boundaries. -/
theorem slotsAndPasses : Obligations.SlotsAndPasses := by
  unfold Obligations.SlotsAndPasses
  refine ⟨?_, ?_, ?_, ?_, ?_, ?_⟩
  · intro s e v j hlive hruns hst hwalk hdraft hfirst hslots htiles hup hwarp hresident hcounted hnowarp hflags hjob hholds
    obtain ⟨tiles, hbegins, hbegun⟩ := beginPass_begins e.toNat (en := activeEntry s e.toNat) (some j.order) hslots htiles hup hnowarp
    have heffect := (slotStartEffect_starts e.toNat hruns hwalk hdraft hfirst hslots hup hflags).trans
      ((startDraft_begins e.toNat hwarp hcounted hresident hst hjob).trans hbegins)
    rw [versionBreach_held (fun i hi => (hholds i hi).2)] at heffect
    refine .of_fin hlive (congrArg (fin s) heffect) ⟨rfl, fun i hi => ?_, rfl⟩
    obtain ⟨hslot, hrun⟩ := hbegun i hi
    obtain ⟨hgood, htag⟩ := hholds i hi
    rw [startsPass, hgood, htag] at hrun
    obtain ⟨hissuing, hpc⟩ := hrun
    exact ⟨hissuing, hpc, hslot⟩
  · intro s e v j i hlive hruns hst hwalk hdraft hfirst hslots htiles hup hwarp hresident hcounted hnowarp hflags hjob hlacks
    obtain ⟨tiles, hbegins, hbegun⟩ := beginPass_begins e.toNat (en := activeEntry s e.toNat) (some j.order) hslots htiles hup hnowarp
    have heffect := (slotStartEffect_starts e.toNat hruns hwalk hdraft hfirst hslots hup hflags).trans
      ((startDraft_begins e.toNat hwarp hcounted hresident hst hjob).trans hbegins)
    obtain ⟨_, hrun⟩ := hbegun i (List.mem_of_find?_eq_some hlacks)
    have hmissing : holdsVersion s i (activeEntry s e.toNat).id v = false := by simpa using List.find?_some hlacks
    rw [startsPass, hmissing, Bool.and_false] at hrun
    obtain ⟨hkept, hmarks⟩ := versionBreach_marks (e := e.toNat) (job := some j.order) (s := { s with loom := { s.loom with
      weave := { s.loom.weave with slots := [freshSlot e.toNat s.clocks.lc (activeEntry s e.toNat).id (some j.order)] }
      tiles := tiles } }) rfl hlacks
    exact .of_fin hlive (congrArg (fin s) heffect) ⟨(hkept i).trans hrun, hmarks⟩
  · intro s e v hlive hruns hwalk hdraft hfirst hslots hup hwarp hjobs hresident hcounted
    have hflags : ∀ k ∈ s.loom.jobs, k.ending = none := fun k hk => by rw [hjobs] at hk; cases hk
    have heffect := (slotStartEffect_starts e.toNat hruns hwalk hdraft hfirst hslots hup hflags).trans
      (startDraft_idles e.toNat hwarp hcounted hresident hjobs)
    obtain ⟨x, hopened, hidle, htiles⟩ := idleSlot_opens e.toNat (activeEntry s e.toNat) s
    refine .of_fin hlive (congrArg (fin s) heffect) ⟨?_, htiles⟩
    rw [hslots] at hopened
    exact (congrArg (List.map fun x : Slot => (x.entry, x.start, x.run)) hopened).trans (congrArg (fun y => [y]) hidle)
  · intro s e x v j n hlive hslots hentry hrun hhalted hbreached hdamaged hversion hover hjobs hended hran hsel
    obtain ⟨tiles, lc, evs, was, heffect, htiles⟩ :=
      passEndEffect_last hslots hrun hhalted hbreached hdamaged hversion hover hjobs hended hran hsel
    rw [hentry] at heffect htiles
    exact .of_fin hlive (congrArg (fin s) heffect) ⟨rfl, rfl, fun i _ hi => htiles i hi, rfl⟩
  · intro s hlive hruns hst hempty hswap hdue hchain hinstalled hover
    exact .of_fin hlive (congrArg (fin s) (repeatBoundaryEffect_walks hruns hst hempty hswap hdue hchain hinstalled hover)) rfl
  · intro s hlive hruns hst hempty hswap hchain hnone hchecked _
    exact .of_fin hlive (congrArg (fin s) (repeatBoundaryEffect_installs hruns hst hempty hswap hchain hnone hchecked)) rfl

end Sys2Proof.Machine
end

