-- ==== Sys2Proof/Proofs/Numbers.lean ====
section
/-!
PROOF. The numeric units of a tile: the multiplier array (R287 to R293), the vector unit and its lanes (R294 to R296, R303), and the
quantisation sites (R280 to R286, R297 to R300, R306).
-/

namespace Sys2Proof.Machine

/-! ## Rows that units take (R287, R294, R306) -/

theorem settleTile_rows (lc : Nat) (y : Tile) : (settleTile lc y).rows = y.rows := by
  obtain ⟨_, _, _, _, _, h⟩ := settleTile_frame lc y
  rw [h]

theorem settleTile_recv (lc : Nat) (y : Tile) : (settleTile lc y).recv = y.recv := by
  obtain ⟨_, _, _, _, _, h⟩ := settleTile_frame lc y
  rw [h]

/-- The state in which an operation of field `k` acts once it has taken a row: free bytes are drawn where nothing was delivered
(log 12). -/
def rowTaken (i : BitVec 8) (k unit src : Nat) (s : State) : State :=
  { issuedOn i.toNat k s with free := (sourceRow i.toNat unit src s).2.free }

section rows
variable (s : State) (i : BitVec 8) (k unit src : Nat)

/-- A source names the same row before and after the issue. -/
theorem sourceRow_issuedOn :
    sourceRow i.toNat unit src (issuedOn i.toNat k s) = ((sourceRow i.toNat unit src s).1, rowTaken i k unit src s) := by
  have hfree : (issuedOn i.toNat k s).free = s.free := by rw [issuedOn_eq]
  have hsame : issuedOn i.toNat k s = { issuedOn i.toNat k s with free := s.free } := by rw [← hfree]
  have hlc : lcOf (issuedOn i.toNat k s) = lcOf s := lcOf_issuedOn s i k
  have hdelivered : deliveredTo (issuedOn i.toNat k s) i.toNat unit = deliveredTo s i.toNat unit := by
    unfold deliveredTo
    rw [tileOf_issuedOn_same, hlc, settled, settleTile_rows]
  have hreceived : ∀ d, receivedAt (issuedOn i.toNat k s) i.toNat d = receivedAt s i.toNat d := fun d => by
    unfold receivedAt
    rw [tileOf_issuedOn_same, hlc, settled, settleTile_recv]
  unfold rowTaken sourceRow
  simp only [hdelivered, hreceived]
  split
  · exact congrArg _ hsame
  · unfold freeRow
    rw [hfree]

theorem rowOp_issuedOn (f : List Byte → State → State) :
    rowOp i.toNat unit src f (issuedOn i.toNat k s) = f (sourceRow i.toNat unit src s).1 (rowTaken i k unit src s) := by
  unfold rowOp
  rw [sourceRow_issuedOn]

theorem issuedOn_oneTile : OneTile (issuedOn i.toNat k s) (issuedOn i.toNat k s) i.toNat (settled s i) :=
  tileOf_issuedOn_same s i k ▸ OneTile.refl _ _

theorem rowTaken_oneTile : OneTile (rowTaken i k unit src s) (rowTaken i k unit src s) i.toNat (settled s i) :=
  ⟨tileOf_issuedOn_same s i k, fun _ _ => rfl, rfl⟩

theorem lcOf_rowTaken : lcOf (rowTaken i k unit src s) = s.clocks.lc := lcOf_issuedOn s i k

end rows

/-! ## Operations of a unit on its tile (R236) -/

section oneTile
variable {s e : State} {y : Tile}

theorem OneTile.modTile {i : Nat} (h : OneTile s e i y) (f : Tile → Tile) : OneTile s (modTile i f e) i (f y) := by
  unfold Machine.modTile
  rw [h.tile]
  exact h.put _

theorem OneTile.launch {i : Nat} (h : OneTile s e i y) (lat : Nat) (es : List Effect) : OneTile s (launch i lat es e) i
    { y with flights := y.flights ++ es.map (fun r => { ready := lcOf s + lat, eff := r }) } := by
  unfold Machine.launch
  rw [h.tile, h.lc]
  exact h.put _

/-- Results launched on the settled tile. -/
theorem launch_issuedOn (s : State) (i : BitVec 8) (k lat : Nat) (es : List Effect) :
    OneTile (issuedOn i.toNat k s) (launch i.toNat lat es (issuedOn i.toNat k s)) i.toNat (launched s i lat es) := by
  have h := (issuedOn_oneTile s i k).launch lat es
  rw [lcOf_issuedOn] at h
  exact h

theorem launch_rowTaken (s : State) (i : BitVec 8) (k unit src lat : Nat) (es : List Effect) :
    OneTile (rowTaken i k unit src s) (launch i.toNat lat es (rowTaken i k unit src s)) i.toNat (launched s i lat es) := by
  have h := (rowTaken_oneTile s i k unit src).launch lat es
  rw [lcOf_rowTaken] at h
  exact h

/-- An operation that changes its tile alone. -/
theorem Answers.onlyTile {c : Instr} {i : BitVec 8} {k : Nat} (hlive : Live s) (hexec : exec c s = fin s e)
    (h : OneTile (issuedOn i.toNat k s) e i.toNat y) : Answers c s (fun t => OnlyTile s t i k y) :=
  .of_fin hlive hexec h.onlyTile

/-- An operation that takes a row and changes its tile alone. -/
theorem Answers.onlyTileRow {c : Instr} {i : BitVec 8} {k unit src : Nat} (hlive : Live s) (hexec : exec c s = fin s e)
    (h : OneTile (rowTaken i k unit src s) e i.toNat y) :
    Answers c s (fun t => OnlyTileRow s t i k (sourceRow i.toNat unit src s) y) := by
  refine .of_fin hlive hexec ⟨h.tile, fun j _ hj => (h.other hj).trans (tileOf_issuedOn_other s i k hj), ?_⟩
  have heq := h.eq
  rw [rowTaken, issuedOn_eq] at heq
  exact congrArg (fun u : State => { u with seen := (settle s e).seen }) heq

end oneTile

/-- The only result in flight, once it is ready. -/
theorem settleTile_launched {s : State} {i : BitVec 8} (lat : Nat) (r : Effect) (hnone : (settled s i).flights = []) :
    settleTile (s.clocks.lc + lat) (launched s i lat [r]) = applyEffect (settled s i) r := by
  have hbare : { settled s i with flights := [] } = settled s i := by rw [← hnone]
  unfold settleTile readyFlights launched
  rw [hnone]
  simp [insReady, hbare]

/-! ## Vectors of lanes -/

theorem getElem?_map_span {α : Type} (f : Nat → α) {n o : Nat} (ho : o < n) : ((span 0 n).map f)[o]? = some (f o) := by
  simp [span, ho]

theorem laneAt_map_span (f : Nat → Word) {n o : Nat} (ho : o < n) : laneAt ((span 0 n).map f) o = f o := by
  rw [laneAt, getElem?_map_span f ho, Option.getD_some]

/-- The zero form of a register reads as the register. -/
theorem laneAt_packLanes (xs : List Word) (o : Nat) : laneAt (packLanes xs) o = laneAt xs o := by
  unfold packLanes
  split
  · rename_i hzero
    unfold laneAt
    cases h : xs[o]? with
    | none => rfl
    | some w => exact (beq_iff_eq.mp (List.all_eq_true.mp hzero w (List.mem_of_getElem? h))).symm
  · rfl

/-! ## MXU (R287 to R293) -/

section mxu
variable {s : State} {i : BitVec 8} {op b : Nat} {x : Slot}

theorem issueMxu_issues {names : Nat → Bool} (f : Slot → State → State) (hissues : IssuesMxu s i op b x) (hnames : names b = true) :
    issueMxu op i.toNat names f s = f x (issuedOn i.toNat fieldMxu s) := by
  obtain ⟨hfield, hop⟩ := hissues
  exact issueOn_issues _ hfield (by simp [hop, hnames])

end mxu

theorem loadwTile_target (row : Nat) (target : BitVec 2) (data : List Byte) (y : Tile) : loadwTile row target.toNat data y =
    if target = 0 then { y with weightsSh := mwrite y.weightsSh (64 * row) data }
    else if target = 1 then { y with wscaleSh := mwrite y.wscaleSh 0 data }
    else if target = 2 then { y with sideReg := mwrite y.sideReg 0 data }
    else { y with drainVec := mwrite y.drainVec (64 * row) data } := by
  simp [loadwTile, BitVec.toNat_eq]

section mac
variable {s : State} {i : BitVec 8} {b : Nat} {x : Slot} {m : MacField}

theorem macIssue_issues (hissues : IssuesMxu s i 3 b x) (hm : m = macField b) :
    OneTile (rowTaken i fieldMxu unitA m.asrc.toNat s) (macIssue i.toNat m s) i.toNat
      (launched s i (macEffect i.toNat (settled s i) m (sourceRow i.toNat unitA m.asrc.toNat s).1).1
        [(macEffect i.toNat (settled s i) m (sourceRow i.toNat unitA m.asrc.toNat s).1).2]) := by
  have htile := (rowTaken_oneTile s i fieldMxu unitA m.asrc.toNat).tile
  unfold macIssue
  rw [issueMxu_issues _ hissues (by simp [hm]), rowOp_issuedOn]
  dsimp only
  rw [htile]
  exact launch_rowTaken ..

/-- A MAC of i8 codes adds its 32 products to every output of an i32 entry (R289, R290). -/
theorem macEffect_i8 (t : Nat) (y : Tile) (row : List Byte) (hw : m.wfmt = 3) (ha : m.afmt = 3) (hz : m.zpm = 0) :
    macEffect t y m row = (34, .acc m.acc.toNat false m.clr (.addInt ((span 0 32).map (fun o => ((span 0 32).map (fun k =>
      signed 8 (mget y.weights (32 * k + o)).toNat * signed 8 (leAt row ((if m.ah then 32 else 0) + k) 1))).sum)))) := by
  have hkind : pairKind m = .int 32 := by simp [pairKind, hw, ha, isG, is4, is8i]
  have hterm : ∀ o k, codeInt m.wfmt.toNat (weightBits y m.wfmt.toNat k o) * actInt m row k =
      signed 8 (mget y.weights (32 * k + o)).toNat * signed 8 (leAt row ((if m.ah then 32 else 0) + k) 1) := fun o k => by
    cases hah : m.ah <;> simp [codeInt, weightBits, actInt, actBits, presubs, is4, isF16, hw, ha, hz, hah]
  unfold macEffect
  rw [hkind]
  dsimp only
  simp only [intSum, hterm]

end mac

/-- Saturation between two bounds as the lesser and the greater of numbers. -/
theorem clampInt_eq {lo hi : Int} (h : lo ≤ hi) (v : Int) : clampInt lo hi v = max lo (min hi v) := by
  unfold clampInt
  split
  · omega
  · split <;> omega

/-- Integer terms added to an entry that holds i32 sums, saturating (R290). -/
theorem laneAt_accStep_addInt {a : Acc} (isF : Bool) (f : Nat → Int) (ha : a.isF32 = false) {o : Nat} (ho : o < 32) :
    laneAt (accStep a isF false (.addInt ((span 0 32).map f))).lanes o =
      BitVec.ofInt 32 (max (-2 ^ 31) (min (2 ^ 31 - 1) (signed 32 (laneAt a.lanes o).toNat + f o))) := by
  unfold accStep
  simp only [ha, Bool.or_self, Bool.false_eq_true, if_false]
  rw [laneAt_packLanes, List.map_map, laneAt_map_span _ ho, Function.comp_apply, getElem?_map_span f ho, Option.getD_some,
    clampInt_eq (by omega)]

theorem accAt_applyEffect_acc (y : Tile) (n : Nat) (isF clr : Bool) (op : AccOp) :
    accAt (applyEffect y (.acc n isF clr op)) n = accStep (accAt y n) isF clr op := sget_sput_same _ _ _ _

theorem accStep_corr_i32 {a : Acc} (isF clr : Bool) (terms : List ExVal) (ha : a.isF32 = false) :
    accStep a isF clr (.corr terms) = a := by
  unfold accStep
  rw [ha]
  rfl

section corr
variable {s : State} {i : BitVec 8} {b : Nat} {x : Slot} {wfmt : BitVec 4} {acc : BitVec 6} {ar0 ar1 : BitVec 4}

theorem corrIssue_issues (hissues : IssuesMxu s i 5 b x) (hspells : SpellsCorr b wfmt acc ar0 ar1) :
    OneTile (issuedOn i.toNat fieldMxu s) (corrIssue i.toNat wfmt.toNat acc.toNat ar0.toNat ar1.toNat s) i.toNat
      (launched s i 36 [corrEffect i.toNat (settled s i) wfmt.toNat acc.toNat ar0.toNat ar1.toNat]) := by
  obtain ⟨hw, hacc, h0, h1⟩ := hspells
  unfold corrIssue
  rw [issueMxu_issues _ hissues (by simp [hw, hacc, h0, h1]), tileOf_issuedOn_same]
  exact launch_issuedOn ..

end corr

/-- A tally of events looks at no tile. -/
theorem loomTally_tiles (src : Nat) (ten : Option Nat) (n : Nat) (ts : Sparse Tile) (s : State) :
    loomTally src ten n { s with loom := { s.loom with tiles := ts } } =
      { loomTally src ten n s with loom := { (loomTally src ten n s).loom with tiles := ts } } := by
  unfold loomTally onLoom rollTally
  split
  · rfl
  · dsimp only
    split <;> rfl

section drain
variable {s : State} {i : BitVec 8} {b : Nat} {x : Slot} {acc : BitVec 6} {mode : BitVec 2} {dst : BitVec 5} {h : Bool}

/-- A DRAIN of a reserved MODE issues and does nothing (log 16). -/
theorem drainIssue_reserved (hissues : IssuesMxu s i 4 b x) (hspells : SpellsDrain b acc mode dst h) (hmode : 1 < mode.toNat) :
    drainIssue i.toNat acc.toNat mode.toNat dst.toNat h.toNat s = issuedOn i.toNat fieldMxu s := by
  obtain ⟨hacc, hm, hdst, hh⟩ := hspells
  unfold drainIssue
  rw [issueMxu_issues _ hissues (by simp [hacc, hm, hdst, hh])]
  exact if_pos hmode

/-- Any other launches its lanes and counts the entry's saturation once (R293). -/
theorem drainIssue_issues (hissues : IssuesMxu s i 4 b x) (hspells : SpellsDrain b acc mode dst h) (hmode : mode.toNat ≤ 1) :
    drainIssue i.toNat acc.toNat mode.toNat dst.toNat h.toNat s =
      loomTally 0x4A (some (draftOf s x.draft).tenant) (if (accAt (settled s i) acc.toNat).sat.any id then 1 else 0)
        (launch i.toNat 2 [.vec dst.toNat (drainLanes (settled s i) (accAt (settled s i) acc.toNat) mode.toNat h.toNat) 4]
          (issuedOn i.toNat fieldMxu s)) := by
  obtain ⟨hacc, hm, hdst, hh⟩ := hspells
  have hdraft : draftOf (issuedOn i.toNat fieldMxu s) x.draft = draftOf s x.draft := by
    obtain ⟨ts, ta, u, hframe⟩ := issuedOn_frame s i fieldMxu
    rw [hframe]
    rfl
  unfold drainIssue
  rw [issueMxu_issues _ hissues (by simp [hacc, hm, hdst, hh]), tileOf_issuedOn_same, hdraft]
  exact if_neg (Nat.not_lt.mpr hmode)

end drain

/-- Settles O47: each operation by the tile it leaves; the sums of a MAC and the effect of a CORR by the one result in flight. -/
theorem multiplierArray : Obligations.MultiplierArray := by
  unfold Obligations.MultiplierArray
  refine ⟨?_, ?_, ?_, ?_, ?_, ?_, ?_, ?_, ?_⟩
  · intro s i b x row target hissues hrow htarget
    have hload := (rowTaken_oneTile s i fieldMxu unitW 0).modTile (loadwTile row.toNat target.toNat (sourceRow i.toNat unitW 0 s).1)
    rw [loadwTile_target] at hload
    refine .onlyTileRow hissues.1.1 (congrArg (fin s) ?_) hload
    unfold loadwEffect
    rw [issueMxu_issues _ hissues (by simp [hrow, htarget]), rowOp_issuedOn]
  · intro s i b x hissues
    exact .onlyTile hissues.1.1 (congrArg (fin s) (issueMxu_issues _ hissues rfl)) ((issuedOn_oneTile s i fieldMxu).modTile swapwTile)
  · intro s i b x m hissues hm
    exact .onlyTileRow hissues.1.1 rfl (macIssue_issues hissues hm)
  · intro s i b x acc mode dst h hissues hspells hmode hsat
    have hdrain := drainIssue_issues hissues hspells (by simp [hmode])
    rw [hsat] at hdrain
    subst hmode
    exact .onlyTile hissues.1.1 (congrArg (fin s) hdrain) (launch_issuedOn ..)
  · intro s i b x acc mode dst h hissues hspells hmode hsat
    have hdrain := drainIssue_issues hissues hspells hmode
    have hlaunch := (launch_issuedOn s i fieldMxu 2
      [.vec dst.toNat (drainLanes (settled s i) (accAt (settled s i) acc.toNat) mode.toNat h.toNat) 4]).eq
    rw [hsat, if_pos rfl, hlaunch, loomTally_tiles, issuedOn_eq] at hdrain
    obtain ⟨ta, htally⟩ := loomTally_frame { s with loom := issueBooks s i fieldMxu } 0x4A (some (draftOf s x.draft).tenant) 1
    refine .of_fin hissues.1.1 (congrArg (fin s) hdrain) ⟨rfl, ?_⟩
    rw [htally]
    rfl
  · intro s i b x acc mode dst h hissues hspells hmode
    exact .onlyTile hissues.1.1 (congrArg (fin s) (drainIssue_reserved hissues hspells hmode)) (issuedOn_oneTile ..)
  · intro s i b x wfmt acc ar0 ar1 hissues hspells
    exact .onlyTile hissues.1.1 rfl (corrIssue_issues hissues hspells)
  · intro s i b x m hissues hm hnone hw ha hz hclr hi32
    have hmac := (macIssue_issues hissues hm).tile
    rw [macEffect_i8 _ _ _ hw ha hz, hclr] at hmac
    refine .of_fin hissues.1.1 rfl fun o ho => ?_
    refine (congrArg (fun y => laneAt (accAt (settleTile (s.clocks.lc + 34) y) m.acc.toNat).lanes o) hmac).trans ?_
    dsimp only
    rw [settleTile_launched _ _ hnone, accAt_applyEffect_acc]
    exact laneAt_accStep_addInt false _ hi32 ho
  · intro s i b x wfmt acc ar0 ar1 hissues hspells hnone hi32
    refine .of_fin hissues.1.1 rfl ?_
    refine (congrArg (fun y => accAt (settleTile (s.clocks.lc + 36) y) acc.toNat) (corrIssue_issues hissues hspells).tile).trans ?_
    rw [settleTile_launched _ _ hnone]
    exact (accAt_applyEffect_acc ..).trans (accStep_corr_i32 _ _ _ hi32)

/-! ## VEC (R294, R295) -/

theorem laneType_reserved {n : Nat} (h : 4 < n) : laneType n = none := by
  unfold laneType
  rw [if_neg (by omega), if_neg (by omega), if_neg (by omega), if_neg (by omega), if_neg (by omega)]

theorem laneType_named {n : Nat} (h : n ≤ 4) : ∃ ty, laneType n = some ty := by
  interval_cases n <;> exact ⟨_, rfl⟩

section vec
variable {s : State} {i : BitVec 8} {op lat : Nat} {v : VecField} {x : Slot} {c : Instr} {ty : LaneType}

theorem issueVec_issues (f : Slot → State → State) (hissues : IssuesVec s i op v x) :
    issueVec op i.toNat v f s = f x (issuedOn i.toNat fieldVec s) := by
  obtain ⟨hfield, hop, hv⟩ := hissues
  exact issueOn_issues _ hfield (by simp [hop, hv])

theorem vecRun_reserved (t lat : Nat) (f : LaneType → List Word → List Word → List Word → List (Nat × Word)) (s : State)
    (hty : laneType v.type.toNat = none) : vecRun t lat f v s = s := by
  unfold vecRun
  rw [hty]

/-- An operation on registers launches its lanes, read from the settled tile. -/
theorem vecRun_issuedOn (lat : Nat) (f : LaneType → List Word → List Word → List Word → List (Nat × Word))
    (hty : laneType v.type.toNat = some ty) :
    OneTile (issuedOn i.toNat fieldVec s) (vecRun i.toNat lat f v (issuedOn i.toNat fieldVec s)) i.toNat
      (launched s i lat [.vec v.d.toNat (f ty (vregAt (settled s i) v.a.toNat) (vregAt (settled s i) v.b.toNat)
        (vregAt (settled s i) v.c.toNat)) v.part.toNat]) := by
  unfold vecRun
  rw [hty, tileOf_issuedOn_same]
  exact launch_issuedOn ..

/-- A command whose operation runs `f` on the registers writes the lanes that `g` names. -/
theorem Answers.vecAfter {f : LaneType → List Word → List Word → List Word → List (Nat × Word)} {g : Nat → Word}
    {run : Slot → State → State} (hissues : IssuesVec s i op v x) (hexec : exec c s = fin s (issueVec op i.toNat v run s))
    (hrun : run x (issuedOn i.toNat fieldVec s) = vecRun i.toNat lat f v (issuedOn i.toNat fieldVec s))
    (hty : laneType v.type.toNat = some ty)
    (hlanes : f ty (vregAt (settled s i) v.a.toNat) (vregAt (settled s i) v.b.toNat) (vregAt (settled s i) v.c.toNat) =
      (span 0 64).map (fun k => (k, g k))) : Answers c s (fun t => VecAfter s t i v lat g) := by
  have hafter := vecRun_issuedOn (s := s) (i := i) (v := v) lat f hty
  rw [hlanes] at hafter
  exact .onlyTile hissues.1.1 (hexec.trans (congrArg (fin s) ((issueVec_issues run hissues).trans hrun))) hafter

/-- An operation that issues and does nothing. -/
theorem Answers.vecIdle {run : Slot → State → State} (hissues : IssuesVec s i op v x)
    (hexec : exec c s = fin s (issueVec op i.toNat v run s))
    (hrun : run x (issuedOn i.toNat fieldVec s) = issuedOn i.toNat fieldVec s) :
    Answers c s (fun t => OnlyTile s t i fieldVec (settled s i)) :=
  .onlyTile hissues.1.1 (hexec.trans (congrArg (fin s) ((issueVec_issues run hissues).trans hrun))) (issuedOn_oneTile s i fieldVec)

end vec

/-- A command of the VEC field: its operation issues where the bundle spells it with its operands, and one of a reserved TYPE does
nothing more (R294). -/
def VecCommand (i : BitVec 8) (v : VecField) (op : Nat) (c : Instr) : Prop :=
  ∃ run : Slot → State → State, (∀ s, exec c s = fin s (issueVec op i.toNat v run s))
    ∧ (laneType v.type.toNat = none → ∀ x s, run x s = s)

theorem vecCommand_vecOp {i : BitVec 8} {v : VecField} {op : Nat} {c : Instr} (lat : Nat)
    (f : LaneType → List Word → List Word → List Word → List (Nat × Word))
    (h : ∀ s, exec c s = fin s (vecOp op i.toNat lat v f s)) : VecCommand i v op c :=
  ⟨_, h, fun hty _ s => vecRun_reserved i.toNat lat f s hty⟩

theorem vecCommand_vecLoad {i : BitVec 8} {v : VecField} {op : Nat} {c : Instr} (f : List Byte → Option (List (Nat × Word)))
    (h : ∀ s, exec c s = fin s (vecLoad op i.toNat v f s)) : VecCommand i v op c :=
  ⟨_, h, fun hty _ s => by simp only [hty]⟩

theorem vecCommand_f32Op {i : BitVec 8} {v : VecField} {op : Nat} {c : Instr} (g : Xv → Nat)
    (h : ∀ s, exec c s = fin s (f32Op op i.toNat v g s)) : VecCommand i v op c :=
  ⟨_, h, fun hty _ s => by simp only [vecRun_reserved _ _ _ _ hty, ite_self]⟩

theorem vecCommand_cvt (i : BitVec 8) (v : VecField) : VecCommand i v 0x14 (.cvt i v) :=
  ⟨_, fun _ => rfl, fun hty _ s => by
    split
    · rfl
    · exact vecRun_reserved _ _ _ _ hty⟩

/-- Every operation of the vector unit but VEC_NOP is such a command. -/
theorem vecCommand_of_mem {i : BitVec 8} {v : VecField} {c : Nat × Instr} (hc : c ∈ [(0x01, Instr.ldq i v), (0x02, .ldw i v),
    (0x03, .ldh i v), (0x04, .stq i v), (0x05, .movi i v), (0x06, .add i v), (0x07, .sub i v), (0x08, .mul i v), (0x09, .min i v),
    (0x0A, .max i v), (0x0B, .and i v), (0x0C, .or i v), (0x0D, .xor i v), (0x0E, .shl i v), (0x0F, .shr i v), (0x10, .cmplt i v),
    (0x11, .cmpeq i v), (0x12, .sel i v), (0x13, .perm i v), (0x14, .cvt i v), (0x15, .fma i v), (0x16, .rsum i v), (0x17, .rmax i v),
    (0x18, .exp i v), (0x19, .rcp i v), (0x1A, .rsq i v)]) : VecCommand i v c.1 c.2 := by
  revert c
  simp only [List.forall_mem_cons]
  iterate 3 refine ⟨vecCommand_vecLoad _ fun _ => rfl, ?_⟩
  iterate 16 refine ⟨vecCommand_vecOp _ _ fun _ => rfl, ?_⟩
  refine ⟨vecCommand_cvt i v, ?_⟩
  iterate 3 refine ⟨vecCommand_vecOp _ _ fun _ => rfl, ?_⟩
  iterate 3 refine ⟨vecCommand_f32Op _ fun _ => rfl, ?_⟩
  exact List.forall_mem_nil _

namespace VecCommand
variable {i : BitVec 8} {v : VecField} {op b : Nat} {c : Instr} {s : State} {x : Slot}

/-- One of a reserved TYPE issues without effect. -/
theorem reserved (h : VecCommand i v op c) (hissues : IssuesVec s i op v x) (htype : 4 < v.type.toNat) :
    Answers c s (fun t => OnlyTile s t i fieldVec (settled s i)) := by
  obtain ⟨run, hexec, hnone⟩ := h
  exact .vecIdle hissues (hexec s) (hnone (laneType_reserved htype) _ _)

/-- One that the bundle does not spell changes nothing (log 35). -/
theorem unspelled (h : VecCommand i v op c) (hissues : Issues s i fieldVec b x) (hother : vecOpCode b ≠ op ∨ vecField b ≠ v) :
    Answers c s (fun t => t = { s with seen := t.seen }) := by
  obtain ⟨run, hexec, _⟩ := h
  obtain ⟨hlive, hslot, _, rfl⟩ := hissues
  have hidle : issueVec op i.toNat v run s = s := by
    unfold issueVec
    refine issueOn_other (fun _ => run) hslot ?_
    rcases hother with hop | hv
    · simp [hop]
    · simp [hv]
  exact .of_fin hlive ((hexec s).trans (congrArg (fin s) hidle)) rfl

end VecCommand

section f32
variable {s : State} {i : BitVec 8} {op : Nat} {v : VecField} {x : Slot} {c : Instr} (g : Xv → Nat)

/-- EXP, RCP and RSQ of f32 lanes (R296). -/
theorem f32Op_after (hissues : IssuesVec s i op v x) (hexec : exec c s = fin s (f32Op op i.toNat v g s)) (htype : v.type = 1) :
    Answers c s (fun t => VecAfter s t i v 6 (fun k => BitVec.ofNat 32 (g (val32 (lane s i v.a k).toNat)))) :=
  .vecAfter hissues hexec (if_pos htype) (ty := .f32) (by rw [htype]; rfl) rfl

/-- Of another type they have no effect (log 16). -/
theorem f32Op_other (hissues : IssuesVec s i op v x) (hexec : exec c s = fin s (f32Op op i.toNat v g s)) (htype : v.type ≠ 1) :
    Answers c s (fun t => OnlyTile s t i fieldVec (settled s i)) :=
  .vecIdle hissues hexec (if_neg htype)

end f32

/-- The lowest bits of a number, as a remainder. -/
theorem field_zero (v len : Nat) : field v 0 len = v % 2 ^ len := by rw [field_eq, pow_zero, Nat.div_one]

/-- Settles O49: each operation by the lanes it launches; a reserved, misdirected or unspelled one by what its issue leaves. -/
theorem vectorLanes : Obligations.VectorLanes := by
  unfold Obligations.VectorLanes
  -- ADD to RMAX, as the claim lists them, each on registers under its lane type
  iterate 19 refine ⟨fun s i v x ty hissues hty => .vecAfter hissues rfl rfl hty rfl, ?_⟩
  refine ⟨?_, ?_⟩
  · intro s i v x ty dst hissues hty hdst
    have htarget : laneType (field v.imm.toNat 0 3) = some dst := by rw [field_zero]; exact hdst
    exact .vecAfter (f := lanes2 (fun ty a _ => laneCvt ty dst v.rna a)) hissues rfl (by rw [htarget]) hty rfl
  -- EXP, RCP and RSQ
  iterate 3 refine ⟨fun s i v x hissues htype => f32Op_after _ hissues rfl htype, ?_⟩
  refine ⟨?_, ?_, ?_, ?_, ?_⟩
  · intro s i v x c hissues htype hc
    simp only [List.mem_cons, List.not_mem_nil, or_false] at hc
    obtain rfl | rfl | rfl := hc
    · exact f32Op_other _ hissues rfl htype
    · exact f32Op_other _ hissues rfl htype
    · exact f32Op_other _ hissues rfl htype
  · intro s i v x hissues
    exact .onlyTile hissues.1.1 (congrArg (fin s) (issueOn_issues _ hissues.1 (beq_iff_eq.mpr hissues.2.1)))
      (issuedOn_oneTile s i fieldVec)
  · intro s i v x hissues himm
    have htarget : laneType (field v.imm.toNat 0 3) = none := by rw [field_zero]; exact laneType_reserved himm
    exact .vecIdle hissues rfl (by rw [htarget])
  · exact fun s i v x c hissues htype hc => (vecCommand_of_mem hc).reserved hissues htype
  · exact fun s i b x v c hissues hother hc => (vecCommand_of_mem hc).unspelled hissues hother

/-! ## i32 lanes (R295, R296) -/

section i32
variable (rna : Bool) (a b c : Word)

theorem signed_toNat : signed 32 a.toNat = a.toInt := (signed_eq_bmod 31 a.toNat).trans (BitVec.toInt_eq_toNat_bmod a).symm

theorem laneInt_i32 : laneInt .i32 a = a.toInt := signed_toNat a

theorem laneVal_i32 : laneVal .i32 a = ofInt a.toInt := congrArg ofInt (signed_toNat a)

/-- Whole numbers compare as their exact values do. -/
theorem xLt_ofInt (j k : Int) : xLt (ofInt j) (ofInt k) = decide (j < k) := by
  have hsigned : ∀ j : Int, (if j < 0 then -|j| else |j|) = j := fun j => by rw [Int.abs_eq_natAbs]; split <;> omega
  simp [xLt, ofInt, common, hsigned]

theorem xEq_ofInt (j k : Int) : xEq (ofInt j) (ofInt k) = decide (j = k) := by
  have heq : xEq (ofInt j) (ofInt k) = (!xLt (ofInt j) (ofInt k) && !xLt (ofInt k) (ofInt j)) := rfl
  rw [heq, xLt_ofInt, xLt_ofInt, Bool.eq_iff_iff]
  simp only [Bool.and_eq_true, Bool.not_eq_true', decide_eq_false_iff_not, decide_eq_true_eq]
  omega

theorem lane2_i32_add : lane2 .i32 rna (· + ·) xAdd a b = a + b := by
  change BitVec.ofInt 32 (laneInt .i32 a + laneInt .i32 b) = a + b
  rw [laneInt_i32, laneInt_i32, BitVec.ofInt_add, BitVec.ofInt_toInt, BitVec.ofInt_toInt]

theorem lane2_i32_sub : lane2 .i32 rna (· - ·) xSub a b = a - b := by
  change BitVec.ofInt 32 (laneInt .i32 a - laneInt .i32 b) = a - b
  rw [laneInt_i32, laneInt_i32]
  exact BitVec.eq_of_toInt_eq (by rw [BitVec.toInt_ofInt, BitVec.toInt_sub])

theorem lane2_i32_mul : lane2 .i32 rna (· * ·) xMul a b = a * b := by
  change BitVec.ofInt 32 (laneInt .i32 a * laneInt .i32 b) = a * b
  rw [laneInt_i32, laneInt_i32, BitVec.ofInt_mul, BitVec.ofInt_toInt, BitVec.ofInt_toInt]

theorem laneFma_i32 : laneFma .i32 rna a b c = a * b + c := by
  change BitVec.ofInt 32 (laneInt .i32 a * laneInt .i32 b + laneInt .i32 c) = a * b + c
  rw [laneInt_i32, laneInt_i32, laneInt_i32, BitVec.ofInt_add, BitVec.ofInt_mul, BitVec.ofInt_toInt, BitVec.ofInt_toInt,
    BitVec.ofInt_toInt]

theorem laneMin_i32 : laneMin .i32 a b = if b.slt a then b else a := by
  simp only [BitVec.slt, decide_eq_true_eq, ← laneInt_i32]
  rfl

theorem laneMax_i32 : laneMax .i32 a b = if a.slt b then b else a := by
  simp only [BitVec.slt, decide_eq_true_eq, ← laneInt_i32]
  rfl

/-- The shift count is B[4:0]. -/
theorem shiftCount_eq : shiftCount b = b.toNat % 32 := field_zero b.toNat 5

theorem laneShl_i32 : laneShl .i32 a b = a <<< (b.toNat % 32) := by
  rw [← shiftCount_eq]
  rfl

theorem laneShr_i32 : laneShr .i32 a b = a.sshiftRight (b.toNat % 32) := by
  have hquotient : laneShr .i32 a b = BitVec.ofInt 32 (laneInt .i32 a / 2 ^ shiftCount b) := rfl
  have hshifted : (a.sshiftRight (b.toNat % 32)).toInt = a.toInt / 2 ^ (b.toNat % 32) := by
    rw [BitVec.toInt_sshiftRight, Int.shiftRight_eq_div_pow]
    norm_cast
  rw [hquotient, laneInt_i32, shiftCount_eq, ← hshifted, BitVec.ofInt_toInt]

theorem laneLt_i32 : laneLt .i32 a b = if a.slt b then 0xFFFFFFFF else 0 := by
  rw [laneLt, laneVal_i32, laneVal_i32, xLt_ofInt]
  rfl

theorem laneEq_i32 : laneEq .i32 a b = if a = b then 0xFFFFFFFF else 0 := by
  rw [laneEq, laneVal_i32, laneVal_i32, xEq_ofInt]
  simp only [maskLane, BitVec.toInt_inj, decide_eq_true_eq]

end i32

/-- A command that combines the lanes of A and B pair by pair, on i32 lanes. -/
theorem Answers.vecAfter_i32 {s : State} {i : BitVec 8} {op : Nat} {v : VecField} {x : Slot} {c : Instr}
    {f : LaneType → Word → Word → Word} {g : Nat → Word} (hissues : IssuesVec s i op v x) (htype : v.type = 0)
    (hexec : exec c s = fin s (vecOp op i.toNat 2 v (lanes2 f) s)) (hlane : ∀ k, f .i32 (lane s i v.a k) (lane s i v.b k) = g k) :
    Answers c s (fun t => VecAfter s t i v 2 g) := by
  refine .vecAfter (f := lanes2 f) hissues hexec rfl (ty := .i32) (by rw [htype]; rfl) ?_
  exact List.map_congr_left fun k _ => congrArg (Prod.mk k) (hlane k)

/-- Settles O48: what each operation does with an i32 lane. -/
theorem integerLanes : Obligations.IntegerLanes := by
  unfold Obligations.IntegerLanes
  refine ⟨?_, ?_, ?_, ?_, ?_, ?_, ?_, ?_, ?_, ?_, ?_, ?_, ?_⟩
  · exact fun s i v x hissues htype => .vecAfter_i32 hissues htype rfl fun _ => lane2_i32_add ..
  · exact fun s i v x hissues htype => .vecAfter_i32 hissues htype rfl fun _ => lane2_i32_sub ..
  · exact fun s i v x hissues htype => .vecAfter_i32 hissues htype rfl fun _ => lane2_i32_mul ..
  · exact fun s i v x hissues htype => .vecAfter_i32 hissues htype rfl fun _ => laneMin_i32 ..
  · exact fun s i v x hissues htype => .vecAfter_i32 hissues htype rfl fun _ => laneMax_i32 ..
  · exact fun s i v x hissues htype => .vecAfter_i32 hissues htype rfl fun _ => rfl
  · exact fun s i v x hissues htype => .vecAfter_i32 hissues htype rfl fun _ => rfl
  · exact fun s i v x hissues htype => .vecAfter_i32 hissues htype rfl fun _ => rfl
  · exact fun s i v x hissues htype => .vecAfter_i32 hissues htype rfl fun _ => laneShl_i32 ..
  · exact fun s i v x hissues htype => .vecAfter_i32 hissues htype rfl fun _ => laneShr_i32 ..
  · exact fun s i v x hissues htype => .vecAfter_i32 hissues htype rfl fun _ => laneLt_i32 ..
  · exact fun s i v x hissues htype => .vecAfter_i32 hissues htype rfl fun _ => laneEq_i32 ..
  · intro s i v x hissues htype
    refine .vecAfter hissues rfl rfl (ty := .i32) (by rw [htype]; rfl) ?_
    simp only [fmaLanes, laneFma_i32]
    rfl

/-! ## LDQ, LDW, LDH (R278, R295) -/

section loads
variable {s : State} {i : BitVec 8} {op : Nat} {v : VecField} {x : Slot} {c : Instr} {f : List Byte → Option (List (Nat × Word))}

/-- Bits [63:61] of the VEC field name a load's source (R294). -/
theorem field_imm_source (w : Word) : field w.toNat 29 3 = w.toNat / 2 ^ 29 := by
  rw [field_eq]
  exact Nat.mod_eq_of_lt (by omega)

/-- A load of a type that is not reserved takes its row and acts on it. -/
theorem vecLoad_issues (f : List Byte → Option (List (Nat × Word))) (hissues : IssuesVec s i op v x) (htype : v.type.toNat ≤ 4) :
    vecLoad op i.toNat v f s = (f (sourceRow i.toNat unitVec (v.imm.toNat / 2 ^ 29) s).1).elim
      (rowTaken i fieldVec unitVec (v.imm.toNat / 2 ^ 29) s) (fun lanes =>
        launch i.toNat 2 [.vec v.d.toNat lanes v.part.toNat] (rowTaken i fieldVec unitVec (v.imm.toNat / 2 ^ 29) s)) := by
  obtain ⟨ty, hty⟩ := laneType_named htype
  unfold vecLoad
  rw [issueVec_issues _ hissues]
  simp only [hty]
  rw [rowOp_issuedOn, field_imm_source]
  cases f (sourceRow i.toNat unitVec (v.imm.toNat / 2 ^ 29) s).1 <;> rfl

theorem Answers.vecLoaded {lanes : List (Nat × Word)} (hissues : IssuesVec s i op v x) (htype : v.type.toNat ≤ 4)
    (hexec : exec c s = fin s (vecLoad op i.toNat v f s))
    (hlanes : f (sourceRow i.toNat unitVec (v.imm.toNat / 2 ^ 29) s).1 = some lanes) : Answers c s (fun t =>
      OnlyTileRow s t i fieldVec (sourceRow i.toNat unitVec (v.imm.toNat / 2 ^ 29) s)
        (launched s i 2 [.vec v.d.toNat lanes v.part.toNat])) := by
  have hload := vecLoad_issues f hissues htype
  rw [hlanes] at hload
  exact .onlyTileRow hissues.1.1 (hexec.trans (congrArg (fin s) hload)) (launch_rowTaken ..)

/-- A load of a reserved kind takes its row and loads nothing (log 16). -/
theorem Answers.vecUnloaded (hissues : IssuesVec s i op v x) (htype : v.type.toNat ≤ 4)
    (hexec : exec c s = fin s (vecLoad op i.toNat v f s))
    (hnone : f (sourceRow i.toNat unitVec (v.imm.toNat / 2 ^ 29) s).1 = none) : Answers c s (fun t =>
      OnlyTileRow s t i fieldVec (sourceRow i.toNat unitVec (v.imm.toNat / 2 ^ 29) s) (settled s i)) := by
  have hload := vecLoad_issues f hissues htype
  rw [hnone] at hload
  exact .onlyTileRow hissues.1.1 (hexec.trans (congrArg (fin s) hload)) (rowTaken_oneTile ..)

end loads

/-- Settles O50: the row that each load takes and the lanes it makes of it. -/
theorem vectorLoads : Obligations.VectorLoads := by
  unfold Obligations.VectorLoads
  refine ⟨?_, ?_, ?_, ?_⟩
  · exact fun s i v x hissues htype => .vecLoaded hissues htype rfl rfl
  · intro s i v x hissues htype
    have hkind : field v.imm.toNat 0 2 = v.imm.toNat % 4 := field_zero _ 2
    refine .vecLoaded hissues htype rfl (congrArg some (List.map_congr_left fun k _ => ?_))
    rw [hkind]
    dsimp only
    split_ifs <;> rfl
  · intro s i v x hissues htype hnamed
    have hkind : field v.imm.toNat 0 2 = v.imm.toNat % 4 := field_zero _ 2
    rw [← hkind] at hnamed
    refine .vecLoaded hissues htype rfl ((if_neg hnamed).trans (congrArg some (List.map_congr_left fun k _ => ?_)))
    rw [hkind]
    dsimp only
    split_ifs <;> rfl
  · intro s i v x hissues htype hkind
    have hreserved : field v.imm.toNat 0 2 = 3 := by rw [field_zero]; exact hkind
    exact .vecUnloaded hissues htype rfl (if_pos hreserved)

/-! ## Rows of the quantisation unit (R306) -/

section qnt
variable {s : State} {i : BitVec 8} {op : Nat} {f : QntField} {x : Slot}

theorem issueQnt_issues (run : Slot → State → State) (hissues : IssuesQnt s i op f x) :
    issueQnt op i.toNat f run s = run x (issuedOn i.toNat fieldQnt s) := by
  obtain ⟨hfield, hop, hf⟩ := hissues
  exact issueOn_issues _ hfield (by simp [hop, hf])

theorem qntRowOp_issuedOn (run : List Byte → State → State) (hsrc : f.src = 0 ∨ 4 ≤ f.src.toNat) :
    qntRowOp i.toNat f.src.toNat run (issuedOn i.toNat fieldQnt s) =
      run (sourceRow i.toNat unitQnt f.src.toNat s).1 (rowTaken i fieldQnt unitQnt f.src.toNat s) := by
  have hnamed : (decide (f.src.toNat = 0) || (decide (4 ≤ f.src.toNat) && decide (f.src.toNat ≤ 7))) = true := by
    rcases hsrc with hsrc | hsrc
    · simp [hsrc]
    · simp [hsrc, Nat.lt_succ_iff.mp f.src.isLt]
  unfold qntRowOp
  rw [if_pos hnamed, rowOp_issuedOn]

/-- A reserved source gives a zero row. -/
theorem qntRowOp_reserved (run : List Byte → State → State) {src : Nat} (hlo : 1 ≤ src) (hhi : src ≤ 3) :
    qntRowOp i.toNat src run s = run (List.replicate 64 0) s := by
  refine if_neg ?_
  simp only [Bool.or_eq_true, Bool.and_eq_true, decide_eq_true_eq]
  omega

/-! ## CFG0 to CFG2 and LDSIDE (R280, R297, R300, R306) -/

/-- A command that changes the tile where the bundle spells it. -/
theorem Answers.qntChanged {c : Instr} (g : Tile → Tile) (hissues : IssuesQnt s i op f x)
    (hexec : exec c s = fin s (issueQnt op i.toNat f (fun _ => modTile i.toNat g) s)) :
    Answers c s (fun t => OnlyTile s t i fieldQnt (g (settled s i))) :=
  .onlyTile hissues.1.1 (hexec.trans (congrArg (fin s) (issueQnt_issues _ hissues))) ((issuedOn_oneTile s i fieldQnt).modTile g)

/-- A tile after CFG0: of another configuration it starts the site anew and drops what its QUANTs in flight would still add. -/
def cfg0Tile (f : QntField) (y : Tile) : Tile :=
  if (siteAt y f.site.toNat).cfg = some f.imm then y
  else putSite f.site.toNat (cfg0Site f.imm (siteAt y f.site.toNat)) (dropPending true f.site.toNat y)

theorem cfg0_answers (hissues : IssuesQnt s i 3 f x) :
    Answers (.cfg0 i f) s (fun t => OnlyTile s t i fieldQnt (cfg0Tile f (settled s i))) :=
  .qntChanged (cfg0Tile f) hissues rfl

theorem cfg1Site_eq (w : Word) (y : Site) :
    cfg1Site w y = { y with seed := seedOf w, s2 := if y.steps = 0 then seedOf w else y.s2 } := by
  unfold cfg1Site
  split <;> rfl

/-- LDSIDE loads the side register of its site. -/
def sideLoaded (n : Nat) (row : List Byte) (y : Tile) : Tile := putSite n { siteAt y n with side := row } y

theorem ldsideIssue_issues (hissues : IssuesQnt s i 8 f x) : ldsideIssue i.toNat f s =
    qntRowOp i.toNat f.src.toNat (fun row => modTile i.toNat (sideLoaded f.site.toNat row)) (issuedOn i.toNat fieldQnt s) :=
  issueQnt_issues _ hissues

/-! ## QUANT, DEQ, FLUSH, STATS (R283 to R286, R297, R299) -/

/-- Results launched once the site's own part is in place. -/
theorem launch_putTile_issuedOn (lat : Nat) (es : List Effect) (y : Tile) :
    OneTile (issuedOn i.toNat fieldQnt s) (launch i.toNat lat es (putTile i.toNat y (issuedOn i.toNat fieldQnt s))) i.toNat
      { y with flights := y.flights ++ es.map (fun r => { ready := s.clocks.lc + lat, eff := r }) } := by
  have h := ((issuedOn_oneTile s i fieldQnt).put y).launch lat es
  rw [lcOf_issuedOn] at h
  exact h

/-- A QUANT on a site that cannot convert delivers a zero row (R283). -/
theorem quantIssue_zeros (hissues : IssuesQnt s i 1 f x) (hcfg : siteCfg (siteAt (settled s i) f.site.toNat) = none) :
    OneTile (issuedOn i.toNat fieldQnt s) (quantIssue i.toNat f s) i.toNat (launched s i 4 [.qrow 0 (List.replicate 64 0)]) := by
  unfold quantIssue
  rw [issueQnt_issues _ hissues, tileOf_issuedOn_same]
  dsimp only
  rw [hcfg]
  exact launch_issuedOn ..

theorem quantIssue_converts {c : Nat} {q : Quantised} (hissues : IssuesQnt s i 1 f x)
    (hcfg : siteCfg (siteAt (settled s i) f.site.toNat) = some c)
    (hq : q = quantise f.site.toNat c (siteAt (settled s i) f.site.toNat) (if f.half then 1 else 0) f.step (quantVals (settled s i) c f)) :
    OneTile (issuedOn i.toNat fieldQnt s) (quantIssue i.toNat f s) i.toNat (putSite f.site.toNat q.site (launched s i 4
      ([.qrow q.first q.bytes, .stats q.add] ++ q.s2.toList.map (Effect.s2 f.site.toNat)))) := by
  have hs2 : (match q.s2 with | some w => [Effect.s2 f.site.toNat w] | none => []) = q.s2.toList.map (Effect.s2 f.site.toNat) := by
    cases q.s2 <;> rfl
  unfold quantIssue
  rw [issueQnt_issues _ hissues, tileOf_issuedOn_same]
  dsimp only
  rw [hcfg]
  dsimp only
  rw [← hq, ← hs2]
  exact launch_putTile_issuedOn ..

theorem deqIssue_issues (hissues : IssuesQnt s i 2 f x) (hsrc : f.src = 0 ∨ 4 ≤ f.src.toNat) : deqIssue i.toNat f s =
    (siteCfg (siteAt (settled s i) f.site.toNat)).elim
      (launch i.toNat 3 [.vec f.vreg.toNat (deqZeros (siteAt (settled s i) f.site.toNat) (if f.half then 1 else 0)) 4]
        (rowTaken i fieldQnt unitQnt f.src.toNat s))
      (fun c =>
        let filled := fillLanes (rowTaken i fieldQnt unitQnt f.src.toNat s) (deqLanes c (siteAt (settled s i) f.site.toNat)
          (sourceRow i.toNat unitQnt f.src.toNat s).1 (if f.half then 1 else 0) f.ar.toNat f.obf)
        launch i.toNat 3 [.vec f.vreg.toNat filled.1 4] filled.2) := by
  have htile := (rowTaken_oneTile s i fieldQnt unitQnt f.src.toNat).tile
  unfold deqIssue
  rw [issueQnt_issues _ hissues, qntRowOp_issuedOn _ hsrc]
  dsimp only
  rw [htile]
  cases siteCfg (siteAt (settled s i) f.site.toNat) <;> rfl

/-- A DEQ on a site that cannot convert writes zeros (R297, log 15). -/
theorem deq_zeros (hissues : IssuesQnt s i 2 f x) (hcfg : siteCfg (siteAt (settled s i) f.site.toNat) = none)
    (hsrc : f.src = 0 ∨ 4 ≤ f.src.toNat) : Answers (.deq i f) s (fun t =>
      OnlyTileRow s t i fieldQnt (sourceRow i.toNat unitQnt f.src.toNat s) (launched s i 3
        [.vec f.vreg.toNat (deqZeros (siteAt (settled s i) f.site.toNat) (if f.half then 1 else 0)) 4])) := by
  have hdeq := deqIssue_issues hissues hsrc
  rw [hcfg] at hdeq
  exact .onlyTileRow hissues.1.1 (congrArg (fin s) hdeq) (launch_rowTaken ..)

/-- Lanes that all have a value need no free word. -/
theorem fillLanes_some (s : State) (ls : List (Nat × Word)) : fillLanes s (ls.map (fun l => (l.1, some l.2))) = (ls, s) := by
  simp [fillLanes, Function.comp_def]

theorem flushIssue_issues (hissues : IssuesQnt s i 6 f x) :
    OneTile (issuedOn i.toNat fieldQnt s) (flushIssue i.toNat f s) i.toNat
      (putSite f.site.toNat { siteAt (settled s i) f.site.toNat with records := [], nrec := 0, sideS2 := none }
        (launched s i 4 [.qrow 0 (sideBytes (siteAt (settled s i) f.site.toNat))])) := by
  unfold flushIssue
  rw [issueQnt_issues _ hissues, tileOf_issuedOn_same]
  exact launch_putTile_issuedOn ..

/-- STATS reports the site with the statistics still in flight, and clears them under X (R299). -/
theorem statsIssue_issues (hissues : IssuesQnt s i 7 f x) :
    let y := siteAt (settled s i) f.site.toNat
    let all := (pendingStats (settled s i) f.site.toNat).foldl addStats y.stats
    let z := if f.x then putSite f.site.toNat { y with stats := { SiteStats.init with maxErr := all.maxErr } }
      (dropPending false f.site.toNat (settled s i)) else settled s i
    OneTile (issuedOn i.toNat fieldQnt s) (statsIssue i.toNat f s) i.toNat
      { z with flights := z.flights ++ [{ ready := s.clocks.lc + 4, eff := .qrow 0 (statsRow { y with stats := all }) }] } := by
  unfold statsIssue
  rw [issueQnt_issues _ hissues, tileOf_issuedOn_same]
  exact launch_putTile_issuedOn ..

end qnt

/-! ## Outliers of dropped statistics (R286) -/

/-- The outliers that a result counts when it is ready. -/
def flightOverflow (f : InFlight) : Nat :=
  match f.eff with
  | .stats a => a.overflow
  | .outliers n => n
  | _ => 0

theorem insReady_perm (f : InFlight) (gs : List InFlight) : (insReady f gs).Perm (f :: gs) := by
  induction gs with
  | nil => exact .refl _
  | cons g gs ih =>
    unfold insReady
    split
    · exact .refl _
    · exact (ih.cons g).trans (.swap f g gs)

theorem foldl_insReady_perm (fs done : List InFlight) : (fs.foldl (fun a f => insReady f a) done).Perm (fs ++ done) := by
  induction fs generalizing done with
  | nil => exact .refl _
  | cons f fs ih => exact (ih (insReady f done)).trans (((insReady_perm f done).append_left fs).trans List.perm_middle)

/-- The order of readiness does not change what the results count. -/
theorem readyOverflow_eq (lc : Nat) (y : Tile) :
    readyOverflow lc y = ((y.flights.filter (fun f => decide (f.ready ≤ lc))).map flightOverflow).sum := by
  have hperm := foldl_insReady_perm (y.flights.filter (fun f => decide (f.ready ≤ lc))) []
  rw [List.append_nil] at hperm
  exact (hperm.map flightOverflow).sum_eq

/-- A flight whose statistics are dropped keeps its lc and its outliers; one that is dropped whole has none. -/
theorem dropFlight_cases (all : Bool) (n : Nat) (f : InFlight) :
    (dropFlight all n f = none ∧ flightOverflow f = 0)
      ∨ ∃ g, dropFlight all n f = some g ∧ g.ready = f.ready ∧ flightOverflow g = flightOverflow f := by
  obtain ⟨ready, eff⟩ := f
  cases eff with
  | stats a =>
    by_cases hsite : a.site = n
    · by_cases hnone : a.overflow = 0
      · exact .inl ⟨by simp [dropFlight, hsite, hnone], hnone⟩
      · exact .inr ⟨{ ready := ready, eff := .outliers a.overflow }, by simp [dropFlight, hsite, hnone], rfl, rfl⟩
    · exact .inr ⟨_, if_neg hsite, rfl, rfl⟩
  | s2 m w =>
    by_cases hsite : (all && m == n) = true
    · exact .inl ⟨if_pos hsite, rfl⟩
    · exact .inr ⟨_, if_neg hsite, rfl, rfl⟩
  | _ => exact .inr ⟨_, rfl, rfl, rfl⟩

theorem overflow_filterMap_dropFlight (lc : Nat) (all : Bool) (n : Nat) (fs : List InFlight) :
    (((fs.filterMap (dropFlight all n)).filter (fun f => decide (f.ready ≤ lc))).map flightOverflow).sum =
      ((fs.filter (fun f => decide (f.ready ≤ lc))).map flightOverflow).sum := by
  induction fs with
  | nil => rfl
  | cons f fs ih =>
    obtain ⟨hdrop, hnone⟩ | ⟨g, hdrop, hready, hsame⟩ := dropFlight_cases all n f
    · rw [List.filterMap_cons_none hdrop, ih, List.filter_cons]
      split <;> simp [hnone]
    · rw [List.filterMap_cons_some hdrop, List.filter_cons, List.filter_cons, hready]
      split <;> simp [hsame, ih]

theorem readyOverflow_dropPending (lc : Nat) (all : Bool) (n : Nat) (y : Tile) :
    readyOverflow lc (dropPending all n y) = readyOverflow lc y := by
  rw [readyOverflow_eq, readyOverflow_eq]
  exact overflow_filterMap_dropFlight lc all n y.flights

/-- With nothing in flight a site owes no statistics and none are dropped. -/
theorem pendingStats_quiet {y : Tile} (n : Nat) (h : y.flights = []) : pendingStats y n = [] := by rw [pendingStats, h]; rfl

theorem dropPending_quiet {y : Tile} (all : Bool) (n : Nat) (h : y.flights = []) : dropPending all n y = y := by
  unfold dropPending
  rw [h, List.filterMap_nil, ← h]

/-- Settles O51: each command by the tile it leaves, and what dropped statistics still count. -/
theorem quantisationSites : Obligations.QuantisationSites := by
  unfold Obligations.QuantisationSites
  refine ⟨?_, ?_, ?_, ?_, ?_, ?_, ?_, ?_, ?_, ?_, ?_, ?_, ?_, ?_, ?_, ?_⟩
  · intro s i f x hissues hnew
    have hcfg0 := cfg0_answers hissues
    rw [cfg0Tile, if_neg hnew, cfg0Site, if_neg hnew] at hcfg0
    exact hcfg0
  · intro s i f x hissues hsame
    have hcfg0 := cfg0_answers hissues
    rw [cfg0Tile, if_pos hsame] at hcfg0
    exact hcfg0
  · intro s i f x hissues
    have hcfg1 := Answers.qntChanged (c := .cfg1 i f)
      (fun y => putSite f.site.toNat (cfg1Site f.imm (siteAt y f.site.toNat)) y) hissues rfl
    simp only [cfg1Site_eq] at hcfg1
    exact hcfg1
  · exact fun s i f x hissues =>
      .qntChanged (fun y => putSite f.site.toNat { siteAt y f.site.toNat with mask := f.imm } y) hissues rfl
  · intro s i f x hissues hsrc
    have hside := (rowTaken_oneTile s i fieldQnt unitQnt f.src.toNat).modTile
      (sideLoaded f.site.toNat (sourceRow i.toNat unitQnt f.src.toNat s).1)
    exact .onlyTileRow hissues.1.1 (congrArg (fin s) ((ldsideIssue_issues hissues).trans (qntRowOp_issuedOn _ hsrc))) hside
  · intro s i f x hissues hlo hhi
    have hside := (issuedOn_oneTile s i fieldQnt).modTile (sideLoaded f.site.toNat (List.replicate 64 0))
    exact .onlyTile hissues.1.1 (congrArg (fin s) ((ldsideIssue_issues hissues).trans (qntRowOp_reserved _ hlo hhi))) hside
  · exact fun s i f x hissues hcfg => .onlyTile hissues.1.1 rfl (quantIssue_zeros hissues hcfg)
  · exact fun s i f x c q hissues hcfg hq => .onlyTile hissues.1.1 rfl (quantIssue_converts hissues hcfg hq)
  · intro s i f x hissues hcfg hsrc hnone
    have hdeq := deq_zeros hissues hcfg hsrc
    rw [deqZeros, hnone] at hdeq
    exact hdeq
  · intro s i f x c hissues hcfg hsrc hsome hwide
    have hdeq := deq_zeros hissues hcfg hsrc
    have hhalf : 32 * (if f.half then 1 else 0) = if f.half then 32 else 0 := by split <;> rfl
    rw [deqZeros, hsome] at hdeq
    simp only [hwide, beq_self_eq_true, if_true, hhalf] at hdeq
    exact hdeq
  · intro s i f x c ls hissues hcfg hsrc hlanes
    have hdeq := deqIssue_issues hissues hsrc
    rw [hcfg, Option.elim_some] at hdeq
    dsimp only at hdeq
    rw [hlanes, fillLanes_some] at hdeq
    exact .onlyTileRow hissues.1.1 (congrArg (fin s) hdeq) (launch_rowTaken ..)
  · exact fun s i f x hissues => .onlyTile hissues.1.1 rfl (flushIssue_issues hissues)
  · intro s i f x hissues hx
    have hstats := statsIssue_issues hissues
    simp only [hx, Bool.false_eq_true, if_false] at hstats
    exact .onlyTile hissues.1.1 rfl hstats
  · intro s i f x hissues hx
    have hstats := statsIssue_issues hissues
    simp only [hx, if_true] at hstats
    exact .onlyTile hissues.1.1 rfl hstats
  · exact fun y lc all n => readyOverflow_dropPending lc all n y
  · intro s i f x hissues hx hquiet
    have hstats := statsIssue_issues hissues
    simp only [hx, if_true, pendingStats_quiet _ hquiet, List.foldl_nil, dropPending_quiet _ _ hquiet] at hstats
    exact .onlyTile hissues.1.1 rfl hstats

end Sys2Proof.Machine
end

