-- ==== Sys2Proof/Proofs/Steps.lean ====
section
/-!
PROOF. What every command answers: a step runs the command at the front of the queue (log 9), no command stops the device (R462), and
none touches the commands that wait.
-/

namespace Sys2Proof.Machine

/-- The guard of POR answers a next state, whether it holds the effect back or not (R46). -/
theorem fin_answers (s e : State) : ∃ t, fin s e = .next t := by
  by_cases hpor : s.mon.por = true
  · exact ⟨s, fin_por e hpor⟩
  · exact ⟨settle s e, fin_live e (by simpa using hpor)⟩

/-- Settles O1: `step` matches on the queue. -/
theorem stepRunsFrontCommand : Obligations.StepRunsFrontCommand := by
  unfold Obligations.StepRunsFrontCommand
  constructor
  · intro s c rest hfront
    simp only [step, hfront]
  · intro s hempty
    simp only [step, hempty]

/-- Settles O2: POR and its release answer outright, and every other command through the guard of POR. -/
theorem noCommandStops : Obligations.NoCommandStops := by
  unfold Obligations.NoCommandStops
  intro c s
  cases c with
  | por => exact ⟨_, exec_por s⟩
  | porRelease rails straps => exact ⟨_, exec_porRelease rails straps s⟩
  | _ => exact fin_answers s _

/-- Settles O3: what a command keeps names the queue first. -/
theorem queueLeftAlone : Obligations.QueueLeftAlone := by
  unfold Obligations.QueueLeftAlone
  intro c s t h
  exact (kept_exec h).queue

end Sys2Proof.Machine
end

