-- ==== Sys2Proof/Proofs/BlockCoding.lean ====
section
/-!
PROOF. The stored form of a block decodes to the block: the tags of the rows, their payloads, and the zeros of the padding (R421, R422).
-/

namespace Sys2Proof.Machine

/-! ## Bits of a mask (R421) -/

theorem bitOf_eq_testBit (v i : Nat) : bitOf v i = v.testBit i := by
  rw [Nat.testBit_eq_decide_div_mod_eq, bitOf, field_eq, pow_one]
  rfl

theorem packBits_lt (bs : List Bool) : packBits bs < 2 ^ bs.length := by
  induction bs with
  | nil => decide
  | cons b bs ih =>
    have hbit : packBits (b :: bs) ≤ 1 + 2 * packBits bs := by cases b <;> simp [packBits]
    rw [List.length_cons, pow_succ]
    omega

/-- The flags of a list read back from its packing. -/
theorem map_bitOf_packBits (bs : List Bool) : (span 0 bs.length).map (bitOf (packBits bs)) = bs := by
  refine List.ext_getElem (by simp [span]) fun i _ hi => ?_
  simp [span, bitOf_eq_testBit, testBit_packBits, hi]

/-! ## The payload of a row (R421) -/

/-- A row is spelled by the mask and the values of its bytes that are not zero. -/
theorem unmask_nonzero (row : List Byte) : unmask (row.map (· != 0)) (row.filter (· != 0)) = row := by
  induction row with
  | nil => rfl
  | cons b row ih =>
    by_cases hb : (b != 0) = true
    · rw [List.map_cons, List.filter_cons_of_pos (p := (· != 0)) hb, hb, unmask, ih]
    · have hzero : b = 0 := by simpa using hb
      rw [List.map_cons, List.filter_cons_of_neg (p := (· != 0)) hb, Bool.eq_false_of_not_eq_true hb, unmask, ih, hzero]

theorem length_filter_nonzero (row : List Byte) : ((row.map (· != 0)).filter id).length = (row.filter (· != 0)).length := by
  rw [List.filter_map, List.length_map]
  rfl

/-- A row of zeros has no other spelling. -/
theorem eq_zeros {row : List Byte} (hlen : row.length = 64) (hzero : row.all (· == 0) = true) : row = List.replicate 64 0 :=
  List.eq_replicate_iff.2 ⟨hlen, by simpa using hzero⟩

theorem rowTag_lt (prev row : List Byte) : rowTag prev row < 4 := by
  unfold rowTag
  split_ifs <;> decide

/-- The mask of a coded row reads back from the eight bytes it is written in. -/
theorem mask_reads {row : List Byte} (hlen : row.length = 64) (rest : List Byte) :
    (span 0 64).map (fun i => bitOf (leAt (toLe 8 (packBits (row.map (· != 0))) ++ rest) 0 8) i) = row.map (· != 0) := by
  have hlt : packBits (row.map (· != 0)) < 256 ^ 8 := by
    have hpacked := packBits_lt (row.map (· != 0))
    rwa [List.length_map, hlen] at hpacked
  have hread := leAt_toLe [] rest (off := 0) rfl hlt
  rw [List.nil_append] at hread
  have hmask := map_bitOf_packBits (row.map (· != 0))
  rw [List.length_map, hlen] at hmask
  rw [hread]
  exact hmask

/-! ## The rows of a block (R421, R422) -/

/-- The tags of coded rows as one number, the first row's lowest. -/
def tagWord : List (Nat × List Byte) → Nat
  | [] => 0
  | r :: rs => r.1 + 4 * tagWord rs

theorem sum_tags (rs : List (Nat × List Byte)) (a : Nat) :
    (((span a rs.length).zip rs).map (fun e => e.2.1 * 4 ^ e.1)).sum = 4 ^ a * tagWord rs := by
  induction rs generalizing a with
  | nil => simp [tagWord]
  | cons r rs ih =>
    have hspan : span a (rs.length + 1) = a :: span (a + 1) rs.length := by
      simp [span, List.range_succ_eq_map, Function.comp_def, Nat.add_assoc, Nat.add_comm 1]
    rw [List.length_cons, hspan, List.zip_cons_cons, List.map_cons, List.sum_cons, ih, tagWord, pow_succ]
    ring

@[simp] theorem length_codeRows (prev : List Byte) (rows : List (List Byte)) : (codeRows prev rows).length = rows.length := by
  induction rows generalizing prev with
  | nil => rfl
  | cons row rows ih => simp [codeRows, ih]

theorem tagWord_codeRows_lt (prev : List Byte) (rows : List (List Byte)) : tagWord (codeRows prev rows) < 4 ^ rows.length := by
  induction rows generalizing prev with
  | nil => exact Nat.one_pos
  | cons row rows ih =>
    have htag := rowTag_lt prev row
    have hrest := ih row
    rw [codeRows, tagWord, List.length_cons, pow_succ]
    dsimp only
    omega

/-- A coded row decodes to the row, whatever its tag, and leaves what follows it. -/
theorem decodeRows_row {row : List Byte} (hlen : row.length = 64) (n tags : Nat) (prev rest : List Byte) :
    decodeRows (n + 1) (rowTag prev row + 4 * tags) prev (rowPayload (rowTag prev row) row ++ rest) =
      (decodeRows n tags row rest).map (fun r => (row :: r.1, r.2)) := by
  have hlt := rowTag_lt prev row
  have htag : (rowTag prev row + 4 * tags) % 4 = rowTag prev row := by omega
  have htags : (rowTag prev row + 4 * tags) / 4 = tags := by omega
  rw [decodeRows, htag, htags]
  by_cases hzero : row.all (· == 0) = true
  · have hrow : rowTag prev row = 0 := if_pos hzero
    rw [hrow, eq_zeros hlen hzero]
    rfl
  by_cases hsame : row = prev
  · have hrow : rowTag prev row = 1 := (if_neg hzero).trans (if_pos hsame)
    rw [hrow, hsame]
    rfl
  by_cases hmasked : (row.filter (· != 0)).length ≤ 55
  · have hrow : rowTag prev row = 2 := (if_neg hzero).trans ((if_neg hsame).trans (if_pos hmasked))
    have hmask := mask_reads hlen (row.filter (· != 0) ++ rest)
    have hcount := length_filter_nonzero row
    have hvalues := unmask_nonzero row
    have hbytes : rowPayload 2 row ++ rest = toLe 8 (packBits (row.map (· != 0))) ++ (row.filter (· != 0) ++ rest) :=
      List.append_assoc _ _ _
    have hdrop : (rowPayload 2 row ++ rest).drop 8 = row.filter (· != 0) ++ rest := by
      rw [hbytes, List.drop_left' (length_toLe _ _)]
    have htotal : (rowPayload 2 row ++ rest).length = 8 + ((row.filter (· != 0)).length + rest.length) := by
      rw [hbytes, List.length_append, List.length_append, length_toLe]
    rw [hrow]
    dsimp only
    rw [if_neg (by decide), if_neg (by decide), if_pos rfl, if_neg (by omega), hbytes, hmask, hcount, ← hbytes, if_neg (by omega),
      ← List.drop_drop, hdrop, List.take_left, List.drop_left, hvalues]
  · have hrow : rowTag prev row = 3 := (if_neg hzero).trans ((if_neg hsame).trans (if_neg hmasked))
    have hbytes : rowPayload 3 row = row := rfl
    rw [hrow, hbytes]
    dsimp only
    rw [if_neg (by decide), if_neg (by decide), if_neg (by decide), if_neg (by rw [List.length_append]; omega),
      List.take_left' hlen, List.drop_left' hlen]

/-- Coded rows decode to the rows, and leave what follows them. -/
theorem decodeRows_codeRows (rows : List (List Byte)) (prev rest : List Byte) (hrows : ∀ row ∈ rows, row.length = 64) :
    decodeRows rows.length (tagWord (codeRows prev rows)) prev ((codeRows prev rows).flatMap (·.2) ++ rest) = some (rows, rest) := by
  induction rows generalizing prev with
  | nil => rfl
  | cons row rows ih =>
    have hdecoded := ih row fun r hr => hrows r (List.mem_cons_of_mem _ hr)
    rw [codeRows, tagWord, List.flatMap_cons, List.append_assoc, List.length_cons, decodeRows_row (hrows row List.mem_cons_self),
      hdecoded]
    rfl

/-! ## The block (R421, R422) -/

theorem length_blockRows {b : List Byte} : (blockRows b).length = 64 := by simp [blockRows, span]

theorem length_of_mem_blockRows {b row : List Byte} (h : row ∈ blockRows b) : row.length = 64 := by
  obtain ⟨r, _, rfl⟩ := List.mem_map.1 h
  exact length_slice _ _ _

/-- Within its bounds a slice is a part of the list. -/
theorem slice_within {bs : List Byte} {off n : Nat} (h : off + n ≤ bs.length) : slice bs off n = (bs.drop off).take n := by
  have hlen : ((bs.drop off).take n).length = n := by rw [List.length_take, List.length_drop]; omega
  simp [slice, hlen]

/-- The rows of a block, one after another, are the block. -/
theorem flatMap_rows (b : List Byte) (n : Nat) (h : 64 * n ≤ b.length) :
    ((span 0 n).map (fun r => slice b (64 * r) 64)).flatMap id = b.take (64 * n) := by
  induction n with
  | zero => rfl
  | succ n ih =>
    have hrow := slice_within (bs := b) (off := 64 * n) (n := 64) (by omega)
    rw [span_add 0 n 1, List.map_append, List.flatMap_append, ih (by omega), Nat.mul_succ, List.take_add, ← hrow]
    simp [span]

/-- A coded block is the word of its tags, the payloads of its rows, and zeros. -/
theorem padTo64_codedBlock (b : List Byte) : ∃ n, padTo64 (codedBlock b) = toLe 16 (tagWord (codeRows (List.replicate 64 0) (blockRows b)))
    ++ ((codeRows (List.replicate 64 0) (blockRows b)).flatMap (·.2) ++ List.replicate n 0) := by
  have hsum := sum_tags (codeRows (List.replicate 64 0) (blockRows b)) 0
  rw [pow_zero, one_mul] at hsum
  exact ⟨_, by rw [padTo64, codedBlock, hsum, List.append_assoc]⟩

theorem decodeBlock_coded {b : List Byte} (hlen : b.length = 4096) : decodeBlock false (padTo64 (codedBlock b)) = some b := by
  obtain ⟨n, hpadded⟩ := padTo64_codedBlock b
  have hrows := decodeRows_codeRows (blockRows b) (List.replicate 64 0) (List.replicate n 0) fun _ => length_of_mem_blockRows
  have hlt := tagWord_codeRows_lt (List.replicate 64 0) (blockRows b)
  rw [length_blockRows] at hrows hlt
  have htags := leAt_toLe [] ((codeRows (List.replicate 64 0) (blockRows b)).flatMap (·.2) ++ List.replicate n 0) (off := 0) (n := 16)
    rfl hlt
  have hblock : (blockRows b).flatMap id = b := by
    rw [blockRows, flatMap_rows b 64 hlen.ge, List.take_of_length_le hlen.le]
  rw [List.nil_append] at htags
  rw [hpadded, decodeBlock, htags, List.drop_left' (length_toLe _ _), hrows]
  simp [length_toLe, hblock]

/-- Settles O57: a raw block is its own payload, and a coded one decodes row by row. -/
theorem blockCodingRoundTrip : Obligations.BlockCodingRoundTrip := by
  unfold Obligations.BlockCodingRoundTrip
  intro b hlen
  unfold storedBlock
  dsimp only
  split
  · have hraw := slice_whole hlen
    simp [decodeBlock, hraw, hlen]
  · exact decodeBlock_coded hlen

end Sys2Proof.Machine
end

