-- ==== Sys2Proof/Proofs/Escalation.lean ====
section
/-!
PROOF. An escalation from the loom wake to its answer or its timeout (R354, R404 to R411), and the front entry of the admission stage,
which an escalation's entry joins (R353).
-/

namespace Sys2Proof.Machine

/-! ## The front entry (R353) -/

/-- The front entry has left the admission stage, and this lc has had its answer. -/
def frontTaken (rest : List Fetched) (s : State) : State :=
  { s with loom := { s.loom with fetched := rest, answeredAt := some s.clocks.lc } }

theorem answerFront_takes {s : State} {f : Fetched} {rest : List Fetched} {p : Fetched → Bool} (g : Fetched → State → State)
    (hfront : s.loom.fetched = f :: rest) (hp : p f = true) (hans : s.loom.answeredAt ≠ some s.clocks.lc)
    (hreach : loomReachable s.pwr = true) : answerFront p g s = g f (frontTaken rest s) := by
  have hfree : (s.loom.answeredAt != some (lcOf s)) = true := bne_iff_ne.2 hans
  unfold answerFront
  rw [hfront]
  exact if_pos (by rw [hp, hfree, hreach]; rfl)

/-- A front entry that the row does not take, or a second answer of one lc, waits. -/
theorem answerFront_waits {s : State} {f : Fetched} {rest : List Fetched} {p : Fetched → Bool} (g : Fetched → State → State)
    (hfront : s.loom.fetched = f :: rest) (h : p f = false ∨ s.loom.answeredAt = some s.clocks.lc) : answerFront p g s = s := by
  unfold answerFront
  rw [hfront]
  refine if_neg ?_
  obtain hp | hans := h
  · simp [hp]
  · simp [hans, lcOf]

/-! ## The answer of a RUN (R354, R355, R409) -/

theorem admitRun_frame (f : Fetched) (occ : List Nat) (promise : Nat) (s : State) : ∃ js bk ta,
    admitRun f occ promise s = { s with loom := Loom.tallied { s.loom with jobs := js, bookings := bk } ta } := by
  unfold admitRun
  extract_lets b t j
  obtain ⟨ta, hta⟩ := loomTally_frame (bookRun (entDraft b) occ (onJobs (fun js => js ++ [j]) s)) 0x40 (some t) 1
  obtain ⟨tb, htb⟩ := loomTally_frame (loomTally 0x40 (some t) 1 (bookRun (entDraft b) occ (onJobs (fun js => js ++ [j]) s)))
    0x58 (some t) (if f.esc then 1 else 0)
  exact ⟨_, _, tb, by rw [htb, hta]; rfl⟩

theorem answerRun_frame (f : Fetched) (s : State) : ∃ w rs js bk ta, (answerRun f s).2 =
    { s with weft := w, loom := Loom.tallied { s.loom with rings := rs, jobs := js, bookings := bk } ta } := by
  unfold answerRun
  extract_lets b t occ r p
  split
  · obtain ⟨w, rs, ta, h⟩ := answerNow_frame s (entRecord f _ (entDraft b) 0 [])
    exact ⟨w, rs, _, _, ta, h⟩
  · split_ifs
    · obtain ⟨w, rs, ta, h⟩ := answerNow_frame s (entRecord f 0x10 (entDraft b) p [])
      exact ⟨w, rs, _, _, ta, h⟩
    · obtain ⟨js, bk, ta, h⟩ := admitRun_frame f occ p s
      exact ⟨_, _, js, bk, ta, h⟩

/-- An escalation's entry owes the escalation logic its answer. -/
theorem runFront_escalated {f : Fetched} (hesc : f.esc = true) (s : State) :
    runFront f s = noteAnswer (answerRun f s).1 (answerRun f s).2 := if_pos hesc

theorem runFront_unescalated {f : Fetched} (hesc : f.esc = false) (s : State) : runFront f s = (answerRun f s).2 :=
  if_neg (by simp [hesc])

/-- The answer of a RUN leaves the escalation as it is, but for the answer owed to it. -/
theorem runFront_frame (f : Fetched) (s : State) : ∃ due w l,
    runFront f s = { s with esc := { s.esc with answerDue := due }, weft := w, loom := l } ∧ l.order = s.loom.order := by
  obtain ⟨w, rs, js, bk, ta, h⟩ := answerRun_frame f s
  cases hesc : f.esc with
  | true =>
    rw [runFront_escalated hesc, h]
    exact ⟨_, w, _, rfl, rfl⟩
  | false =>
    rw [runFront_unescalated hesc, h]
    exact ⟨_, w, _, rfl, rfl⟩

theorem answerFront_runFront_frame (p : Fetched → Bool) (s : State) : ∃ due w l,
    answerFront p runFront s = { s with esc := { s.esc with answerDue := due }, weft := w, loom := l } ∧ l.order = s.loom.order := by
  unfold answerFront
  split
  · exact ⟨_, _, _, rfl, rfl⟩
  · rename_i f rest _
    split_ifs
    · exact runFront_frame f (frontTaken rest s)
    · exact ⟨_, _, _, rfl, rfl⟩

/-! ## The end of an escalation (R410, R411) -/

theorem endHold_unheld {s : State} (h : s.loft.hold = false) : endHold s = s := if_neg (by simp [h])

/-- The escalation registers once an escalation has ended, with an answer or without one (R411). -/
def Escalation.endedWith (outcome : Nat) (answer : Option Byte) (e : Escalation) : Escalation :=
  { e.ended outcome with answer := answer.getD e.answer }

/-- An escalation ends with its books, its alert unless it was admitted, and the end of its hold. -/
theorem endEscalation_spec (outcome : Nat) (answer : Option Byte) (s : State) : ∃ l, (s.loft.hold = false → l = s.loft)
    ∧ endEscalation outcome answer s = { s with
      esc := s.esc.endedWith outcome answer, alert := if answer = some 0 then s.alert else putBit s.alert 12 true, loft := l } := by
  have hhold : ∀ t : State, ∃ l, (t.loft.hold = false → l = t.loft) ∧ endHold t = { t with loft := l } := by
    intro t
    cases h : t.loft.hold with
    | false => exact ⟨t.loft, fun _ => rfl, endHold_unheld h⟩
    | true =>
      obtain ⟨l, hl⟩ := endHold_frame t
      exact ⟨l, fun hf => Bool.noConfusion hf, hl⟩
  unfold endEscalation
  dsimp only
  split_ifs
  · exact hhold (onEsc (Escalation.endedWith outcome answer) s)
  · exact hhold (raise causeEscalation (onEsc (Escalation.endedWith outcome answer) s))

theorem endEscalation_unheld {s : State} (outcome : Nat) (answer : Option Byte) (h : s.loft.hold = false) :
    endEscalation outcome answer s = { s with
      esc := s.esc.endedWith outcome answer, alert := if answer = some 0 then s.alert else putBit s.alert 12 true } := by
  obtain ⟨l, hl, hended⟩ := endEscalation_spec outcome answer s
  rw [hended, hl h]

/-! ## The escalation's steps (R406 to R410) -/

section
variable {s : State}

theorem copyStart_waiting (hst : s.esc.st = .waitLoom) (hl0 : s.pwr.st = .l0) (hruns : mesochronousRuns s = true) :
    copyStart s = if destsGood s then onEsc (fun e => { e with st := .copy }) s else endEscalation outBadDest none s :=
  if_pos (by simp [hst, hl0, hruns])

theorem escExpired_iff : escExpired s = true ↔ s.esc.since + 12288 * (s.esc.waitMs.toNat + 1) ≤ s.clocks.wclk := decide_eq_true_iff

theorem escExpired_before (h : s.clocks.wclk < s.esc.since + 12288 * (s.esc.waitMs.toNat + 1)) : escExpired s = false :=
  decide_eq_false (Nat.not_le.2 h)

/-- Fetches are open at L0 with nothing under way, where the control region answers. -/
theorem loomReachable_of_fetchOpen (h : fetchOpen s = true) : loomReachable s.pwr = true := by
  simp only [fetchOpen, Bool.and_eq_true, beq_iff_eq] at h
  obtain ⟨⟨⟨⟨⟨hst, _⟩, hstage⟩, _⟩, _⟩, _⟩ := h
  rw [loomReachable, inResetGap, hst, hstage]
  rfl

/-- The entry that an escalation fetches in this lc (R408). -/
def escEntered (s : State) : Fetched :=
  { ring := 4 * s.esc.latTenant.toNat, index := 0xFFFFFFFF, bytes := escEntryBytes s.esc s.loom.now.toNat, esc := true
    order := s.loom.order, lc := s.clocks.lc }

/-- The entry is fetched: it stands ahead of what was fetched in this lc, and a completion entry is reserved. -/
def escFetched (s : State) : State :=
  let c := 4 * s.esc.latTenant.toNat + 1
  { s with
    esc := { s.esc with fetched := true }
    loom := { s.loom with
      rings := sput .init s.loom.rings c { ringOf s c with resv := (ringOf s c).resv + 1 }
      order := s.loom.order + 1, fetched := putAhead s.clocks.lc (escEntered s) s.loom.fetched } }

/-- The conditions under which an escalation's entry is fetched (R354, R408, R410). -/
structure EntryDue (s : State) : Prop where
  waits : s.esc.st = .waitFetch
  unfetched : s.esc.fetched = false
  early : s.clocks.wclk < s.esc.since + 12288 * (s.esc.waitMs.toNat + 1)
  opened : fetchOpen s = true
  room : tenantOpen s s.esc.latTenant.toNat = true

theorem EntryDue.escEntry (h : EntryDue s) : escEntry s = answerFront (·.esc) runFront (escFetched s) :=
  if_pos (by simp [h.waits, h.unfetched, escExpired_before h.early, h.opened, h.room])

theorem escEntry_late (h : s.esc.since + 12288 * (s.esc.waitMs.toNat + 1) ≤ s.clocks.wclk) : escEntry s = s :=
  if_neg (by simp [escExpired_iff.2 h])

theorem escAnswer_due {c : Byte} (hdue : s.esc.answerDue = some c) (hst : s.esc.st = .waitFetch) :
    escAnswer s = endEscalation outPresented (some c) s := by
  unfold escAnswer
  rw [hdue]
  exact if_pos hst

theorem escTimeout_late (hst : s.esc.st ≠ .idle) (hfetched : s.esc.fetched = false)
    (h : s.esc.since + 12288 * (s.esc.waitMs.toNat + 1) ≤ s.clocks.wclk) : escTimeout s = endEscalation outTimeout none s :=
  if_pos (by simp [hst, hfetched, escExpired_iff.2 h])

end

/-! ## The entry's place in the fetch order (R354) -/

section
variable {lc : Nat} (f : Fetched) {fs : List Fetched}

/-- What was fetched in earlier lc stays ahead of the entry. -/
theorem putAhead_earlier (h : ∀ g ∈ fs, g.lc ≠ lc) : putAhead lc f fs = fs ++ [f] := by
  have hnow : fs.filter (fun g => g.lc == lc) = [] := List.filter_eq_nil_iff.2 fun g hg => by simpa using h g hg
  have hbefore : fs.filter (fun g => g.lc != lc) = fs := List.filter_eq_self.2 fun g hg => by simpa using h g hg
  unfold putAhead
  dsimp only
  rw [hnow, hbefore]
  rfl

/-- The entry goes ahead of what was fetched in its own lc, and takes the place in the order that the first of it had. -/
theorem putAhead_same {g : Fetched} {rest : List Fetched} (hfs : fs = g :: rest) (h : ∀ g ∈ fs, g.lc = lc) :
    putAhead lc f fs = { f with order := g.order } :: fs.map (fun g => { g with order := g.order + 1 }) := by
  have hnow : fs.filter (fun g => g.lc == lc) = fs := List.filter_eq_self.2 fun g hg => by simpa using h g hg
  have hbefore : fs.filter (fun g => g.lc != lc) = [] := List.filter_eq_nil_iff.2 fun g hg => by simpa using h g hg
  unfold putAhead
  dsimp only
  rw [hnow, hbefore, hfs]
  rfl

end

/-- Settles O40: the wake by its destinations, the entry by what was fetched before it, the ends by the books of an end. -/
theorem escalations : Obligations.Escalations := by
  unfold Obligations.Escalations
  refine ⟨?_, ?_, ?_, ?_, ?_, ?_, ?_, ?_, ?_⟩
  · intro s hlive hst hl0 hruns hgood
    have hcopy := (copyStart_waiting hst hl0 hruns).trans (if_pos hgood)
    exact .of_fin hlive (congrArg (fin s) hcopy) rfl
  · intro s hlive hst hl0 hruns hbad
    obtain ⟨l, _, hended⟩ := endEscalation_spec outBadDest none s
    have hcopy := ((copyStart_waiting hst hl0 hruns).trans (if_neg (by simp [hbad]))).trans hended
    have hcode : BitVec.ofNat 3 (escStateCode s.esc.st) = 1 := by rw [hst]; rfl
    exact .of_fin hlive (congrArg (fin s) hcopy) ⟨rfl, rfl, hcode, rfl⟩
  · intro s hlive hst hfetched hearly hopen hroom
    have hentry := EntryDue.escEntry ⟨hst, hfetched, hearly, hopen, hroom⟩
    obtain ⟨due, w, l, hanswered, horder⟩ := answerFront_runFront_frame (·.esc) (escFetched s)
    exact .of_fin hlive (congrArg (fin s) (hentry.trans hanswered)) ⟨rfl, horder, hst⟩
  · intro s hlive hst hfetched hearly hopen hroom hnone hans
    have hentry := EntryDue.escEntry ⟨hst, hfetched, hearly, hopen, hroom⟩
    have hfront : (escFetched s).loom.fetched = [escEntered s] := by
      simp only [escFetched, hnone, putAhead_earlier (lc := s.clocks.lc) (fs := []) (escEntered s) (by simp), List.nil_append]
    have htaken := answerFront_takes runFront (p := (·.esc)) hfront rfl hans (loomReachable_of_fetchOpen hopen)
    obtain ⟨w, rs, js, bk, ta, hrun⟩ := answerRun_frame (escEntered s) (frontTaken [] (escFetched s))
    rw [runFront_escalated rfl, hrun] at htaken
    exact .of_fin hlive (congrArg (fin s) (hentry.trans htaken)) ⟨rfl, rfl, rfl⟩
  · intro s f rest hlive hst hfetched hearly hopen hroom hfs hring hlc
    have hentry := EntryDue.escEntry ⟨hst, hfetched, hearly, hopen, hroom⟩
    have hahead := putAhead_earlier (escEntered s) hlc
    have hfront : (escFetched s).loom.fetched = f :: (rest ++ [escEntered s]) := by
      rw [escFetched, hahead, hfs]
      rfl
    have hwaits := answerFront_waits (p := (·.esc)) runFront hfront (.inl hring)
    refine .of_fin hlive (congrArg (fin s) (hentry.trans hwaits)) ⟨rfl, hahead, rfl⟩
  · intro s f rest hlive hst hfetched hearly hopen hroom hfs hans hlc
    have hentry := EntryDue.escEntry ⟨hst, hfetched, hearly, hopen, hroom⟩
    have hahead := putAhead_same (escEntered s) hfs hlc
    have hwaits := answerFront_waits (s := escFetched s) (p := (·.esc)) runFront hahead (.inr hans)
    exact .of_fin hlive (congrArg (fin s) (hentry.trans hwaits)) ⟨rfl, hahead⟩
  · exact fun s hlive _ hlate => .of_fin hlive (congrArg (fin s) (escEntry_late hlate)) rfl
  · intro s c hlive hst hdue hhold
    have hended := (escAnswer_due hdue hst).trans (endEscalation_unheld outPresented (some c) hhold)
    have hcode : s.esc.endedWith outPresented (some c) = { s.esc with
        st := .idle, outcome := 1, answer := c, endedIn := 3, tenant := s.esc.latTenant, rule := s.esc.latRule
        fetched := false, answerDue := none } := by
      rw [Escalation.endedWith, Escalation.ended, hst]
      rfl
    refine .of_fin hlive (congrArg (fin s) hended) ⟨hcode, ?_, rfl⟩
    simp
  · intro s hlive hst hfetched hhold hlate
    have hended := (escTimeout_late hst hfetched hlate).trans (endEscalation_unheld outTimeout none hhold)
    exact .of_fin hlive (congrArg (fin s) hended) ⟨rfl, rfl, rfl, rfl⟩

end Sys2Proof.Machine
end

