-- ==== Sys2Proof/Proofs/Rings.lean ====
section
/-!
PROOF. Doorbells, ring control, partitions, the weave swap, and the loom tally's selects and reads (R341 to R344, R351, R352, R446,
R447, R453, R460).
-/

namespace Sys2Proof.Machine

/-! ## Fields of the words a host writes -/

/-- A field as wide as the register it goes to is the register's part of the word. -/
theorem ofNat_field (v lo w : Nat) : BitVec.ofNat w (field v lo w) = BitVec.ofNat w (v / 2 ^ lo) := by
  apply BitVec.eq_of_toNat_eq
  simp [field_eq]

theorem toNat_setField_en (cfg : DWord) (x : Nat) :
    (d64 (setField cfg.toNat 4 1 x)).toNat = cfg.toNat % 16 + x % 2 * 16 + cfg.toNat / 32 * 32 := by
  have hset : setField cfg.toNat 4 1 x = cfg.toNat % 16 + x % 2 * 16 + cfg.toNat / 32 * 32 := by
    rw [setField, Nat.shiftRight_eq_div_pow]
    norm_num
  have hlt : setField cfg.toNat 4 1 x < 2 ^ 64 := by
    rw [hset]
    omega
  rw [d64, BitVec.toNat_ofNat, Nat.mod_eq_of_lt hlt, hset]

/-- RING_ENABLE writes EN 1. -/
theorem bitOf_setField_en (cfg : DWord) {x : Nat} {b : Bool} (h : x % 2 = b.toNat) :
    bitOf (d64 (setField cfg.toNat 4 1 x)).toNat 4 = b := by
  apply bitOf_eq
  rw [toNat_setField_en, ← h]
  omega

/-! ## Rings (R341, R342, R344) -/

section
variable {s : State} {n : Nat}

/-- A counter that a doorbell moves keeps what it was at the start of the lc. -/
theorem ringOf_noteBell (old : Word) :
    ringOf (noteBell n old s) n = { ringOf s n with was := some (bellWas s (ringOf s n) old) } := by
  rw [noteBell, ringOf_putRing_same, bellWas]
  rcases (ringOf s n).was with _ | ⟨lc, v⟩
  · rfl
  · exact congrArg (fun w => { ringOf s n with was := w })
      (apply_ite some (lc = s.clocks.lc) (lc, v) (s.clocks.lc, old)).symm

theorem ringTail_valid {v : Word} (hkind : n % 4 = 0 ∨ n % 4 = 3) (hvalid : tailValid (ringOf s n) v = true) :
    ringTail n v s = putRing n { ringOf s n with tail := v, was := some (bellWas s (ringOf s n) (ringOf s n).tail) } s := by
  have htailed : ¬ (n % 4 = 1 ∨ n % 4 = 2) := by omega
  unfold ringTail
  rw [if_neg (by simpa using htailed), if_pos hvalid, ringOf_noteBell]

theorem ringTail_invalid {v : Word} (hkind : n % 4 = 0 ∨ n % 4 = 3) (hvalid : tailValid (ringOf s n) v = false) :
    ringTail n v s = badDoorbell n v s := by
  have htailed : ¬ (n % 4 = 1 ∨ n % 4 = 2) := by omega
  unfold ringTail
  rw [if_neg (by simpa using htailed), if_neg (by simp [hvalid])]

/-- A HEAD doorbell moves its counter; an event ring has nothing to report unless events were lost. -/
theorem ringHead_valid {v : Word} (hkind : n % 4 = 1 ∨ n % 4 = 2 ∧ (tenantOf s (n / 4)).lost = 0)
    (hvalid : headValid (ringOf s n) v = true) :
    ringHead n v s = putRing n { ringOf s n with head := v, was := some (bellWas s (ringOf s n) (ringOf s n).head) } s := by
  have hheaded : ¬ (n % 4 = 0 ∨ n % 4 = 3) := by omega
  unfold ringHead
  rw [if_neg (by simpa using hheaded), if_pos hvalid, ringOf_noteBell]
  obtain hcomp | ⟨hevent, hlost⟩ := hkind
  · exact if_neg (by simp [hcomp])
  · have hkept : ∀ r, (tenantOf (putRing n r s) (n / 4)).lost = 0 := fun _ => hlost
    exact (if_pos hevent).trans (if_neg (by simp [hkept]))

/-- A RING_CFG with EN 1 starts a ring that is stopped (R342); an event ring would then take what is owed. -/
theorem writeRingCfg_starts {d : DWord} (hkind : n % 4 ≠ 2) (hoff : (ringOf s n).en = false) (hen : bitOf d.toNat 4 = true) :
    writeRingCfg n d s = putRing n { ringOf s n with
      size := BitVec.ofNat 4 (field d.toNat 0 4), notify := bitOf d.toNat 5, ndata := BitVec.ofNat 32 (field d.toNat 32 32)
      en := true, head := 0, tail := 0, resv := 0, was := none } s := by
  unfold writeRingCfg enableRing
  simp [hoff, hen, hkind]

theorem writeRingCfg_running {d : DWord} (hon : (ringOf s n).en = true) (hen : bitOf d.toNat 4 = true) : writeRingCfg n d s = s := by
  simp [writeRingCfg, hon, hen]

theorem writeRingCfg_stops {d : DWord} (hon : (ringOf s n).en = true) (hen : bitOf d.toNat 4 = false) :
    writeRingCfg n d s = disableRing n s := by
  simp [writeRingCfg, hon, hen]

theorem disableRing_stops (h : n % 4 ≠ 1) : disableRing n s = dropRingRead n (putRing n { ringOf s n with en := false } s) :=
  if_neg (by simp [h])

/-- A completion ring that owes a record goes on. -/
theorem disableRing_owing (hkind : n % 4 = 1) (hjobs : jobsOfTenant s (n / 4) ≠ []) : disableRing n s = s :=
  if_pos (by simp [hkind, hjobs])

theorem asksRing_dropped {r : DevRead} (h : r ∈ (dropRingRead n s).loom.reads) : asksRing n r = false := by
  obtain ⟨_, hkept⟩ := List.mem_filter.1 h
  unfold asksRing
  cases hwhat : r.what <;> simp_all

end

/-! ## The loom tally's selects (R446, R447, R453) -/

/-- What the select register of a counter spells in a word. -/
def selectOf (d : DWord) : TallySel :=
  { src := BitVec.ofNat 8 d.toNat, tenant := BitVec.ofNat 8 (d.toNat / 256), filter := d.getLsbD 16 }

section
variable {s : State} {n : Nat} {d : DWord}

/-- What a write of a select leaves in the loom: the select, and the count cleared where CLR is set or a field changed. -/
def selected (s : State) (n : Nat) (d : DWord) : Loom :=
  let u := { s.loom with tallySel := sput .init s.loom.tallySel n (selectOf d) }
  if d.getLsbD 17 ∨ selectOf d ≠ tallySelOf s n then clearTally n s.clocks.lc (selectOf d) u else u

theorem writeTallySel_eq : writeTallySel n d s = { s with loom := selected s n d } := by
  have hsel : ({ src := BitVec.ofNat 8 (field d.toNat 0 8), tenant := BitVec.ofNat 8 (field d.toNat 8 8)
                 filter := bitOf d.toNat 16 } : TallySel) = selectOf d := by
    rw [ofNat_field, ofNat_field, bitOf_toNat, pow_zero, Nat.div_one]
    rfl
  unfold writeTallySel selected onLoom
  rw [hsel, bitOf_toNat]
  simp only [Bool.or_eq_true, bne_iff_ne]
  rfl

/-- The first event or read of an lc finds the count of before (R453). -/
theorem rollTally_tally (lc : Nat) (l : Loom) : (rollTally lc l).tally = l.tally := by
  unfold rollTally
  split_ifs <;> rfl

theorem rollTally_fresh {lc : Nat} {l : Loom} (h : l.tallyLc ≠ lc) : (rollTally lc l).tallyEvs = [] := by
  simp [rollTally, h]

theorem rollTally_rolled (lc : Nat) (l : Loom) : (rollTally lc l).tallyLc = lc := by
  unfold rollTally
  split_ifs with h
  · exact h
  · rfl

/-- What the events of an lc so far give a counter that its select takes them for. -/
def lcEvents (lc : Nat) (e : TallySel) (l : Loom) : Counter :=
  (rollTally lc l).tallyEvs.foldl (fun c x => if takesLoom x.1 x.2.1 e then bump x.2.2 c else c) .init

theorem sget_clearTally_same (n lc : Nat) (e : TallySel) (l : Loom) :
    sget Counter.init (clearTally n lc e l).tally n = lcEvents lc e l := sget_sput_same _ _ _ _

theorem sget_clearTally_other {k n : Nat} (lc : Nat) (e : TallySel) (l : Loom) (h : k ≠ n) :
    sget Counter.init (clearTally n lc e l).tally k = sget Counter.init l.tally k :=
  (sget_sput_other _ _ _ h.symm).trans (by rw [rollTally_tally])

theorem lcEvents_fresh {lc : Nat} (e : TallySel) {l : Loom} (h : l.tallyLc ≠ lc) : lcEvents lc e l = .init := by
  rw [lcEvents, rollTally_fresh h]
  rfl

/-- A cleared count reads as zero in the lc that clears it. -/
theorem tallyRead_cleared {t : State} {e : TallySel} {l : Loom} (h : t.loom = clearTally n t.clocks.lc e l) : tallyRead t n = .init := by
  have hlc : t.loom.tallyLc = t.clocks.lc := by
    rw [h]
    exact rollTally_rolled _ _
  rw [tallyRead, rollTally, if_pos hlc, h]
  exact sget_sput_same (d := Counter.init) (rollTally t.clocks.lc l).tallyWas n Counter.init

theorem clearTally_frame (n lc : Nat) (e : TallySel) (l : Loom) : ∃ tl evs was, clearTally n lc e l =
    { l with tallyLc := lc, tally := tl, tallyEvs := evs, tallyWas := was } := by
  unfold clearTally rollTally
  split_ifs with h
  · subst h
    exact ⟨_, _, _, rfl⟩
  · exact ⟨_, _, _, rfl⟩

/-- Only the books of the tally move. -/
theorem selected_books (s : State) (n : Nat) (d : DWord) : ∃ lc tl evs was, selected s n d = { s.loom with
    tallySel := sput .init s.loom.tallySel n (selectOf d), tallyLc := lc, tally := tl, tallyEvs := evs, tallyWas := was } := by
  unfold selected
  dsimp only
  split_ifs
  · exact ⟨_, clearTally_frame n s.clocks.lc (selectOf d) { s.loom with tallySel := sput .init s.loom.tallySel n (selectOf d) }⟩
  · exact ⟨_, _, _, _, rfl⟩

theorem selected_frame : selected s n d = { counting s { s with loom := selected s n d } with
    tallySel := (selected s n d).tallySel, tally := (selected s n d).tally } := by
  obtain ⟨lc, tl, evs, was, h⟩ := selected_books s n d
  rw [h]

theorem selected_tallySel : (selected s n d).tallySel = sput .init s.loom.tallySel n (selectOf d) := by
  obtain ⟨lc, tl, evs, was, h⟩ := selected_books s n d
  rw [h]

theorem tallySelOf_selected : sget TallySel.init (selected s n d).tallySel n = selectOf d := by
  rw [selected_tallySel, sget_sput_same]

theorem selected_other {k : Nat} (h : k ≠ n) : sget TallySel.init (selected s n d).tallySel k = tallySelOf s k
    ∧ sget Counter.init (selected s n d).tally k = sget Counter.init s.loom.tally k := by
  refine ⟨by rw [selected_tallySel, sget_sput_other _ _ _ h.symm, tallySelOf], ?_⟩
  unfold selected
  dsimp only
  split_ifs
  · exact sget_clearTally_other _ _ _ h
  · rfl

theorem selected_clears (h : d.getLsbD 17 ∨ selectOf d ≠ tallySelOf s n) : selected s n d =
    clearTally n s.clocks.lc (selectOf d) { s.loom with tallySel := sput .init s.loom.tallySel n (selectOf d) } := if_pos h

theorem sget_selected_fresh (h : s.loom.tallyLc ≠ s.clocks.lc) : sget Counter.init (selected s n d).tally n =
    if d.getLsbD 17 ∨ selectOf d ≠ tallySelOf s n then .init else sget Counter.init s.loom.tally n := by
  by_cases hclear : d.getLsbD 17 ∨ selectOf d ≠ tallySelOf s n
  · rw [if_pos hclear, selected_clears hclear, sget_clearTally_same]
    exact lcEvents_fresh _ h
  · rw [if_neg hclear, selected, if_neg hclear]

end

/-- The word that LOOM_TALLY_CLR writes spells the select as it stands, with CLR. -/
def clrWord (e : TallySel) : DWord := d64 (tallySelWord e + 2 ^ 17)

theorem toNat_clrWord (e : TallySel) : (clrWord e).toNat = e.src.toNat + 256 * e.tenant.toNat + 65536 * e.filter.toNat + 131072 := by
  have hlt : e.src.toNat + 256 * e.tenant.toNat + 65536 * e.filter.toNat + 131072 < 2 ^ 64 := by
    have := e.src.isLt
    have := e.tenant.isLt
    have := Bool.toNat_le e.filter
    omega
  rw [clrWord, d64, tallySelWord, flagBit_eq, BitVec.toNat_ofNat]
  exact Nat.mod_eq_of_lt hlt

theorem selectOf_clrWord (e : TallySel) : selectOf (clrWord e) = e := by
  have hsrc := e.src.isLt
  have hten := e.tenant.isLt
  have hflag : (clrWord e).getLsbD 16 = e.filter := by
    rw [← bitOf_toNat]
    apply bitOf_eq
    have := Bool.toNat_le e.filter
    rw [toNat_clrWord]
    omega
  have h8 : BitVec.ofNat 8 (clrWord e).toNat = e.src := by
    apply BitVec.eq_of_toNat_eq
    rw [toNat_clrWord, BitVec.toNat_ofNat]
    omega
  have h16 : BitVec.ofNat 8 ((clrWord e).toNat / 256) = e.tenant := by
    apply BitVec.eq_of_toNat_eq
    rw [toNat_clrWord, BitVec.toNat_ofNat]
    omega
  rw [selectOf, h8, h16, hflag]

theorem clrWord_clears (e : TallySel) : (clrWord e).getLsbD 17 = true := by
  rw [← bitOf_toNat]
  apply bitOf_eq
  have := e.src.isLt
  have := e.tenant.isLt
  have := Bool.toNat_le e.filter
  rw [toNat_clrWord, Bool.toNat_true]
  omega

/-- An event that one select takes counts in its counter; the reads of its lc do not see it yet. -/
theorem loomTally_selected {s : State} {n : Nat} {src : Byte} (ten : Option Nat) (hfresh : s.loom.tallyLc ≠ s.clocks.lc)
    (hsel : s.loom.tallySel = [(n, { src := src, tenant := 0, filter := false })]) :
    sget Counter.init (loomTally src.toNat ten 1 s).loom.tally n = bump 1 (sget Counter.init s.loom.tally n)
      ∧ tallyRead (loomTally src.toNat ten 1 s) n = sget Counter.init s.loom.tally n := by
  have htakes : takesLoom src.toNat ten { src := src, tenant := 0#8, filter := false } = true := by simp [takesLoom]
  have htally : loomTally src.toNat ten 1 s = { s with loom := { s.loom with
      tallyLc := s.clocks.lc, tally := smod .init s.loom.tally n (bump 1), tallyEvs := [(src.toNat, ten, 1)]
      tallyWas := s.loom.tally } } := by
    simp [loomTally, onLoom, rollTally, hfresh, hsel, htakes]
  rw [htally]
  refine ⟨?_, ?_⟩
  · exact (sget_smod _ _ _ _ _).trans (if_pos rfl)
  · simp [tallyRead, rollTally]

/-- Settles O55: each write by its function on rings, on partitions, on the weave or on the tally's selects. -/
theorem ringsAndTables : Obligations.RingsAndTables := by
  unfold Obligations.RingsAndTables
  refine ⟨?_, ?_, ?_, ?_, ?_, ?_, ?_, ?_, ?_, ?_, ?_, ?_, ?_, ?_, ?_⟩
  · intro s n v hhost hkind hvalid
    have heff := (hostPosts_heard (some (n.toNat / 4)) (ringTail n.toNat v) hhost).trans (ringTail_valid hkind hvalid)
    exact .of_fin hhost.1.1 (congrArg (fin s) heff) ⟨sget_sput_same _ _ _ _, fun k _ hk => ringOf_putRing_other _ _ _ _ hk.symm, rfl⟩
  · intro s n v hhost hkind hvalid hoff
    have heff := ((hostPosts_heard (some (n.toNat / 4)) (ringTail n.toNat v) hhost).trans (ringTail_invalid hkind hvalid)).trans
      (sendEvent_ringOff _ _ _ [] hoff)
    exact .of_fin hhost.1.1 (congrArg (fin s) heff) ⟨congrArg Tenant.lost (sget_sput_same _ _ _ _), rfl⟩
  · intro s n v hhost hkind hvalid
    have heff := (hostPosts_heard (some (n.toNat / 4)) (ringHead n.toNat v) hhost).trans (ringHead_valid hkind hvalid)
    exact .of_fin hhost.1.1 (congrArg (fin s) heff) ⟨sget_sput_same _ _ _ _, fun k _ hk => ringOf_putRing_other _ _ _ _ hk.symm, rfl⟩
  · intro s n d hhost hkind hoff
    have heff := (hostPosts_heard none (writeRingCfg n.toNat (d64 (setField d.toNat 4 1 1))) hhost).trans
      (writeRingCfg_starts hkind hoff (bitOf_setField_en d rfl))
    have hsize : BitVec.ofNat 4 (field (d64 (setField d.toNat 4 1 1)).toNat 0 4) = BitVec.ofNat 4 d.toNat := by
      apply BitVec.eq_of_toNat_eq
      rw [ofNat_field, toNat_setField_en, BitVec.toNat_ofNat, BitVec.toNat_ofNat]
      omega
    have hnotify : bitOf (d64 (setField d.toNat 4 1 1)).toNat 5 = d.getLsbD 5 := by
      rw [← bitOf_toNat, bitOf, bitOf, field_eq, field_eq, toNat_setField_en]
      congr 1
      omega
    have hndata : BitVec.ofNat 32 (field (d64 (setField d.toNat 4 1 1)).toNat 32 32) = BitVec.ofNat 32 (d.toNat / 2 ^ 32) := by
      rw [ofNat_field, toNat_setField_en]
      congr 1
      omega
    rw [hsize, hnotify, hndata] at heff
    exact .of_fin hhost.1.1 (congrArg (fin s) heff)
      ⟨sget_sput_same _ _ _ _, fun k _ hk => ringOf_putRing_other _ _ _ _ hk.symm, rfl⟩
  · intro s n d hhost hon
    have heff := (hostPosts_heard none (writeRingCfg n.toNat (d64 (setField d.toNat 4 1 1))) hhost).trans
      (writeRingCfg_running hon (bitOf_setField_en d rfl))
    exact .of_fin hhost.1.1 (congrArg (fin s) heff) rfl
  · intro s n d hhost hkind hon
    have heff := ((hostPosts_heard none (writeRingCfg n.toNat (d64 (setField d.toNat 4 1 0))) hhost).trans
      (writeRingCfg_stops hon (bitOf_setField_en d rfl))).trans (disableRing_stops hkind)
    exact .of_fin hhost.1.1 (congrArg (fin s) heff) ⟨sget_sput_same _ _ _ _, fun r hr => asksRing_dropped hr,
      fun k _ hk => sget_sput_other _ _ _ hk.symm, rfl⟩
  · intro s n d hhost hkind hon hjobs
    have heff := ((hostPosts_heard none (writeRingCfg n.toNat (d64 (setField d.toNat 4 1 0))) hhost).trans
      (writeRingCfg_stops hon (bitOf_setField_en d rfl))).trans (disableRing_owing hkind hjobs)
    exact .of_fin hhost.1.1 (congrArg (fin s) heff) rfl
  · intro s n d hhost hcode
    have hpart : writePart n.toNat d s = onLoom (fun l => { l with
        parts := sput .init l.parts n.toNat (parsePart d), partResult := BitVec.ofNat 10 n.toNat }) s := by
      simp [writePart, hcode, onLoom]
    have heff := (hostPosts_heard none (writePart n.toNat d) hhost).trans hpart
    exact .of_fin hhost.1.1 (congrArg (fin s) heff) ⟨sget_sput_same _ _ _ _, rfl, fun k _ hk => sget_sput_other _ _ _ hk.symm, rfl⟩
  · intro s n d hhost hcode
    have heff := (hostPosts_heard none (writePart n.toNat d) hhost).trans (if_neg hcode)
    exact .of_fin hhost.1.1 (congrArg (fin s) heff) rfl
  · intro s hhost
    have heff := hostPosts_heard none weaveGo hhost
    by_cases hidle : s.loom.weave.swap = .idle
    · have hgo : weaveGo s = _ := if_pos hidle
      exact .of_fin hhost.1.1 (congrArg (fin s) (heff.trans hgo)) (by rw [if_pos hidle]; rfl)
    · have hgo : weaveGo s = _ := if_neg hidle
      exact .of_fin hhost.1.1 (congrArg (fin s) (heff.trans hgo)) (by rw [if_neg hidle]; rfl)
  · intro s hreached hchecking
    have hchecked : weaveChecked s = _ := if_neg (not_not_intro hchecking)
    exact .of_fin hreached.1 (congrArg (fin s) ((if_pos hreached.2).trans hchecked)) rfl
  · intro s n d hhost
    have heff := (hostPosts_heard none (writeTallySel n.toNat d) hhost).trans writeTallySel_eq
    refine .of_fin hhost.1.1 (congrArg (fin s) heff)
      ⟨tallySelOf_selected, sget_selected_fresh, fun k _ hk => selected_other hk, ?_⟩
    exact congrArg (fun l => settle s { s with loom := l }) selected_frame
  · intro s n d src ten k hhost hlc hevs hclr
    have heff := (hostPosts_heard none (writeTallySel n.toNat d) hhost).trans writeTallySel_eq
    have hclears := selected_clears (s := s) (n := n.toNat) (d := d) (.inl hclr)
    refine .of_fin hhost.1.1 (congrArg (fin s) heff) ⟨?_, tallyRead_cleared hclears⟩
    have hsel : tallySelOf (settle s { s with loom := selected s n.toNat d }) n.toNat = selectOf d := tallySelOf_selected
    rw [hsel]
    refine (congrArg (fun l : Loom => sget Counter.init l.tally n.toNat) hclears).trans ((sget_clearTally_same _ _ _ _).trans ?_)
    simp [lcEvents, rollTally, hlc, hevs]
  · intro s n hhost
    have hpost := hostPosts_heard none (fun s => writeTallySel n.toNat (d64 (tallySelWord (tallySelOf s n.toNat) + 2 ^ 17)) s) hhost
    have hclears := selected_clears (s := s) (n := n.toNat) (.inl (clrWord_clears (tallySelOf s n.toNat)))
    refine .of_fin hhost.1.1 (congrArg (fin s) (hpost.trans writeTallySel_eq))
      ⟨tallySelOf_selected.trans (selectOf_clrWord _), fun hfresh => ?_, tallyRead_cleared hclears, fun k _ hk => selected_other hk, ?_⟩
    · exact (sget_selected_fresh hfresh).trans (if_pos (.inl (clrWord_clears _)))
    · exact congrArg (fun l => settle s { s with loom := l }) selected_frame
  · exact fun s n src ten hfresh hsel => loomTally_selected ten hfresh hsel

end Sys2Proof.Machine
end

