-- ==== Sys2Proof/Proofs/Admission.lean ====
section
/-!
PROOF. What an idle weft module sends, records, and the answers of the admission stage (R318 to R320, R324, R337, R338, R346, R353 to
R357).
-/

namespace Sys2Proof.Machine

/-! ## Sending on an idle module (R335, R337, R338) -/

section
variable {s : State} {x : DevTxn}

theorem moduleFor_trained {t : Nat} (h : (weftOf s (t % 2)).trained = true) : moduleFor s t = t % 2 := if_pos h

theorem maySend_idle {m : Nat} (hown : x.kind = .write ∨ x.kind = .read) (htrained : (weftOf s m).trained = true)
    (hreplay : (weftOf s m).replay = []) (hposted : 0 < (weftOf s m).hostPosted) (hnonposted : 0 < (weftOf s m).hostNonposted)
    (hother : (weftOf s (1 - m)).replay = []) : maySend s m x = true := by
  obtain hkind | hkind := hown <;> simp [maySend, hkind, htrained, hreplay, hposted, hnonposted, hother]

/-- With one transaction queued and nothing before it, a module sends that one. -/
theorem pump_single {m : Nat} (hresent : (weftOf s m).resent = []) (htxq : (weftOf s m).txq = [x])
    (hmay : maySend s m x = true) : pump m s = sendTxn m x (putWeft m { weftOf s m with txq := [] } s) := by
  unfold pump
  rw [hresent, htxq]
  simp only [List.length_nil, List.length_singleton, pumpN]
  rw [hresent, htxq]
  exact if_pos hmay

/-- What the device starts for a tenant leaves at once on the tenant's module, if that is idle. -/
theorem enqueue_idle (hown : x.kind = .write ∨ x.kind = .read) (hidle : WeftIdle s (x.tenant % 2)) :
    ∃ w, enqueue x s = { s with weft := w } ∧ Sent s { s with weft := w } (x.tenant % 2) x := by
  obtain ⟨htrained, hreplay, hresent, htxq, hposted, hnonposted, hother⟩ := hidle
  have hmod : moduleFor s x.tenant = x.tenant % 2 := moduleFor_trained htrained
  have hne : x.tenant % 2 ≠ 1 - x.tenant % 2 := by omega
  generalize hm : x.tenant % 2 = m at *
  have hqueued : weftOf (putWeft m { weftOf s m with txq := (weftOf s m).txq ++ [x] } s) m = { weftOf s m with txq := [x] } := by
    rw [weftOf_putWeft_same, htxq]
    rfl
  have hfar : (weftOf (putWeft m { weftOf s m with txq := (weftOf s m).txq ++ [x] } s) (1 - m)).replay = [] := by
    rw [weftOf_putWeft_other _ _ _ _ hne, hother]
  have hsent := pump_single (x := x) (by rw [hqueued]; exact hresent) (by rw [hqueued])
    (maySend_idle hown (by rw [hqueued]; exact htrained) (by rw [hqueued]; exact hreplay) (by rw [hqueued]; exact hposted)
      (by rw [hqueued]; exact hnonposted) hfar)
  obtain ⟨w, hw⟩ := enqueue_frame s x
  have heff : enqueue x s = sendTxn m x (putWeft m { weftOf s m with txq := [] }
      (putWeft m { weftOf s m with txq := (weftOf s m).txq ++ [x] } s)) := by
    rw [enqueue, hmod, enqueueOn, hsent, hqueued]
  have hsame : weftOf { s with weft := w } m = _ := (congrArg (weftOf · m) (hw.symm.trans heff)).trans (weftOf_putWeft_same _ _ _)
  refine ⟨w, hw, ?_, ?_, ?_⟩
  · rw [hsame]
    simp only [weftOf_putWeft_same, hreplay, List.nil_append]
  · rw [hsame]
    simp only [weftOf_putWeft_same]
  · refine (congrArg (weftOf · (1 - m)) (hw.symm.trans heff)).trans ?_
    simp only [sendTxn, sendFlit, weftOf_putWeft_other _ _ _ _ hne]

end

/-! ## Records (R346, R357) -/

section
variable {s : State}

/-- What the events of an lc leave in the books when no counter is selected. -/
def ticked (lc : Nat) (evs : List (Nat × Option Nat × Nat)) (was : Sparse Counter) (s : State) : State :=
  { s with loom := { s.loom with tallyLc := lc, tallyEvs := evs, tallyWas := was } }

/-- The same, with the front entry out of the admission stage. -/
def answered (rest : List Fetched) (lc : Nat) (evs : List (Nat × Option Nat × Nat)) (was : Sparse Counter) (s : State) : State :=
  { s with loom := { s.loom with
    fetched := rest, answeredAt := some s.clocks.lc, tallyLc := lc, tallyEvs := evs, tallyWas := was } }

theorem ticked_frontTaken (rest : List Fetched) (lc : Nat) (evs : List (Nat × Option Nat × Nat)) (was : Sparse Counter) :
    ticked lc evs was (frontTaken rest s) = answered rest lc evs was s := rfl

/-- A record goes to the completion ring of its tenant, where that is enabled. -/
def recorded (r : Rec) (s : State) : State :=
  let n := 4 * r.tenant + 1
  if (ringOf s n).en then writeEntry n false (recordBytes r (nowOf s)) (putRing n { ringOf s n with resv := (ringOf s n).resv - 1 } s)
  else s

theorem writeRecord_ticks (r : Rec) (h : s.loom.tallySel = []) : ∃ lc evs was,
    writeRecord r s = recorded r (ticked lc evs was s) := by
  obtain ⟨lc, evs, was, hfirst⟩ := loomTally_unselected 0x45 (some r.tenant) (if r.code = 0x30 then 1 else 0) h
  obtain ⟨lc', evs', was', hnext⟩ := loomTally_unselected 0x44 (some r.tenant) (if r.code = 2 || r.flags % 2 = 1 then 1 else 0)
    (s := ticked lc evs was s) h
  refine ⟨lc', evs', was', ?_⟩
  unfold writeRecord
  rw [hfirst]
  exact congrArg (recorded r) hnext

theorem answerNow_ticks (r : Rec) (h : s.loom.tallySel = []) : ∃ lc evs was,
    answerNow r s = recorded r (ticked lc evs was s) := by
  unfold answerNow
  split
  · rename_i src _
    obtain ⟨lc, evs, was, hcount⟩ := loomTally_unselected src (some r.tenant) 1 h
    obtain ⟨lc', evs', was', hrec⟩ := writeRecord_ticks (s := ticked lc evs was s) r h
    exact ⟨lc', evs', was', (congrArg (writeRecord r) hcount).trans hrec⟩
  · exact writeRecord_ticks r h

theorem recorded_off {r : Rec} (h : (ringOf s (4 * r.tenant + 1)).en = false) : recorded r s = s := if_neg (by simp [h])

/-- The entry of a record, as it is written at TAIL of its ring. -/
def recordTxn (s : State) (r : Rec) : DevTxn :=
  let n := 4 * r.tenant + 1
  let q := ringOf s n
  { kind := .write, addr := entryAddr q q.tail, len := 64, tag := 0, tenant := r.tenant, what := .record n q.tail.toNat
    data := recordBytes r s.loom.now.toNat (ringPhase q q.tail) }

/-- A record takes one entry of its ring and leaves on an idle module; no notify follows where NOTIFY is 0. -/
theorem recorded_sent {r : Rec} (hen : (ringOf s (4 * r.tenant + 1)).en = true) (hnotify : (ringOf s (4 * r.tenant + 1)).notify = false)
    (hidle : WeftIdle s (r.tenant % 2)) : ∃ w rs, recorded r s = { s with weft := w, loom := { s.loom with rings := rs } }
      ∧ sget .init rs (4 * r.tenant + 1) = { ringOf s (4 * r.tenant + 1) with
          tail := (ringOf s (4 * r.tenant + 1)).tail + 1, resv := (ringOf s (4 * r.tenant + 1)).resv - 1 }
      ∧ Sent s { s with weft := w } (r.tenant % 2) (recordTxn s r) := by
  have htenant : (4 * r.tenant + 1) / 4 = r.tenant := by omega
  generalize hn : 4 * r.tenant + 1 = n at *
  generalize hs1 : putRing n { ringOf s n with resv := (ringOf s n).resv - 1 } s = s1
  have hring : ringOf s1 n = { ringOf s n with resv := (ringOf s n).resv - 1 } := by rw [← hs1, ringOf_putRing_same]
  obtain ⟨w, hw, hsent⟩ := enqueue_idle (s := s1) (x := recordTxn s r) (.inl rfl) (by rw [← hs1]; exact hidle)
  have heff : recorded r s = putRing n { ringOf s1 n with tail := (ringOf s1 n).tail + 1 } { s1 with weft := w } := by
    have hquiet : (ringOf s1 n).notify = false := by rw [hring, ← hnotify]
    unfold recorded
    simp only [hn]
    rw [if_pos hen, hs1, writeEntry]
    simp only [hquiet, Bool.false_eq_true, if_false]
    rw [← hw, recordTxn, hn, hring, htenant]
    rfl
  subst hs1
  refine ⟨w, _, heff, ?_, hsent⟩
  rw [hring]
  exact sget_sput_same _ _ _ _

end

/-! ## Fetches (R353) -/

/-- A fetch asks for entries of the next ring, and changes nothing else but what the modules hold. -/
theorem fetchEffect_asks {s : State} {n want : Nat} (hnext : nextRing s = some n) (hcount : 0 < fetchCount s n want) : ∃ w,
    fetchEffect want s = { s with
      weft := w
      loom := { s.loom with
        nextTag := (s.loom.nextTag + 1) % 4096, rr := n
        reads := s.loom.reads ++ [{ tag := s.loom.nextTag, mod := moduleFor s (n / 4), tenant := n / 4, what := .ring n (fetchCount s n want)
                                    addr := entryAddr (ringOf s n) (ringOf s n).head, len := 64 * fetchCount s n want, got := none }] } } := by
  unfold fetchEffect
  rw [hnext]
  simp only [hcount.ne', if_false]
  exact enqueue_frame _ _

/-! ## The answer of a RUN (R354, R355) -/

section
variable {s : State} {f : Fetched}

/-- The job that an admitted RUN enters. -/
def runJob (f : Fetched) (occ : List Nat) (promise : Nat) : Job :=
  { order := f.order, tenant := f.ring / 4, kind := .run, esc := f.esc, draft := entDraft f.bytes, passes := entPasses f.bytes, ran := 0
    tag := entTag f.bytes, subidx := f.index, promise := promise, binds := entBinds f.bytes, resAt := entRow f.bytes, result := []
    booked := occ, recordAt := 0, ending := none, cut := false, silent := false, ended := none
    poisoned := false, degraded := false, breached := false, ckpt := none }

/-- The job and its bookings have entered. -/
def entered (f : Fetched) (occ : List Nat) (promise : Nat) (s : State) : State :=
  { s with loom := { s.loom with
    jobs := s.loom.jobs ++ [runJob f occ promise], bookings := s.loom.bookings ++ occ.map (fun x => (entDraft f.bytes, x)) } }

theorem admitRun_enters (f : Fetched) (occ : List Nat) (promise : Nat) (h : s.loom.tallySel = []) : ∃ lc evs was,
    admitRun f occ promise s = ticked lc evs was (entered f occ promise s) := by
  obtain ⟨lc, evs, was, hfirst⟩ := loomTally_unselected 0x40 (some (f.ring / 4)) 1 (s := entered f occ promise s) h
  obtain ⟨lc', evs', was', hnext⟩ := loomTally_unselected 0x58 (some (f.ring / 4)) (if f.esc then 1 else 0)
    (s := ticked lc evs was (entered f occ promise s)) h
  refine ⟨lc', evs', was', ?_⟩
  calc admitRun f occ promise s
      = loomTally 0x58 (some (f.ring / 4)) (if f.esc then 1 else 0) (loomTally 0x40 (some (f.ring / 4)) 1 (entered f occ promise s)) := rfl
    _ = loomTally 0x58 (some (f.ring / 4)) (if f.esc then 1 else 0) (ticked lc evs was (entered f occ promise s)) := by
      rw [hfirst]
      rfl
    _ = ticked lc' evs' was' (entered f occ promise s) := hnext

/-- The occurrences that a RUN takes from this lc on, and the lc in which its record is due. -/
def runOccurrences (s : State) (f : Fetched) : List Nat :=
  occurrences s (entDraft f.bytes) (lcOf s + 64) (entPasses f.bytes)
def runPromise (s : State) (f : Fetched) : Nat :=
  promiseAt s (lcOf s) ((runOccurrences s f).getLast?.getD 0 + (residentPass s (entDraft f.bytes)).getD 0 + 16)

theorem answerRun_admits (hgood : runRefusal s (f.ring / 4) f.bytes = none) (hopen : entDeadline f.bytes = none) :
    answerRun f s = (0, admitRun f (runOccurrences s f) (runPromise s f) s) := by
  unfold answerRun
  simp only [hgood, hopen]
  rfl

theorem answerRun_refused {code : Nat} (h : runRefusal s (f.ring / 4) f.bytes = some code) :
    answerRun f s = (code, answerNow (entRecord f code (entDraft f.bytes) 0 []) s) := by
  unfold answerRun
  simp only [h]

theorem runRefusal_blocked {t : Nat} (b : List Byte) (h : (tenantOf s t).blocked = true) : runRefusal s t b = some 0x15 := if_pos h

/-- An admitted RUN enters its job and its bookings, and its answer is owed where it is an escalation's. -/
theorem runFront_admits (hgood : runRefusal s (f.ring / 4) f.bytes = none) (hopen : entDeadline f.bytes = none)
    (hsel : s.loom.tallySel = []) : ∃ lc evs was, runFront f s = { s with
      esc := { s.esc with answerDue := if f.esc then some 0 else s.esc.answerDue }
      loom := { s.loom with
        jobs := s.loom.jobs ++ [runJob f (runOccurrences s f) (runPromise s f)]
        bookings := s.loom.bookings ++ (runOccurrences s f).map (fun x => (entDraft f.bytes, x))
        tallyLc := lc, tallyEvs := evs, tallyWas := was } } := by
  obtain ⟨lc, evs, was, hadmit⟩ := admitRun_enters f (runOccurrences s f) (runPromise s f) hsel
  refine ⟨lc, evs, was, ?_⟩
  cases hesc : f.esc with
  | true =>
    rw [runFront_escalated hesc, answerRun_admits hgood hopen, hadmit]
    rfl
  | false =>
    rw [runFront_unescalated hesc, answerRun_admits hgood hopen, hadmit]
    rfl

end

/-! ## Sequences (R318 to R320, R324) -/

section
variable {s : State} {f : Fetched}

/-- The descriptor that a SEQ_OPEN names. -/
def openDesc (f : Fetched) : BitVec 41 := BitVec.ofNat 41 (leAt f.bytes 32 8)

/-- A sequence as SEQ_OPEN leaves it. -/
def openedSeq (s : State) (f : Fetched) : Seq :=
  { st := .opened, tenant := f.ring / 4, desc := openDesc f, reels := (openReels s).take (reelsNeeded (openDesc f)), lanes := []
    poisoned := false }

theorem answerOpen_opens {q : Nat} (hgood : seqRefusal s (f.ring / 4) f.bytes = none) (hkf : kfGood (descKf (openDesc f)) = true)
    (hsinks : 2 * descSinks (openDesc f) ≤ descW (openDesc f)) (hfree : freeSeqId s = some q)
    (hreels : reelsNeeded (openDesc f) ≤ (openReels s).length) : answerOpen f s = answerNow (entRecord f 0 q 0 [BitVec.ofNat 8 q])
      (putSeq q (openedSeq s f) (clearMetaUps q (leaveReels (openedSeq s f).reels s))) := by
  have hdesc : ¬ (!kfGood (descKf (openDesc f)) || decide (descW (openDesc f) < 2 * descSinks (openDesc f))) = true := by
    simp [hkf, hsinks]
  have htaken : ¬ ((openReels s).take (reelsNeeded (openDesc f))).length < reelsNeeded (openDesc f) := by
    rw [List.length_take]
    omega
  unfold answerOpen
  simp only [hgood]
  refine (if_neg hdesc).trans ?_
  rw [hfree]
  exact if_neg htaken

/-- Reels that an open takes leave every sequence. -/
theorem seqOf_leaveReels (rs : List Nat) (k : Nat) :
    seqOf (leaveReels rs s) k = { seqOf s k with reels := (seqOf s k).reels.filter (fun r => !rs.contains r) } :=
  sget_mapped (fun _ (x : Seq) => { x with reels := x.reels.filter (fun r => !rs.contains r) }) (fun _ => rfl) (fun _ => rfl) _ _

/-- The sequence table once a sequence is open. -/
def openSeqs (s : State) (f : Fetched) (q : Nat) : Sparse Seq :=
  sput .init (leaveReels (openedSeq s f).reels s).loom.seqs q (openedSeq s f)

theorem sget_openSeqs_same {q : Nat} : sget .init (openSeqs s f q) q = openedSeq s f := sget_sput_same _ _ _ _

theorem sget_openSeqs_other {q k : Nat} (h : k ≠ q) : sget .init (openSeqs s f q) k =
    { seqOf s k with reels := (seqOf s k).reels.filter (fun r => !(openedSeq s f).reels.contains r) } :=
  (sget_sput_other _ _ _ h.symm).trans (seqOf_leaveReels _ k)

/-- A sequence is open: its entry stands in the table, and its metadata is clear of upsets. -/
def seqOpened (s : State) (f : Fetched) (q : Nat) : State :=
  { s with loom := { s.loom with seqs := openSeqs s f q, kvUp := (clearMetaUps q s).loom.kvUp } }

theorem putSeq_opened (q : Nat) :
    putSeq q (openedSeq s f) (clearMetaUps q (leaveReels (openedSeq s f).reels s)) = seqOpened s f q := by
  dsimp only [seqOpened, putSeq, clearMetaUps, leaveReels, onLoom, openSeqs]

/-- The state in which a SEQ_OPEN that writes no record is answered. -/
theorem ticked_seqOpened (rest : List Fetched) (q lc : Nat) (evs : List (Nat × Option Nat × Nat)) (was : Sparse Counter) :
    ticked lc evs was (seqOpened (frontTaken rest s) f q) = { s with loom := { s.loom with
      seqs := openSeqs s f q, kvUp := (clearMetaUps q s).loom.kvUp, fetched := rest, answeredAt := some s.clocks.lc
      tallyLc := lc, tallyEvs := evs, tallyWas := was } } := by
  have hseqs : openSeqs (frontTaken rest s) f q = openSeqs s f q := rfl
  have hups : (clearMetaUps q (frontTaken rest s)).loom.kvUp = (clearMetaUps q s).loom.kvUp := rfl
  rw [seqOpened, hseqs, hups]
  dsimp only [ticked, frontTaken]

/-- What a SEQ_CLOSE leaves owed, and the sequence closing. -/
def seqClosing (s : State) (f : Fetched) : State :=
  { s with loom := { s.loom with
    seqs := sput .init s.loom.seqs (leAt f.bytes 32 1) { seqOf s (leAt f.bytes 32 1) with st := .closing }
    closes := s.loom.closes ++ [{ seq := leAt f.bytes 32 1, tenant := f.ring / 4, tag := entTag f.bytes, subidx := f.index }] } }

theorem answerClose_closes (hgood : seqRefusal s (f.ring / 4) f.bytes = none)
    (hbind : badBind s (f.ring / 4) (leAt f.bytes 32 1) = false) : answerClose f s = returnSeqs (seqClosing s f) := by
  unfold answerClose
  simp only [hgood]
  exact if_neg (by simp [hbind])

/-- A sequence that was closing is returning. -/
def Seq.closed (x : Seq) : Seq := if x.st = .closing then { x with st := .returning } else x

/-- With no job admitted, every closing sequence is returning at once. -/
theorem returnSeqs_unbound (hjobs : s.loom.jobs = []) :
    returnSeqs s = onLoom (fun l => { l with seqs := l.seqs.map (fun e => (e.1, e.2.closed)) }) s := by
  have hunbound : ∀ k, bindsSeq s k = false := fun k => by simp [bindsSeq, hjobs]
  have hmap : ∀ e : Nat × Seq, (if e.2.st = .closing && !bindsSeq s e.1 then (e.1, { e.2 with st := .returning }) else e) =
      (e.1, e.2.closed) := by
    intro e
    rw [hunbound, Seq.closed]
    by_cases h : e.2.st = .closing <;> simp [h]
  simp only [returnSeqs, hmap]

/-- The sequence table once the sequence of a SEQ_CLOSE that no job binds is returning. -/
def closeSeqs (s : State) (f : Fetched) : Sparse Seq := (seqClosing s f).loom.seqs.map (fun e => (e.1, e.2.closed))

theorem sget_closeSeqs : (sget .init (closeSeqs s f) (leAt f.bytes 32 1)).st = .returning := by
  have hmap := sget_mapped (d := Seq.init) (fun _ => Seq.closed) (g := fun e => (e.1, e.2.closed)) (fun _ => rfl) (fun _ => rfl)
    (seqClosing s f).loom.seqs (leAt f.bytes 32 1)
  have hclosing : sget Seq.init (seqClosing s f).loom.seqs (leAt f.bytes 32 1) = { seqOf s (leAt f.bytes 32 1) with st := .closing } := by
    rw [seqClosing, sget_sput_same]
  rw [closeSeqs, hmap, hclosing]
  rfl

/-- The state in which a SEQ_CLOSE of an unbound sequence is answered. -/
theorem answerClose_frontTaken (rest : List Fetched) (hgood : seqRefusal s (f.ring / 4) f.bytes = none)
    (hbind : badBind s (f.ring / 4) (leAt f.bytes 32 1) = false) (hjobs : s.loom.jobs = []) : answerClose f (frontTaken rest s) =
      { s with loom := { s.loom with
        seqs := closeSeqs s f, fetched := rest, answeredAt := some s.clocks.lc
        closes := s.loom.closes ++ [{ seq := leAt f.bytes 32 1, tenant := f.ring / 4, tag := entTag f.bytes, subidx := f.index }] } } := by
  have hseqs : (seqClosing (frontTaken rest s) f).loom.seqs = (seqClosing s f).loom.seqs := rfl
  rw [answerClose_closes (s := frontTaken rest s) hgood hbind, returnSeqs_unbound (s := seqClosing (frontTaken rest s) f) hjobs]
  dsimp only [onLoom]
  rw [hseqs]
  rfl

end

/-! ## Records that are due (R357) -/

section
variable {s : State} {j : Job}

theorem endWell_only (hjobs : s.loom.jobs = [j]) (hended : j.ended.isSome = true ∨ movesDone j = true) (hdue : j.recordAt ≤ s.clocks.lc)
    (hout : s.loom.bobbin.out = []) : (endWell s).loom.jobs = [{ j with ended := some (j.ended.getD 0) }] := by
  have hleft : outboundLeft s j.order = false := by simp [outboundLeft, hout]
  have hlc : lcOf s = s.clocks.lc := rfl
  simp only [endWell, onJobs, onLoom_at, hjobs, List.map_cons, List.map_nil, hleft, hlc, hdue, decide_true, Bool.and_true, Bool.not_false]
  rcases hend : j.ended with _ | c
  · have hmoved : movesDone j = true := hended.resolve_left (by simp [hend])
    simp [hmoved]
  · simp only [Option.isNone_some, Bool.false_and, Bool.false_eq_true, if_false, Option.getD_some]
    rw [← hend]

theorem dueJob_only (hjobs : s.loom.jobs = [j]) (hended : j.ended.isSome = true) (hdue : j.recordAt ≤ s.clocks.lc) :
    dueJob s = some j := by
  have hlc : lcOf s = s.clocks.lc := rfl
  simp [dueJob, hjobs, hended, hdue, hlc]

theorem recordEffect_issues {j' : Job} (hreach : loomReachable s.pwr = true) (hdue : dueJob (endWell s) = some j') :
    recordEffect s = issueJob j' s := by
  unfold recordEffect
  rw [hreach, hdue]
  rfl

theorem dropJob_only (hjobs : s.loom.jobs = [j]) (hseqs : s.loom.seqs = []) :
    dropJob j.order s = { s with loom := { s.loom with jobs := [] } } := by
  have hdrop : onJobs (fun js => js.filter (fun i => i.order != j.order)) s = { s with loom := { s.loom with jobs := [] } } := by
    simp [onJobs, onLoom, hjobs]
  rw [dropJob, hdrop]
  exact returnSeqs_none hseqs

end

/-- Settles O56: a fetch by its read, each answer by what the admission stage does with the front entry, a record by its job's end. -/
theorem admission : Obligations.Admission := by
  unfold Obligations.Admission
  refine ⟨?_, ?_, ?_, ?_, ?_, ?_, ?_⟩
  · intro s k n hlive hnext hcount
    obtain ⟨w, hw⟩ := fetchEffect_asks hnext hcount
    exact .of_fin hlive (congrArg (fin s) hw) ⟨rfl, rfl, rfl, rfl⟩
  · intro s f rest hfront htakes hgood hopen hsel
    obtain ⟨⟨hlive, hreach⟩, hfetched, hans⟩ := hfront
    have hrun := answerFront_takes runFront hfetched htakes hans hreach
    obtain ⟨lc, evs, was, hadmit⟩ := runFront_admits (s := frontTaken rest s) hgood hopen hsel
    refine .of_fin hlive (congrArg (fin s) (hrun.trans hadmit)) ⟨?_, ?_, ?_, rfl⟩
    · exact congrArg _ List.drop_left
    · exact congrArg (Option.map Job.promise) (List.getLast?_concat (l := s.loom.jobs) (a := runJob f (runOccurrences s f) (runPromise s f)))
    · exact fun x hx => List.mem_append_right _ (List.mem_map_of_mem hx)
  · intro s f rest q hfront hring hesc hop hgood hkf hsinks hfree hreels hsel hoff
    obtain ⟨⟨hlive, hreach⟩, hfetched, hans⟩ := hfront
    have hopened := (answerFront_takes answerOpen (p := fun f => isSubmit f && !f.esc && entOp f.bytes == 2) hfetched
      (by simp [isSubmit, hring, hesc, hop]) hans hreach).trans (answerOpen_opens (s := frontTaken rest s) hgood hkf hsinks hfree hreels)
    have hrings : 4 * (f.ring / 4) + 1 = f.ring + 1 := by omega
    rw [← hrings] at hoff
    rw [putSeq_opened] at hopened
    obtain ⟨lc, evs, was, hrec⟩ := answerNow_ticks (s := seqOpened (frontTaken rest s) f q) (entRecord f 0 q 0 [BitVec.ofNat 8 q]) hsel
    have hquiet := hrec.trans (recorded_off (r := entRecord f 0 q 0 [BitVec.ofNat 8 q]) hoff)
    rw [ticked_seqOpened] at hquiet
    refine .of_fin hlive (congrArg (fin s) (hopened.trans hquiet)) ⟨?_, fun k _ hk => ?_, fun e he => ?_, rfl⟩
    · exact sget_openSeqs_same (s := s)
    · refine (sget_openSeqs_other (s := s) hk).trans ?_
      exact congrArg (fun rs => { seqOf s k with reels := (seqOf s k).reels.filter (fun r => !rs.contains r) })
        (congrArg Seq.reels (sget_openSeqs_same (s := s))).symm
    · exact (List.mem_filter.1 he).1
  · intro s f rest hfront hring hesc hop hgood hbind hjobs
    obtain ⟨⟨hlive, hreach⟩, hfetched, hans⟩ := hfront
    have hclosed := (answerFront_takes answerClose (p := fun f => isSubmit f && !f.esc && entOp f.bytes == 3) hfetched
      (by simp [isSubmit, hring, hesc, hop]) hans hreach).trans (answerClose_frontTaken rest hgood hbind hjobs)
    exact .of_fin hlive (congrArg (fin s) hclosed) ⟨sget_closeSeqs, rfl, rfl⟩
  · intro s f rest hfront hring hlt hesc hop hres hblocked hen hnotify hidle hsel
    obtain ⟨⟨hlive, hreach⟩, hfetched, hans⟩ := hfront
    have hrings : f.ring + 1 = 4 * (f.ring / 4) + 1 := by omega
    rw [hrings] at hen hnotify ⊢
    have hnop := answerFront_takes answerNop (p := fun f => isSubmit f && !f.esc && entOp f.bytes == 0) hfetched
      (by simp [isSubmit, hring, hesc, hop]) hans hreach
    have hcode : answerNop f (frontTaken rest s) = answerNow (entRecord f 0 (entDraft f.bytes) 0 []) (frontTaken rest s) := by
      have hfree : (tenantOf (frontTaken rest s) (f.ring / 4)).blocked = false := hblocked
      simp [answerNop, hfree, hres]
    obtain ⟨lc, evs, was, hrec⟩ := answerNow_ticks (s := frontTaken rest s) (entRecord f 0 (entDraft f.bytes) 0 []) hsel
    rw [ticked_frontTaken] at hrec
    obtain ⟨w, rs, hsent, hring', hout⟩ := recorded_sent (s := answered rest lc evs was s)
      (r := entRecord f 0 (entDraft f.bytes) 0 []) hen hnotify hidle
    exact .of_fin hlive (congrArg (fin s) ((hnop.trans hcode).trans (hrec.trans hsent))) ⟨hring', hout, rfl⟩
  · intro s f rest hfront htakes hesc hblocked hoff hsel
    obtain ⟨⟨hlive, hreach⟩, hfetched, hans⟩ := hfront
    have hrun := (answerFront_takes runFront hfetched htakes hans hreach).trans (runFront_unescalated hesc _)
    rw [answerRun_refused (runRefusal_blocked (s := frontTaken rest s) f.bytes hblocked)] at hrun
    obtain ⟨lc, evs, was, hrec⟩ := answerNow_ticks (s := frontTaken rest s) (entRecord f 0x15 (entDraft f.bytes) 0 []) hsel
    have hrings : 4 * (f.ring / 4) + 1 = f.ring + 1 := by
      have hsubmit : isSubmit f = true := (Bool.and_eq_true _ _ ▸ htakes).1
      have : f.ring % 4 = 0 := by simpa [isSubmit] using hsubmit
      omega
    have hquiet := hrec.trans (recorded_off (by
      show (ringOf s (4 * (f.ring / 4) + 1)).en = false
      rw [hrings, hoff]))
    exact .of_fin hlive (congrArg (fin s) (hrun.trans hquiet)) rfl
  · intro s j hreached hjobs hended hdue hout htenant hen hnotify hidle hsel hseqs
    obtain ⟨hlive, hreach⟩ := hreached
    have hjob := dueJob_only (s := endWell s) (endWell_only hjobs hended hdue hout) rfl hdue
    obtain ⟨lc, evs, was, hrec⟩ := writeRecord_ticks (s := s) (jobRecord { j with ended := some (j.ended.getD 0) } (nowOf s)) hsel
    obtain ⟨w, rs, hsent, hring, hout⟩ := recorded_sent (s := ticked lc evs was s)
      (r := jobRecord { j with ended := some (j.ended.getD 0) } (nowOf s)) hen hnotify hidle
    have hissued := (recordEffect_issues hreach hjob).trans (congrArg (dropJob j.order) (hrec.trans hsent))
    have hdrop := hissued.trans (dropJob_only (j := j) hjobs hseqs)
    exact .of_fin hlive (congrArg (fin s) hdrop) ⟨rfl, hring, hout, rfl⟩

end Sys2Proof.Machine
end

