-- ==== Sys2Proof/Proofs/WarpTraining.lean ====
section
/-!
PROOF. Training of a warp module (R379 to R381), its failures and their retry (R396), and a lost contact (R399).
-/

namespace Sys2Proof.Machine

/-! ## L_WARP_CTRL (R379) -/

/-- A module once TRAIN is written: one that is off or whose TRAIN stays is left alone, and a locked one keeps its phase. -/
def trained (d : DWord) (s : State) (m : Nat) : WarpModule :=
  if isPowered s (2 + m) = false ∨ (warpOf s m).train = d.getLsbD m then warpOf s m
  else { warpOf s m with train := d.getLsbD m
                         phase := if (warpOf s m).locked then (warpOf s m).phase else if d.getLsbD m then 1 else 0 }

/-- What a write of L_WARP_CTRL asks of one module. -/
def trainModule (d : DWord) (s : State) (m : Nat) : State :=
  let w := warpOf s m
  let b := bitOf d.toNat m
  if !isPowered s (2 + m) || w.train == b then s
  else if b then putWarp m { w with train := true, phase := if w.locked then w.phase else 1 } s
  else putWarp m { w with train := false, phase := if w.locked then w.phase else 0 } s

section
variable {d : DWord} {s : State} {m : Nat}

theorem trainModule_kept (h : isPowered s (2 + m) = false ∨ (warpOf s m).train = d.getLsbD m) : trainModule d s m = s := by
  unfold trainModule
  rw [bitOf_toNat]
  obtain hoff | hsame := h
  · simp [hoff]
  · simp [hsame]

theorem trainModule_changed (h : ¬ (isPowered s (2 + m) = false ∨ (warpOf s m).train = d.getLsbD m)) :
    trainModule d s m = putWarp m (trained d s m) s := by
  rw [trained, if_neg h]
  unfold trainModule
  rw [bitOf_toNat]
  obtain ⟨hon, hchange⟩ := not_or.1 h
  rw [Bool.not_eq_false] at hon
  cases hbit : d.getLsbD m with
  | true =>
    rw [hbit] at hchange
    simp [hon, hchange]
  | false =>
    rw [hbit] at hchange
    simp [hon, hchange]

theorem trainModule_frame : ∃ w, trainModule d s m = { s with warp := w } ∧ sget .init w m = trained d s m
    ∧ ∀ k, k ≠ m → sget .init w k = warpOf s k := by
  by_cases h : isPowered s (2 + m) = false ∨ (warpOf s m).train = d.getLsbD m
  · exact ⟨s.warp, trainModule_kept h, (if_pos h).symm, fun _ _ => rfl⟩
  · exact ⟨_, trainModule_changed h, sget_sput_same _ _ _ _, fun k hk => sget_sput_other _ _ _ hk.symm⟩

/-- The modules of a list are each trained as the word says. -/
theorem foldl_trainModule {ks : List Nat} (hks : ks.Nodup) : ∃ w, ks.foldl (trainModule d) s = { s with warp := w }
    ∧ ∀ k, sget .init w k = if k ∈ ks then trained d s k else warpOf s k := by
  induction ks generalizing s with
  | nil => exact ⟨s.warp, rfl, fun k => (if_neg List.not_mem_nil).symm⟩
  | cons m ks ih =>
    obtain ⟨hm, hks⟩ := List.nodup_cons.1 hks
    obtain ⟨w, hstep, hsame, hother⟩ := trainModule_frame (d := d) (s := s) (m := m)
    obtain ⟨w', hfold, hget⟩ := ih (s := { s with warp := w }) hks
    refine ⟨w', by rw [List.foldl_cons, hstep, hfold], fun k => (hget k).trans ?_⟩
    by_cases hk : k = m
    · subst hk
      rw [if_neg hm, if_pos List.mem_cons_self]
      exact hsame
    · have hwarp : warpOf { s with warp := w } k = warpOf s k := hother k hk
      have htrained : trained d { s with warp := w } k = trained d s k := by
        unfold trained
        rw [hwarp]
        rfl
      rw [htrained, hwarp]
      simp [hk]

end

/-! ## The phases (R379 to R381, R390) -/

section
variable {s : State} {m : Nat} {o : WarpOutcome}

/-- A command whose whole effect is on one warp module. -/
theorem Answers.of_putWarp {c : Instr} {v : WarpModule} (hlive : Live s) (h : exec c s = fin s (putWarp m v s)) : Answers c s (fun t =>
      warpOf t m = v ∧ (∀ k < 4, k ≠ m → warpOf t k = warpOf s k) ∧ t = { s with warp := t.warp, seen := t.seen }) :=
  .of_fin hlive h ⟨sget_sput_same _ _ _ _, fun _ _ hk => sget_sput_other _ _ _ hk.symm, rfl⟩

/-- A module in training: it is on, TRAIN is 1, and the latency is not locked. -/
structure Training (s : State) (m : Nat) : Prop where
  powered : isPowered s (2 + m) = true
  train : (warpOf s m).train = true
  unlocked : (warpOf s m).locked = false

/-- The latency that a round trip gives (R380). -/
theorem ceilDiv_two (n : Nat) : ceilDiv n 2 = (n + 1) / 2 := rfl

/-- A failure's code, and training back at its start. -/
def WarpModule.failed (w : WarpModule) (code : BitVec 4) : WarpModule := { w with fail := code, phase := 0, credits := 0 }

theorem failTraining_eq (code : BitVec 4) : failTraining m code s = putWarp m ((warpOf s m).failed code) s := rfl

theorem Training.not_out (h : Training s m) : ¬ (!isPowered s (2 + m) || !(warpOf s m).train || (warpOf s m).locked) = true := by
  simp [h.powered, h.train, h.unlocked]

theorem Training.phase1 (h : Training s m) (hphase : (warpOf s m).phase = 1) : warpPhaseEnd m o s = putWarp m (if o.completed then
    { warpOf s m with phase := 2, rate := o.rate, reversed := o.reversed, credits := 64 } else (warpOf s m).failed 1) s := by
  unfold warpPhaseEnd
  dsimp only
  rw [if_neg h.not_out, if_pos hphase]
  split_ifs <;> rfl

/-- The parameters that the partners exchange, tested in the order of their codes. -/
def exchanged (s : State) (m : Nat) (o : WarpOutcome) : WarpModule :=
  if o.partnerPoint ≠ s.loom.clock.current then (warpOf s m).failed 2
  else if goodPartner s m o.partnerPos = false then (warpOf s m).failed 3
  else if o.ident ≠ Config.ident then (warpOf s m).failed 4
  else { warpOf s m with phase := 3 }

theorem Training.phase2 (h : Training s m) (hphase : (warpOf s m).phase = 2) (hdone : o.completed = true) :
    warpPhaseEnd m o s = putWarp m (exchanged s m o) s := by
  unfold warpPhaseEnd exchanged
  dsimp only
  rw [if_neg h.not_out, if_neg (by simp [hphase]), if_pos hphase, hdone]
  simp only [Bool.not_true, Bool.false_eq_true, if_false, Bool.not_eq_true']
  split_ifs <;> rfl

/-- The measured latency, or the failure of its bounds. -/
def measured (s : State) (m : Nat) (o : WarpOutcome) : WarpModule :=
  if 512 < (o.rtMax + 1) / 2 + 3 then (warpOf s m).failed 5
  else if o.rtMin + 4 < o.rtMax then (warpOf s m).failed 6
  else { warpOf s m with phase := 4, lat := BitVec.ofNat 16 ((o.rtMax + 1) / 2 + 3) }

theorem Training.phase3 (h : Training s m) (hphase : (warpOf s m).phase = 3) (hdone : o.completed = true)
    (hruns : mesochronousRuns s = true) :
    warpPhaseEnd m o s = if (o.rtMax + 1) / 2 + 3 < 8 then s else putWarp m (measured s m o) s := by
  unfold warpPhaseEnd measured
  dsimp only
  rw [if_neg h.not_out, if_neg (by simp [hphase]), if_neg (by simp [hphase]), if_pos hphase, hdone, hruns, ceilDiv_two]
  simp only [Bool.not_true, Bool.false_or, decide_eq_true_eq]
  split_ifs <;> rfl

theorem Training.phase4 (h : Training s m) (hphase : (warpOf s m).phase = 4) : warpPhaseEnd m o s = lockWarp m s := by
  unfold warpPhaseEnd
  dsimp only
  rw [if_neg h.not_out, if_neg (by simp [hphase]), if_neg (by simp [hphase]), if_neg (by simp [hphase]), if_pos hphase]

theorem markStale_none (h : s.loom.drafts = []) : markStale s = s := by
  unfold markStale onDrafts
  refine onLoom_of_fixed ?_
  rw [map_of_nil h]

/-- A module whose latency locks. -/
def lockedModule (s : State) (m : Nat) : WarpModule := { warpOf s m with
  phase := 4, locked := true, point := s.loom.clock.current, credits := 0, crcRun := 0, heard := s.clocks.lc, syncOwed := 0
  partnerLocked := false, remembered := none }

/-- A first lock, or one at the latency of before, is told to nobody. -/
theorem lockWarp_quiet (h : ∀ old ∈ (warpOf s m).remembered, old = (warpOf s m).lat) :
    lockWarp m s = markStale (putWarp m (lockedModule s m) s) := by
  rcases hold : (warpOf s m).remembered with _ | old
  · simp only [lockWarp, hold]
    rfl
  · simp only [lockWarp, hold, if_pos (h old hold)]
    rfl

theorem lockWarp_changed {old : BitVec 16} (hold : (warpOf s m).remembered = some old) (hne : old ≠ (warpOf s m).lat) :
    lockWarp m s = (spanningTenants (markStale (putWarp m (lockedModule s m) s)) m).foldl
      (fun s' t => sendEvent t evLatencyChanged m (warpOf s m).lat.toNat [] s')
      (loomTally 0x51 none 1 (markStale (putWarp m (lockedModule s m) s))) := by
  simp only [lockWarp, hold, if_neg hne]
  rfl

theorem spanningTenants_none (h : s.loom.drafts = []) : spanningTenants s m = [] := by
  simp only [spanningTenants, h]
  rfl

/-- With no draft, a lock at another latency than before is told to nobody. -/
theorem lockWarp_undrafted (hdrafts : s.loom.drafts = []) (hsel : s.loom.tallySel = []) : ∃ lc evs was,
    lockWarp m s = ticked lc evs was (putWarp m (lockedModule s m) s) := by
  have hstale : markStale (putWarp m (lockedModule s m) s) = putWarp m (lockedModule s m) s := markStale_none hdrafts
  by_cases hquiet : ∀ old ∈ (warpOf s m).remembered, old = (warpOf s m).lat
  · exact ⟨s.loom.tallyLc, s.loom.tallyEvs, s.loom.tallyWas, (lockWarp_quiet hquiet).trans hstale⟩
  · push Not at hquiet
    obtain ⟨old, hold, hne⟩ := hquiet
    obtain ⟨lc, evs, was, hcount⟩ := loomTally_unselected 0x51 none 1 (s := putWarp m (lockedModule s m) s) hsel
    refine ⟨lc, evs, was, ?_⟩
    rw [lockWarp_changed hold hne, hstale, spanningTenants_none (s := putWarp m (lockedModule s m) s) hdrafts]
    exact hcount

/-! ## Retry and lost contact (R396, R399) -/

theorem warpRetry_again (h : Training s m) (hphase : (warpOf s m).phase = 0) (hfail : (warpOf s m).fail ∈ [1, 5, 6]) :
    warpRetry m s = putWarp m { warpOf s m with phase := 1 } s := by
  have hretries : failRetries (warpOf s m).fail = true := by
    simp only [List.mem_cons, List.not_mem_nil, or_false] at hfail
    obtain h | h | h := hfail <;> rw [h] <;> rfl
  exact if_pos (by simp [h.powered, h.train, h.unlocked, hphase, hretries])

theorem warpRetrainEffect_due {c : WarpRetrainCause} (hpowered : isPowered s (2 + m) = true) (hlocked : (warpOf s m).locked = true)
    (hdue : retrainDue s m c = true) : warpRetrainEffect m c s = linkDown (2 + m) s := if_pos (by simp [hpowered, hlocked, hdue])

theorem warpRetrainEffect_undue {c : WarpRetrainCause} (hdue : retrainDue s m c = false) : warpRetrainEffect m c s = s :=
  if_neg (by simp [hdue])

/-- A module that has lost contact: training starts again where TRAIN is 1, and the lock is remembered. -/
def unlocked (w : WarpModule) : WarpModule := { WarpModule.init with
  train := w.train, rx := w.rx, phase := if w.train then 1 else 0, remembered := some w.lat }

theorem linkDown_warp (hlocked : (warpOf s m).locked = true) (hdrafts : s.loom.drafts = []) :
    linkDown (2 + m) s = { putWarp m (unlocked (warpOf s m)) s with alert := putBit s.alert 11 true } := by
  have hm : ¬ 2 + m < 2 := by omega
  have hreset : resetWarp (2 + m - 2) true s = markStale (putWarp m (unlocked (warpOf s m)) s) := by
    rw [Nat.add_sub_cancel_left, resetWarp, unlocked, hlocked]
    rfl
  have hstale : markStale (putWarp m (unlocked (warpOf s m)) s) = putWarp m (unlocked (warpOf s m)) s := markStale_none hdrafts
  unfold linkDown linkReset
  dsimp only
  rw [if_neg hm, if_neg hm, hreset, hstale]
  rfl

end

/-- Settles O59: L_WARP_CTRL module by module, each phase by its tests, the failures by their retry, lost contact by the link's fall. -/
theorem warpTraining : Obligations.WarpTraining := by
  unfold Obligations.WarpTraining
  refine ⟨?_, ?_, ?_, ?_, ?_, ?_, ?_, ?_⟩
  · intro s d hhost
    obtain ⟨w, hfold, hget⟩ := foldl_trainModule (d := d) (s := s) (ks := span 0 4) (by decide)
    refine .of_fin hhost.1.1 (congrArg (fin s) ((hostPosts_heard none (writeWarpCtrl d) hhost).trans hfold)) ⟨fun m hm => ?_, rfl⟩
    exact (hget m).trans (if_pos (mem_span.2 (by omega)))
  · exact fun s m o hlive hpow htrain hunlocked hphase =>
      .of_putWarp hlive (congrArg (fin s) (Training.phase1 ⟨hpow, htrain, hunlocked⟩ hphase))
  · exact fun s m o hlive hpow htrain hunlocked hphase hdone =>
      .of_putWarp hlive (congrArg (fin s) (Training.phase2 ⟨hpow, htrain, hunlocked⟩ hphase hdone))
  · intro s m o hlive hpow htrain hunlocked hphase hdone hruns
    have hend := Training.phase3 ⟨hpow, htrain, hunlocked⟩ hphase hdone hruns
    by_cases hshort : (o.rtMax + 1) / 2 + 3 < 8
    · rw [if_pos hshort] at hend ⊢
      exact .of_fin hlive (congrArg (fin s) hend) ⟨rfl, fun _ _ _ => rfl, rfl⟩
    · rw [if_neg hshort] at hend ⊢
      exact .of_putWarp hlive (congrArg (fin s) hend)
  · intro s m o hlive hpow htrain hunlocked hphase hdrafts hsel
    obtain ⟨lc, evs, was, hlock⟩ := lockWarp_undrafted (s := s) (m := m.toNat) hdrafts hsel
    exact .of_fin hlive (congrArg (fin s) ((Training.phase4 ⟨hpow, htrain, hunlocked⟩ hphase).trans hlock))
      ⟨sget_sput_same _ _ _ _, fun _ _ hk => sget_sput_other _ _ _ hk.symm, rfl⟩
  · exact fun s m hlive hpow htrain hunlocked hphase hfail =>
      .of_putWarp hlive (congrArg (fin s) (warpRetry_again ⟨hpow, htrain, hunlocked⟩ hphase hfail))
  · intro s m c hlive hpow hlocked hcause _ hdrafts
    have hdue : retrainDue s m.toNat c = true := by
      obtain ⟨rfl, hrun⟩ | rfl | ⟨rfl, hempty⟩ := hcause
      · exact decide_eq_true hrun
      · rfl
      · exact decide_eq_true hempty
    exact .of_fin hlive (congrArg (fin s) ((warpRetrainEffect_due hpow hlocked hdue).trans (linkDown_warp hlocked hdrafts)))
      ⟨sget_sput_same _ _ _ _, fun _ _ hk => sget_sput_other _ _ _ hk.symm, rfl, rfl⟩
  · intro s m c hlive hcause
    have hdue : retrainDue s m.toNat c = false := by
      obtain ⟨rfl, hrun⟩ | ⟨rfl, hheard⟩ := hcause
      · exact decide_eq_false (Nat.not_le.2 hrun)
      · exact decide_eq_false (Nat.not_le.2 hheard)
    exact .of_fin hlive (congrArg (fin s) (warpRetrainEffect_undue hdue)) rfl

end Sys2Proof.Machine
end

