-- ==== Sys2Proof/Proofs/WarpFrames.lean ====
section
/-!
PROOF. Timed frames sent, held and delivered (R375, R377, R378, R380, R382, R387).
-/

namespace Sys2Proof.Machine

/-! ## The check of a frame (R119, R377) -/

theorem crcBit_lt {poly c : Nat} (hpoly : poly < 2 ^ 32) (hc : c < 2 ^ 32) : crcBit poly c < 2 ^ 32 := by
  have hshift : c >>> 1 < 2 ^ 32 := by
    rw [Nat.shiftRight_eq_div_pow]
    omega
  unfold crcBit
  split_ifs
  · exact Nat.xor_lt_two_pow hshift hpoly
  · exact hshift

theorem crcByte_lt {poly c : Nat} (b : Byte) (hpoly : poly < 2 ^ 32) (hc : c < 2 ^ 32) : crcByte poly c b < 2 ^ 32 := by
  have hx : c ^^^ b.toNat < 2 ^ 32 := Nat.xor_lt_two_pow hc (b.isLt.trans (by decide))
  have hbit : ∀ {x}, x < 2 ^ 32 → crcBit poly x < 2 ^ 32 := crcBit_lt hpoly
  exact hbit (hbit (hbit (hbit (hbit (hbit (hbit (hbit hx)))))))

theorem crc32c_lt (bs : List Byte) : crc32c bs < 2 ^ 32 := by
  have hstep : ∀ c < 2 ^ 32, crc32cStep c bs < 2 ^ 32 := by
    induction bs with
    | nil => exact fun c hc => hc
    | cons b bs ih => exact fun c hc => ih _ (crcByte_lt b (by decide) hc)
  exact Nat.xor_lt_two_pow (hstep _ (by decide)) (by decide)

/-- A frame is 76 bytes and their check. -/
theorem frameBytes_eq (s : State) (f : FrameOut) : ∃ body : List Byte, body.length = 76 ∧
    frameBytes s f = body ++ toLe 4 (crc32c body) := by
  refine ⟨_, ?_, rfl⟩
  rcases f.flit with _ | ⟨d, p⟩ <;> simp [length_toLe, length_slice]

theorem frameIntact_frameBytes (s : State) (f : FrameOut) : frameIntact (frameBytes s f) = true := by
  obtain ⟨body, hlen, hbytes⟩ := frameBytes_eq s f
  have hcheck := leAt_toLe body [] hlen (n := 4) (crc32c_lt body)
  rw [List.append_nil] at hcheck
  have htake : (body ++ toLe 4 (crc32c body)).take 76 = body := by rw [← hlen, List.take_left]
  rw [hbytes, frameIntact, hcheck, htake]
  simp [hlen, length_toLe]

/-! ## Sending (R377, R378) -/

section
variable {s : State} {m : Nat}

/-- A frame slot of a locked module sends one frame, which takes the module's place in the lc. -/
theorem sendFrame_sends (hlocked : (warpOf s m).locked = true) (hslot : isFrameSlot s m = true)
    (hfree : s.loom.linkUse.contains (warpKey m, s.clocks.lc) = false) : ∃ w flits, w.sent = frameBytes s (frameOf s m) ∧
      sendFrame m s = putWarp m w { s with loom := { s.loom with
        flits := flits, linkUse := [(warpKey m, s.clocks.lc)] ++ s.loom.linkUse.filter (fun e => decide (s.clocks.lc ≤ e.2)) } } := by
  have hopen : ¬ (!(warpOf s m).locked || !isFrameSlot s m || s.loom.linkUse.contains (warpKey m, lcOf s)) = true := by
    rw [hlocked, hslot, lcOf, hfree]
    simp
  unfold sendFrame
  rw [if_neg hopen]
  exact ⟨_, _, rfl, rfl⟩

/-- The frame that arrives is the last that the module has heard. -/
def heardOn (m slot : Nat) (s : State) : State := modWarp m (fun w => { w with heard := slot }) s

/-- Two changes of a module change no other. -/
theorem modWarp_modWarp (f g : WarpModule → WarpModule) : ∃ w, modWarp m f (modWarp m g s) = { s with warp := w }
    ∧ sget .init w m = f (g (warpOf s m)) ∧ ∀ k, k ≠ m → sget .init w k = warpOf s k := by
  refine ⟨_, rfl, ?_, fun k hk => (sget_sput_other _ _ _ hk.symm).trans (sget_sput_other _ _ _ hk.symm)⟩
  exact (sget_sput_same _ _ _ _).trans (congrArg f (sget_sput_same _ _ _ _))

theorem locked_heardOn (slot : Nat) : (warpOf (heardOn m slot s) m).locked = (warpOf s m).locked := by
  rw [heardOn, modWarp, warpOf_putWarp_same]

/-! ## A frame arrives (R375, R380, R387) -/

theorem frameArrived_due {f : WireFrame} (hlocked : (warpOf s m).locked = true) (hruns : orderingRuns s.pwr = true)
    (hclock : s.loom.clock.relocking = false) (hdue : deliveryLc (warpOf s m) (min f.slot s.clocks.lc) ≤ s.clocks.lc) :
    frameArrived m f s = frameDelivered m f.bytes (heardOn m (min f.slot s.clocks.lc) s) := by
  unfold frameArrived
  dsimp only
  rw [if_neg (by simp [hruns, hclock]), if_pos hlocked]
  exact if_pos hdue

/-- A module that holds a frame until its delivery lc, where the buffer has room (R390). -/
def held (w : WarpModule) (slot : Nat) (b : List Byte) : WarpModule :=
  { w with heard := slot, rx := if 80 * (w.rx.length + 1) ≤ 16384 then w.rx ++ [(slot + w.lat.toNat, b)] else w.rx }

theorem frameArrived_early {f : WireFrame} (hlocked : (warpOf s m).locked = true) (hruns : orderingRuns s.pwr = true)
    (hclock : s.loom.clock.relocking = false) (hearly : s.clocks.lc < deliveryLc (warpOf s m) (min f.slot s.clocks.lc)) : ∃ w,
    frameArrived m f s = { s with warp := w } ∧ sget .init w m = held (warpOf s m) (min f.slot s.clocks.lc) f.bytes
      ∧ ∀ k, k ≠ m → sget .init w k = warpOf s k := by
  have hlc : deliveryLc (warpOf s m) (min f.slot s.clocks.lc) = min f.slot s.clocks.lc + (warpOf s m).lat.toNat := if_pos hlocked
  have hheld : frameArrived m f s = if bufferRoom (warpOf s m) then
        modWarp m (fun w => { w with rx := w.rx ++ [(min f.slot s.clocks.lc + (warpOf s m).lat.toNat, f.bytes)] })
          (heardOn m (min f.slot s.clocks.lc) s)
      else heardOn m (min f.slot s.clocks.lc) s := by
    unfold frameArrived
    dsimp only
    rw [if_neg (by simp [hruns, hclock]), if_pos hlocked]
    refine (if_neg (Nat.not_le.2 hearly)).trans ?_
    rw [← hlc]
    rfl
  rw [hheld, held]
  by_cases hroom : 80 * ((warpOf s m).rx.length + 1) ≤ 16384
  · rw [if_pos (show bufferRoom (warpOf s m) = true from decide_eq_true hroom), if_pos hroom]
    exact modWarp_modWarp (fun w => { w with rx := w.rx ++ [(min f.slot s.clocks.lc + (warpOf s m).lat.toNat, f.bytes)] })
      (fun w => { w with heard := min f.slot s.clocks.lc })
  · rw [if_neg (by simp [bufferRoom, hroom]), if_neg hroom]
    exact ⟨_, rfl, sget_sput_same _ _ _ _, fun k hk => sget_sput_other _ _ _ hk.symm⟩

/-- With the lock lost, a frame is delivered as it comes. -/
theorem frameArrived_unlocked {f : WireFrame} (hunlocked : (warpOf s m).locked = false) (hruns : orderingRuns s.pwr = true)
    (hclock : s.loom.clock.relocking = false) : frameArrived m f s = frameDelivered m f.bytes s := by
  have hdue : deliveryLc (warpOf s m) (min f.slot (lcOf s)) ≤ lcOf s := by
    rw [deliveryLc, hunlocked]
    exact Nat.min_le_right _ _
  unfold frameArrived
  dsimp only
  rw [if_neg (by simp [hruns, hclock]), if_pos hdue, if_neg (by simp [hunlocked])]

/-- Only a locked module holds frames back. -/
theorem locked_of_early {f : WireFrame} (hearly : s.clocks.lc < deliveryLc (warpOf s m) (min f.slot s.clocks.lc)) :
    (warpOf s m).locked = true := by
  cases h : (warpOf s m).locked with
  | true => rfl
  | false =>
    rw [deliveryLc, h] at hearly
    exact absurd hearly (Nat.not_lt.2 (Nat.min_le_right _ _))

theorem frameDelivered_intact {b : List Byte} (hlocked : (warpOf s m).locked = true) (hintact : frameIntact b = true) :
    frameDelivered m b s = intactFrame m b s := by simp [frameDelivered, hlocked, hintact]

theorem frameDelivered_damaged {b : List Byte} (hlocked : (warpOf s m).locked = true) (hintact : frameIntact b = false) :
    frameDelivered m b s = damagedFrame m s := by simp [frameDelivered, hlocked, hintact]

theorem frameDelivered_missing {b : List Byte} (hlocked : (warpOf s m).locked = false) (hintact : frameIntact b = false) :
    frameDelivered m b s = poisonedFlit m s := by simp [frameDelivered, hlocked, hintact]

theorem poisonedFlit_unowned (h : warpOwner s m s.clocks.lc = none) : poisonedFlit m s = s := by
  unfold poisonedFlit lcOf
  rw [h]

theorem poisonedFlit_owned {d : Nat} (h : warpOwner s m s.clocks.lc = some d) :
    poisonedFlit m s = landFlit m (List.replicate 64 0) true (degradePass d (countPoison m s)) := by
  unfold poisonedFlit lcOf
  rw [h]

theorem intactFlit_owned {d : Nat} (data : List Byte) (h : warpOwner s m s.clocks.lc = some d) :
    intactFlit m false data s = landFlit m data false s := by
  unfold intactFlit lcOf
  rw [h]
  rfl

/-- The first flit of an lc enters the receive register of a tile that takes part. -/
theorem receive_first {t key : Nat} (data : List Byte) (poisoned : Bool) (htakes : takesPart s t = true)
    (hrecv : (tileOf s t).recv = []) : receive t key data poisoned s = putTile t { pruneRows s.clocks.lc (tileOf s t) with
      recv := [{ lc := s.clocks.lc, key := key, unit := unitMesh, data := data, poisoned := poisoned }] } s := by
  have hpruned : (pruneRows s.clocks.lc (tileOf s t)).recv = [] := by rw [pruneRows, hrecv, List.filter_nil]
  unfold receive lcOf
  dsimp only
  rw [htakes, hpruned]
  rfl

/-- A pass that is degraded changes in the weave, and its job in the job table. -/
theorem degradePass_frame (d : Nat) : ∃ slots js, degradePass d s =
    { s with loom := { s.loom with weave := { s.loom.weave with slots := slots }, jobs := js } } := by
  unfold degradePass
  split
  · unfold poisonSlot
    dsimp only
    split
    · exact ⟨_, _, rfl⟩
    · exact ⟨_, _, rfl⟩
  · exact ⟨_, _, rfl⟩

/-- The poison counters of a module count one. -/
theorem countPoison_ticks (hsel : s.loom.tallySel = []) : ∃ lc evs was, countPoison m s =
    ticked lc evs was (modWarp m (fun w => { w with poison := satAdd w.poison 1 }) s) :=
  loomTally_unselected 0x50 none 1 hsel

end

/-! ## An intact frame (R377, R382) -/

section
variable {s : State} {m : Nat} {b : List Byte}

/-- The module that has received an intact frame. -/
def intactOn (m : Nat) (locked : Bool) (s : State) : State := modWarp m (fun w => { w with crcRun := 0, partnerLocked := locked }) s

theorem bitOf_mod32 {v : Nat} (h : v % 32 = 1) : bitOf v 0 = true ∧ bitOf v 1 = false ∧ bitOf v 2 = false ∧ bitOf v 3 = false
    ∧ bitOf v 4 = false := by
  refine ⟨bitOf_eq ?_, bitOf_eq ?_, bitOf_eq ?_, bitOf_eq ?_, bitOf_eq ?_⟩
  all_goals
    simp only [Bool.toNat_true, Bool.toNat_false]
    omega

/-- A frame that carries a flit alone. -/
theorem intactFrame_flit (h : leAt b 0 1 % 32 = 1) (hlock : bitOf (leAt b 0 1) 5 = s.loom.chain.locked) :
    intactFrame m b s = intactFlit m false (slice b 12 64) (intactOn m s.loom.chain.locked s) := by
  obtain ⟨h0, h1, h2, h3, h4⟩ := bitOf_mod32 h
  simp only [intactFrame, h0, h1, h2, h3, h4, hlock, Bool.false_eq_true, if_false, if_true, Bool.not_false, Bool.and_true,
    Bool.false_or]
  exact congrArg (fun bad => intactFlit m bad (slice b 12 64) (intactOn m s.loom.chain.locked s)) (Bool.and_not_self _)

/-- A frame that carries a SYNC alone. -/
theorem intactFrame_sync (h : leAt b 0 1 = 0x30) : intactFrame m b s = takeSync m (BitVec.ofNat 3 (leAt b 1 1)) true
    (BitVec.ofNat 64 (leAt b 4 4 + 2 ^ 32 * leAt b 8 4)) (intactOn m true s) := by
  have hpos : BitVec.ofNat 3 (field (leAt b 1 1) 0 3) = BitVec.ofNat 3 (leAt b 1 1) := by
    rw [ofNat_field, pow_zero, Nat.div_one]
  unfold intactFrame
  dsimp only
  rw [h, hpos]
  rfl

/-- With no pass running, the count moves and SYNC is owed downstream. -/
theorem moveCount_still {v : DWord} (hslots : s.loom.weave.slots = []) : ∃ w,
    moveCount v s = { s with warp := w, loom := { s.loom with chain := { s.loom.chain with now := v } } } := by
  simp only [moveCount, hslots, List.filter_nil, List.foldl_nil, List.isEmpty_nil, Bool.not_true, Bool.or_false]
  exact ⟨_, rfl⟩

/-- A SYNC from the die below sets the chain's count and locks (R382). -/
theorem takeSync_locks {pos : BitVec 3} (v : DWord) (hpos : goodPartner s m pos = true) (hbelow : m < 2)
    (hdelay : s.loom.chain.sdelay ≠ 0) (hruns : mesochronousRuns s = true) (hslots : s.loom.weave.slots = []) : ∃ w,
    takeSync m pos true v s = { s with warp := w, loom := { s.loom with chain := { s.loom.chain with
      locked := true, now := v + BitVec.ofNat 64 (warpOf s m).lat.toNat } } } := by
  unfold takeSync
  dsimp only
  have hset : ¬ s.loom.chain.sdelay = 0#10 := hdelay
  rw [if_neg (by simp [hpos]), if_neg (by simp [hbelow, hset, hruns])]
  split_ifs with hnow
  · refine ⟨s.warp, ?_⟩
    rw [hnow]
    rfl
  · obtain ⟨w, hmove⟩ := moveCount_still (v := v + BitVec.ofNat 64 (warpOf s m).lat.toNat) hslots
    refine ⟨w, ?_⟩
    rw [hmove]
    rfl

end

/-- Settles O60: a slot by its frame, an arrival by whether it is due, locked and intact, then by what the frame carries. -/
theorem warpFrames : Obligations.WarpFrames := by
  unfold Obligations.WarpFrames
  refine ⟨?_, ?_, ?_, ?_, ?_, ?_⟩
  · intro s m hlive hlocked hslot hfree
    obtain ⟨w, flits, hsent, hsend⟩ := sendFrame_sends hlocked hslot hfree
    refine .of_fin hlive (congrArg (fin s) hsend) ⟨?_, ?_, ?_, fun _ _ hk => sget_sput_other _ _ _ hk.symm, rfl⟩
    · refine (congrArg (fun w : WarpModule => frameIntact w.sent) (sget_sput_same (d := WarpModule.init) _ _ _)).trans ?_
      rw [hsent]
      exact frameIntact_frameBytes _ _
    · exact (congrArg WarpModule.sent (sget_sput_same (d := WarpModule.init) _ _ _)).trans hsent
    · exact List.contains_iff_mem.2 List.mem_cons_self
  · intro s m f hlive hlocked hruns hclock hdue hintact howner hsel
    obtain ⟨w, hw, hsame, hother⟩ := modWarp_modWarp (s := s) (m := m.toNat)
      (fun w => { w with crc := satAdd w.crc 1, crcRun := w.crcRun + 1 }) (fun w => { w with heard := min f.slot s.clocks.lc })
    obtain ⟨lc, evs, was, hcount⟩ := loomTally_unselected 0x4F none 1 (s := { s with warp := w }) hsel
    have hdamaged : damagedFrame m.toNat (heardOn m.toNat (min f.slot s.clocks.lc) s) = ticked lc evs was { s with warp := w } := by
      rw [damagedFrame, heardOn, hw, hcount]
      exact poisonedFlit_unowned howner
    have harrived := (frameArrived_due hlocked hruns hclock hdue).trans
      ((frameDelivered_damaged ((locked_heardOn _).trans hlocked) hintact).trans hdamaged)
    exact .of_fin hlive (congrArg (fin s) harrived) ⟨hsame, fun k _ hk => hother k hk, rfl⟩
  · intro s m f d hlive hlocked hruns hclock hdue hintact hflit hlock howner htakes hrecv
    obtain ⟨w, hw, hsame, hother⟩ := modWarp_modWarp (s := s) (m := m.toNat)
      (fun w => { w with crcRun := 0, partnerLocked := s.loom.chain.locked }) (fun w => { w with heard := min f.slot s.clocks.lc })
    have hframe : intactFrame m.toNat f.bytes (heardOn m.toNat (min f.slot s.clocks.lc) s) =
        intactFlit m.toNat false (slice f.bytes 12 64) { s with warp := w } := by
      rw [← hw]
      exact intactFrame_flit (s := heardOn m.toNat (min f.slot s.clocks.lc) s) hflit hlock
    have hflown := (intactFlit_owned (s := { s with warp := w }) (slice f.bytes 12 64) howner).trans
      (receive_first (s := { s with warp := w }) _ false htakes hrecv)
    have harrived := (frameArrived_due hlocked hruns hclock hdue).trans
      ((frameDelivered_intact ((locked_heardOn _).trans hlocked) hintact).trans (hframe.trans hflown))
    refine .of_fin hlive (congrArg (fin s) harrived) ⟨?_, fun j _ hj => sget_sput_other _ _ _ hj.symm, hsame, rfl⟩
    exact congrArg Tile.recv (sget_sput_same (d := Tile.init) _ _ _)
  · intro s m f hlive hlocked hruns hclock hdue hintact hsync hbelow hpos hdelay hmeso hslots
    obtain ⟨w, hw, hsame, _⟩ := modWarp_modWarp (s := s) (m := m.toNat)
      (fun w => { w with crcRun := 0, partnerLocked := true }) (fun w => { w with heard := min f.slot s.clocks.lc })
    obtain ⟨w', hlocks⟩ := takeSync_locks (s := { s with warp := w }) (BitVec.ofNat 64 (leAt f.bytes 4 4 + 2 ^ 32 * leAt f.bytes 8 4))
      hpos hbelow hdelay hmeso hslots
    have hframe := intactFrame_sync (s := heardOn m.toNat (min f.slot s.clocks.lc) s) (m := m.toNat) hsync
    rw [show intactOn m.toNat true (heardOn m.toNat (min f.slot s.clocks.lc) s) = { s with warp := w } from hw, hlocks] at hframe
    have hlat : (warpOf { s with warp := w } m.toNat).lat = (warpOf s m.toNat).lat := by
      rw [show warpOf { s with warp := w } m.toNat = _ from hsame]
    have harrived := (frameArrived_due hlocked hruns hclock hdue).trans
      ((frameDelivered_intact ((locked_heardOn _).trans hlocked) hintact).trans hframe)
    rw [hlat] at harrived
    exact .of_fin hlive (congrArg (fin s) harrived) ⟨rfl, rfl⟩
  · intro s m f hlive hruns hclock hearly
    obtain ⟨w, harrived, hsame, hother⟩ := frameArrived_early (locked_of_early hearly) hruns hclock hearly
    exact .of_fin hlive (congrArg (fin s) harrived) ⟨hsame, fun k _ hk => hother k hk, rfl⟩
  · intro s m f d hlive hunlocked hruns hclock hintact howner hsel htakes hrecv
    obtain ⟨lc, evs, was, hcount⟩ := countPoison_ticks (s := s) (m := m.toNat) hsel
    obtain ⟨slots, js, hdegrade⟩ := degradePass_frame (s := ticked lc evs was (modWarp m.toNat (fun w => { w with
      poison := satAdd w.poison 1 }) s)) d
    have hland := receive_first (s := degradePass d (ticked lc evs was (modWarp m.toNat (fun w => { w with
      poison := satAdd w.poison 1 }) s))) (t := warpTile m.toNat) (key := dirCode (warpDir m.toNat)) (List.replicate 64 0) true
      (by rw [hdegrade]; exact htakes) (by rw [hdegrade]; exact hrecv)
    have hpoisoned := poisonedFlit_owned howner
    rw [hcount, landFlit, hland, hdegrade] at hpoisoned
    have harrived := (frameArrived_unlocked hunlocked hruns hclock).trans ((frameDelivered_missing hunlocked hintact).trans hpoisoned)
    refine .of_fin hlive (congrArg (fin s) harrived) ⟨?_, ?_⟩
    · exact congrArg Tile.recv (sget_sput_same (d := Tile.init) _ _ _)
    · exact congrArg WarpModule.poison (sget_sput_same (d := WarpModule.init) _ _ _)

end Sys2Proof.Machine
end

