-- ==== Sys2Proof/Proofs/Bobbin.lean ====
section
/-!
PROOF. What the functions of the bobbin do: reads of an image, admission, moves, and ends (R425, R428 to R432, R435, R436).
-/

namespace Sys2Proof.Machine

/-! ## Reads of an image (R425, R431) -/

/-- A job but for how much of its image it has asked for. -/
def Job.unasked (j : Job) : Job := { j with ckpt := j.ckpt.map (fun c => { c with asked := 0 }) }

/-- What reading ahead leaves alone: it sends reads, and moves how much of an image is asked for. -/
def AskedAhead (s t : State) : Prop := ∃ w rd tag js,
  t = { s with weft := w, loom := { s.loom with reads := rd, nextTag := tag, jobs := js } }
    ∧ js.map Job.unasked = s.loom.jobs.map Job.unasked

section
variable {s t u : State}

theorem AskedAhead.refl (s : State) : AskedAhead s s := ⟨s.weft, s.loom.reads, s.loom.nextTag, s.loom.jobs, rfl, rfl⟩

theorem AskedAhead.trans (h : AskedAhead s t) (k : AskedAhead t u) : AskedAhead s u := by
  obtain ⟨w, rd, tag, js, rfl, hjs⟩ := h
  obtain ⟨w', rd', tag', js', rfl, hjs'⟩ := k
  exact ⟨w', rd', tag', js', rfl, hjs'.trans hjs⟩

/-- What is read of the jobs without what they have asked for stays. -/
theorem AskedAhead.map_jobs {α : Type} (h : AskedAhead s t) {f : Job → α} (hf : ∀ j, f j.unasked = f j) :
    t.loom.jobs.map f = s.loom.jobs.map f := by
  obtain ⟨w, rd, tag, js, rfl, hjs⟩ := h
  have hmap : ∀ l : List Job, l.map f = (l.map Job.unasked).map f := fun l => by
    rw [List.map_map]
    exact List.map_congr_left fun j _ => (hf j).symm
  exact (hmap js).trans ((congrArg (List.map f) hjs).trans (hmap s.loom.jobs).symm)

theorem unasked_ask (o n : Nat) (js : List Job) :
    (js.map (fun j => if j.order = o then { j with ckpt := j.ckpt.map (fun c => { c with asked := c.asked + n }) } else j)).map Job.unasked
      = js.map Job.unasked := by
  rw [List.map_map]
  refine List.map_congr_left fun j _ => ?_
  by_cases h : j.order = o
  · simp [Job.unasked, h, Function.comp_def]
  · simp [h]

theorem askOnce_asks (o : Nat) (s : State) : AskedAhead s (askOnce o s) := by
  unfold askOnce
  split
  · exact .refl s
  · rename_i j _
    split
    · exact .refl s
    · rename_i c _
      dsimp only
      split_ifs
      · exact .refl s
      · obtain ⟨w, hw⟩ := enqueue_frame (modCkpt o _ (onLoom _ s)) _
        rw [hw]
        exact ⟨w, _, _, _, rfl, unasked_ask o _ s.loom.jobs⟩

theorem askN_asks (n o : Nat) (s : State) : AskedAhead s (askN n o s) := by
  induction n generalizing s with
  | zero => exact .refl s
  | succ n ih => exact (askOnce_asks o s).trans (ih _)

theorem readAhead_asks (o : Nat) (s : State) : AskedAhead s (readAhead o s) := by
  unfold readAhead
  split
  · exact askN_asks _ o s
  · exact .refl s

theorem readAheadAll_asks (s : State) : AskedAhead s (readAheadAll s) := by
  have hfold : ∀ js : List Job, ∀ t, AskedAhead s t → AskedAhead s (js.foldl (fun s j => readAhead j.order s) t) := by
    intro js
    induction js with
    | nil => exact fun t h => h
    | cons j js ih => exact fun t h => ih _ (h.trans (readAhead_asks j.order t))
  exact hfold (openJobs s) s (.refl s)

/-- With no job open nothing is read ahead. -/
theorem readAheadAll_none (h : openJobs s = []) : readAheadAll s = s := by
  unfold readAheadAll
  rw [h]
  rfl

end

/-! ## The only job -/

/-- The state with another list of jobs. -/
def withJobs (js : List Job) (s : State) : State := { s with loom := { s.loom with jobs := js } }

section
variable {s : State} {j : Job} {c : Ckpt} {o : Nat}

theorem withJobs_self {js : List Job} (h : s.loom.jobs = js) : withJobs js s = s := by
  rw [← h]
  rfl

theorem modJob_withJobs (ho : j.order = o) (f : Job → Job) : modJob o f (withJobs [j] s) = withJobs [f j] s := by
  rw [← ho]
  exact modJob_only (s := withJobs [j] s) rfl f

theorem modCkpt_withJobs (ho : j.order = o) (hckpt : j.ckpt = some c) (f : Ckpt → Ckpt) :
    modCkpt o f (withJobs [j] s) = withJobs [{ j with ckpt := some (f c) }] s := by
  rw [modCkpt, modJob_withJobs ho, hckpt]
  rfl

theorem openJobs_withJobs (hended : j.ended = none) : openJobs (withJobs [j] s) = [j] := by
  simp [openJobs, withJobs, hended]

theorem openJobs_ended (hended : j.ended.isSome = true) : openJobs (withJobs [j] s) = [] := by
  have hclosed : ¬ j.ended.isNone = true := by rw [← Option.not_isSome, hended]; simp
  exact (List.filter_cons_of_neg (p := fun j : Job => j.ended.isNone) hclosed).trans List.filter_nil

theorem jobOf_withJobs (ho : j.order = o) : jobOf (withJobs [j] s) o = some j := by simp [jobOf, withJobs, ho]

end

/-! ## Ends (R432, R436) -/

section
variable {s : State} {j : Job} {c : Ckpt} {o : Nat}

theorem noteResult_restore (ho : j.order = o) (hckpt : j.ckpt = some c) (hkind : j.kind = .restore) :
    noteResult o (withJobs [j] s) = withJobs [{ j with result := restoreResult c }] s := by
  rw [noteResult, modJob_withJobs ho]
  simp [hckpt, hkind]

theorem endJob_open (ho : j.order = o) (hended : j.ended = none) (code : Byte) :
    endJob o code (withJobs [j] s) = withJobs [{ j with ended := some code, recordAt := s.clocks.lc, ending := none }] s := by
  rw [endJob, modJob_withJobs ho, hended]
  rfl

/-- The outbound half and the reads of a checkpoint that ends are dropped. -/
theorem dropQueue_withJobs (ho : j.order = o) (hckpt : j.ckpt = some c) : ∃ out rd, dropQueue o (withJobs [j] s) =
    withJobs [{ j with ckpt := some { c with inbound := [] } }]
      { s with loom := { s.loom with bobbin := { s.loom.bobbin with out := out }, reads := rd } } := by
  exact ⟨(dropQueue o s).loom.bobbin.out, (dropQueue o s).loom.reads, modCkpt_withJobs (s := { s with loom := { s.loom with
    bobbin := { s.loom.bobbin with out := (dropQueue o s).loom.bobbin.out }, reads := (dropQueue o s).loom.reads } }) ho hckpt
    (fun c => { c with inbound := [] })⟩

/-- A RESTORE that has ended with a fault: its result as far as it came, and nothing of its image kept. -/
def failedRestore (s : State) (j : Job) (c : Ckpt) (code reason : Byte) (block : Option Nat) : Job :=
  { j with
    ckpt := some { c with reason := reason, failBlock := block, inbound := [] }
    result := restoreResult { c with reason := reason, failBlock := block }
    ended := some code, recordAt := s.clocks.lc, ending := none }

theorem failCkpt_restore (ho : j.order = o) (hckpt : j.ckpt = some c) (hkind : j.kind = .restore) (hended : j.ended = none)
    (code reason : Byte) (block : Option Nat) : ∃ out rd, failCkpt o code reason block (withJobs [j] s) =
      withJobs [failedRestore s j c code reason block]
        { s with loom := { s.loom with bobbin := { s.loom.bobbin with out := out }, reads := rd } } := by
  generalize hc1 : ({ c with reason := reason, failBlock := block } : Ckpt) = c1
  generalize hj1 : ({ j with
    ckpt := some c1, result := restoreResult c1, ended := some code, recordAt := s.clocks.lc, ending := none } : Job) = j1
  obtain ⟨out, rd, hdrop⟩ := dropQueue_withJobs (s := s) (j := j1) (c := c1) (o := o) (by rw [← hj1]; exact ho) (by rw [← hj1])
  have hend : endCkpt o code (modCkpt o (fun c => { c with reason := reason, failBlock := block }) (withJobs [j] s)) =
      dropQueue o (withJobs [j1] s) := by
    rw [modCkpt_withJobs ho hckpt, hc1, endCkpt, noteResult_restore (j := { j with ckpt := some c1 }) ho rfl hkind,
      endJob_open (j := { j with ckpt := some c1, result := restoreResult c1 }) ho hended]
    subst hj1
    rfl
  refine ⟨out, rd, ?_⟩
  rw [failCkpt, hend, hdrop, readAheadAll_none (openJobs_ended (by rw [← hj1]; rfl))]
  subst hj1 hc1
  rfl

end

/-! ## Where a block lies (R420) -/

theorem seqBlockAt_congr {s t : State} (h : t.loom.seqs = s.loom.seqs) (qs : List Nat) (n : Nat) :
    seqBlockAt t qs n = seqBlockAt s qs n := by
  have hseq : ∀ q, seqOf t q = seqOf s q := fun q => congrArg (sget Seq.init · q) h
  induction qs generalizing n with
  | nil => rfl
  | cons q qs ih => simp only [seqBlockAt, hseq, ih]

/-- The raw stream depends on the sequences alone. -/
theorem blockAt_congr {s t : State} (h : t.loom.seqs = s.loom.seqs) (c : Ckpt) (n : Nat) : blockAt t c n = blockAt s c n := by
  simp only [blockAt, seqBlockAt_congr h]

/-! ## Moves (R424, R426, R430, R431) -/

section
variable {s : State} {j : Job} {c : Ckpt} {o : Nat}

/-- A checkpoint whose move of this lc is taken. -/
def moveTaken (s : State) (c : Ckpt) : Ckpt := { c with moves := c.moves.filter (fun m => m != s.clocks.lc) }

/-- A move is taken in this lc by the only checkpoint. -/
structure Moves (s : State) (j : Job) (c : Ckpt) : Prop where
  runs : mesochronousRuns s = true
  jobs : s.loom.jobs = [j]
  unended : j.ended = none
  ckpt : j.ckpt = some c
  due : s.clocks.lc ∈ c.moves

/-- The state in which the move's row is read or written. -/
def moving (s : State) (j : Job) (c : Ckpt) : State := withJobs [{ j with ckpt := some (moveTaken s c) }] s

theorem Moves.effect (h : Moves s j c) (ups : Upsets) : bobbinMoveEffect ups s =
    if j.kind = .save then saveMove j (moveTaken s c) ups (moving s j c)
    else readAheadAll (restoreMove j (moveTaken s c) (moving s j c)) := by
  have hopen : openJobs s = [j] := by
    have hopened := openJobs_withJobs (s := s) h.unended
    rwa [withJobs_self h.jobs] at hopened
  have hdue : (c.moves.contains (lcOf s)) = true := List.contains_iff_mem.2 h.due
  have htaken : modCkpt j.order (fun c => { c with moves := c.moves.filter (fun m => m != lcOf s) }) s = moving s j c := by
    have hmod := modCkpt_withJobs (s := s) (o := j.order) rfl h.ckpt (fun c => { c with moves := c.moves.filter (fun m => m != lcOf s) })
    rwa [withJobs_self h.jobs] at hmod
  unfold bobbinMoveEffect
  rw [if_neg (by simp [h.runs]), hopen]
  simp only [List.find?_cons, h.ckpt, hdue]
  rw [htaken]
  rfl

/-- What the books of a moved row change. -/
theorem moveBooks_frame (o tenant : Nat) (s : State) : ∃ ta, moveBooks o tenant s = { s with
    loom := Loom.tallied { s.loom with
      jobs := (modCkpt o (fun c => { c with moved := c.moved + 1 }) s).loom.jobs
      bobbin := { s.loom.bobbin with lastTenant := BitVec.ofNat 8 tenant } } ta } :=
  loomTally_frame _ _ _ _

theorem moveBooks_ticks (tenant : Nat) (hsel : s.loom.tallySel = []) (ho : j.order = o) (hckpt : j.ckpt = some c) : ∃ lc evs was,
    moveBooks o tenant (withJobs [j] s) = ticked lc evs was (withJobs [{ j with ckpt := some { c with moved := c.moved + 1 } }]
      { s with loom := { s.loom with bobbin := { s.loom.bobbin with lastTenant := BitVec.ofNat 8 tenant } } }) := by
  unfold moveBooks
  rw [modCkpt_withJobs ho hckpt]
  exact loomTally_unselected 0x53 (some tenant) 64 (s := withJobs [{ j with ckpt := some { c with moved := c.moved + 1 } }]
    { s with loom := { s.loom with bobbin := { s.loom.bobbin with lastTenant := BitVec.ofNat 8 tenant } } }) hsel

theorem finishCkpt_frame (o : Nat) (save : Bool) (s : State) : ∃ js, finishCkpt o save s = withJobs js s
    ∧ js.map (·.ckpt) = s.loom.jobs.map (·.ckpt) := by
  refine ⟨_, rfl, ?_⟩
  unfold noteResult modJob
  simp only [onJobs, onLoom_at, List.map_map]
  refine List.map_congr_left fun j _ => ?_
  by_cases h : j.order = o
  · rcases hckpt : j.ckpt with _ | c <;> simp [h, hckpt]
  · simp [h]

/-- The rest of a row's move: its books, and the end of the moves after the last row. -/
def rowMoved (j : Job) (c : Ckpt) (s : State) : State :=
  if c.moved + 1 = 64 * c.nblk then finishCkpt j.order false (moveBooks j.order j.tenant s) else moveBooks j.order j.tenant s

theorem rowMoved_frame (j : Job) (c : Ckpt) (s : State) : ∃ js ta, rowMoved j c s = { s with
    loom := Loom.tallied { s.loom with jobs := js, bobbin := { s.loom.bobbin with lastTenant := BitVec.ofNat 8 j.tenant } } ta }
      ∧ js.map (·.ckpt) = (modCkpt j.order (fun c => { c with moved := c.moved + 1 }) s).loom.jobs.map (·.ckpt) := by
  obtain ⟨ta, hbooks⟩ := moveBooks_frame j.order j.tenant s
  unfold rowMoved
  rw [hbooks]
  split_ifs
  · obtain ⟨js, hfinish, hckpt⟩ := finishCkpt_frame j.order false { s with
      loom := Loom.tallied { s.loom with
        jobs := (modCkpt j.order (fun c => { c with moved := c.moved + 1 }) s).loom.jobs
        bobbin := { s.loom.bobbin with lastTenant := BitVec.ofNat 8 j.tenant } } ta }
    exact ⟨js, ta, hfinish, hckpt⟩
  · exact ⟨_, ta, rfl, rfl⟩

/-- A row past the first of a checked RESTORE's block moves into a bank. -/
theorem restoreMove_row {tile bank group : Nat} (hchecked : c.checked = true)
    (hblock : blockAt s c (c.moved / 64) = .bank tile bank group) (hrow : c.moved % 64 ≠ 0) : restoreMove j c s =
      rowMoved j c (entryWrite tile bank (64 * group + c.moved % 64) j.tenant (slice c.decoded (64 * (c.moved % 64)) 64)
        (modCkpt j.order (fun _ => c) s)) := by
  unfold restoreMove
  dsimp only
  rw [hblock, hchecked]
  exact (if_neg (by simp [moveBlocked])).trans (if_pos hrow)

/-- A row of a bank as a SAVE reads it, with no upset known or found. -/
theorem readRow_bank {tile bank group r tenant : Nat} (hbreach : entryBreach s tile bank tenant = none) (hup : s.loom.bankUp = []) :
    readRow (.bank tile bank group) r tenant [] s =
      (mread s.loom.banks (rowAddr tile bank (64 * group + r)) 64, false, useBank (bankKey tile bank) s) := by
  unfold readRow
  dsimp only
  rw [hbreach]
  exact readBankRow_clean (s := useBank (bankKey tile bank) s) tile bank (64 * group + r) (some tenant) hup

/-- A row before the last of a SAVE's block is read from a bank. -/
theorem saveMove_row {tile bank group : Nat} (hblock : blockAt s c (c.moved / 64) = .bank tile bank group) (hrow : c.moved % 64 ≠ 63)
    (hbreach : entryBreach s tile bank j.tenant = none) (hup : s.loom.bankUp = []) : saveMove j c [] s =
      moveBooks j.order j.tenant (modCkpt j.order (fun x => { x with
        block := c.block ++ mread s.loom.banks (rowAddr tile bank (64 * group + c.moved % 64)) 64 }) (useBank (bankKey tile bank) s)) := by
  unfold saveMove
  dsimp only
  rw [hblock, readRow_bank hbreach hup]
  refine (if_neg (by simp [moveBlocked, hrow])).trans ((if_neg Bool.false_ne_true).trans (if_neg hrow))

/-! ## A block that fails (R432, R436) -/

/-- What the free rows of a failed RESTORE change. -/
def filled (free : Nat) (banks : Memory) (up : Upsets) (s : State) : State :=
  { s with free := free, loom := { s.loom with banks := banks, bankUp := up } }

theorem blockAt_filled (free : Nat) (banks : Memory) (up : Upsets) (n : Nat) :
    blockAt (filled free banks up s) c n = blockAt s c n :=
  blockAt_congr (s := s) (t := filled free banks up s) rfl c n

/-- The rows of one bank block take free bytes. -/
theorem foldl_fillRow {tile bank group q tenant : Nat} (hblock : blockAt s c q = .bank tile bank group) (ks : List Nat)
    (hks : ∀ n ∈ ks, n / 64 = q) (free : Nat) (banks : Memory) (up : Upsets) : ∃ banks' up', ks.foldl (fun s n =>
      fillRow (blockAt s c (n / 64)) (n % 64) tenant ((span s.free 64).map Config.freeByte) { s with free := s.free + 64 })
        (filled free banks up s) = filled (free + 64 * ks.length) banks' up' s := by
  induction ks generalizing free banks up with
  | nil => exact ⟨banks, up, rfl⟩
  | cons n ks ih =>
    obtain ⟨hn, hks⟩ := List.forall_mem_cons.1 hks
    rw [List.foldl_cons, blockAt_filled, hn, hblock]
    obtain ⟨up', hrow⟩ := writeBankRow_frame (filled (free + 64) banks up s) tile bank (64 * group + n % 64)
      ((span free 64).map Config.freeByte)
    obtain ⟨banks', up'', hrest⟩ := ih hks (free + 64) _ up'
    refine ⟨banks', up'', ?_⟩
    have hlen : free + 64 * (n :: ks).length = free + 64 + 64 * ks.length := by
      rw [List.length_cons]
      omega
    rw [hlen, ← hrest]
    exact congrArg (List.foldl _ · ks) hrow

/-- The last block of a RESTORE that fails at its first row: 64 rows take free bytes. -/
theorem freeTarget_block {tile bank group : Nat} (hblock : blockAt s c (c.moved / 64) = .bank tile bank group) (hrow : c.moved % 64 = 0)
    (hlast : c.nblk = c.moved / 64 + 1) : ∃ banks up, freeTarget j c s = filled (s.free + 4096) banks up s := by
  have hlen : 64 * c.nblk - c.moved = 64 := by omega
  obtain ⟨banks, up, hfold⟩ := foldl_fillRow (tenant := j.tenant) hblock (span c.moved 64)
    (fun n hn => by have := mem_span.1 hn; omega) s.free s.loom.banks s.loom.bankUp
  refine ⟨banks, up, ?_⟩
  rw [freeTarget, hlen]
  exact hfold

/-- A block is checked without regard to the moves that are left. -/
theorem startBlock_moves (c : Ckpt) (ms : List Nat) :
    startBlock { c with moves := ms } = (startBlock c).map (Option.map (fun d => { d with moves := ms })) := by
  unfold startBlock
  dsimp only [indexAt]
  split_ifs
  · rfl
  · rfl
  · rw [Option.map_some, Option.map_map]
    rfl

theorem restoreMove_fails {tile bank group : Nat} (hchecked : c.checked = true)
    (hblock : blockAt s c (c.moved / 64) = .bank tile bank group) (hrow : c.moved % 64 = 0) (hstart : startBlock c = some none) :
    restoreMove j c s = failCkpt j.order 0x21 3 (some (c.moved / 64)) (freeTarget j c s) := by
  unfold restoreMove
  dsimp only
  rw [hblock, hchecked, hstart]
  exact (if_neg (by simp [moveBlocked])).trans (if_neg (by simp [hrow]))

end

/-! ## Admission (R428, R429, R430) -/

section
variable {s : State} {f : Fetched}

/-- The checkpoint that an entry names, with its blocks counted. -/
def entryCkpt (s : State) (f : Fetched) : Ckpt := { parseCkpt f.bytes with nblk := blockCount s (parseCkpt f.bytes) }

/-- The move lc that an admitted checkpoint takes, and its record's promise. -/
def ckptMoves (s : State) (f : Fetched) (save : Bool) : List Nat :=
  moveLcs s (f.ring / 4) (entryCkpt s f).banks
    (afterMoves s (f.ring / 4) (lcOf s + 64 + (if save then 0 else restoreLead s (entryCkpt s f).nblk))) (64 * (entryCkpt s f).nblk)
def ckptPromise (s : State) (f : Fetched) (save : Bool) : Nat :=
  promiseAt s (lcOf s) (ckptRecordLc s save ((ckptMoves s f save).getLast?.getD 0))

/-- The job that an admitted checkpoint enters. -/
def ckptJob (f : Fetched) (save : Bool) (c : Ckpt) (promise : Nat) : Job :=
  { order := f.order, tenant := f.ring / 4, kind := if save then .save else .restore, esc := false, draft := 0, passes := 0, ran := 0
    tag := entTag f.bytes, subidx := f.index, promise := promise, binds := [], resAt := none, result := [], booked := []
    recordAt := 0, ending := none, cut := false, silent := false, ended := none, poisoned := false
    degraded := false, breached := false, ckpt := some c }

/-- The tests that a SAVE or RESTORE passes. -/
structure Admits (s : State) (f : Fetched) : Prop where
  unblocked : (tenantOf s (f.ring / 4)).blocked = false
  good : badCkpt s (f.ring / 4) f.bytes (entryCkpt s f) = false
  entries : ckptEntries s (f.ring / 4) (entryCkpt s f).banks ≠ []
  undated : entDeadline f.bytes = none

theorem Admits.answer (h : Admits s f) {save : Bool} (hop : (entOp f.bytes == 1) = save) : answerCkpt f s =
    admitCkpt f save { entryCkpt s f with moves := ckptMoves s f save } (ckptPromise s f save) s := by
  have hgood : badCkpt s (f.ring / 4) f.bytes { parseCkpt f.bytes with nblk := blockCount s (parseCkpt f.bytes) } = false := h.good
  have hentries : (ckptEntries s (f.ring / 4) (parseCkpt f.bytes).banks).isEmpty = false := by
    rw [List.isEmpty_eq_false_iff]
    exact h.entries
  unfold answerCkpt
  simp only [h.unblocked, hgood, hentries, h.undated, hop, Bool.false_eq_true, if_false]
  rfl

/-- A checkpoint has entered the job table with its moves. -/
def ckptEntered (f : Fetched) (save : Bool) (c : Ckpt) (promise : Nat) (s : State) : State := { s with loom := { s.loom with
  jobs := s.loom.jobs ++ [ckptJob f save c promise], moveBookings := c.moves ++ s.loom.moveBookings } }

theorem admitCkpt_ticks (save : Bool) (c : Ckpt) (promise : Nat) (hsel : s.loom.tallySel = []) : ∃ lc evs was,
    admitCkpt f save c promise s = if save then zeroImage f.order (ticked lc evs was (ckptEntered f save c promise s))
      else readAhead f.order (ticked lc evs was (ckptEntered f save c promise s)) := by
  obtain ⟨lc, evs, was, hcount⟩ := loomTally_unselected 0x40 (some (f.ring / 4)) 1 (s := ckptEntered f save c promise s) hsel
  refine ⟨lc, evs, was, ?_⟩
  have hadmit : admitCkpt f save c promise s =
      if save then zeroImage f.order (loomTally 0x40 (some (f.ring / 4)) 1 (ckptEntered f save c promise s))
      else readAhead f.order (loomTally 0x40 (some (f.ring / 4)) 1 (ckptEntered f save c promise s)) := rfl
  rw [hadmit, hcount]
  rfl

/-- A job of a new order is found behind the others. -/
theorem jobOf_appended {js : List Job} {j : Job} (hjobs : s.loom.jobs = js ++ [j]) (hnew : ∀ k ∈ js, k.order ≠ j.order) :
    jobOf s j.order = some j := by
  have hnone : js.find? (fun k => k.order == j.order) = none := List.find?_eq_none.2 fun k hk => by simpa using hnew k hk
  simp [jobOf, hjobs, List.find?_append, hnone]

theorem modCkpt_appended {js : List Job} {j : Job} (hjobs : s.loom.jobs = js ++ [j]) (hnew : ∀ k ∈ js, k.order ≠ j.order)
    (g : Ckpt → Ckpt) : modCkpt j.order g s = withJobs (js ++ [{ j with ckpt := j.ckpt.map g }]) s := by
  have hothers : js.map (fun k => if k.order = j.order then { k with ckpt := k.ckpt.map g } else k) = js :=
    (List.map_congr_left fun k hk => if_neg (hnew k hk)).trans (List.map_id js)
  have hmap : s.loom.jobs.map (fun k => if k.order = j.order then { k with ckpt := k.ckpt.map g } else k) =
      js ++ [{ j with ckpt := j.ckpt.map g }] := by
    rw [hjobs, List.map_append, hothers]
    simp
  exact congrArg (fun l => withJobs l s) hmap

/-- A SAVE first writes a MAGIC of zero, where the outbound half has room (R430). -/
theorem zeroImage_first {js : List Job} {j : Job} {c : Ckpt} (hjobs : s.loom.jobs = js ++ [j]) (hnew : ∀ k ∈ js, k.order ≠ j.order)
    (hkind : j.kind = .save) (hended : j.ended = none) (hckpt : j.ckpt = some c) (hzeroed : c.zeroed = false) : zeroImage j.order s =
      if outboundHeld s + 64 ≤ 262144 then pushOut j.order j.tenant c.image false (List.replicate 64 0)
        (withJobs (js ++ [{ j with ckpt := some { c with zeroed := true } }]) s) else s := by
  have hmod := modCkpt_appended hjobs hnew (fun c => { c with zeroed := true })
  rw [hckpt, Option.map_some] at hmod
  unfold zeroImage
  rw [jobOf_appended hjobs hnew]
  simp only [Option.bind_some, hckpt, Option.map_some, hkind, hended, hzeroed, hmod, halfBytes]
  simp

end

/-! ## Image writes that cross the weft (R425, R430) -/

section
variable {s : State} {w : OutWrite} {j : Job}

/-- What is left of a waiting write once its first bytes have left. -/
def restOf (w : OutWrite) : List OutWrite :=
  if w.data.drop (writeChunk w) = [] then [] else [{ w with addr := w.addr + writeChunk w, data := w.data.drop (writeChunk w) }]

theorem shedFirst_leaves (h : leavesNow s w = true) : shedFirst s [w] = restOf w := by
  simp only [shedFirst, h, if_true, restOf, List.isEmpty_iff]

theorem shedFirst_waits (h : leavesNow s w = false) : shedFirst s [w] = [w] := by
  simp [shedFirst, h]

theorem leavesNow_idle (hidle : WeftIdle s (w.tenant % 2)) : leavesNow s w = true := by
  obtain ⟨htrained, hreplay, hresent, htxq, hposted, hnonposted, hother⟩ := hidle
  have hmay : maySend s (w.tenant % 2) (writeTxn w) = true := maySend_idle (.inl rfl) htrained hreplay hposted hnonposted hother
  unfold leavesNow
  rw [moduleFor_trained htrained]
  simp [hresent, htxq, hmay]

theorem leavesNow_untrained (h : ∀ m < 2, (weftOf s m).trained = false) : leavesNow s w = false := by
  have hmod : moduleFor s w.tenant < 2 := by
    unfold moduleFor
    split_ifs <;> omega
  simp [leavesNow, maySend, h _ hmod]

theorem liveWrites_only (hout : s.loom.bobbin.out = [w]) (hjob : jobOf s w.job = some j) (hended : j.ended = none) :
    s.loom.bobbin.out.filter (liveWrite s) = [w] := by
  have hlive : liveWrite s w = true := by simp [liveWrite, hjob, hended]
  simp [hout, hlive]

/-- The outbound half once its only write has sent what it can. -/
def withOut (out : List OutWrite) (s : State) : State := { s with loom := { s.loom with bobbin := { s.loom.bobbin with out := out } } }

theorem weftWriteEffect_waits (hout : s.loom.bobbin.out = [w]) (hjob : jobOf s w.job = some j) (hended : j.ended = none)
    (hwaits : leavesNow s w = false) : weftWriteEffect s = s := by
  unfold weftWriteEffect
  dsimp only
  rw [liveWrites_only hout hjob hended, shedFirst_waits hwaits, ← hout]
  simp only [hout, List.find?_cons, hwaits, List.find?_nil]
  rw [← hout]
  rfl

/-- The only write of an idle module's tenant leaves, and is counted. -/
theorem weftWriteEffect_sends (hout : s.loom.bobbin.out = [w]) (hjobs : s.loom.jobs = [j]) (hjob : j.order = w.job) (hended : j.ended = none)
    (hidle : WeftIdle s (w.tenant % 2)) (hsel : s.loom.tallySel = []) : ∃ wf lc evs was,
      weftWriteEffect s = zeroImage w.job (saveSent w.job (ticked lc evs was { withOut (restOf w) s with weft := wf }))
        ∧ Sent s { s with weft := wf } (w.tenant % 2) (writeTxn w) := by
  have hleaves := leavesNow_idle hidle
  have hfound : jobOf s w.job = some j := by
    have h := jobOf_withJobs (s := s) hjob
    rwa [withJobs_self hjobs] at h
  have hopen : openJobs s = [j] := by
    have h := openJobs_withJobs (s := s) hended
    rwa [withJobs_self hjobs] at h
  obtain ⟨wf, hw, hsent⟩ := enqueue_idle (s := withOut (restOf w) s) (x := writeTxn w) (.inl rfl) hidle
  obtain ⟨lc, evs, was, hcount⟩ := loomTally_unselected 0x54 (some w.tenant) (if w.payload then writeChunk w else 0)
    (s := { withOut (restOf w) s with weft := wf }) hsel
  refine ⟨wf, lc, evs, was, ?_, hsent⟩
  have heff : weftWriteEffect s = zeroImage j.order (saveSent w.job (loomTally 0x54 (some w.tenant) (if w.payload then writeChunk w else 0)
      (enqueue (writeTxn w) (withOut (restOf w) s)))) := by
    unfold weftWriteEffect
    dsimp only
    rw [liveWrites_only hout hfound hended, shedFirst_leaves hleaves, hopen]
    simp only [List.find?_cons, hleaves]
    rfl
  rw [heff, hw, hcount, hjob]
  rfl

theorem saveSent_kept {o : Nat} (ho : j.order = o) (h : movesDone j = false ∨ outboundLeft (withJobs [j] s) o = true) :
    saveSent o (withJobs [j] s) = withJobs [j] s := by
  unfold saveSent
  split_ifs with hleft
  · rfl
  · have hmoves : movesDone j = false := h.resolve_right hleft
    rw [modJob_withJobs ho]
    simp [hmoves]

/-- A SAVE whose rows have moved ends when nothing of it is left to send (log 33). -/
theorem saveSent_ends {o : Nat} (ho : j.order = o) (hended : j.ended = none) (hmoved : movesDone j = true)
    (hsent : outboundLeft (withJobs [j] s) o = false) : saveSent o (withJobs [j] s) = withJobs [{ j with ended := some 0 }] s := by
  unfold saveSent
  rw [if_neg (by simp [hsent]), modJob_withJobs ho]
  simp [hended, hmoved]

theorem zeroImage_kept {o : Nat} (ho : j.order = o) (h : j.ended.isSome = true ∨ ∀ c ∈ j.ckpt, c.zeroed = true) :
    zeroImage o (withJobs [j] s) = withJobs [j] s := by
  unfold zeroImage
  rw [jobOf_withJobs ho, Option.bind_some]
  rcases hckpt : j.ckpt with _ | c
  · rfl
  · refine if_neg ?_
    obtain hended | hzeroed := h
    · rw [← Option.not_isSome]
      simp [hended]
    · simp [hzeroed c hckpt]

end

end Sys2Proof.Machine
end

