-- ==== Sys2Proof/Proofs/Checkpoints.lean ====
section
/-!
PROOF. SAVE and RESTORE from admission to their end (R424, R425, R428 to R431, R436, R439).
-/

namespace Sys2Proof.Machine

/-! ## Answers -/

section
variable {s : State} {f : Fetched} {rest : List Fetched}

/-- Which front entries SAVE, RESTORE and BOBBIN_NOP take. -/
def takesSave (f : Fetched) : Bool := isBobbinEntry_ f && !(entOp f.bytes == 0 || entOp f.bytes == 2)
def takesRestore (f : Fetched) : Bool := isBobbinEntry_ f && entOp f.bytes == 2
def takesBobbinNop (f : Fetched) : Bool := isBobbinEntry_ f && entOp f.bytes == 0

/-- The state in which an admitted checkpoint has entered. -/
def ckptAnswered (s : State) (f : Fetched) (rest : List Fetched) (save : Bool) (lc : Nat) (evs : List (Nat × Option Nat × Nat))
    (was : Sparse Counter) : State :=
  { s with loom := { s.loom with
    jobs := s.loom.jobs ++ [ckptJob f save { entryCkpt s f with moves := ckptMoves s f save } (ckptPromise s f save)]
    moveBookings := ckptMoves s f save ++ s.loom.moveBookings
    fetched := rest, answeredAt := some s.clocks.lc, tallyLc := lc, tallyEvs := evs, tallyWas := was } }

theorem answerCkpt_enters (hadmits : Admits s f) {save : Bool} (hop : (entOp f.bytes == 1) = save) (hsel : s.loom.tallySel = []) :
    ∃ lc evs was, answerCkpt f (frontTaken rest s) = if save then zeroImage f.order (ckptAnswered s f rest save lc evs was)
      else readAhead f.order (ckptAnswered s f rest save lc evs was) := by
  have hfront : Admits (frontTaken rest s) f := ⟨hadmits.unblocked, hadmits.good, hadmits.entries, hadmits.undated⟩
  have hentry : entryCkpt (frontTaken rest s) f = entryCkpt s f := rfl
  have hmoves : ckptMoves (frontTaken rest s) f save = ckptMoves s f save := rfl
  have hpromise : ckptPromise (frontTaken rest s) f save = ckptPromise s f save := rfl
  obtain ⟨lc, evs, was, hadmit⟩ := admitCkpt_ticks (s := frontTaken rest s) (f := f) save
    { entryCkpt s f with moves := ckptMoves s f save } (ckptPromise s f save) hsel
  refine ⟨lc, evs, was, ?_⟩
  rw [hfront.answer hop, hentry, hmoves, hpromise, hadmit]
  rfl

/-- What an admitted SAVE adds to the outbound half: its MAGIC of zero, where there is room. -/
def zeroWrites (s : State) (f : Fetched) : List OutWrite :=
  if outboundHeld s + 64 ≤ 262144 then
    [{ job := f.order, tenant := f.ring / 4, addr := (parseCkpt f.bytes).image, data := List.replicate 64 0, payload := false }]
  else []

/-- The state in which an admitted SAVE is answered. -/
def saveAnswered (s : State) (f : Fetched) (rest : List Fetched) (lc : Nat) (evs : List (Nat × Option Nat × Nat)) (was : Sparse Counter)
    (zeroed : Bool) : State :=
  { s with loom := { s.loom with
    jobs := s.loom.jobs ++ [ckptJob f true { entryCkpt s f with moves := ckptMoves s f true, zeroed := zeroed } (ckptPromise s f true)]
    moveBookings := ckptMoves s f true ++ s.loom.moveBookings
    bobbin := { s.loom.bobbin with out := s.loom.bobbin.out ++ zeroWrites s f }
    fetched := rest, answeredAt := some s.clocks.lc, tallyLc := lc, tallyEvs := evs, tallyWas := was } }

theorem answerCkpt_saves (hadmits : Admits s f) (hop : entOp f.bytes = 1) (hsel : s.loom.tallySel = [])
    (hnew : ∀ j ∈ s.loom.jobs, j.order ≠ f.order) : ∃ lc evs was zeroed,
    answerCkpt f (frontTaken rest s) = saveAnswered s f rest lc evs was zeroed := by
  obtain ⟨lc, evs, was, henter⟩ := answerCkpt_enters (rest := rest) hadmits (save := true) (by rw [hop]; rfl) hsel
  have hzero := zeroImage_first (s := ckptAnswered s f rest true lc evs was)
    (j := ckptJob f true { entryCkpt s f with moves := ckptMoves s f true } (ckptPromise s f true)) rfl hnew rfl rfl rfl rfl
  have hheld : outboundHeld (ckptAnswered s f rest true lc evs was) = outboundHeld s := rfl
  rw [hheld] at hzero
  rw [if_pos rfl] at henter
  by_cases hroom : outboundHeld s + 64 ≤ 262144
  · refine ⟨lc, evs, was, true, henter.trans (hzero.trans ?_)⟩
    rw [if_pos hroom]
    dsimp only [pushOut, withJobs, ckptAnswered, saveAnswered, onLoom]
    rw [zeroWrites, if_pos hroom]
    rfl
  · refine ⟨lc, evs, was, false, henter.trans (hzero.trans ?_)⟩
    rw [if_neg hroom, saveAnswered, zeroWrites, if_neg hroom, List.append_nil]
    rfl

end

/-! ## Moves -/

section
variable {s : State} {j : Job} {c : Ckpt} {tile bank group : Nat}

theorem blockAt_moving (h : blockAt s c (c.moved / 64) = .bank tile bank group) :
    blockAt (moving s j c) (moveTaken s c) (c.moved / 64) = .bank tile bank group :=
  (blockAt_congr (s := s) (t := moving s j c) rfl c _).trans h

/-- A checkpoint of a SAVE that has read one more row. -/
def rowRead (s : State) (c : Ckpt) (row : List Byte) : Ckpt :=
  { c with moves := c.moves.filter (fun m => m != s.clocks.lc), moved := c.moved + 1, block := c.block ++ row }

/-- A row of a SAVE's block moves out of a bank. -/
theorem Moves.saves (h : Moves s j c) (hkind : j.kind = .save) (hblock : blockAt s c (c.moved / 64) = .bank tile bank group)
    (hrow : c.moved % 64 ≠ 63) (hbreach : entryBreach s tile bank j.tenant = none) (hup : s.loom.bankUp = [])
    (hsel : s.loom.tallySel = []) : ∃ lc evs was, bobbinMoveEffect [] s = { s with loom := { s.loom with
      jobs := [{ j with ckpt := some (rowRead s c (mread s.loom.banks (rowAddr tile bank (64 * group + c.moved % 64)) 64)) }]
      bankUse := (useBank (bankKey tile bank) s).loom.bankUse
      bobbin := { s.loom.bobbin with lastTenant := BitVec.ofNat 8 j.tenant }, tallyLc := lc, tallyEvs := evs, tallyWas := was } } := by
  generalize hrowRead : mread s.loom.banks (rowAddr tile bank (64 * group + c.moved % 64)) 64 = row
  have hsave := ((h.effect []).trans (if_pos hkind)).trans
    (saveMove_row (s := moving s j c) (c := moveTaken s c) (blockAt_moving hblock) hrow hbreach hup)
  have hmod : modCkpt j.order (fun x => { x with block := (moveTaken s c).block ++ row }) (useBank (bankKey tile bank) (moving s j c)) =
      withJobs [{ j with ckpt := some { moveTaken s c with block := c.block ++ row } }] (useBank (bankKey tile bank) s) :=
    modCkpt_withJobs (s := useBank (bankKey tile bank) s) (j := { j with ckpt := some (moveTaken s c) }) rfl rfl _
  obtain ⟨lc, evs, was, hbooks⟩ := moveBooks_ticks (s := useBank (bankKey tile bank) s)
    (j := { j with ckpt := some { moveTaken s c with block := c.block ++ row } }) (o := j.order) j.tenant hsel rfl rfl
  refine ⟨lc, evs, was, ?_⟩
  subst hrowRead
  exact hsave.trans ((congrArg (moveBooks j.order j.tenant) hmod).trans hbooks)

/-- A row past the first of a RESTORE's block moves: its write, its books, and what the queue then reads ahead. -/
theorem Moves.restores (h : Moves s j c) (hkind : j.kind = .restore) (hchecked : c.checked = true)
    (hblock : blockAt s c (c.moved / 64) = .bank tile bank group) (hrow : c.moved % 64 ≠ 0) : bobbinMoveEffect [] s =
      readAheadAll (rowMoved j (moveTaken s c) (entryWrite tile bank (64 * group + c.moved % 64) j.tenant
        (slice c.decoded (64 * (c.moved % 64)) 64) (moving s j c))) := by
  have hsame : modCkpt j.order (fun _ => moveTaken s c) (moving s j c) = moving s j c :=
    modCkpt_withJobs (s := s) (j := { j with ckpt := some (moveTaken s c) }) rfl rfl _
  have hmove := restoreMove_row (j := j) (s := moving s j c) (c := moveTaken s c) hchecked (blockAt_moving hblock) hrow
  rw [hsame] at hmove
  exact ((h.effect []).trans (if_neg (by simp [hkind]))).trans (congrArg readAheadAll hmove)

/-- The books of a row, and what is read ahead, change the job, the books of the queue and what the modules hold. -/
theorem rowMoved_ahead {j' : Job} {c' : Ckpt} (e : State) (d : Ckpt) (ho : j'.order = j.order) (hckpt : j'.ckpt = some c') :
    ∃ js ta w rd tag, readAheadAll (rowMoved j d (withJobs [j'] e)) = { e with
      weft := w
      loom := Loom.tallied { e.loom with
        jobs := js, reads := rd, nextTag := tag, bobbin := { e.loom.bobbin with lastTenant := BitVec.ofNat 8 j.tenant } } ta }
      ∧ js.map (fun k => k.ckpt.map (·.moved)) = [some (c'.moved + 1)] := by
  obtain ⟨js, ta, hbooks, hjs⟩ := rowMoved_frame j d (withJobs [j'] e)
  rw [modCkpt_withJobs ho hckpt] at hjs
  have hasks := readAheadAll_asks (rowMoved j d (withJobs [j'] e))
  have hjobs := hasks.map_jobs (f := fun k => k.ckpt.map (·.moved)) (fun k => by cases h : k.ckpt <;> simp [Job.unasked, h])
  obtain ⟨w, rd, tag, js', hread, _⟩ := hasks
  rw [hread, hbooks] at hjobs
  refine ⟨js', ta, w, rd, tag, hread.trans ?_, hjobs.trans ?_⟩
  · rw [hbooks]
    rfl
  · have hmoved := congrArg (List.map (Option.map (·.moved))) hjs
    rwa [List.map_map, List.map_map] at hmoved

/-- A row that a RESTORE may write is in its bank, and counts as moved. -/
theorem Moves.restores_row (h : Moves s j c) (hkind : j.kind = .restore) (hchecked : c.checked = true)
    (hblock : blockAt s c (c.moved / 64) = .bank tile bank group) (hrow : c.moved % 64 ≠ 0)
    (hbreach : entryBreach s tile bank j.tenant = none) : ∃ js ta up use w rd tag, bobbinMoveEffect [] s = { s with
      weft := w
      loom := Loom.tallied { s.loom with
        banks := mwrite s.loom.banks (rowAddr tile bank (64 * group + c.moved % 64)) (slice c.decoded (64 * (c.moved % 64)) 64)
        bankUp := up, bankUse := use, jobs := js, reads := rd, nextTag := tag
        bobbin := { s.loom.bobbin with lastTenant := BitVec.ofNat 8 j.tenant } } ta }
      ∧ js.map (fun k => k.ckpt.map (·.moved)) = [some (c.moved + 1)] := by
  obtain ⟨use, huse⟩ := useBank_frame (moving s j c) (bankKey tile bank)
  obtain ⟨up, hwrite⟩ := writeBankRow_frame (useBank (bankKey tile bank) (moving s j c)) tile bank (64 * group + c.moved % 64)
    (slice c.decoded (64 * (c.moved % 64)) 64)
  rw [slice_slice, huse] at hwrite
  have hentry : entryWrite tile bank (64 * group + c.moved % 64) j.tenant (slice c.decoded (64 * (c.moved % 64)) 64) (moving s j c) =
      withJobs [{ j with ckpt := some (moveTaken s c) }] { s with loom := { s.loom with
        banks := mwrite s.loom.banks (rowAddr tile bank (64 * group + c.moved % 64)) (slice c.decoded (64 * (c.moved % 64)) 64)
        bankUp := up, bankUse := use } } := by
    have hclear : entryBreach (moving s j c) tile bank j.tenant = none := hbreach
    unfold entryWrite
    rw [hclear, huse]
    exact hwrite
  have heff := h.restores hkind hchecked hblock hrow
  rw [hentry] at heff
  obtain ⟨js, ta, w, rd, tag, hmoved, hjs⟩ := rowMoved_ahead (j := j) { s with loom := { s.loom with
    banks := mwrite s.loom.banks (rowAddr tile bank (64 * group + c.moved % 64)) (slice c.decoded (64 * (c.moved % 64)) 64)
    bankUp := up, bankUse := use } } (moveTaken s c) (j' := { j with ckpt := some (moveTaken s c) }) rfl rfl
  exact ⟨js, ta, up, use, w, rd, tag, heff.trans hmoved, hjs⟩

/-- A row of a bank that the tenant's entry does not own is a breach: nothing is written, and the tenant is marked (R263, R435). -/
theorem Moves.restores_breach (h : Moves s j c) (hkind : j.kind = .restore) (hchecked : c.checked = true)
    (hblock : blockAt s c (c.moved / 64) = .bank tile bank group) (hrow : c.moved % 64 ≠ 0) {kind : Nat}
    (hbreach : entryBreach s tile bank j.tenant = some kind) : let t := bobbinMoveEffect [] s
      t.loom.banks = s.loom.banks ∧ (tenantOf t j.tenant).faulted = true ∧ t.loom.breach = breachWord tile kind j.tenant 0 0 := by
  have hentry : entryWrite tile bank (64 * group + c.moved % 64) j.tenant (slice c.decoded (64 * (c.moved % 64)) 64) (moving s j c) =
      breachBooks kind tile j.tenant 0 0 none (moving s j c) := by
    have hkinds : entryBreach (moving s j c) tile bank j.tenant = some kind := hbreach
    unfold entryWrite
    rw [hkinds]
    rfl
  have heff := h.restores hkind hchecked hblock hrow
  rw [hentry] at heff
  obtain ⟨hfaulted, hword⟩ := breachBooks_marks kind tile j.tenant 0 0 none (moving s j c)
  obtain ⟨b, w, rs, ts, ta, js, hbooks⟩ := breachBooks_frame (moving s j c) kind tile j.tenant 0 0 none
  obtain ⟨js', ta', hmoved, _⟩ := rowMoved_frame j (moveTaken s c) (breachBooks kind tile j.tenant 0 0 none (moving s j c))
  obtain ⟨w', rd, tag, js'', hread, _⟩ := readAheadAll_asks (rowMoved j (moveTaken s c) (breachBooks kind tile j.tenant 0 0 none (moving s j c)))
  rw [hread, hmoved] at heff
  rw [hbooks] at heff hfaulted hword
  rw [heff]
  exact ⟨rfl, hfaulted, hword⟩

/-- The first row of a RESTORE's last block, when the block fails: free bytes, and the job ends (R432, R436). -/
theorem Moves.restores_fault (h : Moves s j c) (hkind : j.kind = .restore) (hchecked : c.checked = true)
    (hblock : blockAt s c (c.moved / 64) = .bank tile bank group) (hrow : c.moved % 64 = 0) (hlast : c.nblk = c.moved / 64 + 1)
    (hstart : startBlock c = some none) : ∃ banks up out rd, bobbinMoveEffect [] s =
      withJobs [failedRestore s j (moveTaken s c) 0x21 3 (some (c.moved / 64))]
        { s with
          free := s.free + 4096
          loom := { s.loom with
            banks := banks, bankUp := up, bobbin := { s.loom.bobbin with out := out }, reads := rd } } := by
  have hunstarted : startBlock (moveTaken s c) = some none := by
    rw [moveTaken, startBlock_moves, hstart]
    rfl
  have hfails := restoreMove_fails (j := j) (s := moving s j c) (c := moveTaken s c) hchecked (blockAt_moving hblock) hrow hunstarted
  obtain ⟨banks, up, hfree⟩ := freeTarget_block (j := j) (s := moving s j c) (c := moveTaken s c) (blockAt_moving hblock) hrow hlast
  obtain ⟨out, rd, hend⟩ := failCkpt_restore (s := filled (s.free + 4096) banks up s) (j := { j with ckpt := some (moveTaken s c) })
    (o := j.order) rfl rfl hkind h.unended 0x21 3 (some (c.moved / 64))
  have hfilled : filled ((moving s j c).free + 4096) banks up (moving s j c) =
      withJobs [{ j with ckpt := some (moveTaken s c) }] (filled (s.free + 4096) banks up s) := rfl
  rw [hfree, hfilled] at hfails
  have heff := (h.effect []).trans (if_neg (by simp [hkind]))
  refine ⟨banks, up, out, rd, ?_⟩
  rw [heff, hfails]
  refine (congrArg readAheadAll hend).trans ?_
  rw [readAheadAll_none (openJobs_ended rfl)]
  rfl

end

/-! ## Writes and checks -/

section
variable {s : State} {j : Job} {c : Ckpt} {w : OutWrite}

theorem outboundLeft_restOf (h : writeChunk w < w.data.length) (t : State) : outboundLeft (withOut (restOf w) t) w.job = true := by
  have hleft : w.data.drop (writeChunk w) ≠ [] := by
    rw [Ne, List.drop_eq_nil_iff]
    omega
  simp [outboundLeft, withOut, restOf, hleft]

theorem restOf_whole (h : w.data.length ≤ writeChunk w) : restOf w = [] := if_pos (List.drop_eq_nil_iff.2 h)

/-- The RESTORE whose header and index are in, and not checked. -/
structure Uncheck (s : State) (j : Job) (c : Ckpt) : Prop where
  jobs : s.loom.jobs = [j]
  unended : j.ended = none
  kind : j.kind = .restore
  ckpt : j.ckpt = some c
  unchecked : c.checked = false
  whole : payloadAt c.nblk ≤ c.headIn.length

theorem Uncheck.open (h : Uncheck s j c) : openJobs s = [j] := by
  have hopened := openJobs_withJobs (s := s) h.unended
  rwa [withJobs_self h.jobs] at hopened

theorem Uncheck.fails (h : Uncheck s j c) {code reason : Byte} (himage : checkImage s c = some (code, reason)) :
    restoreCheckEffect s = failCkpt j.order code reason none s := by
  unfold restoreCheckEffect
  rw [h.open]
  simp only [List.find?_cons, h.ckpt, h.kind, h.unchecked, decide_eq_true h.whole, beq_self_eq_true, Bool.not_false, Bool.and_true, himage]

theorem Uncheck.passes (h : Uncheck s j c) (himage : checkImage s c = none) :
    restoreCheckEffect s = readAhead j.order (modCkpt j.order (fun c => { c with checked := true }) s) := by
  unfold restoreCheckEffect
  rw [h.open]
  simp only [List.find?_cons, h.ckpt, h.kind, h.unchecked, decide_eq_true h.whole, beq_self_eq_true, Bool.not_false, Bool.and_true, himage]

end

/-- Settles O58: admission by its books, a move by its row, a write by its module, a check by its outcome. -/
theorem checkpoints : Obligations.Checkpoints := by
  unfold Obligations.Checkpoints
  refine ⟨?_, ?_, ?_, ?_, ?_, ?_, ?_, ?_, ?_, ?_, ?_, ?_, ?_⟩
  · intro s f rest hfront hring hop hunblocked hgood hentries hundated hsel hnew
    obtain ⟨⟨hlive, hreach⟩, hfetched, hans⟩ := hfront
    obtain ⟨lc, evs, was, zeroed, hanswer⟩ := answerCkpt_saves (rest := rest) ⟨hunblocked, hgood, hentries, hundated⟩ hop hsel hnew
    have hsave := (answerFront_takes answerCkpt (p := takesSave) hfetched (by simp [takesSave, isBobbinEntry_, hring, hop]) hans hreach).trans
      hanswer
    exact .of_fin hlive (congrArg (fin s) hsave) ⟨congrArg _ List.drop_left, rfl, rfl, rfl⟩
  · intro s f rest hfront hring hop hunblocked hgood hentries hundated hsel
    obtain ⟨⟨hlive, hreach⟩, hfetched, hans⟩ := hfront
    obtain ⟨lc, evs, was, henter⟩ := answerCkpt_enters (rest := rest) (save := false) ⟨hunblocked, hgood, hentries, hundated⟩
      (by rw [hop]; rfl) hsel
    have hrestore := (answerFront_takes answerCkpt (p := takesRestore) hfetched (by simp [takesRestore, isBobbinEntry_, hring, hop])
      hans hreach).trans henter
    rw [if_neg Bool.false_ne_true] at hrestore
    have hasks := readAhead_asks f.order (ckptAnswered s f rest false lc evs was)
    have hjobs := hasks.map_jobs (f := fun j => (j.order, j.tenant, j.kind, j.tag, j.subidx, j.ended, j.ckpt.map (·.moves)))
      (fun j => by cases h : j.ckpt <;> simp [Job.unasked, h])
    obtain ⟨w, rd, tag, js, hread, _⟩ := hasks
    rw [hread] at hrestore hjobs
    refine .of_fin hlive (congrArg (fin s) hrestore) ⟨?_, rfl, rfl⟩
    rw [List.map_drop]
    refine (congrArg (List.drop s.loom.jobs.length) hjobs).trans ?_
    rw [← List.map_drop]
    exact congrArg _ List.drop_left
  · intro s f rest hfront hring hop hres hunblocked hen hnotify hidle hsel
    obtain ⟨⟨hlive, hreach⟩, hfetched, hans⟩ := hfront
    have hnop := answerFront_takes answerBobbinNop (p := takesBobbinNop) hfetched (by simp [takesBobbinNop, isBobbinEntry_, hring, hop])
      hans hreach
    have hcode : answerBobbinNop f (frontTaken rest s) = answerNow (entRecord f 0 0 0 []) (frontTaken rest s) := by
      have hfree : (tenantOf (frontTaken rest s) (f.ring / 4)).blocked = false := hunblocked
      simp [answerBobbinNop, hfree, hres]
    obtain ⟨lc, evs, was, hrec⟩ := answerNow_ticks (s := frontTaken rest s) (entRecord f 0 0 0 []) hsel
    rw [ticked_frontTaken] at hrec
    obtain ⟨w, rs, hsent, hrings, hout⟩ := recorded_sent (s := answered rest lc evs was s) (r := entRecord f 0 0 0 []) hen hnotify hidle
    exact .of_fin hlive (congrArg (fin s) ((hnop.trans hcode).trans (hrec.trans hsent))) ⟨hrings, hout, rfl⟩
  · intro s j c tile bank group hlive hruns hjobs hended hkind hckpt hdue hblock hrow hbreach hup hsel
    have hmoves : Moves s j c := ⟨hruns, hjobs, hended, hckpt, hdue⟩
    obtain ⟨lc, evs, was, heff⟩ := hmoves.saves hkind hblock hrow hbreach hup hsel
    exact .of_fin hlive (congrArg (fin s) heff) ⟨rfl, List.mem_cons_self, rfl⟩
  · intro s j c tile bank group hlive hruns hjobs hended hkind hckpt hdue hchecked hblock hrow hbreach
    obtain ⟨js, ta, up, use, w, rd, tag, heff, hjs⟩ :=
      Moves.restores_row ⟨hruns, hjobs, hended, hckpt, hdue⟩ hkind hchecked hblock hrow hbreach
    exact .of_fin hlive (congrArg (fin s) heff) ⟨rfl, hjs, rfl⟩
  · intro s j c tile bank group hlive hruns hjobs hended hkind hckpt hdue hchecked hblock hrow hlast hstart
    obtain ⟨banks, up, out, rd, heff⟩ :=
      Moves.restores_fault ⟨hruns, hjobs, hended, hckpt, hdue⟩ hkind hchecked hblock hrow hlast hstart
    exact .of_fin hlive (congrArg (fin s) heff) ⟨rfl, rfl, rfl, rfl, rfl⟩
  · intro s j c tile bank group kind hlive hruns hjobs hended hkind hckpt hdue hchecked hblock hrow hbreach
    exact .of_fin hlive rfl (Moves.restores_breach ⟨hruns, hjobs, hended, hckpt, hdue⟩ hkind hchecked hblock hrow hbreach)
  · intro s w j c hreached hout hjobs hjob hended hckpt hzeroed hleft hidle hsel
    obtain ⟨hlive, hreach⟩ := hreached
    obtain ⟨wf, lc, evs, was, hwrite, hsent⟩ := weftWriteEffect_sends hout hjobs hjob hended hidle hsel
    have hkept : saveSent w.job (ticked lc evs was { withOut (restOf w) s with weft := wf }) =
        ticked lc evs was { withOut (restOf w) s with weft := wf } := by
      have h := saveSent_kept (s := ticked lc evs was { withOut (restOf w) s with weft := wf }) hjob
        (hleft.imp_right fun hshort => outboundLeft_restOf hshort (ticked lc evs was { withJobs [j] s with weft := wf }))
      rwa [withJobs_self (s := ticked lc evs was { withOut (restOf w) s with weft := wf }) hjobs] at h
    have hzero : zeroImage w.job (ticked lc evs was { withOut (restOf w) s with weft := wf }) =
        ticked lc evs was { withOut (restOf w) s with weft := wf } := by
      have h := zeroImage_kept (s := ticked lc evs was { withOut (restOf w) s with weft := wf }) hjob
        (.inr fun c' hc' => by rw [Option.mem_def, hckpt, Option.some_inj] at hc'; rw [← hc', hzeroed])
      rwa [withJobs_self (s := ticked lc evs was { withOut (restOf w) s with weft := wf }) hjobs] at h
    rw [hkept, hzero] at hwrite
    exact .of_fin hlive (congrArg (fin s) ((if_pos hreach).trans hwrite)) ⟨hsent, rfl, rfl⟩
  · intro s w j hreached hout hjobs hjob hended hmoved hwhole hidle hsel
    obtain ⟨hlive, hreach⟩ := hreached
    obtain ⟨wf, lc, evs, was, hwrite, hsent⟩ := weftWriteEffect_sends hout hjobs hjob hended hidle hsel
    rw [restOf_whole hwhole] at hwrite
    have hends := saveSent_ends (s := ticked lc evs was { withOut [] s with weft := wf }) hjob hended hmoved rfl
    rw [withJobs_self (s := ticked lc evs was { withOut [] s with weft := wf }) hjobs] at hends
    rw [hends, zeroImage_kept (j := { j with ended := some 0 }) hjob (.inl rfl)] at hwrite
    exact .of_fin hlive (congrArg (fin s) ((if_pos hreach).trans hwrite)) ⟨hsent, rfl, rfl⟩
  · intro s w j hreached hout hjob hended huntrained
    obtain ⟨hlive, hreach⟩ := hreached
    have hwaits := weftWriteEffect_waits hout hjob hended (leavesNow_untrained huntrained)
    exact .of_fin hlive (congrArg (fin s) ((if_pos hreach).trans hwaits)) rfl
  · intro s j c code reason hlive hjobs hended hkind hckpt hunchecked hwhole himage
    obtain ⟨out, rd, hfail⟩ := failCkpt_restore (s := s) (o := j.order) rfl hckpt hkind hended code reason none
    rw [withJobs_self hjobs] at hfail
    have heff := (Uncheck.fails ⟨hjobs, hended, hkind, hckpt, hunchecked, hwhole⟩ himage).trans hfail
    exact .of_fin hlive (congrArg (fin s) heff) ⟨rfl, rfl⟩
  · intro s j c hlive hjobs hended hkind hckpt hunchecked hwhole himage
    have hmod := modCkpt_withJobs (s := s) (o := j.order) rfl hckpt (fun c => { c with checked := true })
    rw [withJobs_self hjobs] at hmod
    have hasks := readAhead_asks j.order (withJobs [{ j with ckpt := some { c with checked := true } }] s)
    have hjs := hasks.map_jobs (f := fun k => (k.ended, k.ckpt.map (·.checked))) (fun k => by cases h : k.ckpt <;> simp [Job.unasked, h])
    obtain ⟨w, rd, tag, js, hread, _⟩ := hasks
    rw [hread] at hjs
    have heff := (Uncheck.passes ⟨hjobs, hended, hkind, hckpt, hunchecked, hwhole⟩ himage).trans
      ((congrArg (readAhead j.order) hmod).trans hread)
    refine .of_fin hlive (congrArg (fin s) heff) ⟨hjs.trans ?_, rfl⟩
    rw [← hended]
    rfl
  · intro s d hhost
    have heff := hostPosts_heard none (writeBobbinCtrl d) hhost
    have hctrl : writeBobbinCtrl d s = onLoom (fun l => { l with bobbin := if s.loom.jobs.any isCkpt then { s.loom.bobbin with reject := true }
        else { s.loom.bobbin with period := BitVec.ofNat 8 d.toNat, reject := s.loom.bobbin.reject && !d.getLsbD 8 } }) s := by
      rw [writeBobbinCtrl, ofNat_field, bitOf_toNat, pow_zero, Nat.div_one]
    exact .of_fin hhost.1.1 (congrArg (fin s) (heff.trans hctrl)) rfl

end Sys2Proof.Machine
end

