-- ==== Sys2Proof/Proofs/Attention.lean ====
section
/-!
PROOF. Commands as they reach an attention engine, appends, the scan's steps, and outputs (R310 to R315, R323, R328).
-/

namespace Sys2Proof.Machine

/-! ## Flits that are taken (R237, R311) -/

section
variable {s : State} {r : Nat}

/-- A command flit is taken in the lc in which it is due, and no other flit with it. -/
theorem takeFlits_atEngine (t : State) (h : t.clocks.lc = s.clocks.lc) : takeFlits (atEngine r s.clocks.lc) t =
    onLoom (fun l => { l with flits := l.flits.filter (fun g => !atEngine r s.clocks.lc g) }) t := by
  have hdue : ∀ g : Flit, (atEngine r s.clocks.lc g && decide (g.due ≤ s.clocks.lc)) = atEngine r s.clocks.lc g := by
    intro g
    cases hat : atEngine r s.clocks.lc g with
    | false => rfl
    | true =>
      have hg : g.due = s.clocks.lc := by
        simp only [atEngine, Bool.and_eq_true, beq_iff_eq] at hat
        exact hat.2
      simp [hg]
  unfold takeFlits lcOf
  rw [h]
  simp only [hdue]

/-- A command flit as it reaches engine `r` from a running pass, and its sequence handle and lane. -/
structure Arrives (s : State) (r : Nat) (f : Flit) (x : Slot) (handle : Nat) (lane : Nat × Nat) : Prop where
  runs : mesochronousRuns s = true
  flit : s.loom.flits.find? (atEngine r s.clocks.lc) = some f
  slot : f.slot.bind (slotOfEntry s) = some x
  pass : isPass x = true
  handle : (parseCmd f.data).handle = handle
  lane : ((parseCmd f.data).layer, (parseCmd f.data).kvh) = lane
  idle : streaming s r = false

/-- The slot that a flit names is the one its entry names. -/
theorem slotOfEntry_of_bind {o : Option Nat} {x : Slot} (h : o.bind (slotOfEntry s) = some x) : slotOfEntry s x.entry = some x := by
  obtain ⟨e, _, hfind⟩ := Option.bind_eq_some_iff.mp h
  have hentry : x.entry = e := by simpa using List.find?_some hfind
  rw [hentry, hfind]

/-- The pass's draft owns the engine. -/
def ownsEngine (s : State) (r : Nat) (x : Slot) : Bool := match slotVersion s x with
  | some v => v.engines.getLsbD r
  | none => false

theorem ownsEngine_version {x : Slot} {v : Version} (hversion : slotVersion s x = some v) (hown : v.engines.getLsbD r = true) :
    ownsEngine s r x = true := by
  rw [ownsEngine, hversion]
  exact hown

/-- The command flit that reaches the engine in this lc is taken. -/
def cmdTaken (r : Nat) (s : State) : State :=
  { s with loom := { s.loom with flits := s.loom.flits.filter (fun g => !atEngine r s.clocks.lc g) } }

theorem onLoom_noUpsets (s : State) : onLoom (fun l => { l with kvUp := addUpsets l.kvUp [] }) s = s :=
  onLoom_of_fixed (by simp [addUpsets])

theorem Arrives.effect {f : Flit} {x : Slot} {handle : Nat} {lane : Nat × Nat} (h : Arrives s r f x handle lane) {kinds : Nat → Bool}
    (hkind : kinds (parseCmd f.data).kind = true) : engineCmd r kinds handle lane [] s =
      if !ownsEngine (cmdTaken r s) r x || s.clocks.lc < (engineOf s r).busyUntil then breach 6 (16 * r + 15) x (cmdTaken r s)
      else if (parseCmd f.data).kind ≠ 1 && (parseCmd f.data).kind ≠ 2 then
        breach 6 (16 * r + 15) x (putEngine r { engineOf s r with busyUntil := s.clocks.lc + 1 } (cmdTaken r s))
      else takeCmd r f.data x (cmdTaken r s) := by
  have htaken : takeFlits (atEngine r (lcOf s)) (onLoom (fun l => { l with kvUp := addUpsets l.kvUp [] }) s) = cmdTaken r s := by
    rw [onLoom_noUpsets]
    exact takeFlits_atEngine s rfl
  have hopen : ¬ (!kinds (parseCmd f.data).kind || (parseCmd f.data).handle ≠ handle || ((parseCmd f.data).layer, (parseCmd f.data).kvh) ≠ lane
      || streaming s r || !isPass x || !mesochronousRuns s) = true := by
    rw [hkind, h.handle, h.lane, h.idle, h.pass, h.runs]
    simp
  have hflit : s.loom.flits.find? (atEngine r (lcOf s)) = some f := h.flit
  unfold engineCmd
  dsimp only
  rw [hflit]
  dsimp only
  rw [h.slot]
  dsimp only
  rw [if_neg hopen, htaken]
  rfl

end

/-! ## Commands (R311, R323, R328) -/

section
variable {s : State} {r : Nat} {f : Flit} {x : Slot} {handle : Nat} {lane : Nat × Nat}

/-- Alone in the table, a command demotes no later one. -/
theorem demoteLater_alone (e : Engine) (h : s.loom.engines = []) : demoteLater r lane (putEngine r e s) = putEngine r e s := by
  have hput : (putEngine r e s).loom.engines = sput .init [] r e := congrArg (sput Engine.init · r e) h
  have hnone : ∀ p : Nat × Engine → Bool, (sput Engine.init [] r e).filter (fun y => decide (r < y.1) && p y) = [] := by
    intro p
    unfold sput
    split_ifs
    · rfl
    · simp [sins]
  unfold demoteLater
  rw [hput, hnone]
  rfl

/-- A command that is no fault takes the engine until the next one may come. -/
theorem takeCmd_good (raw : List Byte) (hfault : cmdFault s r x (parseCmd raw) = none) (hengines : s.loom.engines = []) :
    takeCmd r raw x s = putEngine r { busyUntil := nextCmdLc (parseCmd raw) s.clocks.lc, cmd := some (taken s x raw) } s := by
  unfold takeCmd
  simp only [hfault]
  split
  · exact demoteLater_alone _ hengines
  · rfl

theorem engineOf_none (h : s.loom.engines = []) : engineOf s r = .init := by
  rw [engineOf, h]
  rfl

/-- A known command that is no fault, from a pass whose draft owns the idle engine. -/
theorem Arrives.takes (h : Arrives s r f x handle lane) {kinds : Nat → Bool} (hkind : kinds (parseCmd f.data).kind = true)
    (hknown : (parseCmd f.data).kind = 1 ∨ (parseCmd f.data).kind = 2) (hown : ownsEngine s r x = true)
    (hengines : s.loom.engines = []) (hfault : cmdFault s r x (parseCmd f.data) = none) : engineCmd r kinds handle lane [] s =
      putEngine r { busyUntil := nextCmdLc (parseCmd f.data) s.clocks.lc, cmd := some (taken s x f.data) } (cmdTaken r s) := by
  have howns : ownsEngine (cmdTaken r s) r x = true := hown
  have hkinds : ¬ ((parseCmd f.data).kind ≠ 1 && (parseCmd f.data).kind ≠ 2) = true := by
    obtain hk | hk := hknown <;> simp [hk]
  rw [h.effect hkind, if_neg (by simp [howns, engineOf_none hengines, Engine.init]), if_neg hkinds]
  exact takeCmd_good (s := cmdTaken r s) f.data hfault hengines

/-- At a busy engine the command is a breach. -/
theorem Arrives.busy (h : Arrives s r f x handle lane) {kinds : Nat → Bool} (hkind : kinds (parseCmd f.data).kind = true)
    (hbusy : s.clocks.lc < (engineOf s r).busyUntil) : engineCmd r kinds handle lane [] s = breach 6 (16 * r + 15) x (cmdTaken r s) :=
  (h.effect hkind).trans (if_pos (by simp [hbusy]))

/-- A command of an unknown KIND takes the engine for one lc, and is a breach. -/
theorem Arrives.unknown (h : Arrives s r f x handle lane) {kinds : Nat → Bool} (hkind : kinds (parseCmd f.data).kind = true)
    (h1 : (parseCmd f.data).kind ≠ 1) (h2 : (parseCmd f.data).kind ≠ 2) (hown : ownsEngine s r x = true)
    (hengines : s.loom.engines = []) : engineCmd r kinds handle lane [] s =
      breach 6 (16 * r + 15) x (putEngine r { busyUntil := s.clocks.lc + 1, cmd := none } (cmdTaken r s)) := by
  have howns : ownsEngine (cmdTaken r s) r x = true := hown
  rw [h.effect hkind, engineOf_none hengines, if_neg (by simp [howns, Engine.init]), if_pos (by simp [h1, h2])]
  rfl

/-- A breach leaves the engines alone. -/
theorem engineOf_breach (kind tile k : Nat) (x : Slot) (s : State) : engineOf (breach kind tile x s) k = engineOf s k := by
  obtain ⟨b, w, p, rs, ts, ta, js, tl, sl, h⟩ := breach_frame s kind tile x
  rw [h]
  rfl

end

/-! ## Metadata (R315, R329) -/

section
variable {s : State}

theorem readMetaWord_clean (q l key : Nat) (f : UpsetKind → Nat → Lane → Lane) (h : s.loom.kvUp = []) : readMetaWord q l key f s = s := by
  have hnone : upsetOf s.loom.kvUp key = none := by
    rw [h]
    rfl
  unfold readMetaWord
  rw [hnone]

/-- With no upset known, a lane's metadata is read as it stands. -/
theorem readMeta_clean (q l : Nat) (h : s.loom.kvUp = []) : readMeta q l s = s := by
  have hlane : readLaneMeta q l s = s := List.foldl_fixed' (fun i => readMetaWord_clean q l _ _ h) _
  unfold readMeta
  rw [h]
  exact hlane

/-! ## Ticks of an engine (R311, R313, R315) -/

section
variable {r : Nat} {k : EngineCmd}

/-- A command whose T0 has come and that has not appended does so. -/
theorem engineTick_appends (hcmd : (engineOf s r).cmd = some k) (happended : k.appended = false)
    (hdue : s.clocks.lc = appendLc (parseCmd k.raw) k.first) : engineTick r s = engineAppend r k s := by
  unfold engineTick lcOf
  rw [hcmd]
  simp only [happended, Bool.and_false, Bool.false_and, Bool.false_eq_true, if_false, Bool.not_false, if_true]
  exact if_neg (by rw [hdue]; exact lt_irrefl _)

/-- After T0 a scan that has more slots left than one reads the next one. -/
theorem engineTick_scans (hcmd : (engineOf s r).cmd = some k) (happended : k.appended = true) (hkind : (parseCmd k.raw).kind = 1)
    (hleft : k.scanned + 1 < (parseCmd k.raw).w) (hdue : appendLc (parseCmd k.raw) k.first ≤ s.clocks.lc) :
    engineTick r s = engineScan r k s := by
  have hlt : k.scanned < (parseCmd k.raw).w := by omega
  have hw : decide ((parseCmd k.raw).w ≤ k.scanned) = false := decide_eq_false (Nat.not_le.2 hlt)
  unfold engineTick lcOf
  rw [hcmd]
  simp [happended, hkind, hw, hlt, hleft, Nat.not_lt.2 hdue]

/-- The last slot's scan ends the command. -/
theorem engineTick_ends {k' : EngineCmd} (hcmd : (engineOf s r).cmd = some k) (happended : k.appended = true)
    (hkind : (parseCmd k.raw).kind = 1) (hlast : k.scanned + 1 = (parseCmd k.raw).w)
    (hdue : appendLc (parseCmd k.raw) k.first ≤ s.clocks.lc) (hscan : (engineOf (engineScan r k s) r).cmd = some k') :
    engineTick r s = engineDone r k' (engineScan r k s) := by
  have hlt : k.scanned < (parseCmd k.raw).w := by omega
  have hw : decide ((parseCmd k.raw).w ≤ k.scanned) = false := decide_eq_false (Nat.not_le.2 hlt)
  unfold engineTick lcOf
  rw [hcmd]
  simp [happended, hkind, hw, hlt, hlast, Nat.not_lt.2 hdue, hscan]

theorem workLane_faulty (h : k.faulty = true) : workLane k = none := if_pos h

theorem workLane_good (h : k.faulty = false) : workLane k = k.lane := if_neg (by simp [h])

/-- A faulty command's scan reads nothing. -/
theorem engineScan_faulty (h : k.faulty = true) : engineScan r k s = setCmd r (some { k with scanned := k.scanned + 1 }) s := by
  unfold engineScan
  dsimp only
  rw [workLane_faulty h]

/-- A scan passes a slot that is not valid by (R313). -/
theorem engineScan_invalid {q l : Nat} (hgood : k.faulty = false) (hlane : k.lane = some (q, l))
    (hinvalid : (kvSlotOf (laneOf (seqOf s q) l) k.scanned).valid = false) :
    engineScan r k s = setCmd r (some { k with scanned := k.scanned + 1 }) s := by
  unfold engineScan
  dsimp only
  rw [workLane_good hgood, hlane]
  exact if_pos (by rw [hinvalid]; rfl)

/-- The command once T0 has passed. -/
def appendedCmd (s : State) (r : Nat) (k : EngineCmd) : EngineCmd :=
  { k with appended := true, query := flitBytes s r (k.first + 1) (queryFlits (parseCmd k.raw)), heads := freshHeads (parseCmd k.raw) }

/-- The command stands appended at its engine, and its flits are taken. -/
def appendedAt (s : State) (r : Nat) (k : EngineCmd) (t : State) : State :=
  takeFlits (fun f => f.dest == 512 + r) (setCmd r (some (appendedCmd s r k)) t)

theorem engineAppend_faulty (h : k.faulty = true) (hkind : (parseCmd k.raw).kind = 1) (hw : (parseCmd k.raw).w = 0) :
    engineAppend r k s = engineDone r (appendedCmd s r k) (appendedAt s r k s) := by
  unfold engineAppend
  dsimp only
  rw [workLane_faulty h]
  exact if_pos (by rw [hkind, hw]; rfl)

/-- The key and value that an APPEND's flits bring (R310, R311). -/
def appendKey (s : State) (r : Nat) (k : EngineCmd) : List Byte := flitBytes s r (k.first + 1) (kvFlits (parseCmd k.raw) / 2)
def appendValue (s : State) (r : Nat) (k : EngineCmd) : List Byte :=
  flitBytes s r (k.first + 1 + kvFlits (parseCmd k.raw) / 2) (kvFlits (parseCmd k.raw) / 2)

/-- An APPEND writes its position in T0. -/
theorem engineAppend_writes {q l : Nat} (hgood : k.faulty = false) (hlane : k.lane = some (q, l)) (hkind : (parseCmd k.raw).kind = 2)
    (hup : s.loom.kvUp = []) : engineAppend r k s = appendedAt s r k (appendPos q l (appendKey s r k) (appendValue s r k) s) := by
  have hquery : queryFlits (parseCmd k.raw) = 0 := if_neg (by rw [hkind]; decide)
  have happends : appends (parseCmd k.raw) = true := by simp [appends, hkind]
  have hends : ¬ ((parseCmd k.raw).kind = 1 && (parseCmd k.raw).w = 0) = true := by simp [hkind]
  unfold engineAppend appendedAt appendedCmd appendKey appendValue
  simp only [workLane_good hgood, hlane, readMeta_clean q l hup, if_pos happends, if_neg hends, hquery, Nat.add_zero]

end

/-! ## Appended positions (R315) -/

/-- A lane with one more position, in slot `j`. -/
def appendedLane (v : Lane) (j : Nat) : Lane :=
  putKvSlot j { valid := true, tag := v.npos, score := 0 } { v with npos := v.npos + 1 }

/-- An append that finds a free slot writes it, and the lane's count moves on. -/
theorem appendPos_free {q l j : Nat} (key value : List Byte) (hslot : appendSlot (seqOf s q).desc (laneOf (seqOf s q) l) = (some j, false)) :
    ∃ up ta, appendPos q l key value s = { s with
    loom := Loom.tallied { s.loom with
      seqs := sput .init s.loom.seqs q (putLane l (appendedLane (laneOf (seqOf s q) l) j) (seqOf s q))
      kv := mwrite s.loom.kv (kvSlotAddr (seqOf s q) l j)
        (slice (key.take (kvBytes (descDim (seqOf s q).desc) (descKf (seqOf s q).desc))) 0 (slotSize (seqOf s q).desc / 2)
          ++ slice (value.take (kvBytes (descDim (seqOf s q).desc) (descKf (seqOf s q).desc))) 0 (slotSize (seqOf s q).desc / 2))
      kvUp := up } ta } := by
  unfold appendPos
  dsimp only
  rw [hslot]
  dsimp only
  obtain ⟨ta, htally⟩ := loomTally_frame (onLoom _ (putSeq q _ s)) (if descScore (seqOf s q).desc then 0x55 else 0x56)
    (some (seqOf s q).tenant) (if false then 1 else 0)
  exact ⟨_, ta, htally⟩

/-! ## Zero outputs (R328) -/

theorem slice_zeros {bs : List Byte} (h : ∀ b ∈ bs, b = 0) (off n : Nat) : slice bs off n = List.replicate n 0 := by
  refine List.eq_replicate_iff.2 ⟨length_slice bs off n, fun b hb => ?_⟩
  unfold slice at hb
  obtain hb | hb := List.mem_append.1 hb
  · exact h b (List.mem_of_mem_drop (List.mem_of_mem_take hb))
  · exact (List.mem_replicate.1 hb).2

/-- The heads of a command that has summed nothing give zeros. -/
theorem outBytes_fresh (c : AttnCmd) : ∀ b ∈ outBytes c (freshHeads c), b = 0 := by
  have hsum : xIsZero (wordVal 0) = true := by decide
  have hf32 : toLe 4 (rne32 (.rat false 0 1 0)) = [0, 0, 0, 0] := by decide
  have hbf16 : toLe 2 (toFloat bf16 false true (.rat false 0 1 0)) = [0, 0] := by decide
  intro b hb
  obtain ⟨h, hhead, hb⟩ := List.mem_flatMap.1 hb
  obtain ⟨_, rfl⟩ := List.mem_replicate.1 hhead
  obtain ⟨o, _, hb⟩ := List.mem_flatMap.1 hb
  dsimp only at hb
  rw [if_pos hsum, hf32, hbf16] at hb
  split_ifs at hb <;> simpa using hb

/-- The output flits of a faulty command. -/
def zeroFlits (r at_ : Nat) (k : EngineCmd) : List Flit := (span 0 (outFlits (parseCmd k.raw))).map (fun i =>
  { dest := 16 * r + 15, dir := .e, due := at_ + i, data := List.replicate 64 0, poisoned := false, slot := k.slot, engine := true })

theorem engineDone_faulty {r : Nat} {k : EngineCmd} (h : k.faulty = true) : (engineDone r k s).loom.flits =
    s.loom.flits ++ zeroFlits r (appendLc (parseCmd k.raw) k.first + (parseCmd k.raw).w + 24) k := by
  have hzeros : ∀ out : List Byte, (∀ b ∈ out, b = 0) → cutFlits (parseCmd k.raw) out =
      (span 0 (outFlits (parseCmd k.raw))).map (fun _ => List.replicate 64 0) :=
    fun out hout => List.map_congr_left (fun i _ => slice_zeros hout _ _)
  unfold engineDone zeroFlits
  simp only [workLane_faulty h, h, if_true, hzeros _ (outBytes_fresh _)]
  simp only [span, List.map_map, List.zip_map']
  rfl

end

/-! ## Outputs that arrive (R311) -/

section
variable {s : State} {r : Nat}

/-- An engine's output that is the only flit on the mesh enters the E receive register of its tile. -/
theorem engineOutput_one {f : Flit} (hflits : s.loom.flits = [f]) (hdest : f.dest = 16 * r + 15) (hengine : f.engine = true)
    (hdue : f.due = s.clocks.lc) (htakes : takesPart s (16 * r + 15) = true)
    (hfree : ∀ y ∈ (tileOf s (16 * r + 15)).recv, y.lc ≠ s.clocks.lc) : engineOutput r s =
      putTile (16 * r + 15) { pruneRows s.clocks.lc (tileOf s (16 * r + 15)) with
        recv := (pruneRows s.clocks.lc (tileOf s (16 * r + 15))).recv ++
          [{ lc := s.clocks.lc, key := dirCode .e, unit := unitMesh, data := f.data, poisoned := f.poisoned }] }
      { s with loom := { s.loom with flits := [] } } := by
  have hleft : takeFlits (fun f => f.dest == 16 * r + 15 && f.engine) s = { s with loom := { s.loom with flits := [] } } := by
    simp [takeFlits, onLoom, hflits, hdest, hengine, hdue, lcOf]
  have hfind : s.loom.flits.find? (fun f => f.dest == 16 * r + 15 && f.engine && f.due == lcOf s) = some f := by
    simp [hflits, hdest, hengine, hdue, lcOf]
  have hroom : (pruneRows s.clocks.lc (tileOf s (16 * r + 15))).recv.any (fun y => y.lc == s.clocks.lc && y.key == dirCode .e) = false := by
    rw [List.any_eq_false]
    intro y hy
    simp [hfree y (List.mem_of_mem_filter hy)]
  have htakes' : takesPart { s with loom := { s.loom with flits := [] } } (16 * r + 15) = true := htakes
  unfold engineOutput
  dsimp only
  rw [hfind]
  dsimp only
  rw [hleft]
  unfold receive
  dsimp only
  rw [htakes', Bool.not_true, if_neg Bool.false_ne_true]
  exact if_neg (by rw [Bool.not_eq_true]; exact hroom)

end

/-- What the append leaves at its sequence and in the KV store. -/
theorem appendedAt_appendPos {s : State} {r q l j : Nat} {k : EngineCmd} (key value : List Byte)
    (hslot : appendSlot (seqOf s q).desc (laneOf (seqOf s q) l) = (some j, false)) :
    seqOf (appendedAt s r k (appendPos q l key value s)) q = putLane l (appendedLane (laneOf (seqOf s q) l) j) (seqOf s q)
    ∧ (appendedAt s r k (appendPos q l key value s)).loom.kv = mwrite s.loom.kv (kvSlotAddr (seqOf s q) l j)
        (slice (key.take (kvBytes (descDim (seqOf s q).desc) (descKf (seqOf s q).desc))) 0 (slotSize (seqOf s q).desc / 2)
          ++ slice (value.take (kvBytes (descDim (seqOf s q).desc) (descKf (seqOf s q).desc))) 0 (slotSize (seqOf s q).desc / 2)) := by
  obtain ⟨up, ta, happended⟩ := appendPos_free key value hslot
  rw [happended]
  exact ⟨sget_sput_same (d := Seq.init) _ _ _, rfl⟩

/-- The appended position stands in its slot, and the lane counts it. -/
theorem laneOf_appended (sq : Seq) (l j : Nat) :
    kvSlotOf (laneOf (putLane l (appendedLane (laneOf sq l) j) sq) l) j = { valid := true, tag := (laneOf sq l).npos, score := 0 }
    ∧ (laneOf (putLane l (appendedLane (laneOf sq l) j) sq) l).npos = (laneOf sq l).npos + 1 := by
  have hlane : laneOf (putLane l (appendedLane (laneOf sq l) j) sq) l = appendedLane (laneOf sq l) j :=
    sget_sput_same (d := Lane.init) _ _ _
  have hplaced : kvSlotOf (appendedLane (laneOf sq l) j) j = { valid := true, tag := (laneOf sq l).npos, score := 0 } := by
    simp only [kvSlotOf, appendedLane, putKvSlot, sget_sput_same]
  rw [hlane]
  exact ⟨hplaced, rfl⟩

/-- The handle and lane of a command as the event names them. -/
theorem Arrives.of_names {s : State} {r : Nat} {f : Flit} {x : Slot} {h : BitVec 2} {l : BitVec 8 × BitVec 8}
    (hruns : mesochronousRuns s = true) (hflit : s.loom.flits.find? (atEngine r s.clocks.lc) = some f)
    (hslot : f.slot.bind (slotOfEntry s) = some x) (hpass : isPass x = true) (hnames : NamesLane (parseCmd f.data) h l)
    (hidle : (engineOf s r).cmd = none) : Arrives s r f x h.toNat (l.1.toNat, l.2.toNat) := by
  obtain ⟨hhandle, hlayer, hkvh⟩ := hnames
  refine ⟨hruns, hflit, hslot, hpass, hhandle, by rw [hlayer, hkvh], ?_⟩
  unfold streaming
  rw [hidle]

theorem engineOf_noCmd {s : State} {r : Nat} (h : s.loom.engines = []) : (engineOf s r).cmd = none :=
  congrArg Engine.cmd (engineOf_none h)

/-- The engine that takes a command holds it, and the others are as they were. -/
theorem engineOf_taken (s : State) (r : Nat) (e : Engine) : engineOf (putEngine r e (cmdTaken r s)) r = e
    ∧ ∀ k, k ≠ r → engineOf (putEngine r e (cmdTaken r s)) k = engineOf s k :=
  ⟨sget_sput_same (d := Engine.init) _ _ _, fun _ hk => sget_sput_other _ _ _ hk.symm⟩

/-- Flits of an APPEND: its key and value follow it, T0 comes after them, and the next command may come one lc later (R311). -/
theorem nextCmdLc_append {c : AttnCmd} {n : Nat} (h : c.kind = 2) : nextCmdLc c n = n + 2 * ceilDiv (kvBytes c.d c.kf) 64 + 2 := by
  simp [nextCmdLc, appendLc, queryFlits, kvFlits, appends, h]

/-- After its scan an ATTEND still sends its outputs (R311). -/
theorem nextCmdLc_attend {c : AttnCmd} {n : Nat} (h : c.kind = 1) :
    nextCmdLc c n = n + queryFlits c + kvFlits c + 1 + c.w + outFlits c := if_pos h

/-- Settles O52: commands at an engine through `Arrives`, its ticks, and the outputs it sends. -/
theorem attentionEngines : Obligations.AttentionEngines := by
  unfold Obligations.AttentionEngines
  refine ⟨?_, ?_, ?_, ?_, ?_, ?_, ?_, ?_, ?_⟩
  case refine_1 =>
    intro s r f x v h l hlive hruns hengines _ hflit hslot hpass hversion hown hkind hfault hnames
    have harrives := Arrives.of_names hruns hflit hslot hpass hnames (engineOf_noCmd hengines)
    have htakes := harrives.takes (kinds := fun k => k == 2) (by simp [hkind]) (.inr hkind) (ownsEngine_version hversion hown) hengines hfault
    obtain ⟨hsame, hother⟩ := engineOf_taken s r.toNat
      { busyUntil := nextCmdLc (parseCmd f.data) s.clocks.lc, cmd := some (taken s x f.data) }
    refine .of_fin hlive (congrArg (fin s) htakes) ⟨hsame.trans ?_, fun k _ hk => hother k hk, rfl, rfl⟩
    rw [nextCmdLc_append hkind]
  case refine_2 =>
    intro s r f x v h l hlive hruns hengines _ hflit hslot hpass hversion hown hkind hfault hnames
    have harrives := Arrives.of_names hruns hflit hslot hpass hnames (engineOf_noCmd hengines)
    have htakes := harrives.takes (kinds := fun k => k != 2) (by simp [hkind]) (.inl hkind) (ownsEngine_version hversion hown) hengines hfault
    obtain ⟨hsame, hother⟩ := engineOf_taken s r.toNat
      { busyUntil := nextCmdLc (parseCmd f.data) s.clocks.lc, cmd := some (taken s x f.data) }
    refine .of_fin hlive (congrArg (fin s) htakes) ⟨hsame.trans ?_, fun k _ hk => hother k hk, rfl, rfl⟩
    rw [nextCmdLc_attend hkind]
  case refine_3 =>
    intro s r f x h l hlive hruns hidle hbusy hflit hslot hpass hfirst hkind hnames
    have hbreaches := (Arrives.of_names hruns hflit hslot hpass hnames hidle).busy (kinds := fun k => k != 2) (by simp [hkind]) hbusy
    obtain ⟨_, _, hfaulted, hword⟩ := breach_marks (s := cmdTaken r.toNat s) 6 (16 * r.toNat + 15) (slotOfEntry_of_bind hslot) hfirst
    exact .of_fin hlive (congrArg (fin s) hbreaches) ⟨engineOf_breach _ _ _ _ _, hfaulted, hword⟩
  case refine_4 =>
    intro s r f x v h l hlive hruns hengines hflit hslot hpass hfirst hversion hown h1 h2 hnames
    have hbreaches := (Arrives.of_names hruns hflit hslot hpass hnames (engineOf_noCmd hengines)).unknown (kinds := fun k => k != 2)
      (by simp [h2]) h1 h2 (ownsEngine_version hversion hown) hengines
    obtain ⟨hsame, _⟩ := engineOf_taken s r.toNat { busyUntil := s.clocks.lc + 1, cmd := none }
    have hbreached := (engineOf_breach 6 (16 * r.toNat + 15) r.toNat x
      (putEngine r.toNat { busyUntil := s.clocks.lc + 1, cmd := none } (cmdTaken r.toNat s))).trans hsame
    obtain ⟨_, _, _, hword⟩ := breach_marks (s := putEngine r.toNat { busyUntil := s.clocks.lc + 1, cmd := none } (cmdTaken r.toNat s))
      6 (16 * r.toNat + 15) (slotOfEntry_of_bind hslot) hfirst
    exact .of_fin hlive (congrArg (fin s) hbreaches) ⟨congrArg Engine.busyUntil hbreached, congrArg Engine.cmd hbreached, hword⟩
  case refine_5 =>
    intro s r k q l j hcmd happended hgood hkind hlane hdue hup hslot
    obtain ⟨hseq, hkv⟩ := appendedAt_appendPos (r := r) (k := k) (appendKey s r k) (appendValue s r k) hslot
    obtain ⟨hplaced, hnpos⟩ := laneOf_appended (seqOf s q) l j
    rw [engineTick_appends hcmd happended hdue, engineAppend_writes hgood hlane hkind hup, hseq]
    exact ⟨hplaced, hnpos, hkv⟩
  case refine_6 =>
    intro s r k q l hcmd happended hgood hkind hlane hleft hdue hinvalid
    exact (engineTick_scans hcmd happended hkind hleft hdue).trans (engineScan_invalid hgood hlane hinvalid)
  case refine_7 =>
    intro s r k hcmd happended hfaulty hkind hw hdue hflits
    have hempty : (appendedAt s r k s).loom.flits = [] := congrArg (List.filter _) hflits
    rw [engineTick_appends hcmd happended hdue, engineAppend_faulty hfaulty hkind hw,
      engineDone_faulty (k := appendedCmd s r k) hfaulty, hempty]
    simp only [zeroFlits, appendedCmd, hw, ← hdue, Nat.add_zero, List.nil_append]
  case refine_8 =>
    intro s r k hcmd happended hfaulty hkind hlast hdue
    have hscan := engineScan_faulty (s := s) (r := r) hfaulty
    have hnext : (engineOf (engineScan r k s) r).cmd = some { k with scanned := k.scanned + 1 } := by
      rw [hscan]
      exact congrArg Engine.cmd (sget_sput_same (d := Engine.init) _ _ _)
    rw [engineTick_ends hcmd happended hkind hlast hdue hnext, engineDone_faulty (k := { k with scanned := k.scanned + 1 }) hfaulty, hscan]
    rfl
  case refine_9 =>
    intro s r f hlive hruns hflits hdest hengine hdue htakes hfree
    have hout := engineOutput_one hflits hdest hengine hdue htakes hfree
    refine .of_fin hlive (congrArg (fin s) ((if_pos hruns).trans hout)) ⟨rfl, ?_, rfl⟩
    refine (congrArg (fun y : Tile => y.recv.getLast?) (sget_sput_same (d := Tile.init) _ _ _)).trans ?_
    exact List.getLast?_concat

end Sys2Proof.Machine
end
